-- ==== Sys2Proof/Word.lean ====
section
/-! DEFINITION. The widths of the characters and times that the links carry (spec/10 R173) and the greatest
battery time (spec/01 R1). -/

namespace Sys2Proof

/-- One character's eight data bits (R169, R173). -/
abbrev Byte := BitVec 8

/-- A battery time as a frame carries it: four characters, unsigned (R173). -/
abbrev Time32 := BitVec 32

/-- The greatest battery time, at which the count holds (R1). -/
def tMax : Nat := 4294967295

end Sys2Proof
end

