-- ==== Sys2Proof/Syntax.lean ====
section
/-! DEFINITION. The names the spec uses for operands, and the commands: one constructor of `Instr` per row of
spec/opcode_table.json. A supervisor request carries its tag (R176); a machine frame carries its machine. -/

namespace Sys2Proof

/-- The four machines, each on its own M-link (00 section 2). -/
inductive MachineId where
  | pm | gc | cc | qc
  deriving DecidableEq, Repr

/-- The five links (00 section 2). -/
inductive LinkId where
  | sup
  | mach (m : MachineId)
  deriving DecidableEq, Repr

/-- The two sides of an oven that have a door (00 section 5.2). -/
inductive Side where
  | ps | cs
  deriving DecidableEq, Repr

/-- The sides a STATUS spot may name (R48, R173). -/
inductive SpotSide where
  | ps | cs | top | track
  deriving DecidableEq, Repr

/-- Machine mode (R47). -/
inductive Mode where
  | auto | localMode
  deriving DecidableEq, Repr

/-- Motion flag of a STATUS (R48). -/
inductive Motion where
  | stopped | moving
  deriving DecidableEq, Repr

/-- The spot a STATUS reports (R48, R173). -/
inductive ReportedSpot where
  | oven (n : Nat) (side : SpotSide)
  | park
  | tower
  | wharf (b : Nat)
  | bunker
  deriving DecidableEq, Repr

/-- PM's ram (R47). -/
inductive Ram where
  | home | forward | atEnd
  deriving DecidableEq, Repr

/-- GC's guide (R47). -/
inductive Guide where
  | locked | free
  deriving DecidableEq, Repr

/-- QC's load (R47). -/
inductive CarLoad where
  | empty | loaded
  deriving DecidableEq, Repr

/-- The sender of a STATUS with its machine status; CC has none (R47, R48). -/
inductive StatusFrom where
  | pm (ram : Ram)
  | gc (guide : Guide)
  | cc
  | qc (carLoad : CarLoad)
  deriving DecidableEq, Repr

/-- The machine that sends the STATUS. -/
def StatusFrom.machine : StatusFrom → MachineId
  | .pm _ => .pm
  | .gc _ => .gc
  | .cc => .cc
  | .qc _ => .qc

/-- Permit kinds (R51). -/
inductive PermitKind where
  | doorOffPs | doorOffCs | push | charge
  deriving DecidableEq, Repr

/-- Oven states (R9). -/
inductive OvenState where
  | out | empty | charging | coking | ready | pushing
  deriving DecidableEq, Repr

/-- Slot modes (R9). -/
inductive SlotMode where
  | auto | fixed | hold | skip
  deriving DecidableEq, Repr

/-- Direction of OVEN_SERVICE (R10). -/
inductive ServiceDir where
  | intoService | outOfService
  deriving DecidableEq, Repr

/-- Door states (R88). -/
inductive DoorState where
  | tight | leaking | off | onUnconfirmed
  deriving DecidableEq, Repr

/-- Standpipe valve states (R128). -/
inductive ValveState where
  | unknown | opened | closed | aspirating
  deriving DecidableEq, Repr

/-- Door task kinds (R93). -/
inductive TaskKind where
  | reseal | clean | inspect
  deriving DecidableEq, Repr

/-- Result of a door task (R98). -/
inductive TaskResult where
  | tight | leak
  deriving DecidableEq, Repr

/-- Valve task actions (R130). -/
inductive ValveAction where
  | isolate | aspirate | normal
  deriving DecidableEq, Repr

/-- Result of a valve task (R135). -/
inductive ValveResult where
  | done | blocked
  deriving DecidableEq, Repr

/-- The machines whose TASK_DONE the door unit takes or rejects; CC's is CC_TASK_DONE (R98, R135). -/
inductive TaskSender where
  | pm | gc | qc
  deriving DecidableEq, Repr

/-- The machine behind a task sender. -/
def TaskSender.machine : TaskSender → MachineId
  | .pm => .pm
  | .gc => .gc
  | .qc => .qc

/-- A spot of the quench track row (R142). -/
inductive TrackSpot where
  | park | oven (n : Nat) | tower | wharf
  deriving DecidableEq, Repr

/-- Line code of a link (R169). -/
inductive LineCode where
  | nrz | optical
  deriving DecidableEq, Repr

/-- Terminal functions (R160). -/
inductive TermFn where
  | unassigned
  | input
  | output
  | pressIn (sec : Nat)
  | damperPwm (sec : Nat)
  | flareOut (sec : Nat)
  | lowAlarm (sec : Nat)
  | sprayOut
  | gateOut (bay : Nat)
  | conveyorRunIn
  | batteryStopIn
  deriving DecidableEq, Repr

/-- Drive setting (R159, R166). -/
inductive Drive where
  | normal | high
  deriving DecidableEq, Repr

/-- Edge select (R163). -/
inductive Edge where
  | rise | fall | both
  deriving DecidableEq, Repr

/-- The fields of a SERIES block but for its start time (R22). -/
structure SeriesParams where
  s : Nat
  d : Nat
  pi : Nat
  c : Nat
  h : Nat
  deriving DecidableEq, Repr

/-- The fields of a TIMING block (chapter 11, table of blocks). W, L and T_adj in minutes, the rest in seconds. -/
structure Timing where
  w : Nat
  l : Nat
  tUse : Nat
  tSs : Nat
  tSd : Nat
  tAdj : Nat
  tRam : Nat
  tReturn : Nat
  tDoors : Nat
  tCharge : Nat
  lIso : Nat
  deriving DecidableEq, Repr

/-- The sixteen parameters of a PRESSURE block (R109). -/
structure PressureParams where
  setpoint : Int
  deadband : Int
  kp : Int
  ki : Int
  uMin : Int
  uMax : Int
  rate : Int
  uStart : Int
  decay : Int
  ffIso : Int
  ffChg : Int
  ffEnd : Int
  pLow : Int
  pHigh : Int
  pFlare : Int
  hysteresis : Int
  deriving DecidableEq, Repr

/-- The fields of a WHARF block (R156). -/
structure WharfVals where
  bays : Nat
  tHot : Nat
  tSpray : Nat
  tDrain : Nat
  tCool : Nat
  tGate : Nat
  tMove : Nat
  deriving DecidableEq, Repr

/-- The fields of a DOORS block (R91). -/
structure DoorVals where
  cleanThreshold : Nat
  tConfirm : Nat
  tTask : Nat
  iBase : Nat
  deriving DecidableEq, Repr

/-- Line settings of a link (R169). -/
structure LineSettings where
  dv : Nat
  code : LineCode
  txInvert : Bool
  rxInvert : Bool
  deriving DecidableEq, Repr

/-- The fields of an OVEN_LOAD block (R20, R88, R128). -/
structure OvenLoad where
  oven : Nat
  state : OvenState
  chargeEnd : Option Time32
  target : Nat
  mode : SlotMode
  fixedPush : Option Time32
  valve : Option ValveState
  doorPs : Option DoorState
  doorCs : Option DoorState
  deriving DecidableEq, Repr

/-- A character as it comes in on a line, before receive invert: the level of the line, true for high, in each
thirty-second of its eleven bit cells (R169, R170), the earliest at bit 0, counted from the fall that may start the
character. The steps of a thirty-second are the model's choice (log 62). -/
abbrev LineWave := BitVec 352

/-- The commands of the block: one constructor per row of spec/opcode_table.json, in the table's order.
`none` in a named operand is a carried value that is not one of the names, where the owning rule decides it. -/
inductive Instr where
  | hardReset
  | controlTick
  | oneSecondTick
  | inspectionAccrual (side : Side)
  | readyExpiry (oven : Nat)
  | overdueExpiry (oven : Nat)
  | dueExpiry
  | holdOverExpiry
  | rangeStepEnd
  | useDeadlineExpiry (m : MachineId)
  | tRamExpiry
  | stageTimerExpiry
  | confirmExpiry (oven : Nat) (side : Side)
  | taskTimerExpiry (side : Side)
  | roundVisitTimerExpiry (side : Side)
  | isolateTimerExpiry
  | valveTaskTimerExpiry
  | chargeTimerExpiry (oven : Nat)
  | moveTimerExpiry
  | hotTimerExpiry
  | sprayTimerExpiry
  | drainTimerExpiry
  | coolTimerExpiry (bay : Nat)
  | gateTimerExpiry
  | mLinkSilenceExpiry (m : MachineId)
  | sLinkSilenceExpiry
  | characterGapExpiry (l : LinkId)
  | characterReceived (l : LinkId) (wave : LineWave)
  | testCharacter (m : MachineId) (wave : LineWave)
  | sLinkFrameSent
  | mLinkFrameSent (m : MachineId)
  | inputLevelChange (t : Nat) (energised : Bool)
  | terminalOverload (t : Nat)
  | status (sender : StatusFrom) (mode : Mode) (motion : Motion) (spot : ReportedSpot)
  | requestDoorOffPs (m : MachineId) (oven : Nat)
  | requestDoorOffCs (m : MachineId) (oven : Nat)
  | requestPush (m : MachineId) (oven : Nat)
  | requestCharge (m : MachineId) (oven : Nat)
  | doorOff (m : MachineId) (oven : Nat) (side : Option Side)
  | doorOn (m : MachineId) (oven : Nat) (side : Option Side)
  | doorTight (m : MachineId) (oven : Nat) (side : Option Side)
  | ramStart (m : MachineId) (oven : Nat)
  | ramAtEnd (m : MachineId) (oven : Nat)
  | ramHome (m : MachineId) (oven : Nat)
  | chargeStart (m : MachineId) (oven : Nat)
  | chargeEnd (m : MachineId) (oven : Nat)
  | valve (m : MachineId) (oven : Nat) (state : Option ValveState)
  | leakSeen (m : MachineId) (oven : Nat) (side : Option Side)
  | taskDone (m : TaskSender) (oven : Nat) (kind : TaskKind) (result : TaskResult)
  | ccTaskDone (oven : Nat) (action : ValveAction) (result : ValveResult)
  | dumpDone (m : MachineId) (bay : Nat)
  | battery (tag : Byte) (nOv : Nat) (k : Nat) (lasts : List Nat)
  | series (tag : Byte) (p : SeriesParams) (start : Option Time32)
  | timing (tag : Byte) (v : Timing)
  | pressure (tag : Byte) (sec : Nat) (p : PressureParams)
  | wharf (tag : Byte) (v : WharfVals)
  | doors (tag : Byte) (v : DoorVals)
  | terminal (tag : Byte) (t : Nat) (fn : TermFn) (invert : Bool) (drive : Drive) (edge : Edge)
  | link (tag : Byte) (l : LinkId) (v : LineSettings)
  | ovenLoad (tag : Byte) (v : OvenLoad)
  | setTime (tag : Byte) (t : Time32)
  | ovenService (tag : Byte) (oven : Nat) (dir : ServiceDir)
  | setTarget (tag : Byte) (oven : Nat) (target : Nat)
  | makeup (tag : Byte) (oven : Nat)
  | cancelMakeup (tag : Byte) (oven : Nat)
  | planStart (tag : Byte) (start : Option Time32)
  | planHalt (tag : Byte)
  | planResume (tag : Byte)
  | planStage (tag : Byte)
  | setMode (tag : Byte) (oven : Nat) (mode : SlotMode) (fixedPush : Option Time32)
  | setModeRange (tag : Byte) (first : Nat) (last : Nat) (mode : Option SlotMode) (fixedPush : Option Time32)
  | rangeAbort (tag : Byte)
  | clearBreach (tag : Byte) (oven : Nat)
  | pushRetry (tag : Byte) (oven : Nat)
  | abandon (tag : Byte) (oven : Nat)
  | leakReport (tag : Byte) (oven : Nat) (side : Option Side)
  | setDamper (tag : Byte) (sec : Nat) (value : Nat)
  | setAuto (tag : Byte) (sec : Nat)
  | setSetpoint (tag : Byte) (sec : Nat) (value : Int)
  | trackBlock (tag : Byte) (first : Option TrackSpot) (last : Option TrackSpot)
  | trackFree (tag : Byte) (first : Option TrackSpot) (last : Option TrackSpot)
  | setOutput (tag : Byte) (t : Nat) (level : Option Bool)
  | toggle (tag : Byte) (t : Nat)
  | clearTerminal (tag : Byte) (t : Nat)
  | linkClear (tag : Byte) (l : Option LinkId)
  | linkTest (tag : Byte) (l : Option LinkId)
  | testRead (tag : Byte) (l : Option LinkId)
  | testEnd (tag : Byte) (l : Option LinkId)
  | commit (tag : Byte)
  | restart (tag : Byte)
  | unknownRequest (tag : Byte)
  | statusQuery (tag : Byte)
  | timeQuery (tag : Byte)
  | ovenQuery (tag : Byte) (oven : Nat)
  | planQuery (tag : Byte)
  | slotQuery (tag : Byte) (index : Nat)
  | machinesQuery (tag : Byte)
  | pushQuery (tag : Byte)
  | doorQuery (tag : Byte) (oven : Nat)
  | tasksQuery (tag : Byte) (side : Side)
  | sectionQuery (tag : Byte) (sec : Nat)
  | valvesQuery (tag : Byte) (oven : Option Nat)
  | quenchQuery (tag : Byte)
  | terminalsQuery (tag : Byte) (t : Option Nat)
  | pressInPulseEdge (t : Nat)
  | damperPwmPeriodStart (t : Nat)
  deriving DecidableEq, Repr

end Sys2Proof
end

