-- ==== Sys2Proof/Machine/Records.lean ====
section
/-! DEFINITION. The records the blocks hold, the frames the part makes, its notices and its answers, and the
default values of the setup blocks. -/

namespace Sys2Proof.Machine

open Sys2Proof

/-- One value per machine. -/
structure Quad (α : Type) where
  pm : α
  gc : α
  cc : α
  qc : α
  deriving DecidableEq, Repr

/-- The value of one machine. -/
def Quad.get {α : Type} (q : Quad α) : MachineId → α
  | .pm => q.pm
  | .gc => q.gc
  | .cc => q.cc
  | .qc => q.qc

/-- Replace the value of one machine. -/
def Quad.set {α : Type} (q : Quad α) (m : MachineId) (v : α) : Quad α :=
  match m with
  | .pm => { q with pm := v }
  | .gc => { q with gc := v }
  | .cc => { q with cc := v }
  | .qc => { q with qc := v }

/-- One value per side. -/
structure Pair (α : Type) where
  ps : α
  cs : α
  deriving DecidableEq, Repr

/-- The value of one side. -/
def Pair.get {α : Type} (q : Pair α) : Side → α
  | .ps => q.ps
  | .cs => q.cs

/-- Replace the value of one side. -/
def Pair.set {α : Type} (q : Pair α) (d : Side) (v : α) : Pair α :=
  match d with
  | .ps => { q with ps := v }
  | .cs => { q with cs := v }

/-! ## Part state, oven table -/

/-- Part state (R181). -/
inductive PartState where
  | config | run
  deriving DecidableEq, Repr

/-- The last push of an oven (R9, R15). -/
structure LastPush where
  netCoking : Nat
  pushEnd : Nat
  deriving DecidableEq, Repr

/-- Oven record (R9). The ready and overdue times are derived. -/
structure OvenRec where
  sec : Nat
  state : OvenState
  chargeEnd : Option Nat
  target : Nat
  mode : SlotMode
  fixedPush : Option Nat
  breach : Bool
  overdue : Bool
  stickers : Nat
  lastPush : Option LastPush
  deriving DecidableEq, Repr

/-- The record BATTERY creates for an oven of a section (R7). -/
def OvenRec.fresh (sec : Nat) : OvenRec where
  sec := sec
  state := .out
  chargeEnd := none
  target := 1080
  mode := .auto
  fixedPush := none
  breach := false
  overdue := false
  stickers := 0
  lastPush := none

/-! ## Planner -/

/-- Slot status (R24). -/
inductive SlotStatus where
  | waiting | due | inPush | done | passed
  deriving DecidableEq, Repr

/-- A slot of the round; its index is its place in the list (R24). -/
structure Slot where
  oven : Nat
  planned : Nat
  status : SlotStatus
  pushStart : Option Nat
  deriving DecidableEq, Repr

/-- The round kept by the planner (R24). -/
structure RoundRec where
  number : Nat
  start : Nat
  slots : List Slot
  deriving DecidableEq, Repr

/-- Plan states (chapter 2.8). -/
inductive PlanState where
  | idle | running | halted
  deriving DecidableEq, Repr

/-- The serving entry: the cursor slot, or a make-up entry with the time it became serving (R31). -/
inductive Serving where
  | slot
  | makeup (oven : Nat) (since : Nat)
  deriving DecidableEq, Repr

/-- Make-up entry (R32). -/
structure MakeupEntry where
  oven : Nat
  entered : Nat
  deriving DecidableEq, Repr

/-- A range operation in flight (R42). -/
structure RangeOp where
  first : Nat
  last : Nat
  mode : SlotMode
  fixedPush : Option Nat
  next : Nat
  left : Nat
  setCount : Nat
  skipCount : Nat
  abort : Bool
  deriving DecidableEq, Repr

/-- What the planner holds (chapter 2, R46). -/
structure Planner where
  state : PlanState
  round : Option RoundRec
  cursor : Option Nat
  dueTimer : Option Nat
  holdOver : Option Nat
  lag : Nat
  serving : Option Serving
  makeup : List MakeupEntry
  active : SeriesParams
  staged : SeriesParams
  stagedStart : Option Nat
  mark : Bool
  range : Option RangeOp
  reported : Option (Nat × Nat)
  deriving DecidableEq, Repr

/-- The default series parameters (R22). -/
def seriesDefaults : SeriesParams where
  s := 5
  d := 2
  pi := 720
  c := 60
  h := 900

/-- The planner after hard reset (R46). -/
def Planner.fresh : Planner where
  state := .idle
  round := none
  cursor := none
  dueTimer := none
  holdOver := none
  lag := 0
  serving := none
  makeup := []
  active := seriesDefaults
  staged := seriesDefaults
  stagedStart := none
  mark := false
  range := none
  reported := none

/-! ## Interlock unit -/

/-- Position of a machine (R47). -/
inductive Position where
  | oven (n : Nat) (side : SpotSide)
  | park
  | tower
  | wharf (b : Nat)
  | bunker
  | travel
  deriving DecidableEq, Repr

/-- Machine status of a record (R47). -/
inductive MachineStatus where
  | ram (r : Ram)
  | guide (g : Guide)
  | carLoad (l : CarLoad)
  deriving DecidableEq, Repr

/-- Machine record (R47); its link state stands in the link record. -/
structure MachineRec where
  mode : Option Mode
  position : Option Position
  status : Option MachineStatus
  lastStatus : Option Nat
  invalidPos : Bool
  deriving DecidableEq, Repr

/-- A machine record after hard reset (R47). -/
def MachineRec.fresh : MachineRec where
  mode := none
  position := none
  status := none
  lastStatus := none
  invalidPos := false

/-- A permit in force; its machine is its place in the table (R51). -/
structure Permit where
  kind : PermitKind
  oven : Nat
  granted : Nat
  deadline : Nat
  deriving DecidableEq, Repr

/-- Reasons of REFUSE and REVOKE (chapter 3.9). -/
inductive Reason where
  | state | range | kind | permitHeld | stopped | breach | notAligned | notServing | ovenState | doors | valve
  | sectionPressure | spacing | adjacent | inspectionDue | quenchCar | busy | expired | restart
  deriving DecidableEq, Repr

/-- Causes carried by STOP and CLEAR (R64, R84, R173). -/
inductive HoldCause where
  | config | batteryStop | breach | linkLoss
  deriving DecidableEq, Repr

/-- Stages of the push record (R70). -/
inductive PushStage where
  | opening | armed | ramForward | ramReturn | closing | sticker
  deriving DecidableEq, Repr

/-- The stage from which a push record was armed (R70, R73). -/
inductive ArmedFrom where
  | opening | sticker
  deriving DecidableEq, Repr

/-- The stage named by an armed-from. -/
def ArmedFrom.stage : ArmedFrom → PushStage
  | .opening => .opening
  | .sticker => .sticker

/-- The stage timer: absent, running to an expiry time, or held with its remaining seconds (R70, R86). -/
inductive StageTimer where
  | absent
  | running (expiry : Nat)
  | held (remaining : Nat)
  deriving DecidableEq, Repr

/-- The push record (R70). -/
structure PushRec where
  oven : Nat
  stage : PushStage
  armedFrom : Option ArmedFrom
  retry : Bool
  attempts : Nat
  doorOff : Nat
  ramStart : Option Nat
  ramEnd : Option Nat
  ramHome : Option Nat
  derivedEnd : Bool
  derivedHome : Bool
  timer : StageTimer
  late : Bool
  unconfirmed : Bool
  lost : List MachineId
  deriving DecidableEq, Repr

/-- What the interlock unit holds (chapters 3 and 4). -/
structure Interlock where
  machines : Quad MachineRec
  permits : Quad (Option Permit)
  stop : Bool
  holdCause : HoldCause
  lastRam : Option (Nat × Nat)
  push : Option PushRec
  deriving DecidableEq, Repr

/-- The interlock unit after hard reset (R69): T0 is BATTERY_STOP_IN inverted and de-energised, so the stop
condition is set (R162). -/
def Interlock.fresh : Interlock where
  machines := ⟨.fresh, .fresh, .fresh, .fresh⟩
  permits := ⟨none, none, none, none⟩
  stop := true
  holdCause := .config
  lastRam := none
  push := none

/-! ## Door unit -/

/-- Door record (R88). -/
structure DoorRec where
  state : DoorState
  lastConfirmed : Option Nat
  leaks : Nat
  cleanDue : Bool
  resealPending : Bool
  confirm : Option Nat
  deriving DecidableEq, Repr

/-- The door record BATTERY creates (R88). -/
def DoorRec.fresh : DoorRec where
  state := .tight
  lastConfirmed := none
  leaks := 0
  cleanDue := false
  resealPending := false
  confirm := none

/-- Entry of a door task queue; its in-service mark is the presence of its task timer (R93, R97). -/
structure TaskEntry where
  oven : Nat
  kind : TaskKind
  enqueued : Nat
  timedOut : Bool
  service : Option Nat
  deriving DecidableEq, Repr

/-- A round visit in service with its task timer (R101). -/
structure Visit where
  oven : Nat
  timer : Nat
  deriving DecidableEq, Repr

/-- Inspection round of a side (R101); `interval` is the interval in force at the last tick (R107). -/
structure Inspection where
  debt : Int
  pointer : Nat
  elapsed : Nat
  saturated : Bool
  visit : Option Visit
  interval : Nat
  deriving DecidableEq, Repr

/-- The default DOORS values (R91). -/
def doorDefaults : DoorVals where
  cleanThreshold := 3
  tConfirm := 900
  tTask := 900
  iBase := 600

/-- An inspection round after hard reset (R106). -/
def Inspection.fresh : Inspection where
  debt := 0
  pointer := 1
  elapsed := 0
  saturated := false
  visit := none
  interval := 600

/-- What the door unit holds (chapter 5). -/
structure DoorUnit where
  doors : List (Pair DoorRec)
  queues : Pair (List TaskEntry)
  rounds : Pair Inspection
  vals : DoorVals
  deriving DecidableEq, Repr

/-- The door unit after hard reset (R106). -/
def DoorUnit.fresh : DoorUnit where
  doors := []
  queues := ⟨[], []⟩
  rounds := ⟨.fresh, .fresh⟩
  vals := doorDefaults

/-! ## Offtake unit -/

/-- Why a section is in HOLD (R108). -/
inductive SecHold where
  | fault | restart
  deriving DecidableEq, Repr

/-- Mode of an active section, with its hold cause (R108). -/
inductive SecMode where
  | auto
  | hold (cause : SecHold)
  | manual
  deriving DecidableEq, Repr

/-- Alarm levels (R108, R122). -/
inductive AlarmLevel where
  | low | normal | high | flare
  deriving DecidableEq, Repr

/-- The four run counters (R122). -/
structure RunCounters where
  rise : Nat
  flare : Nat
  settle : Nat
  low : Nat
  deriving DecidableEq, Repr

/-- All counters at 0 (R122). -/
def RunCounters.zero : RunCounters where
  rise := 0
  flare := 0
  settle := 0
  low := 0

/-- The fields a section has while its active flag is set; the transfer pending flag is present in AUTO only (R108). -/
structure SecLive where
  mode : SecMode
  transfer : Option Bool
  uOut : Int
  level : AlarmLevel
  counters : RunCounters
  deriving DecidableEq, Repr

/-- Section record (R108); the active flag is the presence of `live`. -/
structure SecRec where
  params : Option PressureParams
  live : Option SecLive
  pressure : Option Int
  goodRun : Nat
  sensorFault : Bool
  integ : Int
  ff : Int
  deriving DecidableEq, Repr

/-- The section record BATTERY creates (R108). -/
def SecRec.fresh : SecRec where
  params := none
  live := none
  pressure := none
  goodRun := 0
  sensorFault := false
  integ := 0
  ff := 0

/-- The pressure gate of one PRESS_IN function: the count of the running gate, whether the gate runs whole on its
terminal, the count of the last gate (R168), absent before the first gate has ended (log 59), and whether the last gate
gave a reading (R111, R127). -/
structure Gate where
  count : Nat
  whole : Bool
  last : Option Nat
  gave : Bool
  deriving DecidableEq, Repr

/-- The last gate's count when it gave a reading (R127). -/
def Gate.lastReading (g : Gate) : Option Nat := if g.gave then g.last else none

/-- A gate after hard reset: PRESS_IN stands on no terminal, and no gate has ended. -/
def Gate.fresh : Gate where
  count := 0
  whole := false
  last := none
  gave := false

/-- Valve record (R128). -/
structure ValveRec where
  state : ValveState
  lastReport : Option Nat
  deriving DecidableEq, Repr

/-- The valve record BATTERY creates (R128). -/
def ValveRec.fresh : ValveRec where
  state := .unknown
  lastReport := none

/-- Entry of the CC valve-task queue; its in-service mark is the presence of its task timer (R130, R134). -/
structure ValveEntry where
  oven : Nat
  action : ValveAction
  enqueued : Nat
  timedOut : Bool
  service : Option Nat
  deriving DecidableEq, Repr

/-- A held offer (R130). -/
structure HeldOffer where
  oven : Nat
  action : ValveAction
  deriving DecidableEq, Repr

/-- The isolate timer (R133). -/
structure IsoTimer where
  oven : Nat
  expiry : Nat
  deriving DecidableEq, Repr

/-- Charge record (R137). -/
structure ChargeRec where
  oven : Nat
  start : Nat
  timer : Option Nat
  late : Bool
  deriving DecidableEq, Repr

/-- What the offtake unit holds (chapters 6 and 7). -/
structure Offtake where
  sections : List SecRec
  gates : List Gate
  valves : List ValveRec
  queue : List ValveEntry
  heldOffers : List HeldOffer
  iso : Option IsoTimer
  charges : List ChargeRec
  deriving DecidableEq, Repr

/-- The offtake unit after hard reset (R126, R139). -/
def Offtake.fresh : Offtake where
  sections := []
  gates := [.fresh, .fresh, .fresh, .fresh]
  valves := []
  queue := []
  heldOffers := []
  iso := none
  charges := []

/-! ## Quench unit -/

/-- Where an empty car may be sent (R141). -/
inductive EmptyDest where
  | park | oven (n : Nat)
  deriving DecidableEq, Repr

/-- Car state with its spot or destination (R141). -/
inductive CarState where
  | unknown
  | parked
  | toOven (dest : EmptyDest)
  | spotted (n : Nat)
  | loading (n : Nat)
  | toTower
  | quenching
  | draining
  | waitBay
  | toBay (b : Nat)
  | dumping
  deriving DecidableEq, Repr

/-- A spot at which QC may report itself stopped (R48, R141). -/
inductive CarSpot where
  | park | oven (n : Nat) | tower | wharf (b : Nat)
  deriving DecidableEq, Repr

/-- Move status, with issue time and move timer while ISSUED (R141). -/
inductive MoveStatus where
  | none
  | pending
  | issued (at_ : Nat) (timer : Option Nat)
  deriving DecidableEq, Repr

/-- Dump status (R141). -/
inductive DumpStatus where
  | none | pending | issued
  deriving DecidableEq, Repr

/-- Car record (R141), with `blockTold`: the TRACK_BLOCKED of the standing move request has been raised, which R143 allows
once for each request (log 45). -/
structure CarRec where
  state : CarState
  move : MoveStatus
  dump : DumpStatus
  lastSpot : Option CarSpot
  notEmptyFlag : Bool
  positionFlag : Bool
  blockTold : Bool
  deriving DecidableEq, Repr

/-- The car after hard reset (R146, R157). -/
def CarRec.fresh : CarRec where
  state := .unknown
  move := .none
  dump := .none
  lastSpot := none
  notEmptyFlag := false
  positionFlag := false
  blockTold := false

/-- Load record (R149). -/
structure LoadRec where
  oven : Nat
  pushEnd : Nat
  quenchStart : Option Nat
  quenchEnd : Option Nat
  bay : Option Nat
  late : Bool
  hot : Option Nat
  deriving DecidableEq, Repr

/-- Bay record: the state with the fields present in it (R153). -/
inductive BayRec where
  | free (since : Nat)
  | assigned (oven : Nat)
  | cooling (oven : Nat) (dump : Nat) (timer : Nat)
  | cooled (oven : Nat) (dump : Nat) (cooledAt : Nat)
  | discharging (oven : Nat) (dump : Nat) (cooledAt : Nat) (gate : Nat)
  deriving DecidableEq, Repr

/-- The default WHARF values (R156). -/
def wharfDefaults : WharfVals where
  bays := 6
  tHot := 240
  tSpray := 90
  tDrain := 60
  tCool := 1800
  tGate := 120
  tMove := 300

/-- What the quench unit holds (chapter 8). -/
structure QuenchUnit where
  car : CarRec
  blocked : List TrackSpot
  load : Option LoadRec
  phase : Option Nat
  bays : List BayRec
  free : List Nat
  discharge : List Nat
  vals : WharfVals
  deriving DecidableEq, Repr

/-- The quench unit after hard reset (R157). -/
def QuenchUnit.fresh : QuenchUnit where
  car := .fresh
  blocked := []
  load := none
  phase := none
  bays := List.replicate 6 (.free 0)
  free := [1, 2, 3, 4, 5, 6]
  discharge := []
  vals := wharfDefaults

/-! ## Terminal block -/

/-- Terminal record (R159). `out` is the level SET_OUTPUT and TOGGLE write; the level of an owned output is its
owner's. `filtered` is the filtered physical state: true is energised. `duty` is the DAMPER_PWM duty in force. -/
structure TermRec where
  fn : TermFn
  invert : Bool
  drive : Drive
  edge : Edge
  out : Bool
  filtered : Bool
  level : Bool
  fault : Bool
  duty : Option Int
  deriving DecidableEq, Repr

/-- A terminal after hard reset, but for T0 (R168). -/
def TermRec.fresh : TermRec where
  fn := .unassigned
  invert := false
  drive := .normal
  edge := .both
  out := false
  filtered := false
  level := false
  fault := false
  duty := none

/-- T0 after hard reset (R168): de-energised and inverted, so active (R162). -/
def TermRec.freshT0 : TermRec :=
  { TermRec.fresh with fn := .batteryStopIn, invert := true, level := true }

/-- State of an output terminal (R164); a pulse output carries its duty in per mille. -/
inductive TermState where
  | energised | deEnergised | released
  | pulsed (duty : Option Int)
  deriving DecidableEq, Repr

/-! ## Links: frames, notices, answers -/

/-- Permit kind of a REQUEST or REFUSE: one of the four, or a code that is none of them (R52). -/
inductive ReqKind where
  | known (k : PermitKind)
  | unknown (code : Byte)
  deriving DecidableEq, Repr

/-- Destination of a MOVE (R173, R141). -/
inductive MoveDest where
  | park | oven (n : Nat) | tower | bay (b : Nat)
  deriving DecidableEq, Repr

/-- Frames the part sends on an M-link (R173). -/
inductive MFrame where
  | grant (kind : PermitKind) (oven : Nat) (deadline : Nat)
  | refuse (kind : ReqKind) (oven : Nat) (reason : Reason) (held : Option Permit)
  | revoke (kind : PermitKind) (oven : Nat) (reason : Reason)
  | orderTask (kind : TaskKind) (oven : Nat) (side : Side) (round : Bool)
  | orderValve (action : ValveAction) (oven : Nat)
  | orderMove (dest : MoveDest)
  | orderDump (bay : Nat)
  | stop (cause : HoldCause)
  | clear (cause : HoldCause)
  deriving DecidableEq, Repr

/-- Kinds of the frames the part sends on an M-link (R173), as OUTPUT_OVERRUN carries them. -/
inductive MKind where
  | grant | refuse | revoke | order | stop | clear
  deriving DecidableEq, Repr

/-- The kind of a frame. -/
def MFrame.kind : MFrame → MKind
  | .grant .. => .grant
  | .refuse .. => .refuse
  | .revoke .. => .revoke
  | .orderTask .. => .order
  | .orderValve .. => .order
  | .orderMove .. => .order
  | .orderDump .. => .order
  | .stop _ => .stop
  | .clear _ => .clear

/-- Report names (R173). -/
inductive ReportName where
  | doorOff | doorOn | doorTight | ramStart | ramAtEnd | ramHome | chargeStart | chargeEnd | valve | leakSeen
  | taskDone | dumpDone
  deriving DecidableEq, Repr

/-- Why a slot was passed (R27, R29). -/
inductive PassReason where
  | mode | notReady | abandoned
  deriving DecidableEq, Repr

/-- A door task or a valve task, for the notices about tasks. -/
inductive WorkItem where
  | door (kind : TaskKind)
  | valve (action : ValveAction)
  deriving DecidableEq, Repr

/-- The result carried by a TASK_DONE. -/
inductive WorkResult where
  | door (r : TaskResult)
  | valve (r : ValveResult)
  deriving DecidableEq, Repr

/-- Whose task a TASK_FAILED is about: a side's (R99, R104) or CC's (R136). -/
inductive WorkPlace where
  | side (d : Side)
  | cc
  deriving DecidableEq, Repr

/-- Causes of LINK_STATE (R174). -/
inductive LinkCause where
  | status | silence | test
  deriving DecidableEq, Repr

/-- Causes of PART_STATE (R184, R185). -/
inductive PartCause where
  | commit | restart
  deriving DecidableEq, Repr

/-- The notices, each with the fields its rule names. R91 names none for the TASK_WITHDRAWN of a door task: that it carries
the machine, oven, kind and a round mark, as R131's carries CC, oven and action, is the model's choice (log 60). -/
inductive NoticeBody where
  | timeHeld
  | chargeAssumedEnd (oven : Nat) (time : Nat)
  | ovenOverdue (oven : Nat) (chargeEnd : Nat) (target : Nat) (latenessMin : Nat)
  | roundStart (round : Nat) (count : Nat) (start : Nat) (pi : Nat) (lag : Nat) (stagedUsed : Bool)
  | planIdle (round : Nat)
  | slotPassed (index : Nat) (oven : Nat) (reason : PassReason)
  | roundWait (round : Nat)
  | rangeDone (first : Nat) (last : Nat) (mode : SlotMode) (setCount : Nat) (skipCount : Nat) (left : Nat)
      (aborted : Bool)
  | positionInvalid (m : MachineId) (spot : ReportedSpot)
  | reportRejected (m : MachineId) (report : ReportName) (oven : Option Nat)
  | batteryStop (set : Bool)
  | breach (oven : Nat) (m : MachineId) (report : ReportName) (held : Option (PermitKind × Nat))
  | pushDone (oven : Nat) (attempts : Nat) (stickers : Nat) (doorOff : Nat) (ramStart : Option Nat)
      (ramEnd : Option Nat) (ramHome : Option Nat) (derivedEnd : Bool) (derivedHome : Bool) (completed : Nat)
      (netCoking : Nat)
  | ramSequence (oven : Nat) (report : ReportName) (stage : Option PushStage)
  | sticker (oven : Nat) (attempts : Nat) (stickers : Nat) (ramStart : Option Nat) (ram : Option Ram)
  | pushLate (oven : Nat) (stage : PushStage) (entered : Option Nat)
  | pushAbandoned (oven : Nat) (attempts : Nat) (stickers : Nat) (doorOff : Nat) (ramStart : Option Nat)
  | pushUnconfirmed (oven : Nat) (m : MachineId)
  | pushConfirmed (oven : Nat) (before : PushStage) (after : PushStage) (ram : Option Ram)
  | cleanDue (oven : Nat) (side : Side)
  | doorSequence (oven : Nat) (side : Side) (report : ReportName) (state : DoorState)
  | inspectDropped (oven : Nat) (side : Side)
  | resealPending (oven : Nat) (side : Side)
  | taskWithdrawn (m : MachineId) (oven : Nat) (work : WorkItem) (round : Bool)
  | taskUnmatched (m : MachineId) (oven : Nat) (work : WorkItem) (result : WorkResult)
  | taskFailed (at_ : WorkPlace) (oven : Nat) (work : WorkItem) (enqueued : Option Nat) (round : Bool)
  | inspectionSaturated (side : Side)
  | sensorFault (sec : Nat) (count : Nat) (kept : Option Int) (mode : Option SecMode)
  | sensorOk (sec : Nat) (pressure : Int)
  | sectionAlarm (sec : Nat) (before : AlarmLevel) (after : AlarmLevel) (pressure : Int)
  | valveQueueFull (oven : Nat) (action : ValveAction)
  | valveMismatch (oven : Nat) (action : ValveAction) (state : ValveState)
  | chargeSequence (oven : Nat) (state : OvenState)
  | chargeLate (oven : Nat) (sec : Nat) (start : Nat)
  | chargeUnderPressure (sec : Nat) (oven : Nat) (level : AlarmLevel)
  | trackBlocked (inMotion : Bool) (dest : MoveDest) (spots : List TrackSpot)
  | moveLate (dest : MoveDest) (issued : Nat)
  | carNotEmpty
  | carPosition (state : CarState) (spot : Option ReportedSpot)
  | ramWithoutCar (oven : Nat) (state : CarState)
  | noCarAtEnd (oven : Nat) (pushEnd : Nat)
  | hotLoadLate (oven : Nat) (pushEnd : Nat) (state : CarState)
  | waitBay (oven : Nat)
  | loadDumped (load : LoadRec)
  | dumpSequence (bay : Nat) (state : CarState)
  | dischargeInterrupted (bay : Nat) (remaining : Nat)
  | inputChange (t : Nat) (level : Bool)
  | terminalFault (t : Nat) (fn : TermFn) (level : Bool)
  | linkState (m : MachineId) (online : Bool) (cause : LinkCause)
  | supervisorLost
  | outputOverrun (m : MachineId) (kind : MKind)
  | partState (state : PartState) (cause : PartCause)
  deriving DecidableEq, Repr

/-- A notice with the battery time of its raising (R4, R177). -/
structure Notice where
  time : Nat
  body : NoticeBody
  deriving DecidableEq, Repr

/-- Result codes of an ANSWER (R176). -/
inductive ResultCode where
  | ok | format | range | state | order | missing | busy | duplicate | full | notFound | ovenState | planState
  | doors | attempts | ramNotHome | function
  deriving DecidableEq, Repr

/-- Stages of a receive assembly (R171). -/
inductive RxStage where
  | hunt | length | body | check
  deriving DecidableEq, Repr

/-- Receive assembly: its stage, LEN, and the characters stored after LEN (R171). -/
structure RxAssembly where
  stage : RxStage
  len : Nat
  chars : List Byte
  deriving DecidableEq, Repr

/-- An assembly in HUNT (R171). -/
def RxAssembly.hunting : RxAssembly where
  stage := .hunt
  len := 0
  chars := []

/-- Causes of a discard (R172). -/
inductive DiscardCause where
  | parity | framing | gap | len | check | kind | overrun
  deriving DecidableEq, Repr

/-- What every link record holds (R169 to R175). `up` is ONLINE on an M-link and PRESENT on the S-link. -/
structure Port where
  settings : LineSettings
  rx : RxAssembly
  up : Bool
  silence : Bool
  errors : Nat
  lastCause : Option DiscardCause
  deriving DecidableEq, Repr

/-- The line settings after hard reset (R169). -/
def lineDefaults : LineSettings where
  dv := 23
  code := .nrz
  txInvert := false
  rxInvert := false

/-- A link after hard reset (chapter 10, table of resets). -/
def Port.fresh : Port where
  settings := lineDefaults
  rx := .hunting
  up := false
  silence := false
  errors := 0
  lastCause := none

/-- Link-test state of an M-link (R179, R180). `seeded` counts the characters that have seeded the checker, at
most 2; `checker` holds the last fifteen received bits, the newest at bit 0; `generator` the last fifteen sent. -/
structure LinkTest where
  active : Bool
  internalErrors : Nat
  reported : Nat
  received : Nat
  seeded : Nat
  checker : BitVec 15
  generator : BitVec 15
  deriving DecidableEq, Repr

/-- No link test, counts 0 (chapter 10, table of resets). -/
def LinkTest.fresh : LinkTest where
  active := false
  internalErrors := 0
  reported := 0
  received := 0
  seeded := 0
  checker := 0
  generator := 0

/-- What the line shows of one character: its eleven bit cells in order, start bit first, each as the sixteen levels of
its sixteenths, the earliest at bit 0, true for high (R169). -/
abbrev CharCells := List (BitVec 16)

/-- M-link record (chapter 10). `line` is what the transmitter puts on the line for the frame or the test character it is
sending, character by character; at rest it is empty (R169, R180; log 58). -/
structure MLink where
  port : Port
  queue : List MFrame
  sending : Option MFrame
  line : List CharCells
  suppressed : Bool
  test : LinkTest
  deriving DecidableEq, Repr

/-- An M-link after hard reset. -/
def MLink.fresh : MLink where
  port := .fresh
  queue := []
  sending := none
  line := []
  suppressed := false
  test := .fresh

/-- A setup block that COMMIT found missing (R183). -/
inductive MissingBlock where
  | battery
  | pressure (sec : Nat)
  deriving DecidableEq, Repr

/-- The first obstacle found by RESTART (R185). -/
inductive Obstacle where
  | pushing (oven : Nat)
  | charging (oven : Nat)
  | car (state : CarState)
  deriving DecidableEq, Repr

/-- The loaded-block record (R181). -/
structure Loaded where
  battery : Bool
  series : Bool
  timing : Bool
  wharf : Bool
  doors : Bool
  pressure : List Nat
  terminals : List Nat
  links : List LinkId
  ovens : List Nat
  deriving DecidableEq, Repr

/-- The empty loaded-block record (R181). -/
def Loaded.empty : Loaded where
  battery := false
  series := false
  timing := false
  wharf := false
  doors := false
  pressure := []
  terminals := []
  links := []
  ovens := []

/-- The default TIMING values (R9, R51, R70, R133). -/
def timingDefaults : Timing where
  w := 60
  l := 120
  tUse := 120
  tSs := 900
  tSd := 360
  tAdj := 120
  tRam := 180
  tReturn := 180
  tDoors := 600
  tCharge := 600
  lIso := 300

/-- What the STATUS query gives as the link-test state of an M-link: the test flag, the reported error count and the
received-character count, which are what TEST_READ answers. R177 does not say what the state comprises; the internal count
is left out because R180's note has it never reported (log 61). -/
structure TestView where
  active : Bool
  reported : Nat
  received : Nat
  deriving DecidableEq, Repr

/-- The link-test state of a test record. -/
def LinkTest.view (t : LinkTest) : TestView := ⟨t.active, t.reported, t.received⟩

/-- What the STATUS query gives of one link (R177). -/
structure LinkView where
  link : LinkId
  settings : LineSettings
  up : Bool
  errors : Nat
  lastCause : Option DiscardCause
  test : Option TestView
  deriving DecidableEq, Repr

/-- A serving entry as the PLAN query gives it: kind, oven, and slot index or list position (R45). -/
inductive ServingView where
  | slot (oven : Nat) (index : Nat)
  | makeup (oven : Nat) (position : Nat)
  deriving DecidableEq, Repr

/-- What the PLAN query gives (R45). -/
structure PlanView where
  state : PlanState
  waitingAtBoundary : Bool
  roundNumber : Option Nat
  roundStart : Option Nat
  slotCount : Option Nat
  cursor : Option Nat
  holdOver : Option Nat
  lag : Nat
  active : SeriesParams
  staged : SeriesParams
  stagedStart : Option Nat
  mark : Bool
  serving : Option ServingView
  next : Option (Nat × Nat)
  makeup : List (MakeupEntry × Bool)
  range : Option RangeOp
  deriving DecidableEq, Repr

/-- What the MACHINES query gives (R68). -/
structure MachinesView where
  records : Quad MachineRec
  online : Quad Bool
  permits : Quad (Option Permit)
  stop : Bool
  hold : Bool
  causes : List HoldCause
  breached : List Nat
  lastRam : Option (Nat × Nat)
  deriving DecidableEq, Repr

/-- What the PUSH query gives (R87). -/
structure PushView where
  record : Option PushRec
  heldByStop : Bool
  heldByUnconfirmed : Bool
  ram : Option Ram
  guide : Option Guide
  car : CarState
  deriving DecidableEq, Repr

/-- What the DOOR query gives (R107): entries are given with their positions. -/
structure DoorView where
  records : Pair DoorRec
  entries : Pair (List (Nat × TaskEntry))
  visits : Pair (Option Visit)
  deriving DecidableEq, Repr

/-- What the TASKS query gives (R107). -/
structure TasksView where
  queue : List TaskEntry
  inService : Option TaskEntry
  pending : List Nat
  round : Inspection
  deriving DecidableEq, Repr

/-- What the SECTION query gives (R127): the terminals that carry the section's four functions, the last gate and
the integral term. -/
structure SectionView where
  record : SecRec
  pressIn : Option Nat
  damperPwm : Option Nat
  flareOut : Option Nat
  lowAlarm : Option Nat
  lastGate : Option Nat
  integralTerm : Int
  deriving DecidableEq, Repr

/-- What the VALVES query gives for one oven (R140). -/
structure ValveView where
  record : ValveRec
  entry : Option (Nat × ValveEntry)
  heldOffer : Option (Nat × HeldOffer)
  deriving DecidableEq, Repr

/-- What the VALVES query gives when it names no oven (R140). -/
structure ValvesView where
  queue : List ValveEntry
  taskTimer : Option Nat
  heldOffers : List HeldOffer
  iso : Option IsoTimer
  charges : List ChargeRec
  deriving DecidableEq, Repr

/-- What the QUENCH query gives (R158). -/
structure QuenchView where
  unit : QuenchUnit
  qcOnline : Bool
  qcMode : Option Mode
  qcPosition : Option Position
  qcStatus : Option MachineStatus
  deriving DecidableEq, Repr

/-- What the TERMINALS query gives of one terminal (R168). -/
structure TermView where
  t : Nat
  record : TermRec
  outputLevel : Option Bool
  state : Option TermState
  inputState : Option (Bool × Bool)
  lastGate : Option Nat
  deriving DecidableEq, Repr

/-- Result data of an ANSWER. -/
inductive AnswerData where
  | nothing
  | target (g : Nat)
  | ovensToVisit (n : Nat)
  | slotCount (n : Nat)
  | attempts (n : Nat)
  | damper (u : Int)
  | secMode (m : SecMode)
  | setpoint (p : Int)
  | output (level : Bool) (fault : Bool)
  | testCounts (reported : Nat) (received : Nat) (inTest : Bool)
  | missing (blocks : List MissingBlock) (fns : List TermFn)
  | obstacle (o : Obstacle)
  | status (part : PartState) (time : Nat) (present : Bool) (waiting : Nat) (lost : Bool) (links : List LinkView)
  | time (now : Nat) (timeOpen : Bool) (held : Bool)
  | oven (record : OvenRec) (ready : Option Nat) (overdue : Option Nat)
  | plan (v : PlanView)
  | slot (index : Nat) (v : Slot)
  | machines (v : MachinesView)
  | push (v : PushView)
  | door (v : DoorView)
  | tasks (v : TasksView)
  | secView (v : SectionView)
  | valve (v : ValveView)
  | valves (v : ValvesView)
  | quench (v : QuenchView)
  | terminals (v : List TermView)
  deriving DecidableEq, Repr

/-- What an owning block answers: result code, data, and for a LINK block of the S-link the settings that take
effect once the ANSWER has been sent (R169). -/
structure Reply where
  result : ResultCode
  data : AnswerData
  settings : Option LineSettings
  deriving DecidableEq, Repr

/-- An answer that carries a code alone. -/
def Reply.code (r : ResultCode) : Reply where
  result := r
  data := .nothing
  settings := none

/-- OK with result data. -/
def Reply.okWith (d : AnswerData) : Reply where
  result := .ok
  data := d
  settings := none

/-- An answer waiting, with the number of its frames already sent or begun (R176). -/
structure Answer where
  tag : Byte
  reply : Reply
  begun : Nat
  deriving DecidableEq, Repr

/-- The frame being sent on the S-link (R177). -/
inductive SFrame where
  | answer (tag : Byte) (reply : Reply) (part : Nat) (lastPart : Bool)
  | notice (n : Notice)
  deriving DecidableEq, Repr

/-- S-link record (chapter 10); `line` as in an M-link. -/
structure SLink where
  port : Port
  answers : List Answer
  sending : Option SFrame
  line : List CharCells
  notices : List Notice
  noticesLost : Bool
  deriving DecidableEq, Repr

/-- The S-link after hard reset. -/
def SLink.fresh : SLink where
  port := .fresh
  answers := []
  sending := none
  line := []
  notices := []
  noticesLost := false

/-- The five link records. -/
structure Links where
  sup : SLink
  mach : Quad MLink
  deriving DecidableEq, Repr

/-- The link ports after hard reset. -/
def Links.fresh : Links where
  sup := .fresh
  mach := ⟨.fresh, .fresh, .fresh, .fresh⟩

/-- Time base (R1, R2, R5). `phase` counts the control ticks since the second began. -/
structure TimeBase where
  time : Nat
  timeOpen : Bool
  phase : Nat
  deriving DecidableEq, Repr

/-- The time base after hard reset (R21). -/
def TimeBase.fresh : TimeBase where
  time := 0
  timeOpen := true
  phase := 0

/-- Configuration store with the TIMING values (R181). -/
structure ConfigStore where
  part : PartState
  loaded : Loaded
  timing : Timing
  deriving DecidableEq, Repr

/-- The configuration store after hard reset (R181). -/
def ConfigStore.fresh : ConfigStore where
  part := .config
  loaded := .empty
  timing := timingDefaults

end Sys2Proof.Machine
end

