-- ==== Sys2Proof/Config.lean ====
section
/-! DEFINITION. What one implementation fixes and the spec does not give: free values, each a constant without a
body (log 11, 12, 14, 75). Nothing here can be evaluated, so no statement rests on a value of it. -/

namespace Sys2Proof.Config

open Sys2Proof Sys2Proof.Machine

/-- Where a long answer is cut: the number of characters of the next frame, from the characters left (R176; log 11). -/
opaque cutAt : List Byte → Nat

/-- Which cause is recorded for a character, given by its line wave, with both a parity and a framing error: true for PARITY
(R172; log 14). -/
opaque parityFirst : LineWave → Bool

/-! "Each name has a fixed code" (R173), which the spec does not list: the codes of the names, free values, and the
reading of a received character as the name whose code it is (log 12). -/

/-- Setup block names (R173, chapter 11). -/
inductive BlockName where
  | battery | series | timing | pressure | wharf | doors | terminal | link | ovenLoad
  deriving DecidableEq, Repr

/-- Command names (R173). -/
inductive CommandName where
  | setTime | ovenService | setTarget | makeup | cancelMakeup | planStart | planHalt | planResume | planStage
  | setMode | setModeRange | rangeAbort | clearBreach | pushRetry | abandon | leakReport | setDamper | setAuto
  | setSetpoint | trackBlock | trackFree | setOutput | toggle | clearTerminal | linkClear | linkTest | testRead
  | testEnd | commit | restart
  deriving DecidableEq, Repr

/-- Query subjects (R173). -/
inductive Subject where
  | status | time | oven | plan | slot | machines | push | door | tasks | secQuery | valves | quench | terminals
  deriving DecidableEq, Repr

/-- Spot types (R173). -/
inductive SpotType where
  | oven | park | tower | wharf | bunker
  deriving DecidableEq, Repr

/-- Terminal function names; those that name a section or bay carry its number in a further character (R160). -/
inductive FnName where
  | unassigned | input | output | pressIn | damperPwm | flareOut | lowAlarm | sprayOut | gateOut | conveyorRunIn
  | batteryStopIn
  deriving DecidableEq, Repr

/-- Order types (R173). -/
inductive OrderType where
  | task | move | dump
  deriving DecidableEq, Repr

opaque blockCode : BlockName → Byte
opaque commandCode : CommandName → Byte
opaque subjectCode : Subject → Byte
opaque reportCode : ReportName → Byte
opaque modeCode : Mode → Byte
opaque motionCode : Motion → Byte
opaque spotTypeCode : SpotType → Byte
opaque spotSideCode : SpotSide → Byte
opaque ramCode : Ram → Byte
opaque guideCode : Guide → Byte
opaque carLoadCode : CarLoad → Byte
opaque permitKindCode : PermitKind → Byte
opaque valveStateCode : ValveState → Byte
opaque taskKindCode : TaskKind → Byte
opaque taskResultCode : TaskResult → Byte
opaque actionCode : ValveAction → Byte
opaque valveResultCode : ValveResult → Byte
opaque linkCode : LinkId → Byte
opaque lineCodeCode : LineCode → Byte
opaque ovenStateCode : OvenState → Byte
opaque slotModeCode : SlotMode → Byte
opaque doorStateCode : DoorState → Byte
opaque serviceDirCode : ServiceDir → Byte
opaque fnNameCode : FnName → Byte
opaque driveCode : Drive → Byte
opaque edgeCode : Edge → Byte
opaque flagCode : Bool → Byte
opaque levelCode : Bool → Byte

/-! Names of what the part alone sends. Where a type carries fields beside its name, the name stands by its place in the
list of names (Nat). -/

opaque machineCode : MachineId → Byte
opaque reasonCode : Reason → Byte
opaque holdCauseCode : HoldCause → Byte
opaque orderTypeCode : OrderType → Byte
opaque resultCode : ResultCode → Byte
opaque noticeCode : Nat → Byte
opaque carStateCode : Nat → Byte
opaque pushStageCode : PushStage → Byte
opaque passReasonCode : PassReason → Byte
opaque secModeCode : Nat → Byte
opaque secHoldCode : SecHold → Byte
opaque alarmLevelCode : AlarmLevel → Byte
opaque partStateCode : PartState → Byte
opaque partCauseCode : PartCause → Byte
opaque linkStateCode : Bool → Byte
opaque linkCauseCode : LinkCause → Byte
opaque presentCode : Bool → Byte
opaque discardCauseCode : DiscardCause → Byte
opaque planStateCode : PlanState → Byte
opaque slotStatusCode : SlotStatus → Byte
opaque servingKindCode : Nat → Byte
opaque timerRunsCode : Bool → Byte
opaque moveStatusCode : Nat → Byte
opaque dumpStatusCode : DumpStatus → Byte
opaque bayStateCode : Nat → Byte
opaque termStateCode : Nat → Byte
opaque obstacleCode : Nat → Byte
opaque travelCode : Byte

/-- The name, of a list of all, whose code a character is; with two names of one code the first (log 12). -/
def readName {α : Type} (names : List α) (code : α → Byte) (b : Byte) : Option α :=
  names.find? fun a => code a == b

/-- The BlockName a character names (R173; log 12). -/
def blockOf : Byte → Option BlockName :=
  readName [.battery, .series, .timing, .pressure, .wharf, .doors, .terminal, .link, .ovenLoad] blockCode

/-- The CommandName a character names (R173; log 12). -/
def commandOf : Byte → Option CommandName :=
  readName [.setTime, .ovenService, .setTarget, .makeup, .cancelMakeup, .planStart, .planHalt, .planResume, .planStage,
  .setMode, .setModeRange, .rangeAbort, .clearBreach, .pushRetry, .abandon, .leakReport, .setDamper, .setAuto,
  .setSetpoint, .trackBlock, .trackFree, .setOutput, .toggle, .clearTerminal, .linkClear, .linkTest, .testRead,
  .testEnd, .commit, .restart] commandCode

/-- The Subject a character names (R173; log 12). -/
def subjectOf : Byte → Option Subject :=
  readName [.status, .time, .oven, .plan, .slot, .machines, .push, .door, .tasks, .secQuery, .valves, .quench,
  .terminals] subjectCode

/-- The ReportName a character names (R173; log 12). -/
def reportOf : Byte → Option ReportName :=
  readName [.doorOff, .doorOn, .doorTight, .ramStart, .ramAtEnd, .ramHome, .chargeStart, .chargeEnd, .valve,
  .leakSeen, .taskDone, .dumpDone] reportCode

/-- The Mode a character names (R173; log 12). -/
def modeOf : Byte → Option Mode := readName [.auto, .localMode] modeCode

/-- The Motion a character names (R173; log 12). -/
def motionOf : Byte → Option Motion := readName [.stopped, .moving] motionCode

/-- The SpotType a character names (R173; log 12). -/
def spotTypeOf : Byte → Option SpotType := readName [.oven, .park, .tower, .wharf, .bunker] spotTypeCode

/-- The SpotSide a character names (R173; log 12). -/
def spotSideOf : Byte → Option SpotSide := readName [.ps, .cs, .top, .track] spotSideCode

/-- The Ram a character names (R173; log 12). -/
def ramOf : Byte → Option Ram := readName [.home, .forward, .atEnd] ramCode

/-- The Guide a character names (R173; log 12). -/
def guideOf : Byte → Option Guide := readName [.locked, .free] guideCode

/-- The CarLoad a character names (R173; log 12). -/
def carLoadOf : Byte → Option CarLoad := readName [.empty, .loaded] carLoadCode

/-- The PermitKind a character names (R173; log 12). -/
def permitKindOf : Byte → Option PermitKind := readName [.doorOffPs, .doorOffCs, .push, .charge] permitKindCode

/-- The ValveState a character names (R173; log 12). -/
def valveStateOf : Byte → Option ValveState := readName [.unknown, .opened, .closed, .aspirating] valveStateCode

/-- The TaskKind a character names (R173; log 12). -/
def taskKindOf : Byte → Option TaskKind := readName [.reseal, .clean, .inspect] taskKindCode

/-- The TaskResult a character names (R173; log 12). -/
def taskResultOf : Byte → Option TaskResult := readName [.tight, .leak] taskResultCode

/-- The ValveAction a character names (R173; log 12). -/
def actionOf : Byte → Option ValveAction := readName [.isolate, .aspirate, .normal] actionCode

/-- The ValveResult a character names (R173; log 12). -/
def valveResultOf : Byte → Option ValveResult := readName [.done, .blocked] valveResultCode

/-- The LinkId a character names (R173; log 12). -/
def linkOf : Byte → Option LinkId := readName [.sup, .mach .pm, .mach .gc, .mach .cc, .mach .qc] linkCode

/-- The LineCode a character names (R173; log 12). -/
def lineCodeOf : Byte → Option LineCode := readName [.nrz, .optical] lineCodeCode

/-- The OvenState a character names (R173; log 12). -/
def ovenStateOf : Byte → Option OvenState :=
  readName [.out, .empty, .charging, .coking, .ready, .pushing] ovenStateCode

/-- The SlotMode a character names (R173; log 12). -/
def slotModeOf : Byte → Option SlotMode := readName [.auto, .fixed, .hold, .skip] slotModeCode

/-- The DoorState a character names (R173; log 12). -/
def doorStateOf : Byte → Option DoorState := readName [.tight, .leaking, .off, .onUnconfirmed] doorStateCode

/-- The ServiceDir a character names (R173; log 12). -/
def serviceDirOf : Byte → Option ServiceDir := readName [.intoService, .outOfService] serviceDirCode

/-- The FnName a character names (R173; log 12). -/
def fnNameOf : Byte → Option FnName :=
  readName [.unassigned, .input, .output, .pressIn, .damperPwm, .flareOut, .lowAlarm, .sprayOut, .gateOut,
  .conveyorRunIn, .batteryStopIn] fnNameCode

/-- The Drive a character names (R173; log 12). -/
def driveOf : Byte → Option Drive := readName [.normal, .high] driveCode

/-- The Edge a character names (R173; log 12). -/
def edgeOf : Byte → Option Edge := readName [.rise, .fall, .both] edgeCode

/-- The Bool a character names (R173; log 12). -/
def flagOf : Byte → Option Bool := readName [false, true] flagCode

/-- The Bool a character names (R173; log 12). -/
def levelOf : Byte → Option Bool := readName [false, true] levelCode

/-- How a field that may be absent stands in a body, from its width and the characters left: whether it is there, and how
many characters tell so. Those of a present field follow them; those of an absent one are all it has (log 12). -/
opaque optionalMark (width : Nat) : List Byte → Bool × Nat

/-! Forms that the spec does not give for what the part sends (log 12). -/

/-- The characters in front of those of a present field that may be absent, from how many those are. -/
opaque presentMark (width : Nat) : List Byte

/-- What stands for an absent field. -/
opaque absentChars : List Byte

/-- The characters after its type of a spot or destination that has no number or no side. -/
opaque noNumber : Byte
opaque noSide : Byte

/-- What stands before the elements of a list, from their number; before each element; and after the last. -/
opaque listHead (count : Nat) : List Byte
opaque elementMark : List Byte
opaque listEnd : List Byte

/-! ## The moment of a reading -/

/-- The part of its period that a pulse train with both parts is in when its level is read: true while it is on (R115, R164;
log 75). Neither a command nor a rule gives the moment within the period: a free value, here of the time base, of the links,
which every request changes, and of the terminal. -/
opaque pulseOn : TimeBase → Links → TermRec → Bool

end Sys2Proof.Config
end

