-- ==== Sys2Proof/Machine/Wire.lean ====
section
/-! DEFINITION. The sending side of the line: the cells of a character and the line at rest (R169), the check and layout
of a frame (R171), and the characters of the frames to the machines and of the notices (R173, R177; log 12). -/

namespace Sys2Proof.Machine

open Sys2Proof Config

/-! ## Characters on the line (R169) -/

/-- The even parity bit of a character (R169). -/
def parityBit (b : Byte) : Bool :=
  [0, 1, 2, 3, 4, 5, 6, 7].foldl (fun acc i => acc ^^ b.getLsbD i) false

/-- The eleven bits of a character in the order sent, the first at bit 0: start bit 0, data least significant first,
parity, stop bit 1 (R169). -/
def charBits (b : Byte) : BitVec 11 :=
  1#1 ++ BitVec.ofBool (parityBit b) ++ b ++ 0#1

/-- The levels of one bit cell, sixteenth by sixteenth, before inversion: in NRZ the bit itself; in OPTICAL a zero is low
for the first three sixteenths and a one has no pulse (R169). -/
def plainCell : LineCode → Bool → BitVec 16
  | _, true => 0xFFFF#16
  | .nrz, false => 0x0000#16
  | .optical, false => 0xFFF8#16

/-- The levels of one bit cell by the line settings: transmit invert turns the line over (R169). -/
def cellLevels (v : LineSettings) (bit : Bool) : BitVec 16 :=
  if v.txInvert then ~~~(plainCell v.code bit) else plainCell v.code bit

/-- What the line shows of a character by the line settings (R169). -/
def charCells (v : LineSettings) (b : Byte) : CharCells :=
  [0, 1, 2, 3, 4, 5, 6, 7, 8, 9, 10].map fun i => cellLevels v ((charBits b).getLsbD i)

/-- The level of a line at rest: high, or low when transmit invert turns it over (R169). -/
def restLevel (v : LineSettings) : Bool := !v.txInvert

/-- What a link's line shows: its level at rest, or the cells of the characters of the frame or test character being
sent. -/
inductive LineShown where
  | rest (level : Bool)
  | characters (cells : List CharCells)
  deriving DecidableEq, Repr

/-- What a line shows by its link's settings, from the characters on it: none is a line at rest (R169; log 58). -/
def lineShown (v : LineSettings) : List CharCells → LineShown
  | [] => .rest (restLevel v)
  | cells => .characters cells

/-! ## The check and the layout of a frame (R171) -/

/-- One bit of the CRC-16: shift left, with the polynomial 0x1021 when the bit shifted out differs from the bit in. -/
def crcBit (crc : BitVec 16) (bit : Bool) : BitVec 16 :=
  if crc.getLsbD 15 != bit then (crc <<< 1) ^^^ 0x1021#16 else crc <<< 1

/-- One character, most significant bit first. -/
def crcByte (crc : BitVec 16) (b : Byte) : BitVec 16 :=
  [7, 6, 5, 4, 3, 2, 1, 0].foldl (fun c i => crcBit c (b.getLsbD i)) crc

/-- The check over LEN, KIND and body: starting value 0xFFFF, no final inversion (R171). -/
def crc16 (bs : List Byte) : BitVec 16 := bs.foldl crcByte 0xFFFF#16

/-- A number in one character. -/
def num1 (n : Nat) : List Byte := [BitVec.ofNat 8 n]

/-- A number in two characters, high first (R173). -/
def num2 (n : Nat) : List Byte := num1 (n / 256) ++ num1 n

/-- A number in four characters, high first (R173). -/
def num4 (n : Nat) : List Byte := num2 (n / 65536) ++ num2 n

/-- A signed value in two characters, two's complement (R173). -/
def int2 (v : Int) : List Byte := num2 (v % 65536).toNat

/-- The characters of a frame: SYNC, LEN, KIND, the body and the check, high first. A body has at most 59 characters
(R171), and R176 cuts answers alone: that of a longer body, a NOTICE's with a long list of spots, the first 59 are sent and the
rest is dropped is the model's choice (log 92). -/
def frameChars (kind : Byte) (body : List Byte) : List Byte :=
  let content := kind :: body.take 59
  let checked := num1 content.length ++ content
  0x5A#8 :: checked ++ num2 (crc16 checked).toNat

/-! ## Fields (R173; log 12) -/

/-- A field that may be absent, from its characters when it is there, which stand whole after the mark of its presence. -/
def optionalChars : Option (List Byte) → List Byte
  | some cs => presentMark cs.length ++ cs
  | none => absentChars

/-- A field that may be absent. -/
def optField {α : Type} (f : α → List Byte) (o : Option α) : List Byte := optionalChars (o.map f)

/-- A flag or mark. -/
def flagField (b : Bool) : List Byte := [flagCode b]

/-- A spot: its type, its oven or bay, its side, as in a STATUS. -/
def spotField : ReportedSpot → List Byte
  | .oven n side => spotTypeCode .oven :: num1 n ++ [spotSideCode side]
  | .park => [spotTypeCode .park, noNumber, noSide]
  | .tower => [spotTypeCode .tower, noNumber, noSide]
  | .wharf b => spotTypeCode .wharf :: num1 b ++ [noSide]
  | .bunker => [spotTypeCode .bunker, noNumber, noSide]

/-- A destination: its type, its oven or bay. -/
def destField : MoveDest → List Byte
  | .park => [spotTypeCode .park, noNumber]
  | .oven n => spotTypeCode .oven :: num1 n
  | .tower => [spotTypeCode .tower, noNumber]
  | .bay b => spotTypeCode .wharf :: num1 b

/-- The spot at which the car is held, in PARKED, SPOTTED and LOADING (R141). -/
def CarState.spot : CarState → Option CarSpot
  | .parked => some .park
  | .spotted n | .loading n => some (.oven n)
  | _ => none

/-- The destination of a moving state (R141). -/
def CarState.dest : CarState → Option MoveDest
  | .toOven .park => some .park
  | .toOven (.oven n) => some (.oven n)
  | .toTower => some .tower
  | .toBay b => some (.bay b)
  | _ => none

/-- A car state with the oven or bay it names, as notices, the PUSH answer and a BUSY answer carry it: the model's choice (log
12). The car record of the QUENCH answer has spot and destination as fields (`carField`). -/
def carStateField (c : CarState) : List Byte :=
  carStateCode c.ctorIdx :: match c with
    | .toOven (.oven n) | .spotted n | .loading n => num1 n
    | .toBay b => num1 b
    | _ => [noNumber]

/-- A terminal function: its name, and the section or bay it names (R160). -/
def fnField : TermFn → List Byte
  | .unassigned => [fnNameCode .unassigned]
  | .input => [fnNameCode .input]
  | .output => [fnNameCode .output]
  | .pressIn k => fnNameCode .pressIn :: num1 k
  | .damperPwm k => fnNameCode .damperPwm :: num1 k
  | .flareOut k => fnNameCode .flareOut :: num1 k
  | .lowAlarm k => fnNameCode .lowAlarm :: num1 k
  | .sprayOut => [fnNameCode .sprayOut]
  | .gateOut b => fnNameCode .gateOut :: num1 b
  | .conveyorRunIn => [fnNameCode .conveyorRunIn]
  | .batteryStopIn => [fnNameCode .batteryStopIn]

/-- The kind of a permit asked for; a code that is none of the four is given back as it came. -/
def reqKindField : ReqKind → List Byte
  | .known k => [permitKindCode k]
  | .unknown code => [code]

/-- A task kind or valve action. -/
def workField : WorkItem → List Byte
  | .door k => [taskKindCode k]
  | .valve a => [actionCode a]

/-- A task result. -/
def workResultField : WorkResult → List Byte
  | .door r => [taskResultCode r]
  | .valve r => [valveResultCode r]

/-- The PS or CS side. -/
def sideField : Side → List Byte
  | .ps => [spotSideCode .ps]
  | .cs => [spotSideCode .cs]

/-- Whose task a TASK_FAILED is about: the side, or CC (R99, R136). -/
def workPlaceField : WorkPlace → List Byte
  | .side d => sideField d
  | .cc => [machineCode .cc]

/-- The round mark of a notice about a door task; no rule names one for a valve task (R131, R136; log 60). -/
def roundField : WorkItem → Bool → List Byte
  | .door _, round => flagField round
  | .valve _, _ => []

/-- A spot of the track row: its type, its oven. -/
def trackSpotField : TrackSpot → List Byte
  | .park => [spotTypeCode .park, noNumber]
  | .oven n => spotTypeCode .oven :: num1 n
  | .tower => [spotTypeCode .tower, noNumber]
  | .wharf => [spotTypeCode .wharf, noNumber]

/-- A list of elements, each with its characters whole; what frames them is open. -/
def listField {α : Type} (f : α → List Byte) (l : List α) : List Byte :=
  listHead l.length ++ l.flatMap (fun a => elementMark ++ f a) ++ listEnd

/-- The mode of a section, its name alone (R108). -/
def secModeField (m : SecMode) : List Byte := [secModeCode m.ctorIdx]

/-- The link of a machine. -/
def linkField (m : MachineId) : List Byte := [linkCode (.mach m)]

/-! ## Frames to the machines (R173) -/

/-- The code of a kind sent on an M-link (R173). -/
def MKind.code : MKind → Byte
  | .grant => 0x41
  | .refuse => 0x42
  | .revoke => 0x43
  | .order => 0x44
  | .stop => 0x45
  | .clear => 0x46

/-- A permit held: kind, oven and use deadline (R173). -/
def heldField (p : Permit) : List Byte := permitKindCode p.kind :: num1 p.oven ++ num4 p.deadline

/-- The body of a frame to a machine (R173). Only PERMIT_HELD carries a held permit; a valve task has neither side nor
round mark (log 12). -/
def MFrame.body : MFrame → List Byte
  | .grant k n deadline => permitKindCode k :: num1 n ++ num4 deadline
  | .refuse k n r held => reqKindField k ++ num1 n ++ [reasonCode r] ++ (held.map heldField).getD []
  | .revoke k n r => permitKindCode k :: num1 n ++ [reasonCode r]
  | .orderTask k n d round => orderTypeCode .task :: taskKindCode k :: num1 n ++ sideField d ++ flagField round
  | .orderValve a n => orderTypeCode .task :: actionCode a :: num1 n
  | .orderMove dest => orderTypeCode .move :: destField dest
  | .orderDump b => orderTypeCode .dump :: num1 b
  | .stop c => [holdCauseCode c]
  | .clear c => [holdCauseCode c]

/-- The characters of a frame to a machine. -/
def MFrame.chars (f : MFrame) : List Byte := frameChars f.kind.code f.body

/-! ## Frames to the supervisor (R173, R176, R177) -/

/-- The fields of a notice, in the order its rule names them. Times, the lag, net coking times and latenesses take four
characters (log 12). That a field whose record field may be absent is sent with the presence mark before it, where its rule
never leaves it absent too (PUSH_LATE's stage-entry time, PUSH_DONE's ram times, the ram start of STICKER and
PUSH_ABANDONED, PM's ram state in STICKER and PUSH_CONFIRMED, and the others that log 93 names), is the model's choice (log
93). R91 names no fields for a door task's TASK_WITHDRAWN: the machine, oven, kind and a round mark are the model's choice
(log 60). -/
def NoticeBody.fields : NoticeBody → List Byte
  | .timeHeld => []
  | .chargeAssumedEnd n t => num1 n ++ num4 t
  | .ovenOverdue n t g late => num1 n ++ num4 t ++ num2 g ++ num4 late
  | .roundStart r count start pi lag staged =>
    num2 r ++ num1 count ++ num4 start ++ num2 pi ++ num4 lag ++ flagField staged
  | .planIdle r => num2 r
  | .slotPassed i n why => num1 i ++ num1 n ++ [passReasonCode why]
  | .roundWait r => num2 r
  | .rangeDone first last mode set skip left aborted =>
    num1 first ++ num1 last ++ [slotModeCode mode] ++ num1 set ++ num1 skip ++ num1 left ++ flagField aborted
  | .positionInvalid m spot => machineCode m :: spotField spot
  | .reportRejected m r n => machineCode m :: reportCode r :: optField num1 n
  | .batteryStop set => flagField set
  | .breach n m r held =>
    num1 n ++ [machineCode m, reportCode r] ++ optField (fun p => permitKindCode p.1 :: num1 p.2) held
  | .pushDone n attempts stickers off start atEnd home dEnd dHome done net =>
    num1 n ++ num1 attempts ++ num1 stickers ++ num4 off ++ optField num4 start ++ optField num4 atEnd
      ++ optField num4 home ++ flagField dEnd ++ flagField dHome ++ num4 done ++ num4 net
  | .ramSequence n r stage => num1 n ++ [reportCode r] ++ optField (fun g => [pushStageCode g]) stage
  | .sticker n attempts stickers start ram =>
    num1 n ++ num1 attempts ++ num1 stickers ++ optField num4 start ++ optField (fun r => [ramCode r]) ram
  | .pushLate n stage entered => num1 n ++ [pushStageCode stage] ++ optField num4 entered
  | .pushAbandoned n attempts stickers off start =>
    num1 n ++ num1 attempts ++ num1 stickers ++ num4 off ++ optField num4 start
  | .pushUnconfirmed n m => num1 n ++ [machineCode m]
  | .pushConfirmed n before after ram =>
    num1 n ++ [pushStageCode before, pushStageCode after] ++ optField (fun r => [ramCode r]) ram
  | .cleanDue n d => num1 n ++ sideField d
  | .doorSequence n d r st => num1 n ++ sideField d ++ [reportCode r, doorStateCode st]
  | .inspectDropped n d => num1 n ++ sideField d
  | .resealPending n d => num1 n ++ sideField d
  | .taskWithdrawn m n w round => machineCode m :: num1 n ++ workField w ++ roundField w round
  | .taskUnmatched m n w r => machineCode m :: num1 n ++ workField w ++ workResultField r
  | .taskFailed p n w entered round =>
    workPlaceField p ++ num1 n ++ workField w ++ optField num4 entered ++ roundField w round
  | .inspectionSaturated d => sideField d
  | .sensorFault k count kept mode =>
    num1 k ++ num2 count ++ optField int2 kept ++ optField secModeField mode
  | .sensorOk k p => num1 k ++ int2 p
  | .sectionAlarm k before after p => num1 k ++ [alarmLevelCode before, alarmLevelCode after] ++ int2 p
  | .valveQueueFull n a => num1 n ++ [actionCode a]
  | .valveMismatch n a st => num1 n ++ [actionCode a, valveStateCode st]
  | .chargeSequence n st => num1 n ++ [ovenStateCode st]
  | .chargeLate n k start => num1 n ++ num1 k ++ num4 start
  | .chargeUnderPressure k n level => num1 k ++ num1 n ++ [alarmLevelCode level]
  | .trackBlocked moving dest spots => flagField moving ++ destField dest ++ listField trackSpotField spots
  | .moveLate dest issued => destField dest ++ num4 issued
  | .carNotEmpty => []
  | .carPosition st spot => carStateField st ++ optField spotField spot
  | .ramWithoutCar n st => num1 n ++ carStateField st
  | .noCarAtEnd n pushed => num1 n ++ num4 pushed
  | .hotLoadLate n pushed st => num1 n ++ num4 pushed ++ carStateField st
  | .waitBay n => num1 n
  | .loadDumped l =>
    num1 l.oven ++ num4 l.pushEnd ++ optField num4 l.quenchStart ++ optField num4 l.quenchEnd ++ optField num1 l.bay
      ++ flagField l.late ++ optField num4 l.hot
  | .dumpSequence b st => num1 b ++ carStateField st
  | .dischargeInterrupted b left => num1 b ++ num4 left
  | .inputChange t level => num1 t ++ [levelCode level]
  | .terminalFault t fn level => num1 t ++ fnField fn ++ [levelCode level]
  | .linkState m online cause => linkField m ++ [linkStateCode online, linkCauseCode cause]
  | .supervisorLost => []
  | .outputOverrun m kind => linkField m ++ [kind.code]
  | .partState st cause => [partStateCode st, partCauseCode cause]

/-- The body of a NOTICE: its name, the battery time of its raising, its fields (R173). -/
def noticeBody (n : Notice) : List Byte := noticeCode n.body.ctorIdx :: num4 n.time ++ n.body.fields

end Sys2Proof.Machine
end

