-- ==== Sys2Proof/Machine/Answers.lean ====
section
/-! DEFINITION. The result data of an ANSWER as characters: each field with the width of R173's table, in the order its rule
names them, and the frames a long answer is cut into (R173, R176). The forms of an absent field and of a list, the codes of
names and the places of the cuts are free values (log 11, 12). -/

namespace Sys2Proof.Machine

open Sys2Proof Config

/-! ## Fields -/

/-- A position: TRAVEL, or a spot (R47). -/
def positionField : Position → List Byte
  | .oven n side => spotField (.oven n side)
  | .park => spotField .park
  | .tower => spotField .tower
  | .wharf b => spotField (.wharf b)
  | .bunker => spotField .bunker
  | .travel => [travelCode, noNumber, noSide]

/-- A machine status (R47). -/
def machineStatusField : MachineStatus → List Byte
  | .ram r => [ramCode r]
  | .guide g => [guideCode g]
  | .carLoad l => [carLoadCode l]

/-- A machine record, its link state first and no machine code before it: the model's choice (R47, R68; log 93). -/
def machineField (online : Bool) (r : MachineRec) : List Byte :=
  linkStateCode online :: optField (fun m => [modeCode m]) r.mode ++ optField positionField r.position
    ++ optField machineStatusField r.status ++ optField num4 r.lastStatus ++ flagField r.invalidPos

/-- A permit of the table with its machine (R51, R68). -/
def permitField (p : MachineId × Permit) : List Byte :=
  machineCode p.1 :: permitKindCode p.2.kind :: num1 p.2.oven ++ num4 p.2.granted ++ num4 p.2.deadline

/-- The permits in force, in the order PM, GC, CC, QC, the model's choice (log 80). -/
def permitList (q : Quad (Option Permit)) : List (MachineId × Permit) :=
  [MachineId.pm, .gc, .cc, .qc].filterMap fun m => (q.get m).map fun p => (m, p)

/-- The series parameters (R22). -/
def seriesField (p : SeriesParams) : List Byte := num1 p.s ++ num1 p.d ++ num2 p.pi ++ num2 p.c ++ num2 p.h

/-- A serving entry: kind, oven, slot index or list position (R45). -/
def servingField (v : ServingView) : List Byte :=
  servingKindCode v.ctorIdx :: match v with
    | .slot oven i => num1 oven ++ num1 i
    | .makeup oven i => num1 oven ++ num1 i

/-- A range operation in flight: its next oven and its counts (R42, R45). -/
def rangeField (r : RangeOp) : List Byte := num1 r.next ++ num1 r.setCount ++ num1 r.skipCount ++ num1 r.left

/-- The PLAN answer (R45). -/
def planChars (v : PlanView) : List Byte :=
  planStateCode v.state :: flagField v.waitingAtBoundary ++ optField num2 v.roundNumber ++ optField num4 v.roundStart
    ++ optField num1 v.slotCount ++ optField num1 v.cursor ++ optField num4 v.holdOver ++ num4 v.lag
    ++ seriesField v.active ++ seriesField v.staged ++ optField num4 v.stagedStart ++ flagField v.mark
    ++ optField servingField v.serving ++ optField (fun p => num1 p.1 ++ num4 p.2) v.next
    ++ listField (fun e => num1 e.1.oven ++ num4 e.1.entered ++ flagField e.2) v.makeup ++ optField rangeField v.range

/-- The MACHINES answer (R68). -/
def machinesChars (v : MachinesView) : List Byte :=
  [MachineId.pm, .gc, .cc, .qc].flatMap (fun m => machineField (v.online.get m) (v.records.get m))
    ++ listField permitField (permitList v.permits) ++ flagField v.stop ++ flagField v.hold
    ++ listField (fun c => [holdCauseCode c]) v.causes ++ listField num1 v.breached
    ++ optField (fun p => num4 p.1 ++ num1 p.2) v.lastRam

/-- A stage timer: its expiry time with the state running, or its remaining seconds with the state held (R87). That it stands
under a presence mark, at its place in R70's table, is the model's choice (log 93). -/
def stageTimerField : StageTimer → List Byte
  | .absent => optionalChars none
  | .running e => optionalChars (some (timerRunsCode true :: num4 e))
  | .held r => optionalChars (some (timerRunsCode false :: num4 r))

/-- The causes that hold a stage timer (R86, R87). -/
def timerHolds (v : PushView) : List HoldCause :=
  (if v.heldByStop then [.batteryStop] else []) ++ (if v.heldByUnconfirmed then [.linkLoss] else [])

/-- A push record with what the query adds to it (R70, R87). -/
def pushField (v : PushView) (p : PushRec) : List Byte :=
  num1 p.oven ++ [pushStageCode p.stage] ++ optField (fun a => [pushStageCode (ArmedFrom.stage a)]) p.armedFrom
    ++ flagField p.retry ++ num1 p.attempts ++ num4 p.doorOff ++ optField num4 p.ramStart ++ optField num4 p.ramEnd
    ++ optField num4 p.ramHome ++ flagField p.derivedEnd ++ flagField p.derivedHome ++ stageTimerField p.timer
    ++ listField (fun c => [holdCauseCode c]) (timerHolds v) ++ flagField p.late ++ flagField p.unconfirmed
    ++ optField (listField fun m => [machineCode m]) (if p.unconfirmed then some p.lost else none)
    ++ optField (fun r => [ramCode r]) v.ram ++ optField (fun g => [guideCode g]) v.guide ++ carStateField v.car

/-- A door record (R88). -/
def doorField (r : DoorRec) : List Byte :=
  doorStateCode r.state :: optField num4 r.lastConfirmed ++ num1 r.leaks ++ flagField r.cleanDue
    ++ flagField r.resealPending ++ optField num4 r.confirm

/-- A door task entry: oven, kind, enqueue time, marks (R93). -/
def taskField (e : TaskEntry) : List Byte :=
  num1 e.oven ++ [taskKindCode e.kind] ++ num4 e.enqueued ++ flagField e.timedOut ++ flagField e.service.isSome

/-- A task in service with its task timer (R97). -/
def serviceField (e : TaskEntry) : List Byte := num1 e.oven ++ [taskKindCode e.kind] ++ optField num4 e.service

/-- A round visit in service with its task timer (R101). -/
def visitField (v : Visit) : List Byte := num1 v.oven ++ num4 v.timer

/-- The DOOR answer: records, entries with their positions, work in service (R107). That a task in service stands once more
after the entries is the model's choice (log 93). -/
def doorChars (v : DoorView) : List Byte :=
  let inService (l : List (Nat × TaskEntry)) := (l.find? fun p => p.2.service.isSome).map Prod.snd
  doorField v.records.ps ++ doorField v.records.cs
    ++ listField (fun p => num1 p.1 ++ taskField p.2) v.entries.ps
    ++ listField (fun p => num1 p.1 ++ taskField p.2) v.entries.cs
    ++ optField serviceField (inService v.entries.ps) ++ optField serviceField (inService v.entries.cs)
    ++ optField visitField v.visits.ps ++ optField visitField v.visits.cs

/-- The TASKS answer (R107). -/
def tasksChars (v : TasksView) : List Byte :=
  listField taskField v.queue ++ optField serviceField v.inService ++ optField visitField v.round.visit
    ++ listField num1 v.pending ++ int2 v.round.debt ++ num1 v.round.pointer ++ num2 v.round.elapsed
    ++ flagField v.round.saturated ++ num2 v.round.interval

/-- The sixteen values of a PRESSURE block (R109). -/
def pressureField (p : PressureParams) : List Byte :=
  int2 p.setpoint ++ int2 p.deadband ++ num1 p.kp.toNat ++ num1 p.ki.toNat ++ int2 p.uMin ++ int2 p.uMax ++ int2 p.rate
    ++ int2 p.uStart ++ int2 p.decay ++ int2 p.ffIso ++ int2 p.ffChg ++ int2 p.ffEnd ++ int2 p.pLow ++ int2 p.pHigh
    ++ int2 p.pFlare ++ int2 p.hysteresis

/-- The hold cause of a section, in HOLD (R108). -/
def SecMode.holdCause : SecMode → Option SecHold
  | .hold c => some c
  | _ => none

/-- The four run counters (R108, R122). -/
def countersField (c : RunCounters) : List Byte := num1 c.rise ++ num1 c.flare ++ num1 c.settle ++ num1 c.low

/-- A section record (R108); the integrator takes four characters (log 12). -/
def secField (r : SecRec) : List Byte :=
  optField pressureField r.params ++ flagField r.live.isSome ++ optField (fun v => secModeField v.mode) r.live
    ++ optField (fun c => [secHoldCode c]) (r.live.bind fun v => v.mode.holdCause)
    ++ optField flagField (r.live.bind SecLive.transfer) ++ optField int2 r.pressure ++ num1 r.goodRun
    ++ flagField r.sensorFault ++ num4 r.integ.toNat ++ int2 r.ff ++ optField (fun v => int2 v.uOut) r.live
    ++ optField (fun v => [alarmLevelCode v.level]) r.live ++ optField (fun v => countersField v.counters) r.live

/-- The SECTION answer (R127). -/
def sectionChars (v : SectionView) : List Byte :=
  secField v.record ++ optField num1 v.pressIn ++ optField num1 v.damperPwm ++ optField num1 v.flareOut
    ++ optField num1 v.lowAlarm ++ optField num2 v.lastGate ++ int2 v.integralTerm

/-- An entry of the valve-task queue: oven, action, enqueue time, marks (R130). -/
def valveEntryField (e : ValveEntry) : List Byte :=
  num1 e.oven ++ [actionCode e.action] ++ num4 e.enqueued ++ flagField e.timedOut ++ flagField e.service.isSome

/-- A held offer (R130). -/
def heldOfferField (h : HeldOffer) : List Byte := num1 h.oven ++ [actionCode h.action]

/-- A charge record (R137). -/
def chargeField (c : ChargeRec) : List Byte := num1 c.oven ++ num4 c.start ++ optField num4 c.timer ++ flagField c.late

/-- The VALVES answer for one oven (R140). -/
def valveChars (v : ValveView) : List Byte :=
  valveStateCode v.record.state :: optField num4 v.record.lastReport
    ++ optField (fun p => num1 p.1 ++ valveEntryField p.2) v.entry
    ++ optField (fun p => num1 p.1 ++ heldOfferField p.2) v.heldOffer

/-- The VALVES answer when it names no oven (R140). -/
def valvesChars (v : ValvesView) : List Byte :=
  listField valveEntryField v.queue ++ optField num4 v.taskTimer ++ listField heldOfferField v.heldOffers
    ++ optField (fun t => num1 t.oven ++ num4 t.expiry) v.iso ++ listField chargeField v.charges

/-- A car spot: its type, its oven or bay. -/
def carSpotField : CarSpot → List Byte
  | .park => [spotTypeCode .park, noNumber]
  | .oven n => spotTypeCode .oven :: num1 n
  | .tower => [spotTypeCode .tower, noNumber]
  | .wharf b => spotTypeCode .wharf :: num1 b

/-- A move status with its issue time and its timer (R141), both with a presence mark: the model's choice (log 93). -/
def moveField (m : MoveStatus) : List Byte :=
  moveStatusCode m.ctorIdx :: match m with
    | .issued t timer => optField num4 (some t) ++ optField num4 timer
    | _ => optField num4 none ++ optField num4 none

/-- A car record, field by field, absent ones marked absent (R141, R158). -/
def carField (c : CarRec) : List Byte :=
  carStateCode c.state.ctorIdx :: optField carSpotField c.state.spot ++ optField destField c.state.dest ++ moveField c.move
    ++ [dumpStatusCode c.dump] ++ optField carSpotField c.lastSpot ++ flagField c.notEmptyFlag ++ flagField c.positionFlag

/-- A load record (R149). -/
def loadField (l : LoadRec) : List Byte :=
  num1 l.oven ++ num4 l.pushEnd ++ optField num4 l.quenchStart ++ optField num4 l.quenchEnd ++ optField num1 l.bay
    ++ flagField l.late ++ optField num4 l.hot

/-- A bay record: state, free-since time, oven, dump time, cool timer, cooled time, gate timer (R153). That every bay gives all
seven, absent ones with their mark, and no bay number is the model's choice (log 93). -/
def bayField (b : BayRec) : List Byte :=
  let fields (since oven dump cool cooled gate : Option Nat) : List Byte :=
    bayStateCode b.ctorIdx :: optField num4 since ++ optField num1 oven ++ optField num4 dump ++ optField num4 cool
      ++ optField num4 cooled ++ optField num4 gate
  match b with
  | .free t => fields (some t) none none none none none
  | .assigned o => fields none (some o) none none none none
  | .cooling o d t => fields none (some o) (some d) (some t) none none
  | .cooled o d c => fields none (some o) (some d) none (some c) none
  | .discharging o d c g => fields none (some o) (some d) none (some c) (some g)

/-- The WHARF values (R156). -/
def wharfField (v : WharfVals) : List Byte :=
  num1 v.bays ++ num2 v.tHot ++ num2 v.tSpray ++ num2 v.tDrain ++ num2 v.tCool ++ num2 v.tGate ++ num2 v.tMove

/-- The QUENCH answer (R158). -/
def quenchChars (v : QuenchView) : List Byte :=
  carField v.unit.car ++ [linkStateCode v.qcOnline] ++ optField (fun m => [modeCode m]) v.qcMode
    ++ optField positionField v.qcPosition ++ optField machineStatusField v.qcStatus ++ optField loadField v.unit.load
    ++ optField num4 v.unit.phase ++ listField bayField v.unit.bays ++ listField num1 v.unit.free
    ++ listField num1 v.unit.discharge ++ listField trackSpotField v.unit.blocked ++ wharfField v.unit.vals

/-- A terminal state; a pulse output's with its duty in per mille (R164, R168). That a released DAMPER_PWM carries no duty
is the model's choice (log 87). -/
def termStateField (x : TermState) : List Byte :=
  termStateCode x.ctorIdx :: match x with
    | .pulsed duty => optField int2 duty
    | _ => []

/-- A terminal's record with what the query adds to it (R159, R168). That the record begins with its terminal number, which
neither rule names, and gives the input level once is the model's choice (log 93). -/
def termField (v : TermView) : List Byte :=
  num1 v.t ++ fnField v.record.fn ++ flagField v.record.invert ++ [driveCode v.record.drive, edgeCode v.record.edge]
    ++ optField (fun l => [levelCode l]) v.outputLevel ++ optField (fun p => [levelCode p.2]) v.inputState
    ++ flagField v.record.fault ++ optField termStateField v.state ++ optField (fun p => flagField p.1) v.inputState
    ++ optField num2 v.lastGate

/-- A link's settings, state, error count, last discard cause and link-test state (R177). That the link's code stands before
them, and that the link-test state may be absent, as the S-link's is, is the model's choice (log 93). -/
def linkViewField (v : LinkView) : List Byte :=
  linkCode v.link :: num1 v.settings.dv ++ [lineCodeCode v.settings.code] ++ flagField v.settings.txInvert
    ++ flagField v.settings.rxInvert
    ++ [match v.link with
      | .sup => presentCode v.up
      | .mach _ => linkStateCode v.up]
    ++ num1 v.errors ++ optField (fun c => [discardCauseCode c]) v.lastCause
    ++ optField (fun t => flagField t.active ++ num2 t.reported ++ num4 t.received) v.test

/-- An oven record with its derived times (R9, R21). -/
def ovenChars (o : OvenRec) (ready overdue : Option Nat) : List Byte :=
  num1 o.sec ++ [ovenStateCode o.state] ++ optField num4 o.chargeEnd ++ num2 o.target ++ [slotModeCode o.mode]
    ++ optField num4 o.fixedPush ++ flagField o.breach ++ flagField o.overdue ++ num1 o.stickers
    ++ optField (fun p => num4 p.netCoking ++ num4 p.pushEnd) o.lastPush ++ optField num4 ready ++ optField num4 overdue

/-- A missing block with its section (R183). -/
def missingBlockField : MissingBlock → List Byte
  | .battery => [blockCode .battery]
  | .pressure k => blockCode .pressure :: num1 k

/-- The obstacle of a RESTART answered BUSY (R185): a code, then the oven or the car state, the model's choice (log 93). -/
def obstacleField (o : Obstacle) : List Byte :=
  obstacleCode o.ctorIdx :: match o with
    | .pushing n => num1 n
    | .charging n => num1 n
    | .car c => carStateField c

/-! ## The answer -/

/-- The characters of result data, field by field (R173). The received-character count takes four characters, for its
range reaches 4,294,967,295 (R180; log 12). The model's choice (log 93): the TERMINALS answer for one named terminal is a
list of one record, the links of a STATUS stand in no list, and the PUSH record is a field that may be absent. -/
def AnswerData.chars : AnswerData → List Byte
  | .nothing => []
  | .target g => num2 g
  | .ovensToVisit n => num1 n
  | .slotCount n => num1 n
  | .attempts n => num1 n
  | .damper u => int2 u
  | .secMode m => secModeField m
  | .setpoint p => int2 p
  | .output level fault => levelCode level :: flagField fault
  | .testCounts reported received inTest => num2 reported ++ num4 received ++ flagField inTest
  | .missing blocks fns => listField missingBlockField blocks ++ listField fnField fns
  | .obstacle o => obstacleField o
  | .status part t present waiting lost links =>
    partStateCode part :: num4 t ++ [presentCode present] ++ num1 waiting ++ flagField lost
      ++ links.flatMap linkViewField
  | .time now timeOpen held => num4 now ++ flagField timeOpen ++ flagField held
  | .oven r ready overdue => ovenChars r ready overdue
  | .plan v => planChars v
  | .slot i v => num1 i ++ num1 v.oven ++ num4 v.planned ++ [slotStatusCode v.status] ++ optField num4 v.pushStart
  | .machines v => machinesChars v
  | .push v => optField (pushField v) v.record
  | .door v => doorChars v
  | .tasks v => tasksChars v
  | .secView v => sectionChars v
  | .valve v => valveChars v
  | .valves v => valvesChars v
  | .quench v => quenchChars v
  | .terminals l => listField termField l

/-- Result data cut into the characters of its frames, at most `fuel` + 1 of them: what fits one body beside tag, code, part
number and last-part mark stays whole; else a frame takes 1 to 55 characters, how many being free (R176; log 11). -/
def cutPieces : Nat → List Byte → List (List Byte)
  | 0, l => [l]
  | fuel + 1, l =>
    if l.length ≤ 55 then [l]
    else
      let n := max 1 (min 55 (cutAt l))
      l.take n :: cutPieces fuel (l.drop n)

/-- The frames' shares of result data. -/
def AnswerData.pieces (d : AnswerData) : List (List Byte) := cutPieces d.chars.length d.chars

/-- The number of ANSWER frames of an answer (R176). -/
def AnswerData.parts (d : AnswerData) : Nat := d.pieces.length

/-- The body of an ANSWER: tag, result code, part number from 1, last-part mark, result data (R173, R176). -/
def answerBody (tag : Byte) (r : Reply) (part : Nat) (lastPart : Bool) : List Byte :=
  tag :: resultCode r.result :: num1 part ++ flagField lastPart ++ (r.data.pieces[part - 1]?).getD []

/-- The characters of a frame to the supervisor; ANSWER has the code 0xC1 and NOTICE 0xC2 (R173). -/
def SFrame.chars : SFrame → List Byte
  | .answer tag r part lastPart => frameChars 0xC1 (answerBody tag r part lastPart)
  | .notice n => frameChars 0xC2 (noticeBody n)

end Sys2Proof.Machine
end

