-- ==== Sys2Proof/Machine/State.lean ====
section
/-! DEFINITION. The state of the part, its contents after hard reset, and the reasons a step could stop. -/

namespace Sys2Proof.Machine

open Sys2Proof

/-- Why a step would stop with a fault: nothing does. No rule of the spec stops the part: what it calls faults (a
sensor fault, a terminal fault, a sticker, a breach) are state with a notice, so the type has no constructor. Safe. -/
inductive Fault where
  deriving DecidableEq, Repr

/-- Why a step would be refused. The spec's own refusals are ANSWERs and REFUSE frames and are next states. -/
inductive Refusal where
  /-- Raised by an arm of `exec` for a command that has no meaning yet; no arm is so. Safe: nothing is claimed of it. -/
  | notModelled (mnemonic : String)
  deriving DecidableEq, Repr

/-- The state: one field per block (00 section 3), and the queue of commands waiting. -/
structure State where
  /-- Time base. -/
  tb : TimeBase
  /-- Oven table: the record of oven n stands at place n - 1. -/
  ot : List OvenRec
  /-- Push planner. -/
  pln : Planner
  /-- Interlock unit. -/
  ilk : Interlock
  /-- Door unit. -/
  dru : DoorUnit
  /-- Offtake unit. -/
  ofu : Offtake
  /-- Quench unit. -/
  qnu : QuenchUnit
  /-- Terminal block: the record of T0 stands first. -/
  trm : List TermRec
  /-- Link ports. -/
  lnk : Links
  /-- Configuration store. -/
  cfg : ConfigStore
  /-- Commands waiting, first in first out. -/
  pending : List Instr
  deriving DecidableEq, Repr

/-- The part after hard reset (R21, R46, R69, R106, R126, R139, R157, R168, R181, chapter 10's table). -/
def State.reset : State where
  tb := .fresh
  ot := []
  pln := .fresh
  ilk := .fresh
  dru := .fresh
  ofu := .fresh
  qnu := .fresh
  trm := .freshT0 :: List.replicate 31 .fresh
  lnk := .fresh
  cfg := .fresh
  pending := []

end Sys2Proof.Machine
end

