-- ==== Sys2Proof/Machine/Ops.lean ====
section
/-! DEFINITION. The operations every block uses: arithmetic of times and clamps, numbered tables, reading and writing
the records of ovens, doors, valves, sections, terminals and links, notices, frames and answers, and what the
transmitters do at the end of an event. -/

namespace Sys2Proof.Machine

open Sys2Proof

/-! ## Arithmetic -/

/-- A stored time plus a duration, held at the greatest battery time (R3). -/
def timeAdd (t d : Nat) : Nat := min tMax (t + d)

/-- Clamp a count into lo..hi. -/
def clampNat (lo hi v : Nat) : Nat := max lo (min hi v)

/-- Clamp a signed value into lo..hi. -/
def clampInt (lo hi v : Int) : Int := max lo (min hi v)

/-! ## Tables numbered from 1 -/

/-- The record numbered n, from 1. -/
def nth1 {α : Type} (l : List α) : Nat → Option α
  | 0 => none
  | k + 1 => l[k]?

/-- Change the record numbered n, from 1; a number outside the table changes nothing. -/
def upd1 {α : Type} (f : α → α) : Nat → List α → List α
  | 0, l => l
  | _ + 1, [] => []
  | 1, a :: l => f a :: l
  | k + 2, a :: l => a :: upd1 f (k + 1) l

/-- The numbers lo, lo + 1, ..., hi. -/
def numbers (lo hi : Nat) : List Nat := (List.range (hi + 1 - lo)).map (· + lo)

/-! ## Reading the state -/

namespace State

/-- Current battery time. -/
def now (s : State) : Nat := s.tb.time

/-- The part is in RUN. -/
def inRun (s : State) : Bool := s.cfg.part == .run

/-- N_OV: the number of oven records; 0 before BATTERY (R7). -/
def nOv (s : State) : Nat := s.ot.length

/-- The oven number lies in 1..N_OV. -/
def ovenOk (s : State) (n : Nat) : Bool := 1 ≤ n && n ≤ s.nOv

/-- The record of oven n. -/
def oven (s : State) (n : Nat) : Option OvenRec := nth1 s.ot n

/-- The state of oven n. -/
def ovenState (s : State) (n : Nat) : Option OvenState := (s.oven n).map OvenRec.state

/-- Oven n exists and is in the state named. -/
def ovenIs (s : State) (n : Nat) (st : OvenState) : Bool := s.ovenState n == some st

/-- Change the record of oven n. -/
def updOven (s : State) (n : Nat) (f : OvenRec → OvenRec) : State := { s with ot := upd1 f n s.ot }

/-- The section of oven n; 0 for no oven. -/
def secOf (s : State) (n : Nat) : Nat := ((s.oven n).map OvenRec.sec).getD 0

/-- The door record of an oven and side (R88). -/
def door (s : State) (n : Nat) (d : Side) : Option DoorRec := (nth1 s.dru.doors n).map (·.get d)

/-- The state of a door. -/
def doorState (s : State) (n : Nat) (d : Side) : Option DoorState := (s.door n d).map DoorRec.state

/-- Change a door record. -/
def updDoor (s : State) (n : Nat) (d : Side) (f : DoorRec → DoorRec) : State :=
  { s with dru.doors := upd1 (fun p => p.set d (f (p.get d))) n s.dru.doors }

/-- A door of oven n is OFF. -/
def anyDoorOff (s : State) (n : Nat) : Bool := s.doorState n .ps == some .off || s.doorState n .cs == some .off

/-- A side's task queue. -/
def queue (s : State) (d : Side) : List TaskEntry := s.dru.queues.get d

/-- Replace a side's task queue. -/
def setQueue (s : State) (d : Side) (q : List TaskEntry) : State :=
  { s with dru.queues := s.dru.queues.set d q }

/-- A side's inspection round. -/
def round (s : State) (d : Side) : Inspection := s.dru.rounds.get d

/-- Change a side's inspection round. -/
def updRound (s : State) (d : Side) (f : Inspection → Inspection) : State :=
  { s with dru.rounds := s.dru.rounds.set d (f (s.dru.rounds.get d)) }

/-- The valve state of oven n. -/
def valveState (s : State) (n : Nat) : Option ValveState := (nth1 s.ofu.valves n).map ValveRec.state

/-- The section record numbered k. -/
def sec (s : State) (k : Nat) : Option SecRec := nth1 s.ofu.sections k

/-- Change a section record. -/
def updSec (s : State) (k : Nat) (f : SecRec → SecRec) : State :=
  { s with ofu.sections := upd1 f k s.ofu.sections }

/-- The number of sections K. -/
def nSec (s : State) : Nat := s.ofu.sections.length

/-- The bay record numbered b. -/
def bay (s : State) (b : Nat) : Option BayRec := nth1 s.qnu.bays b

/-- Replace a bay record. -/
def setBay (s : State) (b : Nat) (r : BayRec) : State :=
  { s with qnu.bays := upd1 (fun _ => r) b s.qnu.bays }

/-- The record of terminal t (T0 stands first). -/
def term (s : State) (t : Nat) : Option TermRec := nth1 s.trm (t + 1)

/-- Change the record of terminal t. -/
def updTerm (s : State) (t : Nat) (f : TermRec → TermRec) : State := { s with trm := upd1 f (t + 1) s.trm }

/-- The M-link of a machine. -/
def mlink (s : State) (m : MachineId) : MLink := s.lnk.mach.get m

/-- Change the M-link of a machine. -/
def updLink (s : State) (m : MachineId) (f : MLink → MLink) : State :=
  { s with lnk.mach := s.lnk.mach.set m (f (s.lnk.mach.get m)) }

/-- The port of a link. -/
def port (s : State) : LinkId → Port
  | .sup => s.lnk.sup.port
  | .mach m => (s.mlink m).port

/-- Change the port of a link. -/
def updPort (s : State) (l : LinkId) (f : Port → Port) : State :=
  match l with
  | .sup => { s with lnk.sup.port := f s.lnk.sup.port }
  | .mach m => s.updLink m (fun k => { k with port := f k.port })

/-- What a link's line shows by its settings: the characters being sent, or its level at rest (R169). -/
def shownLine (s : State) : LinkId → LineShown
  | .sup => lineShown s.lnk.sup.port.settings s.lnk.sup.line
  | .mach m => lineShown (s.mlink m).port.settings (s.mlink m).line

/-- A machine's link is ONLINE (R174). -/
def online (s : State) (m : MachineId) : Bool := (s.mlink m).port.up

/-- The S-link is PRESENT (R175). -/
def present (s : State) : Bool := s.lnk.sup.port.up

/-- A machine's record (R47). -/
def machine (s : State) (m : MachineId) : MachineRec := s.ilk.machines.get m

/-- Change a machine's record. -/
def updMachine (s : State) (m : MachineId) (f : MachineRec → MachineRec) : State :=
  { s with ilk.machines := s.ilk.machines.set m (f (s.ilk.machines.get m)) }

/-- A machine's permit (R51). -/
def permit (s : State) (m : MachineId) : Option Permit := s.ilk.permits.get m

/-- Write a machine's place in the permit table. -/
def setPermit (s : State) (m : MachineId) (p : Option Permit) : State :=
  { s with ilk.permits := s.ilk.permits.set m p }

/-- Write the push record. -/
def setPush (s : State) (p : Option PushRec) : State := { s with ilk.push := p }

/-- PM's ram state in the machine table (R47, R50). -/
def ram (s : State) : Option Ram :=
  match (s.machine .pm).status with
  | some (.ram r) => some r
  | _ => none

/-- GC's guide state in the machine table. -/
def guide (s : State) : Option Guide :=
  match (s.machine .gc).status with
  | some (.guide g) => some g
  | _ => none

/-- QC's load in the machine table. -/
def carLoad (s : State) : Option CarLoad :=
  match (s.machine .qc).status with
  | some (.carLoad l) => some l
  | _ => none

/-! ## Notices (R177) -/

/-- Raise a notice: it joins the queue stamped with battery time, or is dropped with the notices-lost flag set when
32 wait (R4, R177). -/
def raise (s : State) (b : NoticeBody) : State :=
  if s.lnk.sup.notices.length < 32 then
    { s with lnk.sup.notices := s.lnk.sup.notices ++ [⟨s.now, b⟩] }
  else
    { s with lnk.sup.noticesLost := true }

/-! ## Frames to the machines (R178) -/

/-- Hand a frame to a machine's output queue. During a link test it is dropped; with 16 frames waiting it is dropped
with an OUTPUT_OVERRUN notice, once until the queue has been empty (R178). -/
def send (s : State) (m : MachineId) (f : MFrame) : State :=
  let l := s.mlink m
  if l.test.active then s
  else if l.queue.length < 16 then s.updLink m (fun k => { k with queue := k.queue ++ [f] })
  else if l.suppressed then s
  else (s.updLink m (fun k => { k with suppressed := true })).raise (.outputOverrun m f.kind)

/-- Hand a frame to one machine if it is ONLINE. -/
def sendIfOnline (s : State) (m : MachineId) (f : MFrame) : State := if s.online m then s.send m f else s

/-- Hand a frame to every ONLINE machine (R64). The order PM, GC, CC, QC is the model's choice (log 71). -/
def sendAllOnline (s : State) (f : MFrame) : State :=
  (((s.sendIfOnline .pm f).sendIfOnline .gc f).sendIfOnline .cc f).sendIfOnline .qc f

/-! ## Discards and answers (R172, R176) -/

/-- Count a discard on a link and record its cause; the count stays at 255 (R172). -/
def discard (s : State) (l : LinkId) (c : DiscardCause) : State :=
  s.updPort l (fun p => { p with errors := min 255 (p.errors + 1), lastCause := some c })

/-- Put an answer into the answer queue (R176). -/
def pushAnswer (s : State) (tag : Byte) (r : Reply) : State :=
  { s with lnk.sup.answers := s.lnk.sup.answers ++ [⟨tag, r, 0⟩] }

end State

namespace State

/-! ## Transmitters at the end of an event (R177, R178; log 10) -/

/-- The S-link transmitter begins a frame: its characters go on the line by the settings of that moment (R169, R171). -/
def beginSup (s : State) (f : SFrame) : State :=
  { s with lnk.sup.sending := some f, lnk.sup.line := f.chars.map (charCells s.lnk.sup.port.settings) }

/-- The S-link transmitter, when idle, takes the head answer, else the head notice while PRESENT (R177). An answer
leaves the queue when its last frame begins; a notice when its transmission begins. -/
def kickSup (s : State) : State :=
  match s.lnk.sup.sending with
  | some _ => s
  | none =>
    match s.lnk.sup.answers with
    | a :: rest =>
      let part := a.begun + 1
      let lastPart := decide (a.reply.data.parts ≤ part)
      { s.beginSup (.answer a.tag a.reply part lastPart) with
        lnk.sup.answers := if lastPart then rest else { a with begun := part } :: rest }
    | [] =>
      if s.present then
        match s.lnk.sup.notices with
        | n :: rest => { s.beginSup (.notice n) with lnk.sup.notices := rest }
        | [] => s
      else s

/-- An M-link transmitter begins a frame: its characters go on the line by the settings of that moment (R169, R171). -/
def beginLink (k : MLink) (f : MFrame) : MLink :=
  { k with sending := some f, line := f.chars.map (charCells k.port.settings) }

/-- An M-link transmitter, when idle and not in a link test, takes the head of its output queue; the overrun
suppression ends when the queue is empty (R178). -/
def kickLink (k : MLink) : MLink :=
  let k :=
    if k.sending.isNone && !k.test.active then
      match k.queue with
      | f :: rest => { beginLink k f with queue := rest }
      | [] => k
    else k
  if k.queue.isEmpty then { k with suppressed := false } else k

/-- Every transmitter takes up what it can (log 10). -/
def kick (s : State) : State :=
  let s := s.kickSup
  { s with lnk.mach := ⟨kickLink s.lnk.mach.pm, kickLink s.lnk.mach.gc, kickLink s.lnk.mach.cc,
      kickLink s.lnk.mach.qc⟩ }

end State

end Sys2Proof.Machine
end

