-- ==== Sys2Proof/Machine/Operands.lean ====
section
/-! DEFINITION. The operand forms: range and cross-checks of the setup blocks, clamped values, track runs, allowed
spots, characters as received, and the link-test stream. -/

namespace Sys2Proof.Machine

open Sys2Proof

/-- lo ≤ v ≤ hi. -/
def within (lo hi v : Nat) : Bool := lo ≤ v && v ≤ hi

/-- lo ≤ v ≤ hi on signed values. -/
def withinInt (lo hi v : Int) : Bool := lo ≤ v && v ≤ hi

/-- Each section ends after the one before it: the last ovens rise from `prev` (R8). -/
def risingFrom (prev : Nat) : List Nat → Bool
  | [] => true
  | a :: rest => prev < a && risingFrom a rest

/-- The checks of a BATTERY block (R7, R8). -/
def batteryOk (nOv k : Nat) (lasts : List Nat) : Bool :=
  within 10 96 nOv && within 1 4 k && lasts.length == k && risingFrom 0 lasts && lasts.getLast? == some nOv

/-- The section of oven n by the last ovens of the sections, counting from `k` (R8). -/
def sectionFrom (k n : Nat) : List Nat → Nat
  | [] => k
  | a :: rest => if n ≤ a then k else sectionFrom (k + 1) n rest

/-- The checks of a SERIES block (R22). -/
def seriesOk (p : SeriesParams) : Bool :=
  within 2 10 p.s && within 1 (p.s - 1) p.d && Nat.gcd p.d p.s == 1 && within 300 3600 p.pi
    && decide (p.c ≤ p.pi / 2) && decide (p.h ≤ 3600)

/-- The ranges of a TIMING block (R9, R51, R70, R133). -/
def timingOk (v : Timing) : Bool :=
  decide (v.w ≤ 240) && decide (v.l ≤ 480) && within 30 600 v.tUse && decide (v.tSs ≤ 3600) && decide (v.tSd ≤ 3600)
    && decide (v.tAdj ≤ 1440) && within 30 600 v.tRam && within 30 600 v.tReturn && within 60 1800 v.tDoors
    && within 60 1800 v.tCharge && within 60 1800 v.lIso

/-- The ranges and cross-checks of a PRESSURE block (R109). -/
def pressureOk (p : PressureParams) : Bool :=
  withinInt (-100) 400 p.setpoint && withinInt 0 20 p.deadband && withinInt 0 255 p.kp && withinInt 0 255 p.ki
    && withinInt 0 1000 p.uMin && withinInt 0 1000 p.uMax && withinInt 1 100 p.rate && withinInt 0 1000 p.uStart
    && withinInt 1 50 p.decay && withinInt (-300) 300 p.ffIso && withinInt (-300) 300 p.ffChg
    && withinInt (-300) 300 p.ffEnd && withinInt (-250) 200 p.pLow && withinInt 0 700 p.pHigh
    && withinInt 100 750 p.pFlare && withinInt 10 100 p.hysteresis
    && decide (p.uMin < p.uMax) && decide (p.pLow < p.setpoint) && decide (p.setpoint < p.pHigh)
    && decide (p.pHigh < p.pFlare)

/-- The ranges of a WHARF block (R156). -/
def wharfOk (v : WharfVals) : Bool :=
  within 2 12 v.bays && within 60 900 v.tHot && within 30 300 v.tSpray && within 30 300 v.tDrain
    && within 300 7200 v.tCool && within 10 600 v.tGate && within 30 900 v.tMove

/-- The ranges of a DOORS block (R91). -/
def doorsOk (v : DoorVals) : Bool :=
  within 1 15 v.cleanThreshold && within 60 3600 v.tConfirm && within 60 3600 v.tTask && within 60 7200 v.iBase

/-- The section and bay numbers a terminal function may name (R160, R161). -/
def TermFn.numberOk : TermFn → Bool
  | .pressIn k | .damperPwm k | .flareOut k | .lowAlarm k => within 1 4 k
  | .gateOut b => within 1 12 b
  | _ => true

/-- Functions that may stand on any number of terminals (R160). -/
def TermFn.shared : TermFn → Bool
  | .unassigned | .input | .output => true
  | _ => false

/-- Functions whose terminal is read through the filter (R162). -/
def TermFn.filteredInput : TermFn → Bool
  | .input | .conveyorRunIn | .batteryStopIn => true
  | _ => false

/-- The RANGE tests of a TERMINAL block (R161). -/
def terminalOk (t : Nat) (fn : TermFn) (drive : Drive) : Bool :=
  decide (t < 32) && TermFn.numberOk fn && (drive == .normal || decide (24 ≤ t))

/-- The RANGE tests of a LINK block (R169). -/
def linkOk (l : LinkId) (v : LineSettings) : Bool :=
  within 1 255 v.dv && !(l == .sup && v.code == .optical)

/-- A fixed push time is carried exactly with FIXED (R20, R41, R42). -/
def fixedOk (mode : SlotMode) (fixedPush : Option Time32) : Bool := (mode == .fixed) == fixedPush.isSome

/-- The RANGE tests of an OVEN_LOAD block (R20, R88). -/
def ovenLoadOk (s : State) (v : OvenLoad) : Bool :=
  s.ovenOk v.oven
    && (match v.state with
      | .out | .empty => v.chargeEnd.isNone
      | .coking | .ready => (v.chargeEnd.map fun t => decide (t.toNat ≤ s.now)).getD false
      | .charging | .pushing => false)
    && within 600 2400 v.target
    && fixedOk v.mode v.fixedPush
    && !(v.doorPs == some .off) && !(v.doorCs == some .off)

/-- The clamped setpoint: between P_low and P_high and within the setpoint range (R121). -/
def clampSetpoint (p : PressureParams) (v : Int) : Int := clampInt (max (-100) (p.pLow + 1)) (min 400 (p.pHigh - 1)) v

/-! ## The track row (R142) -/

/-- Place of a spot in the track row. -/
def trackPos (nOv : Nat) : TrackSpot → Nat
  | .park => 0
  | .oven n => n
  | .tower => nOv + 1
  | .wharf => nOv + 2

/-- The spot at a place of the track row. -/
def trackSpotAt (nOv i : Nat) : TrackSpot :=
  if i = 0 then .park else if i ≤ nOv then .oven i else if i = nOv + 1 then .tower else .wharf

/-- A spot of the row exists: an oven lies in 1..N_OV. -/
def trackSpotOk (nOv : Nat) : TrackSpot → Bool
  | .oven n => 1 ≤ n && n ≤ nOv
  | _ => true

/-- The spots from place i to place j of the row, both included. -/
def trackRun (nOv i j : Nat) : List TrackSpot := (numbers i j).map (trackSpotAt nOv)

/-- The row spot of a car spot: every bay lies at WHARF (R142). -/
def CarSpot.row : CarSpot → TrackSpot
  | .park => .park
  | .oven n => .oven n
  | .tower => .tower
  | .wharf _ => .wharf

/-- The row spot of a destination. -/
def MoveDest.row : MoveDest → TrackSpot
  | .park => .park
  | .oven n => .oven n
  | .tower => .tower
  | .bay _ => .wharf

/-- The path of a move (R142): every spot strictly between the last spot and the destination, with the destination;
every spot from PARK when the last spot is absent; WHARF from bay to bay. The car's own last spot is not on it (log 21), but
that a move to the very bay of the last spot has the path WHARF is the model's choice (log 83). -/
def movePath (nOv : Nat) (last : Option CarSpot) (dest : MoveDest) : List TrackSpot :=
  let d := trackPos nOv dest.row
  match last with
  | none => trackRun nOv 0 d
  | some c =>
    let a := trackPos nOv c.row
    if a < d then trackRun nOv (a + 1) d
    else if d < a then trackRun nOv d (a - 1)
    else if dest.row == .wharf then [.wharf]
    else []

/-! ## Spots of a STATUS (R48) -/

/-- The spot is allowed for the machine: its row of the table, an oven in 1..N_OV, a bay in 1..B. -/
def spotAllowed (s : State) (m : MachineId) : ReportedSpot → Bool
  | .oven n side =>
    s.ovenOk n && (match m with
      | .pm => side == .ps
      | .gc => side == .cs
      | .cc => side == .top
      | .qc => side == .track)
  | .park => true
  | .tower => m == .qc
  | .wharf b => m == .qc && 1 ≤ b && b ≤ s.qnu.bays.length
  | .bunker => m == .cc

/-- The position at a spot. -/
def ReportedSpot.position : ReportedSpot → Position
  | .oven n side => .oven n side
  | .park => .park
  | .tower => .tower
  | .wharf b => .wharf b
  | .bunker => .bunker

/-- The car spot at a reported spot. -/
def ReportedSpot.carSpot : ReportedSpot → Option CarSpot
  | .oven n _ => some (.oven n)
  | .park => some .park
  | .tower => some .tower
  | .wharf b => some (.wharf b)
  | .bunker => none

/-- The position of a car spot. -/
def CarSpot.position : CarSpot → Position
  | .park => .park
  | .oven n => .oven n .track
  | .tower => .tower
  | .wharf b => .wharf b

/-! ## Characters on the line (R169, R170) -/

/-- A character as the receiver hands it on: its eight data bits, or damaged with its data bits. -/
inductive RxChar where
  | good (b : Byte)
  | parity (b : Byte)
  | framing (b : Byte)
  deriving DecidableEq, Repr

/-- The data bits of a character. -/
def RxChar.data : RxChar → Byte
  | .good b | .parity b | .framing b => b

/-- The character is damaged. -/
def RxChar.damaged : RxChar → Bool
  | .good _ => false
  | _ => true

/-- The line is low, after receive invert, in a thirty-second counted from the fall; past the operand it is at rest, high
(R170; log 62). -/
def lowAt (invert : Bool) (w : LineWave) (i : Nat) : Bool := decide (i < 352) && w.getLsbD i == invert

/-- A low pulse of a sixteenth of a cell or more begins at a thirty-second (R170). -/
def pulseBegins (invert : Bool) (w : LineWave) (i : Nat) : Bool :=
  lowAt invert w i && lowAt invert w (i + 1) && !(decide (1 ≤ i) && lowAt invert w (i - 1))

/-- The fall starts a character: in NRZ the line is still low at the middle of the start cell, in OPTICAL the pulse lasts a
sixteenth of a cell or more (R170). -/
def charStarts (v : LineSettings) (w : LineWave) : Bool :=
  lowAt v.rxInvert w 0 && lowAt v.rxInvert w (match v.code with | .nrz => 16 | .optical => 1)

/-- The bit read from a cell: in NRZ the level at its middle, in OPTICAL zero where a low pulse of a sixteenth or more
begins in it (R170). -/
def bitRead (v : LineSettings) (w : LineWave) (cell : Nat) : Bool :=
  match v.code with
  | .nrz => !lowAt v.rxInvert w (32 * cell + 16)
  | .optical => !(numbers (32 * cell) (32 * cell + 31)).any (pulseBegins v.rxInvert w)

/-- The character of eight bits, the first least significant (R169). -/
def byteOf (f : Nat → Bool) : Byte :=
  let bit (i : Nat) : BitVec 1 := BitVec.ofBool (f i)
  bit 7 ++ (bit 6 ++ (bit 5 ++ (bit 4 ++ (bit 3 ++ (bit 2 ++ (bit 1 ++ bit 0))))))

/-- What the receiver reads from a fall and what follows it, by the line settings (R170): nothing when the fall starts no
character; else the data bits with a parity error when parity is not even and a framing error when the stop bit reads
zero. With both errors the cause recorded is free (log 14). -/
def rxChar (v : LineSettings) (w : LineWave) : Option RxChar :=
  if charStarts v w then
    let b := byteOf fun i => bitRead v w (i + 1)
    let parityBad := bitRead v w 9 != parityBit b
    let framingBad := !bitRead v w 10
    if parityBad && framingBad then some (if Config.parityFirst w then .parity b else .framing b)
    else if parityBad then some (.parity b)
    else if framingBad then some (.framing b)
    else some (.good b)
  else none

/-! ## The link-test stream (R180) -/

/-- The next bit of the stream: the exclusive-or of the bits 15 and 14 places before it. -/
def streamBit (r : BitVec 15) : Bool := r.getLsbD 14 ^^ r.getLsbD 13

/-- Shift a bit in as the newest. -/
def streamShift (r : BitVec 15) (b : Bool) : BitVec 15 := (r <<< 1) ||| (BitVec.ofBool b).setWidth 15

/-- The generator after n more bits. -/
def streamSteps : Nat → BitVec 15 → BitVec 15
  | 0, r => r
  | k + 1, r => streamSteps k (streamShift r (streamBit r))

/-- Shift the eight data bits of a received character into the checker, least significant first, and tell whether
every bit was as predicted from the received bits (R180). -/
def checkerTake (r : BitVec 15) (b : Byte) : BitVec 15 × Bool :=
  [0, 1, 2, 3, 4, 5, 6, 7].foldl
    (fun (acc : BitVec 15 × Bool) i =>
      (streamShift acc.1 (b.getLsbD i), acc.2 && (streamBit acc.1 == b.getLsbD i)))
    (r, true)

end Sys2Proof.Machine
end

