-- ==== Sys2Proof/Machine/Flags.lean ====
section
/-! DEFINITION. The derived conditions: ready and overdue times, the machine hold, alarm conditions, levels and states
of the terminals, the serving oven, and when a machine is idle for work. -/

namespace Sys2Proof.Machine

open Sys2Proof

/-! ## Ovens (R9, R13, R17) -/

/-- Ready time t_c + (G − W) × 60, when t_c is present (R9). -/
def readyTime (v : Timing) (o : OvenRec) : Option Nat := o.chargeEnd.map fun t => timeAdd t ((o.target - v.w) * 60)

/-- Overdue time t_c + (G + L) × 60, when t_c is present (R9). -/
def overdueTime (v : Timing) (o : OvenRec) : Option Nat := o.chargeEnd.map fun t => timeAdd t ((o.target + v.l) * 60)

/-- A time that is present and at or before battery time. -/
def reached (now : Nat) : Option Nat → Bool
  | some t => decide (t ≤ now)
  | none => false

namespace State

/-! ## Holds (R64, R62) -/

/-- The machine hold is in force: CONFIG, stop condition, or a breach flag (R64). -/
def hold (s : State) : Bool := !s.inRun || s.ilk.stop || s.ot.any OvenRec.breach

/-- The causes of the machine hold that are present (R64, R68), listed in the model's order (log 80). -/
def holdCauses (s : State) : List HoldCause :=
  (if s.inRun then [] else [.config]) ++ (if s.ilk.stop then [.batteryStop] else [])
    ++ (if s.ot.any OvenRec.breach then [.breach] else [])

/-- The cause a STOP carries when no new cause arises: the one that started or last renewed the hold while it still
holds, else the first that holds (R64; log 19). -/
def stopCause (s : State) : HoldCause :=
  if s.holdCauses.contains s.ilk.holdCause then s.ilk.holdCause else s.holdCauses.headD s.ilk.holdCause

/-! ## The planner's serving entry (R31) -/

/-- The slot with index i of the round kept. -/
def slot (s : State) (i : Nat) : Option Slot := s.pln.round.bind fun r => r.slots[i]?

/-- The cursor slot (R26). -/
def cursorSlot (s : State) : Option Slot := s.pln.cursor.bind s.slot

/-- The oven of the serving entry (R31). -/
def servingOven (s : State) : Option Nat :=
  match s.pln.serving with
  | some .slot => s.cursorSlot.map Slot.oven
  | some (.makeup o _) => some o
  | none => none

/-- The due time of a slot (R26): the fixed push time in FIXED, else the planned time plus the lag. -/
def dueTime (s : State) (sl : Slot) : Nat :=
  match s.oven sl.oven with
  | some o => if o.mode == .fixed then o.fixedPush.getD (timeAdd sl.planned s.pln.lag) else timeAdd sl.planned s.pln.lag
  | none => timeAdd sl.planned s.pln.lag

/-- The next oven to serve and its due time, as the planner reports them (R31). -/
def nextOven (s : State) : Option (Nat × Nat) :=
  match s.pln.serving with
  | some (.makeup o since) => some (o, since)
  | some .slot => s.cursorSlot.map fun sl => (sl.oven, s.dueTime sl)
  | none =>
    if s.pln.state == .idle then none
    else s.cursorSlot.bind fun sl => if sl.status == .waiting then some (sl.oven, s.dueTime sl) else none

/-- The planner waits at a round boundary: a round is kept and no slot is under the cursor (R40). -/
def boundaryWait (s : State) : Bool := s.pln.round.isSome && s.pln.cursor.isNone

/-! ## The push record (R70) -/

/-- A push record for oven n exists. -/
def pushAt (s : State) (n : Nat) : Bool := (s.ilk.push.map fun p => p.oven == n).getD false

/-- The unconfirmed flag of the push record is set (R84). -/
def unconfirmed (s : State) : Bool := (s.ilk.push.map PushRec.unconfirmed).getD false

/-! ## Sections (R108, R123) -/

/-- The alarm level of an active section. -/
def level (s : State) (k : Nat) : Option AlarmLevel := (s.sec k).bind fun r => r.live.map SecLive.level

/-- Some section's alarm level is HIGH or FLARE (R101). -/
def anyHigh (s : State) : Bool :=
  s.ofu.sections.any fun r => (r.live.map fun v => v.level == .high || v.level == .flare).getD false

/-- The inspection interval in force (R101). -/
def inspectionInterval (s : State) : Nat := if s.anyHigh then s.dru.vals.iBase / 2 else s.dru.vals.iBase

/-! ## Charging -/

/-- An oven other than n, of section k, is CHARGING (R11, R57). -/
def chargingElsewhere (s : State) (n k : Nat) : Option Nat :=
  (numbers 1 s.nOv).find? fun m => m != n && s.secOf m == k && s.ovenIs m .charging

/-- A charge record for oven n exists (R137). -/
def chargeAt (s : State) (n : Nat) : Bool := s.ofu.charges.any fun c => c.oven == n

/-! ## Machines at ovens -/

/-- The oven at which a machine stands. -/
def positionOven (s : State) (m : MachineId) : Option Nat :=
  match (s.machine m).position with
  | some (.oven n _) => some n
  | _ => none

/-- The machine is ONLINE and its position is oven n with the side given (R53, R56, R57). -/
def alignedAt (s : State) (m : MachineId) (n : Nat) (side : SpotSide) : Bool :=
  s.online m && (s.machine m).position == some (.oven n side)

end State

/-- The machine that works a side's doors (R93). -/
def Side.machine : Side → MachineId
  | .ps => .pm
  | .cs => .gc

/-- A side as the side of a spot. -/
def Side.spot : Side → SpotSide
  | .ps => .ps
  | .cs => .cs

namespace State

/-- A side's machine is idle for door work (R97). -/
def doorIdle (s : State) (d : Side) : Bool :=
  let m := Side.machine d
  s.inRun && !s.hold && s.online m && (s.machine m).mode == some .auto && (s.permit m).isNone
    && !((s.positionOven m).map s.pushAt).getD false
    && !(s.queue d).any (fun e => e.service.isSome) && (s.round d).visit.isNone

/-- CC is idle for valve work (R134). -/
def valveIdle (s : State) : Bool :=
  s.inRun && !s.hold && s.online .cc && (s.machine .cc).mode == some .auto && (s.permit .cc).isNone
    && !((s.positionOven .cc).map s.chargeAt).getD false
    && !s.ofu.queue.any (fun e => e.service.isSome)

/-! ## Terminals (R164) -/

/-- The terminal that carries a function; `none` when it stands on no terminal. -/
def terminalOf (s : State) (fn : TermFn) : Option Nat := s.trm.findIdx? fun r => r.fn == fn

/-- The function stands on a terminal. -/
def assigned (s : State) (fn : TermFn) : Bool := (s.terminalOf fn).isSome

/-- The level of an input function; inactive while it stands on no terminal (R160). -/
def inputLevel (s : State) (fn : TermFn) : Bool :=
  match s.trm.find? fun r => r.fn == fn with
  | some r => r.level
  | none => false

/-- The function is driven by its owner (R164). -/
def driven (s : State) : TermFn → Bool
  | .output => true
  | .damperPwm k | .flareOut k | .lowAlarm k => ((s.sec k).bind SecRec.live).isSome
  | .sprayOut => true
  | .gateOut b => (s.bay b).isSome
  | _ => false

/-- The function level an owner holds for a switched output other than OUTPUT: FLARE_OUT and LOW_ALARM from the
alarm level (R123), SPRAY_OUT while QUENCHING (R151), GATE_OUT while DISCHARGING (R154). Off is the model's choice for a
FLARE_OUT or LOW_ALARM whose section is inactive or has no record, which R123 and R164 call not driven, with no level (log
75). -/
def ownedLevel (s : State) : TermFn → Bool
  | .flareOut k => s.level k == some .flare
  | .lowAlarm k => s.level k == some .low
  | .sprayOut => s.qnu.car.state == .quenching
  | .gateOut b =>
    match s.bay b with
    | some (.discharging ..) => true
    | _ => false
  | _ => false

/-- The level of a pulse train at the moment it is read: off at duty 0, on at duty 1000, between them that of the part of
the period it is in, which is open (R115, R164; log 75). With no duty yet it is off: the model's choice (log 68). -/
def pulseLevel (s : State) (r : TermRec) : Bool :=
  match r.duty with
  | none => false
  | some d => decide (0 < d) && (decide (1000 ≤ d) || Config.pulseOn s.tb s.lnk r)

/-- The output level of an output terminal, before inversion (R159). -/
def outputLevel (s : State) (r : TermRec) : Option Bool :=
  match r.fn with
  | .output => some r.out
  | .damperPwm _ => some (s.driven r.fn && s.pulseLevel r)
  | .flareOut _ | .lowAlarm _ | .sprayOut | .gateOut _ => some (s.ownedLevel r.fn)
  | _ => none

/-- The state of an output terminal (R164); `none` for a terminal that is no output. R168 gives the duty in force for
DAMPER_PWM: that one with its fault flag set, or not driven, is given as released, without its duty, is the model's choice
(log 87). -/
def termState (s : State) (r : TermRec) : Option TermState :=
  match r.fn with
  | .damperPwm _ => some (if r.fault || !s.driven r.fn then .released else .pulsed r.duty)
  | _ =>
    (s.outputLevel r).map fun on =>
      if r.fault || !s.driven r.fn then .released
      else if on != r.invert then .energised
      else .deEnergised

/-- The terminal passes current at some time: an energised output, or a pulse train with an energised part (R166). A pulse
output with no duty yet stands at level off, which passes current when inverted: the model's choice (log 68). -/
def canOverload (s : State) (r : TermRec) : Bool :=
  match s.termState r with
  | some .energised => true
  | some (.pulsed (some d)) => if r.invert then decide (d < 1000) else decide (0 < d)
  | some (.pulsed none) => r.invert
  | _ => false

end State

end Sys2Proof.Machine
end

