-- ==== Sys2Proof/Machine/Work.lean ====
section
/-! DEFINITION. Handing work to the machines: the dispatch check and round visit check of a side (R97, R103) and the
dispatch check of CC (R134). -/

namespace Sys2Proof.Machine

open Sys2Proof

/-- Class order of the door task queues: RESEAL, CLEAN, INSPECT (R93). -/
def TaskKind.rank : TaskKind → Nat
  | .reseal => 0
  | .clean => 1
  | .inspect => 2

/-- An entry joins last in its class (R93). -/
def joinLast (e : TaskEntry) : List TaskEntry → List TaskEntry
  | [] => [e]
  | a :: l => if TaskKind.rank e.kind < TaskKind.rank a.kind then e :: a :: l else a :: joinLast e l

/-- An entry is placed at the head of its class (R93). -/
def joinHead (e : TaskEntry) : List TaskEntry → List TaskEntry
  | [] => [e]
  | a :: l => if TaskKind.rank e.kind ≤ TaskKind.rank a.kind then e :: a :: l else a :: joinHead e l

/-- The first entry that may be dispatched, with the queue in which it is in service to `expiry` (R97). -/
def serveFirst (ok : TaskEntry → Bool) (expiry : Nat) : List TaskEntry → Option (TaskEntry × List TaskEntry)
  | [] => none
  | a :: l =>
    if ok a then some (a, { a with service := some expiry } :: l)
    else (serveFirst ok expiry l).map fun r => (r.1, a :: r.2)

/-- The ovens from p upward and from N_OV on to 1 (R103). -/
def pointerOrder (p nOv : Nat) : List Nat := numbers p nOv ++ numbers 1 (p - 1)

namespace State

/-- A round visit does not pass over the oven: it is neither OUT nor PUSHING and its door is not OFF (R103). -/
def visitable (s : State) (d : Side) (n : Nat) : Bool :=
  !(s.ovenIs n .out) && !(s.ovenIs n .pushing) && !(s.doorState n d == some .off)

/-- The round visit check of an idle machine with no entry to dispatch (R103). -/
def roundVisitCheck (s : State) (d : Side) : State :=
  if (s.round d).debt ≤ -8 then s
  else
    match (pointerOrder (s.round d).pointer s.nOv).find? (s.visitable d) with
    | none => s
    | some n =>
      (s.updRound d fun r =>
        { r with pointer := n, visit := some ⟨n, timeAdd s.now s.dru.vals.tTask⟩ }).send
        (Side.machine d) (.orderTask .inspect n d true)

/-- The dispatch check of a side (R97). -/
def dispatchDoor (s : State) (d : Side) : State :=
  if s.doorIdle d then
    match serveFirst (fun e => !(s.doorState e.oven d == some .off)) (timeAdd s.now s.dru.vals.tTask) (s.queue d) with
    | some (e, q) => (s.setQueue d q).send (Side.machine d) (.orderTask e.kind e.oven d false)
    | none => s.roundVisitCheck d
  else s

/-- The dispatch check of CC: the head entry becomes the task in service (R134). -/
def dispatchValve (s : State) : State :=
  if s.valveIdle then
    match s.ofu.queue with
    | [] => s
    | e :: rest =>
      ({ s with ofu.queue := { e with service := some (timeAdd s.now s.dru.vals.tTask) } :: rest }).send .cc
        (.orderValve e.action e.oven)
  else s

/-- The dispatch check that follows for a machine that may have become idle. -/
def dispatchFor (s : State) : MachineId → State
  | .pm => s.dispatchDoor .ps
  | .gc => s.dispatchDoor .cs
  | .cc => s.dispatchValve
  | .qc => s

end State

end Sys2Proof.Machine
end

