-- ==== Sys2Proof/Machine/Permits.lean ====
section
/-! DEFINITION. The permit table: the conditions of each kind (R53 to R57), the grant (R52), the re-test (R58) and
revocation. -/

namespace Sys2Proof.Machine

open Sys2Proof

/-- The machine a permit kind belongs to (R51). -/
def PermitKind.machine : PermitKind → MachineId
  | .doorOffPs => .pm
  | .doorOffCs => .gc
  | .push => .pm
  | .charge => .cc

/-- The reason of the first condition that fails. -/
def firstFail : List (Bool × Reason) → Option Reason
  | [] => none
  | (ok, r) :: rest => if ok then firstFail rest else some r

namespace State

/-- Spacing for a request for oven n (R54). -/
def spacingOk (s : State) (n : Nat) : Bool :=
  match s.ilk.lastRam with
  | none => true
  | some (t, k) =>
    decide (t + (if k == s.secOf n then s.cfg.timing.tSs else s.cfg.timing.tSd) ≤ s.now)

/-- A neighbour is satisfied; a missing one counts as satisfied (R55). -/
def neighbourOk (s : State) (m : Nat) : Bool :=
  match s.oven m with
  | none => true
  | some o =>
    match o.state with
    | .out | .ready => true
    | .coking => reached s.now (o.chargeEnd.map (· + s.cfg.timing.tAdj * 60))
    | .empty | .charging | .pushing => false

/-- Adjacency for oven n (R55). -/
def adjacencyOk (s : State) (n : Nat) : Bool := s.neighbourOk (n - 1) && s.neighbourOk (n + 1)

/-- The conditions of a DOOR_OFF permit of a side, in order (R53). -/
def doorOffFail (s : State) (d : Side) (n : Nat) : Option Reason :=
  firstFail [
    (s.alignedAt (Side.machine d) n (Side.spot d), .notAligned),
    (s.servingOven == some n, .notServing),
    ((s.ovenIs n .ready && s.ilk.push.isNone)
      || (s.ovenIs n .pushing && ((s.ilk.push.map fun p => p.oven == n && p.stage == .opening).getD false)),
      .ovenState),
    (!(s.doorState n d == some .off), .doors),
    (s.valveState n == some .closed, .valve),
    (!(s.level (s.secOf n) == some .flare), .sectionPressure),
    (!(s.ovenIs n .ready) || s.spacingOk n, .spacing),
    (s.adjacencyOk n, .adjacent),
    (decide ((s.round d).debt < 8), .inspectionDue)]

/-- The conditions of a PUSH permit, in order (R56). At the re-test of a permit in force the record stands in ARMED,
which admits the permit it was armed by (`armedOk`; log 16). -/
def pushFail (s : State) (armedOk : Bool) (n : Nat) : Option Reason :=
  firstFail [
    (s.servingOven == some n, .notServing),
    (s.ovenIs n .pushing && ((s.ilk.push.map fun p => p.oven == n
        && (p.stage == .opening || (p.stage == .sticker && p.retry) || (armedOk && p.stage == .armed))).getD false), .ovenState),
    (s.doorState n .ps == some .off && s.doorState n .cs == some .off, .doors),
    (s.alignedAt .pm n .ps && s.ram == some .home, .notAligned),
    (s.alignedAt .gc n .cs && s.guide == some .locked, .notAligned),
    (s.online .qc && s.qnu.car.state == .spotted n && s.carLoad == some .empty, .quenchCar)]

/-- A door is ON_UNCONFIRMED or TIGHT (R57). -/
def doorFitForCharge (s : State) (n : Nat) (d : Side) : Bool :=
  s.doorState n d == some .onUnconfirmed || s.doorState n d == some .tight

/-- The conditions of a CHARGE permit, in order (R57). -/
def chargeFail (s : State) (n : Nat) : Option Reason :=
  firstFail [
    (s.alignedAt .cc n .top, .notAligned),
    (s.ovenIs n .empty, .ovenState),
    (s.doorFitForCharge n .ps && s.doorFitForCharge n .cs, .doors),
    (s.valveState n == some .aspirating, .valve),
    (s.level (s.secOf n) == some .normal || s.level (s.secOf n) == some .low, .sectionPressure),
    ((s.chargingElsewhere n (s.secOf n)).isNone, .busy)]

/-- The conditions of a kind (R53, R56, R57). -/
def kindFail (s : State) (armedOk : Bool) (k : PermitKind) (n : Nat) : Option Reason :=
  match k with
  | .doorOffPs => s.doorOffFail .ps n
  | .doorOffCs => s.doorOffFail .cs n
  | .push => s.pushFail armedOk n
  | .charge => s.chargeFail n

/-- The tests of a REQUEST, in order (R52). -/
def requestFail (s : State) (m : MachineId) (k : ReqKind) (n : Nat) : Option Reason :=
  match firstFail [
    (s.inRun, .state),
    (s.ovenOk n, .range),
    ((match k with
      | .known k => PermitKind.machine k == m
      | .unknown _ => false), .kind),
    ((s.permit m).isNone, .permitHeld),
    (!s.ilk.stop, .stopped),
    (!s.ot.any OvenRec.breach, .breach)] with
  | some r => some r
  | none =>
    match k with
    | .known k => s.kindFail false k n
    | .unknown _ => some .kind

/-- The tests of the re-test: those of a REQUEST but for tests 1, 3 and 4 (R58). -/
def retestFail (s : State) (p : Permit) : Option Reason :=
  match firstFail [
    (s.ovenOk p.oven, .range),
    (!s.ilk.stop, .stopped),
    (!s.ot.any OvenRec.breach, .breach)] with
  | some r => some r
  | none => s.kindFail true p.kind p.oven

/-- The push record returns from ARMED to its armed-from stage (R73). -/
def disarm (s : State) : State :=
  match s.ilk.push with
  | some p =>
    match p.armedFrom with
    | some a => s.setPush (some { p with stage := a.stage, armedFrom := none, late := false })
    | none => s
  | none => s

/-- Revoke a machine's permit: it leaves the table with a REVOKE, a PUSH permit disarms the push record (R73), and
the dispatch check of the machine follows (R97, R134). -/
def revoke (s : State) (m : MachineId) (r : Reason) : State :=
  match s.permit m with
  | none => s
  | some p =>
    let s := (s.setPermit m none).send m (.revoke p.kind p.oven r)
    let s := if p.kind == .push then s.disarm else s
    s.dispatchFor m

/-- Revoke every permit (R63, R65, R69). The order PM, GC, CC is the model's choice (log 71). -/
def revokeAll (s : State) (r : Reason) : State := ((s.revoke .pm r).revoke .gc r).revoke .cc r

/-- Re-test one machine's permit (R58). -/
def retestOne (s : State) (m : MachineId) : State :=
  match s.permit m with
  | none => s
  | some p =>
    match s.retestFail p with
    | none => s
    | some r => s.revoke m r

/-- Re-test every unused permit (R58), in the order PM, GC, CC (log 48). -/
def retest (s : State) : State := ((s.retestOne .pm).retestOne .gc).retestOne .cc

/-- The grant: the permit enters the table, GRANT is sent, and a PUSH grant arms the push record (R52, R73). -/
def grant (s : State) (m : MachineId) (k : PermitKind) (n : Nat) : State :=
  let deadline := timeAdd s.now s.cfg.timing.tUse
  let s := (s.setPermit m (some ⟨k, n, s.now, deadline⟩)).send m (.grant k n deadline)
  match k, s.ilk.push with
  | .push, some p =>
    s.setPush (some { p with
      stage := .armed
      armedFrom := some (if p.stage == .sticker then .sticker else .opening)
      late := false })
  | _, _ => s

/-- A REQUEST decided at the moment it is taken (R52). -/
def decideRequest (s : State) (m : MachineId) (k : ReqKind) (n : Nat) : State :=
  match s.requestFail m k n with
  | some .permitHeld => s.send m (.refuse k n .permitHeld (s.permit m))
  | some r => s.send m (.refuse k n r none)
  | none =>
    match k with
    | .known k => s.grant m k n
    | .unknown _ => s.send m (.refuse k n .kind none)

/-- The permit that covers a use report leaves the table without a REVOKE (R60). -/
def usePermit (s : State) (m : MachineId) : State := s.setPermit m none

/-- The machine holds a permit of the kind for the oven (R60). -/
def covers (s : State) (m : MachineId) (k : PermitKind) (n : Nat) : Bool :=
  ((s.permit m).map fun p => p.kind == k && p.oven == n).getD false

end State

end Sys2Proof.Machine
end

