-- ==== Sys2Proof/Machine/Quench.lean ====
section
/-! DEFINITION. The quench unit's operations (chapter 8): moves, arrivals, the empty car, loads, dumping and the wharf. -/

namespace Sys2Proof.Machine

open Sys2Proof

/-- The car spot of a destination. -/
def MoveDest.spot : MoveDest → CarSpot
  | .park => .park
  | .oven n => .oven n
  | .tower => .tower
  | .bay b => .wharf b

/-- The car spot of an empty car's destination. -/
def EmptyDest.spot : EmptyDest → CarSpot
  | .park => .park
  | .oven n => .oven n

/-- The state in which an empty car is held at a spot: SPOTTED or PARKED (R145). -/
def EmptyDest.held : EmptyDest → CarState
  | .park => .parked
  | .oven n => .spotted n

/-- A place in the free list by free-since time, then bay number (R153). -/
def insertFree (since : Nat → Nat) (b t : Nat) : List Nat → List Nat
  | [] => [b]
  | a :: l => if since a < t ∨ (since a = t ∧ a < b) then a :: insertFree since b t l else b :: a :: l

namespace State

/-- Change the car record. -/
def updCar (s : State) (f : CarRec → CarRec) : State := { s with qnu.car := f s.qnu.car }

/-- Set the car state; a change clears the position notice flag (R147). -/
def setCar (s : State) (c : CarState) : State :=
  if s.qnu.car.state = c then s else s.updCar fun r => { r with state := c, positionFlag := false }

/-- One of the first three causes withholds an order: the machine hold, QC OFFLINE, QC in LOCAL (R143, R152). -/
def orderWithheld (s : State) : Bool :=
  s.hold || !s.online .qc || (s.machine .qc).mode == some .localMode

/-- The blocked spots on the path of a move to `dest` (R142, R143). That they are listed in track-row order, whichever way
the car goes, is the model's choice (log 84). -/
def blockedOn (s : State) (dest : MoveDest) : List TrackSpot :=
  (movePath s.nOv s.qnu.car.lastSpot dest).filter fun p => s.qnu.blocked.contains p

/-- Issue the move: MOVE is sent, the status becomes ISSUED with its time and timer (R143). -/
def issueMove (s : State) (dest : MoveDest) : State :=
  (s.updCar fun r => { r with move := .issued s.now (some (timeAdd s.now s.qnu.vals.tMove)) }).send .qc
    (.orderMove dest)

/-- Test a PENDING move: it is issued when nothing withholds it; TRACK_BLOCKED, once for each request, when the path alone
does (R143; log 45). -/
def testMove (s : State) : State :=
  if s.qnu.car.move = .pending then
    match s.qnu.car.state.dest with
    | none => s
    | some dest =>
      if s.orderWithheld then s
      else
        match s.blockedOn dest with
        | [] => s.issueMove dest
        | spots =>
          if s.qnu.car.blockTold then s
          else (s.updCar fun r => { r with blockTold := true }).raise (.trackBlocked false dest spots)
  else s

/-- Request the move of the state just set: PENDING, with any timer of an earlier move removed, and tested at once (R143). -/
def requestMove (s : State) : State :=
  match s.qnu.car.state.dest with
  | none => s
  | some _ => (s.updCar fun r => { r with move := .pending, blockTold := false }).testMove

/-- Send the car to a moving state's destination (R143); ILK re-tests on the change (R141). That the move is requested, with
its order or TRACK_BLOCKED, before the re-test is the model's choice (log 90). -/
def sendCar (s : State) (c : CarState) : State := ((s.setCar c).requestMove).retest

/-- Hold the car at a state without a move: the move status becomes NONE (R144, R145). -/
def settleCar (s : State) (c : CarState) : State :=
  ((s.setCar c).updCar fun r => { r with move := .none }).retest

/-- An ISSUED move returns to PENDING as one of the first three causes arises (R143). -/
def withdrawMove (s : State) : State :=
  match s.qnu.car.move with
  | .issued _ _ => s.updCar fun r => { r with move := .pending }
  | _ => s

/-- Request the DUMP order of a car that has become DUMPING (R152). -/
def requestDump (s : State) : State :=
  match s.qnu.load.bind LoadRec.bay with
  | none => s
  | some b =>
    if s.orderWithheld then s.updCar fun r => { r with dump := .pending }
    else (s.updCar fun r => { r with dump := .issued }).send .qc (.orderDump b)

/-- Send a PENDING DUMP order when nothing withholds it (R152). -/
def testDump (s : State) : State :=
  if s.qnu.car.dump = .pending && !s.orderWithheld then s.requestDump else s

/-! ## The empty car (R145, R146) -/

/-- Where the empty car is sent: the next oven reported by the planner, or PARK (R145). -/
def emptyTarget (s : State) : EmptyDest :=
  match s.pln.reported with
  | some (n, _) => .oven n
  | none => .park

/-- Send the empty car onward (R145). -/
def sendOnward (s : State) : State :=
  let target := s.emptyTarget
  if s.qnu.car.lastSpot = some target.spot ∧ (s.machine .qc).position = some target.spot.position then
    s.settleCar target.held
  else s.sendCar (.toOven target)

/-- Reconsider an empty car at a report of next oven B (R145). -/
def reconsiderCar (s : State) (b : Nat) : State :=
  match s.qnu.car.state with
  | .toOven d => if d = .oven b then s else s.sendCar (.toOven (.oven b))
  | .parked => s.sendCar (.toOven (.oven b))
  | .spotted n => if n = b || s.pushAt n then s else s.sendCar (.toOven (.oven b))
  | _ => s

/-- Reconsider an empty car as at a new next oven; no next oven changes nothing (R145). -/
def reconsiderNext (s : State) : State :=
  match s.pln.reported with
  | some (n, _) => s.reconsiderCar n
  | none => s

/-- The car leaves UNKNOWN when the part is in RUN and QC is ONLINE and EMPTY; CAR_NOT_EMPTY once when LOADED (R146). -/
def leaveUnknown (s : State) : State :=
  if s.qnu.car.state = .unknown && s.inRun && s.online .qc then
    match s.carLoad with
    | some .empty => (s.updCar fun r => { r with notEmptyFlag := false }).sendOnward
    | some .loaded =>
      if s.qnu.car.notEmptyFlag then s
      else (s.updCar fun r => { r with notEmptyFlag := true }).raise .carNotEmpty
    | none => s
  else s

/-! ## Tower and wharf (R151 to R155) -/

/-- Take the head bay of the free list for the load and send the car there, or wait at the tower (R152). That WAIT_BAY is
raised before the re-test is the model's choice (log 90). -/
def chooseBay (s : State) : State :=
  match s.qnu.load with
  | none => s
  | some l =>
    match s.qnu.free with
    | b :: rest =>
      (({ s with qnu.free := rest, qnu.load := some { l with bay := some b } }).setBay b (.assigned l.oven)).sendCar
        (.toBay b)
    | [] =>
      if s.qnu.car.state = .waitBay then s
      else (((s.setCar .waitBay).updCar fun r => { r with move := .none }).raise (.waitBay l.oven)).retest

/-- A bay's free-since time. -/
def freeSince (s : State) (b : Nat) : Nat :=
  match s.bay b with
  | some (.free t) => t
  | _ => 0

/-- A bay is DISCHARGING. -/
def isDischarging (s : State) (b : Nat) : Bool :=
  match s.bay b with
  | some (.discharging ..) => true
  | _ => false

/-- The discharge start test (R154). -/
def startDischarge (s : State) : State :=
  match s.qnu.discharge with
  | [] => s
  | b :: _ =>
    if (numbers 1 s.qnu.bays.length).any s.isDischarging then s
    else if s.inputLevel .conveyorRunIn && s.assigned (.gateOut b) then
      match s.bay b with
      | some (.cooled o d c) => s.setBay b (.discharging o d c (timeAdd s.now s.qnu.vals.tGate))
      | _ => s
    else s

/-- Interrupt a discharge: the bay returns to COOLED at the head of the queue (R155). -/
def interruptDischarge (s : State) (b : Nat) : State :=
  match s.bay b with
  | some (.discharging o d c g) => (s.setBay b (.cooled o d c)).raise (.dischargeInterrupted b (g - s.now))
  | _ => s

/-- The conveyor is lost: the discharge in progress, if any, is interrupted (R155). -/
def conveyorLost (s : State) : State :=
  match s.qnu.discharge with
  | b :: _ => s.interruptDischarge b
  | [] => s

/-- The gate has emptied the bay: it becomes FREE, joins the free list, a waiting car takes the head, and the next
discharge is tested (R154, R152). -/
def gateEnd (s : State) (b : Nat) : State :=
  let s := s.setBay b (.free s.now)
  let s := { s with
    qnu.discharge := s.qnu.discharge.filter (· != b)
    qnu.free := insertFree s.freeSince b s.now s.qnu.free }
  let s := if s.qnu.car.state = .waitBay then s.chooseBay else s
  s.startDischarge

/-! ## Loading (R148, R149) -/

/-- A ram start at oven n: the car SPOTTED there becomes LOADING (R148). -/
def ramStartCar (s : State) (n : Nat) : State :=
  if s.qnu.car.state = .spotted n then (s.setCar (.loading n)).retest
  else s.raise (.ramWithoutCar n s.qnu.car.state)

/-- A sticker returns a car LOADING at the oven to SPOTTED (R148). -/
def stickerCar (s : State) (n : Nat) : State :=
  if s.qnu.car.state = .loading n then (s.setCar (.spotted n)).retest else s

/-- The ram end of a push at oven n with push end time t: the load record is created and the car sent to TOWER, or
NO_CAR_AT_END (R149, R150). -/
def ramEndCar (s : State) (n t : Nat) : State :=
  if s.qnu.car.state = .spotted n ∨ s.qnu.car.state = .loading n then
    ({ s with qnu.load := some ⟨n, t, none, none, none, false, some (timeAdd t (s.qnu.vals.tHot + 1))⟩ }).sendCar
      .toTower
  else s.raise (.noCarAtEnd n t)

/-! ## What QC reports (R144, R147) -/

/-- The arrival at the destination of a moving state (R144, R145, R151, R152). That the re-test for a car that has become
DUMPING comes before its DUMP order is the model's choice (log 90). -/
def arrive (s : State) : State :=
  match s.qnu.car.state with
  | .toOven d => s.settleCar d.held
  | .toTower =>
    let load := s.qnu.load.map fun (l : LoadRec) => { l with quenchStart := some s.now, hot := none }
    ({ s with qnu.load := load, qnu.phase := some (timeAdd s.now s.qnu.vals.tSpray) }).settleCar .quenching
  | .toBay _ => (s.settleCar .dumping).requestDump
  | _ => s

/-- The place of a loaded state, where QC should stand (R147). -/
def loadedPlace (s : State) : Option Position :=
  match s.qnu.car.state with
  | .loading n => some (.oven n .track)
  | .quenching | .draining | .waitBay => some .tower
  | .dumping => (s.qnu.load.bind LoadRec.bay).map .wharf
  | _ => none

/-- A position other than a loaded state's place raises CAR_POSITION once, with the spot the STATUS reports; at an OFFLINE
there is none (R147; log 17). -/
def checkLoadedPlace (s : State) (spot : Option ReportedSpot) : State :=
  match s.loadedPlace with
  | none => s
  | some place =>
    if (s.machine .qc).position = some place || s.qnu.car.positionFlag then s
    else (s.updCar fun r => { r with positionFlag := true }).raise (.carPosition s.qnu.car.state spot)

/-- A PARKED or SPOTTED car in AUTO whose position is other than its spot has left: TO_OVEN with its former spot as
destination; CAR_POSITION with the spot reported when a STATUS showed it (R147). The model's choice (log 66): the notice
carries the state the car has left, PARKED or SPOTTED, and is raised before the move is requested. -/
def checkEmptyPlace (s : State) (spot : Option ReportedSpot) : State :=
  let left (d : EmptyDest) : State :=
    if (s.machine .qc).position = some d.spot.position then s
    else
      (if spot.isSome then s.raise (.carPosition s.qnu.car.state spot) else s).sendCar (.toOven d)
  match s.qnu.car.state with
  | .parked => left .park
  | .spotted n => left (.oven n)
  | _ => s

/-- An empty car in LOCAL follows its reports (R147). That a STATUS which finds the car TO_OVEN with the same destination is a
new request of the move, for which TRACK_BLOCKED can be raised again (R143), is the model's choice (log 91). -/
def followLocal (s : State) (stopped : Option CarSpot) : State :=
  match stopped with
  | some (.oven n) => s.settleCar (.spotted n)
  | some .park => s.settleCar .parked
  | _ => s.sendCar (.toOven s.emptyTarget)

/-- The car is PARKED, TO_OVEN or SPOTTED (R147). -/
def carEmpty (s : State) : Bool :=
  match s.qnu.car.state with
  | .parked | .toOven _ | .spotted _ => true
  | _ => false

/-- A STATUS from QC that reports a spot, its machine record written: `stopped` is the allowed spot at which it stands
stopped, if any (R141, R143, R144, R146, R147). At a STATUS that reports AUTO again the position is checked first, and only
a car still PARKED or SPOTTED after it is reconsidered, as at a new next oven: the model's choices (log 65, log 67). By a
STATUS in LOCAL the car leaves UNKNOWN by R146 alone, and follows its reports from the next STATUS: the model's choice
(log 74). -/
def qcStatus (s : State) (oldMode : Option Mode) (stopped : Option CarSpot) (spot : ReportedSpot) : State :=
  let s := if stopped.isSome then s.updCar fun r => { r with lastSpot := stopped } else s
  let isLocal := (s.machine .qc).mode == some .localMode
  let s :=
    if s.qnu.car.state = .unknown then s.leaveUnknown
    else if isLocal && s.carEmpty then s.followLocal stopped
    else if (s.qnu.car.state.dest.map MoveDest.spot).isSome && s.qnu.car.state.dest.map MoveDest.spot == stopped then
      s.arrive
    else s.checkEmptyPlace (some spot)
  let s := s.checkLoadedPlace (some spot)
  let s := if isLocal then s.withdrawMove else s
  let s :=
    if !isLocal && oldMode == some .localMode && (s.qnu.car.state.dest.isNone && s.carEmpty) then s.reconsiderNext
    else s
  (s.testMove).testDump

/-- QC goes OFFLINE: an issued move returns to PENDING, and in AUTO a PARKED or SPOTTED car has left (R143, R147). -/
def qcOffline (s : State) : State :=
  let s := s.withdrawMove
  let s := if (s.machine .qc).mode == some .auto then s.checkEmptyPlace none else s
  s.checkLoadedPlace none

end State

end Sys2Proof.Machine
end

