-- ==== Sys2Proof/Machine/ValveWork.lean ====
section
/-! DEFINITION. Work for CC: the valve-task queue, held offers, completion, timeouts and loss of CC (R130 to R132, R134
to R136), and the isolate timer (R133). -/

namespace Sys2Proof.Machine

open Sys2Proof

/-- Target state of an action (R130). -/
def ValveAction.target : ValveAction → ValveState
  | .isolate => .closed
  | .aspirate => .aspirating
  | .normal => .opened

namespace State

/-- The valve-task queue's entry for an oven: at most one (R130). -/
def valveEntry (s : State) (o : Nat) : Option ValveEntry := s.ofu.queue.find? fun e => e.oven == o

/-- Replace the valve-task queue. -/
def setValves (s : State) (q : List ValveEntry) : State := { s with ofu.queue := q }

/-- TASK_WITHDRAWN for a valve task that was in service (R131). -/
def withdrawNotice (s : State) (e : ValveEntry) : State :=
  if e.service.isSome then s.raise (.taskWithdrawn .cc e.oven (.valve e.action) false) else s

/-- The oven's valve already stands at the action's target (R131). -/
def targetReached (s : State) (o : Nat) (a : ValveAction) : Bool := s.valveState o == some (ValveAction.target a)

/-- The first case of R131: the oven's entry and held offer are removed. -/
def clearValveWork (s : State) (o : Nat) : State :=
  let held := s.ofu.heldOffers.filter fun h => h.oven != o
  match s.valveEntry o with
  | some e => ({ s with ofu.queue := s.ofu.queue.filter (fun x => x.oven != o), ofu.heldOffers := held }).withdrawNotice e
  | none => { s with ofu.heldOffers := held }

/-- The oven's entry takes another action in place (R131). -/
def replaceAction (s : State) (e : ValveEntry) (a : ValveAction) : State :=
  (s.setValves (s.ofu.queue.map fun x =>
    if x.oven = e.oven then ⟨x.oven, a, s.now, false, none⟩ else x)).withdrawNotice e

/-- An offer finds the queue full: it is held back (R132). -/
def holdBack (s : State) (o : Nat) (a : ValveAction) : State :=
  let s := if s.ofu.heldOffers.isEmpty then s.raise (.valveQueueFull o a) else s
  { s with ofu.heldOffers := s.ofu.heldOffers ++ [⟨o, a⟩] }

/-- An offer decided, but for the dispatch check that follows (R131). -/
def decideOffer (s : State) (o : Nat) (a : ValveAction) : State :=
  if s.targetReached o a then s.clearValveWork o
  else
    match s.valveEntry o with
    | some e => if e.action = a then s else s.replaceAction e a
    | none =>
      if s.ofu.heldOffers.any (fun h => h.oven == o) then
        { s with ofu.heldOffers := s.ofu.heldOffers.map fun h => if h.oven = o then ⟨o, a⟩ else h }
      else if s.ofu.queue.length < 8 then s.setValves (s.ofu.queue ++ [⟨o, a, s.now, false, none⟩])
      else s.holdBack o a

/-- Offer an oven and action to the valve-task queue (R131). -/
def offerValve (s : State) (o : Nat) (a : ValveAction) : State := (s.decideOffer o a).dispatchValve

/-- The offer would again find the queue full (R132). -/
def stillFull (s : State) (h : HeldOffer) : Bool :=
  !s.targetReached h.oven h.action && (s.valveEntry h.oven).isNone && decide (8 ≤ s.ofu.queue.length)

/-- Offer held offers again, oldest first, until one is held back again (R132). That an offer held back again keeps its place
with no VALVE_QUEUE_FULL, the only one too, is the model's choice (log 82). -/
def retryHeld : List HeldOffer → State → State
  | [], s => s
  | h :: rest, s =>
    if s.stillFull h then s
    else
      retryHeld rest
        (({ s with ofu.heldOffers := s.ofu.heldOffers.filter fun x => x.oven != h.oven }).offerValve h.oven h.action)

/-- The task timer of a valve entry expires, or CC reports it BLOCKED (R136, R135). -/
def valveTimeout (s : State) (e : ValveEntry) : State :=
  let rest := s.ofu.queue.filter fun x => x.oven != e.oven
  if e.timedOut then
    ((s.setValves rest).raise (.taskFailed .cc e.oven (.valve e.action) (some e.enqueued) false)).dispatchValve
  else (s.setValves ({ e with service := none, timedOut := true } :: rest)).dispatchValve

/-- CC goes OFFLINE: the entry in service returns to the head, unmarked (R136). -/
def valveOffline (s : State) : State :=
  match s.ofu.queue.find? fun e => e.service.isSome with
  | some e => s.setValves ({ e with service := none } :: s.ofu.queue.filter fun x => x.oven != e.oven)
  | none => s

/-- TASK_DONE from CC (R135). At a DONE completion both VALVE_MISMATCH and the dispatch check follow the entry's leaving, and
R130, R134 and R135 do not order them: that VALVE_MISMATCH is raised first is the model's choice (log 86). -/
def ccDone (s : State) (o : Nat) (a : ValveAction) (r : ValveResult) : State :=
  match s.ofu.queue.find? fun e => e.oven == o && e.action == a with
  | none => s.raise (.taskUnmatched .cc o (.valve a) (.valve r))
  | some e =>
    match r with
    | .blocked => s.valveTimeout e
    | .done =>
      let s := s.setValves (s.ofu.queue.filter fun x => x.oven != o)
      let s :=
        if s.targetReached o a then s
        else s.raise (.valveMismatch o a ((s.valveState o).getD .unknown))
      s.dispatchValve

/-! ## The isolate timer (R133) -/

/-- Set or move the isolate timer of oven o to `expiry`; a time already reached expires it at once (R133, R3). -/
def setIsolate (s : State) (o expiry : Nat) : State :=
  if expiry ≤ s.now then ({ s with ofu.iso := none }).offerValve o .isolate
  else { s with ofu.iso := some ⟨o, expiry⟩ }

/-- The check of an oven that stops being the next oven (R133). -/
def normalCheck (s : State) (o : Nat) : State :=
  let isolated := s.valveState o == some .closed
    || s.ofu.queue.any (fun e => e.oven == o && e.action == .isolate)
    || s.ofu.heldOffers.any (fun h => h.oven == o && h.action == .isolate)
  if (s.ovenIs o .coking || s.ovenIs o .ready) && isolated then s.offerValve o .normal else s

/-- The planner reports a next oven: the offtake unit's side (R133); the NORMAL check of the oven that stops being next comes
before the isolate timer of the new one (log 54). -/
def nextForValves (s : State) (old new : Option (Nat × Nat)) : State :=
  if old.map Prod.fst = new.map Prod.fst then
    match new, s.ofu.iso with
    | some (o, due), some _ => s.setIsolate o (due - s.cfg.timing.lIso)
    | _, _ => s
  else
    let s :=
      match old with
      | some (o, _) => s.normalCheck o
      | none => s
    match new with
    | some (o, due) => s.setIsolate o (due - s.cfg.timing.lIso)
    | none => { s with ofu.iso := none }

end State

end Sys2Proof.Machine
end

