-- ==== Sys2Proof/Machine/Plan.lean ====
section
/-! DEFINITION. The push planner: the series order, builds, the slot check, the cursor, the make-up check, the round
boundary, halts, and the report of the next oven (chapter 2). -/

namespace Sys2Proof.Machine

open Sys2Proof

/-- The ovens of one sub-round from `start`, S apart, up to N_OV (R23). -/
def subRound (nOv step start : Nat) : List Nat :=
  ((List.range nOv).map fun j => start + j * step).filter fun o => o ≤ nOv

/-- The series order for N_OV ovens, step S and sub-step D (R23). -/
def seriesOrder (nOv step d : Nat) : List Nat :=
  (List.range step).flatMap fun k => subRound nOv step (1 + k * d % step)

/-- The slots of a list of ovens from a round start (R24). -/
def slotsFrom (start pi : Nat) : Nat → List Nat → List Slot
  | _, [] => []
  | i, o :: rest => ⟨o, timeAdd start (i * pi), .waiting, none⟩ :: slotsFrom start pi (i + 1) rest

namespace State

/-- Change the planner. -/
def updPlan (s : State) (f : Planner → Planner) : State := { s with pln := f s.pln }

/-- Change the cursor slot. -/
def updCursor (s : State) (f : Slot → Slot) : State :=
  match s.pln.cursor with
  | some i => s.updPlan fun p => { p with round := p.round.map fun r => { r with slots := upd1 f (i + 1) r.slots } }
  | none => s

/-- The status of the cursor slot. -/
def cursorStatus (s : State) : Option SlotStatus := s.cursorSlot.map Slot.status

/-- The cursor slot is WAITING. -/
def cursorWaiting (s : State) : Bool := s.cursorStatus == some .waiting

/-- The cursor slot's oven is n. -/
def cursorAt (s : State) (n : Nat) : Bool := s.cursorSlot.map Slot.oven == some n

/-- An oven is kept in a build: neither OUT nor in SKIP (R24). -/
def inBuild (s : State) (n : Nat) : Bool :=
  match s.oven n with
  | some o => o.state != .out && o.mode != .skip
  | none => false

/-- With no cursor slot there is no serving entry: one is released, even during its push (R40, chapter 2.8; log 44). -/
def idleServing (s : State) : State := s.updPlan fun q => { q with serving := none }

/-- Build a round from parameters `p` at `start` with a number; `st` is the plan state with slots (R24). The slot
check of slot 0 follows in `planSettle`. -/
def build (s : State) (p : SeriesParams) (start number : Nat) (stagedUsed : Bool) (st : PlanState) : State :=
  let slots := slotsFrom start p.pi 0 ((seriesOrder s.nOv p.s p.d).filter s.inBuild)
  if slots.isEmpty then
    ((s.updPlan fun q => { q with
      state := .idle, round := none, cursor := none, dueTimer := none, holdOver := none, active := p }).raise
      (.planIdle number)).idleServing
  else
    (s.updPlan fun q => { q with
      state := st, round := some ⟨number, start, slots⟩, cursor := some 0, dueTimer := none, holdOver := none,
      active := p }).raise (.roundStart number slots.length start p.pi s.pln.lag stagedUsed)

/-- The number of the round after number n (R39). -/
def nextNumber (n : Nat) : Nat := if 65535 ≤ n then 0 else n + 1

/-- The build at a round boundary (R39). -/
def buildNext (s : State) : State :=
  match s.pln.round with
  | none => s
  | some r =>
    let computed := timeAdd r.start (r.slots.length * s.pln.active.pi)
    let number := nextNumber r.number
    if s.pln.mark then
      let start :=
        match s.pln.stagedStart with
        | some t => max (max t s.now) computed
        | none => computed
      (s.updPlan fun q => { q with mark := false, stagedStart := none }).build s.pln.staged start number true
        s.pln.state
    else s.build s.pln.active computed number false s.pln.state

/-- The round boundary: the next round is built, or the planner waits while the supervisor is lost (R39, R40). -/
def boundary (s : State) : State :=
  if s.present then s.buildNext
  else
    ((s.updPlan fun q => { q with cursor := none, dueTimer := none }).raise
      (.roundWait (nextNumber ((s.pln.round.map RoundRec.number).getD 0)))).idleServing

/-- The cursor advances, but for the checks that follow (R30). -/
def advance (s : State) : State :=
  let s := s.updPlan fun q => { q with lag := q.lag - q.active.c, holdOver := none, dueTimer := none }
  match s.pln.round, s.pln.cursor with
  | some r, some i => if i + 1 < r.slots.length then s.updPlan fun q => { q with cursor := some (i + 1) } else s.boundary
  | _, _ => s

/-- The cursor slot becomes PASSED and the cursor advances (R27). -/
def passSlot (s : State) (reason : PassReason) : State :=
  match s.pln.cursor, s.cursorSlot with
  | some i, some sl => ((s.updCursor fun x => { x with status := .passed }).raise (.slotPassed i sl.oven reason)).advance
  | _, _ => s

/-- One slot check (R27) of a WAITING cursor slot in RUNNING. The mark tells that the slot was passed, so that the
check goes on at the new cursor slot. -/
def checkOnce (s : State) : State × Bool :=
  match s.cursorSlot with
  | none => (s, false)
  | some sl =>
    if s.pln.state = .running ∧ sl.status = .waiting then
      let due := s.dueTime sl
      if s.now < due then (s.updPlan fun q => { q with dueTimer := some due }, false)
      else
        let holdEnd := s.pln.holdOver.getD (timeAdd s.now s.pln.active.h)
        let s := s.updPlan fun q => { q with dueTimer := none, holdOver := some holdEnd }
        match s.oven sl.oven with
        | none => (s, false)
        | some o =>
          if o.mode = .hold ∨ o.mode = .skip then (s.passSlot .mode, true)
          else if o.state = .ready then
            if s.pln.serving.isNone then
              ((s.updCursor fun x => { x with status := .due }).updPlan fun q => { q with serving := some .slot }, false)
            else (s, false)
          else if s.now < holdEnd then (s, false)
          else (s.passSlot .notReady, true)
    else (s, false)

/-- Slot checks from slot to slot while slots are passed (R30). When the bound is used up the slot is left WAITING with
its due timer expired (log 7). -/
def checkLoop : Nat → State → State
  | 0, s =>
    match s.cursorSlot with
    | some sl => s.updPlan fun q => { q with dueTimer := if s.cursorWaiting then some (s.dueTime sl) else none }
    | none => s
  | fuel + 1, s =>
    match s.checkOnce with
    | (s, true) => checkLoop fuel s
    | (s, false) => s

/-- A bound no passing needs that ends by its own due times: each round's planned times lie 300 s or more after the last
one's (log 7). -/
def planFuel (s : State) : Nat := (s.now / 300 + 3) * (s.nOv + 2)

/-- The make-up check (R33). -/
def makeupCheck (s : State) : State :=
  if s.pln.state = .running ∧ s.pln.serving.isNone ∧ s.cursorWaiting then
    match s.pln.makeup.find? fun e => s.ovenIs e.oven .ready && !s.cursorAt e.oven with
    | some e => s.updPlan fun q => { q with serving := some (.makeup e.oven s.now) }
    | none => s
  else s

/-- The slot check and the make-up check that follows it (R27, R30, R31, R33). -/
def planSettle (s : State) : State := (checkLoop s.planFuel s).makeupCheck

/-- The planner's report at the end of its part of an event: ILK re-tests, the offtake unit and the quench unit learn a
new next oven or due time (R31; log 8). -/
def planReport (s : State) : State :=
  let s := s.retest
  let old := s.pln.reported
  let new := s.nextOven
  if old = new then s
  else
    let s := (s.updPlan fun q => { q with reported := new }).nextForValves old new
    match new with
    | some (b, _) => if old.map Prod.fst = some b then s else s.reconsiderCar b
    | none => s

/-- Checks and report. -/
def planUpdate (s : State) : State := s.planSettle.planReport

/-- Release the serving entry; a DUE slot returns to WAITING (R28, R31). -/
def releaseServing (s : State) : State :=
  let s :=
    match s.pln.serving, s.cursorStatus with
    | some .slot, some .due => s.updCursor fun x => { x with status := .waiting }
    | _, _ => s
  s.updPlan fun q => { q with serving := none }

/-- The planner's side of an oven's state change (R27, R28, R33). -/
def planOvenChanged (s : State) (n : Nat) : State :=
  let leftReady := !(s.ovenIs n .ready) && !(s.ovenIs n .pushing)
  if s.servingOven = some n ∧ leftReady then s.releaseServing.planUpdate
  else if s.cursorAt n ∧ s.cursorWaiting then s.planUpdate
  else if s.pln.makeup.any fun e => e.oven == n then s.makeupCheck.planReport
  else s

/-- Write an oven's slot mode, with the plan effects of R41 and R28: a DUE slot changed to HOLD or SKIP is passed at once,
whatever its due time. -/
def writeMode (s : State) (n : Nat) (mode : SlotMode) (fixedPush : Option Nat) : State :=
  let s := s.updOven n fun o => { o with mode := mode, fixedPush := fixedPush }
  if s.cursorAt n then
    match s.cursorStatus with
    | some .waiting => s.planUpdate
    | some .due =>
      if mode = .hold ∨ mode = .skip then (s.releaseServing.passSlot .mode).planUpdate
      else if mode = .fixed ∧ s.now < fixedPush.getD 0 then
        (s.releaseServing.updPlan fun q => { q with holdOver := none }).planUpdate
      else s.planReport
    | _ => s.planReport
  else s

/-- Halt a RUNNING planner (R36). -/
def planHalt (s : State) : State :=
  if s.pln.state = .running then
    let s := s.updPlan fun q => { q with state := .halted, dueTimer := none }
    let s :=
      match s.servingOven with
      | some o => if s.ovenIs o .pushing then s else s.releaseServing
      | none => s
    s.planReport
  else s

/-- The first DOOR_OFF of the push at oven n: a DUE slot becomes IN_PUSH (R29). -/
def planPushBegins (s : State) (n : Nat) : State :=
  if s.pln.serving = some .slot ∧ s.cursorAt n ∧ s.cursorStatus = some .due then
    (s.updCursor fun x => { x with status := .inPush }).planReport
  else s

/-- A covered RAM_START at oven n at the present time (R25, R29, R34). -/
def planRamStart (s : State) (n : Nat) : State :=
  if s.pln.serving = some .slot then
    match s.cursorSlot with
    | some sl =>
      if sl.oven = n then
        ((s.updCursor fun x => { x with pushStart := some (x.pushStart.getD s.now) }).updPlan fun q =>
          { q with lag := min 86400 (max q.lag (s.now - sl.planned)) }).planReport
      else s
    | none => s
  else s

/-- An oven's make-up entry leaves the list (R34). -/
def dropMakeup (s : State) (n : Nat) : State :=
  s.updPlan fun q => { q with makeup := q.makeup.filter fun e => e.oven != n }

/-- The cursor advances past a slot that is over, in RUNNING (R30, R36). -/
def advanceIfRunning (s : State) : State := if s.pln.state = .running then s.advance else s

/-- Push complete of oven n (R29, R34). Its make-up entry leaves the list whether or not the push serves it (R77). -/
def planPushComplete (s : State) (n : Nat) : State :=
  match s.pln.serving with
  | some .slot =>
    if s.cursorAt n then
      (((s.updCursor fun x => { x with status := .done }).updPlan fun q => { q with serving := none }).dropMakeup
        n).advanceIfRunning.planUpdate
    else s.dropMakeup n
  | some (.makeup o _) =>
    if o = n then ((s.updPlan fun q => { q with serving := none }).dropMakeup n).planUpdate else s.dropMakeup n
  | none => s.dropMakeup n

/-- ABANDON of the push at oven n (R29, R34). -/
def planAbandon (s : State) (n : Nat) : State :=
  match s.pln.serving with
  | some .slot =>
    if s.cursorAt n then
      (((s.updCursor fun x => { x with status := .passed }).updPlan fun q => { q with serving := none }).raise
        (.slotPassed (s.pln.cursor.getD 0) n .abandoned)).advanceIfRunning.planUpdate
    else s
  | some (.makeup o _) => if o = n then (s.updPlan fun q => { q with serving := none }).planUpdate else s
  | none => s

/-- The supervisor's return: a waiting boundary build is made (R40). -/
def planReturn (s : State) : State := if s.boundaryWait then s.buildNext.planUpdate else s

/-- PLAN_RESUME taken (R37). -/
def planResumeOp (s : State) : State :=
  let s := s.updPlan fun q => { q with state := .running }
  let s :=
    match s.cursorStatus with
    | some .done => s.advance
    | some .passed => s.advance
    | _ => s
  s.planUpdate

/-- The range operation ends (R44). -/
def rangeEnd (s : State) (r : RangeOp) (aborted : Bool) : State :=
  (s.updPlan fun q => { q with range := none }).raise
    (.rangeDone r.first r.last r.mode r.setCount r.skipCount r.left aborted)

/-- A step of the range operation ends: the next oven is visited (R43), or an aborted operation ends (R44). -/
def rangeStep (s : State) (r : RangeOp) : State :=
  if r.abort then s.rangeEnd r true
  else
    let pushing := s.ovenIs r.next .pushing
    let s := if pushing then s else s.writeMode r.next r.mode r.fixedPush
    let r := { r with
      next := if r.next < s.nOv then r.next + 1 else 1
      left := r.left - 1
      setCount := if pushing then r.setCount else r.setCount + 1
      skipCount := if pushing then r.skipCount + 1 else r.skipCount }
    if r.left = 0 then s.rangeEnd r false else s.updPlan fun q => { q with range := some r }

/-- The planner at RESTART (R46). -/
def planRestart (s : State) : State :=
  let s :=
    match s.pln.range with
    | some r => s.rangeEnd r true
    | none => s
  s.updPlan fun q => { q with
    state := .idle, round := none, cursor := none, dueTimer := none, holdOver := none, lag := 0, serving := none,
    makeup := [], reported := none }

end State

end Sys2Proof.Machine
end

