-- ==== Sys2Proof/Machine/Ovens.lean ====
section
/-! DEFINITION. The oven table's operations: ready evaluation, the overdue check, their sweep, service, charge starts and
ends with their charge records, and valve reports with their feed-forward step (chapters 1, 6.5, 7.1, 7.4). -/

namespace Sys2Proof.Machine

open Sys2Proof

namespace State

/-- The oven table reports a state change it has made: the planner acts, then ILK re-tests (R9, R58; log 9). -/
def ovenChanged (s : State) (n : Nat) : State := (s.planOvenChanged n).retest

/-- The state ready evaluation gives an oven (R13). -/
def readyState (s : State) (o : OvenRec) : OvenState :=
  match o.state with
  | .coking => if reached s.now (readyTime s.cfg.timing o) then .ready else .coking
  | .ready => if reached s.now (readyTime s.cfg.timing o) then .ready else .coking
  | other => other

/-- Ready evaluation of oven n, its change not yet reported (R13). -/
def evalReadyRaw (s : State) (n : Nat) : State := s.updOven n fun o => { o with state := s.readyState o }

/-- Ready evaluation of oven n (R13). -/
def evalReady (s : State) (n : Nat) : State :=
  if (s.evalReadyRaw n).ovenState n = s.ovenState n then s else (s.evalReadyRaw n).ovenChanged n

/-- The oven's overdue timer has reached its time (R17). -/
def isOverdue (s : State) (o : OvenRec) : Bool :=
  s.inRun && (o.state == .coking || o.state == .ready) && !o.overdue && reached s.now (overdueTime s.cfg.timing o)

/-- An overdue timer that has reached its time expires: OVEN_OVERDUE and the flag (R17). -/
def overdueCheck (s : State) (n : Nat) : State :=
  match s.oven n with
  | some o =>
    if s.isOverdue o then
      (s.updOven n fun x => { x with overdue := true }).raise
        (.ovenOverdue n (o.chargeEnd.getD 0) o.target ((s.now - (overdueTime s.cfg.timing o).getD 0) / 60))
    else s
  | none => s

/-- Ready evaluation and the overdue check of every oven of a list, in order (R19). That both are made for one oven before the
next is the model's choice (log 77). -/
def sweepOvens : List Nat → State → State
  | [], s => s
  | n :: rest, s => sweepOvens rest ((s.evalReady n).overdueCheck n)

/-- Ready evaluation and the overdue check of every oven (R19). -/
def readySweep (s : State) : State := sweepOvens (numbers 1 s.nOv) s

/-! ## Charging (R11, R12, R137) -/

/-- The charge record of an oven is removed (R137). -/
def dropCharge (s : State) (n : Nat) : State :=
  { s with ofu.charges := s.ofu.charges.filter fun c => c.oven != n }

/-- An oven becomes COKING as its charge ends, a new coking period (R11, R12). -/
def beginCoking (s : State) (n : Nat) : State :=
  s.updOven n fun o => { o with state := .coking, chargeEnd := some s.now, overdue := false }

/-- Another CHARGING oven of the section becomes COKING by assumption; NORMAL is offered for it (R11, R137). That the
oven table's report comes last here, after the offtake unit's part, is the model's choice (log 64), and so are the one
dispatch check of CC, made after the NORMAL offer (log 73), and that CHARGE_ASSUMED_END is raised first (log 90). -/
def assumeEnd (s : State) (m : Nat) : State :=
  ((((s.beginCoking m).raise (.chargeAssumedEnd m s.now)).dropCharge m).offerValve m .normal).ovenChanged m

/-- A CHARGE_START taken by the oven table and the offtake unit (R11, R137). -/
def chargeFact (s : State) (n : Nat) : State :=
  if s.inRun && s.ovenIs n .empty then
    let other := s.chargingElsewhere n (s.secOf n)
    let s := s.updOven n fun o => { o with state := .charging, chargeEnd := none }
    let s :=
      match other with
      | some m => s.assumeEnd m
      | none => s
    let record : ChargeRec := ⟨n, s.now, some (timeAdd s.now s.cfg.timing.tCharge), false⟩
    ({ s with ofu.charges := s.ofu.charges ++ [record] }).ovenChanged n
  else s

/-- A CHARGE_END taken by the oven table and the offtake unit (R12, R137, R139). That the oven table's report comes first
here, before the offtake unit's part, is the model's choice (log 64), and so is the one dispatch check of CC for the record's
removal and the NORMAL offer, made after the offer (log 73). -/
def chargeEndFact (s : State) (n : Nat) : State :=
  if s.inRun && s.ovenIs n .charging then
    (((((s.beginCoking n).ovenChanged n).evalReady n).overdueCheck n).dropCharge n).offerValve n .normal
  else s.raise (.chargeSequence n ((s.ovenState n).getD .out))

/-! ## Valve reports (R116, R129) -/

/-- The feed-forward step of a valve change (R116). -/
def ffStep (p : PressureParams) : ValveState → ValveState → Int
  | .opened, .closed => p.ffIso
  | .closed, .aspirating => p.ffChg
  | .aspirating, .opened => p.ffEnd
  | _, _ => 0

/-- F with a step added, clamped (R116). -/
def addFf (f step : Int) : Int := clampInt (-300) 300 (f + step)

/-- An active section takes the feed-forward step of a valve change (R116). -/
def feedForward (s : State) (k : Nat) (old new : ValveState) : State :=
  s.updSec k fun r =>
    match r.live, r.params with
    | some _, some p => { r with ff := addFf r.ff (ffStep p old new) }
    | _, _ => r

/-- A held offer whose target a VALVE report shows reached is removed (R132). -/
def dropReachedOffer (s : State) (n : Nat) (v : ValveState) : State :=
  { s with ofu.heldOffers := s.ofu.heldOffers.filter fun h => !(h.oven == n && ValveAction.target h.action == v) }

/-- An accepted VALVE report (R129). -/
def valveReport (s : State) (n : Nat) (v : ValveState) : State :=
  let old := (s.valveState n).getD .unknown
  let s := { s with ofu.valves := upd1 (fun r => { r with state := v, lastReport := some s.now }) n s.ofu.valves }
  let s := s.dropReachedOffer n v
  if old = v then s else (s.feedForward (s.secOf n) old v).retest

end State

end Sys2Proof.Machine
end

