-- ==== Sys2Proof/Machine/DoorUnit.lean ====
section
/-! DEFINITION. The door unit: leaks, doors found tight or taken off, the task queues, completion and timeouts of door
work, inspection rounds (chapter 5). Dispatch checks are made at the end of its part of an event (log 24). -/

namespace Sys2Proof.Machine

open Sys2Proof

/-- The entry is that of an oven and kind. -/
def TaskEntry.is (e : TaskEntry) (n : Nat) (k : TaskKind) : Bool := e.oven == n && e.kind == k

/-- The entry waits: it is not in service. -/
def TaskEntry.waits (e : TaskEntry) : Bool := e.service.isNone

/-- The newest INSPECT entry not in service (R93). -/
def newestInspect (q : List TaskEntry) : Option TaskEntry := q.reverse.find? fun e => e.kind == .inspect && e.waits

namespace State

/-- A queue without the entry of an oven and kind. -/
def without (s : State) (d : Side) (n : Nat) (k : TaskKind) : List TaskEntry := (s.queue d).filter fun e => !(e.is n k)

/-- Set a door's reseal pending flag (R95). -/
def setPending (s : State) (n : Nat) (d : Side) : State :=
  (s.updDoor n d fun r => { r with resealPending := true }).raise (.resealPending n d)

/-- An entry joins a side's queue last in its class. A door whose RESEAL has its place is no longer pending (R93, R96;
log 29). -/
def joinTask (s : State) (d : Side) (n : Nat) (k : TaskKind) (rest : List TaskEntry) : State :=
  let s := s.setQueue d (joinLast ⟨n, k, s.now, false, none⟩ rest)
  if k = .reseal then s.updDoor n d fun r => { r with resealPending := false } else s

/-- An entry offered to a full queue (R95). -/
def offerFull (s : State) (d : Side) (n : Nat) (k : TaskKind) : State :=
  match k with
  | .inspect => s.raise (.inspectDropped n d)
  | _ =>
    match newestInspect (s.queue d) with
    | some e =>
      (s.joinTask d n k (s.without d e.oven .inspect)).raise (.inspectDropped e.oven d)
    | none => if k = .reseal then s.setPending n d else s

/-- An entry offered to a side's queue (R94). -/
def offerTask (s : State) (d : Side) (n : Nat) (k : TaskKind) : State :=
  let q := s.queue d
  if q.any fun e => e.is n k then s
  else if k = .inspect ∧ q.any (fun e => e.is n .reseal) then s
  else if k = .reseal ∧ q.any (fun e => e.is n .inspect && e.waits) then
    s.joinTask d n k (s.without d n .inspect)
  else if q.length < 16 then s.joinTask d n k q
  else s.offerFull d n k

/-- An offer made in RUN only (R106). -/
def offerInRun (s : State) (d : Side) (n : Nat) (k : TaskKind) : State := if s.inRun then s.offerTask d n k else s

/-- An offer made in RUN, with the dispatch check when an entry has joined (R94, R97). -/
def offerChecked (s : State) (d : Side) (n : Nat) (k : TaskKind) : State :=
  let t := s.offerInRun d n k
  if t.queue d = s.queue d then t else t.dispatchDoor d

/-- The RESEAL of a pending door joins; of a door that has one already, only the flag clears (R93, R96; log 29). -/
def releaseOne (s : State) (d : Side) (n : Nat) : State :=
  if (s.queue d).length < 16 ∧ (s.door n d).map DoorRec.resealPending = some true then
    if (s.queue d).any fun e => e.is n .reseal then s.updDoor n d fun r => { r with resealPending := false }
    else s.joinTask d n .reseal (s.queue d)
  else s

/-- The reseal pending release over a list of ovens, in order (R96). -/
def releaseFrom (d : Side) : List Nat → State → State
  | [], s => s
  | n :: rest, s => releaseFrom d rest (s.releaseOne d n)

/-- The reseal pending release of a side (R96). -/
def pendingRelease (s : State) (d : Side) : State := releaseFrom d (numbers 1 s.nOv) s

/-- The door's RESEAL and INSPECT entries not in service leave the queue (R91, R96). -/
def dropSealWork (s : State) (d : Side) (n : Nat) : State :=
  s.setQueue d ((s.queue d).filter fun e => !((e.is n .reseal || e.is n .inspect) && e.waits))

/-- A door enters LEAKING (R90). -/
def enterLeaking (s : State) (n : Nat) (d : Side) : State :=
  match s.door n d with
  | none => s
  | some r =>
    let leaks := min 15 (r.leaks + 1)
    let due := r.cleanDue || decide (s.dru.vals.cleanThreshold ≤ leaks)
    let s := s.updDoor n d fun x => { x with state := .leaking, leaks := leaks, cleanDue := due, confirm := none }
    let s := if due && !r.cleanDue then s.raise (.cleanDue n d) else s
    (s.offerInRun d n .reseal).retest

/-- A leak reported at a door (R90): an entry into LEAKING, or a RESEAL offered again when none is open; nothing at an OFF
door. The dispatch check follows where the door changes or an entry joins (R97). -/
def leakAt (s : State) (n : Nat) (d : Side) : State :=
  match s.door n d with
  | none => s
  | some r =>
    match r.state with
    | .off => s
    | .leaking =>
      if (s.queue d).any (fun e => e.is n .reseal) || r.resealPending then s else s.offerChecked d n .reseal
    | _ => (s.enterLeaking n d).dispatchDoor d

/-- A door is found tight (R96). -/
def doorTight (s : State) (n : Nat) (d : Side) : State :=
  let s := s.updDoor n d fun r =>
    { r with state := .tight, lastConfirmed := some s.now, confirm := none, resealPending := false }
  ((s.dropSealWork d n).pendingRelease d).retest

/-- Work in service for a door that goes off is withdrawn or, for CLEAN, returned to the head of its class unmarked
(R91). What its TASK_WITHDRAWN carries is the model's choice (log 60). -/
def withdrawAt (s : State) (n : Nat) (d : Side) : State :=
  let m := Side.machine d
  let s :=
    match (s.queue d).find? fun e => e.oven == n && e.service.isSome with
    | some (e : TaskEntry) =>
      let q := s.without d n e.kind
      (s.setQueue d (if e.kind = TaskKind.clean then joinHead { e with service := none, timedOut := false } q else q)).raise
        (.taskWithdrawn m n (.door e.kind) false)
    | none => s
  match (s.round d).visit with
  | some v =>
    if v.oven = n then
      (s.updRound d fun r => { r with visit := none }).raise (.taskWithdrawn m n (.door .inspect) true)
    else s
  | none => s

/-- A door goes OFF (R91), but for the dispatch check. That the reseal pending release for the entries that leave comes
before the CLEAN offer of step 4 is the model's choice (log 72). -/
def doorGoesOff (s : State) (n : Nat) (d : Side) : State :=
  match s.doorState n d with
  | none => s
  | some .off => s
  | some _ =>
    let s := s.updDoor n d fun r => { r with state := .off, confirm := none, resealPending := false }
    let s := ((s.dropSealWork d n).withdrawAt n d).pendingRelease d
    let s := if (s.door n d).map DoorRec.cleanDue = some true then s.offerInRun d n .clean else s
    s.retest

/-- DOOR_SEQUENCE (R89). -/
def doorSequence (s : State) (n : Nat) (d : Side) (rep : ReportName) : State :=
  s.raise (.doorSequence n d rep ((s.doorState n d).getD .tight))

/-- The door unit takes DOOR_ON (R89, R92); the mark tells that the door's state changed. -/
def doorOnFact (s : State) (n : Nat) (d : Side) : State × Bool :=
  if s.doorState n d = some .off then
    ((s.updDoor n d fun r => { r with
      state := .onUnconfirmed
      confirm := if s.inRun then some (timeAdd s.now s.dru.vals.tConfirm) else none }).retest, true)
  else (s.doorSequence n d .doorOn, false)

/-- The door unit takes DOOR_TIGHT (R89). -/
def doorTightFact (s : State) (n : Nat) (d : Side) : State :=
  match s.doorState n d with
  | some .tight => s.updDoor n d fun r => { r with lastConfirmed := some s.now }
  | some .leaking => (s.doorTight n d).dispatchDoor d
  | some .onUnconfirmed => (s.doorTight n d).dispatchDoor d
  | _ => s.doorSequence n d .doorTight

/-- The result of a door task is applied to the door (R98). -/
def applyResult (s : State) (d : Side) (n : Nat) (k : TaskKind) (r : TaskResult) : State :=
  let s := if k = .clean then s.updDoor n d fun x => { x with leaks := 0, cleanDue := false } else s
  match s.doorState n d, k, r with
  | none, _, _ => s
  | some .off, _, _ => s
  | some _, _, .tight => s.doorTight n d
  | some .leaking, .reseal, .leak => s.offerInRun d n .reseal
  | some .leaking, .inspect, .leak => s
  | some _, _, .leak => s.enterLeaking n d

/-- The round visit is done: the debt falls and the pointer moves on (R104). -/
def visitDone (s : State) (d : Side) (n : Nat) : State :=
  (s.updRound d fun r => { r with
    visit := none
    debt := max (-8) (r.debt - 1)
    saturated := if r.debt - 1 < 8 then false else r.saturated
    pointer := if n < s.nOv then n + 1 else 1 }).retest

/-- TASK_DONE from PM or GC (R98). -/
def taskDoneOp (s : State) (d : Side) (n : Nat) (k : TaskKind) (r : TaskResult) : State :=
  if ((s.round d).visit.map Visit.oven == some n) && k == .inspect
      && !(s.queue d).any (fun e => e.is n k && e.service.isSome) then
    (((s.visitDone d n).applyResult d n k r).pendingRelease d).dispatchDoor d
  else if (s.queue d).any fun e => e.is n k then
    (((s.setQueue d (s.without d n k)).applyResult d n k r).pendingRelease d).dispatchDoor d
  else s.raise (.taskUnmatched (Side.machine d) n (.door k) (.door r))

/-- The task timer of a queue entry expires (R99). -/
def taskTimeout (s : State) (d : Side) (e : TaskEntry) : State :=
  let q := s.without d e.oven e.kind
  if e.timedOut then
    (((s.setQueue d q).raise
      (.taskFailed (.side d) e.oven (.door e.kind) (some e.enqueued) false)).pendingRelease d).dispatchDoor d
  else (s.setQueue d (joinHead { e with service := none, timedOut := true } q)).dispatchDoor d

/-- The task timer of a round visit expires (R104). R104 names the round mark of its TASK_FAILED alone: the side, the oven,
INSPECT and an absent enqueue time beside it are the model's choice (log 60). -/
def visitTimeout (s : State) (d : Side) (v : Visit) : State :=
  ((s.updRound d fun r => { r with visit := none }).raise
    (.taskFailed (.side d) v.oven (.door .inspect) none true)).dispatchDoor d

/-- The side's machine goes OFFLINE (R100). -/
def doorOffline (s : State) (d : Side) : State :=
  let s :=
    match (s.queue d).find? fun e => e.service.isSome with
    | some e => s.setQueue d (joinHead { e with service := none } (s.without d e.oven e.kind))
    | none => s
  s.updRound d fun r => { r with visit := none }

/-- One accrual of a side (R101, R102). -/
def accrue (s : State) (d : Side) : State :=
  let r := s.round d
  let s := s.updRound d fun r => { r with elapsed := 0 }
  if r.debt < 8 then (s.updRound d fun r => { r with debt := r.debt + 1 }).retest
  else if r.saturated then s
  else (s.updRound d fun r => { r with saturated := true }).raise (.inspectionSaturated d)

/-- The confirm timer of a door expires (R92); the dispatch check follows when the INSPECT has joined (R97). -/
def confirmExpire (s : State) (n : Nat) (d : Side) : State :=
  (s.updDoor n d fun r => { r with confirm := none }).offerChecked d n .inspect

/-- The door unit's offers and timers of one side at COMMIT, oven by oven (R106). -/
def commitDoorsFrom (d : Side) : List Nat → State → State
  | [], s => s
  | n :: rest, s => commitDoorsFrom d rest (if s.doorState n d = some .leaking then s.offerTask d n .reseal else s)

/-- An ON_UNCONFIRMED door is given its confirm timer (R106). -/
def giveConfirm (d : Side) (expiry : Nat) (p : Pair DoorRec) : Pair DoorRec :=
  if (p.get d).state = .onUnconfirmed then p.set d { p.get d with confirm := some expiry } else p

/-- The door unit at COMMIT, one side (R106). -/
def commitDoors (s : State) (d : Side) : State :=
  let s := commitDoorsFrom d (numbers 1 s.nOv) s
  let expiry := timeAdd s.now s.dru.vals.tConfirm
  let s := { s with dru.doors := s.dru.doors.map (giveConfirm d expiry) }
  s.dispatchDoor d

/-- A door record after RESTART (R106). -/
def restartDoor (r : DoorRec) : DoorRec := { r with resealPending := false, confirm := none }

/-- The door unit at RESTART (R106). -/
def doorRestart (s : State) : State :=
  { s with dru := { s.dru with
    doors := s.dru.doors.map fun p => ⟨restartDoor p.ps, restartDoor p.cs⟩
    queues := ⟨[], []⟩
    rounds := ⟨{ s.dru.rounds.ps with visit := none }, { s.dru.rounds.cs with visit := none }⟩ } }

end State

end Sys2Proof.Machine
end

