-- ==== Sys2Proof/Machine/Push.lean ====
section
/-! DEFINITION. The push record: stages and the stage timer, the ram, push complete, the sticker and the late push, the
loss of a machine and re-derivation (chapter 4); the stop condition, the machine hold and breaches (3.7, 3.8). -/

namespace Sys2Proof.Machine

open Sys2Proof

namespace State

/-- Change the push record. -/
def updPush (s : State) (f : PushRec → PushRec) : State := s.setPush (s.ilk.push.map f)

/-- A cause that holds the stage timer is present (R86). -/
def timerHeld (s : State) : Bool := s.ilk.stop || s.unconfirmed

/-- The stage timer of a stage just entered, with its duration: held from the start while a hold cause is present
(R84, R86). -/
def newTimer (s : State) (dur : Nat) : StageTimer := if s.timerHeld then .held dur else .running (timeAdd s.now dur)

/-- The stage timer is held when it runs (R86). -/
def holdTimer (s : State) : State :=
  s.updPush fun p =>
    match p.timer with
    | .running e => { p with timer := .held (e - s.now) }
    | _ => p

/-- A sticker (R80, R148). That the re-test comes after the notice and the quench unit's part is the model's choice (log
90). -/
def sticker (s : State) (p : PushRec) : State :=
  let s := (s.setPush (some { p with stage := .sticker, timer := .absent, late := false })).updOven p.oven fun o =>
    { o with stickers := min 3 (o.stickers + 1) }
  ((s.raise (.sticker p.oven p.attempts ((s.oven p.oven).map OvenRec.stickers |>.getD 0) p.ramStart s.ram)).stickerCar
    p.oven).retest

/-- A late push in RAM_RETURN or CLOSING (R81). -/
def pushLate (s : State) (p : PushRec) : State :=
  (s.setPush (some { p with timer := .absent, late := true })).raise
    (.pushLate p.oven p.stage (if p.stage = .closing then p.ramHome else p.ramEnd))

/-- The stage timer expires (R80, R81). -/
def stageExpire (s : State) (p : PushRec) : State :=
  match p.stage with
  | .ramForward => s.sticker p
  | .ramReturn => s.pushLate p
  | .closing => s.pushLate p
  | _ => s

/-- A held stage timer runs again when no hold cause is left; with no second remaining it expires at once (R86, R3). -/
def resumeTimer (s : State) : State :=
  if s.timerHeld then s
  else
    match s.ilk.push with
    | some p =>
      match p.timer with
      | .held r =>
        let p := { p with timer := .running (timeAdd s.now r) }
        if r = 0 then s.stageExpire p else s.setPush (some p)
      | _ => s
    | none => s

/-- The planner's, the quench unit's and the door unit's part when a push record is removed (R77, R83, R97, R145). That the
dispatch check of PS comes before that of CS is the model's choice (log 79), and so is the order of the door unit, the quench
unit and the re-test (log 90). -/
def pushRemoved (s : State) (n : Nat) : State :=
  let s := ((s.setPush none).dispatchDoor .ps).dispatchDoor .cs
  let s := if s.qnu.car.state = .spotted n then s.reconsiderNext else s
  s.retest

/-- The oven's record at push complete (R15). -/
def emptied (p : PushRec) (o : OvenRec) : OvenRec :=
  { o with
    state := .empty
    lastPush := some ⟨p.ramStart.getD 0 - o.chargeEnd.getD 0, p.ramEnd.getD 0⟩
    chargeEnd := none
    overdue := false
    stickers := 0 }

/-- PUSH_DONE (R77). -/
def pushDoneNotice (s : State) (p : PushRec) : NoticeBody :=
  .pushDone p.oven p.attempts ((s.oven p.oven).map OvenRec.stickers |>.getD 0) p.doorOff p.ramStart p.ramEnd p.ramHome
    p.derivedEnd p.derivedHome s.now
    (p.ramStart.getD 0 - ((s.oven p.oven).bind OvenRec.chargeEnd).getD 0)

/-- The push is complete: the steps of R77 in order, and the CLEAR of R84 when the unconfirmed flag goes with the
record, after step 4 and before step 5 (log 50). -/
def pushComplete (s : State) (p : PushRec) : State :=
  let s := (s.raise (s.pushDoneNotice p)).updOven p.oven (emptied p)
  let s := (s.planPushComplete p.oven).offerValve p.oven .aspirate
  let s := if p.unconfirmed && !s.hold then s.sendIfOnline .pm (.clear .linkLoss) else s
  s.pushRemoved p.oven

/-- The completion test (R77). -/
def completionTest (s : State) : State :=
  match s.ilk.push with
  | some p => if p.stage = .closing ∧ !s.anyDoorOff p.oven then s.pushComplete p else s
  | none => s

/-- The record follows a ram start at its oven, by a covered report or a breach (R74, R79, R148). -/
def followRam (s : State) (n : Nat) : State :=
  (s.updPush fun p => { p with
    stage := .ramForward, armedFrom := none, ramStart := some s.now, ramEnd := none, ramHome := none,
    derivedEnd := false, derivedHome := false, retry := false, late := false,
    timer := s.newTimer s.cfg.timing.tRam }).ramStartCar n

/-- The ram end, reported or derived (R75, R85). That the re-test comes after the quench unit's part is the model's choice
(log 90). -/
def takeRamEnd (s : State) (p : PushRec) (derived : Bool) : State :=
  ((s.setPush (some { p with
    stage := .ramReturn, ramEnd := some s.now, derivedEnd := derived, late := false,
    timer := s.newTimer s.cfg.timing.tReturn })).ramEndCar p.oven s.now).retest

/-- The ram is home: the record moves to CLOSING (R76, R85), but for the completion test. -/
def enterClosing (s : State) (p : PushRec) (derived : Bool) : State :=
  (s.setPush (some { p with
    stage := .closing, ramHome := some s.now, derivedHome := derived, late := false,
    timer := s.newTimer s.cfg.timing.tDoors })).retest

/-! ## Loss of a machine (R84, R85) -/

/-- The push record learns that a machine has gone OFFLINE (R84). That the lost set, which the PUSH query answers, is listed
in the order in which the machines were lost is the model's choice (log 80), and so is STOP before PUSH_UNCONFIRMED (log
90). -/
def pushLoses (s : State) (m : MachineId) : State :=
  match s.ilk.push with
  | some p =>
    if m ≠ .cc ∧ (p.stage = .ramForward ∨ p.unconfirmed) then
      let lost := if p.lost.contains m then p.lost else p.lost ++ [m]
      let s := (s.setPush (some { p with unconfirmed := true, lost := lost })).holdTimer
      (s.sendIfOnline .pm (.stop .linkLoss)).raise (.pushUnconfirmed p.oven m)
    else s
  | none => s

/-- Re-derivation but for the flag: the table of R85. -/
def rederiveStage (s : State) (p : PushRec) : State :=
  match p.stage, s.ram with
  | .ramForward, some .atEnd => s.takeRamEnd p true
  | .ramForward, some .home =>
    let s := (s.setPush (some { p with ramEnd := some s.now, derivedEnd := true })).ramEndCar p.oven s.now
    s.enterClosing { p with ramEnd := some s.now, derivedEnd := true } true
  | .ramReturn, some .home => s.enterClosing p true
  | _, _ => s

/-- The lost set has become empty: re-derivation, PUSH_CONFIRMED, the freed timer, CLEAR (R85; log 41, 49). -/
def rederive (s : State) (p : PushRec) : State :=
  let s := (s.rederiveStage p).completionTest
  match s.ilk.push with
  | none => s
  | some q =>
    let s := (s.setPush (some { q with unconfirmed := false })).raise (.pushConfirmed q.oven p.stage q.stage s.ram)
    let s := s.resumeTimer
    if s.hold then s else s.sendIfOnline .pm (.clear .linkLoss)

/-- A STATUS from a machine reaches the push record; `became` marks a machine that has just become ONLINE (R84, R85). -/
def pushRegains (s : State) (m : MachineId) (became : Bool) : State :=
  match s.ilk.push with
  | some p =>
    if p.unconfirmed then
      let lost := p.lost.filter (· != m)
      let s := s.setPush (some { p with lost := lost })
      if lost.isEmpty then s.rederive { p with lost := lost }
      else if m = .pm ∧ became then s.send .pm (.stop .linkLoss)
      else s
    else s
  | none => s

/-! ## Stop condition and machine hold (R62 to R64) -/

/-- The last cause of the machine hold has ended: CLEAR to every ONLINE machine, and STOP LINK_LOSS to PM again while the
push is unconfirmed (R64, R84). -/
def sendClears (s : State) (c : HoldCause) : State :=
  let s := s.sendAllOnline (.clear c)
  if s.unconfirmed then s.sendIfOnline .pm (.stop .linkLoss) else s

/-- What waits on the end of the machine hold (R97, R134, R143, R152). -/
def workAfterHold (s : State) : State :=
  ((((s.dispatchDoor .ps).dispatchDoor .cs).dispatchValve).testMove).testDump

/-- The machine hold ends when no cause is left (R64). -/
def holdEnds (s : State) (c : HoldCause) : State := if s.hold then s else (s.sendClears c).workAfterHold

/-- The machine hold starts or is renewed: STOP to every ONLINE machine, and issued moves return to PENDING (R64,
R143). -/
def holdStarts (s : State) (c : HoldCause) : State :=
  (({ s with ilk.holdCause := c }).sendAllOnline (.stop c)).withdrawMove

/-- The stop condition sets (R62, R63, R86). R63 gives no order: that the notice comes first, then the revocations, the stage
timer and STOP is the model's choice (log 90). -/
def stopSets (s : State) : State :=
  let held := s.hold
  let s := ({ s with ilk.stop := true }).raise (.batteryStop true)
  let s := (s.revokeAll .stopped).holdTimer
  if held then s else s.holdStarts .batteryStop

/-- The stop condition clears (R63, R86; log 39). -/
def stopClears (s : State) : State :=
  ((({ s with ilk.stop := false }).raise (.batteryStop false)).resumeTimer).holdEnds .batteryStop

/-- The stop condition follows the level of BATTERY_STOP_IN (R62). -/
def stopFollows (s : State) (active : Bool) : State :=
  if active = s.ilk.stop then s else if active then s.stopSets else s.stopClears

/-! ## Breach (R65) -/

/-- The first part of a breach: the oven's flag, and every permit revoked (R65). -/
def breachBegins (s : State) (n : Nat) : State := (s.updOven n fun o => { o with breach := true }).revokeAll .breach

/-- The last part of a breach: STOP, the planner halted, the BREACH notice (R65). -/
def breachEnds (s : State) (n : Nat) (m : MachineId) (rep : ReportName) (held : Option Permit) : State :=
  ((s.holdStarts .breach).planHalt).raise (.breach n m rep (held.map fun p => (p.kind, p.oven)))

/-- PM's ram state is written by a ram report (R50). -/
def writeRam (s : State) (r : Ram) : State := s.updMachine .pm fun m => { m with status := some (.ram r) }

/-- What every RAM_START writes: PM's ram state and the last ram start (R50, R54). -/
def ramStartFact (s : State) (n : Nat) : State :=
  { s.writeRam .forward with ilk.lastRam := some (s.now, s.secOf n) }

end State

end Sys2Proof.Machine
end

