-- ==== Sys2Proof/Machine/Pressure.lean ====
section
/-! DEFINITION. The pressure loops: readings, the control step, sensor fault and recovery, alarm levels, activation,
RESTART, manual damper and setpoint (chapter 6). -/

namespace Sys2Proof.Machine

open Sys2Proof

/-- The reading of a gate (R111). -/
inductive Reading where
  | good (p : Int)
  | fault (n : Nat)
  | absent
  deriving DecidableEq, Repr

/-- Classification of a gate's count (R111). -/
def classify (n : Nat) : Reading :=
  if n ≤ 199 then .fault n
  else if n ≤ 249 then .good (-250)
  else if n ≤ 1250 then .good ((n : Int) - 500)
  else if n ≤ 1300 then .good 750
  else .fault n

/-! ## The control step (R113, R114) -/

/-- Step 1: the error, zero within the deadband. -/
def loopError (par : PressureParams) (p : Int) : Int :=
  let e := p - par.setpoint
  if -par.deadband ≤ e ∧ e ≤ par.deadband then 0 else e

/-- The integrator's clamp. -/
def clampA (a : Int) : Int := clampInt 0 256000 a

/-- Step 3: the proportional term, truncated toward zero. -/
def propTerm (par : PressureParams) (e : Int) : Int := Int.tdiv (par.kp * e) 16

/-- Step 7: F moves toward 0 by the decay. -/
def decayF (d f : Int) : Int := if -d ≤ f ∧ f ≤ d then 0 else if 0 < f then f - d else f + d

/-- Steps 4 to 6: the raw command, its clamp and the rate limit. -/
def damperMove (par : PressureParams) (uPrev a p f : Int) : Int :=
  let cmd := clampInt par.uMin par.uMax (a / 256 + p + f)
  uPrev + clampInt (-par.rate) par.rate (cmd - uPrev)

/-- The HOLD step: F decays, nothing else (R113). -/
def holdStep (par : PressureParams) (r : SecRec) : SecRec := { r with ff := decayF par.decay r.ff }

/-- Steps 1 to 7 of R114, or with `transfer` the bumpless transfer of R118 and steps 4 to 7; the section is in AUTO with
no transfer pending after it. -/
def autoStep (par : PressureParams) (transfer : Bool) (r : SecRec) (v : SecLive) (p : Int) : SecRec :=
  let e := loopError par p
  let pt := propTerm par e
  let a := if transfer then clampA ((v.uOut - pt - r.ff) * 256) else clampA (r.integ + par.ki * e)
  { r with
    integ := a
    ff := decayF par.decay r.ff
    live := some { v with mode := .auto, transfer := some false, uOut := damperMove par v.uOut a pt r.ff } }

/-- The control step of an active section; `back` marks a return from HOLD by recovery (R113, R118). -/
def controlStep (par : PressureParams) (back : Bool) (rd : Reading) (r : SecRec) : SecRec :=
  match r.live with
  | none => r
  | some v =>
    match rd with
    | .good p =>
      if back then autoStep par true r v p
      else if v.mode = .auto then autoStep par (v.transfer == some true) r v p
      else holdStep par r
    | _ => holdStep par r

/-! ## Alarm levels (R122) -/

/-- A run counter that counts in the present level: up when its condition holds, else 0. -/
def countRun (holds : Bool) (n : Nat) : Nat := if holds then n + 1 else 0

/-- The settle condition of a level (R122). -/
def settles (par : PressureParams) (p : Int) : AlarmLevel → Bool
  | .flare => decide (p < par.pFlare - par.hysteresis)
  | .high => decide (p < par.pHigh - par.hysteresis)
  | .low => decide (p > par.pLow + par.hysteresis)
  | .normal => false

/-- The counters after a good reading in a level (R122). -/
def countAlarm (par : PressureParams) (p : Int) (l : AlarmLevel) (c : RunCounters) : RunCounters where
  rise := if l = .low ∨ l = .normal then countRun (decide (p > par.pHigh)) c.rise else 0
  flare := if l = .flare then 0 else countRun (decide (p > par.pFlare)) c.flare
  settle := if l = .normal then 0 else countRun (settles par p l) c.settle
  low := if l = .normal then countRun (decide (p < par.pLow)) c.low else 0

/-- The level one step back (R122). -/
def AlarmLevel.back : AlarmLevel → AlarmLevel
  | .flare => .high
  | _ => .normal

/-- The level after a good reading: the highest of those whose counters have reached their thresholds (R122). -/
def nextLevel (l : AlarmLevel) (c : RunCounters) : AlarmLevel :=
  if 4 ≤ c.flare then .flare
  else if 4 ≤ c.rise then .high
  else if 8 ≤ c.settle then AlarmLevel.back l
  else if 4 ≤ c.low then .low
  else l

/-- Alarm evaluation of an active section on a good reading (R122). -/
def alarmStep (par : PressureParams) (p : Int) (v : SecLive) : SecLive :=
  let c := countAlarm par p v.level v.counters
  let l := nextLevel v.level c
  if l = v.level then { v with counters := c } else { v with level := l, counters := .zero }

namespace State

/-- The gate of PRESS_IN k. -/
def gate (s : State) (k : Nat) : Option Gate := nth1 s.ofu.gates k

/-- Change the gate of PRESS_IN k. -/
def updGate (s : State) (k : Nat) (f : Gate → Gate) : State := { s with ofu.gates := upd1 f k s.ofu.gates }

/-- The reading of section k at the end of its gate (R111). The section record need stand at the gate's end only
(log 52). -/
def reading (s : State) (k : Nat) : Reading :=
  match s.gate k with
  | some g => if s.assigned (.pressIn k) && g.whole && (s.sec k).isSome then classify g.count else .absent
  | none => .absent

/-- A gate gives a reading (R111). -/
def gives : Reading → Bool
  | .absent => false
  | _ => true

/-- The gate of PRESS_IN k ends and the next begins: its count stays as that of the last gate (R168), with whether it gave
a reading (R111, R127). -/
def endGate (s : State) (k : Nat) : State :=
  let gave := gives (s.reading k)
  s.updGate k fun g => ⟨0, s.assigned (.pressIn k), some g.count, gave⟩

/-- A fault reading of section k (R117). -/
def faultReading (s : State) (k n : Nat) : State :=
  match s.sec k with
  | none => s
  | some r =>
    let live := r.live.map fun (v : SecLive) =>
      if v.mode = .auto then { v with mode := .hold .fault, transfer := none } else v
    let s := s.updSec k fun x => { x with goodRun := 0, sensorFault := true, live := live }
    if r.sensorFault then s else s.raise (.sensorFault k n r.pressure (live.map SecLive.mode))

/-- A good reading of section k: P and the good-reading run (R112). -/
def goodReading (s : State) (k : Nat) (p : Int) : State :=
  s.updSec k fun r => { r with pressure := some p, goodRun := min 8 (r.goodRun + 1) }

/-- The eighth good reading has come while the sensor fault flag is set (R118). -/
def recovered (s : State) (k : Nat) : Bool := ((s.sec k).map fun r => r.sensorFault && r.goodRun == 8).getD false

/-- The section returns to AUTO by this reading's recovery (R118). -/
def returnsToAuto (s : State) (k : Nat) : Bool :=
  s.recovered k && ((s.sec k).bind SecRec.live).map SecLive.mode == some (.hold .fault)

/-- Recovery: the flag clears with SENSOR_OK (R118). -/
def recover (s : State) (k : Nat) (p : Int) : State :=
  if s.recovered k then (s.updSec k fun r => { r with sensorFault := false }).raise (.sensorOk k p) else s

/-- CHARGE_UNDER_PRESSURE for a charge of a section that has entered HIGH or FLARE (R138; log 42). -/
def chargeUnderPressure (s : State) (k : Nat) (l : AlarmLevel) : State :=
  if l = .high ∨ l = .flare then
    match s.ofu.charges.find? fun c => s.secOf c.oven == k with
    | some c => s.raise (.chargeUnderPressure k c.oven l)
    | none => s
  else s

/-- Alarm evaluation of section k on a good reading (R122, R123, R138). No rule orders the two notices of one change: that
SECTION_ALARM is raised before CHARGE_UNDER_PRESSURE is the model's choice (log 63). -/
def alarmEval (s : State) (k : Nat) (p : Int) : State :=
  match s.sec k with
  | some r =>
    match r.live, r.params with
    | some v, some par =>
      let v' := alarmStep par p v
      let s := s.updSec k fun x => { x with live := some v' }
      if v'.level = v.level then s
      else ((s.raise (.sectionAlarm k v.level v'.level p)).chargeUnderPressure k v'.level).retest
    | _, _ => s
  | none => s

/-- The control step of section k (R113). -/
def sectionStep (s : State) (k : Nat) (back : Bool) (rd : Reading) : State :=
  s.updSec k fun r =>
    match r.params with
    | some par => controlStep par back rd r
    | none => r

/-- What the end of a gate does to section k, in the order of R112. -/
def endSection (s : State) (k : Nat) : State :=
  match s.reading k with
  | .good p =>
    let s := s.goodReading k p
    let back := s.returnsToAuto k
    (((s.recover k p).alarmEval k p).sectionStep k back (.good p)).endGate k
  | .fault n => ((s.faultReading k n).sectionStep k false (.fault n)).endGate k
  | .absent => (s.sectionStep k false .absent).endGate k

/-- Every section 1..K in turn, each whole, then the gates of functions that name no section record (R112; log 53). -/
def endSections : List Nat → State → State
  | [], s => s
  | k :: rest, s => endSections rest (s.endSection k)

/-! ## Activation and RESTART (R124, R125) -/

/-- A section at COMMIT (R124). -/
def activated (r : SecRec) : SecRec :=
  match r.params with
  | none => r
  | some par =>
    let a := clampA ((par.uStart - r.ff) * 256)
    let mode : SecMode := if r.sensorFault then .hold .fault else .auto
    let transfer : Option Bool := if r.sensorFault then none else some false
    let live : SecLive :=
      match r.live with
      | some v => { v with mode := mode, transfer := transfer, uOut := par.uStart }
      | none => ⟨mode, transfer, par.uStart, .normal, .zero⟩
    { r with integ := a, live := some live }

/-- The terminals of sections that become active are driven from the event (R124; log 28). -/
def startDuty (s : State) (r : TermRec) : TermRec :=
  match r.fn with
  | .damperPwm k =>
    match s.sec k with
    | some x => if x.live.isNone then { r with duty := x.params.map PressureParams.uStart } else r
    | none => r
  | _ => r

/-- The sections at COMMIT (R124). -/
def activateSections (s : State) : State :=
  { s with trm := s.trm.map s.startDuty, ofu.sections := s.ofu.sections.map activated }

/-- A section at RESTART (R125). -/
def heldSection (r : SecRec) : SecRec :=
  { r with live := r.live.map fun (v : SecLive) => { v with mode := .hold .restart, transfer := none } }

/-- The sections at RESTART (R125). -/
def holdSections (s : State) : State := { s with ofu.sections := s.ofu.sections.map heldSection }

/-- The valve offers at COMMIT of an action for the ovens a test picks, in order (R139). -/
def offerWhere (pick : State → Nat → Bool) (a : ValveAction) : List Nat → State → State
  | [], s => s
  | n :: rest, s => offerWhere pick a rest (if pick s n then s.offerValve n a else s)

/-- An EMPTY oven whose valve is not ASPIRATING (R139). -/
def wantsAspirate (s : State) (n : Nat) : Bool := s.ovenIs n .empty && !(s.valveState n == some .aspirating)

/-- A COKING or READY oven whose valve is CLOSED or ASPIRATING (R139). -/
def wantsNormal (s : State) (n : Nat) : Bool :=
  (s.ovenIs n .coking || s.ovenIs n .ready) && (s.valveState n == some .closed || s.valveState n == some .aspirating)

/-- The offtake unit's offers at COMMIT, and its dispatch check (R139). -/
def commitValves (s : State) : State :=
  let all := numbers 1 s.nOv
  (offerWhere wantsNormal .normal all (offerWhere wantsAspirate .aspirate all s)).dispatchValve

/-- The valve work at RESTART (R139). -/
def valveRestart (s : State) : State := { s with ofu := { s.ofu with queue := [], heldOffers := [], iso := none } }

end State

end Sys2Proof.Machine
end

