-- ==== Sys2Proof/Machine/Terminals.lean ====
section
/-! DEFINITION. The terminal block: inputs and what their levels are handed to, overload, assignment of functions, pulse
edges and duty (chapter 9). -/

namespace Sys2Proof.Machine

open Sys2Proof

/-- The level of a filtered input: energised with invert clear, or de-energised with invert set (R162). -/
def levelOf (energised invert : Bool) : Bool := energised != invert

/-- The edge select names a change to the new level (R163). -/
def Edge.names : Edge → Bool → Bool
  | .rise, l => l
  | .fall, l => !l
  | .both, _ => true

/-- The gate a function counts into. -/
def TermFn.gateNo : TermFn → Nat
  | .pressIn k => k
  | _ => 0

namespace State

/-- CONVEYOR_RUN_IN has changed (R154, R155). -/
def conveyorFollows (s : State) (active : Bool) : State := if active then s.startDischarge else s.conveyorLost

/-- A change of an input function's level is handed to its owner (R162, R163). -/
def handLevel (s : State) (fn : TermFn) (t : Nat) (e : Edge) (l : Bool) : State :=
  match fn with
  | .batteryStopIn => s.stopFollows l
  | .conveyorRunIn => s.conveyorFollows l
  | .input => if Edge.names e l then s.raise (.inputChange t l) else s
  | _ => s

/-- A terminal has held a new physical state for 10 ms (R162; log 20). -/
def inputHolds (s : State) (t : Nat) (energised : Bool) : State :=
  match s.term t with
  | none => s
  | some r =>
    if TermFn.filteredInput r.fn then
      let l := levelOf energised r.invert
      let s := s.updTerm t fun x => { x with filtered := energised, level := l }
      if l = r.level then s else s.handLevel r.fn t r.edge l
    else if r.fn = .unassigned then s.updTerm t fun x => { x with filtered := energised }
    else s

/-- An overload on an output that passes current (R166). TERMINAL_FAULT carries the level of an energised terminal: on, or off
with invert set (R164; a pulse train is in its energised part, log 75). -/
def overload (s : State) (t : Nat) : State :=
  match s.term t with
  | none => s
  | some r =>
    if s.canOverload r then
      (s.updTerm t fun x => { x with fault := true }).raise (.terminalFault t r.fn (!r.invert))
    else s

/-- A rising edge of a PRESS_IN terminal's level after inversion (R111, R162). -/
def pulseEdge (s : State) (t : Nat) : State :=
  match s.term t with
  | none => s
  | some r => s.updGate (TermFn.gateNo r.fn) fun g => { g with count := g.count + 1 }

/-- A PWM period starts: the section's damper output becomes the duty in force (R115). -/
def periodStart (s : State) (t : Nat) : State :=
  s.updTerm t fun r =>
    match r.fn with
    | .damperPwm k => { r with duty := ((s.sec k).bind SecRec.live).map SecLive.uOut }
    | _ => r

/-- The function stands on a terminal other than t (R161). -/
def standsElsewhere (s : State) (fn : TermFn) (t : Nat) : Bool :=
  (s.trm.zipIdx).any fun p => p.1.fn == fn && p.2 != t

/-- A terminal's gate does not run whole when its PRESS_IN leaves or arrives (R111). That its count begins again at 0, so that
edges counted before show in no answer, is the model's choice (log 59). -/
def spoilGate (s : State) (fn : TermFn) : State :=
  s.updGate (TermFn.gateNo fn) fun g => { g with count := 0, whole := false }

/-- An input function leaves a terminal: its level becomes inactive (R161). INPUT raises no notice (R163). -/
def functionLeaves (s : State) (fn : TermFn) (level : Bool) : State :=
  match fn with
  | .batteryStopIn => if level then s.stopFollows false else s
  | .conveyorRunIn => if level then s.conveyorFollows false else s
  | .gateOut b => s.interruptDischarge b
  | .pressIn _ => s.spoilGate fn
  | _ => s

/-- An input function arrives with a level that differs from inactive; PRESS_IN begins a new gate (R161). -/
def functionArrives (s : State) (fn : TermFn) (t : Nat) (e : Edge) (level : Bool) : State :=
  match fn with
  | .pressIn _ => s.spoilGate fn
  | _ => if level then s.handLevel fn t e true else s

/-- A TERMINAL block taken (R161). A DAMPER_PWM terminal just assigned to an active section has no duty, so its level is off,
until its first period starts: the model's choice (log 68). -/
def assignTerminal (s : State) (t : Nat) (r : TermRec) (fn : TermFn) (invert : Bool) (drive : Drive) (edge : Edge) :
    State :=
  let l := TermFn.filteredInput fn && levelOf r.filtered invert
  if r.fn = fn then
    let s := s.updTerm t fun x => { x with invert := invert, drive := drive, edge := edge, level := l }
    let s := if l = r.level then s else s.handLevel fn t edge l
    s.startDischarge
  else
    let s := s.updTerm t fun x =>
      { x with fn := fn, invert := invert, drive := drive, edge := edge, out := false, level := l, fault := false,
               duty := none }
    let s := s.functionLeaves r.fn r.level
    let s := s.functionArrives fn t edge l
    s.startDischarge

end State

end Sys2Proof.Machine
end

