-- ==== Sys2Proof/Machine/LinkPorts.lean ====
section
/-! DEFINITION. The link ports: link states and silence, machines going OFFLINE and coming ONLINE, a machine's STATUS, the
answer to a request, and the link test (chapter 10; 3.1). -/

namespace Sys2Proof.Machine

open Sys2Proof

/-- The machine status a STATUS carries; CC's has none (R47). -/
def StatusFrom.status : StatusFrom → Option MachineStatus
  | .pm r => some (.ram r)
  | .gc g => some (.guide g)
  | .cc => none
  | .qc l => some (.carLoad l)

namespace State

/-! ## OFFLINE (R49, R100, R136, R143, R84) -/

/-- The blocks learn that a machine has gone OFFLINE (R49; log 35). -/
def handOffline (s : State) (m : MachineId) : State :=
  let s :=
    match m with
    | .pm => s.doorOffline .ps
    | .gc => s.doorOffline .cs
    | .cc => s.valveOffline
    | .qc => s.qcOffline
  (s.pushLoses m).retest

/-- An ONLINE machine's link goes OFFLINE (R174, R49). -/
def goOffline (s : State) (m : MachineId) (c : LinkCause) : State :=
  let s := (s.updPort (.mach m) fun p => { p with up := false, silence := false }).raise (.linkState m false c)
  (s.updMachine m fun r => { r with position := some .travel }).handOffline m

/-! ## STATUS (R48, R49) -/

/-- The link goes ONLINE at a valid STATUS (R174). -/
def goOnline (s : State) (m : MachineId) : State :=
  (s.updPort (.mach m) fun p => { p with up := true }).raise (.linkState m true .status)

/-- The machine record after a STATUS (R48). -/
def statusRecord (s : State) (sender : StatusFrom) (mode : Mode) (motion : Motion) (spot : ReportedSpot) :
    MachineRec :=
  let allowed := spotAllowed s sender.machine spot
  { mode := some mode
    position := some (if motion = .stopped ∧ allowed then ReportedSpot.position spot else .travel)
    status := StatusFrom.status sender
    lastStatus := some s.now
    invalidPos := motion = .stopped ∧ !allowed }

/-- The spot at which QC stands stopped, when it is allowed (R141). -/
def stoppedSpot (s : State) (sender : StatusFrom) (motion : Motion) (spot : ReportedSpot) : Option CarSpot :=
  if motion = .stopped ∧ spotAllowed s sender.machine spot then ReportedSpot.carSpot spot else none

/-- POSITION_INVALID as the flag becomes set (R48). That it comes after LINK_STATE and before a STOP of the same STATUS is the
model's choice (log 90). -/
def invalidNotice (s : State) (m : MachineId) (before : Bool) (spot : ReportedSpot) : State :=
  if (s.machine m).invalidPos && !before then s.raise (.positionInvalid m spot) else s

/-- The machine's STATUS is handed to the blocks that read the machine table (R48, R85, R97, R134, R141), in the model's
order: quench unit, push record, re-test, dispatch check (log 47). -/
def handStatus (s : State) (m : MachineId) (became : Bool) (oldMode : Option Mode) (stopped : Option CarSpot)
    (spot : ReportedSpot) : State :=
  let s := if m = .qc then s.qcStatus oldMode stopped spot else s
  let s := s.pushRegains m became
  s.retest.dispatchFor m

/-- A valid STATUS taken (R48, R49, R174). -/
def takeStatus (s : State) (sender : StatusFrom) (mode : Mode) (motion : Motion) (spot : ReportedSpot) : State :=
  let m := sender.machine
  let became := !s.online m
  let old := s.machine m
  let stopped := s.stoppedSpot sender motion spot
  let s := if became then s.goOnline m else s
  let s := (s.updMachine m fun _ => s.statusRecord sender mode motion spot).invalidNotice m old.invalidPos spot
  let s := if became && s.hold then s.send m (.stop s.stopCause) else s
  s.handStatus m became old.mode stopped spot

/-- A valid frame from a machine: nothing is assembled during a link test; else the silence timer restarts and the frame
is handed to its owner (R174, R179; log 25). -/
def machineFrame (m : MachineId) (body : State → State) (s : State) : State :=
  if (s.mlink m).test.active then s else body (s.updPort (.mach m) fun p => { p with silence := true })

/-! ## Supervisor requests (R175, R176) -/

/-- A valid frame on the S-link: the timer restarts; from LOST the link becomes PRESENT and a waiting boundary build is
made (R175). -/
def supervisorHeard (s : State) : State :=
  let was := s.present
  let s := s.updPort .sup fun p => { p with up := true, silence := true }
  if was then s else s.planReturn

/-- A SETUP, COMMAND or QUERY: refused OVERRUN with four answers waiting, else taken and answered (R176). -/
def request (tag : Byte) (body : State → State × Reply) (s : State) : State :=
  if 4 ≤ s.lnk.sup.answers.length then s.discard .sup .overrun
  else
    let r := body s.supervisorHeard
    r.1.pushAnswer tag r.2

/-- An answer that is a code alone and leaves the state. -/
def refuse (s : State) (c : ResultCode) : State × Reply := (s, .code c)

/-! ## The link test (R179, R180) -/

/-- Change the test record of an M-link. -/
def updTest (s : State) (m : MachineId) (f : LinkTest → LinkTest) : State :=
  s.updLink m fun k => { k with test := f k.test }

/-- LINK_TEST taken (R179). -/
def startTest (s : State) (m : MachineId) : State :=
  let s := s.updTest m fun t =>
    { t with active := true, internalErrors := 0, reported := 0, received := 0, seeded := 0, generator := 0x7FFF#15 }
  let s := s.updLink m fun k =>
    { k with queue := [], sending := none, line := [], port := { k.port with rx := .hunting, silence := false } }
  if s.online m then s.goOffline m .test else s

/-- LINK_TEST (R179). -/
def linkTestOp (s : State) (m : MachineId) : State × Reply :=
  if (s.mlink m).test.active then s.refuse .busy
  else if (s.permit m).isSome then s.refuse .busy
  else if m ≠ .cc ∧ s.ilk.push.isSome then s.refuse .busy
  else (s.startTest m, .code .ok)

/-- The reported count is copied on a link in test (R180). -/
def copyCount (t : LinkTest) : LinkTest := if t.active then { t with reported := t.internalErrors } else t

/-- TEST_READ (R180). That the answer carries the test flag on a link not in test too, where R180 names the two counts alone,
is the model's choice (log 88). -/
def testReadOp (s : State) (m : MachineId) : State × Reply :=
  let s := s.updTest m copyCount
  let t := (s.mlink m).test
  (s, .okWith (.testCounts t.reported t.received t.active))

/-- TEST_END (R180). -/
def testEndOp (s : State) (m : MachineId) : State × Reply :=
  if (s.mlink m).test.active then
    ((s.updTest m fun t => { t with active := false, seeded := 0 }).updPort (.mach m) fun p => { p with rx := .hunting },
      .code .ok)
  else s.refuse .notFound

/-- The checker takes a character (R180; log 30). -/
def judge (t : LinkTest) (c : RxChar) : LinkTest :=
  let step := checkerTake t.checker c.data
  let errors := if t.internalErrors = 65535 then 0 else t.internalErrors + 1
  { t with
    checker := step.1
    received := min 4294967295 (t.received + 1)
    seeded := min 2 (t.seeded + 1)
    internalErrors := if t.seeded < 2 then t.internalErrors else if c.damaged || !step.2 then errors else t.internalErrors }

/-- The character whose data bits are the last eight bits of the stream, the earliest least significant (R180). -/
def testByte (g : BitVec 15) : Byte := (g.extractLsb' 0 8).reverse

/-- Every link in test sends one more character of its stream, at the link's line settings (R179, R180; log 2). The first
bits sent are the new bits made from the fifteen ones loaded, not the ones themselves: the model's choice (log 70). -/
def sendTestChar (k : MLink) : MLink :=
  if k.test.active then
    let g := streamSteps 8 k.test.generator
    { k with test := { k.test with generator := g }, line := [charCells k.port.settings (testByte g)] }
  else k

/-- What happens on an empty queue: each link in test sends on (log 2). -/
def idle (s : State) : State :=
  { s with lnk.mach := ⟨sendTestChar s.lnk.mach.pm, sendTestChar s.lnk.mach.gc, sendTestChar s.lnk.mach.cc,
      sendTestChar s.lnk.mach.qc⟩ }

end State

end Sys2Proof.Machine
end

