-- ==== Sys2Proof/Machine/Settle.lean ====
section
/-! DEFINITION. The expiry of each second-granular timer (R3), what happens to them all while battery time is held, and
how every event ends. An expiry whose timer is absent or lies ahead does nothing (log 1). -/

namespace Sys2Proof.Machine

open Sys2Proof

namespace State

/-! ## Oven table and planner -/

/-- A COKING oven's ready timer (R13). -/
def readyExpire (s : State) (n : Nat) : State :=
  if s.inRun && s.ovenIs n .coking then s.evalReady n else s

/-- The due timer of the cursor slot (R26, R36). -/
def dueExpire (s : State) : State :=
  if s.pln.state = .running ∧ reached s.now s.pln.dueTimer then s.planUpdate else s

/-- The hold-over timer of the cursor slot (R27, R36). -/
def holdOverExpire (s : State) : State :=
  if s.pln.state = .running ∧ s.cursorWaiting ∧ reached s.now s.pln.holdOver then s.planUpdate else s

/-! ## Interlock unit -/

/-- A permit reaches its use deadline (R59). -/
def deadlineExpire (s : State) (m : MachineId) : State :=
  match s.permit m with
  | some p => if p.deadline ≤ s.now then (s.revoke m .expired).retest else s
  | none => s

/-- The push record's stage timer has reached its time. -/
def stageTimerDue (s : State) (p : PushRec) : Bool :=
  match p.timer with
  | .running e => decide (e ≤ s.now)
  | _ => false

/-- The stage timer in RAM_FORWARD (R80). -/
def ramTimerExpire (s : State) : State :=
  match s.ilk.push with
  | some p => if p.stage = .ramForward ∧ s.stageTimerDue p then s.stageExpire p else s
  | none => s

/-- The stage timer in RAM_RETURN or CLOSING (R81). -/
def lateTimerExpire (s : State) : State :=
  match s.ilk.push with
  | some p => if (p.stage = .ramReturn ∨ p.stage = .closing) ∧ s.stageTimerDue p then s.stageExpire p else s
  | none => s

/-! ## Door unit -/

/-- A door's confirm timer (R92). -/
def confirmTimerExpire (s : State) (n : Nat) (d : Side) : State :=
  match s.door n d with
  | some r => if s.inRun && reached s.now r.confirm then s.confirmExpire n d else s
  | none => s

/-- The task timer of a side's queue entry in service (R99). -/
def taskTimerExpire (s : State) (d : Side) : State :=
  match (s.queue d).find? fun e => reached s.now e.service with
  | some e => s.taskTimeout d e
  | none => s

/-- The task timer of a side's round visit (R104). -/
def visitTimerExpire (s : State) (d : Side) : State :=
  match (s.round d).visit with
  | some v => if v.timer ≤ s.now then s.visitTimeout d v else s
  | none => s

/-! ## Offtake unit -/

/-- The isolate timer (R133). -/
def isolateExpire (s : State) : State :=
  match s.ofu.iso with
  | some t => if t.expiry ≤ s.now then ({ s with ofu.iso := none }).offerValve t.oven .isolate else s
  | none => s

/-- The task timer of CC's entry in service (R136). -/
def valveTimerExpire (s : State) : State :=
  match s.ofu.queue.find? fun e => reached s.now e.service with
  | some e => s.valveTimeout e
  | none => s

/-- The charge timer of an oven's charge record (R138). -/
def chargeTimerExpire (s : State) (n : Nat) : State :=
  match s.ofu.charges.find? fun c => c.oven == n with
  | some c =>
    if reached s.now c.timer then
      ({ s with ofu.charges := s.ofu.charges.map fun (x : ChargeRec) =>
          if x.oven = n then { x with timer := none, late := true } else x }).raise
        (.chargeLate n (s.secOf n) c.start)
    else s
  | none => s

/-! ## Quench unit -/

/-- The move timer (R144). -/
def moveTimerExpire (s : State) : State :=
  match s.qnu.car.move, s.qnu.car.state.dest with
  | .issued t timer, some dest =>
    if reached s.now timer then (s.updCar fun r => { r with move := .issued t none }).raise (.moveLate dest t) else s
  | _, _ => s

/-- Change the load record. -/
def updLoad (s : State) (f : LoadRec → LoadRec) : State := { s with qnu.load := s.qnu.load.map f }

/-- The hot timer of the load (R150). -/
def hotTimerExpire (s : State) : State :=
  match s.qnu.load with
  | some l =>
    if reached s.now l.hot then
      (s.updLoad fun x => { x with hot := none, late := true }).raise (.hotLoadLate l.oven l.pushEnd s.qnu.car.state)
    else s
  | none => s

/-- Write the tower phase timer (R151). -/
def setPhase (s : State) (t : Option Nat) : State := { s with qnu.phase := t }

/-- The spray timer (R151). -/
def sprayExpire (s : State) : State :=
  if s.qnu.car.state = .quenching ∧ reached s.now s.qnu.phase then
    (((s.updLoad fun x => { x with quenchEnd := some s.now }).setPhase
      (some (timeAdd s.now s.qnu.vals.tDrain))).setCar .draining).retest
  else s

/-- The drain timer (R151, R152). -/
def drainExpire (s : State) : State :=
  if s.qnu.car.state = .draining ∧ reached s.now s.qnu.phase then (s.setPhase none).chooseBay else s

/-- A bay's cool timer (R153). -/
def coolExpire (s : State) (b : Nat) : State :=
  match s.bay b with
  | some (.cooling o dump t) =>
    if t ≤ s.now then
      let s := s.setBay b (.cooled o dump s.now)
      ({ s with qnu.discharge := s.qnu.discharge ++ [b] }).startDischarge
    else s
  | _ => s

/-- The gate timer of the DISCHARGING bay, which stands at the head of the discharge queue (R154). -/
def gateExpire (s : State) : State :=
  match s.qnu.discharge with
  | b :: _ =>
    match s.bay b with
    | some (.discharging _ _ _ g) => if g ≤ s.now then s.gateEnd b else s
    | _ => s
  | [] => s

/-! ## Battery time held at the maximum (R3; log 6) -/

/-- Apply an expiry for every number of a list. -/
def forEach (f : State → Nat → State) : List Nat → State → State
  | [], s => s
  | n :: rest, s => forEach f rest (f s n)

/-- Every timer that has reached its time expires once (R3; log 6). -/
def sweepOnce (s : State) : State :=
  let ovens := numbers 1 s.nOv
  let s := forEach overdueCheck ovens (forEach readyExpire ovens s)
  let s := s.dueExpire.holdOverExpire
  let s := ((s.deadlineExpire .pm).deadlineExpire .gc).deadlineExpire .cc
  let s := s.ramTimerExpire.lateTimerExpire
  let s := forEach (fun s n => (s.confirmTimerExpire n .ps).confirmTimerExpire n .cs) ovens s
  let s := (s.taskTimerExpire .ps).taskTimerExpire .cs
  let s := (s.visitTimerExpire .ps).visitTimerExpire .cs
  let s := forEach chargeTimerExpire ovens s.isolateExpire.valveTimerExpire
  let s := s.moveTimerExpire.hotTimerExpire.sprayExpire.drainExpire
  (forEach coolExpire (numbers 1 s.qnu.bays.length) s).gateExpire

/-- Sweep after sweep, until one changes nothing. -/
def sweeps : Nat → State → State
  | 0, s => s
  | k + 1, s => if s.sweepOnce = s then s else sweeps k s.sweepOnce

/-- Passes after which no timer of a queue, a door or a bay is left: each of a side's tasks, waiting, pending or offered by a
confirm timer, times out twice. Round visits alone follow each other without end; the passes left over fill the notice
queue and the output queues with them, after which a further pass changes nothing (log 6). -/
def sweepBound (s : State) : Nat := 8 * s.nOv + 256

/-- While battery time is held, timers set in an event expire within it (R3; log 6). -/
def heldSweep (s : State) : State := if s.now < tMax then s else sweeps s.sweepBound s

/-- How an event ends: expiries at once while battery time is held, then the transmitters take up what they can. -/
def settle (s : State) : State := s.heldSweep.kick

end State

end Sys2Proof.Machine
end

