-- ==== Sys2Proof/Machine/Ticks.lean ====
section
/-! DEFINITION. HARD_RESET, the two ticks, INSPECTION_ACCRUAL and every timer expiry. -/

namespace Sys2Proof.Machine

open Sys2Proof

/-- HARD_RESET (R181 and each block's table): every block at its hard-reset contents; commands waiting stay waiting
(log 3). -/
def doHardReset (s : State) : State := { State.reset with pending := s.pending }

/-- CONTROL_TICK (R2, R112): the gates end, section by section. -/
def doControlTick (s : State) : State :=
  State.endSections (numbers 1 4) { s with tb.phase := (s.tb.phase + 1) % 4 }

/-- Battery time rises by 1, or is held; TIME_HELD as it reaches the maximum (R1). -/
def countSecond (s : State) : State :=
  if s.now < tMax then
    let s := { s with tb.time := s.now + 1 }
    if s.now = tMax then s.raise .timeHeld else s
  else s

/-- One second of a side's inspection round with the interval in force (R101). -/
def tickRound (i : Nat) (r : Inspection) : Inspection := { r with elapsed := min 7200 (r.elapsed + 1), interval := i }

/-- Both rounds' second (R101). -/
def tickRounds (s : State) : State :=
  { s with dru.rounds :=
      ⟨tickRound s.inspectionInterval s.dru.rounds.ps, tickRound s.inspectionInterval s.dru.rounds.cs⟩ }

/-- ONE_SECOND_TICK (R1, R101, R132). Accruals and expiries at the tick are commands of their own (log 1, 4). That
TIME_HELD comes before the held valve offers is the model's choice (log 90). -/
def doOneSecondTick (s : State) : State :=
  let s := countSecond s
  if s.inRun then State.retryHeld s.ofu.heldOffers (tickRounds s) else s

/-- INSPECTION_ACCRUAL (R101, R102), when the side's elapsed time has reached the interval of the last tick (log 4). -/
def doInspectionAccrual (d : Side) (s : State) : State :=
  if s.inRun && decide ((s.round d).interval ≤ (s.round d).elapsed) then s.accrue d else s

/-- Meaning of HARD_RESET. -/
def execHardReset (s : State) : Host.Outcome State Fault Refusal := .next (doHardReset s)

/-- Meaning of CONTROL_TICK. -/
def execControlTick (s : State) : Host.Outcome State Fault Refusal := .next (doControlTick s).settle

/-- Meaning of ONE_SECOND_TICK. At the tick that reaches the maximum, and at every later one, the timers that have
reached their times expire as part of it (R3; log 6). -/
def execOneSecondTick (s : State) : Host.Outcome State Fault Refusal := .next (doOneSecondTick s).settle

/-- Meaning of INSPECTION_ACCRUAL. -/
def execInspectionAccrual (d : Side) (s : State) : Host.Outcome State Fault Refusal :=
  .next (doInspectionAccrual d s).settle

/-- READY_EXPIRY (R13). -/
def doReadyExpiry (n : Nat) (s : State) : State := s.readyExpire n

/-- Meaning of READY_EXPIRY. -/
def execReadyExpiry (n : Nat) (s : State) : Host.Outcome State Fault Refusal := .next (doReadyExpiry n s).settle

/-- OVERDUE_EXPIRY (R17). -/
def doOverdueExpiry (n : Nat) (s : State) : State := s.overdueCheck n

/-- Meaning of OVERDUE_EXPIRY. -/
def execOverdueExpiry (n : Nat) (s : State) : Host.Outcome State Fault Refusal := .next (doOverdueExpiry n s).settle

/-- DUE_EXPIRY (R26, R27). -/
def doDueExpiry (s : State) : State := s.dueExpire

/-- Meaning of DUE_EXPIRY. -/
def execDueExpiry (s : State) : Host.Outcome State Fault Refusal := .next (doDueExpiry s).settle

/-- HOLD_OVER_EXPIRY (R27). -/
def doHoldOverExpiry (s : State) : State := s.holdOverExpire

/-- Meaning of HOLD_OVER_EXPIRY. -/
def execHoldOverExpiry (s : State) : Host.Outcome State Fault Refusal := .next (doHoldOverExpiry s).settle

/-- RANGE_STEP_END (R43, R44). -/
def doRangeStepEnd (s : State) : State :=
  match s.pln.range with
  | some r => s.rangeStep r
  | none => s

/-- Meaning of RANGE_STEP_END. -/
def execRangeStepEnd (s : State) : Host.Outcome State Fault Refusal := .next (doRangeStepEnd s).settle

/-- USE_DEADLINE_EXPIRY (R59). -/
def doUseDeadlineExpiry (m : MachineId) (s : State) : State := s.deadlineExpire m

/-- Meaning of USE_DEADLINE_EXPIRY. -/
def execUseDeadlineExpiry (m : MachineId) (s : State) : Host.Outcome State Fault Refusal := .next (doUseDeadlineExpiry m s).settle

/-- T_RAM_EXPIRY (R80). -/
def doTRamExpiry (s : State) : State := s.ramTimerExpire

/-- Meaning of T_RAM_EXPIRY. -/
def execTRamExpiry (s : State) : Host.Outcome State Fault Refusal := .next (doTRamExpiry s).settle

/-- STAGE_TIMER_EXPIRY (R81). -/
def doStageTimerExpiry (s : State) : State := s.lateTimerExpire

/-- Meaning of STAGE_TIMER_EXPIRY. -/
def execStageTimerExpiry (s : State) : Host.Outcome State Fault Refusal := .next (doStageTimerExpiry s).settle

/-- CONFIRM_EXPIRY (R92). -/
def doConfirmExpiry (n : Nat) (d : Side) (s : State) : State := s.confirmTimerExpire n d

/-- Meaning of CONFIRM_EXPIRY. -/
def execConfirmExpiry (n : Nat) (d : Side) (s : State) : Host.Outcome State Fault Refusal := .next (doConfirmExpiry n d s).settle

/-- TASK_TIMER_EXPIRY (R99). -/
def doTaskTimerExpiry (d : Side) (s : State) : State := s.taskTimerExpire d

/-- Meaning of TASK_TIMER_EXPIRY. -/
def execTaskTimerExpiry (d : Side) (s : State) : Host.Outcome State Fault Refusal := .next (doTaskTimerExpiry d s).settle

/-- ROUND_VISIT_TIMER_EXPIRY (R104). -/
def doRoundVisitTimerExpiry (d : Side) (s : State) : State := s.visitTimerExpire d

/-- Meaning of ROUND_VISIT_TIMER_EXPIRY. -/
def execRoundVisitTimerExpiry (d : Side) (s : State) : Host.Outcome State Fault Refusal := .next (doRoundVisitTimerExpiry d s).settle

/-- ISOLATE_TIMER_EXPIRY (R133). -/
def doIsolateTimerExpiry (s : State) : State := s.isolateExpire

/-- Meaning of ISOLATE_TIMER_EXPIRY. -/
def execIsolateTimerExpiry (s : State) : Host.Outcome State Fault Refusal := .next (doIsolateTimerExpiry s).settle

/-- VALVE_TASK_TIMER_EXPIRY (R136). -/
def doValveTaskTimerExpiry (s : State) : State := s.valveTimerExpire

/-- Meaning of VALVE_TASK_TIMER_EXPIRY. -/
def execValveTaskTimerExpiry (s : State) : Host.Outcome State Fault Refusal := .next (doValveTaskTimerExpiry s).settle

/-- CHARGE_TIMER_EXPIRY (R138). -/
def doChargeTimerExpiry (n : Nat) (s : State) : State := s.chargeTimerExpire n

/-- Meaning of CHARGE_TIMER_EXPIRY. -/
def execChargeTimerExpiry (n : Nat) (s : State) : Host.Outcome State Fault Refusal := .next (doChargeTimerExpiry n s).settle

/-- MOVE_TIMER_EXPIRY (R144). -/
def doMoveTimerExpiry (s : State) : State := s.moveTimerExpire

/-- Meaning of MOVE_TIMER_EXPIRY. -/
def execMoveTimerExpiry (s : State) : Host.Outcome State Fault Refusal := .next (doMoveTimerExpiry s).settle

/-- HOT_TIMER_EXPIRY (R150). -/
def doHotTimerExpiry (s : State) : State := s.hotTimerExpire

/-- Meaning of HOT_TIMER_EXPIRY. -/
def execHotTimerExpiry (s : State) : Host.Outcome State Fault Refusal := .next (doHotTimerExpiry s).settle

/-- SPRAY_TIMER_EXPIRY (R151). -/
def doSprayTimerExpiry (s : State) : State := s.sprayExpire

/-- Meaning of SPRAY_TIMER_EXPIRY. -/
def execSprayTimerExpiry (s : State) : Host.Outcome State Fault Refusal := .next (doSprayTimerExpiry s).settle

/-- DRAIN_TIMER_EXPIRY (R151, R152). -/
def doDrainTimerExpiry (s : State) : State := s.drainExpire

/-- Meaning of DRAIN_TIMER_EXPIRY. -/
def execDrainTimerExpiry (s : State) : Host.Outcome State Fault Refusal := .next (doDrainTimerExpiry s).settle

/-- COOL_TIMER_EXPIRY (R153). -/
def doCoolTimerExpiry (b : Nat) (s : State) : State := s.coolExpire b

/-- Meaning of COOL_TIMER_EXPIRY. -/
def execCoolTimerExpiry (b : Nat) (s : State) : Host.Outcome State Fault Refusal := .next (doCoolTimerExpiry b s).settle

/-- GATE_TIMER_EXPIRY (R154). -/
def doGateTimerExpiry (s : State) : State := s.gateExpire

/-- Meaning of GATE_TIMER_EXPIRY. -/
def execGateTimerExpiry (s : State) : Host.Outcome State Fault Refusal := .next (doGateTimerExpiry s).settle

end Sys2Proof.Machine
end

