-- ==== Sys2Proof/Machine/LineEvents.lean ====
section
/-! DEFINITION. Events on the links and at the terminals: silence, gaps, test characters, frames sent, input changes,
overloads, pulse edges and PWM periods (chapters 9 and 10). -/

namespace Sys2Proof.Machine

open Sys2Proof

/-- M_LINK_SILENCE_EXPIRY (R174): a running timer stops; an ONLINE link goes OFFLINE. -/
def doMLinkSilenceExpiry (m : MachineId) (s : State) : State :=
  if (s.mlink m).port.silence then
    if s.online m then s.goOffline m .silence else s.updPort (.mach m) fun p => { p with silence := false }
  else s

/-- S_LINK_SILENCE_EXPIRY (R175): a running timer stops; a PRESENT link becomes LOST. -/
def doSLinkSilenceExpiry (s : State) : State :=
  if s.lnk.sup.port.silence then
    let was := s.present
    let s := s.updPort .sup fun p => { p with up := false, silence := false }
    if was then s.raise .supervisorLost else s
  else s

/-- A link is in a link test; the S-link never is (R179). -/
def State.inTest (s : State) : LinkId → Bool
  | .sup => false
  | .mach m => (s.mlink m).test.active

/-- CHARACTER_GAP_EXPIRY (R171): a frame begun is discarded with cause GAP. -/
def doCharacterGapExpiry (l : LinkId) (s : State) : State :=
  if s.inTest l || (s.port l).rx.stage == .hunt then s
  else (s.discard l .gap).updPort l fun p => { p with rx := .hunting }

/-- TEST_CHARACTER (R180): a character on a link in test goes to the checker, when one starts (R170). -/
def doTestCharacter (m : MachineId) (wave : LineWave) (s : State) : State :=
  if (s.mlink m).test.active then
    match rxChar (s.mlink m).port.settings wave with
    | some c => s.updTest m fun t => State.judge t c
    | none => s
  else s

/-- S_LINK_FRAME_SENT (R177): the transmitter finishes its frame; the last frame of a LINK answer brings the new settings
into effect (R169). A frame half received keeps its receive assembly: the model's choice (log 69). -/
def doSLinkFrameSent (s : State) : State :=
  match s.lnk.sup.sending with
  | none => s
  | some f =>
    let s := { s with lnk.sup.sending := none, lnk.sup.line := [] }
    match f with
    | .answer _ r _ true =>
      match r.settings with
      | some v => s.updPort .sup fun p => { p with settings := v }
      | none => s
    | _ => s

/-- The transmitter of an M-link finishes the frame it is sending; its line is at rest (R178). -/
def State.endFrame (k : MLink) : MLink :=
  match k.sending with
  | none => k
  | some _ => { k with sending := none, line := [] }

/-- M_LINK_FRAME_SENT (R178): the transmitter finishes its frame. -/
def doMLinkFrameSent (m : MachineId) (s : State) : State := s.updLink m State.endFrame

/-- INPUT_LEVEL_CHANGE (R162). -/
def doInputLevelChange (t : Nat) (energised : Bool) (s : State) : State := s.inputHolds t energised

/-- TERMINAL_OVERLOAD (R166). -/
def doTerminalOverload (t : Nat) (s : State) : State := s.overload t

/-- PRESS_IN_PULSE_EDGE (R111, R162). -/
def doPressInPulseEdge (t : Nat) (s : State) : State := s.pulseEdge t

/-- DAMPER_PWM_PERIOD_START (R115). -/
def doDamperPwmPeriodStart (t : Nat) (s : State) : State := s.periodStart t

/-- Meaning of M_LINK_SILENCE_EXPIRY. -/
def execMLinkSilenceExpiry (m : MachineId) (s : State) : Host.Outcome State Fault Refusal :=
  .next (doMLinkSilenceExpiry m s).settle

/-- Meaning of S_LINK_SILENCE_EXPIRY. -/
def execSLinkSilenceExpiry (s : State) : Host.Outcome State Fault Refusal := .next (doSLinkSilenceExpiry s).settle

/-- Meaning of CHARACTER_GAP_EXPIRY. -/
def execCharacterGapExpiry (l : LinkId) (s : State) : Host.Outcome State Fault Refusal :=
  .next (doCharacterGapExpiry l s).settle

/-- Meaning of TEST_CHARACTER. -/
def execTestCharacter (m : MachineId) (wave : LineWave) (s : State) : Host.Outcome State Fault Refusal :=
  .next (doTestCharacter m wave s).settle

/-- Meaning of S_LINK_FRAME_SENT. -/
def execSLinkFrameSent (s : State) : Host.Outcome State Fault Refusal := .next (doSLinkFrameSent s).settle

/-- Meaning of M_LINK_FRAME_SENT. -/
def execMLinkFrameSent (m : MachineId) (s : State) : Host.Outcome State Fault Refusal :=
  .next (doMLinkFrameSent m s).settle

/-- Meaning of INPUT_LEVEL_CHANGE. -/
def execInputLevelChange (t : Nat) (energised : Bool) (s : State) : Host.Outcome State Fault Refusal :=
  .next (doInputLevelChange t energised s).settle

/-- Meaning of TERMINAL_OVERLOAD. -/
def execTerminalOverload (t : Nat) (s : State) : Host.Outcome State Fault Refusal := .next (doTerminalOverload t s).settle

/-- Meaning of PRESS_IN_PULSE_EDGE. -/
def execPressInPulseEdge (t : Nat) (s : State) : Host.Outcome State Fault Refusal := .next (doPressInPulseEdge t s).settle

/-- Meaning of DAMPER_PWM_PERIOD_START. -/
def execDamperPwmPeriodStart (t : Nat) (s : State) : Host.Outcome State Fault Refusal :=
  .next (doDamperPwmPeriodStart t s).settle

end Sys2Proof.Machine
end

