-- ==== Sys2Proof/Machine/Reports.lean ====
section
/-! DEFINITION. What the machines send: STATUS, the four REQUESTs and the reports (chapters 3 to 5, 7, 8). -/

namespace Sys2Proof.Machine

open Sys2Proof

namespace State

/-- A report is rejected (R50). -/
def reject (s : State) (m : MachineId) (rep : ReportName) (oven : Option Nat) : State :=
  s.raise (.reportRejected m rep oven)

/-- The side whose doors a machine works; none for CC and QC (R50). -/
def sideOf : MachineId → Option Side
  | .pm => some .ps
  | .gc => some .cs
  | _ => none

/-- A door report is from the machine of the side it names, for an oven that exists (R50). -/
def doorReportSide (s : State) (m : MachineId) (n : Nat) (side : Option Side) : Option Side :=
  match sideOf m with
  | some d => if side = some d ∧ s.ovenOk n then some d else none
  | none => none

/-- The permit kind a side's DOOR_OFF needs (R60). -/
def doorKind : Side → PermitKind
  | .ps => .doorOffPs
  | .cs => .doorOffCs

/-- The push record a covered first DOOR_OFF opens (R71). -/
def opening (s : State) (n : Nat) : PushRec where
  oven := n
  stage := .opening
  armedFrom := none
  retry := false
  attempts := 1
  doorOff := s.now
  ramStart := none
  ramEnd := none
  ramHome := none
  derivedEnd := false
  derivedHome := false
  timer := .absent
  late := false
  unconfirmed := false
  lost := []

/-- A covered DOOR_OFF (R14, R60, R71, R72). R60 gives the blocks no order: oven table and push record, door unit, planner, the
re-test and the dispatch check are the model's choice (log 90). -/
def doorOffCovered (s : State) (m : MachineId) (d : Side) (n : Nat) : State :=
  let s := s.usePermit m
  let s :=
    if s.ovenIs n .ready then
      let s := s.updOven n fun o => { o with state := .pushing }
      (((s.setPush (some (s.opening n))).doorGoesOff n d).planPushBegins n).ovenChanged n
    else s.doorGoesOff n d
  (s.retest).dispatchDoor d

/-- A DOOR_OFF that no permit covers (R65, R79, R89). -/
def doorOffBreach (s : State) (m : MachineId) (d : Side) (n : Nat) : State :=
  let held := s.permit m
  (((s.breachBegins n).doorGoesOff n d).breachEnds n m .doorOff held).dispatchDoor d

/-- An accepted DOOR_OFF (R60). -/
def takeDoorOff (s : State) (m : MachineId) (d : Side) (n : Nat) : State :=
  if s.covers m (doorKind d) n then s.doorOffCovered m d n else s.doorOffBreach m d n

/-- An accepted DOOR_ON (R89, R77, R97). That the completion test of the push comes before the dispatch check is the model's
choice (log 90). -/
def takeDoorOn (s : State) (d : Side) (n : Nat) : State :=
  match s.doorOnFact n d with
  | (s, true) => (s.completionTest).dispatchDoor d
  | (s, false) => s

/-- A covered RAM_START (R60, R74, R54). R60 and R74 give the blocks no order: that the quench unit acts before the planner, and
the re-test and the dispatch check come last, is the model's choice (log 90). -/
def ramStartCovered (s : State) (n : Nat) : State :=
  ((((((s.usePermit .pm).ramStartFact n).followRam n).planRamStart n).retest).dispatchDoor .ps)

/-- A RAM_START that no permit covers (R65, R79). -/
def ramStartBreach (s : State) (n : Nat) : State :=
  let held := s.permit .pm
  let s := (s.breachBegins n).ramStartFact n
  let s :=
    match s.ilk.push with
    | some p => if p.oven = n ∧ (p.stage = PushStage.opening ∨ p.stage = PushStage.sticker) then s.followRam n else s
    | none => s
  (s.breachEnds n .pm .ramStart held).retest

/-- RAM_START from PM is covered only with the record of the oven ARMED, as the PUSH permit has it (R73, R74). -/
def takeRamStart (s : State) (n : Nat) : State :=
  if s.covers .pm .push n then s.ramStartCovered n else s.ramStartBreach n

/-- RAM_SEQUENCE (R78). That it is raised before the re-test for the ram state is the model's choice (log 90). -/
def ramSequence (s : State) (n : Nat) (rep : ReportName) : State :=
  s.raise (.ramSequence n rep ((s.ilk.push.bind fun p => if p.oven = n then some p.stage else none)))

/-- An accepted RAM_AT_END (R50, R75, R78). -/
def takeRamAtEnd (s : State) (n : Nat) : State :=
  let s := s.writeRam .atEnd
  match s.ilk.push with
  | some p =>
    if p.oven = n ∧ (p.stage = .ramForward ∨ (p.stage = .sticker ∧ !p.retry)) then s.takeRamEnd p false
    else (s.ramSequence n .ramAtEnd).retest
  | none => (s.ramSequence n .ramAtEnd).retest

/-- An accepted RAM_HOME (R50, R76, R78). -/
def takeRamHome (s : State) (n : Nat) : State :=
  let s := s.writeRam .home
  match s.ilk.push with
  | some p =>
    if p.oven = n ∧ p.stage = .ramReturn then (s.enterClosing p false).completionTest
    else if p.oven = n ∧ p.stage = .sticker then s.retest
    else (s.ramSequence n .ramHome).retest
  | none => (s.ramSequence n .ramHome).retest

/-- An accepted CHARGE_START (R11, R60, R65). That CC's dispatch check, due as the permit leaves the table, is made once the
charge record stands is the model's choice (log 81). -/
def takeChargeStart (s : State) (n : Nat) : State :=
  if s.covers .cc .charge n then (((s.usePermit .cc).chargeFact n).retest).dispatchValve
  else
    let held := s.permit .cc
    ((s.breachBegins n).chargeFact n).breachEnds n .cc .chargeStart held

/-- DUMP_DONE from QC (R152). -/
def takeDumpDone (s : State) (b : Nat) : State :=
  match s.qnu.load with
  | some l =>
    if s.qnu.car.state = .dumping ∧ l.bay = some b then
      let s := s.setBay b (.cooling l.oven s.now (timeAdd s.now s.qnu.vals.tCool))
      let s := s.raise (.loadDumped l)
      let s := { s with qnu.load := none }
      (s.updCar fun r => { r with dump := .none }).sendOnward
    else s.raise (.dumpSequence b s.qnu.car.state)
  | none => s.raise (.dumpSequence b s.qnu.car.state)

end State

/-! ## The commands -/

/-- STATUS (R48). -/
def doStatus (sender : StatusFrom) (mode : Mode) (motion : Motion) (spot : ReportedSpot) (s : State) : State :=
  State.machineFrame sender.machine (fun s => s.takeStatus sender mode motion spot) s

/-- A REQUEST (R52) of any kind, its kind code known or not. -/
def doRequest (m : MachineId) (k : ReqKind) (n : Nat) (s : State) : State :=
  State.machineFrame m (fun s => s.decideRequest m k n) s

/-- DOOR_OFF (R50, R60). -/
def doDoorOff (m : MachineId) (n : Nat) (side : Option Side) (s : State) : State :=
  State.machineFrame m (fun s =>
    match s.doorReportSide m n side with
    | some d => s.takeDoorOff m d n
    | none => s.reject m .doorOff (some n)) s

/-- DOOR_ON (R50, R89). -/
def doDoorOn (m : MachineId) (n : Nat) (side : Option Side) (s : State) : State :=
  State.machineFrame m (fun s =>
    match s.doorReportSide m n side with
    | some d => s.takeDoorOn d n
    | none => s.reject m .doorOn (some n)) s

/-- DOOR_TIGHT (R50, R89). -/
def doDoorTight (m : MachineId) (n : Nat) (side : Option Side) (s : State) : State :=
  State.machineFrame m (fun s =>
    match s.doorReportSide m n side with
    | some d => s.doorTightFact n d
    | none => s.reject m .doorTight (some n)) s

/-- RAM_START (R50, R74). -/
def doRamStart (m : MachineId) (n : Nat) (s : State) : State :=
  State.machineFrame m (fun s =>
    if m = .pm ∧ s.ovenOk n then s.takeRamStart n else s.reject m .ramStart (some n)) s

/-- RAM_AT_END (R50, R75). -/
def doRamAtEnd (m : MachineId) (n : Nat) (s : State) : State :=
  State.machineFrame m (fun s =>
    if m = .pm ∧ s.ovenOk n then s.takeRamAtEnd n else s.reject m .ramAtEnd (some n)) s

/-- RAM_HOME (R50, R76). -/
def doRamHome (m : MachineId) (n : Nat) (s : State) : State :=
  State.machineFrame m (fun s =>
    if m = .pm ∧ s.ovenOk n then s.takeRamHome n else s.reject m .ramHome (some n)) s

/-- CHARGE_START (R50, R11). -/
def doChargeStart (m : MachineId) (n : Nat) (s : State) : State :=
  State.machineFrame m (fun s =>
    if m = .cc ∧ s.ovenOk n then s.takeChargeStart n else s.reject m .chargeStart (some n)) s

/-- CHARGE_END (R50, R12). -/
def doChargeEnd (m : MachineId) (n : Nat) (s : State) : State :=
  State.machineFrame m (fun s =>
    if m = .cc ∧ s.ovenOk n then s.chargeEndFact n else s.reject m .chargeEnd (some n)) s

/-- VALVE (R50, R129): a state other than OPEN, CLOSED or ASPIRATING is rejected. -/
def doValve (m : MachineId) (n : Nat) (v : Option ValveState) (s : State) : State :=
  State.machineFrame m (fun s =>
    if m = .cc ∧ s.ovenOk n then
      match v with
      | some .unknown => s.reject m .valve (some n)
      | some v => s.valveReport n v
      | none => s.reject m .valve (some n)
    else s.reject m .valve (some n)) s

/-- LEAK_SEEN (R90; log 26). -/
def doLeakSeen (m : MachineId) (n : Nat) (side : Option Side) (s : State) : State :=
  State.machineFrame m (fun s =>
    match s.doorReportSide m n side with
    | some d => s.leakAt n d
    | none => s.reject m .leakSeen (some n)) s

/-- TASK_DONE from PM, GC or QC (R98; log 26). -/
def doTaskDone (m : TaskSender) (n : Nat) (k : TaskKind) (r : TaskResult) (s : State) : State :=
  State.machineFrame m.machine (fun s =>
    match m with
    | .pm => s.taskDoneOp .ps n k r
    | .gc => s.taskDoneOp .cs n k r
    | .qc => s.reject .qc .taskDone (some n)) s

/-- TASK_DONE from CC (R135). -/
def doCcTaskDone (n : Nat) (a : ValveAction) (r : ValveResult) (s : State) : State :=
  State.machineFrame .cc (fun s => s.ccDone n a r) s

/-- DUMP_DONE (R152). -/
def doDumpDone (m : MachineId) (b : Nat) (s : State) : State :=
  State.machineFrame m (fun s => if m = .qc then s.takeDumpDone b else s.reject m .dumpDone none) s

/-! ## Their meanings -/

/-- Meaning of STATUS. -/
def execStatus (sender : StatusFrom) (mode : Mode) (motion : Motion) (spot : ReportedSpot) (s : State) :
    Host.Outcome State Fault Refusal := .next (doStatus sender mode motion spot s).settle

/-- Meaning of REQUEST_DOOR_OFF_PS. -/
def execRequestDoorOffPs (m : MachineId) (n : Nat) (s : State) : Host.Outcome State Fault Refusal :=
  .next (doRequest m (.known .doorOffPs) n s).settle

/-- Meaning of REQUEST_DOOR_OFF_CS. -/
def execRequestDoorOffCs (m : MachineId) (n : Nat) (s : State) : Host.Outcome State Fault Refusal :=
  .next (doRequest m (.known .doorOffCs) n s).settle

/-- Meaning of REQUEST_PUSH. -/
def execRequestPush (m : MachineId) (n : Nat) (s : State) : Host.Outcome State Fault Refusal :=
  .next (doRequest m (.known .push) n s).settle

/-- Meaning of REQUEST_CHARGE. -/
def execRequestCharge (m : MachineId) (n : Nat) (s : State) : Host.Outcome State Fault Refusal :=
  .next (doRequest m (.known .charge) n s).settle

/-- Meaning of DOOR_OFF. -/
def execDoorOff (m : MachineId) (n : Nat) (side : Option Side) (s : State) : Host.Outcome State Fault Refusal :=
  .next (doDoorOff m n side s).settle

/-- Meaning of DOOR_ON. -/
def execDoorOn (m : MachineId) (n : Nat) (side : Option Side) (s : State) : Host.Outcome State Fault Refusal :=
  .next (doDoorOn m n side s).settle

/-- Meaning of DOOR_TIGHT. -/
def execDoorTight (m : MachineId) (n : Nat) (side : Option Side) (s : State) : Host.Outcome State Fault Refusal :=
  .next (doDoorTight m n side s).settle

/-- Meaning of RAM_START. -/
def execRamStart (m : MachineId) (n : Nat) (s : State) : Host.Outcome State Fault Refusal :=
  .next (doRamStart m n s).settle

/-- Meaning of RAM_AT_END. -/
def execRamAtEnd (m : MachineId) (n : Nat) (s : State) : Host.Outcome State Fault Refusal :=
  .next (doRamAtEnd m n s).settle

/-- Meaning of RAM_HOME. -/
def execRamHome (m : MachineId) (n : Nat) (s : State) : Host.Outcome State Fault Refusal :=
  .next (doRamHome m n s).settle

/-- Meaning of CHARGE_START. -/
def execChargeStart (m : MachineId) (n : Nat) (s : State) : Host.Outcome State Fault Refusal :=
  .next (doChargeStart m n s).settle

/-- Meaning of CHARGE_END. -/
def execChargeEnd (m : MachineId) (n : Nat) (s : State) : Host.Outcome State Fault Refusal :=
  .next (doChargeEnd m n s).settle

/-- Meaning of VALVE. -/
def execValve (m : MachineId) (n : Nat) (v : Option ValveState) (s : State) : Host.Outcome State Fault Refusal :=
  .next (doValve m n v s).settle

/-- Meaning of LEAK_SEEN. -/
def execLeakSeen (m : MachineId) (n : Nat) (side : Option Side) (s : State) : Host.Outcome State Fault Refusal :=
  .next (doLeakSeen m n side s).settle

/-- Meaning of TASK_DONE. -/
def execTaskDone (m : TaskSender) (n : Nat) (k : TaskKind) (r : TaskResult) (s : State) :
    Host.Outcome State Fault Refusal := .next (doTaskDone m n k r s).settle

/-- Meaning of CC_TASK_DONE. -/
def execCcTaskDone (n : Nat) (a : ValveAction) (r : ValveResult) (s : State) : Host.Outcome State Fault Refusal :=
  .next (doCcTaskDone n a r s).settle

/-- Meaning of DUMP_DONE. -/
def execDumpDone (m : MachineId) (b : Nat) (s : State) : Host.Outcome State Fault Refusal :=
  .next (doDumpDone m b s).settle

end Sys2Proof.Machine
end

