-- ==== Sys2Proof/Machine/Setup.lean ====
section
/-! DEFINITION. The setup blocks: the common tests (R181) and what each block sets (chapter 11 and the owning rules). -/

namespace Sys2Proof.Machine

open Sys2Proof

namespace State

/-- The tests ORDER and STATE of R181 for a block other than BATTERY; `configOnly` marks a block taken in CONFIG only. -/
def setupTest (s : State) (configOnly : Bool) : Option ResultCode :=
  if !s.cfg.loaded.battery then some .order
  else if configOnly && s.inRun then some .state
  else none

/-- Change the loaded-block record (R181). -/
def load (s : State) (f : Loaded → Loaded) : State := { s with cfg.loaded := f s.cfg.loaded }

/-- A number enters a list of the loaded-block record once. -/
def enter {α : Type} [DecidableEq α] (a : α) (l : List α) : List α := if l.contains a then l else l ++ [a]

/-- A setup block other than BATTERY: the common tests, then RANGE, then the block's own part (R181). -/
def setup (configOnly rangeOk : Bool) (take : State → State × Reply) (s : State) : State × Reply :=
  match s.setupTest configOnly with
  | some c => s.refuse c
  | none => if rangeOk then take s else s.refuse .range

/-- Taken, answered OK. -/
def ok (s : State) : State × Reply := (s, .code .ok)

/-! ## BATTERY (R7, R8, R88, R108, R128, R182) -/

/-- The tables of the new battery: ovens, doors, valves, sections; the last spot becomes absent (R141; log 21). -/
def newTables (nOv k : Nat) (lasts : List Nat) (s : State) : State :=
  let s := { s with
    ot := (numbers 1 nOv).map fun n => .fresh (sectionFrom 1 n lasts)
    dru.doors := List.replicate nOv ⟨.fresh, .fresh⟩ }
  let s := { s with
    ofu.sections := List.replicate k .fresh
    ofu.valves := List.replicate nOv .fresh }
  s.updCar fun r => { r with lastSpot := none }

/-- The inspection round a repeated BATTERY gives a side (R106). -/
def reloadRound (r : Inspection) : Inspection := { r with debt := 0, pointer := 1, elapsed := 0, saturated := false }

/-- A machine's record at a repeated BATTERY (R182). -/
def reloadMachine (r : MachineRec) : MachineRec :=
  { r with position := r.position.map fun _ => .travel, invalidPos := false }

/-- The quench unit at a repeated BATTERY (R156). -/
def reloadQuench (now : Nat) (q : QuenchUnit) : QuenchUnit :=
  { q with car := .fresh, blocked := [], phase := none, load := none, bays := List.replicate 6 (.free now),
           free := [1, 2, 3, 4, 5, 6], discharge := [], vals := wharfDefaults }

/-- What a repeated BATTERY discards (R182). -/
def reload (s : State) : State :=
  { s with
    pln := { s.pln with active := seriesDefaults, staged := seriesDefaults, stagedStart := none, mark := false }
    ilk := { s.ilk with
      lastRam := none
      machines := ⟨reloadMachine s.ilk.machines.pm, reloadMachine s.ilk.machines.gc, reloadMachine s.ilk.machines.cc,
        reloadMachine s.ilk.machines.qc⟩ }
    dru := { s.dru with rounds := ⟨reloadRound s.dru.rounds.ps, reloadRound s.dru.rounds.cs⟩, vals := doorDefaults }
    qnu := reloadQuench s.now s.qnu
    cfg := { s.cfg with
      timing := timingDefaults
      loaded := { Loaded.empty with terminals := s.cfg.loaded.terminals, links := s.cfg.loaded.links } } }

/-- BATTERY taken (R182). -/
def takeBattery (nOv k : Nat) (lasts : List Nat) (s : State) : State :=
  let s := if s.cfg.loaded.battery then s.reload else s
  (newTables nOv k lasts s).load fun l => { l with battery := true }

/-! ## The other blocks -/

/-- SERIES taken (R22). -/
def takeSeries (p : SeriesParams) (start : Option Time32) (s : State) : State :=
  let s := s.updPlan fun q => { q with
    active := if s.inRun then q.active else p, staged := p, stagedStart := start.map BitVec.toNat, mark := false }
  s.load fun l => { l with series := true }

/-- TIMING taken (R19, R58, R133). R181 and the rules of the blocks do not order what it does in RUN: that the sweep of the
ovens comes first, then the isolate timer is moved, with the ISOLATE offer of a time already reached, and the permits are
re-tested last is the model's choice (log 55). -/
def takeTiming (v : Timing) (s : State) : State :=
  let old := s.cfg.timing
  let s := { s with cfg.timing := v }
  let s := s.load fun l => { l with timing := true }
  if s.inRun then
    let s := if old.w = v.w ∧ old.l = v.l then s else s.readySweep
    let s :=
      match s.ofu.iso, s.pln.reported with
      | some _, some (o, due) => if old.lIso = v.lIso then s else s.setIsolate o (due - v.lIso)
      | _, _ => s
    s.retest
  else s

/-- PRESSURE taken (R109, R110). -/
def takePressure (k : Nat) (p : PressureParams) (s : State) : State :=
  (s.updSec k fun r => { r with
    params := some p, live := r.live.map fun (v : SecLive) => { v with counters := .zero } }).load fun l =>
    { l with pressure := enter k l.pressure }

/-- Every bay is FREE (R156). -/
def allFree (s : State) : Bool :=
  s.qnu.bays.all fun b =>
    match b with
    | .free _ => true
    | _ => false

/-- WHARF taken, or BUSY (R156). -/
def takeWharf (v : WharfVals) (s : State) : State × Reply :=
  let entered (s : State) : State × Reply := (s.load fun l => { l with wharf := true }).ok
  if v.bays = s.qnu.bays.length then entered { s with qnu.vals := v }
  else if s.allFree then
    entered { s with qnu := { s.qnu with
      vals := v, bays := List.replicate v.bays (.free s.now), free := numbers 1 v.bays, discharge := [] } }
  else s.refuse .busy

/-- DOORS taken (R105). -/
def takeDoors (v : DoorVals) (s : State) : State :=
  let s := { s with dru.vals := v }
  s.load fun l => { l with doors := true }

/-- TERMINAL taken, or DUPLICATE (R161). -/
def takeTerminal (t : Nat) (fn : TermFn) (invert : Bool) (drive : Drive) (edge : Edge) (s : State) : State × Reply :=
  if !(TermFn.shared fn) && s.standsElsewhere fn t then s.refuse .duplicate
  else
    match s.term t with
    | none => s.refuse .range
    | some r => ((s.assignTerminal t r fn invert drive edge).load fun l => { l with terminals := enter t l.terminals }).ok

/-- LINK taken, or BUSY (R169). -/
def takeLink (l : LinkId) (v : LineSettings) (s : State) : State × Reply :=
  let entered (s : State) : State := s.load fun x => { x with links := enter l x.links }
  match l with
  | .sup => (entered s, { result := .ok, data := .nothing, settings := some v })
  | .mach m =>
    if (s.mlink m).test.active then s.refuse .busy
    else
      (entered (s.updLink m fun k =>
        { k with sending := none, line := [], port := { k.port with settings := v, rx := .hunting } })).ok

/-- The door record OVEN_LOAD sets (R88). -/
def loadedDoor (threshold : Nat) (st : Option DoorState) : DoorRec :=
  let leaking := st == some .leaking
  { state := st.getD .tight
    lastConfirmed := none
    leaks := if leaking then 1 else 0
    cleanDue := leaking && decide (threshold ≤ 1)
    resealPending := false
    confirm := none }

/-- A cleaning flag that OVEN_LOAD sets raises CLEAN_DUE (R88, R90; log 22). -/
def loadNotice (s : State) (n : Nat) (d : Side) : State :=
  if (s.door n d).map DoorRec.cleanDue = some true then s.raise (.cleanDue n d) else s

/-- OVEN_LOAD taken (R20, R88, R128). That CLEAN_DUE of the PS door is raised before that of the CS door is the model's choice
(log 78). -/
def takeOvenLoad (v : OvenLoad) (s : State) : State :=
  let s := s.updOven v.oven fun o => { o with
    state := v.state, chargeEnd := v.chargeEnd.map BitVec.toNat, target := v.target, mode := v.mode,
    fixedPush := v.fixedPush.map BitVec.toNat, breach := false, overdue := false, stickers := 0 }
  let th := s.dru.vals.cleanThreshold
  let s := (s.updDoor v.oven .ps fun _ => loadedDoor th v.doorPs).updDoor v.oven .cs fun _ => loadedDoor th v.doorCs
  let s := { s with ofu.valves := upd1 (fun _ => ⟨v.valve.getD .unknown, none⟩) v.oven s.ofu.valves }
  ((s.loadNotice v.oven .ps).loadNotice v.oven .cs).load fun l => { l with ovens := enter v.oven l.ovens }

end State

/-! ## The commands -/

/-- BATTERY (R7, R8, R181, R182). -/
def doBattery (tag : Byte) (nOv k : Nat) (lasts : List Nat) (s : State) : State :=
  State.request tag (fun s =>
    if s.inRun then s.refuse .state
    else if batteryOk nOv k lasts then (State.takeBattery nOv k lasts s).ok
    else s.refuse .range) s

/-- SERIES (R22, R181). -/
def doSeries (tag : Byte) (p : SeriesParams) (start : Option Time32) (s : State) : State :=
  State.request tag (State.setup false (seriesOk p) fun s => (State.takeSeries p start s).ok) s

/-- TIMING (R181). -/
def doTiming (tag : Byte) (v : Timing) (s : State) : State :=
  State.request tag (State.setup false (timingOk v) fun s => (State.takeTiming v s).ok) s

/-- PRESSURE (R109, R181). -/
def doPressure (tag : Byte) (k : Nat) (p : PressureParams) (s : State) : State :=
  State.request tag (State.setup false (pressureOk p) fun s =>
    if within 1 s.nSec k then (State.takePressure k p s).ok else s.refuse .range) s

/-- WHARF (R156, R181). -/
def doWharf (tag : Byte) (v : WharfVals) (s : State) : State :=
  State.request tag (State.setup true (wharfOk v) (State.takeWharf v)) s

/-- DOORS (R91, R105, R181). -/
def doDoors (tag : Byte) (v : DoorVals) (s : State) : State :=
  State.request tag (State.setup false (doorsOk v) fun s => (State.takeDoors v s).ok) s

/-- TERMINAL (R161, R181). -/
def doTerminal (tag : Byte) (t : Nat) (fn : TermFn) (invert : Bool) (drive : Drive) (edge : Edge) (s : State) : State :=
  State.request tag (State.setup true (terminalOk t fn drive) (State.takeTerminal t fn invert drive edge)) s

/-- LINK (R169, R181). -/
def doLink (tag : Byte) (l : LinkId) (v : LineSettings) (s : State) : State :=
  State.request tag (State.setup true (linkOk l v) (State.takeLink l v)) s

/-- OVEN_LOAD (R20, R181). -/
def doOvenLoad (tag : Byte) (v : OvenLoad) (s : State) : State :=
  State.request tag (State.setup true true fun s =>
    if ovenLoadOk s v then (State.takeOvenLoad v s).ok else s.refuse .range) s

/-! ## Their meanings -/

/-- Meaning of BATTERY. -/
def execBattery (tag : Byte) (nOv k : Nat) (lasts : List Nat) (s : State) : Host.Outcome State Fault Refusal :=
  .next (doBattery tag nOv k lasts s).settle

/-- Meaning of SERIES. -/
def execSeries (tag : Byte) (p : SeriesParams) (start : Option Time32) (s : State) : Host.Outcome State Fault Refusal :=
  .next (doSeries tag p start s).settle

/-- Meaning of TIMING. -/
def execTiming (tag : Byte) (v : Timing) (s : State) : Host.Outcome State Fault Refusal := .next (doTiming tag v s).settle

/-- Meaning of PRESSURE. -/
def execPressure (tag : Byte) (k : Nat) (p : PressureParams) (s : State) : Host.Outcome State Fault Refusal :=
  .next (doPressure tag k p s).settle

/-- Meaning of WHARF. -/
def execWharf (tag : Byte) (v : WharfVals) (s : State) : Host.Outcome State Fault Refusal := .next (doWharf tag v s).settle

/-- Meaning of DOORS. -/
def execDoors (tag : Byte) (v : DoorVals) (s : State) : Host.Outcome State Fault Refusal := .next (doDoors tag v s).settle

/-- Meaning of TERMINAL. -/
def execTerminal (tag : Byte) (t : Nat) (fn : TermFn) (invert : Bool) (drive : Drive) (edge : Edge) (s : State) :
    Host.Outcome State Fault Refusal := .next (doTerminal tag t fn invert drive edge s).settle

/-- Meaning of LINK. -/
def execLink (tag : Byte) (l : LinkId) (v : LineSettings) (s : State) : Host.Outcome State Fault Refusal :=
  .next (doLink tag l v s).settle

/-- Meaning of OVEN_LOAD. -/
def execOvenLoad (tag : Byte) (v : OvenLoad) (s : State) : Host.Outcome State Fault Refusal :=
  .next (doOvenLoad tag v s).settle

end Sys2Proof.Machine
end

