-- ==== Sys2Proof/Machine/Commands.lean ====
section
/-! DEFINITION. The supervisor's commands: the oven table, the plan, make-up list and range operation, breach, push, leak,
pressure, track, outputs, links and the link test. -/

namespace Sys2Proof.Machine

open Sys2Proof

namespace State

/-- A command taken in RUN only (R32 to R38, R42, R44, R82, R83, R90). -/
def runOnly (take : State → State × Reply) (s : State) : State × Reply := if s.inRun then take s else s.refuse .state

/-- A command naming an oven of the table (R7). -/
def forOven (n : Nat) (take : State → State × Reply) (s : State) : State × Reply :=
  if s.ovenOk n then take s else s.refuse .range

/-- A command naming a section 1..K. -/
def forSection (k : Nat) (take : State → State × Reply) (s : State) : State × Reply :=
  if within 1 s.nSec k then take s else s.refuse .range

/-! ## Time base and oven table -/

/-- SET_TIME (R5). -/
def setTimeOp (t : Time32) (s : State) : State × Reply :=
  if !s.inRun && s.tb.timeOpen then
    let s := { s with tb.time := t.toNat }
    (if t.toNat = tMax then s.raise .timeHeld else s).ok
  else s.refuse .state

/-- Write an oven's state and report it (R10). -/
def moveOven (s : State) (n : Nat) (st : OvenState) : State :=
  (s.updOven n fun o => { o with state := st }).ovenChanged n

/-- OVEN_SERVICE (R10). -/
def ovenServiceOp (n : Nat) (dir : ServiceDir) (s : State) : State × Reply :=
  match dir with
  | .intoService => if s.ovenIs n .out then (s.moveOven n .empty).ok else s.refuse .ovenState
  | .outOfService => if s.ovenIs n .empty then (s.moveOven n .out).ok else s.refuse .ovenState

/-- SET_TARGET (R18). That the oven's change of state is reported to the planner and the interlock unit before OVEN_OVERDUE of
the same event is raised is the model's choice (log 90). -/
def setTargetOp (n target : Nat) (s : State) : State × Reply :=
  let g := clampNat 600 2400 target
  let s := s.updOven n fun o => { o with target := g }
  let s := if s.inRun then (s.evalReady n).overdueCheck n else s
  (s, .okWith (.target g))

/-! ## Planner -/

/-- MAKEUP (R32). -/
def makeupOp (n : Nat) (s : State) : State × Reply :=
  if s.pln.makeup.any fun e => e.oven == n then s.refuse .duplicate
  else if !(s.ovenIs n .coking) && !(s.ovenIs n .ready) then s.refuse .ovenState
  else if 8 ≤ s.pln.makeup.length then s.refuse .full
  else ((s.updPlan fun q => { q with makeup := q.makeup ++ [⟨n, s.now⟩] }).makeupCheck.planReport).ok

/-- The make-up entry of an oven is serving. -/
def makeupServing (s : State) (n : Nat) : Bool :=
  match s.pln.serving with
  | some (.makeup o _) => o == n
  | _ => false

/-- CANCEL_MAKEUP (R34). -/
def cancelMakeupOp (n : Nat) (s : State) : State × Reply :=
  if !(s.pln.makeup.any fun e => e.oven == n) then s.refuse .notFound
  else if s.makeupServing n then
    if s.ovenIs n .pushing then s.refuse .busy else (s.dropMakeup n).releaseServing.planUpdate.ok
  else (s.dropMakeup n).ok

/-- The slot count of the round kept. -/
def slotCount (s : State) : Nat := (s.pln.round.map fun r => r.slots.length).getD 0

/-- PLAN_START (R35). -/
def planStartOp (start : Option Time32) (s : State) : State × Reply :=
  if s.pln.state = .idle then
    let at0 := max s.now ((start.map BitVec.toNat).getD 0)
    let s := (s.updPlan fun q => { q with lag := 0 }).build s.pln.active at0 0 false .running
    let count := s.slotCount
    (s.planUpdate, .okWith (.slotCount count))
  else s.refuse .planState

/-- PLAN_HALT (R36). -/
def planHaltOp (s : State) : State × Reply := if s.pln.state = .running then s.planHalt.ok else s.refuse .planState

/-- PLAN_RESUME (R37). -/
def planResumeReq (s : State) : State × Reply :=
  if s.pln.state = .halted then s.planResumeOp.ok else s.refuse .planState

/-- PLAN_STAGE (R38). -/
def planStageOp (s : State) : State × Reply := (s.updPlan fun q => { q with mark := true }).ok

/-- SET_MODE (R41). -/
def setModeOp (n : Nat) (mode : SlotMode) (fixedPush : Option Time32) (s : State) : State × Reply :=
  if !(fixedOk mode fixedPush) then s.refuse .range
  else if s.ovenIs n .pushing then s.refuse .ovenState
  else (s.writeMode n mode (fixedPush.map BitVec.toNat)).ok

/-- The number of ovens a run visits (R42). -/
def runLength (nOv first last : Nat) : Nat := if first ≤ last then last - first + 1 else nOv - first + 1 + last

/-- SET_MODE_RANGE (R42): a mode outside the four is `none`. -/
def setModeRangeOp (first last : Nat) (mode : Option SlotMode) (fixedPush : Option Time32) (s : State) :
    State × Reply :=
  match mode with
  | none => s.refuse .range
  | some mode =>
    if !(s.ovenOk first) || !(s.ovenOk last) || !(fixedOk mode fixedPush) then s.refuse .range
    else if s.pln.range.isSome then s.refuse .busy
    else
      let n := runLength s.nOv first last
      (s.updPlan fun q => { q with
        range := some ⟨first, last, mode, fixedPush.map BitVec.toNat, first, n, 0, 0, false⟩ },
        .okWith (.ovensToVisit n))

/-- RANGE_ABORT (R44). -/
def rangeAbortOp (s : State) : State × Reply :=
  match s.pln.range with
  | some r => (s.updPlan fun q => { q with range := some { r with abort := true } }).ok
  | none => s.refuse .notFound

/-! ## Interlock unit -/

/-- CLEAR_BREACH (R67, R64). -/
def clearBreachOp (n : Nat) (s : State) : State × Reply :=
  if (s.oven n).map OvenRec.breach ≠ some true then s.refuse .notFound
  else if s.anyDoorOff n then s.refuse .doors
  else ((s.updOven n fun o => { o with breach := false }).holdEnds .breach).ok

/-- PUSH_RETRY (R82). -/
def pushRetryOp (n : Nat) (s : State) : State × Reply :=
  match s.ilk.push with
  | none => s.refuse .notFound
  | some p =>
    if p.oven ≠ n then s.refuse .notFound
    else if p.stage ≠ .sticker ∨ p.retry then s.refuse .ovenState
    else if p.attempts = 3 then s.refuse .attempts
    else if !(s.online .pm) || !(s.ram == some .home) then s.refuse .ramNotHome
    else
      ((s.setPush (some { p with attempts := p.attempts + 1, retry := true })).retest,
        .okWith (.attempts (p.attempts + 1)))

/-- An oven in PUSHING returns to READY (R16). -/
def backToReady (o : OvenRec) : OvenRec := if o.state = .pushing then { o with state := .ready } else o

/-- The push is abandoned (R83, R16). That the oven's change of state is reported after the planner's step 3 and before the
record's removal is the model's choice (log 90). -/
def abandonPush (s : State) (p : PushRec) : State :=
  let s := s.raise (.pushAbandoned p.oven p.attempts ((s.oven p.oven).map OvenRec.stickers |>.getD 0) p.doorOff
    p.ramStart)
  let s := ((s.updOven p.oven backToReady).evalReadyRaw p.oven).overdueCheck p.oven
  let s := (s.planAbandon p.oven).ovenChanged p.oven
  s.pushRemoved p.oven

/-- ABANDON (R83). -/
def abandonOp (n : Nat) (s : State) : State × Reply :=
  match s.ilk.push with
  | none => s.refuse .notFound
  | some p =>
    if p.oven ≠ n then s.refuse .notFound
    else if p.stage ≠ .sticker then s.refuse .ovenState
    else if s.anyDoorOff n then s.refuse .doors
    else (s.abandonPush p).ok

/-! ## Door unit -/

/-- LEAK_REPORT (R90): an unknown side is `none`. -/
def leakReportOp (n : Nat) (side : Option Side) (s : State) : State × Reply :=
  match side with
  | none => s.refuse .range
  | some d =>
    if !(s.ovenOk n) then s.refuse .range
    else if s.doorState n d = some .off then s.refuse .doors
    else (s.leakAt n d).ok

/-! ## Offtake unit -/

/-- SET_DAMPER (R119). -/
def setDamperOp (k value : Nat) (s : State) : State × Reply :=
  match (s.sec k).bind SecRec.live with
  | none => s.refuse .state
  | some v =>
    let u : Int := min 1000 value
    (s.updSec k fun r => { r with live := some { v with mode := .manual, transfer := none, uOut := u } },
      .okWith (.damper u))

/-- The mode and transfer pending flag after SET_AUTO (R120); in MANUAL the flag was absent. -/
def autoMode (fault : Bool) (v : SecLive) : SecLive :=
  match v.mode with
  | .manual => if fault then { v with mode := .hold .fault } else { v with mode := .auto, transfer := some true }
  | _ => v

/-- SET_AUTO (R120); STATE in RUN for a section that is not active (log 57). -/
def setAutoOp (k : Nat) (s : State) : State × Reply :=
  if !s.inRun then s.refuse .state
  else
    match s.sec k with
    | none => s.refuse .range
    | some r =>
      match r.live with
      | none => s.refuse .state
      | some v =>
        let v := autoMode r.sensorFault v
        (s.updSec k fun r => { r with live := some v }, .okWith (.secMode v.mode))

/-- SET_SETPOINT (R121). -/
def setSetpointOp (k : Nat) (value : Int) (s : State) : State × Reply :=
  match (s.sec k).bind SecRec.params with
  | none => s.refuse .notFound
  | some p =>
    let sp := clampSetpoint p value
    (s.updSec k fun r => { r with params := some { p with setpoint := sp } }, .okWith (.setpoint sp))

/-! ## Quench unit -/

/-- The run of track spots two operands name, or nothing when it is refused RANGE (R142). -/
def trackRange (s : State) (first last : Option TrackSpot) : Option (List TrackSpot) :=
  match first, last with
  | some a, some b =>
    if trackSpotOk s.nOv a && trackSpotOk s.nOv b && decide (trackPos s.nOv a ≤ trackPos s.nOv b) then
      some (trackRun s.nOv (trackPos s.nOv a) (trackPos s.nOv b))
    else none
  | _, _ => none

/-- TRACK_BLOCKED in motion when a new block lies over an issued move (R142). -/
def blockedInMotion (s : State) (run : List TrackSpot) : State :=
  match s.qnu.car.move, s.qnu.car.state.dest with
  | .issued _ _, some dest =>
    if (s.blockedOn dest).any run.contains then s.raise (.trackBlocked true dest (s.blockedOn dest)) else s
  | _, _ => s

/-- TRACK_BLOCK (R142). That the blocked set, which the QUENCH query answers, is listed in the order in which its spots were
blocked, those of one command in track-row order, is the model's choice (log 80). -/
def trackBlockOp (first last : Option TrackSpot) (s : State) : State × Reply :=
  match s.trackRange first last with
  | none => s.refuse .range
  | some run =>
    let blocked := s.qnu.blocked ++ run.filter fun p => !(s.qnu.blocked.contains p)
    (({ s with qnu.blocked := blocked }).blockedInMotion run).ok

/-- TRACK_FREE (R142, R143). -/
def trackFreeOp (first last : Option TrackSpot) (s : State) : State × Reply :=
  match s.trackRange first last with
  | none => s.refuse .range
  | some run => (({ s with qnu.blocked := s.qnu.blocked.filter fun p => !(run.contains p) }).testMove).ok

/-! ## Terminal block -/

/-- Write the output level of an OUTPUT terminal (R165). -/
def writeOutput (t : Nat) (f : Bool → Bool) (s : State) : State × Reply :=
  match s.term t with
  | none => s.refuse .range
  | some r =>
    if r.fn = .output then
      (s.updTerm t fun x => { x with out := f r.out }, .okWith (.output (f r.out) r.fault))
    else s.refuse .function

/-- SET_OUTPUT (R165): a level other than on or off is `none`. -/
def setOutputOp (t : Nat) (level : Option Bool) (s : State) : State × Reply :=
  match level with
  | none => s.refuse .range
  | some l => writeOutput t (fun _ => l) s

/-- CLEAR_TERMINAL (R166). -/
def clearTerminalOp (t : Nat) (s : State) : State × Reply :=
  match s.term t with
  | none => s.refuse .range
  | some r => if r.fault then (s.updTerm t fun x => { x with fault := false }).ok else s.refuse .notFound

/-! ## Link ports -/

/-- LINK_CLEAR (R172): an unknown link is `none`. -/
def linkClearOp (l : Option LinkId) (s : State) : State × Reply :=
  match l with
  | none => s.refuse .range
  | some l => (s.updPort l fun p => { p with errors := 0, lastCause := none }).ok

/-- A command naming an M-link: RANGE for the S-link or an unknown link (R179, R180). -/
def forMLink (l : Option LinkId) (take : MachineId → State → State × Reply) (s : State) : State × Reply :=
  match l with
  | some (.mach m) => take m s
  | _ => s.refuse .range

/-! ## COMMIT and RESTART -/

/-- The required blocks that are missing (R183). -/
def missingBlocks (s : State) : List MissingBlock :=
  (if s.cfg.loaded.battery then [] else [.battery])
    ++ ((numbers 1 s.nSec).filter fun k => !(s.cfg.loaded.pressure.contains k)).map .pressure

/-- The functions required at COMMIT, in the order of R167's list, each for all its numbers: the model's choice of the order in
which COMMIT lists those that stand on no terminal (log 80). -/
def requiredFns (s : State) : List TermFn :=
  (numbers 1 s.nSec).map .pressIn ++ (numbers 1 s.nSec).map .damperPwm ++ [.sprayOut]
    ++ (numbers 1 s.qnu.bays.length).map .gateOut ++ [.conveyorRunIn, .batteryStopIn]

/-- The required functions that stand on no terminal (R167). -/
def missingFns (s : State) : List TermFn := s.requiredFns.filter fun f => !(s.assigned f)

/-- The entry into RUN, each block in the order of R184; the door unit does its steps for PS, then for CS (log 51). -/
def enterRun (s : State) : State :=
  let s := { s with cfg.part := .run }
  let s := (s.raise (.partState .run .commit))
  let s := { s with tb.timeOpen := false }
  let s := s.readySweep
  let s := if s.hold then s else s.sendClears .config
  let s := (s.commitDoors .ps).commitDoors .cs
  let s := s.activateSections.retest.commitValves
  (s.leaveUnknown.testMove).testDump

/-- COMMIT (R183, R184). -/
def commitOp (s : State) : State × Reply :=
  if s.inRun then s.refuse .state
  else if s.missingBlocks.isEmpty && s.missingFns.isEmpty then s.enterRun.ok
  else (s, { result := .missing, data := .missing s.missingBlocks s.missingFns, settings := none })

/-- The car states that obstruct a RESTART (R185). -/
def carObstructs : CarState → Bool
  | .loading _ | .toTower | .quenching | .draining | .waitBay | .toBay _ | .dumping => true
  | _ => false

/-- The first obstacle to a RESTART, in the order of R185's list. Of several ovens CHARGING the lowest number is named: the
model's choice (log 76). -/
def obstacle (s : State) : Option Obstacle :=
  match (numbers 1 s.nOv).find? fun n => s.ovenIs n .pushing with
  | some n => some (.pushing n)
  | none =>
    match (numbers 1 s.nOv).find? fun n => s.ovenIs n .charging with
    | some n => some (.charging n)
    | none => if carObstructs s.qnu.car.state then some (.car s.qnu.car.state) else none

/-- The return to CONFIG (R185, R46, R69, R106, R125, R139, R157; log 27). R185 lists the blocks and does not order them:
that they act in the order of its list is the model's choice (log 90). -/
def enterConfig (s : State) : State :=
  let s := ({ s with cfg.part := .config }).raise (.partState .config .restart)
  let s := (s.planRestart.revokeAll .restart).holdStarts .config
  s.doorRestart.holdSections.valveRestart

/-- RESTART (R185). -/
def restartOp (s : State) : State × Reply :=
  if !s.inRun then s.refuse .state
  else
    match s.obstacle with
    | some o => (s, { result := .busy, data := .obstacle o, settings := none })
    | none => s.enterConfig.ok

end State

/-! ## The commands -/

/-- SET_TIME (R5). -/
def doSetTime (tag : Byte) (t : Time32) (s : State) : State := State.request tag (State.setTimeOp t) s

/-- OVEN_SERVICE (R10). -/
def doOvenService (tag : Byte) (n : Nat) (dir : ServiceDir) (s : State) : State :=
  State.request tag (State.forOven n (State.ovenServiceOp n dir)) s

/-- SET_TARGET (R18). -/
def doSetTarget (tag : Byte) (n target : Nat) (s : State) : State :=
  State.request tag (State.forOven n (State.setTargetOp n target)) s

/-- MAKEUP (R32). -/
def doMakeup (tag : Byte) (n : Nat) (s : State) : State :=
  State.request tag (State.runOnly (State.forOven n (State.makeupOp n))) s

/-- CANCEL_MAKEUP (R34). -/
def doCancelMakeup (tag : Byte) (n : Nat) (s : State) : State :=
  State.request tag (State.runOnly (State.cancelMakeupOp n)) s

/-- PLAN_START (R35). -/
def doPlanStart (tag : Byte) (start : Option Time32) (s : State) : State :=
  State.request tag (State.runOnly (State.planStartOp start)) s

/-- PLAN_HALT (R36). -/
def doPlanHalt (tag : Byte) (s : State) : State := State.request tag (State.runOnly State.planHaltOp) s

/-- PLAN_RESUME (R37). -/
def doPlanResume (tag : Byte) (s : State) : State := State.request tag (State.runOnly State.planResumeReq) s

/-- PLAN_STAGE (R38). -/
def doPlanStage (tag : Byte) (s : State) : State := State.request tag (State.runOnly State.planStageOp) s

/-- SET_MODE (R41). -/
def doSetMode (tag : Byte) (n : Nat) (mode : SlotMode) (fixedPush : Option Time32) (s : State) : State :=
  State.request tag (State.forOven n (State.setModeOp n mode fixedPush)) s

/-- SET_MODE_RANGE (R42). -/
def doSetModeRange (tag : Byte) (first last : Nat) (mode : Option SlotMode) (fixedPush : Option Time32) 
    (s : State) : State :=
  State.request tag (State.runOnly (State.setModeRangeOp first last mode fixedPush)) s

/-- RANGE_ABORT (R44). -/
def doRangeAbort (tag : Byte) (s : State) : State := State.request tag (State.runOnly State.rangeAbortOp) s

/-- CLEAR_BREACH (R67). -/
def doClearBreach (tag : Byte) (n : Nat) (s : State) : State :=
  State.request tag (State.forOven n (State.clearBreachOp n)) s

/-- PUSH_RETRY (R82). -/
def doPushRetry (tag : Byte) (n : Nat) (s : State) : State := State.request tag (State.runOnly (State.pushRetryOp n)) s

/-- ABANDON (R83). -/
def doAbandon (tag : Byte) (n : Nat) (s : State) : State := State.request tag (State.runOnly (State.abandonOp n)) s

/-- LEAK_REPORT (R90). -/
def doLeakReport (tag : Byte) (n : Nat) (side : Option Side) (s : State) : State :=
  State.request tag (State.runOnly (State.leakReportOp n side)) s

/-- SET_DAMPER (R119). -/
def doSetDamper (tag : Byte) (k value : Nat) (s : State) : State :=
  State.request tag (State.forSection k (State.setDamperOp k value)) s

/-- SET_AUTO (R120). -/
def doSetAuto (tag : Byte) (k : Nat) (s : State) : State := State.request tag (State.forSection k (State.setAutoOp k)) s

/-- SET_SETPOINT (R121). -/
def doSetSetpoint (tag : Byte) (k : Nat) (value : Int) (s : State) : State :=
  State.request tag (State.forSection k (State.setSetpointOp k value)) s

/-- TRACK_BLOCK (R142). -/
def doTrackBlock (tag : Byte) (first last : Option TrackSpot) (s : State) : State :=
  State.request tag (State.trackBlockOp first last) s

/-- TRACK_FREE (R142). -/
def doTrackFree (tag : Byte) (first last : Option TrackSpot) (s : State) : State :=
  State.request tag (State.trackFreeOp first last) s

/-- SET_OUTPUT (R165). -/
def doSetOutput (tag : Byte) (t : Nat) (level : Option Bool) (s : State) : State :=
  State.request tag (State.setOutputOp t level) s

/-- TOGGLE (R165). -/
def doToggle (tag : Byte) (t : Nat) (s : State) : State := State.request tag (State.writeOutput t (fun b => !b)) s

/-- CLEAR_TERMINAL (R166). -/
def doClearTerminal (tag : Byte) (t : Nat) (s : State) : State := State.request tag (State.clearTerminalOp t) s

/-- LINK_CLEAR (R172). -/
def doLinkClear (tag : Byte) (l : Option LinkId) (s : State) : State := State.request tag (State.linkClearOp l) s

/-- LINK_TEST (R179). -/
def doLinkTest (tag : Byte) (l : Option LinkId) (s : State) : State :=
  State.request tag (State.forMLink l fun m s => s.linkTestOp m) s

/-- TEST_READ (R180). -/
def doTestRead (tag : Byte) (l : Option LinkId) (s : State) : State :=
  State.request tag (State.forMLink l fun m s => s.testReadOp m) s

/-- TEST_END (R180). -/
def doTestEnd (tag : Byte) (l : Option LinkId) (s : State) : State :=
  State.request tag (State.forMLink l fun m s => s.testEndOp m) s

/-- COMMIT (R183, R184). -/
def doCommit (tag : Byte) (s : State) : State := State.request tag State.commitOp s

/-- RESTART (R185). -/
def doRestart (tag : Byte) (s : State) : State := State.request tag State.restartOp s

/-- UNKNOWN_REQUEST (R173): answered FORMAT. -/
def doUnknownRequest (tag : Byte) (s : State) : State := State.request tag (fun s => s.refuse .format) s

/-! ## Their meanings -/

/-- Meaning of SET_TIME. -/
def execSetTime (tag : Byte) (t : Time32) (s : State) : Host.Outcome State Fault Refusal :=
  .next (doSetTime tag t s).settle

/-- Meaning of OVEN_SERVICE. -/
def execOvenService (tag : Byte) (n : Nat) (dir : ServiceDir) (s : State) : Host.Outcome State Fault Refusal :=
  .next (doOvenService tag n dir s).settle

/-- Meaning of SET_TARGET. -/
def execSetTarget (tag : Byte) (n target : Nat) (s : State) : Host.Outcome State Fault Refusal :=
  .next (doSetTarget tag n target s).settle

/-- Meaning of MAKEUP. -/
def execMakeup (tag : Byte) (n : Nat) (s : State) : Host.Outcome State Fault Refusal := .next (doMakeup tag n s).settle

/-- Meaning of CANCEL_MAKEUP. -/
def execCancelMakeup (tag : Byte) (n : Nat) (s : State) : Host.Outcome State Fault Refusal :=
  .next (doCancelMakeup tag n s).settle

/-- Meaning of PLAN_START. -/
def execPlanStart (tag : Byte) (start : Option Time32) (s : State) : Host.Outcome State Fault Refusal :=
  .next (doPlanStart tag start s).settle

/-- Meaning of PLAN_HALT. -/
def execPlanHalt (tag : Byte) (s : State) : Host.Outcome State Fault Refusal := .next (doPlanHalt tag s).settle

/-- Meaning of PLAN_RESUME. -/
def execPlanResume (tag : Byte) (s : State) : Host.Outcome State Fault Refusal := .next (doPlanResume tag s).settle

/-- Meaning of PLAN_STAGE. -/
def execPlanStage (tag : Byte) (s : State) : Host.Outcome State Fault Refusal := .next (doPlanStage tag s).settle

/-- Meaning of SET_MODE. -/
def execSetMode (tag : Byte) (n : Nat) (mode : SlotMode) (fixedPush : Option Time32) 
    (s : State) : Host.Outcome State Fault Refusal :=
  .next (doSetMode tag n mode fixedPush s).settle

/-- Meaning of SET_MODE_RANGE. -/
def execSetModeRange (tag : Byte) (first last : Nat) (mode : Option SlotMode) (fixedPush : Option Time32) 
    (s : State) : Host.Outcome State Fault Refusal :=
  .next (doSetModeRange tag first last mode fixedPush s).settle

/-- Meaning of RANGE_ABORT. -/
def execRangeAbort (tag : Byte) (s : State) : Host.Outcome State Fault Refusal := .next (doRangeAbort tag s).settle

/-- Meaning of CLEAR_BREACH. -/
def execClearBreach (tag : Byte) (n : Nat) (s : State) : Host.Outcome State Fault Refusal :=
  .next (doClearBreach tag n s).settle

/-- Meaning of PUSH_RETRY. -/
def execPushRetry (tag : Byte) (n : Nat) (s : State) : Host.Outcome State Fault Refusal :=
  .next (doPushRetry tag n s).settle

/-- Meaning of ABANDON. -/
def execAbandon (tag : Byte) (n : Nat) (s : State) : Host.Outcome State Fault Refusal :=
  .next (doAbandon tag n s).settle

/-- Meaning of LEAK_REPORT. -/
def execLeakReport (tag : Byte) (n : Nat) (side : Option Side) (s : State) : Host.Outcome State Fault Refusal :=
  .next (doLeakReport tag n side s).settle

/-- Meaning of SET_DAMPER. -/
def execSetDamper (tag : Byte) (k value : Nat) (s : State) : Host.Outcome State Fault Refusal :=
  .next (doSetDamper tag k value s).settle

/-- Meaning of SET_AUTO. -/
def execSetAuto (tag : Byte) (k : Nat) (s : State) : Host.Outcome State Fault Refusal :=
  .next (doSetAuto tag k s).settle

/-- Meaning of SET_SETPOINT. -/
def execSetSetpoint (tag : Byte) (k : Nat) (value : Int) (s : State) : Host.Outcome State Fault Refusal :=
  .next (doSetSetpoint tag k value s).settle

/-- Meaning of TRACK_BLOCK. -/
def execTrackBlock (tag : Byte) (first last : Option TrackSpot) (s : State) : Host.Outcome State Fault Refusal :=
  .next (doTrackBlock tag first last s).settle

/-- Meaning of TRACK_FREE. -/
def execTrackFree (tag : Byte) (first last : Option TrackSpot) (s : State) : Host.Outcome State Fault Refusal :=
  .next (doTrackFree tag first last s).settle

/-- Meaning of SET_OUTPUT. -/
def execSetOutput (tag : Byte) (t : Nat) (level : Option Bool) (s : State) : Host.Outcome State Fault Refusal :=
  .next (doSetOutput tag t level s).settle

/-- Meaning of TOGGLE. -/
def execToggle (tag : Byte) (t : Nat) (s : State) : Host.Outcome State Fault Refusal := .next (doToggle tag t s).settle

/-- Meaning of CLEAR_TERMINAL. -/
def execClearTerminal (tag : Byte) (t : Nat) (s : State) : Host.Outcome State Fault Refusal :=
  .next (doClearTerminal tag t s).settle

/-- Meaning of LINK_CLEAR. -/
def execLinkClear (tag : Byte) (l : Option LinkId) (s : State) : Host.Outcome State Fault Refusal :=
  .next (doLinkClear tag l s).settle

/-- Meaning of LINK_TEST. -/
def execLinkTest (tag : Byte) (l : Option LinkId) (s : State) : Host.Outcome State Fault Refusal :=
  .next (doLinkTest tag l s).settle

/-- Meaning of TEST_READ. -/
def execTestRead (tag : Byte) (l : Option LinkId) (s : State) : Host.Outcome State Fault Refusal :=
  .next (doTestRead tag l s).settle

/-- Meaning of TEST_END. -/
def execTestEnd (tag : Byte) (l : Option LinkId) (s : State) : Host.Outcome State Fault Refusal :=
  .next (doTestEnd tag l s).settle

/-- Meaning of COMMIT. -/
def execCommit (tag : Byte) (s : State) : Host.Outcome State Fault Refusal := .next (doCommit tag s).settle

/-- Meaning of RESTART. -/
def execRestart (tag : Byte) (s : State) : Host.Outcome State Fault Refusal := .next (doRestart tag s).settle

/-- Meaning of UNKNOWN_REQUEST. -/
def execUnknownRequest (tag : Byte) (s : State) : Host.Outcome State Fault Refusal :=
  .next (doUnknownRequest tag s).settle

end Sys2Proof.Machine
end

