-- ==== Sys2Proof/Machine/Queries.lean ====
section
/-! DEFINITION. The queries: what each ANSWER carries. They change nothing but the notices-lost flag, which the STATUS
query clears (R177). -/

namespace Sys2Proof.Machine

open Sys2Proof

namespace State

/-- Answered OK with data, nothing changed. -/
def answer (s : State) (d : AnswerData) : State × Reply := (s, .okWith d)

/-- What the STATUS query gives of a link (R177). What its link-test state comprises is the model's choice (log 61). -/
def linkView (s : State) (l : LinkId) : LinkView where
  link := l
  settings := (s.port l).settings
  up := (s.port l).up
  errors := (s.port l).errors
  lastCause := (s.port l).lastCause
  test :=
    match l with
    | .sup => none
    | .mach m => some (s.mlink m).test.view

/-- STATUS query (R177). -/
def statusAnswer (s : State) : State × Reply :=
  ({ s with lnk.sup.noticesLost := false },
    .okWith (.status s.cfg.part s.now s.present s.lnk.sup.notices.length s.lnk.sup.noticesLost
      ([.sup, .mach .pm, .mach .gc, .mach .cc, .mach .qc].map s.linkView)))

/-- TIME query (R6). -/
def timeAnswer (s : State) : State × Reply := s.answer (.time s.now s.tb.timeOpen (decide (s.now = tMax)))

/-- OVEN query (R21). -/
def ovenAnswer (n : Nat) (s : State) : State × Reply :=
  match s.oven n with
  | some o => s.answer (.oven o (readyTime s.cfg.timing o) (overdueTime s.cfg.timing o))
  | none => s.refuse .range

/-- The serving entry as the PLAN query gives it (R45); its list position counts from 0 (log 46). -/
def servingView (s : State) : Option ServingView :=
  match s.pln.serving with
  | some .slot => s.pln.cursor.bind fun i => s.cursorSlot.map fun sl => .slot sl.oven i
  | some (.makeup o _) => some (.makeup o (s.pln.makeup.findIdx fun e => e.oven == o))
  | none => none

/-- PLAN query (R45). Round number, round start, slot count and cursor are absent together, when IDLE or waiting (log 43). -/
def planAnswer (s : State) : State × Reply :=
  let shown := if s.boundaryWait then none else s.pln.round
  s.answer (.plan {
    state := s.pln.state
    waitingAtBoundary := s.boundaryWait
    roundNumber := shown.map RoundRec.number
    roundStart := shown.map RoundRec.start
    slotCount := shown.map fun r => r.slots.length
    cursor := s.pln.cursor
    holdOver := s.pln.holdOver
    lag := s.pln.lag
    active := s.pln.active
    staged := s.pln.staged
    stagedStart := s.pln.stagedStart
    mark := s.pln.mark
    serving := s.servingView
    next := s.nextOven
    makeup := s.pln.makeup.map fun e => (e, s.makeupServing e.oven)
    range := s.pln.range })

/-- SLOT query (R45). -/
def slotAnswer (i : Nat) (s : State) : State × Reply :=
  match s.pln.round with
  | none => s.refuse .notFound
  | some _ =>
    match s.slot i with
    | some sl => s.answer (.slot i sl)
    | none => s.refuse .range

/-- MACHINES query (R68). -/
def machinesAnswer (s : State) : State × Reply :=
  s.answer (.machines {
    records := s.ilk.machines
    online := ⟨s.online .pm, s.online .gc, s.online .cc, s.online .qc⟩
    permits := s.ilk.permits
    stop := s.ilk.stop
    hold := s.hold
    causes := s.holdCauses
    breached := (numbers 1 s.nOv).filter fun n => (s.oven n).map OvenRec.breach == some true
    lastRam := s.ilk.lastRam })

/-- PUSH query (R87). -/
def pushAnswerOf (s : State) : State × Reply :=
  s.answer (.push {
    record := s.ilk.push
    heldByStop := s.ilk.stop
    heldByUnconfirmed := s.unconfirmed
    ram := s.ram
    guide := s.guide
    car := s.qnu.car.state })

/-- The entries of a door with their positions in its side's queue, from 0 (R107). -/
def entriesOf (s : State) (n : Nat) (d : Side) : List (Nat × TaskEntry) :=
  ((s.queue d).zipIdx.filter fun p => p.1.oven == n).map fun p => (p.2, p.1)

/-- A side's round visit when it is at the oven. -/
def visitAt (s : State) (n : Nat) (d : Side) : Option Visit := (s.round d).visit.filter fun v => v.oven == n

/-- DOOR query (R107). -/
def doorAnswer (n : Nat) (s : State) : State × Reply :=
  match nth1 s.dru.doors n with
  | none => s.refuse .range
  | some p =>
    s.answer (.door {
      records := p
      entries := ⟨s.entriesOf n .ps, s.entriesOf n .cs⟩
      visits := ⟨s.visitAt n .ps, s.visitAt n .cs⟩ })

/-- TASKS query (R107). -/
def tasksAnswer (d : Side) (s : State) : State × Reply :=
  s.answer (.tasks {
    queue := s.queue d
    inService := (s.queue d).find? fun e => e.service.isSome
    pending := (numbers 1 s.nOv).filter fun n => (s.door n d).map DoorRec.resealPending == some true
    round := s.round d })

/-- SECTION query (R127). -/
def sectionAnswer (k : Nat) (s : State) : State × Reply :=
  match s.sec k with
  | none => s.refuse .range
  | some r =>
    s.answer (.secView {
      record := r
      pressIn := s.terminalOf (.pressIn k)
      damperPwm := s.terminalOf (.damperPwm k)
      flareOut := s.terminalOf (.flareOut k)
      lowAlarm := s.terminalOf (.lowAlarm k)
      lastGate := (s.gate k).bind Gate.lastReading
      integralTerm := r.integ / 256 })

/-- The first element of a list with a property, with its place, counted from 0 (R140; log 56). -/
def findAt {α : Type} (p : α → Bool) (l : List α) : Option (Nat × α) :=
  (l.zipIdx.find? fun x => p x.1).map fun x => (x.2, x.1)

/-- VALVES query (R140). -/
def valvesAnswer (n : Option Nat) (s : State) : State × Reply :=
  match n with
  | some n =>
    match nth1 s.ofu.valves n with
    | none => s.refuse .range
    | some v =>
      s.answer (.valve {
        record := v
        entry := findAt (fun e => e.oven == n) s.ofu.queue
        heldOffer := findAt (fun h => h.oven == n) s.ofu.heldOffers })
  | none =>
    s.answer (.valves {
      queue := s.ofu.queue
      taskTimer := (s.ofu.queue.find? fun e => e.service.isSome).bind ValveEntry.service
      heldOffers := s.ofu.heldOffers
      iso := s.ofu.iso
      charges := s.ofu.charges })

/-- QUENCH query (R158). -/
def quenchAnswer (s : State) : State × Reply :=
  s.answer (.quench {
    unit := s.qnu
    qcOnline := s.online .qc
    qcMode := (s.machine .qc).mode
    qcPosition := (s.machine .qc).position
    qcStatus := (s.machine .qc).status })

/-- What the TERMINALS query gives of a terminal (R168). -/
def termView (s : State) (t : Nat) (r : TermRec) : TermView where
  t := t
  record := r
  outputLevel := s.outputLevel r
  state := s.termState r
  inputState := if TermFn.filteredInput r.fn then some (r.filtered, r.level) else none
  lastGate :=
    match r.fn with
    | .pressIn k => (s.gate k).bind Gate.last
    | _ => none

/-- TERMINALS query (R168). -/
def terminalsAnswer (t : Option Nat) (s : State) : State × Reply :=
  match t with
  | some t =>
    match s.term t with
    | some r => s.answer (.terminals [s.termView t r])
    | none => s.refuse .range
  | none => s.answer (.terminals (s.trm.zipIdx.map fun p => s.termView p.2 p.1))

end State

/-- STATUS_QUERY (R177). -/
def doStatusQuery (tag : Byte) (s : State) : State := State.request tag State.statusAnswer s

/-- TIME_QUERY (R6). -/
def doTimeQuery (tag : Byte) (s : State) : State := State.request tag State.timeAnswer s

/-- OVEN_QUERY (R21). -/
def doOvenQuery (tag : Byte) (n : Nat) (s : State) : State := State.request tag (State.ovenAnswer n) s

/-- PLAN_QUERY (R45). -/
def doPlanQuery (tag : Byte) (s : State) : State := State.request tag State.planAnswer s

/-- SLOT_QUERY (R45). -/
def doSlotQuery (tag : Byte) (i : Nat) (s : State) : State := State.request tag (State.slotAnswer i) s

/-- MACHINES_QUERY (R68). -/
def doMachinesQuery (tag : Byte) (s : State) : State := State.request tag State.machinesAnswer s

/-- PUSH_QUERY (R87). -/
def doPushQuery (tag : Byte) (s : State) : State := State.request tag State.pushAnswerOf s

/-- DOOR_QUERY (R107). -/
def doDoorQuery (tag : Byte) (n : Nat) (s : State) : State := State.request tag (State.doorAnswer n) s

/-- TASKS_QUERY (R107). -/
def doTasksQuery (tag : Byte) (d : Side) (s : State) : State := State.request tag (State.tasksAnswer d) s

/-- SECTION_QUERY (R127). -/
def doSectionQuery (tag : Byte) (k : Nat) (s : State) : State := State.request tag (State.sectionAnswer k) s

/-- VALVES_QUERY (R140). -/
def doValvesQuery (tag : Byte) (n : Option Nat) (s : State) : State := State.request tag (State.valvesAnswer n) s

/-- QUENCH_QUERY (R158). -/
def doQuenchQuery (tag : Byte) (s : State) : State := State.request tag State.quenchAnswer s

/-- TERMINALS_QUERY (R168). -/
def doTerminalsQuery (tag : Byte) (t : Option Nat) (s : State) : State := State.request tag (State.terminalsAnswer t) s

/-- Meaning of STATUS_QUERY. -/
def execStatusQuery (tag : Byte) (s : State) : Host.Outcome State Fault Refusal := .next (doStatusQuery tag s).settle

/-- Meaning of TIME_QUERY. -/
def execTimeQuery (tag : Byte) (s : State) : Host.Outcome State Fault Refusal := .next (doTimeQuery tag s).settle

/-- Meaning of OVEN_QUERY. -/
def execOvenQuery (tag : Byte) (n : Nat) (s : State) : Host.Outcome State Fault Refusal :=
  .next (doOvenQuery tag n s).settle

/-- Meaning of PLAN_QUERY. -/
def execPlanQuery (tag : Byte) (s : State) : Host.Outcome State Fault Refusal := .next (doPlanQuery tag s).settle

/-- Meaning of SLOT_QUERY. -/
def execSlotQuery (tag : Byte) (i : Nat) (s : State) : Host.Outcome State Fault Refusal :=
  .next (doSlotQuery tag i s).settle

/-- Meaning of MACHINES_QUERY. -/
def execMachinesQuery (tag : Byte) (s : State) : Host.Outcome State Fault Refusal :=
  .next (doMachinesQuery tag s).settle

/-- Meaning of PUSH_QUERY. -/
def execPushQuery (tag : Byte) (s : State) : Host.Outcome State Fault Refusal := .next (doPushQuery tag s).settle

/-- Meaning of DOOR_QUERY. -/
def execDoorQuery (tag : Byte) (n : Nat) (s : State) : Host.Outcome State Fault Refusal :=
  .next (doDoorQuery tag n s).settle

/-- Meaning of TASKS_QUERY. -/
def execTasksQuery (tag : Byte) (d : Side) (s : State) : Host.Outcome State Fault Refusal :=
  .next (doTasksQuery tag d s).settle

/-- Meaning of SECTION_QUERY. -/
def execSectionQuery (tag : Byte) (k : Nat) (s : State) : Host.Outcome State Fault Refusal :=
  .next (doSectionQuery tag k s).settle

/-- Meaning of VALVES_QUERY. -/
def execValvesQuery (tag : Byte) (n : Option Nat) (s : State) : Host.Outcome State Fault Refusal :=
  .next (doValvesQuery tag n s).settle

/-- Meaning of QUENCH_QUERY. -/
def execQuenchQuery (tag : Byte) (s : State) : Host.Outcome State Fault Refusal := .next (doQuenchQuery tag s).settle

/-- Meaning of TERMINALS_QUERY. -/
def execTerminalsQuery (tag : Byte) (t : Option Nat) (s : State) : Host.Outcome State Fault Refusal :=
  .next (doTerminalsQuery tag t s).settle

end Sys2Proof.Machine
end

