-- ==== Sys2Proof/Machine/Frames.lean ====
section
/-! DEFINITION. The bodies of the frames the part receives (R173): which command, request or discard a kind and body make.
Name codes and the form of optional fields are not given by the spec: log 12. -/

namespace Sys2Proof.Machine

open Sys2Proof Sys2Proof.Config

/-- Why a body gives no command: it does not fit its kind, or names nothing known. -/
inductive BodyFault where
  | len | kind | format
  deriving DecidableEq, Repr

/-- A reader of body characters. -/
abbrev Reader := StateT (List Byte) (Except BodyFault)

/-- What a complete frame with a matching check comes to (R171, R173). -/
inductive Taken where
  | message (i : Instr)
  | unknownPermit (m : MachineId) (code : Byte) (oven : Nat)
  | format (tag : Byte)
  | discard (c : DiscardCause)
  deriving DecidableEq, Repr

namespace Reader

/-- One character. -/
def byte : Reader Byte := fun
  | [] => .error .len
  | b :: rest => .ok (b, rest)

/-- One character as a number. -/
def num : Reader Nat := do return (← byte).toNat

/-- Two characters, high first, unsigned. -/
def num2 : Reader Nat := do
  let hi ← byte
  let lo ← byte
  return (hi ++ lo).toNat

/-- Two characters, high first, two's complement. -/
def signed2 : Reader Int := do
  let hi ← byte
  let lo ← byte
  return (hi ++ lo).toInt

/-- Four characters, high first: a battery time. -/
def time : Reader Time32 := do
  let a ← byte
  let b ← byte
  let c ← byte
  let d ← byte
  return ((a ++ b) ++ (c ++ d)).setWidth 32

/-- A field that may be absent: how it tells that it is there is open (log 12); when it is, its characters are those of its
type (R173). -/
def optional {α : Type} (width : Nat) (field : Reader α) : Reader (Option α) := fun bs =>
  match optionalMark width bs with
  | (true, n) => (some <$> field) (bs.drop n)
  | (false, n) => if n ≤ bs.length then .ok (none, bs.drop n) else .error .len

/-- An optional battery time: four characters, high first, when it is there (R173). -/
def optTime : Reader (Option Time32) := optional 4 time

/-- An optional one-character field. -/
def optByte : Reader (Option Byte) := optional 1 byte

/-- A name's code, `none` when it names nothing known. -/
def name {α : Type} (f : Byte → Option α) : Reader (Option α) := do return f (← byte)

/-- A name that must be known: an unknown one is a fault of kind, found before one of length (R171, R173). -/
def orKind {α : Type} : Option α → Reader α
  | some a => return a
  | none => throw .kind

/-- The name a character must be (R173). -/
def need {α : Type} (f : Byte → Option α) : Reader α := do orKind (f (← byte))

/-- An optional name: absent, known, or unknown. -/
def optName {α : Type} (f : Byte → Option α) : Reader (Option (Option α)) := do
  match ← optByte with
  | none => return some none
  | some b => return (f b).map some

/-- The body ends here. -/
def done : Reader Unit := fun
  | [] => .ok ((), [])
  | _ => .error .len

/-- The characters left. -/
def remaining : Reader (List Byte) := fun bs => .ok (bs, [])

/-- A spot of the track row: its type and its oven (R142); `none` for an unknown spot. The number is read at an oven alone; at
PARK, TOWER and WHARF it is not looked at, the model's choice (log 89). -/
def trackSpot : Reader (Option TrackSpot) := do
  let ty ← name spotTypeOf
  let n ← num
  return match ty with
    | some .oven => some (.oven n)
    | some .park => some .park
    | some .tower => some .tower
    | some .wharf => some .wharf
    | _ => none

/-- The body is at its end, and its fields make a command or, with a field that is no value of its name, none. -/
def finish (i : Option Instr) : Reader (Option Instr) := do
  done
  return i

/-! ## Machine frames -/

/-- The spot of a STATUS (R48, R173). The model's choices: the side is read at an oven alone (log 85), and the number at an
oven and at a bay of the wharf alone; at PARK, TOWER and BUNKER it is not looked at (log 89). -/
def statusSpot (ty : SpotType) (n : Nat) (side : Option SpotSide) : Option ReportedSpot :=
  match ty with
  | .oven => side.map fun d => .oven n d
  | .park => some .park
  | .tower => some .tower
  | .wharf => some (.wharf n)
  | .bunker => some .bunker

/-- The sender of a STATUS with the machine status its code gives; CC's is not read (R48). -/
def statusFrom (m : MachineId) (code : Byte) : Option StatusFrom :=
  match m with
  | .pm => (ramOf code).map .pm
  | .gc => (guideOf code).map .gc
  | .cc => some .cc
  | .qc => (carLoadOf code).map .qc

/-- STATUS: mode, motion, spot type, oven or bay, side, machine status; each name is looked up as it is read, so that an
unknown name is found before a wrong length (R171, R173). -/
def status (m : MachineId) : Reader (Option Instr) := do
  let mode ← need modeOf
  let motion ← need motionOf
  let ty ← need spotTypeOf
  let n ← num
  let side ← byte
  let spot ← orKind (statusSpot ty n (spotSideOf side))
  let sender ← orKind (statusFrom m (← byte))
  finish (some (.status sender mode motion spot))

/-- Oven and side. -/
def ovenSide (f : Nat → Option Side → Instr) : Reader (Option Instr) := do
  let n ← num
  let d ← name spotSideOf
  finish (some (f n (match d with
    | some .ps => some .ps
    | some .cs => some .cs
    | _ => none)))

/-- Oven alone. -/
def ovenOnly (f : Nat → Instr) : Reader (Option Instr) := do
  let n ← num
  finish (some (f n))

/-- TASK_DONE but from CC: oven, kind, result (R98). -/
def doorTaskDone (m : TaskSender) : Reader (Option Instr) := do
  let n ← num
  let k ← need taskKindOf
  let r ← need taskResultOf
  finish (some (.taskDone m n k r))

/-- TASK_DONE: oven, kind or action, result (R98, R135). -/
def taskDone : MachineId → Reader (Option Instr)
  | .pm => doorTaskDone .pm
  | .gc => doorTaskDone .gc
  | .qc => doorTaskDone .qc
  | .cc => do
    let n ← num
    let a ← need actionOf
    let r ← need valveResultOf
    finish (some (.ccTaskDone n a r))

/-- The body of a REPORT after its name. -/
def report (m : MachineId) : ReportName → Reader (Option Instr)
  | .doorOff => ovenSide (.doorOff m)
  | .doorOn => ovenSide (.doorOn m)
  | .doorTight => ovenSide (.doorTight m)
  | .ramStart => ovenOnly (.ramStart m)
  | .ramAtEnd => ovenOnly (.ramAtEnd m)
  | .ramHome => ovenOnly (.ramHome m)
  | .chargeStart => ovenOnly (.chargeStart m)
  | .chargeEnd => ovenOnly (.chargeEnd m)
  | .valve => do
    let n ← num
    let v ← name valveStateOf
    finish (some (.valve m n v))
  | .leakSeen => ovenSide (.leakSeen m)
  | .taskDone => taskDone m
  | .dumpDone => ovenOnly (.dumpDone m)

/-! ## SETUP -/

/-- A function name with its section or bay number. -/
def termFn : Reader TermFn := do
  match ← name fnNameOf with
  | none => throw .format
  | some .unassigned => return .unassigned
  | some .input => return .input
  | some .output => return .output
  | some .pressIn => return .pressIn (← num)
  | some .damperPwm => return .damperPwm (← num)
  | some .flareOut => return .flareOut (← num)
  | some .lowAlarm => return .lowAlarm (← num)
  | some .sprayOut => return .sprayOut
  | some .gateOut => return .gateOut (← num)
  | some .conveyorRunIn => return .conveyorRunIn
  | some .batteryStopIn => return .batteryStopIn

/-- BATTERY. -/
def battery (tag : Byte) : Reader (Option Instr) := do
  let n ← num
  let k ← num
  let lasts ← remaining
  if lasts.length = k then return some (.battery tag n k (lasts.map BitVec.toNat)) else throw .len

/-- SERIES. -/
def series (tag : Byte) : Reader (Option Instr) := do
  let p : SeriesParams := ⟨← num, ← num, ← num2, ← num2, ← num2⟩
  let start ← optTime
  finish (some (.series tag p start))

/-- TIMING. -/
def timing (tag : Byte) : Reader (Option Instr) := do
  let v : Timing :=
    ⟨← num2, ← num2, ← num2, ← num2, ← num2, ← num2, ← num2, ← num2, ← num2, ← num2, ← num2⟩
  finish (some (.timing tag v))

/-- PRESSURE. -/
def pressure (tag : Byte) : Reader (Option Instr) := do
  let k ← num
  let p : PressureParams :=
    ⟨← signed2, ← signed2, ← num, ← num, ← signed2, ← signed2, ← signed2, ← signed2, ← signed2, ← signed2, ← signed2,
      ← signed2, ← signed2, ← signed2, ← signed2, ← signed2⟩
  finish (some (.pressure tag k p))

/-- WHARF. -/
def wharf (tag : Byte) : Reader (Option Instr) := do
  let v : WharfVals := ⟨← num, ← num2, ← num2, ← num2, ← num2, ← num2, ← num2⟩
  finish (some (.wharf tag v))

/-- DOORS. -/
def doors (tag : Byte) : Reader (Option Instr) := do
  let v : DoorVals := ⟨← num, ← num2, ← num2, ← num2⟩
  finish (some (.doors tag v))

/-- TERMINAL. -/
def terminal (tag : Byte) : Reader (Option Instr) := do
  let t ← num
  let fn ← termFn
  let invert ← name flagOf
  let drive ← name driveOf
  let edge ← name edgeOf
  finish do return .terminal tag t fn (← invert) (← drive) (← edge)

/-- LINK. -/
def link (tag : Byte) : Reader (Option Instr) := do
  let l ← name linkOf
  let dv ← num
  let code ← name lineCodeOf
  let tx ← name flagOf
  let rx ← name flagOf
  finish do return .link tag (← l) ⟨dv, ← code, ← tx, ← rx⟩

/-- OVEN_LOAD. -/
def ovenLoad (tag : Byte) : Reader (Option Instr) := do
  let n ← num
  let st ← name ovenStateOf
  let tc ← optTime
  let g ← num2
  let mode ← name slotModeOf
  let fixedPush ← optTime
  let v ← optName valveStateOf
  let ps ← optName doorStateOf
  let cs ← optName doorStateOf
  finish do return .ovenLoad tag ⟨n, ← st, tc, g, ← mode, fixedPush, ← v, ← ps, ← cs⟩

/-- The body of a SETUP after its block name. -/
def setup (tag : Byte) : BlockName → Reader (Option Instr)
  | .battery => battery tag
  | .series => series tag
  | .timing => timing tag
  | .pressure => pressure tag
  | .wharf => wharf tag
  | .doors => doors tag
  | .terminal => terminal tag
  | .link => link tag
  | .ovenLoad => ovenLoad tag

/-! ## COMMAND and QUERY -/

/-- A side of two, `none` for another. -/
def twoSides : Reader (Option Side) := do
  return match ← name spotSideOf with
    | some .ps => some .ps
    | some .cs => some .cs
    | _ => none

/-- The body of a COMMAND after its name. -/
def command (tag : Byte) : CommandName → Reader (Option Instr)
  | .setTime => do let t ← time; finish (some (.setTime tag t))
  | .ovenService => do
    let n ← num
    let d ← name serviceDirOf
    finish do return .ovenService tag n (← d)
  | .setTarget => do let n ← num; let g ← num2; finish (some (.setTarget tag n g))
  | .makeup => ovenOnly (.makeup tag)
  | .cancelMakeup => ovenOnly (.cancelMakeup tag)
  | .planStart => do let t ← optTime; finish (some (.planStart tag t))
  | .planHalt => finish (some (.planHalt tag))
  | .planResume => finish (some (.planResume tag))
  | .planStage => finish (some (.planStage tag))
  | .setMode => do
    let n ← num
    let m ← name slotModeOf
    let t ← optTime
    finish do return .setMode tag n (← m) t
  | .setModeRange => do
    let a ← num
    let b ← num
    let m ← name slotModeOf
    let t ← optTime
    finish (some (.setModeRange tag a b m t))
  | .rangeAbort => finish (some (.rangeAbort tag))
  | .clearBreach => ovenOnly (.clearBreach tag)
  | .pushRetry => ovenOnly (.pushRetry tag)
  | .abandon => ovenOnly (.abandon tag)
  | .leakReport => ovenSide (.leakReport tag)
  | .setDamper => do let k ← num; let v ← num2; finish (some (.setDamper tag k v))
  | .setAuto => ovenOnly (.setAuto tag)
  | .setSetpoint => do let k ← num; let v ← signed2; finish (some (.setSetpoint tag k v))
  | .trackBlock => do let a ← trackSpot; let b ← trackSpot; finish (some (.trackBlock tag a b))
  | .trackFree => do let a ← trackSpot; let b ← trackSpot; finish (some (.trackFree tag a b))
  | .setOutput => do let t ← num; let l ← name Config.levelOf; finish (some (.setOutput tag t l))
  | .toggle => ovenOnly (.toggle tag)
  | .clearTerminal => ovenOnly (.clearTerminal tag)
  | .linkClear => do let l ← name linkOf; finish (some (.linkClear tag l))
  | .linkTest => do let l ← name linkOf; finish (some (.linkTest tag l))
  | .testRead => do let l ← name linkOf; finish (some (.testRead tag l))
  | .testEnd => do let l ← name linkOf; finish (some (.testEnd tag l))
  | .commit => finish (some (.commit tag))
  | .restart => finish (some (.restart tag))

/-- The body of a QUERY after its subject. -/
def query (tag : Byte) : Subject → Reader (Option Instr)
  | .status => finish (some (.statusQuery tag))
  | .time => finish (some (.timeQuery tag))
  | .oven => ovenOnly (.ovenQuery tag)
  | .plan => finish (some (.planQuery tag))
  | .slot => ovenOnly (.slotQuery tag)
  | .machines => finish (some (.machinesQuery tag))
  | .push => finish (some (.pushQuery tag))
  | .door => ovenOnly (.doorQuery tag)
  | .tasks => do let d ← twoSides; finish (d.map (.tasksQuery tag))
  | .secQuery => ovenOnly (.sectionQuery tag)
  | .valves => do let n ← optByte; finish (some (.valvesQuery tag (n.map BitVec.toNat)))
  | .quench => finish (some (.quenchQuery tag))
  | .terminals => do let t ← optByte; finish (some (.terminalsQuery tag (t.map BitVec.toNat)))

end Reader

/-- What a machine's frame body comes to: an unknown name is discarded with cause KIND, a wrong length with LEN (R173). -/
def takenMachine (r : Except BodyFault (Option Instr × List Byte)) : Taken :=
  match r with
  | .ok (some i, _) => .message i
  | .ok (none, _) => .discard .kind
  | .error .len => .discard .len
  | .error _ => .discard .kind

/-- What a supervisor request's body comes to: a field that is no value of its name is answered FORMAT (R173). -/
def takenRequest (tag : Byte) (r : Except BodyFault (Option Instr × List Byte)) : Taken :=
  match r with
  | .ok (some i, _) => .message i
  | .ok (none, _) => .format tag
  | .error .len => .discard .len
  | .error _ => .format tag

/-- A REQUEST's body: permit kind and oven (R52). -/
def requestBody (m : MachineId) : List Byte → Taken
  | [k, n] =>
    match permitKindOf k with
    | some .doorOffPs => .message (.requestDoorOffPs m n.toNat)
    | some .doorOffCs => .message (.requestDoorOffCs m n.toNat)
    | some .push => .message (.requestPush m n.toNat)
    | some .charge => .message (.requestCharge m n.toNat)
    | none => .unknownPermit m k n.toNat
  | _ => .discard .len

/-- A REPORT's body. -/
def reportBody (m : MachineId) : List Byte → Taken
  | [] => .discard .len
  | b :: rest =>
    match reportOf b with
    | some rep => takenMachine (Reader.report m rep rest)
    | none => .discard .kind

/-- A SETUP, COMMAND or QUERY body: tag and name are read first (R173). -/
def namedBody {α : Type} (f : Byte → Option α) (read : Byte → α → Reader (Option Instr)) : List Byte → Taken
  | tag :: b :: rest =>
    match f b with
    | some x => takenRequest tag (read tag x rest)
    | none => .format tag
  | _ => .discard .len

/-- What a frame of a link with a kind and body comes to (R173). -/
def frameOf (l : LinkId) (kind : Byte) (body : List Byte) : Taken :=
  match l with
  | .mach m =>
    if kind = 0x01#8 then takenMachine (Reader.status m body)
    else if kind = 0x02#8 then requestBody m body
    else if kind = 0x03#8 then reportBody m body
    else .discard .kind
  | .sup =>
    if kind = 0x81#8 then namedBody blockOf Reader.setup body
    else if kind = 0x82#8 then namedBody commandOf Reader.command body
    else if kind = 0x83#8 then namedBody subjectOf Reader.query body
    else .discard .kind

end Sys2Proof.Machine
end

