-- ==== Sys2Proof/Machine/Receive.lean ====
section
/-! DEFINITION. CHARACTER_RECEIVED: the receive assembly (R170 to R172), and the frame it completes taken in the same event
(R171, R174 to R176; log 13). -/

namespace Sys2Proof.Machine

open Sys2Proof

/-- The effect of a command that a frame carries, within the event of its last character. Commands that no frame carries
change nothing here. -/
def runFrame (i : Instr) (s : State) : State :=
  match i with
  | .status sender mode motion spot => doStatus sender mode motion spot s
  | .requestDoorOffPs m n => doRequest m (.known .doorOffPs) n s
  | .requestDoorOffCs m n => doRequest m (.known .doorOffCs) n s
  | .requestPush m n => doRequest m (.known .push) n s
  | .requestCharge m n => doRequest m (.known .charge) n s
  | .doorOff m oven side => doDoorOff m oven side s
  | .doorOn m oven side => doDoorOn m oven side s
  | .doorTight m oven side => doDoorTight m oven side s
  | .ramStart m oven => doRamStart m oven s
  | .ramAtEnd m oven => doRamAtEnd m oven s
  | .ramHome m oven => doRamHome m oven s
  | .chargeStart m oven => doChargeStart m oven s
  | .chargeEnd m oven => doChargeEnd m oven s
  | .valve m oven state => doValve m oven state s
  | .leakSeen m oven side => doLeakSeen m oven side s
  | .taskDone m oven kind result => doTaskDone m oven kind result s
  | .ccTaskDone oven action result => doCcTaskDone oven action result s
  | .dumpDone m bay => doDumpDone m bay s
  | .battery tag nOv k lasts => doBattery tag nOv k lasts s
  | .series tag p start => doSeries tag p start s
  | .timing tag v => doTiming tag v s
  | .pressure tag sec p => doPressure tag sec p s
  | .wharf tag v => doWharf tag v s
  | .doors tag v => doDoors tag v s
  | .terminal tag t fn invert drive edge => doTerminal tag t fn invert drive edge s
  | .link tag l v => doLink tag l v s
  | .ovenLoad tag v => doOvenLoad tag v s
  | .setTime tag t => doSetTime tag t s
  | .ovenService tag oven dir => doOvenService tag oven dir s
  | .setTarget tag oven target => doSetTarget tag oven target s
  | .makeup tag oven => doMakeup tag oven s
  | .cancelMakeup tag oven => doCancelMakeup tag oven s
  | .planStart tag start => doPlanStart tag start s
  | .planHalt tag => doPlanHalt tag s
  | .planResume tag => doPlanResume tag s
  | .planStage tag => doPlanStage tag s
  | .setMode tag oven mode fixedPush => doSetMode tag oven mode fixedPush s
  | .setModeRange tag first last mode fixedPush => doSetModeRange tag first last mode fixedPush s
  | .rangeAbort tag => doRangeAbort tag s
  | .clearBreach tag oven => doClearBreach tag oven s
  | .pushRetry tag oven => doPushRetry tag oven s
  | .abandon tag oven => doAbandon tag oven s
  | .leakReport tag oven side => doLeakReport tag oven side s
  | .setDamper tag sec value => doSetDamper tag sec value s
  | .setAuto tag sec => doSetAuto tag sec s
  | .setSetpoint tag sec value => doSetSetpoint tag sec value s
  | .trackBlock tag first last => doTrackBlock tag first last s
  | .trackFree tag first last => doTrackFree tag first last s
  | .setOutput tag t level => doSetOutput tag t level s
  | .toggle tag t => doToggle tag t s
  | .clearTerminal tag t => doClearTerminal tag t s
  | .linkClear tag l => doLinkClear tag l s
  | .linkTest tag l => doLinkTest tag l s
  | .testRead tag l => doTestRead tag l s
  | .testEnd tag l => doTestEnd tag l s
  | .commit tag => doCommit tag s
  | .restart tag => doRestart tag s
  | .unknownRequest tag => doUnknownRequest tag s
  | .statusQuery tag => doStatusQuery tag s
  | .timeQuery tag => doTimeQuery tag s
  | .ovenQuery tag oven => doOvenQuery tag oven s
  | .planQuery tag => doPlanQuery tag s
  | .slotQuery tag index => doSlotQuery tag index s
  | .machinesQuery tag => doMachinesQuery tag s
  | .pushQuery tag => doPushQuery tag s
  | .doorQuery tag oven => doDoorQuery tag oven s
  | .tasksQuery tag side => doTasksQuery tag side s
  | .sectionQuery tag sec => doSectionQuery tag sec s
  | .valvesQuery tag oven => doValvesQuery tag oven s
  | .quenchQuery tag => doQuenchQuery tag s
  | .terminalsQuery tag t => doTerminalsQuery tag t s
  | _ => s

/-- What a complete frame with a matching check brings about (R171, R173). -/
def takeFrame (l : LinkId) (t : Taken) (s : State) : State :=
  match t with
  | .message i => runFrame i s
  | .unknownPermit m code n => doRequest m (.unknown code) n s
  | .format tag => doUnknownRequest tag s
  | .discard c => s.discard l c

/-- The assembly is complete: LEN characters from KIND on and the two check characters (R171). -/
def completeFrame (l : LinkId) (len : Nat) (chars : List Byte) (s : State) : State :=
  let content := chars.take len
  let check := crc16 (BitVec.ofNat 8 len :: content)
  match content, chars.drop len with
  | kind :: body, [hi, lo] => if check = hi ++ lo then takeFrame l (frameOf l kind body) s else s.discard l .check
  | _, _ => s.discard l .check

/-- Write a link's receive assembly. -/
def State.setRx (s : State) (l : LinkId) (rx : RxAssembly) : State := s.updPort l fun p => { p with rx := rx }

/-- A good character in the assembly (R171). -/
def assemble (l : LinkId) (b : Byte) (s : State) : State :=
  let rx := (s.port l).rx
  match rx.stage with
  | .hunt => if b = 0x5A#8 then s.setRx l ⟨.length, 0, []⟩ else s
  | .length =>
    if within 1 60 b.toNat then s.setRx l ⟨.body, b.toNat, []⟩ else (s.setRx l .hunting).discard l .len
  | .body =>
    let chars := rx.chars ++ [b]
    s.setRx l ⟨if chars.length < rx.len then .body else .check, rx.len, chars⟩
  | .check =>
    let chars := rx.chars ++ [b]
    if chars.length < rx.len + 2 then s.setRx l ⟨.check, rx.len, chars⟩
    else completeFrame l rx.len chars (s.setRx l .hunting)

/-- A character as the receiver hands it on (R170 to R172). -/
def takeChar (l : LinkId) (c : RxChar) (s : State) : State :=
  match c with
  | .good b => assemble l b s
  | .parity _ => (s.setRx l .hunting).discard l .parity
  | .framing _ => (s.setRx l .hunting).discard l .framing

/-- The character goes to the test checker during a link test (R170, R180). -/
def toChecker (l : LinkId) (wave : LineWave) (s : State) : State :=
  match l with
  | .mach m => doTestCharacter m wave s
  | .sup => s

/-- CHARACTER_RECEIVED (R170, R171). -/
def doCharacterReceived (l : LinkId) (wave : LineWave) (s : State) : State :=
  if s.inTest l then toChecker l wave s
  else
    match rxChar (s.port l).settings wave with
    | some c => takeChar l c s
    | none => s

/-- Meaning of CHARACTER_RECEIVED. -/
def execCharacterReceived (l : LinkId) (wave : LineWave) (s : State) : Host.Outcome State Fault Refusal :=
  .next (doCharacterReceived l wave s).settle

end Sys2Proof.Machine
end

