-- ==== Sys2Proof/Machine/Dispatch.lean ====
section
/-! DEFINITION. exec: one arm per command, each a direct call of its meaning. -/

namespace Sys2Proof.Machine

open Sys2Proof

/-- The effect of a command on everything but the queue of commands waiting. -/
def exec (i : Instr) (s : State) : Host.Outcome State Fault Refusal :=
  match i with
  | .hardReset => Sys2Proof.Machine.execHardReset s
  | .controlTick => Sys2Proof.Machine.execControlTick s
  | .oneSecondTick => Sys2Proof.Machine.execOneSecondTick s
  | .inspectionAccrual side => Sys2Proof.Machine.execInspectionAccrual side s
  | .readyExpiry oven => Sys2Proof.Machine.execReadyExpiry oven s
  | .overdueExpiry oven => Sys2Proof.Machine.execOverdueExpiry oven s
  | .dueExpiry => Sys2Proof.Machine.execDueExpiry s
  | .holdOverExpiry => Sys2Proof.Machine.execHoldOverExpiry s
  | .rangeStepEnd => Sys2Proof.Machine.execRangeStepEnd s
  | .useDeadlineExpiry m => Sys2Proof.Machine.execUseDeadlineExpiry m s
  | .tRamExpiry => Sys2Proof.Machine.execTRamExpiry s
  | .stageTimerExpiry => Sys2Proof.Machine.execStageTimerExpiry s
  | .confirmExpiry oven side => Sys2Proof.Machine.execConfirmExpiry oven side s
  | .taskTimerExpiry side => Sys2Proof.Machine.execTaskTimerExpiry side s
  | .roundVisitTimerExpiry side => Sys2Proof.Machine.execRoundVisitTimerExpiry side s
  | .isolateTimerExpiry => Sys2Proof.Machine.execIsolateTimerExpiry s
  | .valveTaskTimerExpiry => Sys2Proof.Machine.execValveTaskTimerExpiry s
  | .chargeTimerExpiry oven => Sys2Proof.Machine.execChargeTimerExpiry oven s
  | .moveTimerExpiry => Sys2Proof.Machine.execMoveTimerExpiry s
  | .hotTimerExpiry => Sys2Proof.Machine.execHotTimerExpiry s
  | .sprayTimerExpiry => Sys2Proof.Machine.execSprayTimerExpiry s
  | .drainTimerExpiry => Sys2Proof.Machine.execDrainTimerExpiry s
  | .coolTimerExpiry bay => Sys2Proof.Machine.execCoolTimerExpiry bay s
  | .gateTimerExpiry => Sys2Proof.Machine.execGateTimerExpiry s
  | .mLinkSilenceExpiry m => Sys2Proof.Machine.execMLinkSilenceExpiry m s
  | .sLinkSilenceExpiry => Sys2Proof.Machine.execSLinkSilenceExpiry s
  | .characterGapExpiry l => Sys2Proof.Machine.execCharacterGapExpiry l s
  | .characterReceived l wave => Sys2Proof.Machine.execCharacterReceived l wave s
  | .testCharacter m wave => Sys2Proof.Machine.execTestCharacter m wave s
  | .sLinkFrameSent => Sys2Proof.Machine.execSLinkFrameSent s
  | .mLinkFrameSent m => Sys2Proof.Machine.execMLinkFrameSent m s
  | .inputLevelChange t energised => Sys2Proof.Machine.execInputLevelChange t energised s
  | .terminalOverload t => Sys2Proof.Machine.execTerminalOverload t s
  | .status sender mode motion spot => Sys2Proof.Machine.execStatus sender mode motion spot s
  | .requestDoorOffPs m oven => Sys2Proof.Machine.execRequestDoorOffPs m oven s
  | .requestDoorOffCs m oven => Sys2Proof.Machine.execRequestDoorOffCs m oven s
  | .requestPush m oven => Sys2Proof.Machine.execRequestPush m oven s
  | .requestCharge m oven => Sys2Proof.Machine.execRequestCharge m oven s
  | .doorOff m oven side => Sys2Proof.Machine.execDoorOff m oven side s
  | .doorOn m oven side => Sys2Proof.Machine.execDoorOn m oven side s
  | .doorTight m oven side => Sys2Proof.Machine.execDoorTight m oven side s
  | .ramStart m oven => Sys2Proof.Machine.execRamStart m oven s
  | .ramAtEnd m oven => Sys2Proof.Machine.execRamAtEnd m oven s
  | .ramHome m oven => Sys2Proof.Machine.execRamHome m oven s
  | .chargeStart m oven => Sys2Proof.Machine.execChargeStart m oven s
  | .chargeEnd m oven => Sys2Proof.Machine.execChargeEnd m oven s
  | .valve m oven state => Sys2Proof.Machine.execValve m oven state s
  | .leakSeen m oven side => Sys2Proof.Machine.execLeakSeen m oven side s
  | .taskDone m oven kind result => Sys2Proof.Machine.execTaskDone m oven kind result s
  | .ccTaskDone oven action result => Sys2Proof.Machine.execCcTaskDone oven action result s
  | .dumpDone m bay => Sys2Proof.Machine.execDumpDone m bay s
  | .battery tag nOv k lasts => Sys2Proof.Machine.execBattery tag nOv k lasts s
  | .series tag p start => Sys2Proof.Machine.execSeries tag p start s
  | .timing tag v => Sys2Proof.Machine.execTiming tag v s
  | .pressure tag sec p => Sys2Proof.Machine.execPressure tag sec p s
  | .wharf tag v => Sys2Proof.Machine.execWharf tag v s
  | .doors tag v => Sys2Proof.Machine.execDoors tag v s
  | .terminal tag t fn invert drive edge => Sys2Proof.Machine.execTerminal tag t fn invert drive edge s
  | .link tag l v => Sys2Proof.Machine.execLink tag l v s
  | .ovenLoad tag v => Sys2Proof.Machine.execOvenLoad tag v s
  | .setTime tag t => Sys2Proof.Machine.execSetTime tag t s
  | .ovenService tag oven dir => Sys2Proof.Machine.execOvenService tag oven dir s
  | .setTarget tag oven target => Sys2Proof.Machine.execSetTarget tag oven target s
  | .makeup tag oven => Sys2Proof.Machine.execMakeup tag oven s
  | .cancelMakeup tag oven => Sys2Proof.Machine.execCancelMakeup tag oven s
  | .planStart tag start => Sys2Proof.Machine.execPlanStart tag start s
  | .planHalt tag => Sys2Proof.Machine.execPlanHalt tag s
  | .planResume tag => Sys2Proof.Machine.execPlanResume tag s
  | .planStage tag => Sys2Proof.Machine.execPlanStage tag s
  | .setMode tag oven mode fixedPush => Sys2Proof.Machine.execSetMode tag oven mode fixedPush s
  | .setModeRange tag first last mode fixedPush => Sys2Proof.Machine.execSetModeRange tag first last mode fixedPush s
  | .rangeAbort tag => Sys2Proof.Machine.execRangeAbort tag s
  | .clearBreach tag oven => Sys2Proof.Machine.execClearBreach tag oven s
  | .pushRetry tag oven => Sys2Proof.Machine.execPushRetry tag oven s
  | .abandon tag oven => Sys2Proof.Machine.execAbandon tag oven s
  | .leakReport tag oven side => Sys2Proof.Machine.execLeakReport tag oven side s
  | .setDamper tag sec value => Sys2Proof.Machine.execSetDamper tag sec value s
  | .setAuto tag sec => Sys2Proof.Machine.execSetAuto tag sec s
  | .setSetpoint tag sec value => Sys2Proof.Machine.execSetSetpoint tag sec value s
  | .trackBlock tag first last => Sys2Proof.Machine.execTrackBlock tag first last s
  | .trackFree tag first last => Sys2Proof.Machine.execTrackFree tag first last s
  | .setOutput tag t level => Sys2Proof.Machine.execSetOutput tag t level s
  | .toggle tag t => Sys2Proof.Machine.execToggle tag t s
  | .clearTerminal tag t => Sys2Proof.Machine.execClearTerminal tag t s
  | .linkClear tag l => Sys2Proof.Machine.execLinkClear tag l s
  | .linkTest tag l => Sys2Proof.Machine.execLinkTest tag l s
  | .testRead tag l => Sys2Proof.Machine.execTestRead tag l s
  | .testEnd tag l => Sys2Proof.Machine.execTestEnd tag l s
  | .commit tag => Sys2Proof.Machine.execCommit tag s
  | .restart tag => Sys2Proof.Machine.execRestart tag s
  | .unknownRequest tag => Sys2Proof.Machine.execUnknownRequest tag s
  | .statusQuery tag => Sys2Proof.Machine.execStatusQuery tag s
  | .timeQuery tag => Sys2Proof.Machine.execTimeQuery tag s
  | .ovenQuery tag oven => Sys2Proof.Machine.execOvenQuery tag oven s
  | .planQuery tag => Sys2Proof.Machine.execPlanQuery tag s
  | .slotQuery tag index => Sys2Proof.Machine.execSlotQuery tag index s
  | .machinesQuery tag => Sys2Proof.Machine.execMachinesQuery tag s
  | .pushQuery tag => Sys2Proof.Machine.execPushQuery tag s
  | .doorQuery tag oven => Sys2Proof.Machine.execDoorQuery tag oven s
  | .tasksQuery tag side => Sys2Proof.Machine.execTasksQuery tag side s
  | .sectionQuery tag sec => Sys2Proof.Machine.execSectionQuery tag sec s
  | .valvesQuery tag oven => Sys2Proof.Machine.execValvesQuery tag oven s
  | .quenchQuery tag => Sys2Proof.Machine.execQuenchQuery tag s
  | .terminalsQuery tag t => Sys2Proof.Machine.execTerminalsQuery tag t s
  | .pressInPulseEdge t => Sys2Proof.Machine.execPressInPulseEdge t s
  | .damperPwmPeriodStart t => Sys2Proof.Machine.execDamperPwmPeriodStart t s

end Sys2Proof.Machine
end

