-- ==== Sys2Proof/Safety.lean ====
section
/-! DEFINITION. What every step keeps: the ranges and shapes the spec's tables give the state (`Inv`), no permit while the
machine hold is in force (`HoldSafe`), and a load record and tower timer that follow the car state (`CarSafe`). -/

namespace Sys2Proof.Machine

open Sys2Proof

/-! ## Ranges and shapes, block by block -/

/-- Battery time is in its range, and the control ticks of a second are four (R1, R2). -/
abbrev TimeBase.Ok (b : TimeBase) : Prop := b.time ≤ tMax ∧ b.phase < 4

/-- An oven record: its section, G, the sticker count, a fixed push time exactly in FIXED, t_c exactly in COKING, READY and
PUSHING (R8, R9). -/
abbrev OvenRec.Ok (o : OvenRec) : Prop :=
  (1 ≤ o.sec ∧ o.sec ≤ 4) ∧ (600 ≤ o.target ∧ o.target ≤ 2400) ∧ o.stickers ≤ 3
    ∧ (o.mode = .fixed ↔ o.fixedPush.isSome)
    ∧ (o.chargeEnd.isSome ↔ (o.state = .coking ∨ o.state = .ready ∨ o.state = .pushing))

/-- Of the ovens of a section at most one is CHARGING (R11). -/
abbrev OneCharging (l : List OvenRec) : Prop :=
  ∀ i j a b, nth1 l i = some a → nth1 l j = some b → a.state = .charging → b.state = .charging → a.sec = b.sec → i = j

/-- The oven table: at most 96 ovens, each record within its ranges, one CHARGING oven in a section (R7, R9, R11). -/
abbrev OvensOk (l : List OvenRec) : Prop := l.length ≤ 96 ∧ (∀ o ∈ l, o.Ok) ∧ OneCharging l

/-- The round kept has a number in range and its cursor at one of its slots (R24, R26, R39). -/
abbrev RoundOk (r : Option RoundRec) (cursor : Option Nat) : Prop :=
  match r with
  | none => cursor = none
  | some r => r.number ≤ 65535 ∧ ∀ i, cursor = some i → i < r.slots.length

/-- The range operation holds a fixed push time exactly for FIXED (R42). -/
abbrev RangeOk (r : Option RangeOp) : Prop := ∀ x, r = some x → (x.mode = .fixed ↔ x.fixedPush.isSome)

/-- The planner: Λ, the make-up list, series parameters, the round, no round when IDLE (R22, R25, R32, R39, R46). -/
abbrev Planner.Ok (p : Planner) : Prop :=
  p.lag ≤ 86400 ∧ p.makeup.length ≤ 8 ∧ (p.makeup.map MakeupEntry.oven).Nodup ∧ seriesOk p.active = true
    ∧ seriesOk p.staged = true ∧ RoundOk p.round p.cursor ∧ (p.state = .idle → p.round = none) ∧ RangeOk p.range

/-- A permit stands under the machine its kind belongs to, and none under QC (R51). -/
abbrev PermitsOk (q : Quad (Option Permit)) : Prop := ∀ m p, q.get m = some p → PermitKind.machine p.kind = m

/-- The push record: attempts 1..3, armed-from in ARMED only (R70). -/
abbrev PushRec.Ok (p : PushRec) : Prop :=
  (1 ≤ p.attempts ∧ p.attempts ≤ 3) ∧ (p.stage = .armed ↔ p.armedFrom.isSome)

/-- The interlock unit. -/
abbrev Interlock.Ok (k : Interlock) : Prop := PermitsOk k.permits ∧ ∀ p, k.push = some p → p.Ok

/-- A task queue: at most 16 entries, RESEAL before CLEAN before INSPECT, no two of one oven and kind (R93). -/
abbrev QueueOk (q : List TaskEntry) : Prop :=
  q.length ≤ 16 ∧ (q.Pairwise fun a b => TaskKind.rank a.kind ≤ TaskKind.rank b.kind)
    ∧ (q.map fun e => (e.oven, e.kind)).Nodup

/-- An inspection round: debt −8..8, elapsed time to 7,200 s (R101). -/
abbrev Inspection.Ok (r : Inspection) : Prop := (-8 ≤ r.debt ∧ r.debt ≤ 8) ∧ r.elapsed ≤ 7200

/-- The door unit (R88, R91, R93, R101). -/
abbrev DoorUnit.Ok (d : DoorUnit) : Prop :=
  (∀ p ∈ d.doors, p.ps.leaks ≤ 15 ∧ p.cs.leaks ≤ 15) ∧ QueueOk d.queues.ps ∧ QueueOk d.queues.cs
    ∧ d.rounds.ps.Ok ∧ d.rounds.cs.Ok ∧ doorsOk d.vals = true

/-- The live fields of an active section: the transfer pending flag exactly in AUTO, u_out in per mille, run counters below
their thresholds (R108, R122). -/
abbrev SecLive.Ok (v : SecLive) : Prop :=
  (v.transfer.isSome ↔ v.mode = .auto) ∧ (0 ≤ v.uOut ∧ v.uOut ≤ 1000) ∧ v.counters.rise < 4 ∧ v.counters.flare < 4 ∧ v.counters.settle < 8
    ∧ v.counters.low < 4

/-- A section record: P, A, F, the good-reading run, parameters in range and present when active (R108, R109). -/
abbrev SecRec.Ok (r : SecRec) : Prop :=
  (∀ p, r.pressure = some p → -250 ≤ p ∧ p ≤ 750) ∧ (0 ≤ r.integ ∧ r.integ ≤ 256000) ∧ (-300 ≤ r.ff ∧ r.ff ≤ 300) ∧ r.goodRun ≤ 8
    ∧ (∀ p, r.params = some p → pressureOk p = true) ∧ (r.live.isSome → r.params.isSome)
    ∧ ∀ v, r.live = some v → v.Ok

/-- The offtake unit: at most four sections, four gates, eight valve tasks, no two of one oven (R7, R108, R111, R130). -/
abbrev Offtake.Ok (o : Offtake) : Prop :=
  o.sections.length ≤ 4 ∧ (∀ r ∈ o.sections, r.Ok) ∧ o.gates.length = 4 ∧ o.queue.length ≤ 8
    ∧ (o.queue.map ValveEntry.oven).Nodup

/-- A bay is FREE. -/
def QuenchUnit.isFree (q : QuenchUnit) (b : Nat) : Prop := ∃ t, nth1 q.bays b = some (.free t)

/-- A bay is ASSIGNED. -/
def QuenchUnit.isAssigned (q : QuenchUnit) (b : Nat) : Prop := ∃ o, nth1 q.bays b = some (.assigned o)

/-- The quench unit: WHARF values in range, one record for each bay, the free list holding each FREE bay once and no other,
the load's bay ASSIGNED (R152, R153, R156). -/
abbrev QuenchUnit.Ok (q : QuenchUnit) : Prop :=
  wharfOk q.vals = true ∧ q.bays.length = q.vals.bays ∧ q.free.Nodup ∧ (∀ b, b ∈ q.free ↔ q.isFree b)
    ∧ ∀ l b, q.load = some l → l.bay = some b → q.isAssigned b

/-- The terminal block: 32 terminals, and no function but UNASSIGNED, INPUT and OUTPUT on two of them (R159, R160). -/
abbrev TerminalsOk (l : List TermRec) : Prop :=
  l.length = 32 ∧ ((l.map TermRec.fn).filter fun f => !(TermFn.shared f)).Nodup

/-- An M-link: queue, counts, and nothing queued, sent or ONLINE during a link test (R172, R178 to R180). -/
abbrev MLink.Ok (k : MLink) : Prop :=
  k.queue.length ≤ 16 ∧ k.port.errors ≤ 255 ∧ k.test.internalErrors ≤ 65535 ∧ k.test.received ≤ 4294967295
    ∧ (k.test.active = true → k.port.up = false ∧ k.queue = [] ∧ k.sending = none)

/-- The links (R172, R176 to R180). -/
abbrev Links.Ok (l : Links) : Prop :=
  l.sup.port.errors ≤ 255 ∧ l.sup.answers.length ≤ 4 ∧ l.sup.notices.length ≤ 32
    ∧ l.mach.pm.Ok ∧ l.mach.gc.Ok ∧ l.mach.cc.Ok ∧ l.mach.qc.Ok

/-- The configuration store (R181). -/
abbrev ConfigStore.Ok (c : ConfigStore) : Prop := timingOk c.timing = true

/-- The pointer of an inspection round stands at an oven of the table, at 1 while there is none (R101). -/
abbrev PointerOk (nOv : Nat) (r : Inspection) : Prop := 1 ≤ r.pointer ∧ r.pointer ≤ max 1 nOv

/-- Each oven has two door records and a valve record (R88, R128), the pointers stand at ovens (R101), battery time is
settled in RUN (R5), and there is no oven before BATTERY (R7). -/
abbrev TablesOk (s : State) : Prop :=
  s.dru.doors.length = s.ot.length ∧ s.ofu.valves.length = s.ot.length ∧ (s.inRun = true → s.tb.timeOpen = false)
    ∧ PointerOk s.ot.length s.dru.rounds.ps ∧ PointerOk s.ot.length s.dru.rounds.cs
    ∧ (s.cfg.loaded.battery = false → s.ot = [])

/-- Every field within the range and shape the spec's tables give it. -/
structure Inv (s : State) : Prop where
  tb : s.tb.Ok
  ot : OvensOk s.ot
  pln : s.pln.Ok
  ilk : s.ilk.Ok
  dru : s.dru.Ok
  ofu : s.ofu.Ok
  qnu : s.qnu.Ok
  trm : TerminalsOk s.trm
  lnk : s.lnk.Ok
  cfg : s.cfg.Ok
  tables : TablesOk s

/-! ## Safety of the machines -/

/-- While the machine hold is in force no permit is, and QC never holds one (R51, R52, R63, R65, R69). -/
def HoldSafe (s : State) : Prop := s.permit .qc = none ∧ (s.hold = true → ∀ m, s.permit m = none)

/-- A car state in which the quench unit holds a load record (R149, R152). -/
def CarState.loaded : CarState → Bool
  | .toTower | .quenching | .draining | .waitBay | .toBay _ | .dumping => true
  | _ => false

/-- A car state in which the spray or drain timer runs (R151). -/
def CarState.inTower : CarState → Bool
  | .quenching | .draining => true
  | _ => false

/-- A load record stands exactly from the ram end to DUMP_DONE, and a phase timer exactly in QUENCHING and DRAINING (R149,
R151, R152). -/
def CarSafe (s : State) : Prop :=
  s.qnu.load.isSome = s.qnu.car.state.loaded ∧ s.qnu.phase.isSome = s.qnu.car.state.inTower

/-! ## Words of the statements: how a command's event ends, and which partner a command comes from -/

/-- The outcome of a command whose effect is `u`: the event ends (R3, R177, R178; log 6, 10). -/
def ends (u : State) : Host.Outcome State Fault Refusal := .next u.settle

/-- The outcome of a supervisor request whose effect is `u`: its ANSWER joins the answer queue (R176). -/
def answered (tag : Byte) (c : ResultCode) (d : AnswerData) (u : State) : Host.Outcome State Fault Refusal :=
  ends (u.pushAnswer tag ⟨c, d, none⟩)

/-- A battery time that may be absent, at the head of a body: when its form (free: log 12) says that it is there, its four
characters follow, high first (R173). -/
def optionalTime (bs : List Byte) : Option (Option Time32 × List Byte) :=
  match Config.optionalMark 4 bs with
  | (true, n) =>
    match bs.drop n with
    | a :: b :: c :: d :: rest => some (some (((a ++ b) ++ (c ++ d)).setWidth 32), rest)
    | _ => none
  | (false, n) => if n ≤ bs.length then some (none, bs.drop n) else none

/-- A field of one character that may be absent, at the head of a body (R173; its form: log 12). -/
def optionalByte (bs : List Byte) : Option (Option Byte × List Byte) :=
  match Config.optionalMark 1 bs with
  | (true, n) =>
    match bs.drop n with
    | b :: rest => some (some b, rest)
    | [] => none
  | (false, n) => if n ≤ bs.length then some (none, bs.drop n) else none

/-- There is room for one more answer (R176). -/
abbrev State.room (s : State) : Prop := s.lnk.sup.answers.length < 4

/-- The M-link of a machine is in no link test (R179). -/
abbrev State.untested (s : State) (m : MachineId) : Prop := (s.mlink m).test.active = false

/-- A valid frame of a machine has restarted its link's silence timer (R174). -/
def State.heardFrom (s : State) (m : MachineId) : State := s.updPort (.mach m) fun p => { p with silence := true }

/-- The tag of a supervisor request (R176). -/
def requestTag : Instr → Option Byte
  | .battery g _ _ _ | .series g _ _ | .timing g _ | .pressure g _ _ | .wharf g _ | .doors g _ => some g
  | .terminal g _ _ _ _ _ | .link g _ _ | .ovenLoad g _ | .setTime g _ | .ovenService g _ _ | .setTarget g _ _ => some g
  | .makeup g _ | .cancelMakeup g _ | .planStart g _ | .planHalt g | .planResume g | .planStage g => some g
  | .setMode g _ _ _ | .setModeRange g _ _ _ _ | .rangeAbort g | .clearBreach g _ | .pushRetry g _ => some g
  | .abandon g _ | .leakReport g _ _ | .setDamper g _ _ | .setAuto g _ | .setSetpoint g _ _ => some g
  | .trackBlock g _ _ | .trackFree g _ _ | .setOutput g _ _ | .toggle g _ | .clearTerminal g _ => some g
  | .linkClear g _ | .linkTest g _ | .testRead g _ | .testEnd g _ | .commit g | .restart g | .unknownRequest g => some g
  | .statusQuery g | .timeQuery g | .ovenQuery g _ | .planQuery g | .slotQuery g _ | .machinesQuery g => some g
  | .pushQuery g | .doorQuery g _ | .tasksQuery g _ | .sectionQuery g _ | .valvesQuery g _ | .quenchQuery g => some g
  | .terminalsQuery g _ => some g
  | _ => none

/-- The machine whose frame a command is (R173). -/
def senderOf : Instr → Option MachineId
  | .status f _ _ _ => some f.machine
  | .requestDoorOffPs m _ | .requestDoorOffCs m _ | .requestPush m _ | .requestCharge m _ => some m
  | .doorOff m _ _ | .doorOn m _ _ | .doorTight m _ _ | .ramStart m _ | .ramAtEnd m _ | .ramHome m _ => some m
  | .chargeStart m _ | .chargeEnd m _ | .valve m _ _ | .leakSeen m _ _ | .dumpDone m _ => some m
  | .taskDone f _ _ _ => some f.machine
  | .ccTaskDone _ _ _ => some .cc
  | _ => none

end Sys2Proof.Machine
end

