-- ==== Sys2Proof/Certificates/Slice0/Obligations.lean ====
section
/-! DEFINITION. The statements for the provers. `ends u` is the outcome of a command whose effect is `u`, `answered` that of
a supervisor request (Safety.lean); `s.supervisorHeard` and `s.heardFrom m` are `s` with the frame itself taken (R174,
R175). That a refusal for which no rule names data carries its code alone is the model's reading (log 38), and so is that
STATE comes before RANGE (log 32). -/

open Sys2Proof Sys2Proof.Machine

/-! ## The step, the queue and the end of an event -/

/-- A step takes the command at the front of the queue and runs it on the state with the queue's rest. -/
def Obligations.StepRunsTheFrontCommand : Prop :=
  ∀ (c : Instr) (rest : List Instr) (s : State),
    s.pending = c :: rest → step s = exec c { s with pending := rest }

/-- On an empty queue the part idles; a link in test sends one more character of its stream, the next eight bits least
significant first, at the link's line settings (R179, R180). Each new bit of the stream is the exclusive-or of the bits 15
and 14 places before it (R180). The model's choices: that it does so on an empty queue (log 2), that the line shows the
character whole (log 58), and that the new bits are sent, not the fifteen ones loaded (log 70). -/
def Obligations.EmptyQueueIdles : Prop :=
  (∀ (r : BitVec 15) (k : Nat),
    let next := streamSteps 1 r
    streamSteps 0 r = r ∧ streamSteps (k + 1) r = streamSteps k next
    ∧ next.getLsbD 0 = (r.getLsbD 14 ^^ r.getLsbD 13) ∧ ∀ i, i < 14 → next.getLsbD (i + 1) = r.getLsbD i)
  ∧ ∀ s : State, s.pending = [] →
    ∃ t, step s = .next t ∧ t = { s with lnk.mach := t.lnk.mach }
      ∧ ∀ m, ∃ c : Byte,
        let k := s.mlink m
        let g := streamSteps 8 k.test.generator
        (∀ i, i < 8 → c.getLsbD i = g.getLsbD (7 - i))
          ∧ t.mlink m = if k.test.active then { k with test.generator := g, line := [charCells k.port.settings c] } else k

/-- Every command answers a next state, and leaves the queue of commands to the step: neither a fault nor a refusal, in any
state and with any operands, those that no frame can carry among them (log 37). That HARD_RESET leaves the commands waiting
too is the model's choice (log 3). What each command does is said by the statements about it. -/
def Obligations.EveryCommandCompletes : Prop :=
  ∀ (c : Instr) (s : State), ∃ t, exec c s = .next t ∧ t.pending = s.pending

/-- How an event ends: the S-link transmitter, when idle, takes the head answer, else the head notice while PRESENT; each
M-link transmitter, when idle and not in test, the head of its queue; nothing else changes (R177, R178). While battery time
is held at the maximum, the expiries that are due come first, each as its command makes it, pass after pass until one
changes nothing (R3; order and bound: log 6). A notice joins its queue with the battery time; with 32 waiting it is dropped
and the notices-lost flag set (R177). A frame joins its link's queue; with 16 waiting it is dropped with OUTPUT_OVERRUN,
once until the queue has been empty; during a link test without a notice (R178). An answer joins its queue (R176). The
characters of the frame taken stand on the line by the settings of that moment until it is sent: 5 to 64 characters, SYNC,
LEN, KIND, the body and the check, a CRC-16 from 0xFFFF with 0x1021, most significant bit first, not inverted (R171), the
kinds with the codes of R173. The bodies of GRANT, REFUSE, REVOKE, ORDER, STOP, CLEAR and NOTICE stand field by field (R173;
codes, absent fields, lists and unsaid forms: log 12; task notices: log 60; that a longer NOTICE goes out cut to 59 body
characters is the model's choice: log 92). The result data of an answer go out in frames of at most 55 characters each, in
one frame when they fit (R176; where longer data are cut is a free value: log 11). A frame sent leaves its transmitter idle,
and the last frame of a LINK answer brings its settings into effect (R169; that a frame half received stays is log 69). The
model's choices: that the transmitters look at their queues at the end of each event (log 10), that a FRAME_SENT with
nothing being sent changes nothing (log 1), and that the line shows the frame's characters whole (log 58). -/
def Obligations.TransmittersTakeTheNextFrame : Prop :=
  (∀ u : State,
    let s := if u.now < tMax then u else State.sweeps (8 * u.nOv + 256) u
    ∃ t, ends u = .next t
      ∧ t = { s with
          lnk.sup.sending := t.lnk.sup.sending, lnk.sup.line := t.lnk.sup.line,
          lnk.sup.answers := t.lnk.sup.answers, lnk.sup.notices := t.lnk.sup.notices, lnk.mach := t.lnk.mach }
      ∧ (s.lnk.sup.sending.isSome → t.lnk.sup = s.lnk.sup)
      ∧ (s.lnk.sup.sending = none → ∀ a rest, s.lnk.sup.answers = a :: rest →
          let f : SFrame := .answer a.tag a.reply (a.begun + 1) (decide (a.reply.data.parts ≤ a.begun + 1))
          t.lnk.sup.notices = s.lnk.sup.notices ∧ t.lnk.sup.sending = some f
          ∧ t.lnk.sup.line = f.chars.map (charCells s.lnk.sup.port.settings)
          ∧ t.lnk.sup.answers =
              if a.reply.data.parts ≤ a.begun + 1 then rest else { a with begun := a.begun + 1 } :: rest)
      ∧ (s.lnk.sup.sending = none → s.lnk.sup.answers = [] → s.present = true → ∀ n rest, s.lnk.sup.notices = n :: rest →
          t.lnk.sup = { s.lnk.sup with
            sending := some (.notice n)
            line := (SFrame.notice n).chars.map (charCells s.lnk.sup.port.settings)
            notices := rest })
      ∧ (s.lnk.sup.sending = none → s.lnk.sup.answers = [] → (s.present = false ∨ s.lnk.sup.notices = []) →
          t.lnk.sup = s.lnk.sup)
      ∧ ∀ m, t.mlink m =
          match (s.mlink m).sending, (s.mlink m).test.active, (s.mlink m).queue with
          | none, false, f :: rest =>
            { s.mlink m with
              sending := some f, line := f.chars.map (charCells (s.mlink m).port.settings), queue := rest,
              suppressed := (s.mlink m).suppressed && !rest.isEmpty }
          | _, _, q => { s.mlink m with suppressed := (s.mlink m).suppressed && !q.isEmpty })
  ∧ (∀ s : State,
    State.sweeps 0 s = s
    ∧ (∀ k, State.sweeps (k + 1) s = if s.sweepOnce = s then s else State.sweeps k s.sweepOnce)
    ∧ (let ovens := numbers 1 s.nOv
      let table := ovens.foldl State.overdueCheck (ovens.foldl State.readyExpire s)
      let permits := ((table.dueExpire.holdOverExpire.deadlineExpire .pm).deadlineExpire .gc).deadlineExpire .cc
      let doors := ovens.foldl (fun u n => (u.confirmTimerExpire n .ps).confirmTimerExpire n .cs)
        permits.ramTimerExpire.lateTimerExpire
      let tasks := (((doors.taskTimerExpire .ps).taskTimerExpire .cs).visitTimerExpire .ps).visitTimerExpire .cs
      let charges := ovens.foldl State.chargeTimerExpire tasks.isolateExpire.valveTimerExpire
      let car := charges.moveTimerExpire.hotTimerExpire.sprayExpire.drainExpire
      s.sweepOnce = ((numbers 1 car.qnu.bays.length).foldl State.coolExpire car).gateExpire)
    ∧ (∀ n, exec (.readyExpiry n) s = ends (s.readyExpire n) ∧ exec (.overdueExpiry n) s = ends (s.overdueCheck n)
      ∧ exec (.chargeTimerExpiry n) s = ends (s.chargeTimerExpire n) ∧ exec (.coolTimerExpiry n) s = ends (s.coolExpire n))
    ∧ exec .dueExpiry s = ends s.dueExpire ∧ exec .holdOverExpiry s = ends s.holdOverExpire
    ∧ (∀ m, exec (.useDeadlineExpiry m) s = ends (s.deadlineExpire m))
    ∧ exec .tRamExpiry s = ends s.ramTimerExpire ∧ exec .stageTimerExpiry s = ends s.lateTimerExpire
    ∧ (∀ d, exec (.taskTimerExpiry d) s = ends (s.taskTimerExpire d)
      ∧ exec (.roundVisitTimerExpiry d) s = ends (s.visitTimerExpire d)
      ∧ ∀ n, exec (.confirmExpiry n d) s = ends (s.confirmTimerExpire n d))
    ∧ exec .isolateTimerExpiry s = ends s.isolateExpire ∧ exec .valveTaskTimerExpiry s = ends s.valveTimerExpire
    ∧ exec .moveTimerExpiry s = ends s.moveTimerExpire ∧ exec .hotTimerExpiry s = ends s.hotTimerExpire
    ∧ exec .sprayTimerExpiry s = ends s.sprayExpire ∧ exec .drainTimerExpiry s = ends s.drainExpire
    ∧ exec .gateTimerExpiry s = ends s.gateExpire)
  ∧ (∀ (s : State) (b : NoticeBody),
    (s.lnk.sup.notices.length < 32 → s.raise b = { s with lnk.sup.notices := s.lnk.sup.notices ++ [⟨s.now, b⟩] })
    ∧ (32 ≤ s.lnk.sup.notices.length → s.raise b = { s with lnk.sup.noticesLost := true }))
  ∧ (∀ (s : State) (m : MachineId) (f : MFrame),
    let k := s.mlink m
    let kind : MKind := match f with
      | .grant .. => .grant
      | .refuse .. => .refuse
      | .revoke .. => .revoke
      | .orderTask .. => .order
      | .orderValve .. => .order
      | .orderMove .. => .order
      | .orderDump .. => .order
      | .stop .. => .stop
      | .clear .. => .clear
    let linkAt (x : MLink) : State := { s with lnk.mach := s.lnk.mach.set m x }
    (∀ x j, (linkAt x).mlink j = if j = m then x else s.mlink j)
    ∧ (k.test.active = true → s.send m f = s)
    ∧ (k.test.active = false → k.queue.length < 16 → s.send m f = linkAt { k with queue := k.queue ++ [f] })
    ∧ (k.test.active = false → 16 ≤ k.queue.length → k.suppressed = true → s.send m f = s)
    ∧ (k.test.active = false → 16 ≤ k.queue.length → k.suppressed = false →
        s.send m f = (linkAt { k with suppressed := true }).raise (.outputOverrun m kind)))
  ∧ (∀ (s : State) (tag : Byte) (r : Reply),
    s.pushAnswer tag r = { s with lnk.sup.answers := s.lnk.sup.answers ++ [⟨tag, r, 0⟩] })
  ∧ (∀ s : State,
    let quiet : State := { s with lnk.sup.sending := none, lnk.sup.line := [] }
    (∀ m, ((s.mlink m).sending = none → exec (.mLinkFrameSent m) s = ends s)
      ∧ ((s.mlink m).sending.isSome →
          exec (.mLinkFrameSent m) s = ends (s.updLink m fun k => { k with sending := none, line := [] })))
    ∧ (s.lnk.sup.sending = none → exec .sLinkFrameSent s = ends s)
    ∧ (∀ n, s.lnk.sup.sending = some (.notice n) → exec .sLinkFrameSent s = ends quiet)
    ∧ ∀ tag r part fin, s.lnk.sup.sending = some (.answer tag r part fin) →
        exec .sLinkFrameSent s = ends (match fin, r.settings with
          | true, some v => { quiet with lnk.sup.port.settings := v }
          | _, _ => quiet))
  ∧ (∀ (kind : Byte) (body : List Byte), body.length ≤ 59 →
      let checked := BitVec.ofNat 8 (body.length + 1) :: kind :: body
      frameChars kind body = 0x5A#8 :: checked ++ [(crc16 checked).extractLsb' 8 8, (crc16 checked).extractLsb' 0 8])
  ∧ (∀ (kind : Byte) (body : List Byte), frameChars kind body = frameChars kind (body.take 59))
  ∧ crc16 [] = 0xFFFF#16
  ∧ (∀ (sent : List Byte) (b : Byte), crc16 (sent ++ [b]) = [7, 6, 5, 4, 3, 2, 1, 0].foldl (fun (c : BitVec 16) (i : Nat) =>
      if c.getLsbD 15 ≠ b.getLsbD i then (c <<< 1) ^^^ 0x1021#16 else c <<< 1) (crc16 sent))
  ∧ (∀ f : MFrame, f.body.length ≤ 59 ∧ f.chars = frameChars (match f with
      | .grant .. => 0x41#8
      | .refuse .. => 0x42#8
      | .revoke .. => 0x43#8
      | .orderTask .. => 0x44#8
      | .orderValve .. => 0x44#8
      | .orderMove .. => 0x44#8
      | .orderDump .. => 0x44#8
      | .stop .. => 0x45#8
      | .clear .. => 0x46#8) f.body
      ∧ f.body = (
        let b1 (n : Nat) : Byte := BitVec.ofNat 8 n
        let time (n : Nat) : List Byte := [b1 (n / 16777216), b1 (n / 65536), b1 (n / 256), b1 n]
        match f with
        | .grant k n deadline => Config.permitKindCode k :: b1 n :: time deadline
        | .refuse k n r held => (match k with
            | .known k => Config.permitKindCode k
            | .unknown code => code) :: b1 n :: Config.reasonCode r :: (match held with
            | some p => Config.permitKindCode p.kind :: b1 p.oven :: time p.deadline
            | none => [])
        | .revoke k n r => [Config.permitKindCode k, b1 n, Config.reasonCode r]
        | .orderTask k n d round => [Config.orderTypeCode .task, Config.taskKindCode k, b1 n,
            Config.spotSideCode (match d with
              | .ps => .ps
              | .cs => .cs), Config.flagCode round]
        | .orderValve a n => [Config.orderTypeCode .task, Config.actionCode a, b1 n]
        | .orderMove .park => [Config.orderTypeCode .move, Config.spotTypeCode .park, Config.noNumber]
        | .orderMove (.oven n) => [Config.orderTypeCode .move, Config.spotTypeCode .oven, b1 n]
        | .orderMove .tower => [Config.orderTypeCode .move, Config.spotTypeCode .tower, Config.noNumber]
        | .orderMove (.bay b) => [Config.orderTypeCode .move, Config.spotTypeCode .wharf, b1 b]
        | .orderDump b => [Config.orderTypeCode .dump, b1 b]
        | .stop c => [Config.holdCauseCode c]
        | .clear c => [Config.holdCauseCode c]))
  ∧ (∀ note : Notice,
    let b1 (n : Nat) : List Byte := [BitVec.ofNat 8 n]
    let b2 (n : Nat) : List Byte := [BitVec.ofNat 8 (n / 256), BitVec.ofNat 8 n]
    let i2 (v : Int) : List Byte := [(BitVec.ofInt 16 v).extractLsb' 8 8, (BitVec.ofInt 16 v).extractLsb' 0 8]
    let b4 (n : Nat) : List Byte :=
      [BitVec.ofNat 8 (n / 16777216), BitVec.ofNat 8 (n / 65536), BitVec.ofNat 8 (n / 256), BitVec.ofNat 8 n]
    let flag (b : Bool) : List Byte := [Config.flagCode b]
    let opt (o : Option (List Byte)) : List Byte := match o with
      | some cs => Config.presentMark cs.length ++ cs
      | none => Config.absentChars
    let side (d : Side) : List Byte := [Config.spotSideCode (match d with
      | .ps => .ps
      | .cs => .cs)]
    let numbered (x : Config.SpotType) (n : Option Nat) : List Byte := [Config.spotTypeCode x, match n with
      | some n => BitVec.ofNat 8 n
      | none => Config.noNumber]
    let dest (x : MoveDest) : List Byte := match x with
      | .park => numbered .park none
      | .oven n => numbered .oven (some n)
      | .tower => numbered .tower none
      | .bay b => numbered .wharf (some b)
    let track (x : TrackSpot) : List Byte := match x with
      | .park => numbered .park none
      | .oven n => numbered .oven (some n)
      | .tower => numbered .tower none
      | .wharf => numbered .wharf none
    let spot (x : ReportedSpot) : List Byte := match x with
      | .oven n d => numbered .oven (some n) ++ [Config.spotSideCode d]
      | .park => numbered .park none ++ [Config.noSide]
      | .tower => numbered .tower none ++ [Config.noSide]
      | .wharf b => numbered .wharf (some b) ++ [Config.noSide]
      | .bunker => numbered .bunker none ++ [Config.noSide]
    let car (c : CarState) : List Byte := [Config.carStateCode c.ctorIdx, match c with
      | .toOven (.oven n) => BitVec.ofNat 8 n
      | .spotted n => BitVec.ofNat 8 n
      | .loading n => BitVec.ofNat 8 n
      | .toBay b => BitVec.ofNat 8 b
      | _ => Config.noNumber]
    let fn (x : TermFn) : List Byte := match x with
      | .unassigned => [Config.fnNameCode .unassigned]
      | .input => [Config.fnNameCode .input]
      | .output => [Config.fnNameCode .output]
      | .pressIn k => Config.fnNameCode .pressIn :: b1 k
      | .damperPwm k => Config.fnNameCode .damperPwm :: b1 k
      | .flareOut k => Config.fnNameCode .flareOut :: b1 k
      | .lowAlarm k => Config.fnNameCode .lowAlarm :: b1 k
      | .sprayOut => [Config.fnNameCode .sprayOut]
      | .gateOut b => Config.fnNameCode .gateOut :: b1 b
      | .conveyorRunIn => [Config.fnNameCode .conveyorRunIn]
      | .batteryStopIn => [Config.fnNameCode .batteryStopIn]
    let work (w : WorkItem) : List Byte := match w with
      | .door k => [Config.taskKindCode k]
      | .valve a => [Config.actionCode a]
    let mark (w : WorkItem) (round : Bool) : List Byte := match w with
      | .door _ => flag round
      | .valve _ => []
    let result (r : WorkResult) : List Byte := match r with
      | .door r => [Config.taskResultCode r]
      | .valve r => [Config.valveResultCode r]
    let place (p : WorkPlace) : List Byte := match p with
      | .side d => side d
      | .cc => [Config.machineCode .cc]
    let link (m : MachineId) : List Byte := [Config.linkCode (.mach m)]
    let fields : List Byte := match note.body with
      | .timeHeld => []
      | .chargeAssumedEnd n t => b1 n ++ b4 t
      | .ovenOverdue n t g late => b1 n ++ b4 t ++ b2 g ++ b4 late
      | .roundStart r count start pi lag staged => b2 r ++ b1 count ++ b4 start ++ b2 pi ++ b4 lag ++ flag staged
      | .planIdle r => b2 r
      | .slotPassed i n why => b1 i ++ b1 n ++ [Config.passReasonCode why]
      | .roundWait r => b2 r
      | .rangeDone first last mode set skip left aborted =>
        b1 first ++ b1 last ++ [Config.slotModeCode mode] ++ b1 set ++ b1 skip ++ b1 left ++ flag aborted
      | .positionInvalid m x => Config.machineCode m :: spot x
      | .reportRejected m r n => [Config.machineCode m, Config.reportCode r] ++ opt (n.map b1)
      | .batteryStop set => flag set
      | .breach n m r held => b1 n ++ [Config.machineCode m, Config.reportCode r]
        ++ opt (held.map fun p => Config.permitKindCode p.1 :: b1 p.2)
      | .pushDone n attempts stickers off start atEnd home dEnd dHome done net =>
        b1 n ++ b1 attempts ++ b1 stickers ++ b4 off ++ opt (start.map b4) ++ opt (atEnd.map b4) ++ opt (home.map b4)
          ++ flag dEnd ++ flag dHome ++ b4 done ++ b4 net
      | .ramSequence n r stage => b1 n ++ [Config.reportCode r] ++ opt (stage.map fun g => [Config.pushStageCode g])
      | .sticker n attempts stickers start ram =>
        b1 n ++ b1 attempts ++ b1 stickers ++ opt (start.map b4) ++ opt (ram.map fun r => [Config.ramCode r])
      | .pushLate n stage entered => b1 n ++ [Config.pushStageCode stage] ++ opt (entered.map b4)
      | .pushAbandoned n attempts stickers off start => b1 n ++ b1 attempts ++ b1 stickers ++ b4 off ++ opt (start.map b4)
      | .pushUnconfirmed n m => b1 n ++ [Config.machineCode m]
      | .pushConfirmed n before after ram => b1 n ++ [Config.pushStageCode before, Config.pushStageCode after]
        ++ opt (ram.map fun r => [Config.ramCode r])
      | .cleanDue n d => b1 n ++ side d
      | .doorSequence n d r st => b1 n ++ side d ++ [Config.reportCode r, Config.doorStateCode st]
      | .inspectDropped n d => b1 n ++ side d
      | .resealPending n d => b1 n ++ side d
      | .taskWithdrawn m n w round => Config.machineCode m :: b1 n ++ work w ++ mark w round
      | .taskUnmatched m n w r => Config.machineCode m :: b1 n ++ work w ++ result r
      | .taskFailed p n w entered round => place p ++ b1 n ++ work w ++ opt (entered.map b4) ++ mark w round
      | .inspectionSaturated d => side d
      | .sensorFault k count kept mode =>
        b1 k ++ b2 count ++ opt (kept.map i2) ++ opt (mode.map fun x => [Config.secModeCode x.ctorIdx])
      | .sensorOk k p => b1 k ++ i2 p
      | .sectionAlarm k before after p => b1 k ++ [Config.alarmLevelCode before, Config.alarmLevelCode after] ++ i2 p
      | .valveQueueFull n a => b1 n ++ [Config.actionCode a]
      | .valveMismatch n a st => b1 n ++ [Config.actionCode a, Config.valveStateCode st]
      | .chargeSequence n st => b1 n ++ [Config.ovenStateCode st]
      | .chargeLate n k start => b1 n ++ b1 k ++ b4 start
      | .chargeUnderPressure k n level => b1 k ++ b1 n ++ [Config.alarmLevelCode level]
      | .trackBlocked moving x spots => flag moving ++ dest x ++ Config.listHead spots.length
        ++ spots.flatMap (fun y => Config.elementMark ++ track y) ++ Config.listEnd
      | .moveLate x issued => dest x ++ b4 issued
      | .carNotEmpty => []
      | .carPosition st x => car st ++ opt (x.map spot)
      | .ramWithoutCar n st => b1 n ++ car st
      | .noCarAtEnd n pushed => b1 n ++ b4 pushed
      | .hotLoadLate n pushed st => b1 n ++ b4 pushed ++ car st
      | .waitBay n => b1 n
      | .loadDumped l => b1 l.oven ++ b4 l.pushEnd ++ opt (l.quenchStart.map b4) ++ opt (l.quenchEnd.map b4)
        ++ opt (l.bay.map b1) ++ flag l.late ++ opt (l.hot.map b4)
      | .dumpSequence b st => b1 b ++ car st
      | .dischargeInterrupted b left => b1 b ++ b4 left
      | .inputChange t level => b1 t ++ [Config.levelCode level]
      | .terminalFault t x level => b1 t ++ fn x ++ [Config.levelCode level]
      | .linkState m online cause => link m ++ [Config.linkStateCode online, Config.linkCauseCode cause]
      | .supervisorLost => []
      | .outputOverrun m kind => link m ++ [match kind with
        | .grant => 0x41#8
        | .refuse => 0x42#8
        | .revoke => 0x43#8
        | .order => 0x44#8
        | .stop => 0x45#8
        | .clear => 0x46#8]
      | .partState st cause => [Config.partStateCode st, Config.partCauseCode cause]
    (SFrame.notice note).chars = frameChars 0xC2#8 (Config.noticeCode note.body.ctorIdx :: b4 note.time ++ fields))
  ∧ (∀ f : SFrame, 5 ≤ f.chars.length ∧ f.chars.length ≤ 64 ∧ ∃ body : List Byte, body.length ≤ 59
      ∧ f.chars = frameChars (match f with
        | .answer .. => 0xC1#8
        | .notice .. => 0xC2#8) body)
  ∧ ∀ (d : AnswerData),
      d.pieces.flatten = d.chars ∧ (∀ p ∈ d.pieces, p.length ≤ 55) ∧ (d.chars.length ≤ 55 → d.pieces = [d.chars])
      ∧ ∀ (tag : Byte) (r : Reply) (part : Nat) (fin : Bool) (p : List Byte), r.data = d → d.pieces[part]? = some p →
        (SFrame.answer tag r (part + 1) fin).chars = frameChars 0xC1#8
          (tag :: Config.resultCode r.result :: BitVec.ofNat 8 (part + 1) :: Config.flagCode fin :: p)

/-- What a complete frame comes to by its link, its kind and its body (R172, R173). The kinds of a link's partner alone are
taken, any other is discarded KIND. STATUS, REQUEST, REPORT, SETUP, COMMAND and QUERY carry the fields of R173, a
multi-character number high byte first; in a SETUP, COMMAND or QUERY an unknown name is FORMAT whatever follows it, and so
is a field that is no value of its name, where the owning rule has no answer of its own for it; in a STATUS, REPORT or
TASK_DONE an unknown name is KIND; a body whose fields are known but that is too long or too short is LEN, KIND being tested
first (R171). The codes of the names and how an optional field tells that it is there are free (log 12); one that is there
has the characters of its type, a battery time four, high first, read and sent. That the side of a STATUS is read at an oven
alone is the model's choice (log 85), and so is that a spot's number is read only where the spot has one: at an oven and, in
a STATUS, at a bay of the wharf (log 89). Frames that are not taken: a supervisor request with four answers waiting is
discarded with cause OVERRUN (R176, R172); during a link test no frame of the machine is assembled (R179), and a command
that stands for one changes nothing (the model's reading: log 25). -/
def Obligations.FramesAndWhatTheyCarry : Prop :=
  (∀ (c : Instr) (tag : Byte) (s : State), requestTag c = some tag → 4 ≤ s.lnk.sup.answers.length →
    exec c s = ends (s.updPort .sup fun p =>
      { p with errors := min 255 (p.errors + 1), lastCause := some .overrun }))
  ∧ (∀ (c : Instr) (m : MachineId) (s : State), senderOf c = some m → (s.mlink m).test.active = true → exec c s = ends s)
  ∧ (∀ (l : LinkId) (kind : Byte) (body : List Byte),
    (kind ∉ (match l with
      | .mach _ => [0x01#8, 0x02#8, 0x03#8]
      | .sup => [0x81#8, 0x82#8, 0x83#8]) → frameOf l kind body = .discard .kind)
    ∧ ∀ c, frameOf l kind body = .message c →
      (match c with
        | .series .. | .ovenLoad .. | .planStart .. | .setMode .. | .setModeRange .. | .valvesQuery .. | .terminalsQuery .. => False
        | _ => True) →
      (∀ extra, extra ≠ [] → frameOf l kind (body ++ extra) = .discard .len)
      ∧ ∀ k, k < body.length → frameOf l kind (body.take k) = .discard .len)
  ∧ (∀ (m : MachineId) (mo mt ty n sd st : Byte),
    let spot : Option ReportedSpot := match Config.spotTypeOf ty with
      | some .oven => (Config.spotSideOf sd).map fun d => .oven n.toNat d
      | some .park => some .park
      | some .tower => some .tower
      | some .wharf => some (.wharf n.toNat)
      | some .bunker => some .bunker
      | none => none
    let sender : Option StatusFrom := match m with
      | .pm => (Config.ramOf st).map .pm
      | .gc => (Config.guideOf st).map .gc
      | .cc => some .cc
      | .qc => (Config.carLoadOf st).map .qc
    frameOf (.mach m) 0x01#8 [mo, mt, ty, n, sd, st] =
      match Config.modeOf mo, Config.motionOf mt, spot, sender with
      | some mode, some motion, some spot, some sender => .message (.status sender mode motion spot)
      | _, _, _, _ => .discard .kind)
  ∧ (∀ (m : MachineId) (k n : Byte),
    frameOf (.mach m) 0x02#8 [k, n] = (match Config.permitKindOf k with
      | some .doorOffPs => .message (.requestDoorOffPs m n.toNat)
      | some .doorOffCs => .message (.requestDoorOffCs m n.toNat)
      | some .push => .message (.requestPush m n.toNat)
      | some .charge => .message (.requestCharge m n.toNat)
      | none => .unknownPermit m k n.toNat)
    ∧ ∀ body : List Byte, body.length ≠ 2 → frameOf (.mach m) 0x02#8 body = .discard .len)
  ∧ (∀ (m : MachineId) (b n x y : Byte) (rest : List Byte),
    let report (r : ReportName) (fields : List Byte) (out : Taken) : Prop :=
      Config.reportOf b = some r → frameOf (.mach m) 0x03#8 (b :: fields) = out
    let side : Option Side := match Config.spotSideOf x with
      | some .ps => some .ps
      | some .cs => some .cs
      | _ => none
    let done (f : TaskSender) : Taken := match Config.taskKindOf x, Config.taskResultOf y with
      | some k, some r => .message (.taskDone f n.toNat k r)
      | _, _ => .discard .kind
    frameOf (.mach m) 0x03#8 [] = .discard .len
    ∧ (Config.reportOf b = none → frameOf (.mach m) 0x03#8 (b :: rest) = .discard .kind)
    ∧ (∀ p ∈ [(ReportName.ramStart, Instr.ramStart m n.toNat), (.ramAtEnd, .ramAtEnd m n.toNat),
        (.ramHome, .ramHome m n.toNat), (.chargeStart, .chargeStart m n.toNat), (.chargeEnd, .chargeEnd m n.toNat),
        (.dumpDone, .dumpDone m n.toNat)], report p.1 [n] (.message p.2))
    ∧ (∀ p ∈ [(ReportName.doorOff, Instr.doorOff m n.toNat side), (.doorOn, .doorOn m n.toNat side),
        (.doorTight, .doorTight m n.toNat side), (.leakSeen, .leakSeen m n.toNat side)], report p.1 [n, x] (.message p.2))
    ∧ report .valve [n, x] (.message (.valve m n.toNat (Config.valveStateOf x)))
    ∧ report .taskDone [n, x, y] (match m with
        | .pm => done .pm
        | .gc => done .gc
        | .qc => done .qc
        | .cc => match Config.actionOf x, Config.valveResultOf y with
          | some a, some r => .message (.ccTaskDone n.toNat a r)
          | _, _ => .discard .kind))
  ∧ (∀ (tag b : Byte) (rest : List Byte),
    (Config.blockOf b = none → frameOf .sup 0x81#8 (tag :: b :: rest) = .format tag)
    ∧ (Config.commandOf b = none → frameOf .sup 0x82#8 (tag :: b :: rest) = .format tag)
    ∧ (Config.subjectOf b = none → frameOf .sup 0x83#8 (tag :: b :: rest) = .format tag)
    ∧ ∀ kind ∈ [0x81#8, 0x82#8, 0x83#8], ∀ body : List Byte, body.length < 2 → frameOf .sup kind body = .discard .len)
  ∧ (∀ (tag b n x y z : Byte) (rest : List Byte) (w : BitVec 16) (time : Time32),
    let command (c : Config.CommandName) (fields : List Byte) (out : Taken) : Prop :=
      Config.commandOf b = some c → frameOf .sup 0x82#8 (tag :: b :: fields) = out
    let named (i : Option Instr) : Taken := match i with
      | some i => .message i
      | none => .format tag
    let timed (f : Option Time32 → Taken) : Taken := match optionalTime rest with
      | some (t, []) => f t
      | _ => .discard .len
    let two : List Byte := [w.extractLsb' 8 8, w.extractLsb' 0 8]
    let spot (ty k : Byte) : Option TrackSpot := match Config.spotTypeOf ty with
      | some .oven => some (.oven k.toNat)
      | some .park => some .park
      | some .tower => some .tower
      | some .wharf => some .wharf
      | _ => none
    (∀ p ∈ [(Config.CommandName.planHalt, Instr.planHalt tag), (.planResume, .planResume tag), (.planStage, .planStage tag),
        (.rangeAbort, .rangeAbort tag), (.commit, .commit tag), (.restart, .restart tag)], command p.1 [] (.message p.2))
    ∧ (∀ p ∈ [(Config.CommandName.makeup, Instr.makeup tag n.toNat), (.cancelMakeup, .cancelMakeup tag n.toNat),
        (.clearBreach, .clearBreach tag n.toNat), (.pushRetry, .pushRetry tag n.toNat), (.abandon, .abandon tag n.toNat),
        (.setAuto, .setAuto tag n.toNat), (.toggle, .toggle tag n.toNat), (.clearTerminal, .clearTerminal tag n.toNat),
        (.linkClear, .linkClear tag (Config.linkOf n)), (.linkTest, .linkTest tag (Config.linkOf n)),
        (.testRead, .testRead tag (Config.linkOf n)), (.testEnd, .testEnd tag (Config.linkOf n))],
        command p.1 [n] (.message p.2))
    ∧ command .setTime [time.extractLsb' 24 8, time.extractLsb' 16 8, time.extractLsb' 8 8, time.extractLsb' 0 8]
        (.message (.setTime tag time))
    ∧ command .setTarget (n :: two) (.message (.setTarget tag n.toNat w.toNat))
    ∧ command .setDamper (n :: two) (.message (.setDamper tag n.toNat w.toNat))
    ∧ command .setSetpoint (n :: two) (.message (.setSetpoint tag n.toNat w.toInt))
    ∧ command .setOutput [n, x] (.message (.setOutput tag n.toNat (Config.levelOf x)))
    ∧ command .leakReport [n, x] (.message (.leakReport tag n.toNat (match Config.spotSideOf x with
        | some .ps => some .ps
        | some .cs => some .cs
        | _ => none)))
    ∧ command .trackBlock [n, x, y, z] (.message (.trackBlock tag (spot n x) (spot y z)))
    ∧ command .trackFree [n, x, y, z] (.message (.trackFree tag (spot n x) (spot y z)))
    ∧ command .ovenService [n, x] (named ((Config.serviceDirOf x).map (.ovenService tag n.toNat)))
    ∧ command .planStart rest (timed fun t => .message (.planStart tag t))
    ∧ command .setMode (n :: x :: rest)
        (timed fun t => named ((Config.slotModeOf x).map fun m => .setMode tag n.toNat m t))
    ∧ command .setModeRange (n :: x :: y :: rest)
        (timed fun t => .message (.setModeRange tag n.toNat x.toNat (Config.slotModeOf y) t)))
  ∧ (∀ (tag b n : Byte) (rest : List Byte),
    let query (q : Config.Subject) (fields : List Byte) (out : Taken) : Prop :=
      Config.subjectOf b = some q → frameOf .sup 0x83#8 (tag :: b :: fields) = out
    (∀ p ∈ [(Config.Subject.status, Instr.statusQuery tag), (.time, .timeQuery tag), (.plan, .planQuery tag),
        (.machines, .machinesQuery tag), (.push, .pushQuery tag), (.quench, .quenchQuery tag)], query p.1 [] (.message p.2))
    ∧ (∀ p ∈ [(Config.Subject.oven, Instr.ovenQuery tag n.toNat), (.slot, .slotQuery tag n.toNat),
        (.door, .doorQuery tag n.toNat), (.secQuery, .sectionQuery tag n.toNat)], query p.1 [n] (.message p.2))
    ∧ query .tasks [n] (match Config.spotSideOf n with
        | some .ps => .message (.tasksQuery tag .ps)
        | some .cs => .message (.tasksQuery tag .cs)
        | _ => .format tag)
    ∧ query .valves rest (match optionalByte rest with
        | some (v, []) => .message (.valvesQuery tag (v.map BitVec.toNat))
        | _ => .discard .len)
    ∧ query .terminals rest (match optionalByte rest with
        | some (v, []) => .message (.terminalsQuery tag (v.map BitVec.toNat))
        | _ => .discard .len))
  ∧ (∀ t : Nat, optField num4 (some t) = Config.presentMark 4
      ++ [BitVec.ofNat 8 (t / 16777216), BitVec.ofNat 8 (t / 65536), BitVec.ofNat 8 (t / 256), BitVec.ofNat 8 t])
  ∧ ∀ (tag b n x y z d e : Byte) (rest : List Byte) (v : Nat → BitVec 16),
    let block (k : Config.BlockName) (fields : List Byte) (out : Taken) : Prop :=
      Config.blockOf b = some k → frameOf .sup 0x81#8 (tag :: b :: fields) = out
    let named (i : Option Instr) : Taken := match i with
      | some i => .message i
      | none => .format tag
    let two (i : Nat) : List Byte := [(v i).extractLsb' 8 8, (v i).extractLsb' 0 8]
    let num (i : Nat) : Nat := (v i).toNat
    let int (i : Nat) : Int := (v i).toInt
    let terminal (fn : TermFn) : Taken := named (match Config.flagOf z, Config.driveOf d, Config.edgeOf e with
      | some inv, some drive, some edge => some (.terminal tag n.toNat fn inv drive edge)
      | _, _, _ => none)
    block .battery (n :: x :: rest) (if rest.length = x.toNat then
        .message (.battery tag n.toNat x.toNat (rest.map BitVec.toNat)) else .discard .len)
    ∧ block .series ([n, x] ++ two 0 ++ two 1 ++ two 2 ++ rest) (match optionalTime rest with
        | some (t, []) => .message (.series tag ⟨n.toNat, x.toNat, num 0, num 1, num 2⟩ t)
        | _ => .discard .len)
    ∧ block .timing (two 0 ++ two 1 ++ two 2 ++ two 3 ++ two 4 ++ two 5 ++ two 6 ++ two 7 ++ two 8 ++ two 9 ++ two 10)
        (.message (.timing tag ⟨num 0, num 1, num 2, num 3, num 4, num 5, num 6, num 7, num 8, num 9, num 10⟩))
    ∧ block .pressure ([n] ++ two 0 ++ two 1 ++ [x, y] ++ two 4 ++ two 5 ++ two 6 ++ two 7 ++ two 8 ++ two 9 ++ two 10
          ++ two 11 ++ two 12 ++ two 13 ++ two 14 ++ two 15)
        (.message (.pressure tag n.toNat ⟨int 0, int 1, x.toNat, y.toNat, int 4, int 5, int 6, int 7, int 8, int 9, int 10,
          int 11, int 12, int 13, int 14, int 15⟩))
    ∧ block .wharf ([n] ++ two 0 ++ two 1 ++ two 2 ++ two 3 ++ two 4 ++ two 5)
        (.message (.wharf tag ⟨n.toNat, num 0, num 1, num 2, num 3, num 4, num 5⟩))
    ∧ block .doors ([n] ++ two 0 ++ two 1 ++ two 2) (.message (.doors tag ⟨n.toNat, num 0, num 1, num 2⟩))
    ∧ (Config.fnNameOf x = none → block .terminal (n :: x :: rest) (.format tag))
    ∧ (∀ p ∈ [(Config.FnName.unassigned, TermFn.unassigned), (.input, .input), (.output, .output), (.sprayOut, .sprayOut),
        (.conveyorRunIn, .conveyorRunIn), (.batteryStopIn, .batteryStopIn)],
        Config.fnNameOf x = some p.1 → block .terminal [n, x, z, d, e] (terminal p.2))
    ∧ (∀ p ∈ [(Config.FnName.pressIn, TermFn.pressIn y.toNat), (.damperPwm, .damperPwm y.toNat),
        (.flareOut, .flareOut y.toNat), (.lowAlarm, .lowAlarm y.toNat), (.gateOut, .gateOut y.toNat)],
        Config.fnNameOf x = some p.1 → block .terminal [n, x, y, z, d, e] (terminal p.2))
    ∧ block .link [n, x, y, z, d] (named (match Config.linkOf n, Config.lineCodeOf y, Config.flagOf z, Config.flagOf d with
        | some l, some code, some tx, some rx => some (.link tag l ⟨x.toNat, code, tx, rx⟩)
        | _, _, _, _ => none))
    ∧ block .ovenLoad (n :: x :: rest) (match optionalTime rest with
        | some (tc, g1 :: g2 :: m :: r1) => match optionalTime r1 with
          | some (fixedPush, r2) => match optionalByte r2 with
            | some (valve, r3) => match optionalByte r3 with
              | some (ps, r4) => match optionalByte r4 with
                | some (cs, []) => named (match Config.ovenStateOf x, Config.slotModeOf m with
                  | some state, some mode =>
                    if valve.all (fun c => (Config.valveStateOf c).isSome) && ps.all (fun c => (Config.doorStateOf c).isSome)
                      && cs.all (fun c => (Config.doorStateOf c).isSome) then
                      some (.ovenLoad tag ⟨n.toNat, state, tc, (g1 ++ g2).toNat, mode, fixedPush,
                        valve.bind Config.valveStateOf, ps.bind Config.doorStateOf, cs.bind Config.doorStateOf⟩)
                    else none
                  | _, _ => none)
                | _ => .discard .len
              | none => .discard .len
            | none => .discard .len
          | none => .discard .len
        | _ => .discard .len)

/-- In CONFIG the commands of the plan, the push and the leak report are refused STATE (R32, R34 to R38, R42, R44, R82, R83,
R90). -/
def Obligations.RunOnlyCommandsInConfig : Prop :=
  ∀ (s : State) (tag : Byte) (n a b : Nat) (start : Option Time32) (mode : Option SlotMode) (side : Option Side),
    s.room → s.inRun = false →
    ∀ c ∈ [Instr.makeup tag n, .cancelMakeup tag n, .planStart tag start, .planHalt tag, .planResume tag, .planStage tag,
        .setModeRange tag a b mode start, .rangeAbort tag, .pushRetry tag n, .abandon tag n, .leakReport tag n side],
      exec c s = answered tag .state .nothing s.supervisorHeard

/-- A report from another machine, with another side, or naming an oven outside 1..N_OV is rejected: REPORT_REJECTED, and
no state changes (R50). The notice of a misplaced LEAK_SEEN is R90's, of TASK_DONE R98's, of DUMP_DONE R152's; that a
LEAK_SEEN naming no oven of the table is rejected too is the model's reading (log 26). -/
def Obligations.MisplacedReportsAreRejected : Prop :=
  ∀ (s : State) (m : MachineId) (n : Nat), s.untested m →
    let rejected (rep : ReportName) (o : Option Nat) := ends ((s.heardFrom m).raise (.reportRejected m rep o))
    (∀ side : Option Side, (∀ d, side = some d → Side.machine d ≠ m) ∨ s.ovenOk n = false →
      exec (.doorOff m n side) s = rejected .doorOff (some n) ∧ exec (.doorOn m n side) s = rejected .doorOn (some n)
      ∧ exec (.doorTight m n side) s = rejected .doorTight (some n)
      ∧ exec (.leakSeen m n side) s = rejected .leakSeen (some n))
    ∧ (m ≠ .pm ∨ s.ovenOk n = false →
      exec (.ramStart m n) s = rejected .ramStart (some n) ∧ exec (.ramAtEnd m n) s = rejected .ramAtEnd (some n)
      ∧ exec (.ramHome m n) s = rejected .ramHome (some n))
    ∧ (m ≠ .cc ∨ s.ovenOk n = false →
      exec (.chargeStart m n) s = rejected .chargeStart (some n)
      ∧ exec (.chargeEnd m n) s = rejected .chargeEnd (some n)
      ∧ ∀ v, exec (.valve m n v) s = rejected .valve (some n))
    ∧ (∀ v, v = none ∨ v = some .unknown → exec (.valve m n v) s = rejected .valve (some n))
    ∧ (m ≠ .qc → exec (.dumpDone m n) s = rejected .dumpDone none)
    ∧ (m = .qc → ∀ k r, exec (.taskDone .qc n k r) s = rejected .taskDone (some n))

/-- HARD_RESET puts every block at its hard-reset contents: the state after it is the reset state, whole. The model's
choices: the commands waiting stay waiting (log 3); the spec gives no reset value for the tick phase, 0 here, for the
interval of a round, 600 s here, and for the registers of a link test, 0 here (log 33); no gate has ended yet (log 59); and
a line at rest shows no character (log 58). -/
def Obligations.HardResetContents : Prop :=
  ∀ s : State, exec .hardReset s = .next { State.reset with pending := s.pending }
    ∧ ∃ t, exec .hardReset s = .next t ∧ t.pending = s.pending
    ∧ t.tb = ⟨0, true, 0⟩ ∧ t.ot = [] ∧ t.cfg.part = .config ∧ t.cfg.loaded = .empty
    ∧ t.cfg.timing = ⟨60, 120, 120, 900, 360, 120, 180, 180, 600, 600, 300⟩
    ∧ t.pln.state = .idle ∧ t.pln.round = none ∧ t.pln.serving = none ∧ t.pln.makeup = [] ∧ t.pln.lag = 0
    ∧ t.pln.active = ⟨5, 2, 720, 60, 900⟩ ∧ t.pln.staged = ⟨5, 2, 720, 60, 900⟩ ∧ t.pln.stagedStart = none
    ∧ t.pln.mark = false ∧ t.pln.range = none ∧ t.pln.cursor = none ∧ t.pln.dueTimer = none ∧ t.pln.holdOver = none
    ∧ t.pln.reported = none
    ∧ t.ilk.push = none ∧ t.ilk.lastRam = none ∧ t.ilk.stop = true ∧ t.hold = true
    ∧ t.ilk.holdCause = .config
    ∧ (∀ m, t.permit m = none ∧ t.machine m = ⟨none, none, none, none, false⟩)
    ∧ t.dru.doors = [] ∧ t.dru.vals = ⟨3, 900, 900, 600⟩
    ∧ (∀ d, t.queue d = [] ∧ t.round d = ⟨0, 1, 0, false, none, 600⟩)
    ∧ t.ofu.sections = [] ∧ t.ofu.valves = [] ∧ t.ofu.queue = [] ∧ t.ofu.heldOffers = [] ∧ t.ofu.iso = none
    ∧ t.ofu.charges = [] ∧ t.ofu.gates = List.replicate 4 ⟨0, false, none, false⟩
    ∧ t.qnu.car = ⟨.unknown, .none, .none, none, false, false, false⟩ ∧ t.qnu.blocked = [] ∧ t.qnu.load = none
    ∧ t.qnu.phase = none ∧ t.qnu.bays = List.replicate 6 (.free 0) ∧ t.qnu.free = [1, 2, 3, 4, 5, 6]
    ∧ t.qnu.discharge = [] ∧ t.qnu.vals = ⟨6, 240, 90, 60, 1800, 120, 300⟩
    ∧ t.term 0 = some ⟨.batteryStopIn, true, .normal, .both, false, false, true, false, none⟩
    ∧ (∀ k, 1 ≤ k → k ≤ 31 → t.term k = some ⟨.unassigned, false, .normal, .both, false, false, false, false, none⟩)
    ∧ (∀ l, t.port l = ⟨⟨23, .nrz, false, false⟩, ⟨.hunt, 0, []⟩, false, false, 0, none⟩)
    ∧ t.lnk.sup.answers = [] ∧ t.lnk.sup.sending = none ∧ t.lnk.sup.line = [] ∧ t.lnk.sup.notices = [] ∧ t.lnk.sup.noticesLost = false
    ∧ ∀ m, (t.mlink m).queue = [] ∧ (t.mlink m).sending = none ∧ (t.mlink m).line = []
        ∧ (t.mlink m).suppressed = false
        ∧ (t.mlink m).test = ⟨false, 0, 0, 0, 0, 0, 0⟩

/-! ## What every step keeps, and what a command leaves unchanged -/

/-- The state after reset is within every range and shape of `Inv` (the tables of chapters 1 to 11, as `InvKept` names
them); no permit is in force and the car has no load. -/
def Obligations.InvariantsAtReset : Prop := Inv State.reset ∧ HoldSafe State.reset ∧ CarSafe State.reset

/-- Every step keeps the ranges and shapes of `Inv`: battery time and the tick phase; of each oven its section, G, the
sticker count, a fixed push time exactly in FIXED and t_c exactly in COKING, READY and PUSHING, with one CHARGING oven a
section; Λ, the make-up list, the series parameters, the round and its cursor; each permit under its machine; the attempts
and armed-from stage of the push record; leak counts, both task queues (16 entries, in class order, none twice), debt,
elapsed time and pointer of each round; of each section P, A, F, u_out, the good-reading run, the run counters and the
transfer pending flag exactly in AUTO; the valve-task queue (8 entries, no oven twice); the free list as the FREE bays, the
load's bay ASSIGNED; no terminal function twice; the link queues and counts, and nothing queued or sent during a link test;
the block values; and the tables as long as the oven table. The ranges are those of R1, R2, R7 to R9, R22, R25, R32, R51,
R70, R88, R93, R101, R108, R109, R122, R130, R137, R153, R160, R172, R176 to R181. -/
def Obligations.InvKept : Prop := ∀ s t : State, Inv s → step s = .next t → Inv t

/-- Every step keeps this: while the machine hold is in force no machine holds a permit, and QC never holds one. -/
def Obligations.NoPermitUnderHoldKept : Prop := ∀ s t : State, HoldSafe s → step s = .next t → HoldSafe t

/-- Every step keeps this: the load record is present exactly in TO_TOWER through DUMPING, a tower timer exactly in
QUENCHING and DRAINING. -/
def Obligations.LoadFollowsCarKept : Prop := ∀ s t : State, CarSafe s → step s = .next t → CarSafe t

/-- The re-test (R58) of a permit: tests 2, 5 and 6 of R52, then the conditions of its kind, R53, R56 or R57, of its oven.
The first that fails is the reason of the REVOKE: the permit leaves the table, a PUSH permit returns the record from ARMED
to its armed-from stage (R73), and the dispatch check of the machine follows (R97, R134); a permit that meets all stays.
Every permit left in force after the re-test of all meets them. The model's choices: the stage ARMED of the record stands
for the stage the permit was armed from (log 16), and the order PM, GC, CC (log 48). -/
def Obligations.RetestLeavesOnlyGoodPermits : Prop :=
  let tests (h : State) (k : PermitKind) (n : Nat) : List (Prop × Reason) :=
    let stands (x : MachineId) (side : SpotSide) : Prop :=
      h.online x = true ∧ (h.machine x).position = some (.oven n side)
    let neighbour (j : Nat) : Prop := ∀ o, h.oven j = some o → o.state = .out ∨ o.state = .ready
      ∨ (o.state = .coking ∧ ∃ t, o.chargeEnd = some t ∧ t + h.cfg.timing.tAdj * 60 ≤ h.now)
    let ready : Prop := h.ovenState n = some .ready
    let pushing (ok : PushRec → Prop) : Prop :=
      h.ovenState n = some .pushing ∧ ∃ p, h.ilk.push = some p ∧ p.oven = n ∧ ok p
    let spaced : Prop := ∀ t j, h.ilk.lastRam = some (t, j) →
      t + (if j = h.secOf n then h.cfg.timing.tSs else h.cfg.timing.tSd) ≤ h.now
    let level := h.level (h.secOf n)
    let doorOff (d : Side) (x : MachineId) (side : SpotSide) : List (Prop × Reason) := [
      (stands x side, .notAligned), (h.servingOven = some n, .notServing),
      ((ready ∧ h.ilk.push = none) ∨ pushing (fun p => p.stage = .opening), .ovenState),
      (h.doorState n d ≠ some .off, .doors), (h.valveState n = some .closed, .valve),
      (level ≠ some .flare, .sectionPressure), (ready → spaced, .spacing),
      (neighbour (n - 1) ∧ neighbour (n + 1), .adjacent), ((h.round d).debt < 8, .inspectionDue)]
    let fit (d : Side) : Prop := h.doorState n d = some .onUnconfirmed ∨ h.doorState n d = some .tight
    [((h.oven n).isSome = true, .range), (h.ilk.stop = false, .stopped), (∀ o ∈ h.ot, o.breach = false, .breach)]
      ++ match k with
        | .doorOffPs => doorOff .ps .pm .ps
        | .doorOffCs => doorOff .cs .gc .cs
        | .push => [
          (h.servingOven = some n, .notServing),
          (pushing (fun p => p.stage = .opening ∨ (p.stage = .sticker ∧ p.retry = true) ∨ p.stage = .armed), .ovenState),
          (h.doorState n .ps = some .off ∧ h.doorState n .cs = some .off, .doors),
          (stands .pm .ps ∧ h.ram = some .home, .notAligned), (stands .gc .cs ∧ h.guide = some .locked, .notAligned),
          (h.online .qc = true ∧ h.qnu.car.state = .spotted n ∧ h.carLoad = some .empty, .quenchCar)]
        | .charge => [
          (stands .cc .top, .notAligned), (h.ovenState n = some .empty, .ovenState), (fit .ps ∧ fit .cs, .doors),
          (h.valveState n = some .aspirating, .valve), (level = some .normal ∨ level = some .low, .sectionPressure),
          (∀ j, j ≠ n → h.secOf j = h.secOf n → h.ovenState j ≠ some .charging, .busy)]
  (∀ s : State, PermitsOk s.ilk.permits → ∀ m p, s.retest.permit m = some p →
    ∀ x ∈ tests s.retest p.kind p.oven, x.1)
  ∧ ∀ s : State, s.retest = ((s.retestOne .pm).retestOne .gc).retestOne .cc
    ∧ ∀ m, (s.permit m = none → s.retestOne m = s)
      ∧ ∀ p, s.permit m = some p →
        ((∀ x ∈ tests s p.kind p.oven, x.1) → s.retestOne m = s)
        ∧ ∀ (i : Nat) (c : Prop) (r : Reason), (tests s p.kind p.oven)[i]? = some (c, r) → ¬ c →
          (∀ (j : Nat) (c' : Prop) (r' : Reason), j < i → (tests s p.kind p.oven)[j]? = some (c', r') → c') →
          let gone := (s.setPermit m none).send m (.revoke p.kind p.oven r)
          let back := match p.kind, s.ilk.push with
            | .push, some q => match q.armedFrom with
              | some .opening => gone.setPush (some { q with stage := .opening, armedFrom := none, late := false })
              | some .sticker => gone.setPush (some { q with stage := .sticker, armedFrom := none, late := false })
              | none => gone
            | _, _ => gone
          s.retestOne m = match m with
            | .pm => back.dispatchDoor .ps
            | .gc => back.dispatchDoor .cs
            | .cc => back.dispatchValve
            | .qc => back

/-- A permit enters the table only by a grant: after any command but a REQUEST, or a character that may complete one, each
machine holds no permit or the one it held. -/
def Obligations.PermitsComeFromRequests : Prop :=
  ∀ (c : Instr) (s t : State), exec c s = .next t →
    (∀ m n, c ≠ .requestDoorOffPs m n ∧ c ≠ .requestDoorOffCs m n ∧ c ≠ .requestPush m n ∧ c ≠ .requestCharge m n) →
    (∀ l x, c ≠ .characterReceived l x) →
    ∀ m, t.permit m = none ∨ t.permit m = s.permit m

/-- What changes the time base, the configuration store and the terminal records: no other command does. Battery time
changes at the one-second tick, SET_TIME and HARD_RESET alone, the tick phase at the control tick, and the time-open flag
at COMMIT; a received character may complete the frame of a request. -/
def Obligations.TimeConfigurationAndTerminalFrame : Prop :=
  ∀ (c : Instr) (s t : State), exec c s = .next t → c ≠ .hardReset → (∀ l x, c ≠ .characterReceived l x) →
    (c ≠ .oneSecondTick → (∀ g v, c ≠ .setTime g v) → t.now = s.now)
    ∧ (c ≠ .controlTick → t.tb.phase = s.tb.phase)
    ∧ ((∀ g, c ≠ .commit g) → t.tb.timeOpen = s.tb.timeOpen)
    ∧ ((∀ g, c ≠ .commit g ∧ c ≠ .restart g) → t.cfg.part = s.cfg.part)
    ∧ ((∀ g n k l, c ≠ .battery g n k l) → (∀ g v, c ≠ .timing g v) → t.cfg.timing = s.cfg.timing)
    ∧ ((∀ g n k l, c ≠ .battery g n k l) → (∀ g p x, c ≠ .series g p x) → (∀ g v, c ≠ .timing g v) →
        (∀ g k p, c ≠ .pressure g k p) → (∀ g v, c ≠ .wharf g v) → (∀ g v, c ≠ .doors g v) →
        (∀ g k f i d e, c ≠ .terminal g k f i d e) → (∀ g l v, c ≠ .link g l v) → (∀ g v, c ≠ .ovenLoad g v) →
        t.cfg.loaded = s.cfg.loaded)
    ∧ ((∀ k e, c ≠ .inputLevelChange k e) → (∀ k, c ≠ .terminalOverload k ∧ c ≠ .damperPwmPeriodStart k) →
        (∀ g k f i d e, c ≠ .terminal g k f i d e) → (∀ g k l, c ≠ .setOutput g k l) →
        (∀ g k, c ≠ .toggle g k ∧ c ≠ .clearTerminal g k) → (∀ g, c ≠ .commit g) → t.trm = s.trm)

/-! ## Chapter 1: battery time and the oven table -/

/-- R1: battery time rises by 1 at each one-second tick in CONFIG and in RUN, holds at the maximum with one TIME_HELD notice
at the tick that reaches it, is 0 after hard reset, is left by RESTART, and never leaves its range. In RUN the same tick
takes the rounds' second: e rises by 1, and the interval is I_b, or floor(I_b / 2) under a HIGH or FLARE section (R101; that
e stops at 7,200 is log 4); and it offers the held valve work again (R132), TIME_HELD coming first (log 90). That the
expiries and accruals of the second are no part of the tick, but commands of their own, is the model's reading (log 4); at
the tick that reaches the maximum and later the expiries are part of it, as of every event (R3; log 6). -/
def Obligations.BatteryTimeCounts : Prop :=
  (∀ s : State,
    let high := s.ofu.sections.any fun r => r.live.any fun v => v.level == .high || v.level == .flare
    let second (r : Inspection) : Inspection := { r with
      elapsed := min 7200 (r.elapsed + 1), interval := if high then s.dru.vals.iBase / 2 else s.dru.vals.iBase }
    let rest (u : State) := if u.inRun then State.retryHeld u.ofu.heldOffers { u with
        dru.rounds := ⟨second u.dru.rounds.ps, second u.dru.rounds.cs⟩ } else u
    (s.now + 1 < tMax → exec .oneSecondTick s = .next (rest { s with tb.time := s.now + 1 }).kick)
    ∧ (s.now + 1 = tMax → exec .oneSecondTick s = ends (rest (({ s with tb.time := tMax }).raise .timeHeld)))
    ∧ (tMax ≤ s.now → exec .oneSecondTick s = ends (rest s)))
  ∧ (∀ s t : State, exec .oneSecondTick s = .next t → t.now = if s.now < tMax then s.now + 1 else s.now)
  ∧ State.reset.now = 0
  ∧ (∀ s t : State, exec .hardReset s = .next t → t.now = 0)
  ∧ (∀ (s t : State) (g : Byte), exec (.restart g) s = .next t → t.tb = s.tb)
  ∧ ∀ (c : Instr) (s t : State), s.now ≤ tMax → exec c s = .next t → t.now ≤ tMax

/-- R5: SET_TIME by part state and time-open flag; the flag is set at hard reset, cleared by a successful COMMIT and set by
nothing but a hard reset. -/
def Obligations.SetTimeByTheTimeOpenFlag : Prop :=
  (∀ (s : State) (tag : Byte) (v : Time32), s.room →
    let h := s.supervisorHeard
    let set := { h with tb.time := v.toNat }
    (s.inRun = false → s.tb.timeOpen = true → v.toNat ≠ tMax → exec (.setTime tag v) s = answered tag .ok .nothing set)
    ∧ (s.inRun = false → s.tb.timeOpen = true → v.toNat = tMax →
        exec (.setTime tag v) s = answered tag .ok .nothing (set.raise .timeHeld))
    ∧ (s.inRun = true ∨ s.tb.timeOpen = false → exec (.setTime tag v) s = answered tag .state .nothing h))
  ∧ State.reset.tb.timeOpen = true
  ∧ (∀ s t : State, exec .hardReset s = .next t → t.tb.timeOpen = true)
  ∧ (∀ (s t : State) (g : Byte), s.room → s.inRun = false → s.missingBlocks = [] → s.missingFns = [] →
      exec (.commit g) s = .next t → t.tb.timeOpen = false)
  ∧ ∀ (c : Instr) (s t : State), c ≠ .hardReset → exec c s = .next t →
      (s.tb.timeOpen = false → t.tb.timeOpen = false)
      ∧ (s.tb.timeOpen = true → t.tb.timeOpen = false → s.inRun = false ∧ t.inRun = true)

/-- R6, R21: the TIME and OVEN queries. A derived time is present when t_c is, and held at the maximum (R9). -/
def Obligations.TimeAndOvenQueries : Prop :=
  ∀ (s : State) (tag : Byte) (n : Nat), s.room →
    let h := s.supervisorHeard
    exec (.timeQuery tag) s = answered tag .ok (.time h.now h.tb.timeOpen (decide (h.now = tMax))) h
    ∧ (h.oven n = none → exec (.ovenQuery tag n) s = answered tag .range .nothing h)
    ∧ ∀ o, h.oven n = some o →
        exec (.ovenQuery tag n) s = answered tag .ok (.oven o
          (o.chargeEnd.map fun t => min tMax (t + (o.target - h.cfg.timing.w) * 60))
          (o.chargeEnd.map fun t => min tMax (t + (o.target + h.cfg.timing.l) * 60))) h

/-- BATTERY: refused STATE in RUN and RANGE by R7 and R8; the first one creates the records of ovens, doors, valves and
sections, a repeated one first discards what R182 names, and leaves the queues of the door and valve tasks, the held offers,
the isolate timer, the charge records, the gates and the cause of the machine hold as they were (that the last spot goes at
a first BATTERY too is log 21). -/
def Obligations.BatteryCreatesTheTables : Prop :=
  ∀ (s : State) (tag : Byte) (nOv k : Nat) (lasts : List Nat), s.room →
    let h := s.supervisorHeard
    let good := 10 ≤ nOv ∧ nOv ≤ 96 ∧ 1 ≤ k ∧ k ≤ 4 ∧ lasts.length = k ∧ (0 :: lasts).Pairwise (· < ·)
      ∧ lasts.getLast? = some nOv
    let fresh (sec : Nat) : OvenRec := ⟨sec, .out, none, 1080, .auto, none, false, false, 0, none⟩
    let door : DoorRec := ⟨.tight, none, 0, false, false, none⟩
    let tables (u : State) : State := { u with
      ot := (numbers 1 nOv).map fun n => fresh (1 + (lasts.filter (· < n)).length)
      dru.doors := List.replicate nOv ⟨door, door⟩
      ofu.sections := List.replicate k ⟨none, none, none, 0, false, 0, 0⟩
      ofu.valves := List.replicate nOv ⟨.unknown, none⟩
      qnu.car.lastSpot := none
      cfg.loaded.battery := true }
    (s.inRun = true → exec (.battery tag nOv k lasts) s = answered tag .state .nothing h)
    ∧ (s.inRun = false → ¬ good → exec (.battery tag nOv k lasts) s = answered tag .range .nothing h)
    ∧ (s.inRun = false → good → s.cfg.loaded.battery = false →
        exec (.battery tag nOv k lasts) s = answered tag .ok .nothing (tables h))
    ∧ (s.inRun = false → good → s.cfg.loaded.battery = true →
        ∃ u, exec (.battery tag nOv k lasts) s = answered tag .ok .nothing (tables u)
          ∧ u.tb = h.tb ∧ u.trm = h.trm ∧ u.lnk = h.lnk ∧ u.ilk.permits = h.ilk.permits ∧ u.ilk.push = h.ilk.push
          ∧ u.ilk.stop = h.ilk.stop ∧ u.ilk.holdCause = h.ilk.holdCause ∧ u.ilk.lastRam = none
          ∧ u.dru.queues = h.dru.queues ∧ u.ofu = h.ofu ∧ u.pending = h.pending
          ∧ (∀ m, u.machine m = { h.machine m with
              position := (h.machine m).position.map fun _ => .travel, invalidPos := false })
          ∧ u.pln = { h.pln with
              active := ⟨5, 2, 720, 60, 900⟩, staged := ⟨5, 2, 720, 60, 900⟩, stagedStart := none, mark := false }
          ∧ (∀ d, u.round d = { h.round d with debt := 0, pointer := 1, elapsed := 0, saturated := false })
          ∧ u.dru.vals = ⟨3, 900, 900, 600⟩
          ∧ u.qnu = ⟨⟨.unknown, .none, .none, none, false, false, false⟩, [], none, none, List.replicate 6 (.free h.now),
              [1, 2, 3, 4, 5, 6], [], ⟨6, 240, 90, 60, 1800, 120, 300⟩⟩
          ∧ u.cfg.timing = ⟨60, 120, 120, 900, 360, 120, 180, 180, 600, 600, 300⟩
          ∧ u.cfg.loaded = ⟨false, false, false, false, false, [], h.cfg.loaded.terminals, h.cfg.loaded.links, []⟩
          ∧ u.cfg.part = .config)

/-- OVEN_LOAD: ORDER before BATTERY, STATE in RUN, RANGE by R20 and R88; taken, it sets the oven, door and valve records (a
cleaning flag that it sets raises CLEAN_DUE: log 22; of two, PS before CS: log 78). -/
def Obligations.OvenLoadSetsTheRecords : Prop :=
  ∀ (s : State) (tag : Byte) (v : OvenLoad), s.room →
    let h := s.supervisorHeard
    let good := (1 ≤ v.oven ∧ v.oven ≤ h.ot.length)
      ∧ (v.state = .out ∨ v.state = .empty ∨ v.state = .coking ∨ v.state = .ready)
      ∧ (v.chargeEnd.isSome ↔ v.state = .coking ∨ v.state = .ready) ∧ (∀ t, v.chargeEnd = some t → t.toNat ≤ h.now)
      ∧ (600 ≤ v.target ∧ v.target ≤ 2400) ∧ (v.mode = .fixed ↔ v.fixedPush.isSome)
      ∧ v.doorPs ≠ some .off ∧ v.doorCs ≠ some .off
    let door (st : Option DoorState) : DoorRec :=
      if st = some .leaking then ⟨.leaking, none, 1, decide (h.dru.vals.cleanThreshold ≤ 1), false, none⟩
      else ⟨st.getD .tight, none, 0, false, false, none⟩
    let set : State := { h with
      ot := upd1 (fun o => ⟨o.sec, v.state, v.chargeEnd.map BitVec.toNat, v.target, v.mode,
        v.fixedPush.map BitVec.toNat, false, false, 0, o.lastPush⟩) v.oven h.ot
      dru.doors := upd1 (fun _ => ⟨door v.doorPs, door v.doorCs⟩) v.oven h.dru.doors
      ofu.valves := upd1 (fun _ => ⟨v.valve.getD .unknown, none⟩) v.oven h.ofu.valves }
    let due (u : State) (d : Side) := if (u.door v.oven d).map DoorRec.cleanDue = some true
      then u.raise (.cleanDue v.oven d) else u
    let done : State := { due (due set .ps) .cs with
      cfg.loaded.ovens := if h.cfg.loaded.ovens.contains v.oven then h.cfg.loaded.ovens else h.cfg.loaded.ovens ++ [v.oven] }
    (s.cfg.loaded.battery = false → exec (.ovenLoad tag v) s = answered tag .order .nothing h)
    ∧ (s.cfg.loaded.battery = true → s.inRun = true → exec (.ovenLoad tag v) s = answered tag .state .nothing h)
    ∧ (s.cfg.loaded.battery = true → s.inRun = false → ¬ good →
        exec (.ovenLoad tag v) s = answered tag .range .nothing h)
    ∧ (s.cfg.loaded.battery = true → s.inRun = false → good →
        exec (.ovenLoad tag v) s = answered tag .ok .nothing done)

/-- OVEN_SERVICE moves an oven between OUT and EMPTY and changes only its state field (R10). SET_TARGET clamps to 600..2400
and answers the value that took effect; in RUN ready evaluation and the overdue check follow (R18). The oven table then
hands the change on (`ovenChanged`: the planner, then the permit re-test; log 9); that it does so before OVEN_OVERDUE of the
same SET_TARGET is raised is the model's choice (log 90). -/
def Obligations.OvenServiceAndTarget : Prop :=
  ∀ (s : State) (tag : Byte) (n g : Nat), s.room →
    let h := s.supervisorHeard
    let moved (st : OvenState) := (h.updOven n fun o => { o with state := st }).ovenChanged n
    let aimed := h.updOven n fun o => { o with target := max 600 (min 2400 g) }
    (∀ dir, h.oven n = none → exec (.ovenService tag n dir) s = answered tag .range .nothing h)
    ∧ (h.oven n = none → exec (.setTarget tag n g) s = answered tag .range .nothing h)
    ∧ ∀ o, h.oven n = some o →
      exec (.ovenService tag n .intoService) s
          = (if o.state = .out then answered tag .ok .nothing (moved .empty) else answered tag .ovenState .nothing h)
      ∧ exec (.ovenService tag n .outOfService) s
          = (if o.state = .empty then answered tag .ok .nothing (moved .out) else answered tag .ovenState .nothing h)
      ∧ exec (.setTarget tag n g) s = answered tag .ok (.target (max 600 (min 2400 g)))
          (if s.inRun then (aimed.evalReady n).overdueCheck n else aimed)

/-- Ready evaluation (R13): COKING and READY follow the ready time, every other state and record stays. Where the state of
the oven does not change, nothing does; where it does, the planner is told and then the permits are re-tested (R9, R18, R58;
in this order: log 9). READY_EXPIRY in RUN makes a COKING oven READY when its ready time is reached; OVERDUE_EXPIRY in RUN
raises OVEN_OVERDUE once for a COKING or READY oven whose overdue time is reached, with the lateness in whole minutes (R17).
An expiry for a timer that is not there or lies ahead does nothing (the model's choice: log 1). -/
def Obligations.ReadyAndOverdueExpiries : Prop :=
  (∀ (s : State) (n : Nat),
    (s.evalReady n).ot = upd1 (fun o =>
      { o with state :=
          if o.state = .coking ∨ o.state = .ready then
            (if (o.chargeEnd.any fun t => decide (min tMax (t + (o.target - s.cfg.timing.w) * 60) ≤ s.now)) then .ready
              else .coking)
          else o.state }) n s.ot)
  ∧ (∀ (s : State) (n : Nat),
    let written := s.updOven n fun o => { o with state :=
      if o.state = .coking ∨ o.state = .ready then
        (if (o.chargeEnd.any fun t => decide (min tMax (t + (o.target - s.cfg.timing.w) * 60) ≤ s.now)) then .ready
          else .coking)
      else o.state }
    (written.ovenState n = s.ovenState n → s.evalReady n = s)
    ∧ (written.ovenState n ≠ s.ovenState n → s.evalReady n = (written.planOvenChanged n).retest))
  ∧ ∀ (s : State) (n : Nat) (o : OvenRec), s.oven n = some o →
    let ready := s.inRun = true ∧ o.state = .coking
      ∧ ∃ t, o.chargeEnd = some t ∧ min tMax (t + (o.target - s.cfg.timing.w) * 60) ≤ s.now
    let overdue (t : Nat) := s.inRun = true ∧ (o.state = .coking ∨ o.state = .ready) ∧ o.overdue = false
      ∧ o.chargeEnd = some t ∧ min tMax (t + (o.target + s.cfg.timing.l) * 60) ≤ s.now
    (ready → exec (.readyExpiry n) s = ends ((s.updOven n fun x => { x with state := .ready }).ovenChanged n))
    ∧ (¬ ready → exec (.readyExpiry n) s = ends s)
    ∧ (∀ t, overdue t → exec (.overdueExpiry n) s = ends ((s.updOven n fun x => { x with overdue := true }).raise
        (.ovenOverdue n t o.target ((s.now - min tMax (t + (o.target + s.cfg.timing.l) * 60)) / 60))))
    ∧ ((∀ t, ¬ overdue t) → exec (.overdueExpiry n) s = ends s)

/-- A covered CHARGE_START in RUN at an EMPTY oven: the permit is used, the oven is CHARGING without t_c, its charge record
begins, and a CHARGING oven of the same section is COKING from now on by assumption (R11, R60, R137). The oven table's and
the offtake unit's part is the same for a start that no permit covers: CHARGE_ASSUMED_END and NORMAL for the other oven,
whose charge record goes (R11, R137); that CHARGE_ASSUMED_END is raised first is the model's choice (log 90), that its
report to the planner comes last is too (log 64), and so is CC's dispatch check, due as the permit goes, once the charge
record stands (log 81). -/
def Obligations.CoveredChargeStart : Prop :=
  (∀ (s : State) (n : Nat), s.inRun = true → s.ovenState n = some .empty →
    let u := s.updOven n fun o => { o with state := .charging, chargeEnd := none }
    let other := (numbers 1 s.nOv).find? fun m => m != n && s.secOf m == s.secOf n && s.ovenState m == some .charging
    let v := match other with
      | none => u
      | some m => (State.offerValve { (u.updOven m fun o => { o with
          state := .coking, chargeEnd := some s.now, overdue := false }).raise (.chargeAssumedEnd m s.now) with
            ofu.charges := s.ofu.charges.filter fun c => c.oven ≠ m } m .normal).ovenChanged m
    s.chargeFact n = State.ovenChanged { v with ofu.charges := v.ofu.charges
      ++ [⟨n, v.now, some (min tMax (v.now + v.cfg.timing.tCharge)), false⟩] } n)
  ∧ (∀ (s : State) (n : Nat), s.inRun = false ∨ s.ovenState n ≠ some .empty → s.chargeFact n = s)
  ∧ ∀ (s : State) (n : Nat) (p : Permit), s.untested .cc → s.now < tMax → s.inRun = true → s.ovenIs n .empty = true →
    s.permit .cc = some p → p.kind = .charge → p.oven = n →
    exec (.chargeStart .cc n) s = ends ((((s.heardFrom .cc).setPermit .cc none).chargeFact n).retest).dispatchValve
    ∧ ∃ t, exec (.chargeStart .cc n) s = .next t
      ∧ t.permit .cc = none
      ∧ t.oven n = (s.oven n).map (fun o => { o with state := .charging, chargeEnd := none })
      ∧ (∀ k, k ≠ n → t.oven k = if s.chargingElsewhere n (s.secOf n) = some k
          then (s.oven k).map (fun o => { o with state := .coking, chargeEnd := some s.now, overdue := false })
          else s.oven k)
      ∧ t.ofu.charges = (s.ofu.charges.filter fun c => s.chargingElsewhere n (s.secOf n) ≠ some c.oven)
          ++ [⟨n, s.now, some (min tMax (s.now + s.cfg.timing.tCharge)), false⟩]

/-- CHARGE_END at a CHARGING oven in RUN: COKING with t_c the time of the report, the overdue flag clear, the charge record
removed (R12, R137). The planner and the interlock learn of the oven's change, then ready evaluation and the overdue check
take the new t_c (R13, R17), then the record goes and a NORMAL is offered, with CC's dispatch check (R137, R131, R134). That
the oven table's report comes before the offtake unit's part is the model's choice (log 64), and so is the one dispatch
check, made after the offer (log 73). At any other oven, or in CONFIG, CHARGE_SEQUENCE and nothing else (R137, R139). -/
def Obligations.ChargeEndBeginsCoking : Prop :=
  ∀ (s : State) (n : Nat) (o : OvenRec), s.untested .cc → s.oven n = some o →
    (s.inRun = true → o.state = .charging →
      let cokes := (s.heardFrom .cc).updOven n fun x => { x with state := .coking, chargeEnd := some s.now, overdue := false }
      let told := ((cokes.ovenChanged n).evalReady n).overdueCheck n
      exec (.chargeEnd .cc n) s = ends (State.offerValve
        { told with ofu.charges := told.ofu.charges.filter fun c => c.oven ≠ n } n .normal))
    ∧ (s.now < tMax → s.inRun = true → o.state = .charging →
      ∃ t, exec (.chargeEnd .cc n) s = .next t
        ∧ t.ot = upd1 (fun o => { o with
            state := if min tMax (s.now + (o.target - s.cfg.timing.w) * 60) ≤ s.now then .ready else .coking
            chargeEnd := some s.now
            overdue := decide (min tMax (s.now + (o.target + s.cfg.timing.l) * 60) ≤ s.now) }) n s.ot
        ∧ t.ofu.charges = s.ofu.charges.filter fun c => c.oven ≠ n)
    ∧ (s.inRun = false ∨ o.state ≠ .charging →
        exec (.chargeEnd .cc n) s = ends ((s.heardFrom .cc).raise (.chargeSequence n o.state)))

/-! ## Chapter 2: series and the push plan -/

/-- R23: the series order runs sub-rounds k = 0 .. S−1, each from oven 1 + ((k × D) mod S) in steps of S up to N_OV, and with
gcd(D, S) = 1 lists every oven 1..N_OV exactly once. -/
def Obligations.SeriesOrderListsEveryOvenOnce : Prop :=
  ∀ nOv step d : Nat,
    seriesOrder nOv step d = (List.range step).flatMap (fun k => subRound nOv step (1 + k * d % step))
    ∧ (∀ start, 1 ≤ start → 1 ≤ step → ∀ o,
        o ∈ subRound nOv step start ↔ o ≤ nOv ∧ ∃ j, o = start + j * step)
    ∧ (∀ start, 1 ≤ step → (subRound nOv step start).Pairwise (· < ·))
    ∧ (1 ≤ step → Nat.gcd d step = 1 →
        (seriesOrder nOv step d).Nodup ∧ ∀ o, o ∈ seriesOrder nOv step d ↔ 1 ≤ o ∧ o ≤ nOv)

/-- R22 and R38 with R181: SERIES is answered ORDER before BATTERY and RANGE with a value out of range, C above floor(PI /
2), or D and S with a common divisor; in CONFIG it sets the active and the staged copy, in RUN the staged copy only, and it
clears the mark. PLAN_STAGE is taken in RUN in any plan state and sets the mark; the round boundary with the mark set takes
the staged copy into use and clears it, with the mark clear it does not (R39). The boundary: the computed start, the staged
start time when it is later, the next number, 0 after 65,535, Λ carried on, the slots of R24 with ROUND_START, or IDLE with
PLAN_IDLE when no oven is left; while the supervisor is lost it waits with ROUND_WAIT (R39, R40). The model's readings: a
serving entry is released where no slot is under the cursor (log 44), and the number that ROUND_WAIT carries is that of the
round still to be built (log 18). -/
def Obligations.StagedSeriesAndItsMark : Prop :=
  (∀ (s : State) (tag : Byte) (p : SeriesParams) (start : Option Time32), s.room →
    let h := s.supervisorHeard
    let good := (2 ≤ p.s ∧ p.s ≤ 10) ∧ (1 ≤ p.d ∧ p.d ≤ p.s - 1) ∧ Nat.gcd p.d p.s = 1 ∧ (300 ≤ p.pi ∧ p.pi ≤ 3600)
      ∧ p.c ≤ p.pi / 2 ∧ p.h ≤ 3600
    (s.cfg.loaded.battery = false → exec (.series tag p start) s = answered tag .order .nothing h)
    ∧ (s.cfg.loaded.battery = true → ¬ good → exec (.series tag p start) s = answered tag .range .nothing h)
    ∧ (s.cfg.loaded.battery = true → good →
        exec (.series tag p start) s = answered tag .ok .nothing { h with
          pln.active := if s.inRun then h.pln.active else p
          pln.staged := p
          pln.stagedStart := start.map BitVec.toNat
          pln.mark := false
          cfg.loaded.series := true }))
  ∧ (∀ (s : State) (tag : Byte), s.room →
    (s.inRun = true →
      exec (.planStage tag) s = answered tag .ok .nothing { s.supervisorHeard with pln.mark := true })
    ∧ (s.inRun = false → exec (.planStage tag) s = answered tag .state .nothing s.supervisorHeard))
  ∧ ∀ (s : State) (r : RoundRec), s.pln.round = some r →
    let computed := min tMax (r.start + r.slots.length * s.pln.active.pi)
    let number := if 65535 ≤ r.number then 0 else r.number + 1
    let p := if s.pln.mark = true then s.pln.staged else s.pln.active
    let start := match s.pln.mark, s.pln.stagedStart with
      | true, some t => max (max t s.now) computed
      | _, _ => computed
    let ovens := (seriesOrder s.nOv p.s p.d).filter fun n =>
      match s.oven n with
      | some o => o.state ≠ .out && o.mode ≠ .skip
      | none => false
    let slots := ovens.mapIdx fun i n => (⟨n, min tMax (start + i * p.pi), .waiting, none⟩ : Slot)
    let kept : Planner := { s.pln with
      active := p, mark := false, stagedStart := if s.pln.mark = true then none else s.pln.stagedStart,
      dueTimer := none, holdOver := none }
    (ovens ≠ [] → s.buildNext = State.raise { s with pln := { kept with
        round := some ⟨number, start, slots⟩, cursor := some 0 } }
      (.roundStart number ovens.length start p.pi s.pln.lag s.pln.mark))
    ∧ (ovens = [] → s.buildNext = State.raise { s with pln := { kept with
        state := .idle, round := none, cursor := none, serving := none } } (.planIdle number))
    ∧ (s.present = true → s.boundary = s.buildNext)
    ∧ (s.present = false → s.boundary = State.raise { s with pln := { s.pln with
        cursor := none, dueTimer := none, serving := none } } (.roundWait number))

/-- PLAN_START: taken in RUN in IDLE, it sets Λ to 0 and builds round 0 from the active parameters, starting at the carried
time when that is later than battery time (R35, R24); with no slot the planner stays IDLE and answers count 0. -/
def Obligations.PlanStartBuildsRoundZero : Prop :=
  ∀ (s : State) (tag : Byte) (start : Option Time32), s.room → s.inRun = true →
    let h := s.supervisorHeard
    let ovens := (seriesOrder h.nOv h.pln.active.s h.pln.active.d).filter fun n =>
      match h.oven n with
      | some o => o.state ≠ .out && o.mode ≠ .skip
      | none => false
    let from_ := max h.now ((start.map BitVec.toNat).getD 0)
    let slots := ovens.mapIdx fun i n => (⟨n, min tMax (from_ + i * h.pln.active.pi), .waiting, none⟩ : Slot)
    (h.pln.state ≠ .idle → exec (.planStart tag start) s = answered tag .planState .nothing h)
    ∧ (h.pln.state = .idle → ovens ≠ [] →
        exec (.planStart tag start) s = answered tag .ok (.slotCount ovens.length)
          (({ h with pln := { h.pln with
              lag := 0, state := .running, round := some ⟨0, from_, slots⟩, cursor := some 0, dueTimer := none,
              holdOver := none } }).raise (.roundStart 0 ovens.length from_ h.pln.active.pi 0 false)).planUpdate)
    ∧ (h.pln.state = .idle → ovens = [] →
        exec (.planStart tag start) s = answered tag .ok (.slotCount 0)
          (({ h with pln := { h.pln with
              lag := 0, state := .idle, round := none, cursor := none, dueTimer := none, holdOver := none,
              serving := none } }).raise
            (.planIdle 0)).planUpdate)

/-- PLAN_HALT in RUNNING: the planner is HALTED, a serving entry whose oven is not PUSHING is released, a DUE slot returns to
WAITING (R36). PLAN_RESUME in HALTED: RUNNING, past a slot that is over (R37). Elsewhere PLAN_STATE. The advance of the
cursor: Λ falls by C and not below 0, the hold-over end goes, the next slot or the round boundary comes (R30). -/
def Obligations.PlanHaltAndResume : Prop :=
  (∀ (s : State) (r : RoundRec) (i : Nat), s.pln.round = some r → s.pln.cursor = some i →
    let u : State := { s with
      pln.lag := s.pln.lag - s.pln.active.c, pln.holdOver := none, pln.dueTimer := none }
    s.advance = if i + 1 < r.slots.length then { u with pln.cursor := some (i + 1) } else u.boundary)
  ∧ ∀ (s : State) (tag : Byte), s.room → s.inRun = true →
    let h := s.supervisorHeard
    (h.pln.state ≠ .running → exec (.planHalt tag) s = answered tag .planState .nothing h)
    ∧ (h.pln.state ≠ .halted → exec (.planResume tag) s = answered tag .planState .nothing h)
    ∧ (h.pln.state = .running →
        let u := { h with pln.state := .halted, pln.dueTimer := none }
        let waits (p : Planner) : Planner := { p with
          serving := none
          round := match p.serving, p.cursor, h.cursorStatus with
            | some .slot, some i, some .due =>
              p.round.map fun r => { r with slots := upd1 (fun x => { x with status := .waiting }) (i + 1) r.slots }
            | _, _, _ => p.round }
        exec (.planHalt tag) s = answered tag .ok .nothing
          (match h.servingOven with
            | some o => if h.ovenIs o .pushing then u else { u with pln := waits u.pln }
            | none => u).planReport)
    ∧ (h.pln.state = .halted →
        let u := { h with pln.state := .running }
        exec (.planResume tag) s = answered tag .ok .nothing
          (if h.cursorStatus = some .done ∨ h.cursorStatus = some .passed then u.advance else u).planUpdate)

/-- SET_MODE: RANGE outside 1..N_OV or with a fixed push time that does not go with the mode, OVEN_STATE for a PUSHING oven;
else the mode is written, with the fixed push time for FIXED and without one for any other (R41); at the cursor slot's oven
the plan acts at once (R41, R28): a DUE slot set to HOLD or SKIP is released and passed with reason MODE (that a DUE slot
whose due time comes to lie ahead follows R27 is the model's reading: log 40). -/
def Obligations.SetModeWritesTheOven : Prop :=
  ∀ (s : State) (tag : Byte) (n : Nat) (mode : SlotMode) (fixedPush : Option Time32), s.room →
    let h := s.supervisorHeard
    let good := (h.oven n).isSome = true ∧ (mode = .fixed ↔ fixedPush.isSome)
    let u := h.updOven n fun o => { o with mode := mode, fixedPush := fixedPush.map BitVec.toNat }
    let run := exec (.setMode tag n mode fixedPush) s
    (¬ good → run = answered tag .range .nothing h)
    ∧ (good → h.ovenIs n .pushing = true → run = answered tag .ovenState .nothing h)
    ∧ (good → h.ovenIs n .pushing = false → h.cursorAt n = false → run = answered tag .ok .nothing u)
    ∧ (good → h.ovenIs n .pushing = false → h.cursorAt n = true → h.cursorStatus = some .waiting →
        run = answered tag .ok .nothing u.planUpdate)
    ∧ (good → h.ovenIs n .pushing = false → h.cursorAt n = true → h.cursorStatus = some .due →
        (mode = .hold ∨ mode = .skip → run = answered tag .ok .nothing (u.releaseServing.passSlot .mode).planUpdate)
        ∧ (∀ f, fixedPush.map BitVec.toNat = some f → h.now < f →
            run = answered tag .ok .nothing { u.releaseServing with pln.holdOver := none }.planUpdate)
        ∧ (mode = .auto ∨ (mode = .fixed ∧ ∀ f, fixedPush.map BitVec.toNat = some f → f ≤ h.now) →
            run = answered tag .ok .nothing u.planReport))
    ∧ (good → h.ovenIs n .pushing = false → h.cursorAt n = true → h.cursorStatus ≠ some .waiting →
        h.cursorStatus ≠ some .due → run = answered tag .ok .nothing u.planReport)

/-- SET_MODE_RANGE, RANGE_ABORT and the end of a step of the range operation (R42 to R44). A step writes the mode of the
oven it visits with SET_MODE's effect on the plan: none but at the cursor slot's oven, there the checks for a WAITING slot;
a DUE slot set to HOLD or SKIP is released and passed with reason MODE, and one whose fixed push time lies ahead goes back
to WAITING (R43, R41, R28; the last is the model's reading: log 40). That a RANGE_STEP_END with no range operation in
progress does nothing is the model's choice (log 1). -/
def Obligations.RangeOperation : Prop :=
  (∀ (s : State) (n : Nat) (mode : SlotMode) (fixedPush : Option Nat),
    let u := s.updOven n fun o => { o with mode := mode, fixedPush := fixedPush }
    let here (st : SlotStatus) := s.cursorSlot.map Slot.oven = some n ∧ s.cursorStatus = some st
    let wrote := s.writeMode n mode fixedPush
    (s.cursorSlot.map Slot.oven ≠ some n → wrote = u)
    ∧ (here .waiting → wrote = u.planUpdate)
    ∧ (here .due → mode = .hold ∨ mode = .skip → wrote = (u.releaseServing.passSlot .mode).planUpdate)
    ∧ (here .due → mode = .fixed → s.now < fixedPush.getD 0 →
        wrote = { u.releaseServing with pln.holdOver := none }.planUpdate)
    ∧ (here .due → mode = .auto ∨ (mode = .fixed ∧ fixedPush.getD 0 ≤ s.now) → wrote = u.planReport)
    ∧ (here .inPush ∨ here .done ∨ here .passed → wrote = u.planReport))
  ∧ (∀ (s : State) (tag : Byte) (a b : Nat) (mode : Option SlotMode) (fixedPush : Option Time32),
    s.room → s.inRun = true →
    let h := s.supervisorHeard
    let good := (h.oven a).isSome = true ∧ (h.oven b).isSome = true ∧ mode.isSome ∧ (mode = some .fixed ↔ fixedPush.isSome)
    let count := if a ≤ b then b - a + 1 else (h.nOv - a + 1) + b
    (¬ good → exec (.setModeRange tag a b mode fixedPush) s = answered tag .range .nothing h)
    ∧ (good → h.pln.range.isSome → exec (.setModeRange tag a b mode fixedPush) s = answered tag .busy .nothing h)
    ∧ (∀ m, mode = some m → good → h.pln.range = none →
        exec (.setModeRange tag a b mode fixedPush) s = answered tag .ok (.ovensToVisit count)
          { h with pln.range := some ⟨a, b, m, fixedPush.map BitVec.toNat, a, count, 0, 0, false⟩ })
    ∧ (h.pln.range = none → exec (.rangeAbort tag) s = answered tag .notFound .nothing h)
    ∧ (∀ r, h.pln.range = some r →
        exec (.rangeAbort tag) s = answered tag .ok .nothing { h with pln.range := some { r with abort := true } }))
  ∧ ∀ s : State,
      (s.pln.range = none → exec .rangeStepEnd s = ends s)
      ∧ ∀ r, s.pln.range = some r →
        let finish (u : State) (x : RangeOp) (aborted : Bool) := ({ u with pln.range := none }).raise
          (.rangeDone x.first x.last x.mode x.setCount x.skipCount x.left aborted)
        let x : RangeOp := { r with
          next := if r.next < s.nOv then r.next + 1 else 1
          left := r.left - 1
          setCount := if s.ovenIs r.next .pushing then r.setCount else r.setCount + 1
          skipCount := if s.ovenIs r.next .pushing then r.skipCount + 1 else r.skipCount }
        let u := if s.ovenIs r.next .pushing then s else s.writeMode r.next r.mode r.fixedPush
        exec .rangeStepEnd s = ends (
          if r.abort then finish s r true
          else if r.left - 1 = 0 then finish u x false
          else { u with pln.range := some x })

/-- MAKEUP, its refusals in the order of R32, and CANCEL_MAKEUP (R34). The make-up check and the planner's report follow. The
make-up check: in RUNNING, with no serving entry and the cursor slot WAITING, the first entry of the list whose oven is READY
and not the cursor slot's becomes serving since now; else nothing changes (R33). -/
def Obligations.MakeupList : Prop :=
  (∀ s : State,
    let fit (e : MakeupEntry) : Prop :=
      s.ovenState e.oven = some .ready ∧ s.cursorSlot.map Slot.oven ≠ some e.oven
    let looks := s.pln.state = .running ∧ s.pln.serving = none ∧ s.cursorStatus = some .waiting
    (¬ looks → s.makeupCheck = s)
    ∧ (looks → (∀ e ∈ s.pln.makeup, ¬ fit e) → s.makeupCheck = s)
    ∧ ∀ before e after, looks → s.pln.makeup = before ++ e :: after → fit e → (∀ x ∈ before, ¬ fit x) →
        s.makeupCheck = { s with pln.serving := some (.makeup e.oven s.now) })
  ∧ ∀ (s : State) (tag : Byte) (n : Nat), s.room → s.inRun = true →
    let h := s.supervisorHeard
    let listed := h.pln.makeup.any fun e => e.oven = n
    let dropped := { h with pln.makeup := h.pln.makeup.filter fun e => e.oven ≠ n }
    (h.oven n = none → exec (.makeup tag n) s = answered tag .range .nothing h)
    ∧ (∀ o, h.oven n = some o →
        (listed = true → exec (.makeup tag n) s = answered tag .duplicate .nothing h)
        ∧ (listed = false → o.state ≠ .coking → o.state ≠ .ready →
            exec (.makeup tag n) s = answered tag .ovenState .nothing h)
        ∧ (listed = false → (o.state = .coking ∨ o.state = .ready) → 8 ≤ h.pln.makeup.length →
            exec (.makeup tag n) s = answered tag .full .nothing h)
        ∧ (listed = false → (o.state = .coking ∨ o.state = .ready) → h.pln.makeup.length < 8 →
            exec (.makeup tag n) s = answered tag .ok .nothing
              ({ h with pln.makeup := h.pln.makeup ++ [(⟨n, h.now⟩ : MakeupEntry)] }).makeupCheck.planReport))
    ∧ (listed = false → exec (.cancelMakeup tag n) s = answered tag .notFound .nothing h)
    ∧ (listed = true → (∀ t, h.pln.serving ≠ some (.makeup n t)) →
        exec (.cancelMakeup tag n) s = answered tag .ok .nothing dropped)
    ∧ ∀ t, listed = true → h.pln.serving = some (.makeup n t) →
        exec (.cancelMakeup tag n) s =
          if h.ovenIs n .pushing then answered tag .busy .nothing h
          else answered tag .ok .nothing { dropped with pln.serving := none }.planUpdate

/-- The slot check of a WAITING cursor slot that is due, by the cases of R27, with none made in IDLE or HALTED, without a
cursor slot or at one that is not WAITING (R27, R36), and what DUE_EXPIRY and HOLD_OVER_EXPIRY do: in RUNNING, with the
timer reached, the check, the make-up check and the planner's report; else nothing (log 1). A slot is passed by PASSED, its
notice with the reason, and the cursor's advance (R27, R30). The checks go on from slot to slot while slots are passed (R30;
how many at most: log 7). A serving entry is released, a DUE slot going back to WAITING (R28, R31). The planner's report:
the next oven and its due time (R31); when they are new the offtake unit and, for another oven, the quench unit learn of it,
after the re-test (the order: log 8). What the planner does when an oven's state has changed (R27, R28, R33); the re-test of
R58 follows (the order: log 9). -/
def Obligations.SlotCheckAndItsTimers : Prop :=
  (∀ s : State,
    let dueOf (sl : Slot) : Nat := match s.oven sl.oven with
      | some o => if o.mode = .fixed then o.fixedPush.getD (min tMax (sl.planned + s.pln.lag))
        else min tMax (sl.planned + s.pln.lag)
      | none => min tMax (sl.planned + s.pln.lag)
    s.nextOven = (match s.pln.serving, s.cursorSlot with
      | some (.makeup o since), _ => some (o, since)
      | some .slot, some sl => some (sl.oven, dueOf sl)
      | none, some sl => if s.pln.state ≠ .idle ∧ sl.status = .waiting then some (sl.oven, dueOf sl) else none
      | _, none => none)
    ∧ (let u := s.retest
      let old := u.pln.reported
      let told := ({ u with pln.reported := u.nextOven }).nextForValves old u.nextOven
      (u.nextOven = old → s.planReport = u)
      ∧ (u.nextOven ≠ old → s.planReport = match u.nextOven with
        | none => told
        | some (b, _) => if old.map Prod.fst = some b then told else told.reconsiderCar b))
    ∧ s.planUpdate = s.planSettle.planReport
    ∧ s.planSettle = (State.checkLoop ((s.now / 300 + 3) * (s.nOv + 2)) s).makeupCheck
    ∧ (s.checkOnce.2 = false → s.planSettle = s.checkOnce.1.makeupCheck)
    ∧ (∀ k, s.checkOnce.2 = false → State.checkLoop (k + 1) s = s.checkOnce.1)
    ∧ (∀ k, s.checkOnce.2 = true → State.checkLoop (k + 1) s = State.checkLoop k s.checkOnce.1)
    ∧ (∀ reason i sl, s.pln.cursor = some i → s.cursorSlot = some sl → s.passSlot reason =
        State.advance (State.raise { s with pln.round := s.pln.round.map fun r =>
          { r with slots := upd1 (fun x => { x with status := .passed }) (i + 1) r.slots } } (.slotPassed i sl.oven reason)))
    ∧ (∀ reason, s.cursorSlot = none → s.passSlot reason = s)
    ∧ ∀ n,
      let released := match s.pln.serving, s.pln.cursor, s.cursorStatus with
        | some .slot, some i, some .due =>
          s.pln.round.map fun r => { r with slots := upd1 (fun x => { x with status := .waiting }) (i + 1) r.slots }
        | _, _, _ => s.pln.round
      s.releaseServing = { s with pln := { s.pln with serving := none, round := released } } ∧
      let leaves := s.servingOven = some n ∧ s.ovenState n ≠ some .ready ∧ s.ovenState n ≠ some .pushing
      let awaits := s.cursorSlot.map Slot.oven = some n ∧ s.cursorStatus = some .waiting
      let listed := ∃ e ∈ s.pln.makeup, e.oven = n
      (leaves → s.planOvenChanged n =
          State.planReport (State.planSettle { s with pln.serving := none, pln.round := released }))
      ∧ (¬ leaves → awaits → s.planOvenChanged n = s.planSettle.planReport)
      ∧ (¬ leaves → ¬ awaits → listed → s.planOvenChanged n = s.makeupCheck.planReport)
      ∧ (¬ leaves → ¬ awaits → ¬ listed → s.planOvenChanged n = s)
      ∧ s.ovenChanged n = (s.planOvenChanged n).retest)
  ∧ (∀ (s : State) (sl : Slot) (o : OvenRec), s.cursorSlot = some sl → s.oven sl.oven = some o → s.pln.state = .running →
    sl.status = .waiting →
    let due := if o.mode = .fixed then o.fixedPush.getD (min tMax (sl.planned + s.pln.lag))
      else min tMax (sl.planned + s.pln.lag)
    let holdEnd := s.pln.holdOver.getD (min tMax (s.now + s.pln.active.h))
    let reached := { s with pln.dueTimer := none, pln.holdOver := some holdEnd }
    (s.now < due → s.checkOnce = ({ s with pln.dueTimer := some due }, false))
    ∧ (due ≤ s.now → (o.mode = .hold ∨ o.mode = .skip) → s.checkOnce = (reached.passSlot .mode, true))
    ∧ (due ≤ s.now → o.mode ≠ .hold → o.mode ≠ .skip → o.state = .ready → s.pln.serving = none →
        s.checkOnce.2 = false ∧ s.checkOnce.1.pln.serving = some .slot
        ∧ s.checkOnce.1.cursorSlot = some { sl with status := .due }
        ∧ ∀ i, s.pln.cursor = some i → s.checkOnce.1 = { reached with
            pln.serving := some .slot
            pln.round := s.pln.round.map fun r =>
              { r with slots := upd1 (fun x => { x with status := .due }) (i + 1) r.slots } })
    ∧ (due ≤ s.now → o.mode ≠ .hold → o.mode ≠ .skip → o.state = .ready → s.pln.serving.isSome →
        s.checkOnce = (reached, false))
    ∧ (due ≤ s.now → o.mode ≠ .hold → o.mode ≠ .skip → o.state ≠ .ready → s.now < holdEnd →
        s.checkOnce = (reached, false))
    ∧ (due ≤ s.now → o.mode ≠ .hold → o.mode ≠ .skip → o.state ≠ .ready → holdEnd ≤ s.now →
        s.checkOnce = (reached.passSlot .notReady, true)))
  ∧ (∀ s : State, (s.pln.state ≠ .running ∨ s.cursorStatus ≠ some .waiting → s.checkOnce = (s, false))
    ∧ (s.cursorSlot = none ↔ s.cursorStatus = none) ∧ ∀ sl, s.cursorSlot = some sl → s.cursorStatus = some sl.status
      ∧ ∃ i, s.pln.cursor = some i)
  ∧ ∀ s : State,
      (s.pln.state = .running → (∃ t, s.pln.dueTimer = some t ∧ t ≤ s.now) →
        exec .dueExpiry s = ends s.planSettle.planReport)
      ∧ (s.pln.state ≠ .running ∨ (∀ t, s.pln.dueTimer = some t → s.now < t) → exec .dueExpiry s = ends s)
      ∧ (s.pln.state = .running → s.cursorStatus = some .waiting → (∃ t, s.pln.holdOver = some t ∧ t ≤ s.now) →
        exec .holdOverExpiry s = ends s.planSettle.planReport)
      ∧ (s.pln.state ≠ .running ∨ s.cursorStatus ≠ some .waiting ∨ (∀ t, s.pln.holdOver = some t → s.now < t) →
        exec .holdOverExpiry s = ends s)

/-- R45: the PLAN and SLOT queries. Round number, round start, slot count and cursor index are absent when IDLE or waiting
(of all four: log 43). That the position of a serving make-up entry counts from 0 is the model's choice (log 46). -/
def Obligations.PlanAndSlotQueries : Prop :=
  ∀ (s : State) (tag : Byte) (i : Nat), s.room →
    let h := s.supervisorHeard
    (∃ v : PlanView, exec (.planQuery tag) s = answered tag .ok (.plan v) h
      ∧ v.state = h.pln.state ∧ (v.waitingAtBoundary = true ↔ h.pln.round.isSome = true ∧ h.pln.cursor = none)
      ∧ (h.pln.round = none ∨ h.pln.cursor = none →
          v.roundNumber = none ∧ v.roundStart = none ∧ v.slotCount = none)
      ∧ (∀ r k, h.pln.round = some r → h.pln.cursor = some k →
          v.roundNumber = some r.number ∧ v.roundStart = some r.start ∧ v.slotCount = some r.slots.length)
      ∧ v.cursor = h.pln.cursor
      ∧ v.holdOver = h.pln.holdOver ∧ v.lag = h.pln.lag ∧ v.active = h.pln.active ∧ v.staged = h.pln.staged
      ∧ v.stagedStart = h.pln.stagedStart ∧ v.mark = h.pln.mark ∧ v.next = h.nextOven ∧ v.range = h.pln.range
      ∧ v.makeup = h.pln.makeup.map (fun e => (e, match h.pln.serving with
          | some (.makeup o _) => o == e.oven
          | _ => false))
      ∧ (h.pln.serving = none → v.serving = none)
      ∧ (∀ o t, h.pln.serving = some (.makeup o t) →
          v.serving = some (.makeup o (h.pln.makeup.findIdx fun e => e.oven == o)))
      ∧ ∀ k sl, h.pln.serving = some .slot → h.pln.cursor = some k → h.slot k = some sl →
          v.serving = some (.slot sl.oven k))
    ∧ (h.pln.round = none → exec (.slotQuery tag i) s = answered tag .notFound .nothing h)
    ∧ ∀ r, h.pln.round = some r →
        exec (.slotQuery tag i) s = match r.slots[i]? with
          | some sl => answered tag .ok (.slot i sl) h
          | none => answered tag .range .nothing h

/-! ## Chapters 3 and 4: machines, permits, the push -/

/-- STATUS: the machine's record takes mode, machine status and time; the position is the reported spot when the machine is
stopped at a spot its row of the table allows, else TRAVEL, and the invalid-position flag says that a stopped machine named
a spot that is not allowed (R48). The link is ONLINE and its silence timer runs (R174). No other machine's record changes.
What a STATUS does besides: LINK_STATE and, under the hold, STOP as the machine comes ONLINE (R49), POSITION_INVALID once
(R48), then the quench unit, the push record, the re-test and the dispatch check take it (the order: log 47;
POSITION_INVALID after LINK_STATE and before STOP: log 90). The quench unit: the last spot (R141); a car in UNKNOWN leaves
it (R146); in LOCAL an empty car follows its reports (R147); an arrival (R144, R145, R151, R152); a car that has left its
spot, and a loaded car out of its place, raise CAR_POSITION with the reported spot (R147); the moves withheld by LOCAL and
tested again in AUTO (R143). The push record: a lost machine leaves the lost set, and with the last one the record is
re-derived (R84, R85; log 41, 49; the order of the lost set: log 80). The model's readings: the cause a STOP to a machine
that comes ONLINE names (log 19), CAR_POSITION of a loaded car in LOCAL too (log 17), an empty car reconsidered as at a new
next oven when AUTO is reported again (log 65), after its position is checked (log 67), and the notice of a car that has
left with the state it has left, before its move is requested (log 66). The model's choices: a car that leaves UNKNOWN at a
STATUS in LOCAL is only sent onward at it (log 74); in LOCAL a STATUS that finds the car TO_OVEN with the same destination
is a new request of its move (log 91); a move is requested before the re-test for the car's state, the DUMP order made after
it, and STOP LINK_LOSS sent before PUSH_UNCONFIRMED (log 90). -/
def Obligations.StatusWritesTheMachineRecord : Prop :=
  (∀ (s : State) (f : StatusFrom) (mode : Mode) (motion : Motion) (spot : ReportedSpot), s.untested f.machine →
    let m := f.machine
    let row : SpotSide := match f with
      | .pm _ => .ps
      | .gc _ => .cs
      | .cc => .top
      | .qc _ => .track
    let allowed : Bool := match spot with
      | .oven n side => (s.oven n).isSome && side == row
      | .park => true
      | .bunker => f == .cc
      | .tower => row == .track
      | .wharf b => row == .track && (s.bay b).isSome
    let place : Position := match spot with
      | .oven n side => .oven n side
      | .park => .park
      | .bunker => .bunker
      | .tower => .tower
      | .wharf b => .wharf b
    let status : Option MachineStatus := match f with
      | .pm r => some (.ram r)
      | .gc g => some (.guide g)
      | .cc => none
      | .qc l => some (.carLoad l)
    let at_ : Option CarSpot := if motion = .stopped ∧ allowed = true then (match spot with
      | .oven n _ => some (.oven n)
      | .park => some .park
      | .tower => some .tower
      | .wharf b => some (.wharf b)
      | .bunker => none) else none
    let h := s.heardFrom m
    let up := if s.online m then h
      else (h.updPort (.mach m) fun p => { p with up := true }).raise (.linkState m true .status)
    let written := up.updMachine m fun _ => ⟨some mode,
      some (if motion = .stopped ∧ allowed = true then place else .travel), status, some s.now,
      decide (motion = .stopped ∧ allowed = false)⟩
    let told := if motion = .stopped ∧ allowed = false ∧ (s.machine m).invalidPos = false
      then written.raise (.positionInvalid m spot) else written
    let greeted := if s.online m = false ∧ s.hold = true then told.send m (.stop s.stopCause) else told
    let car := if m = .qc then greeted.qcStatus (s.machine m).mode at_ spot else greeted
    let ends' := (car.pushRegains m (!s.online m)).retest
    exec (.status f mode motion spot) s = ends (match m with
      | .pm => ends'.dispatchDoor .ps
      | .gc => ends'.dispatchDoor .cs
      | .cc => ends'.dispatchValve
      | .qc => ends')
    ∧ (s.now < tMax → ∃ t, exec (.status f mode motion spot) s = .next t
      ∧ (motion = .moving → t.machine m = ⟨some mode, some .travel, status, some s.now, false⟩)
      ∧ (motion = .stopped → allowed = true → t.machine m = ⟨some mode, some place, status, some s.now, false⟩)
      ∧ (motion = .stopped → allowed = false → t.machine m = ⟨some mode, some .travel, status, some s.now, true⟩)
      ∧ t.online m = true ∧ (t.mlink m).port.silence = true
      ∧ (∀ x, x ≠ m → t.machine x = s.machine x ∧ t.online x = s.online x)
      ∧ t.tb = s.tb ∧ t.cfg = s.cfg ∧ t.trm = s.trm ∧ t.ilk.stop = s.ilk.stop))
  ∧ (∀ (s : State) (oldMode : Option Mode) (at_ : Option CarSpot) (spot : ReportedSpot),
    let isLocal : Prop := (s.machine .qc).mode = some .localMode
    let position := (s.machine .qc).position
    let u : State := match at_ with
      | some _ => { s with qnu.car.lastSpot := at_ }
      | none => s
    let tell (v : State) : State := match (match v.qnu.car.state with
        | .loading n => some (Position.oven n .track)
        | .quenching => some .tower
        | .draining => some .tower
        | .waitBay => some .tower
        | .dumping => (v.qnu.load.bind LoadRec.bay).map .wharf
        | _ => none) with
      | some place => if position = some place ∨ v.qnu.car.positionFlag = true then v
        else ({ v with qnu.car.positionFlag := true }).raise (.carPosition v.qnu.car.state (some spot))
      | none => v
    let withdraw (v : State) : State := match v.qnu.car.move with
      | .issued _ _ => { v with qnu.car.move := .pending }
      | _ => v
    let stands (v : State) : Bool := match v.qnu.car.state with
      | .parked => true
      | .spotted _ => true
      | _ => false
    let done (v : State) : State :=
      let w := if isLocal then withdraw (tell v) else tell v
      (if ¬ isLocal ∧ oldMode = some .localMode ∧ stands w = true then w.reconsiderNext else w).testMove.testDump
    let target : EmptyDest := match s.pln.reported with
      | some (n, _) => .oven n
      | none => .park
    let empty := s.qnu.car.state = .parked ∨ (∃ n, s.qnu.car.state = .spotted n) ∨ ∃ d, s.qnu.car.state = .toOven d
    let run := s.qcStatus oldMode at_ spot
    (s.qnu.car.state = .unknown → run = done u.leaveUnknown)
    ∧ (empty → isLocal → run = done (match at_ with
        | some (.oven n) => u.settleCar (.spotted n)
        | some .park => u.settleCar .parked
        | _ => u.sendCar (.toOven target)))
    ∧ (¬ isLocal → ∀ d, s.qnu.car.state = .toOven d →
        (d = .park → at_ = some .park → run = done (u.settleCar .parked))
        ∧ (∀ n, d = .oven n → at_ = some (.oven n) → run = done (u.settleCar (.spotted n)))
        ∧ (at_ ≠ some (match d with | .park => .park | .oven n => .oven n) → run = done u))
    ∧ (s.qnu.car.state = .toTower →
        (at_ = some .tower → run = done (State.settleCar { u with
          qnu.load := u.qnu.load.map fun l => { l with quenchStart := some s.now, hot := none }
          qnu.phase := some (min tMax (s.now + s.qnu.vals.tSpray)) } .quenching))
        ∧ (at_ ≠ some .tower → run = done u))
    ∧ (∀ b, s.qnu.car.state = .toBay b →
        (at_ = some (.wharf b) → run = done (u.settleCar .dumping).requestDump)
        ∧ (at_ ≠ some (.wharf b) → run = done u))
    ∧ (¬ isLocal → s.qnu.car.state = .parked → run = done (if position = some .park then u
        else (u.raise (.carPosition .parked (some spot))).sendCar (.toOven .park)))
    ∧ (¬ isLocal → ∀ n, s.qnu.car.state = .spotted n → run = done (if position = some (.oven n .track) then u
        else (u.raise (.carPosition (.spotted n) (some spot))).sendCar (.toOven (.oven n))))
    ∧ (s.qnu.car.state = .quenching ∨ s.qnu.car.state = .draining ∨ s.qnu.car.state = .waitBay ∨ s.qnu.car.state = .dumping
        ∨ (∃ n, s.qnu.car.state = .loading n) → run = done u)
    ∧ (s.qnu.car.state = .unknown →
        (s.inRun = true → s.online .qc = true → s.carLoad = some .empty →
          s.leaveUnknown = State.sendOnward { s with qnu.car.notEmptyFlag := false })
        ∧ (s.inRun = true → s.online .qc = true → s.carLoad = some .loaded → s.leaveUnknown =
            if s.qnu.car.notEmptyFlag = true then s else ({ s with qnu.car.notEmptyFlag := true }).raise .carNotEmpty)
        ∧ (s.inRun = false ∨ s.online .qc = false → s.leaveUnknown = s)))
  ∧ ∀ (s : State) (m : MachineId),
    (∀ became, ((∀ p, s.ilk.push = some p → p.unconfirmed = false) → s.pushRegains m became = s)
      ∧ ∀ p, s.ilk.push = some p → p.unconfirmed = true →
        let q : PushRec := { p with lost := p.lost.filter (· != m) }
        let w := s.setPush (some q)
        let at_ (end_ home : Bool) (stage : PushStage) (dur : Nat) : PushRec := { q with
          stage := stage, late := false, timer := .held dur
          ramEnd := if end_ then some s.now else q.ramEnd, derivedEnd := end_ || q.derivedEnd
          ramHome := if home then some s.now else q.ramHome, derivedHome := home || q.derivedHome }
        let derived := match q.stage, s.ram with
          | .ramForward, some .atEnd =>
            ((w.setPush (some (at_ true false .ramReturn s.cfg.timing.tReturn))).ramEndCar q.oven s.now).retest
          | .ramForward, some .home =>
            (((w.setPush (some { q with ramEnd := some s.now, derivedEnd := true })).ramEndCar q.oven s.now).setPush
              (some (at_ true true .closing s.cfg.timing.tDoors))).retest
          | .ramReturn, some .home => (w.setPush (some (at_ false true .closing s.cfg.timing.tDoors))).retest
          | _, _ => w
        let confirm (v : State) (x : PushRec) : State :=
          let y : PushRec := { x with unconfirmed := false }
          let c := (v.setPush (some y)).raise (.pushConfirmed x.oven p.stage x.stage v.ram)
          let r := match x.timer with
            | .held left => if s.ilk.stop = true then c
              else if left = 0 then c.stageExpire { y with timer := .running s.now }
              else c.setPush (some { y with timer := .running (min tMax (s.now + left)) })
            | _ => c
          if r.hold = true ∨ r.online .pm = false then r else r.send .pm (.clear .linkLoss)
        (q.lost ≠ [] → s.pushRegains m became = if m = .pm ∧ became = true then w.send .pm (.stop .linkLoss) else w)
        ∧ (q.lost = [] → s.now < tMax → s.pushRegains m became = match derived.completionTest.ilk.push with
            | some x => confirm derived.completionTest x
            | none => derived.completionTest))
    ∧ ((∀ p, s.ilk.push = some p → m ≠ .cc → p.stage ≠ .ramForward ∧ p.unconfirmed = false) → s.pushLoses m = s)
    ∧ ∀ p, s.ilk.push = some p → m ≠ .cc → (p.stage = .ramForward ∨ p.unconfirmed = true) →
        let w := s.setPush (some { p with
          unconfirmed := true
          lost := if p.lost.contains m then p.lost else p.lost ++ [m]
          timer := match p.timer with
            | .running e => .held (e - s.now)
            | x => x })
        s.pushLoses m = (if s.online .pm = true then w.send .pm (.stop .linkLoss) else w).raise (.pushUnconfirmed p.oven m)

/-- A REQUEST of any of the four kinds: the tests of R52 in order, then the conditions of R53, R56 or R57; the first that
fails is the reason of the REFUSE, which changes no other state; when all hold the permit is entered and GRANT sent, and a
PUSH grant arms the push record (R73). A REQUEST whose kind is none of the four is refused too: STATE, RANGE or KIND, the
first that applies (R52); that the REFUSE carries its code as it came is the model's choice (log 12). -/
def Obligations.RequestsAreDecidedInOrder : Prop :=
  (∀ (s : State) (l : LinkId) (m : MachineId) (code : Byte) (n : Nat), s.untested m →
    let h := s.heardFrom m
    takeFrame l (.unknownPermit m code n) s = h.send m (.refuse (.unknown code) n
      (if h.inRun = false then .state else if (h.oven n).isSome = false then .range else .kind) none))
  ∧ ∀ (s : State) (m : MachineId) (n : Nat) (k : PermitKind), s.untested m →
    let h := s.heardFrom m
    let request : Instr := match k with
      | .doorOffPs => .requestDoorOffPs m n
      | .doorOffCs => .requestDoorOffCs m n
      | .push => .requestPush m n
      | .charge => .requestCharge m n
    let owner : MachineId := match k with
      | .doorOffPs => .pm
      | .doorOffCs => .gc
      | .push => .pm
      | .charge => .cc
    let stands (x : MachineId) (side : SpotSide) : Prop :=
      h.online x = true ∧ (h.machine x).position = some (.oven n side)
    let neighbour (j : Nat) : Prop := ∀ o, h.oven j = some o → o.state = .out ∨ o.state = .ready
      ∨ (o.state = .coking ∧ ∃ t, o.chargeEnd = some t ∧ t + h.cfg.timing.tAdj * 60 ≤ h.now)
    let ready : Prop := h.ovenState n = some .ready
    let pushing (ok : PushRec → Prop) : Prop :=
      h.ovenState n = some .pushing ∧ ∃ p, h.ilk.push = some p ∧ p.oven = n ∧ ok p
    let spaced : Prop := ∀ t j, h.ilk.lastRam = some (t, j) →
      t + (if j = h.secOf n then h.cfg.timing.tSs else h.cfg.timing.tSd) ≤ h.now
    let level := h.level (h.secOf n)
    let common : List (Prop × Reason) := [
      (h.inRun = true, .state), ((h.oven n).isSome = true, .range), (owner = m, .kind), (h.permit m = none, .permitHeld),
      (h.ilk.stop = false, .stopped), (∀ o ∈ h.ot, o.breach = false, .breach)]
    let doorOff (d : Side) (side : SpotSide) : List (Prop × Reason) := [
      (stands owner side, .notAligned), (h.servingOven = some n, .notServing),
      ((ready ∧ h.ilk.push = none) ∨ pushing (fun p => p.stage = .opening), .ovenState),
      (h.doorState n d ≠ some .off, .doors), (h.valveState n = some .closed, .valve),
      (level ≠ some .flare, .sectionPressure), (ready → spaced, .spacing),
      (neighbour (n - 1) ∧ neighbour (n + 1), .adjacent), ((h.round d).debt < 8, .inspectionDue)]
    let fit (d : Side) : Prop := h.doorState n d = some .onUnconfirmed ∨ h.doorState n d = some .tight
    let own : List (Prop × Reason) := match k with
      | .doorOffPs => doorOff .ps .ps
      | .doorOffCs => doorOff .cs .cs
      | .push => [
        (h.servingOven = some n, .notServing),
        (pushing (fun p => p.stage = .opening ∨ (p.stage = .sticker ∧ p.retry = true)), .ovenState),
        (h.doorState n .ps = some .off ∧ h.doorState n .cs = some .off, .doors),
        (stands .pm .ps ∧ h.ram = some .home, .notAligned), (stands .gc .cs ∧ h.guide = some .locked, .notAligned),
        (h.online .qc = true ∧ h.qnu.car.state = .spotted n ∧ h.carLoad = some .empty, .quenchCar)]
      | .charge => [
        (stands .cc .top, .notAligned), (h.ovenState n = some .empty, .ovenState), (fit .ps ∧ fit .cs, .doors),
        (h.valveState n = some .aspirating, .valve), (level = some .normal ∨ level = some .low, .sectionPressure),
        (∀ j, j ≠ n → h.secOf j = h.secOf n → h.ovenState j ≠ some .charging, .busy)]
    let tests := common ++ own
    let deadline := min tMax (h.now + h.cfg.timing.tUse)
    let entered := (h.setPermit m (some ⟨k, n, h.now, deadline⟩)).send m (.grant k n deadline)
    (∀ (i : Nat) (c : Prop) (r : Reason), tests[i]? = some (c, r) → ¬ c →
      (∀ (j : Nat) (c' : Prop) (r' : Reason), j < i → tests[j]? = some (c', r') → c') →
      exec request s = ends (h.send m (.refuse (.known k) n r (if r = .permitHeld then h.permit m else none))))
    ∧ ((∀ x ∈ tests, x.1) → exec request s = ends (match k, h.ilk.push with
        | .push, some p => entered.setPush (some { p with
            stage := .armed
            armedFrom := some (if p.stage = .sticker then .sticker else .opening)
            late := false })
        | _, _ => entered))

/-- USE_DEADLINE_EXPIRY of a permit whose deadline is reached: it leaves the table with a REVOKE EXPIRED, a PUSH permit
returns the record from ARMED to its armed-from stage (R59, R73), and the machine, no longer holding a permit, may be
dispatched; with no permit, or a deadline ahead, nothing happens (log 1). The same revocation with any other reason, and of
every permit, PM, GC, CC in turn, and a frame to every ONLINE machine, PM, GC, CC, QC in turn: the orders are the model's
choice (log 71). -/
def Obligations.PermitExpiresAtItsDeadline : Prop :=
  ∀ (s : State) (m : MachineId),
    ((∀ p, s.permit m = some p → s.now < p.deadline) → exec (.useDeadlineExpiry m) s = ends s)
    ∧ (∀ r, s.revokeAll r = ((s.revoke .pm r).revoke .gc r).revoke .cc r)
    ∧ (∀ f, s.sendAllOnline f = [MachineId.pm, .gc, .cc, .qc].foldl (fun u x => if u.online x = true then u.send x f else u) s)
    ∧ (s.permit m = none → ∀ r, s.revoke m r = s)
    ∧ ∀ p, s.permit m = some p →
      let after (r : Reason) : State :=
        let gone := (s.setPermit m none).send m (.revoke p.kind p.oven r)
        let back := match p.kind, s.ilk.push with
          | .push, some q => match q.armedFrom with
            | some .opening => gone.setPush (some { q with stage := .opening, armedFrom := none, late := false })
            | some .sticker => gone.setPush (some { q with stage := .sticker, armedFrom := none, late := false })
            | none => gone
          | _, _ => gone
        match m with
        | .pm => back.dispatchDoor .ps
        | .gc => back.dispatchDoor .cs
        | .cc => back.dispatchValve
        | .qc => back
      (∀ r, s.revoke m r = after r)
      ∧ (p.deadline ≤ s.now → exec (.useDeadlineExpiry m) s = ends (after .expired).retest)

/-- CLEAR_BREACH by its four cases, in CONFIG and in RUN (R67). Taken, it clears the flag; when no cause of the machine hold
is left the hold ends with CLEAR to every ONLINE machine (R64), STOP LINK_LOSS again to PM of an unconfirmed push (R84), and
the work that waited on the hold: PS, CS, valves, the move, the dump. That order, and STOP after CLEAR, are the model's
reading (log 39); the order of the CLEAR frames is its choice (log 71). The plan state is not changed. -/
def Obligations.ClearBreachEndsTheHold : Prop :=
  ∀ (s : State) (tag : Byte) (n : Nat), s.room →
    let h := s.supervisorHeard
    (h.oven n = none → exec (.clearBreach tag n) s = answered tag .range .nothing h)
    ∧ (∀ o, h.oven n = some o →
        let u := h.updOven n fun x => { x with breach := false }
        let free := h.inRun = true ∧ h.ilk.stop = false ∧ ∀ x ∈ u.ot, x.breach = false
        let clears := u.sendAllOnline (.clear .breach)
        let told := if h.unconfirmed = true ∧ h.online .pm = true then clears.send .pm (.stop .linkLoss) else clears
        (o.breach = false → exec (.clearBreach tag n) s = answered tag .notFound .nothing h)
        ∧ (o.breach = true → (h.doorState n .ps = some .off ∨ h.doorState n .cs = some .off) →
            exec (.clearBreach tag n) s = answered tag .doors .nothing h)
        ∧ (o.breach = true → h.doorState n .ps ≠ some .off → h.doorState n .cs ≠ some .off →
            (free → exec (.clearBreach tag n) s = answered tag .ok .nothing
              ((((told.dispatchDoor .ps).dispatchDoor .cs).dispatchValve).testMove).testDump)
            ∧ (¬ free → exec (.clearBreach tag n) s = answered tag .ok .nothing u)))
    ∧ ∀ t, s.now < tMax → exec (.clearBreach tag n) s = .next t → t.pln = h.pln

/-- A DOOR_OFF, RAM_START or CHARGE_START that no permit covers is a breach, in CONFIG and in RUN: the oven's flag is set,
every permit goes, and the fact is recorded (the door OFF; PM's ram FORWARD and the last ram start); then STOP BREACH goes
to every ONLINE machine, a RUNNING planner is HALTED, and BREACH is raised with the permit the machine held (R65). A
CHARGE_START at an EMPTY oven in RUN has the effect of a covered one on the oven table and the offtake unit: the oven
CHARGING with its charge record, and another charge of the section at its assumed end (R11, R137). A DOOR_OFF puts the door
OFF with all that R91 has follow; a RAM_START that the push record follows is handed to the quench unit (R79, R148). PM's
ram state is written before its first STATUS too (log 15), and an assumed charge end takes its steps by log 64 and 90. The
order in which the permits go and the STOP frames are sent is the model's choice (log 71). -/
def Obligations.UncoveredReportsAreBreaches : Prop :=
  ∀ (s : State) (m : MachineId) (n : Nat), s.untested m → (s.oven n).isSome = true →
    let h := s.heardFrom m
    let uncovered (k : PermitKind) := ∀ p, s.permit m = some p → ¬ (p.kind = k ∧ p.oven = n)
    let held := (s.permit m).map fun p => (p.kind, p.oven)
    let breached (c : Instr) (rep : ReportName) (fact : State → Prop) : Prop :=
      ∃ u, exec c s = ends ((((({ u with ilk.holdCause := .breach }).sendAllOnline (.stop .breach)).withdrawMove).planHalt).raise
          (.breach n m rep held))
        ∧ (∀ x, x ≠ .qc → u.permit x = none) ∧ u.ilk.stop = s.ilk.stop ∧ u.tb = s.tb ∧ u.cfg = s.cfg ∧ u.trm = s.trm
        ∧ (u.oven n).map OvenRec.breach = some true
        ∧ (∀ j, j ≠ n → (u.oven j).map OvenRec.breach = (s.oven j).map OvenRec.breach) ∧ fact u
        ∧ ∀ t, s.now < tMax → exec c s = .next t → t.hold = true ∧ t.pln.state ≠ .running ∧ ∀ x, x ≠ .qc → t.permit x = none
    let flagged := upd1 (fun o : OvenRec => { o with breach := true }) n s.ot
    let revoked := (h.updOven n fun o => { o with breach := true }).revokeAll .breach
    (∀ d, m = (match d with | .ps => .pm | .cs => .gc) →
        uncovered (match d with | .ps => .doorOffPs | .cs => .doorOffCs) →
        breached (.doorOff m n (some d)) .doorOff fun u =>
          u = revoked.doorGoesOff n d ∧ u.ot = flagged ∧ u.doorState n d = (h.doorState n d).map fun _ => .off)
    ∧ (m = .pm → uncovered .push → breached (.ramStart m n) .ramStart fun u =>
        let started : State := { revoked.updMachine .pm fun r => { r with status := some (.ram .forward) } with
          ilk.lastRam := some (s.now, s.secOf n) }
        let follows (p : PushRec) := p.oven = n ∧ (p.stage = .opening ∨ p.stage = .sticker)
        ((∀ p, started.ilk.push = some p → ¬ follows p) → u = started)
        ∧ (∀ p, started.ilk.push = some p → follows p → u = (started.setPush (some { p with
            stage := .ramForward, armedFrom := none, ramStart := some s.now, ramEnd := none, ramHome := none,
            derivedEnd := false, derivedHome := false, retry := false, late := false
            timer := if s.ilk.stop = true ∨ p.unconfirmed = true then .held s.cfg.timing.tRam
              else .running (min tMax (s.now + s.cfg.timing.tRam)) })).ramStartCar n)
        ∧ u.ot = flagged ∧ u.ilk.lastRam = some (s.now, s.secOf n) ∧ (u.machine .pm).status = some (.ram .forward)
        ∧ (∀ p, s.ilk.push = some p → p.oven = n → (p.stage = .opening ∨ p.stage = .sticker) →
            u.ilk.push = some { p with
              stage := .ramForward, armedFrom := none, ramStart := some s.now, ramEnd := none, ramHome := none,
              derivedEnd := false, derivedHome := false, retry := false, late := false
              timer := if s.ilk.stop = true ∨ p.unconfirmed = true then .held s.cfg.timing.tRam
                else .running (min tMax (s.now + s.cfg.timing.tRam)) })
        ∧ ((∀ p, s.ilk.push = some p → p.armedFrom = none ∧ (p.oven ≠ n ∨ (p.stage ≠ .opening ∧ p.stage ≠ .sticker))) →
            u.ilk.push = s.ilk.push))
    ∧ (m = .cc → uncovered .charge → breached (.chargeStart m n) .chargeStart fun u =>
        ((s.inRun = false ∨ s.ovenIs n .empty = false) → u.ot = flagged)
        ∧ (s.inRun = true → s.ovenIs n .empty = true →
          u = revoked.chargeFact n
          ∧ u.oven n = (s.oven n).map (fun o => { o with state := .charging, chargeEnd := none, breach := true })
          ∧ (∀ k, k ≠ n → u.oven k = if s.chargingElsewhere n (s.secOf n) = some k
              then (s.oven k).map (fun o => { o with state := .coking, chargeEnd := some s.now, overdue := false })
              else s.oven k)
          ∧ u.ofu.charges = (s.ofu.charges.filter fun c => s.chargingElsewhere n (s.secOf n) ≠ some c.oven)
              ++ [⟨n, s.now, some (min tMax (s.now + s.cfg.timing.tCharge)), false⟩]))

/-- A covered DOOR_OFF uses its permit and puts the door OFF; at a READY oven it makes the oven PUSHING and opens the push
record (R14, R71), else no oven's state changes (R72). A covered RAM_START in ARMED uses the PUSH permit: RAM_FORWARD with
the fields of R74, the last ram start and PM's ram state (R54, R50), and the car spotted at the oven LOADING, with
RAM_WITHOUT_CAR for a car in any other state (R148). A door that goes OFF (R91): its confirm timer and pending flag go, its
RESEAL and INSPECT entries that wait leave the queue, one in service is withdrawn and a CLEAN in service goes back to the
head of its class unmarked, a visit is withdrawn, each with TASK_WITHDRAWN (its fields: log 60), pending doors take the
places freed (there: log 72), a CLEAN is offered in RUN when clean is due, and the re-test follows; then the dispatch check.
A DUE slot that serves becomes IN_PUSH with the first DOOR_OFF (R29); the RAM_START gives it its push start time, once, and
raises Λ to the delay, not above 86,400 (R25, R29); a push of a make-up entry leaves the slots and Λ (R34). R60 and R74 give
the blocks no order. The model's choices (log 90): at a covered DOOR_OFF the push record, the door unit, the planner with
the oven's change (log 9), the re-test, the dispatch check (log 24); at a covered RAM_START PM's ram state and the last ram
start, the push record, the quench unit, the planner, the re-test, the dispatch check. -/
def Obligations.CoveredReportsOpenAndPush : Prop :=
  (∀ (s : State) (n i : Nat) (sl : Slot), s.pln.serving = some .slot → s.pln.cursor = some i → s.slot i = some sl →
    sl.oven = n →
    let put (x : Slot) : Planner := { s.pln with
      round := s.pln.round.map fun r => { r with slots := upd1 (fun _ => x) (i + 1) r.slots } }
    (sl.status = .due → s.planPushBegins n = State.planReport { s with pln := put { sl with status := .inPush } })
    ∧ s.planRamStart n = State.planReport { s with pln := { put { sl with pushStart := some (sl.pushStart.getD s.now) } with
        lag := min 86400 (max s.pln.lag (s.now - sl.planned)) } })
  ∧ (∀ (s : State) (n : Nat), ¬ (s.pln.serving = some .slot ∧ s.cursorSlot.map Slot.oven = some n) →
      s.planPushBegins n = s ∧ s.planRamStart n = s)
  ∧ (∀ (s : State) (n : Nat),
    (s.qnu.car.state = .spotted n → s.ramStartCar n = (s.setCar (.loading n)).retest)
    ∧ (s.qnu.car.state ≠ .spotted n → s.ramStartCar n = s.raise (.ramWithoutCar n s.qnu.car.state)))
  ∧ (∀ (s : State) (n : Nat) (d : Side) (x : DoorRec), s.door n d = some x →
    let m := match d with
      | .ps => MachineId.pm
      | .cs => MachineId.gc
    let waits (e : TaskEntry) : Bool := e.oven == n && (e.kind == .reseal || e.kind == .inspect) && e.service.isNone
    let kept : List TaskEntry := (s.queue d).filter fun e => !waits e
    let off := (s.updDoor n d fun r => { r with state := .off, confirm := none, resealPending := false }).setQueue d kept
    let withdrawn := match kept.find? fun e => e.oven == n && e.service.isSome with
      | some (e : TaskEntry) =>
        let others : List TaskEntry := kept.filter fun y => !(y.oven == n && y.kind == e.kind)
        (off.setQueue d (if e.kind = TaskKind.clean then joinHead { e with service := none, timedOut := false } others
          else others)).raise (.taskWithdrawn m n (.door e.kind) false)
      | none => off
    let freed := if (s.round d).visit.any (fun v => v.oven == n) then
      (withdrawn.updRound d fun r => { r with visit := none }).raise (.taskWithdrawn m n (.door .inspect) true)
      else withdrawn
    let released := freed.pendingRelease d
    let offered := if x.cleanDue = true ∧ s.inRun = true then released.offerTask d n .clean else released
    (x.state = .off → s.doorGoesOff n d = s) ∧ (x.state ≠ .off → s.doorGoesOff n d = offered.retest))
  ∧ (∀ (s : State) (n : Nat),
    (∀ (d : Side) (p : Permit),
      let m := match d with
        | .ps => MachineId.pm
        | .cs => MachineId.gc
      s.untested m → s.permit m = some p → p.kind = (match d with | .ps => .doorOffPs | .cs => .doorOffCs) → p.oven = n →
      (s.oven n).isSome = true →
      let u := (s.heardFrom m).setPermit m none
      let opened := (u.updOven n fun o => { o with state := .pushing }).setPush
        (some ⟨n, .opening, none, false, 1, s.now, none, none, none, false, false, .absent, false, false, []⟩)
      exec (.doorOff m n (some d)) s = ends ((if s.ovenState n = some .ready then
        ((opened.doorGoesOff n d).planPushBegins n).ovenChanged n else u.doorGoesOff n d).retest.dispatchDoor d))
    ∧ ∀ (p : Permit) (q : PushRec), s.untested .pm → s.permit .pm = some p → p.kind = .push → p.oven = n →
      (s.oven n).isSome = true → s.ilk.push = some q →
      let u : State := { ((s.heardFrom .pm).setPermit .pm none).updMachine .pm
        fun r => { r with status := some (.ram .forward) } with ilk.lastRam := some (s.now, s.secOf n) }
      exec (.ramStart .pm n) s = ends (((((u.setPush (some { q with
        stage := .ramForward, armedFrom := none, ramStart := some s.now, ramEnd := none, ramHome := none,
        derivedEnd := false, derivedHome := false, retry := false, late := false
        timer := if s.ilk.stop = true ∨ q.unconfirmed = true then .held s.cfg.timing.tRam
          else .running (min tMax (s.now + s.cfg.timing.tRam)) })).ramStartCar n).planRamStart n).retest).dispatchDoor .ps))
  ∧ ∀ (s : State) (n : Nat), s.now < tMax →
    (∀ (d : Side) (p : Permit) (x : DoorRec),
      let m := match d with
        | .ps => MachineId.pm
        | .cs => MachineId.gc
      s.untested m → s.permit m = some p → p.kind = (match d with | .ps => .doorOffPs | .cs => .doorOffCs) → p.oven = n →
      (s.oven n).isSome = true → s.door n d = some x →
      ∃ t, exec (.doorOff m n (some d)) s = .next t ∧ t.permit m = none ∧ t.doorState n d = some .off
        ∧ (s.ovenState n = some .ready → t.ot = upd1 (fun o => { o with state := .pushing }) n s.ot
            ∧ t.ilk.push = some ⟨n, .opening, none, false, 1, s.now, none, none, none, false, false, .absent, false, false,
                []⟩
            ∧ ∀ i sl, s.pln.serving = some .slot → s.pln.cursor = some i → s.slot i = some sl → sl.oven = n →
              sl.status = .due → t.slot i = some { sl with status := .inPush })
        ∧ (s.ovenState n ≠ some .ready → t.ot = s.ot ∧ (s.ilk.push = none ↔ t.ilk.push = none)))
    ∧ ∀ (p : Permit) (q : PushRec), s.untested .pm → s.permit .pm = some p → p.kind = .push → p.oven = n →
      (s.oven n).isSome = true → s.ilk.push = some q → q.oven = n → q.stage = .armed →
      ∃ t, exec (.ramStart .pm n) s = .next t ∧ t.permit .pm = none
        ∧ t.ilk.push = some { q with
            stage := .ramForward, armedFrom := none, ramStart := some s.now, ramEnd := none, ramHome := none,
            derivedEnd := false, derivedHome := false, retry := false, late := false
            timer := if s.ilk.stop = true ∨ q.unconfirmed = true then .held s.cfg.timing.tRam
              else .running (min tMax (s.now + s.cfg.timing.tRam)) }
        ∧ t.ilk.lastRam = some (s.now, s.secOf n) ∧ (t.machine .pm).status = some (.ram .forward)
        ∧ (s.qnu.car.state = .spotted n → t.qnu.car.state = .loading n) ∧ t.ot = s.ot
        ∧ (∀ i sl, s.pln.serving = some .slot → s.pln.cursor = some i → s.slot i = some sl → sl.oven = n →
            t.slot i = some { sl with pushStart := some (sl.pushStart.getD s.now) }
            ∧ t.pln.lag = min 86400 (max s.pln.lag (s.now - sl.planned)))
        ∧ (¬ (s.pln.serving = some .slot ∧ s.cursorSlot.map Slot.oven = some n) →
            t.pln.round = s.pln.round ∧ t.pln.lag = s.pln.lag)

/-- RAM_AT_END and RAM_HOME from PM write PM's ram state (R50; before its first STATUS too, as the model's choice: log 15).
RAM_AT_END in RAM_FORWARD, or in STICKER with the retry flag clear, begins RAM_RETURN and hands the ram end to the quench
unit (R75, R149); RAM_HOME in RAM_RETURN begins CLOSING, and the push is complete at once when no door is OFF (R76, R77);
RAM_HOME in STICKER is taken without a notice; any other is RAM_SEQUENCE (R78). The re-test comes last of these, and the
record's removal tells the door unit, the quench unit and the re-test in that order: the model's choice (log 90). The
completion test and the steps of R77 in order: PUSH_DONE, the oven EMPTY (R15), the planner's part, the ASPIRATE offer, the
record gone and the dispatch checks (PS, then CS: log 79), with the CLEAR of R84 before it goes (log 50); the planner's
part: a serving slot DONE and the cursor on in RUNNING (R29, R30), a serving make-up entry released (R34), and the oven's
make-up entry out of the list in each case (R77). -/
def Obligations.RamReportsMoveThePush : Prop :=
  (∀ s : State,
    ((∀ q, s.ilk.push = some q → ¬ (q.stage = .closing ∧ s.anyDoorOff q.oven = false)) → s.completionTest = s)
    ∧ ∀ q, s.ilk.push = some q → q.stage = .closing → s.anyDoorOff q.oven = false →
      let start := q.ramStart.getD 0
      let net := start - ((s.oven q.oven).bind OvenRec.chargeEnd).getD 0
      let told := s.raise (.pushDone q.oven q.attempts (((s.oven q.oven).map OvenRec.stickers).getD 0) q.doorOff q.ramStart
        q.ramEnd q.ramHome q.derivedEnd q.derivedHome s.now net)
      let emptied := told.updOven q.oven fun o => { o with
        state := .empty, lastPush := some ⟨start - o.chargeEnd.getD 0, q.ramEnd.getD 0⟩, chargeEnd := none
        overdue := false, stickers := 0 }
      let offered := (emptied.planPushComplete q.oven).offerValve q.oven .aspirate
      let cleared := if q.unconfirmed = true ∧ offered.hold = false ∧ offered.online .pm = true then
        offered.send .pm (.clear .linkLoss) else offered
      let free := (State.dispatchDoor { cleared with ilk.push := none } .ps).dispatchDoor .cs
      s.completionTest = (if free.qnu.car.state = .spotted q.oven then free.reconsiderNext else free).retest)
  ∧ (∀ (s : State) (n : Nat),
    let dropped (p : Planner) : Planner := { p with makeup := p.makeup.filter fun e => e.oven ≠ n }
    (∀ i, s.pln.serving = some .slot → s.pln.cursor = some i → s.cursorSlot.map Slot.oven = some n →
      let u : State := { s with pln := dropped { s.pln with
        serving := none
        round := s.pln.round.map fun r => { r with slots := upd1 (fun x => { x with status := .done }) (i + 1) r.slots } } }
      s.planPushComplete n = (if s.pln.state = .running then u.advance else u).planSettle.planReport)
    ∧ (∀ t, s.pln.serving = some (.makeup n t) → s.planPushComplete n =
        State.planReport (State.planSettle { s with pln := dropped { s.pln with serving := none } }))
    ∧ (¬ (s.pln.serving = some .slot ∧ s.cursorSlot.map Slot.oven = some n) → (∀ t, s.pln.serving ≠ some (.makeup n t)) →
        s.planPushComplete n = { s with pln := dropped s.pln }))
  ∧ ∀ (s : State) (n : Nat), s.untested .pm → (s.oven n).isSome = true →
    let told (r : Ram) := (s.heardFrom .pm).updMachine .pm fun m => { m with status := some (.ram r) }
    let timer (u : State) (q : PushRec) (dur : Nat) : StageTimer :=
      if u.ilk.stop = true ∨ q.unconfirmed = true then .held dur else .running (min tMax (u.now + dur))
    let stageOf (u : State) : Option PushStage := u.ilk.push.bind fun q => if q.oven = n then some q.stage else none
    let ends' (q : PushRec) := q.oven = n ∧ (q.stage = .ramForward ∨ (q.stage = .sticker ∧ q.retry = false))
    (∀ q, s.ilk.push = some q → ends' q →
      let u := (told .atEnd).setPush (some { q with
        stage := .ramReturn, ramEnd := some s.now, derivedEnd := false, late := false
        timer := timer s q s.cfg.timing.tReturn })
      exec (.ramAtEnd .pm n) s = ends (
        if s.qnu.car.state = .spotted n ∨ s.qnu.car.state = .loading n then
          (({ u with qnu.load := some ⟨n, s.now, none, none, none, false,
              some (min tMax (s.now + (s.qnu.vals.tHot + 1)))⟩ }).sendCar .toTower).retest
        else (u.raise (.noCarAtEnd n s.now)).retest))
    ∧ ((∀ q, s.ilk.push = some q → ¬ ends' q) →
        exec (.ramAtEnd .pm n) s = ends (((told .atEnd).raise (.ramSequence n .ramAtEnd (stageOf s))).retest))
    ∧ (∀ q, s.ilk.push = some q → q.oven = n → q.stage = .ramReturn →
      let u := (told .home).setPush (some { q with
        stage := .closing, ramHome := some s.now, derivedHome := false, late := false
        timer := timer s q s.cfg.timing.tDoors })
      exec (.ramHome .pm n) s = ends u.retest.completionTest
      ∧ (s.anyDoorOff n = true → exec (.ramHome .pm n) s = ends u.retest)
      ∧ (s.anyDoorOff n = false → q.armedFrom = none → s.now < tMax → ∃ t, exec (.ramHome .pm n) s = .next t ∧ t.ilk.push = none
          ∧ t.ot = upd1 (fun o => { o with
              state := .empty
              lastPush := some ⟨q.ramStart.getD 0 - o.chargeEnd.getD 0, q.ramEnd.getD 0⟩
              chargeEnd := none
              overdue := false
              stickers := 0 }) n s.ot))
    ∧ (∀ q, s.ilk.push = some q → q.oven = n → q.stage = .sticker →
        exec (.ramHome .pm n) s = ends (told .home).retest)
    ∧ ((∀ q, s.ilk.push = some q → q.oven = n → q.stage ≠ .ramReturn ∧ q.stage ≠ .sticker) →
        exec (.ramHome .pm n) s = ends (((told .home).raise (.ramSequence n .ramHome (stageOf s))).retest))

/-- T_RAM_EXPIRY in RAM_FORWARD is a sticker: STICKER without a timer, the oven's count up to 3, the notice, and a car
LOADING there SPOTTED again (R80, R148); that the re-test comes last is the model's choice (log 90). STAGE_TIMER_EXPIRY in
RAM_RETURN or CLOSING sets the late flag and removes the timer with one PUSH_LATE (R81). In another stage, or before its
time, an expiry does nothing (log 1). -/
def Obligations.StickersAndLatePushes : Prop :=
  let stuck (s : State) (q : PushRec) : State :=
    let u := (s.setPush (some { q with stage := .sticker, timer := .absent, late := false })).updOven q.oven fun o =>
      { o with stickers := min 3 (o.stickers + 1) }
    let v := u.raise (.sticker q.oven q.attempts (((u.oven q.oven).map OvenRec.stickers).getD 0) q.ramStart s.ram)
    if s.qnu.car.state = .loading q.oven then ((v.setCar (.spotted q.oven)).retest).retest else v.retest
  let late (s : State) (q : PushRec) : State := (s.setPush (some { q with timer := .absent, late := true })).raise
    (.pushLate q.oven q.stage (if q.stage = .closing then q.ramHome else q.ramEnd))
  (∀ (s : State) (q : PushRec), (q.stage = .ramForward → s.stageExpire q = stuck s q)
    ∧ (q.stage = .ramReturn ∨ q.stage = .closing → s.stageExpire q = late s q))
  ∧ ∀ s : State,
    let due (q : PushRec) := ∃ e, q.timer = .running e ∧ e ≤ s.now
    ((∀ q, s.ilk.push = some q → q.stage = .ramForward → ¬ due q) → exec .tRamExpiry s = ends s)
    ∧ ((∀ q, s.ilk.push = some q → (q.stage = .ramReturn ∨ q.stage = .closing) → ¬ due q) →
        exec .stageTimerExpiry s = ends s)
    ∧ ∀ q, s.ilk.push = some q → due q →
      (q.stage = .ramForward → exec .tRamExpiry s = ends (stuck s q))
      ∧ (q.stage = .ramReturn ∨ q.stage = .closing → exec .stageTimerExpiry s = ends (late s q))

/-- PUSH_RETRY and ABANDON in RUN, by the tests of R82 and R83 in order. A retry raises the attempts and sets the retry
flag; an abandoned push leaves no record and its oven READY, or COKING again when its ready time lies ahead (R16). The steps
of the ABANDON, with the planner's part: a serving slot PASSED with SLOT_PASSED ABANDONED and the cursor on in RUNNING
(R29), a serving make-up entry released and kept in the list (R34), and the dispatch checks (PS, then CS: log 79). The
model's choices (log 90): the oven's change is reported after the planner's step and before the record's removal, and the
removal tells the door unit, the quench unit and the re-test in that order. -/
def Obligations.RetryAndAbandon : Prop :=
  (∀ (s : State) (n : Nat),
    (∀ i, s.pln.serving = some .slot → s.pln.cursor = some i → s.cursorSlot.map Slot.oven = some n →
      let u := State.raise { s with pln := { s.pln with
        serving := none
        round := s.pln.round.map fun r =>
          { r with slots := upd1 (fun x => { x with status := .passed }) (i + 1) r.slots } } } (.slotPassed i n .abandoned)
      s.planAbandon n = (if s.pln.state = .running then u.advance else u).planSettle.planReport)
    ∧ (∀ t, s.pln.serving = some (.makeup n t) →
        s.planAbandon n = State.planReport (State.planSettle { s with pln.serving := none }))
    ∧ (¬ (s.pln.serving = some .slot ∧ s.cursorSlot.map Slot.oven = some n) → (∀ t, s.pln.serving ≠ some (.makeup n t)) →
        s.planAbandon n = s))
  ∧ (∀ (h : State) (q : PushRec),
    let gone := h.raise (.pushAbandoned q.oven q.attempts (((h.oven q.oven).map OvenRec.stickers).getD 0) q.doorOff
      q.ramStart)
    let back := gone.updOven q.oven fun o => if o.state = .pushing then { o with state := .ready } else o
    let left := (((back.evalReadyRaw q.oven).overdueCheck q.oven).planAbandon q.oven).ovenChanged q.oven
    let free := (State.dispatchDoor { left with ilk.push := none } .ps).dispatchDoor .cs
    h.abandonPush q = (if free.qnu.car.state = .spotted q.oven then free.reconsiderNext else free).retest)
  ∧ ∀ (s : State) (tag : Byte) (n : Nat), s.room → s.inRun = true →
    let h := s.supervisorHeard
    ((∀ q, h.ilk.push = some q → q.oven ≠ n) →
      exec (.pushRetry tag n) s = answered tag .notFound .nothing h
      ∧ exec (.abandon tag n) s = answered tag .notFound .nothing h)
    ∧ ∀ q, h.ilk.push = some q → q.oven = n →
      let waits := q.stage = .sticker ∧ q.retry = false
      (¬ waits → exec (.pushRetry tag n) s = answered tag .ovenState .nothing h)
      ∧ (waits → q.attempts = 3 → exec (.pushRetry tag n) s = answered tag .attempts .nothing h)
      ∧ (waits → q.attempts ≠ 3 → (h.online .pm = false ∨ h.ram ≠ some .home) →
          exec (.pushRetry tag n) s = answered tag .ramNotHome .nothing h)
      ∧ (waits → q.attempts ≠ 3 → h.online .pm = true → h.ram = some .home →
          exec (.pushRetry tag n) s = answered tag .ok (.attempts (q.attempts + 1))
            (h.setPush (some { q with attempts := q.attempts + 1, retry := true })).retest)
      ∧ (q.stage ≠ .sticker → exec (.abandon tag n) s = answered tag .ovenState .nothing h)
      ∧ (q.stage = .sticker → (h.doorState n .ps = some .off ∨ h.doorState n .cs = some .off) →
          exec (.abandon tag n) s = answered tag .doors .nothing h)
      ∧ (q.stage = .sticker → h.doorState n .ps ≠ some .off → h.doorState n .cs ≠ some .off →
          exec (.abandon tag n) s = answered tag .ok .nothing (h.abandonPush q)
          ∧ (h.abandonPush q).ilk.push = none
          ∧ ∀ o, h.oven n = some o →
            ((o.state = .pushing ∨ o.state = .ready ∨ o.state = .coking) → (h.abandonPush q).ovenState n = some (
              if o.chargeEnd.any (fun t => decide (min tMax (t + (o.target - h.cfg.timing.w) * 60) ≤ h.now)) then .ready
              else .coking))
            ∧ (o.state ≠ .pushing → o.state ≠ .ready → o.state ≠ .coking → (h.abandonPush q).ovenState n = some o.state))

/-! ## Chapter 5: doors, door work and inspection rounds -/

/-- DOOR_ON and DOOR_TIGHT by the table of R89: an OFF door goes ON_UNCONFIRMED, with its confirm timer in RUN (R92), and
completes a push in CLOSING whose other door is on (R77); a LEAKING or ON_UNCONFIRMED door becomes TIGHT and its waiting
RESEAL and INSPECT entries go, with the reseal pending release (R96); the re-test (R58) and the dispatch check of the side
(R97), last (log 24), follow, and nothing else changes, the entries of other ovens among it; that the completion test comes
before the dispatch check is the model's choice (log 90); the rest is DOOR_SEQUENCE, or a refreshed confirmation. -/
def Obligations.DoorsPutOnAndTight : Prop :=
  ∀ (s : State) (d : Side) (n : Nat) (r : DoorRec),
    let m := match d with
      | .ps => MachineId.pm
      | .cs => MachineId.gc
    s.untested m → (s.oven n).isSome = true → s.door n d = some r →
    let h := s.heardFrom m
    let sequence (rep : ReportName) := ends ((s.heardFrom m).raise (.doorSequence n d rep r.state))
    (r.state ≠ .off → exec (.doorOn m n (some d)) s = sequence .doorOn)
    ∧ (r.state = .off → exec (.doorTight m n (some d)) s = sequence .doorTight)
    ∧ (r.state = .off → exec (.doorOn m n (some d)) s = ends (((h.updDoor n d fun x => { x with
        state := .onUnconfirmed
        confirm := if s.inRun then some (min tMax (s.now + s.dru.vals.tConfirm)) else none
        }).retest).completionTest.dispatchDoor d))
    ∧ (r.state = .off → s.now < tMax → ∃ t, exec (.doorOn m n (some d)) s = .next t
        ∧ t.dru.doors = upd1 (fun p => p.set d { p.get d with
            state := .onUnconfirmed
            confirm := if s.inRun then some (min tMax (s.now + s.dru.vals.tConfirm)) else none }) n s.dru.doors
        ∧ (∀ q, s.ilk.push = some q → q.oven = n → q.stage = .closing → q.armedFrom = none →
            (∀ e, e ≠ d → s.doorState n e ≠ some .off) → t.ilk.push = none ∧ t.ovenState n = some .empty)
        ∧ ((∀ q, s.ilk.push = some q → q.stage = .closing →
              (q.oven = n ∧ ∃ e, e ≠ d ∧ s.doorState n e = some .off) ∨ (q.oven ≠ n ∧ s.anyDoorOff q.oven = true)) →
            t.ot = s.ot ∧ (t.ilk.push = none ↔ s.ilk.push = none)))
    ∧ (r.state = .tight → exec (.doorTight m n (some d)) s =
        ends ((s.heardFrom m).updDoor n d fun x => { x with lastConfirmed := some s.now }))
    ∧ (r.state = .leaking ∨ r.state = .onUnconfirmed →
        let tight := h.updDoor n d fun x =>
          { x with state := .tight, lastConfirmed := some s.now, confirm := none, resealPending := false }
        let kept := tight.setQueue d ((s.queue d).filter fun e =>
          !(e.oven == n && (e.kind == .reseal || e.kind == .inspect) && e.service.isNone))
        exec (.doorTight m n (some d)) s = ends ((kept.pendingRelease d).retest.dispatchDoor d))
    ∧ (r.state = .leaking ∨ r.state = .onUnconfirmed → s.now < tMax → ∃ t, exec (.doorTight m n (some d)) s = .next t
        ∧ t.door n d = some { r with
            state := .tight, lastConfirmed := some s.now, confirm := none, resealPending := false }
        ∧ ∀ e ∈ t.queue d, e.oven = n → e.kind = .clean ∨ e.service.isSome = true)

/-- LEAK_SEEN and LEAK_REPORT at a door (R90): the refusals of LEAK_REPORT in order; a LEAK_SEEN at an OFF door changes
nothing; an entry into LEAKING raises the leak count to at most 15, sets the clean due flag at the clean threshold with
CLEAN_DUE, removes the confirm timer and offers a RESEAL in RUN; a LEAKING door is offered one again when it has none. The
dispatch check follows where the door has changed or the RESEAL has joined, and nowhere else (R97); it comes last, when the
door unit's part is over (log 24). -/
def Obligations.LeaksAtDoors : Prop :=
  ∀ (s : State) (d : Side) (n : Nat),
    let m := match d with
      | .ps => MachineId.pm
      | .cs => MachineId.gc
    let offered (u : State) := if u.inRun then u.offerTask d n .reseal else u
    let checked (u : State) := if (offered u).queue d = u.queue d then offered u else (offered u).dispatchDoor d
    let open_ (u : State) (x : DoorRec) := (u.queue d).any (fun e => e.oven == n && e.kind == .reseal) || x.resealPending
    let leaks (x : DoorRec) := min 15 (x.leaks + 1)
    let flags (u : State) (x : DoorRec) := decide (u.dru.vals.cleanThreshold ≤ leaks x)
    let entered (u : State) (x : DoorRec) : State :=
      let v := u.updDoor n d fun y =>
        { y with state := .leaking, leaks := leaks x, cleanDue := x.cleanDue || flags u x, confirm := none }
      (offered (if flags u x && !x.cleanDue then v.raise (.cleanDue n d) else v)).retest
    (∀ x, s.untested m → (s.oven n).isSome = true → s.door n d = some x →
      let h := s.heardFrom m
      let run := exec (.leakSeen m n (some d)) s
      (x.state = .off → run = ends h)
      ∧ (x.state = .leaking → run = ends (if open_ h x then h else checked h))
      ∧ (x.state = .tight ∨ x.state = .onUnconfirmed → run = ends ((entered h x).dispatchDoor d)))
    ∧ (∀ tag, s.room → s.inRun = true →
        let h := s.supervisorHeard
        exec (.leakReport tag n none) s = answered tag .range .nothing h
        ∧ (h.oven n = none → exec (.leakReport tag n (some d)) s = answered tag .range .nothing h)
        ∧ ∀ x, (h.oven n).isSome = true → h.door n d = some x →
          let run := exec (.leakReport tag n (some d)) s
          (x.state = .off → run = answered tag .doors .nothing h)
          ∧ (x.state = .leaking → run = answered tag .ok .nothing (if open_ h x then h else checked h))
          ∧ (x.state = .tight ∨ x.state = .onUnconfirmed → run = answered tag .ok .nothing ((entered h x).dispatchDoor d)))
    ∧ ∀ x, s.door n d = some x → s.inRun = true → (x.state = .tight ∨ x.state = .onUnconfirmed) →
        ((entered s x).door n d).map DoorRec.state = some .leaking
        ∧ (((entered s x).door n d).map DoorRec.resealPending = some true
          ∨ ∃ e ∈ (entered s x).queue d, e.oven = n ∧ e.kind = .reseal)

/-- An offer to a task queue by R94 and R95: not twice the same work, no INSPECT beside a RESEAL, a RESEAL in an INSPECT's
stead; else last in its class while there is room; in a full queue an INSPECT is dropped, and a RESEAL or CLEAN evicts the
newest INSPECT that waits, or leaves the reseal pending flag, or is not queued. A RESEAL that joins clears the pending
flag of its door (log 29). The dispatch check of a side: an idle machine (R97) is given the first entry in queue order whose
door is not OFF; when there is none, and the debt is above −8, a round visit to the first oven from the pointer upward, and
on from 1, that is neither OUT nor PUSHING and whose door is not OFF (R103). -/
def Obligations.OffersToAFullQueue : Prop :=
  (∀ (s : State) (d : Side) (n : Nat) (k : TaskKind),
    let q := s.queue d
    let has (x : TaskKind) : Prop := ∃ e ∈ q, e.oven = n ∧ e.kind = x
    let waits (e : TaskEntry) : Prop := e.kind = .inspect ∧ e.service = none
    let entry : TaskEntry := ⟨n, k, s.now, false, none⟩
    let joined (rest : List TaskEntry) : State :=
      let v := s.setQueue d (joinLast entry rest)
      if k = .reseal then v.updDoor n d fun r => { r with resealPending := false } else v
    let u := s.offerTask d n k
    (has k → u = s)
    ∧ (¬ has k → k = .inspect → has .reseal → u = s)
    ∧ (¬ has k → k = .reseal → (∃ e ∈ q, e.oven = n ∧ waits e) →
        u = joined (q.filter fun e => !(e.oven == n && e.kind == .inspect)))
    ∧ (¬ has k → (k = .inspect → ¬ has .reseal) → (k = .reseal → ∀ e ∈ q, e.oven = n → ¬ waits e) →
        (q.length < 16 → u = joined q)
        ∧ (16 ≤ q.length → k = .inspect → u = s.raise (.inspectDropped n d))
        ∧ (16 ≤ q.length → k ≠ .inspect → ∀ e, q.reverse.find? (fun e => e.kind == .inspect && e.service.isNone) = some e →
            u = (joined (q.filter fun x => !(x.oven == e.oven && x.kind == .inspect))).raise (.inspectDropped e.oven d))
        ∧ (16 ≤ q.length → (∀ e ∈ q, ¬ waits e) →
            (k = .clean → u = s)
            ∧ (k = .reseal → u = (s.updDoor n d fun r => { r with resealPending := true }).raise (.resealPending n d)))))
  ∧ (∀ (e : TaskEntry) (l : List TaskEntry), l.Pairwise (fun a b => TaskKind.rank a.kind ≤ TaskKind.rank b.kind) →
      joinLast e l = (l.filter fun a => decide (TaskKind.rank a.kind ≤ TaskKind.rank e.kind)) ++ e
        :: l.filter fun a => decide (TaskKind.rank e.kind < TaskKind.rank a.kind))
  ∧ ∀ (s : State) (d : Side),
    let m := match d with
      | .ps => MachineId.pm
      | .cs => MachineId.gc
    let idle := s.inRun = true ∧ s.hold = false ∧ s.online m = true ∧ (s.machine m).mode = some .auto ∧ s.permit m = none
      ∧ (∀ p side, s.ilk.push = some p → (s.machine m).position ≠ some (.oven p.oven side))
      ∧ (∀ e ∈ s.queue d, e.service = none) ∧ (s.round d).visit = none
    let shut (n : Nat) : Prop := s.doorState n d = some DoorState.off
    let order := numbers (s.round d).pointer s.nOv ++ numbers 1 ((s.round d).pointer - 1)
    let passed (n : Nat) : Prop := s.ovenState n = some .out ∨ s.ovenState n = some .pushing ∨ shut n
    let timer := min tMax (s.now + s.dru.vals.tTask)
    (¬ idle → s.dispatchDoor d = s)
    ∧ (idle → ∀ (i : Nat) (e : TaskEntry), (s.queue d)[i]? = some e → ¬ shut e.oven →
        (∀ (j : Nat) (x : TaskEntry), j < i → (s.queue d)[j]? = some x → shut x.oven) →
        s.dispatchDoor d = (s.setQueue d ((s.queue d).set i { e with service := some timer })).send m
          (.orderTask e.kind e.oven d false))
    ∧ (idle → (∀ e ∈ s.queue d, shut e.oven) →
        ((s.round d).debt ≤ -8 → s.dispatchDoor d = s)
        ∧ (-8 < (s.round d).debt → ∀ (i n : Nat), order[i]? = some n → ¬ passed n →
            (∀ (j x : Nat), j < i → order[j]? = some x → passed x) →
            s.dispatchDoor d = (s.updRound d fun r => { r with pointer := n, visit := some ⟨n, timer⟩ }).send m
              (.orderTask .inspect n d true))
        ∧ ((∀ n ∈ order, passed n) →
            s.dispatchDoor d = s))

/-- TASK_DONE from PM or GC (R98): the round visit moves the round (R104), a queue entry leaves its queue, in service or
not, and the result is applied to the door, with nothing else changed: TIGHT is R96's, with the waiting RESEAL and INSPECT
entries gone; LEAK at a door that is not LEAKING, or after a CLEAN, is an entry into LEAKING (R90: the count, the clean due
flag with CLEAN_DUE, the confirm timer removed, a RESEAL offered in RUN, the re-test); at a LEAKING door a RESEAL is offered
again after a RESEAL, and nothing changes after an INSPECT; with neither it is TASK_UNMATCHED, at an oven outside the table
too (log 26). The reseal pending release that follows takes the ovens in order while there is room: the RESEAL of a pending
door joins, and the flag clears (R96; that a pending door which has a RESEAL gets no second one is log 29), and the dispatch
check comes last (log 24). -/
def Obligations.DoorTasksAreCompleted : Prop :=
  ∀ (s : State) (f : TaskSender) (d : Side) (n : Nat) (k : TaskKind) (r : TaskResult),
    f = (match d with | .ps => .pm | .cs => .gc) → s.untested f.machine →
    let h := s.heardFrom f.machine
    let visit := (h.round d).visit.map Visit.oven = some n ∧ k = .inspect
      ∧ ∀ e ∈ h.queue d, e.oven = n → e.kind = .inspect → e.service = none
    let listed := ∃ e ∈ h.queue d, e.oven = n ∧ e.kind = k
    let finish (u : State) := ends (((u.applyResult d n k r).pendingRelease d).dispatchDoor d)
    (visit → exec (.taskDone f n k r) s = finish (h.updRound d fun x => { x with
        visit := none
        debt := max (-8) (x.debt - 1)
        saturated := if x.debt - 1 < 8 then false else x.saturated
        pointer := if n < h.nOv then n + 1 else 1 }).retest)
    ∧ (¬ visit → listed → exec (.taskDone f n k r) s = finish (h.setQueue d ((h.queue d).filter fun e =>
        !(e.oven == n && e.kind == k))))
    ∧ (¬ visit → ¬ listed → exec (.taskDone f n k r) s =
        ends (h.raise (.taskUnmatched f.machine n (.door k) (.door r))))
    ∧ ∀ (u : State) (x : DoorRec), u.door n d = some x →
      let base := if k = .clean then 0 else x.leaks
      let v := u.applyResult d n k r
      (x.state = .off → v = if k = .clean then u.updDoor n d fun y => { y with leaks := 0, cleanDue := false } else u)
      ∧ (x.state ≠ .off → r = .tight → ∃ y, v.door n d = some y ∧ y.state = .tight ∧ y.lastConfirmed = some u.now
          ∧ y.confirm = none ∧ y.resealPending = false ∧ y.leaks = base ∧ y.cleanDue = (x.cleanDue && decide (k ≠ .clean)))
      ∧ (let cleaned := if k = .clean then u.updDoor n d fun y => { y with leaks := 0, cleanDue := false } else u
        let offered (w : State) := if w.inRun then w.offerTask d n .reseal else w
        let tight := cleaned.updDoor n d fun y =>
          { y with state := .tight, lastConfirmed := some u.now, confirm := none, resealPending := false }
        let kept := tight.setQueue d ((u.queue d).filter fun e =>
          !(e.oven == n && (e.kind == .reseal || e.kind == .inspect) && e.service.isNone))
        let leaks := min 15 (base + 1)
        let wasDue := x.cleanDue && decide (k ≠ .clean)
        let due := wasDue || decide (u.dru.vals.cleanThreshold ≤ leaks)
        let leaking := cleaned.updDoor n d fun y =>
          { y with state := .leaking, leaks := leaks, cleanDue := due, confirm := none }
        (x.state ≠ .off → r = .tight → v = (kept.pendingRelease d).retest)
        ∧ (x.state = .leaking → r = .leak → k = .reseal → v = offered u)
        ∧ (x.state = .leaking → r = .leak → k = .inspect → v = u)
        ∧ (x.state ≠ .off → r = .leak → x.state ≠ .leaking ∨ k = .clean →
            v = (offered (if due && !wasDue then leaking.raise (.cleanDue n d) else leaking)).retest))
      ∧ (x.state ≠ .off → r = .leak → ∃ y, v.door n d = some y ∧ y.state = .leaking
          ∧ y.leaks = if x.state = .leaking ∧ k ≠ .clean then x.leaks else min 15 (base + 1))
      ∧ u.pendingRelease d = (numbers 1 u.nOv).foldl (fun w j =>
          if (w.queue d).length < 16 ∧ (w.door j d).map DoorRec.resealPending = some true then
            (if (w.queue d).any (fun e => e.oven == j && e.kind == .reseal) then w
              else w.setQueue d (joinLast ⟨j, .reseal, w.now, false, none⟩ (w.queue d))).updDoor j d
                fun y => { y with resealPending := false }
          else w) u

/-- The timers of the door unit, each once its time has come: CONFIRM_EXPIRY offers an INSPECT, with the dispatch check when
one has joined (R92, R97); TASK_TIMER_EXPIRY
returns an entry to the head of its class, marked, or drops a marked one with TASK_FAILED for the side (R99; the clear round
mark is log 60); ROUND_VISIT_TIMER_EXPIRY
withdraws the visit (R104); INSPECTION_ACCRUAL raises the debt, or at 8 raises INSPECTION_SATURATED once (R101, R102).
Otherwise they do nothing (log 1, 4). -/
def Obligations.DoorUnitTimers : Prop :=
  ∀ (s : State) (d : Side) (n : Nat),
    let due (t : Option Nat) : Prop := ∃ e, t = some e ∧ e ≤ s.now
    let confirms := s.inRun = true ∧ ∃ r, s.door n d = some r ∧ due r.confirm
    let expired := (s.queue d).find? fun e => e.service.any fun t => decide (t ≤ s.now)
    let accrues := s.inRun = true ∧ (s.round d).interval ≤ (s.round d).elapsed
    let zeroed := s.updRound d fun r => { r with elapsed := 0 }
    (confirms →
      let u := (s.updDoor n d fun r => { r with confirm := none }).offerTask d n .inspect
      exec (.confirmExpiry n d) s = ends (if u.queue d = s.queue d then u else u.dispatchDoor d))
    ∧ (¬ confirms → exec (.confirmExpiry n d) s = ends s)
    ∧ (∀ e, expired = some e →
        let others := (s.queue d).filter fun x => !(x.oven == e.oven && x.kind == e.kind)
        exec (.taskTimerExpiry d) s = if e.timedOut then
            ends ((((s.setQueue d others).raise (.taskFailed (.side d) e.oven (.door e.kind) (some e.enqueued) false)).pendingRelease
              d).dispatchDoor d)
          else ends ((s.setQueue d (joinHead { e with service := none, timedOut := true } others)).dispatchDoor d))
    ∧ (expired = none → exec (.taskTimerExpiry d) s = ends s)
    ∧ (∀ v, (s.round d).visit = some v → v.timer ≤ s.now → exec (.roundVisitTimerExpiry d) s =
        ends (((s.updRound d fun r => { r with visit := none }).raise
          (.taskFailed (.side d) v.oven (.door .inspect) none true)).dispatchDoor d))
    ∧ ((∀ v, (s.round d).visit = some v → s.now < v.timer) → exec (.roundVisitTimerExpiry d) s = ends s)
    ∧ (accrues → exec (.inspectionAccrual d) s = ends (
        if (s.round d).debt < 8 then (zeroed.updRound d fun r => { r with debt := r.debt + 1 }).retest
        else if (s.round d).saturated = true then zeroed
        else (zeroed.updRound d fun r => { r with saturated := true }).raise (.inspectionSaturated d)))
    ∧ (¬ accrues → exec (.inspectionAccrual d) s = ends s)

/-! ## Chapter 6: collecting main pressure -/

/-- PRESS_IN_PULSE_EDGE counts into its section's gate (R111), DAMPER_PWM_PERIOD_START puts the section's damper output in
force (R115), and CONTROL_TICK ends every gate: the tick phase moves (R2), each gate begins again, a fault reading sets the
sensor fault flag and takes AUTO to HOLD, with one SENSOR_FAULT (R117), and with no reading, or a fault, an active section's
F decays and its damper output stays (R113). The sections are taken in turn (log 53); one whose record came in the middle of
a gate takes its reading (log 52). The count of a gate that has ended stays as that of the last gate, with whether it gave a
reading (R127, R168). -/
def Obligations.GatesCountAndEnd : Prop :=
  ∀ s : State,
    (∀ t r k, s.term t = some r → r.fn = .pressIn k → exec (.pressInPulseEdge t) s =
      ends { s with ofu.gates := upd1 (fun g => { g with count := g.count + 1 }) k s.ofu.gates })
    ∧ (∀ t, (∀ r k, s.term t = some r → r.fn ≠ .pressIn k) → exec (.pressInPulseEdge t) s = ends s)
    ∧ (∀ t r k, s.term t = some r → r.fn = .damperPwm k → exec (.damperPwmPeriodStart t) s =
        ends (s.updTerm t fun x => { x with duty := ((s.sec k).bind SecRec.live).map SecLive.uOut }))
    ∧ (∀ t, (∀ r k, s.term t = some r → r.fn ≠ .damperPwm k) → exec (.damperPwmPeriodStart t) s = ends s)
    ∧ exec .controlTick s = ends (State.endSections [1, 2, 3, 4] { s with tb.phase := (s.tb.phase + 1) % 4 })
    ∧ State.endSections [] s = s ∧ (∀ k rest, State.endSections (k :: rest) s = State.endSections rest (s.endSection k))
    ∧ (∀ k n r, s.sec k = some r →
      let live := r.live.map fun v => if v.mode = .auto then { v with mode := .hold .fault, transfer := none } else v
      let u := s.updSec k fun x => { x with goodRun := 0, sensorFault := true, live := live }
      (r.sensorFault = true → s.faultReading k n = u)
      ∧ (r.sensorFault = false → s.faultReading k n = u.raise (.sensorFault k n r.pressure (live.map SecLive.mode))))
    ∧ (∀ k g, s.gate k = some g →
      let counted := s.assigned (.pressIn k) && g.whole && (s.sec k).isSome
      let held (r : SecRec) : SecRec := match r.live, r.params with
        | some _, some par => { r with ff :=
            if -par.decay ≤ r.ff ∧ r.ff ≤ par.decay then 0
            else if 0 < r.ff then r.ff - par.decay else r.ff + par.decay }
        | _, _ => r
      let next (gave : Bool) (u : State) : State := { u with
        ofu.gates := upd1 (fun _ => ⟨0, s.assigned (.pressIn k), some g.count, gave⟩) k u.ofu.gates }
      (counted = false → s.endSection k = next false (s.updSec k held))
      ∧ (counted = true → (g.count ≤ 199 ∨ 1301 ≤ g.count) →
          s.endSection k = next true ((s.faultReading k g.count).updSec k held)))
    ∧ (s.now < tMax → ∃ t, exec .controlTick s = .next t ∧ t.tb = { s.tb with phase := (s.tb.phase + 1) % 4 }
        ∧ ∀ k g, 1 ≤ k → k ≤ 4 → s.gate k = some g →
          let counted := s.assigned (.pressIn k) && g.whole && (s.sec k).isSome
          let held (r : SecRec) : SecRec := match r.live, r.params with
            | some _, some par => { r with ff :=
                if -par.decay ≤ r.ff ∧ r.ff ≤ par.decay then 0
                else if 0 < r.ff then r.ff - par.decay else r.ff + par.decay }
            | _, _ => r
          t.gate k = some ⟨0, s.assigned (.pressIn k), some g.count, counted⟩
          ∧ ∀ r, s.sec k = some r →
            (counted = false → t.sec k = some (held r))
            ∧ (counted = true → (g.count ≤ 199 ∨ 1301 ≤ g.count) → t.sec k = some (held { r with
                goodRun := 0
                sensorFault := true
                live := r.live.map fun v =>
                  if v.mode = .auto then { v with mode := .hold .fault, transfer := none } else v })))

/-- A good reading of an active section: P and the good-reading run (R111, R112); with the sensor fault flag set, the
recovery at the eighth good reading in turn: the flag clears with SENSOR_OK, and HOLD by FAULT returns to AUTO by the
bumpless transfer (R118); the level and the run counters (R122); and the control step: in AUTO the integrator or the
bumpless transfer, the proportional term, the clamps and the rate limit (R114, R118), in HOLD and MANUAL no move; F decays
in every mode (R113). The transfer pending flag stands in AUTO only (R108). The steps in the order of R112. A change of
level raises SECTION_ALARM (R123), to HIGH or FLARE CHARGE_UNDER_PRESSURE for a charge of the section too (R138; for the
change and not for each tick: log 42; after SECTION_ALARM: log 63), and the re-test follows (R58). A section that is not
active takes the reading and the recovery and stops there (R112). -/
def Obligations.TheControlStepOnAGoodReading : Prop :=
  (∀ (s : State) (k : Nat) (g : Gate) (r : SecRec) (par : PressureParams) (v : SecLive), s.now < tMax → 1 ≤ k → k ≤ 4 →
    s.gate k = some g → s.assigned (.pressIn k) = true → g.whole = true → 200 ≤ g.count → g.count ≤ 1300 →
    s.sec k = some r → r.params = some par → r.live = some v →
    let run := min 8 (r.goodRun + 1)
    let recovers := r.sensorFault = true ∧ run = 8
    let returns := recovers ∧ v.mode = .hold .fault
    let auto := v.mode = .auto ∨ returns
    let p : Int := if g.count ≤ 249 then -250 else if g.count ≤ 1250 then (g.count : Int) - 500 else 750
    let e0 := p - par.setpoint
    let e := if -par.deadband ≤ e0 ∧ e0 ≤ par.deadband then 0 else e0
    let prop := Int.tdiv (par.kp * e) 16
    let a := max 0 (min 256000
      (if returns ∨ v.transfer = some true then (v.uOut - prop - r.ff) * 256 else r.integ + par.ki * e))
    let cmd := max par.uMin (min par.uMax (a / 256 + prop + r.ff))
    let u := v.uOut + max (-par.rate) (min par.rate (cmd - v.uOut))
    let count (holds : Prop) [Decidable holds] (n : Nat) : Nat := if holds then n + 1 else 0
    let rise := if v.level = .low ∨ v.level = .normal then count (p > par.pHigh) v.counters.rise else 0
    let flare := if v.level = .flare then 0 else count (p > par.pFlare) v.counters.flare
    let settle := match v.level with
      | .flare => count (p < par.pFlare - par.hysteresis) v.counters.settle
      | .high => count (p < par.pHigh - par.hysteresis) v.counters.settle
      | .low => count (p > par.pLow + par.hysteresis) v.counters.settle
      | .normal => 0
    let low := if v.level = .normal then count (p < par.pLow) v.counters.low else 0
    let level : AlarmLevel :=
      if 4 ≤ flare then .flare
      else if 4 ≤ rise then .high
      else if 8 ≤ settle then (if v.level = .flare then .high else .normal)
      else if 4 ≤ low then .low
      else v.level
    let counters : RunCounters := if level = v.level then ⟨rise, flare, settle, low⟩ else ⟨0, 0, 0, 0⟩
    let read : SecRec := { r with
      pressure := some p
      goodRun := run
      sensorFault := if recovers then false else r.sensorFault
      ff := if -par.decay ≤ r.ff ∧ r.ff ≤ par.decay then 0
        else if 0 < r.ff then r.ff - par.decay else r.ff + par.decay }
    let alarmed (x : State) : State := x.updSec k fun y => { y with
      live := some { v with level := level, counters := counters } }
    let charge := s.ofu.charges.find? fun c => s.secOf c.oven == k
    (level = v.level → s.alarmEval k p = alarmed s)
    ∧ (level ≠ v.level →
        let told := (alarmed s).raise (.sectionAlarm k v.level level p)
        s.alarmEval k p = (match level, charge with
          | .high, some c => told.raise (.chargeUnderPressure k c.oven .high)
          | .flare, some c => told.raise (.chargeUnderPressure k c.oven .flare)
          | _, _ => told).retest)
    ∧ s.endSection k = (((((s.updSec k fun x => { x with pressure := some p, goodRun := run }).recover k p).alarmEval k
        p).sectionStep k (decide returns) (.good p)).endGate k)
    ∧ ∃ t, exec .controlTick s = .next t
      ∧ (auto → t.sec k = some { read with
          integ := a
          live := some ⟨.auto, some false, u, level, counters⟩ })
      ∧ (¬ auto → t.sec k = some { read with live := some { v with level := level, counters := counters } }))
  ∧ (∀ (s : State) (k : Nat) (g : Gate) (r : SecRec), s.gate k = some g → s.assigned (.pressIn k) = true →
    g.whole = true → 200 ≤ g.count → g.count ≤ 1300 → s.sec k = some r → r.live = none →
    let p : Int := if g.count ≤ 249 then -250 else if g.count ≤ 1250 then (g.count : Int) - 500 else 750
    let run := min 8 (r.goodRun + 1)
    let recovers := r.sensorFault = true ∧ run = 8
    s.endSection k =
      ((s.updSec k fun x => { x with pressure := some p, goodRun := run }).recover k p).endGate k
    ∧ (s.now < tMax → 1 ≤ k → k ≤ 4 → ∃ t, exec .controlTick s = .next t ∧ t.sec k = some { r with
        pressure := some p, goodRun := run, sensorFault := if recovers then false else r.sensorFault }))
  ∧ ∀ (s : State) (k : Nat) (r : SecRec) (p : Int), s.sec k = some r →
    (¬ (r.sensorFault = true ∧ r.goodRun = 8) → s.recover k p = s)
    ∧ (r.sensorFault = true → r.goodRun = 8 →
        s.recover k p = (s.updSec k fun x => { x with sensorFault := false }).raise (.sensorOk k p))

/-- SET_DAMPER, SET_AUTO and SET_SETPOINT, by R119, R120 and R121. That SET_AUTO in RUN for a section that is not active is
refused STATE is the model's choice (log 57): R120 gives no such case. -/
def Obligations.DamperAndSetpointCommands : Prop :=
  ∀ (s : State) (tag : Byte) (k value : Nat) (p : Int), s.room →
    let h := s.supervisorHeard
    let put (r : SecRec) : State := { h with ofu.sections := upd1 (fun _ => r) k h.ofu.sections }
    (h.sec k = none →
      exec (.setDamper tag k value) s = answered tag .range .nothing h
      ∧ exec (.setAuto tag k) s = answered tag .range .nothing h
      ∧ exec (.setSetpoint tag k p) s = answered tag .range .nothing h)
    ∧ ∀ r, h.sec k = some r →
      (r.live = none → exec (.setDamper tag k value) s = answered tag .state .nothing h)
      ∧ (∀ v, r.live = some v → exec (.setDamper tag k value) s = answered tag .ok (.damper (min 1000 value : Nat))
          (put { r with live := some { v with mode := .manual, transfer := none, uOut := (min 1000 value : Nat) } }))
      ∧ (h.inRun = false → exec (.setAuto tag k) s = answered tag .state .nothing h)
      ∧ (h.inRun = true → r.live = none → exec (.setAuto tag k) s = answered tag .state .nothing h)
      ∧ (∀ v, h.inRun = true → r.live = some v →
          (v.mode ≠ .manual → exec (.setAuto tag k) s = answered tag .ok (.secMode v.mode) h)
          ∧ (v.mode = .manual → r.sensorFault = false → exec (.setAuto tag k) s =
              answered tag .ok (.secMode .auto) (put { r with live := some { v with mode := .auto, transfer := some true } }))
          ∧ (v.mode = .manual → r.sensorFault = true → exec (.setAuto tag k) s =
              answered tag .ok (.secMode (.hold .fault)) (put { r with live := some { v with mode := .hold .fault } })))
      ∧ (r.params = none → exec (.setSetpoint tag k p) s = answered tag .notFound .nothing h)
      ∧ ∀ par, r.params = some par →
        let took := max (max (-100) (par.pLow + 1)) (min (min 400 (par.pHigh - 1)) p)
        exec (.setSetpoint tag k p) s = answered tag .ok (.setpoint took)
          (put { r with params := some { par with setpoint := took } })

/-! ## Chapter 7: standpipe valves and charging -/

/-- VALVE from CC: the record and its time, the held offer whose target is reached, the feed-forward step of an active
section (R116) and the re-test (R129). That the report itself removes the oven's held offer whose target it shows, R132
having it removed by the first case of R131, and does so with the state unchanged too, is the model's reading (log 23).
TASK_DONE from CC: DONE takes the entry out, with VALVE_MISMATCH when the valve stands elsewhere, raised before the dispatch
check (the model's choice: log 86); BLOCKED is a timeout; without an entry it is TASK_UNMATCHED (R135). -/
def Obligations.ValveReportsAndTasks : Prop :=
  ∀ (s : State) (n : Nat), s.untested .cc →
    let h := s.heardFrom .cc
    let target (a : ValveAction) : ValveState := match a with
      | .isolate => .closed
      | .aspirate => .aspirating
      | .normal => .opened
    (∀ x v, (s.oven n).isSome = true → nth1 s.ofu.valves n = some x → v ≠ .unknown →
      let u : State := { h with
        ofu.valves := upd1 (fun _ => ⟨v, some s.now⟩) n h.ofu.valves
        ofu.heldOffers := h.ofu.heldOffers.filter fun o => !(o.oven == n && target o.action == v) }
      let step (p : PressureParams) : Int := match x.state, v with
        | .opened, .closed => p.ffIso
        | .closed, .aspirating => p.ffChg
        | .aspirating, .opened => p.ffEnd
        | _, _ => 0
      (x.state = v → exec (.valve .cc n (some v)) s = ends u)
      ∧ (x.state ≠ v → exec (.valve .cc n (some v)) s = ends (u.updSec (s.secOf n) fun r => match r.live, r.params with
          | some _, some p => { r with ff := max (-300) (min 300 (r.ff + step p)) }
          | _, _ => r).retest))
    ∧ ∀ (a : ValveAction) (r : ValveResult),
      let rest := h.ofu.queue.filter fun x => x.oven != n
      let put (q : List ValveEntry) : State := { h with ofu.queue := q }
      ((∀ e ∈ h.ofu.queue, ¬ (e.oven = n ∧ e.action = a)) →
        exec (.ccTaskDone n a r) s = ends (h.raise (.taskUnmatched .cc n (.valve a) (.valve r))))
      ∧ ∀ e, h.ofu.queue.find? (fun e => e.oven == n && e.action == a) = some e →
        (s.valveState n = some (target a) → exec (.ccTaskDone n a .done) s = ends (put rest).dispatchValve)
        ∧ (s.valveState n ≠ some (target a) → exec (.ccTaskDone n a .done) s = ends ((put rest).raise
            (.valveMismatch n a ((s.valveState n).getD .unknown))).dispatchValve)
        ∧ (e.timedOut = false → exec (.ccTaskDone n a .blocked) s =
            ends (put ({ e with service := none, timedOut := true } :: rest)).dispatchValve)
        ∧ (e.timedOut = true → exec (.ccTaskDone n a .blocked) s = ends ((put rest).raise
            (.taskFailed .cc n (.valve a) (some e.enqueued) false)).dispatchValve)

/-- The timers of the offtake unit, each once its time has come: ISOLATE offered for the next oven (R133), the task in
service returned or dropped (R136), CHARGE_LATE with the record kept (R138); otherwise nothing (log 1). An offer of valve
work by the cases of R131 in order, each followed by the dispatch check: an idle CC is given the head entry (R134). The held
offers offered again, oldest first, until one finds the queue full, which keeps its place without a notice (R132; the only
one too: log 82). A new next oven or due time: NORMAL to the oven that stops being next, when it is COKING or READY and
isolated or to be so, and the isolate timer set, moved or removed, ISOLATE at once when its time has come (R133; the NORMAL
check first: log 54). -/
def Obligations.OfftakeTimers : Prop :=
  (∀ (s : State) (n : Nat),
    let due (t : Option Nat) : Prop := ∃ e, t = some e ∧ e ≤ s.now
    let expired := s.ofu.queue.find? fun e => e.service.any fun t => decide (t ≤ s.now)
    let charge := s.ofu.charges.find? fun c => c.oven == n
    (∀ i, s.ofu.iso = some i → i.expiry ≤ s.now →
      exec .isolateTimerExpiry s = ends (({ s with ofu.iso := none }).offerValve i.oven .isolate))
    ∧ ((∀ i, s.ofu.iso = some i → s.now < i.expiry) → exec .isolateTimerExpiry s = ends s)
    ∧ (∀ e, expired = some e →
        let rest := s.ofu.queue.filter fun x => x.oven != e.oven
        exec .valveTaskTimerExpiry s = if e.timedOut then
            ends (({ s with ofu.queue := rest }).raise
              (.taskFailed .cc e.oven (.valve e.action) (some e.enqueued) false)).dispatchValve
          else ends ({ s with ofu.queue := { e with service := none, timedOut := true } :: rest }).dispatchValve)
    ∧ (expired = none → exec .valveTaskTimerExpiry s = ends s)
    ∧ (∀ c, charge = some c → due c.timer →
        let late := s.ofu.charges.map fun x => if x.oven = n then { x with timer := none, late := true } else x
        exec (.chargeTimerExpiry n) s =
          ends (({ s with ofu.charges := late }).raise (.chargeLate n (s.secOf n) c.start)))
    ∧ ((∀ c, charge = some c → ¬ due c.timer) → exec (.chargeTimerExpiry n) s = ends s))
  ∧ (∀ (s : State) (n : Nat) (a : ValveAction),
    let target : ValveState := match a with
      | .isolate => .closed
      | .aspirate => .aspirating
      | .normal => .opened
    let entry := s.ofu.queue.find? fun e => e.oven == n
    let withdrawn (u : State) (e : ValveEntry) : State := if e.service = none then u
      else u.raise (.taskWithdrawn .cc e.oven (.valve e.action) false)
    let held := s.ofu.heldOffers.any fun h => h.oven == n
    let run := s.offerValve n a
    let put (q : List ValveEntry) (l : List HeldOffer) : State := { s with ofu.queue := q, ofu.heldOffers := l }
    (s.valveState n = some target →
      let u := put (s.ofu.queue.filter fun x => x.oven != n) (s.ofu.heldOffers.filter fun h => h.oven != n)
      (entry = none → run = u.dispatchValve) ∧ ∀ e, entry = some e → run = (withdrawn u e).dispatchValve)
    ∧ (s.valveState n ≠ some target →
      (∀ e, entry = some e →
        (e.action = a → run = s.dispatchValve)
        ∧ (e.action ≠ a → run = (withdrawn (put (s.ofu.queue.map fun x => if x.oven = n then ⟨n, a, s.now, false, none⟩ else x)
            s.ofu.heldOffers) e).dispatchValve))
      ∧ (entry = none →
        (held = true → run = (put s.ofu.queue (s.ofu.heldOffers.map fun h => if h.oven = n then ⟨n, a⟩ else h)).dispatchValve)
        ∧ (held = false → s.ofu.queue.length < 8 →
            run = (put (s.ofu.queue ++ [⟨n, a, s.now, false, none⟩]) s.ofu.heldOffers).dispatchValve)
        ∧ (held = false → 8 ≤ s.ofu.queue.length →
            let told := if s.ofu.heldOffers = [] then s.raise (.valveQueueFull n a) else s
            run = ({ told with ofu.heldOffers := s.ofu.heldOffers ++ [(⟨n, a⟩ : HeldOffer)] }).dispatchValve)))
    ∧ State.retryHeld [] s = s
    ∧ ∀ rest, State.retryHeld (⟨n, a⟩ :: rest) s =
        if s.valveState n ≠ some target ∧ entry = none ∧ 8 ≤ s.ofu.queue.length then s
        else State.retryHeld rest ((put s.ofu.queue (s.ofu.heldOffers.filter fun h => h.oven != n)).offerValve n a))
  ∧ (∀ (s : State) (old new : Option (Nat × Nat)),
    let timed (u : State) (n due : Nat) : State := if due - s.cfg.timing.lIso ≤ s.now
      then State.offerValve { u with ofu.iso := none } n .isolate
      else { u with ofu.iso := some ⟨n, due - s.cfg.timing.lIso⟩ }
    let isolated (n : Nat) : Prop := s.valveState n = some .closed
      ∨ (∃ e ∈ s.ofu.queue, e.oven = n ∧ e.action = .isolate) ∨ (∃ h ∈ s.ofu.heldOffers, h.oven = n ∧ h.action = .isolate)
    let returns (n : Nat) : Prop := (s.ovenState n = some .coking ∨ s.ovenState n = some .ready) ∧ isolated n
    (old.map Prod.fst = new.map Prod.fst → s.nextForValves old new = match new, s.ofu.iso with
      | some (n, due), some _ => timed s n due
      | _, _ => s)
    ∧ (old.map Prod.fst ≠ new.map Prod.fst → ∀ u : State,
        ((∀ n due, old = some (n, due) → returns n → u = s.offerValve n .normal)
          ∧ ((∀ n due, old = some (n, due) → ¬ returns n) → u = s)) →
        s.nextForValves old new = match new with
          | some (n, due) => timed u n due
          | none => { u with ofu.iso := none }))
  ∧ ∀ s : State,
    let idle := s.inRun = true ∧ s.hold = false ∧ s.online .cc = true ∧ (s.machine .cc).mode = some .auto
      ∧ s.permit .cc = none ∧ (∀ c ∈ s.ofu.charges, ∀ side, (s.machine .cc).position ≠ some (.oven c.oven side))
      ∧ (∀ e ∈ s.ofu.queue, e.service = none)
    (¬ idle → s.dispatchValve = s)
    ∧ (s.ofu.queue = [] → s.dispatchValve = s)
    ∧ ∀ e rest, s.ofu.queue = e :: rest → idle → s.dispatchValve =
        ({ s with ofu.queue := { e with service := some (min tMax (s.now + s.dru.vals.tTask)) } :: rest }).send .cc
          (.orderValve e.action e.oven)

/-! ## Chapter 8: quench car, tower and wharf -/

/-- The timers of the quench unit, each once its time has come: MOVE_LATE (R144), HOT_LOAD_LATE (R150), spray to DRAINING
(R151), drain end to the bay choice (R152), a bay COOLED at the end of the discharge queue (R153), the gate's bay FREE
(R154); otherwise nothing (log 1). The discharge start test of R154 follows the last two. A bay joins the free list before
the first bay that is free since later, or since the same time with a greater number (R153). A car in WAIT_BAY takes the
head of the free list and is sent to that bay (R152). That WAIT_BAY is raised, or the move to the bay requested, before the
re-test for the car's state is the model's choice (log 90). -/
def Obligations.QuenchUnitTimers : Prop :=
  (∀ (since : Nat → Nat) (b t : Nat) (before after : List Nat),
    let first (a : Nat) : Prop := since a < t ∨ (since a = t ∧ a < b)
    (∀ a ∈ before, first a) → (∀ a, after.head? = some a → ¬ first a) →
      insertFree since b t (before ++ after) = before ++ b :: after)
  ∧ (∀ (s : State) (b t : Nat), s.bay b = some (.free t) → s.freeSince b = t)
  ∧ ∀ (s : State) (b : Nat),
    let q := s.qnu
    let due (t : Option Nat) : Prop := ∃ e, t = some e ∧ e ≤ s.now
    let dest : Option MoveDest := match q.car.state with
      | .toOven .park => some .park
      | .toOven (.oven n) => some (.oven n)
      | .toTower => some .tower
      | .toBay b => some (.bay b)
      | _ => none
    (∀ t e d, q.car.move = .issued t (some e) → e ≤ s.now → dest = some d → exec .moveTimerExpiry s =
      ends (({ s with qnu.car.move := .issued t none }).raise (.moveLate d t)))
    ∧ ((∀ t e, q.car.move = .issued t (some e) → s.now < e) → exec .moveTimerExpiry s = ends s)
    ∧ (∀ l, q.load = some l → due l.hot → exec .hotTimerExpiry s =
        ends (({ s with qnu.load := some { l with hot := none, late := true } }).raise
          (.hotLoadLate l.oven l.pushEnd q.car.state)))
    ∧ ((∀ l, q.load = some l → ¬ due l.hot) → exec .hotTimerExpiry s = ends s)
    ∧ (q.car.state = .quenching → due q.phase → exec .sprayTimerExpiry s = ends (State.retest { s with
        qnu.load := q.load.map fun l => { l with quenchEnd := some s.now }
        qnu.phase := some (min tMax (s.now + q.vals.tDrain))
        qnu.car := { q.car with state := .draining, positionFlag := false } }))
    ∧ (q.car.state ≠ .quenching ∨ ¬ due q.phase → exec .sprayTimerExpiry s = ends s)
    ∧ (∀ l, q.car.state = .draining → due q.phase → q.load = some l → exec .drainTimerExpiry s = ends (match q.free with
        | b :: rest => State.sendCar { s with
            qnu.phase := none
            qnu.free := rest
            qnu.load := some { l with bay := some b }
            qnu.bays := upd1 (fun _ => .assigned l.oven) b q.bays } (.toBay b)
        | [] => (State.raise { s with
            qnu.phase := none
            qnu.car := { q.car with state := .waitBay, positionFlag := false, move := .none } } (.waitBay l.oven)).retest))
    ∧ (q.car.state ≠ .draining ∨ ¬ due q.phase → exec .drainTimerExpiry s = ends s)
    ∧ (∀ o dump t, s.bay b = some (.cooling o dump t) → t ≤ s.now → exec (.coolTimerExpiry b) s = ends (State.startDischarge
        { s with
          qnu.bays := upd1 (fun _ => .cooled o dump s.now) b q.bays
          qnu.discharge := q.discharge ++ [b] }))
    ∧ ((∀ o dump t, s.bay b = some (.cooling o dump t) → s.now < t) → exec (.coolTimerExpiry b) s = ends s)
    ∧ (∀ j rest o dump c g, q.discharge = j :: rest → s.bay j = some (.discharging o dump c g) → g ≤ s.now →
        let u : State := { s with
          qnu.bays := upd1 (fun _ => .free s.now) j q.bays
          qnu.discharge := q.discharge.filter (· != j) }
        let v : State := { u with qnu.free := insertFree u.freeSince j s.now q.free }
        exec .gateTimerExpiry s = ends (if q.car.state = .waitBay then v.chooseBay else v).startDischarge)
    ∧ ((∀ j rest o dump c g, q.discharge = j :: rest → s.bay j = some (.discharging o dump c g) → s.now < g) →
        exec .gateTimerExpiry s = ends s)
    ∧ (∀ l, q.car.state = .waitBay → q.load = some l → s.chooseBay = match q.free with
        | j :: rest => State.sendCar { s with
            qnu.free := rest
            qnu.load := some { l with bay := some j }
            qnu.bays := upd1 (fun _ => .assigned l.oven) j q.bays } (.toBay j)
        | [] => s)
    ∧ (∀ o dump c, q.discharge.head? = some b → s.bay b = some (.cooled o dump c) →
        (∀ j o' d' c' g, s.bay j ≠ some (.discharging o' d' c' g)) →
        s.inputLevel .conveyorRunIn = true → s.assigned (.gateOut b) = true →
        s.startDischarge = s.setBay b (.discharging o dump c (min tMax (s.now + q.vals.tGate))))
    ∧ ((q.discharge = [] ∨ (∃ j o' d' c' g, s.bay j = some (.discharging o' d' c' g))
        ∨ s.inputLevel .conveyorRunIn = false ∨ (∀ j, q.discharge.head? = some j → s.assigned (.gateOut j) = false)) →
        s.startDischarge = s)

/-- DUMP_DONE from QC: in DUMPING at the load's bay the bay cools, LOAD_DUMPED is raised, the load goes and the car is sent
onward; else DUMP_SEQUENCE (R152). That a move is requested before the re-test for the car's state is the model's choice
(log 90). TRACK_BLOCK and TRACK_FREE: the run of spots from first to last joins or leaves the blocked set, with
TRACK_BLOCKED in motion for an issued move; RANGE as R142 names it. The moves these and the other rules of the car make:
what lies on a path (R142), the issue and the withholding of a move, and the test of a pending one (R143); where the empty
car is sent onward, and how it is reconsidered (R145); and the DUMP order (R152). A move that the path alone withholds
raises TRACK_BLOCKED, once for each request: at the request, or at the first later test at which no other cause is left
(R143; that a move issued and withdrawn stands under the same request is log 45). The path to the car's own last spot is
empty: the model's reading (log 21); that a move to the very bay of the last spot has the path WHARF is its choice (log 83),
and so are the order of the blocked set (log 80) and of the spots that TRACK_BLOCKED lists (log 84). -/
def Obligations.DumpsAndTheTrack : Prop :=
  (∀ (s : State) (b : Nat), s.untested .qc →
    let h := s.heardFrom .qc
    let q := h.qnu
    (∀ l, q.load = some l → q.car.state = .dumping → l.bay = some b → exec (.dumpDone .qc b) s =
      ends (State.sendOnward { (State.raise { h with
        qnu.bays := upd1 (fun _ => .cooling l.oven s.now (min tMax (s.now + q.vals.tCool))) b q.bays } (.loadDumped l)) with
          qnu.load := none
          qnu.car.dump := .none }))
    ∧ ((∀ l, q.load = some l → ¬ (q.car.state = .dumping ∧ l.bay = some b)) →
        exec (.dumpDone .qc b) s = ends (h.raise (.dumpSequence b q.car.state))))
  ∧ (∀ (s : State) (tag : Byte), s.room →
    let h := s.supervisorHeard
    let place (p : TrackSpot) : Nat := match p with
      | .park => 0
      | .oven n => n
      | .tower => h.nOv + 1
      | .wharf => h.nOv + 2
    let known (p : TrackSpot) : Prop := ∀ n, p = .oven n → (h.oven n).isSome = true
    (∀ a b, (a = none ∨ b = none ∨ (∃ p q, a = some p ∧ b = some q ∧ (¬ known p ∨ ¬ known q ∨ place q < place p))) →
      exec (.trackBlock tag a b) s = answered tag .range .nothing h
      ∧ exec (.trackFree tag a b) s = answered tag .range .nothing h)
    ∧ ∀ p q, known p → known q → place p ≤ place q →
      ∃ run : List TrackSpot, (∀ x, x ∈ run ↔ known x ∧ place p ≤ place x ∧ place x ≤ place q)
        ∧ (let u : State := { h with qnu.blocked := h.qnu.blocked ++ run.filter fun x => !(h.qnu.blocked.contains x) }
          exec (.trackBlock tag (some p) (some q)) s = answered tag .ok .nothing (
            match h.qnu.car.move, h.qnu.car.state.dest with
            | .issued _ _, some d =>
              if (u.blockedOn d).any (fun x => run.contains x) then u.raise (.trackBlocked true d (u.blockedOn d)) else u
            | _, _ => u))
        ∧ exec (.trackFree tag (some p) (some q)) s = answered tag .ok .nothing (State.testMove { h with
            qnu.blocked := h.qnu.blocked.filter fun x => !(run.contains x) }))
  ∧ ∀ (s : State) (d : MoveDest) (c : CarState),
    let place (p : TrackSpot) : Nat := match p with
      | .park => 0
      | .oven n => n
      | .tower => s.nOv + 1
      | .wharf => s.nOv + 2
    let goal : TrackSpot := match d with
      | .park => .park
      | .oven n => .oven n
      | .tower => .tower
      | .bay _ => .wharf
    let row (x : CarSpot) : TrackSpot := match x with
      | .park => .park
      | .oven n => .oven n
      | .tower => .tower
      | .wharf _ => .wharf
    let destOf (x : CarState) : Option MoveDest := match x with
      | .toOven .park => some .park
      | .toOven (.oven n) => some (.oven n)
      | .toTower => some .tower
      | .toBay b => some (.bay b)
      | _ => none
    let stands (p : TrackSpot) : Prop := ∀ n, p = .oven n → (s.oven n).isSome = true
    let withheld : Prop := s.hold = true ∨ s.online .qc = false ∨ (s.machine .qc).mode = some .localMode
    let car (x : CarState) (mv : MoveStatus) (told : Bool) : CarRec := { s.qnu.car with
      state := x, move := mv, blockTold := told
      positionFlag := if s.qnu.car.state = x then s.qnu.car.positionFlag else false }
    let issued := MoveStatus.issued s.now (some (min tMax (s.now + s.qnu.vals.tMove)))
    let q := s.qnu.car
    (stands goal → (∀ x, q.lastSpot = some x → stands (row x)) → ∀ p : TrackSpot,
      p ∈ s.blockedOn d ↔ p ∈ s.qnu.blocked ∧ stands p ∧ (match q.lastSpot with
        | none => place p ≤ place goal
        | some x => (place (row x) < place p ∧ place p ≤ place goal) ∨ (place goal ≤ place p ∧ place p < place (row x))
          ∨ (goal = .wharf ∧ row x = .wharf ∧ p = .wharf)))
    ∧ s.settleCar c = State.retest { s with qnu.car := car c .none q.blockTold }
    ∧ (destOf c = some d →
      (withheld → s.sendCar c = State.retest { s with qnu.car := car c .pending false })
      ∧ (¬ withheld → s.blockedOn d = [] →
          s.sendCar c = (State.send { s with qnu.car := car c issued false } .qc (.orderMove d)).retest)
      ∧ (¬ withheld → s.blockedOn d ≠ [] → s.sendCar c =
          (State.raise { s with qnu.car := car c .pending true } (.trackBlocked false d (s.blockedOn d))).retest))
    ∧ (destOf q.state = some d → q.move = .pending →
      (withheld → s.testMove = s)
      ∧ (¬ withheld → s.blockedOn d ≠ [] → s.testMove = if q.blockTold = true then s
          else State.raise { s with qnu.car.blockTold := true } (.trackBlocked false d (s.blockedOn d)))
      ∧ (¬ withheld → s.blockedOn d = [] →
          s.testMove = State.send { s with qnu.car.move := issued } .qc (.orderMove d)))
    ∧ (q.move ≠ .pending ∨ destOf q.state = none → s.testMove = s)
    ∧ (match s.pln.reported with
      | some (n, _) => s.sendOnward =
        if q.lastSpot = some (.oven n) ∧ (s.machine .qc).position = some (.oven n .track) then s.settleCar (.spotted n)
        else s.sendCar (.toOven (.oven n))
      | none => s.sendOnward =
        if q.lastSpot = some .park ∧ (s.machine .qc).position = some .park then s.settleCar .parked
        else s.sendCar (.toOven .park))
    ∧ (s.pln.reported = none → s.reconsiderNext = s)
    ∧ (∀ n due, s.pln.reported = some (n, due) →
      let goes := s.sendCar (.toOven (.oven n))
      s.reconsiderNext = match q.state with
        | .toOven x => if x = .oven n then s else goes
        | .parked => goes
        | .spotted k => if k = n ∨ s.pushAt k = true then s else goes
        | _ => s)
    ∧ (∀ l b, s.qnu.load = some l → l.bay = some b →
      (withheld → s.requestDump = { s with qnu.car.dump := .pending })
      ∧ (¬ withheld → s.requestDump = State.send { s with qnu.car.dump := .issued } .qc (.orderDump b)
        ∧ (q.dump = .pending → s.testDump = s.requestDump))
      ∧ (withheld ∨ q.dump ≠ .pending → s.testDump = s))

/-! ## Chapter 9: field terminals -/

/-- INPUT_LEVEL_CHANGE writes the filtered state and the level, and a change of level is handed to the owner: INPUT_CHANGE
by the edge select (R163), the discharge started or interrupted (R154, R155), the stop condition (R62). The stop condition
sets: BATTERY_STOP, every permit revoked STOPPED, the stage timer held (R63, R86), and as the machine hold starts STOP to
every ONLINE machine and an issued move PENDING again (R64, R143); it clears: BATTERY_STOP, the stage timer runs on, and the
hold ends when no cause is left (R63, R64, R86; the order: log 39). At an UNASSIGNED terminal the filtered state alone is
written, and at an output or pulse terminal nothing (log 20). TERMINAL_OVERLOAD sets the fault flag of an output that passes
current (R166; that it does nothing else is log 36). SET_OUTPUT, TOGGLE, CLEAR_TERMINAL by R165 and R166. TERMINAL by the
tests of R181 and R161; taken, it writes the record, and the owners are told: an input's level to its owner, a gate that
leaves or comes is spoiled (R111; its count begins again: log 59), a discharge whose gate leaves is interrupted (R155), and
the discharge start test follows (R154). The state of an output terminal by the table of R164, with the levels of its owners
(R123, R151, R154; log 28), off for a FLARE_OUT or LOW_ALARM that is not driven (log 75); a DAMPER_PWM that is driven is on
at duty 1000 and off at duty 0, and has a level, which is open, between them (R115, R159; log 75); that one without a duty
is off, and passes current when inverted, is log 68; that one with its fault flag set, or not driven, is given as released,
without its duty, is the model's choice (log 87). TERMINAL_FAULT carries the level at which the terminal is energised
(R166). The order in which the permits go and the STOP and CLEAR frames are sent is the model's choice (log 71), and so is
that of the notice, the revocations, the stage timer and STOP as the stop condition sets (log 90). -/
def Obligations.TerminalsFollowTheirRules : Prop :=
  let unmoved (u : State) : State := match u.qnu.car.move with
    | .issued _ _ => { u with qnu.car.move := .pending }
    | _ => u
  let interrupted (b : Nat) (u : State) : State := match u.bay b with
    | some (.discharging o d c g) => (u.setBay b (.cooled o d c)).raise (.dischargeInterrupted b (g - u.now))
    | _ => u
  let hand (fn : TermFn) (t : Nat) (e : Edge) (l : Bool) (u : State) : State := match fn with
    | .batteryStopIn => u.stopFollows l
    | .conveyorRunIn => if l then u.startDischarge else match u.qnu.discharge with
      | b :: _ => interrupted b u
      | [] => u
    | .input => if e = .both ∨ (e = .rise ∧ l = true) ∨ (e = .fall ∧ l = false) then u.raise (.inputChange t l) else u
    | _ => u
  let spoil (k : Nat) (u : State) : State :=
    { u with ofu.gates := upd1 (fun g => { g with count := 0, whole := false }) k u.ofu.gates }
  (∀ s : State,
    s.stopFollows s.ilk.stop = s
    ∧ (s.ilk.stop = false →
      let freed := (State.raise { s with ilk.stop := true } (.batteryStop true)).revokeAll .stopped
      let held := match freed.ilk.push with
        | some p => match p.timer with
          | .running e => freed.setPush (some { p with timer := .held (e - s.now) })
          | _ => freed
        | none => freed
      s.stopFollows true =
        if s.hold = true then held else unmoved (State.sendAllOnline { held with ilk.holdCause := .batteryStop }
          (.stop .batteryStop)))
    ∧ (s.ilk.stop = true →
      let told := State.raise { s with ilk.stop := false } (.batteryStop false)
      let timed := match s.ilk.push with
        | some p => match p.unconfirmed, p.timer with
          | false, .held r => if r = 0 then told.stageExpire { p with timer := .running (min tMax s.now) }
            else told.setPush (some { p with timer := .running (min tMax (s.now + r)) })
          | _, _ => told
        | none => told
      let clears := timed.sendAllOnline (.clear .batteryStop)
      let held := if clears.unconfirmed = true ∧ clears.online .pm = true then clears.send .pm (.stop .linkLoss) else clears
      s.stopFollows false = if timed.hold = true then timed
        else ((((held.dispatchDoor .ps).dispatchDoor .cs).dispatchValve).testMove).testDump))
  ∧ (∀ (s : State) (r : TermRec),
    let live (k : Nat) : Bool := ((s.sec k).bind SecRec.live).isSome
    let level : Option Bool := match r.fn with
      | .output => some r.out
      | .damperPwm k => if live k = false then some false else match r.duty with
        | none => some false
        | some d => if d ≤ 0 then some false else if 1000 ≤ d then some true else s.outputLevel r
      | .flareOut k => some (decide (s.level k = some .flare))
      | .lowAlarm k => some (decide (s.level k = some .low))
      | .sprayOut => some (decide (s.qnu.car.state = .quenching))
      | .gateOut b => some (match s.bay b with
        | some (.discharging ..) => true
        | _ => false)
      | _ => none
    let driven : Bool := match r.fn with
      | .output => true
      | .sprayOut => true
      | .damperPwm k => live k
      | .flareOut k => live k
      | .lowAlarm k => live k
      | .gateOut b => (s.bay b).isSome
      | _ => false
    let released := r.fault = true ∨ driven = false
    s.outputLevel r = level
    ∧ (∀ k, r.fn = .damperPwm k → (s.outputLevel r).isSome
        ∧ s.termState r = some (if released then .released else .pulsed r.duty))
    ∧ (∀ on, (∀ k, r.fn ≠ .damperPwm k) → level = some on → s.termState r = some (if released then .released
        else if on ≠ r.invert then .energised else .deEnergised))
    ∧ (level = none → s.termState r = none)
    ∧ (s.canOverload r = true ↔ s.termState r = some .energised ∨ ∃ d, s.termState r = some (.pulsed d) ∧ (match d with
        | some d => if r.invert = true then d < 1000 else 0 < d
        | none => r.invert = true)))
  ∧ (∀ (s : State) (t : Nat) (r : TermRec), s.term t = some r →
    (∀ energised : Bool,
      let l := energised != r.invert
      let u := s.updTerm t fun x => { x with filtered := energised, level := l }
      let run := exec (.inputLevelChange t energised) s
      ((r.fn = .input ∨ r.fn = .conveyorRunIn ∨ r.fn = .batteryStopIn) → l = r.level → run = ends u)
      ∧ (r.fn = .input → l ≠ r.level → run = ends (
          if r.edge = .both ∨ (r.edge = .rise ∧ l = true) ∨ (r.edge = .fall ∧ l = false) then u.raise (.inputChange t l)
          else u))
      ∧ (r.fn = .conveyorRunIn → l ≠ r.level → l = true → run = ends u.startDischarge)
      ∧ (r.fn = .conveyorRunIn → l ≠ r.level → l = false →
          run = ends (match s.qnu.discharge with
            | b :: _ => match s.bay b with
              | some (.discharging o d c g) =>
                (u.setBay b (.cooled o d c)).raise (.dischargeInterrupted b (g - s.now))
              | _ => u
            | [] => u))
      ∧ (r.fn = .batteryStopIn → l ≠ r.level → run = ends (u.stopFollows l)
          ∧ (u.stopFollows l).ilk.stop = l ∧ (s.ilk.stop ≠ l → l = true → ∀ m, m ≠ .qc → (u.stopFollows l).permit m = none))
      ∧ (r.fn = .unassigned → run = ends (s.updTerm t fun x => { x with filtered := energised }))
      ∧ (TermFn.filteredInput r.fn = false → r.fn ≠ .unassigned → run = ends s))
    ∧ (s.canOverload r = true → exec (.terminalOverload t) s = ends ((s.updTerm t fun x => { x with fault := true }).raise
        (.terminalFault t r.fn (!r.invert))))
    ∧ (s.termState r = some .energised → s.outputLevel r = some (!r.invert))
    ∧ (s.canOverload r = false → exec (.terminalOverload t) s = ends s))
  ∧ ∀ (s : State) (tag : Byte) (t : Nat) (level : Bool), s.room →
    let h := s.supervisorHeard
    exec (.setOutput tag t none) s = answered tag .range .nothing h
    ∧ (h.term t = none →
        exec (.setOutput tag t (some level)) s = answered tag .range .nothing h
        ∧ exec (.toggle tag t) s = answered tag .range .nothing h
        ∧ exec (.clearTerminal tag t) s = answered tag .range .nothing h)
    ∧ (∀ r, h.term t = some r →
        (r.fn ≠ .output → exec (.setOutput tag t (some level)) s = answered tag .function .nothing h
          ∧ exec (.toggle tag t) s = answered tag .function .nothing h)
        ∧ (r.fn = .output → exec (.setOutput tag t (some level)) s =
            answered tag .ok (.output level r.fault) (h.updTerm t fun x => { x with out := level })
          ∧ exec (.toggle tag t) s =
            answered tag .ok (.output (!r.out) r.fault) (h.updTerm t fun x => { x with out := !r.out }))
        ∧ (r.fault = false → exec (.clearTerminal tag t) s = answered tag .notFound .nothing h)
        ∧ (r.fault = true → exec (.clearTerminal tag t) s =
            answered tag .ok .nothing (h.updTerm t fun x => { x with fault := false })))
    ∧ ∀ (fn : TermFn) (invert : Bool) (drive : Drive) (edge : Edge),
      let numbered := match fn with
        | .pressIn k | .damperPwm k | .flareOut k | .lowAlarm k => 1 ≤ k ∧ k ≤ 4
        | .gateOut b => 1 ≤ b ∧ b ≤ 12
        | _ => True
      let good := t < 32 ∧ numbered ∧ (drive = .normal ∨ 24 ≤ t)
      let elsewhere := fn ≠ .input ∧ fn ≠ .output ∧ fn ≠ .unassigned ∧ ∃ j r, j ≠ t ∧ h.term j = some r ∧ r.fn = fn
      let run := exec (.terminal tag t fn invert drive edge) s
      (s.cfg.loaded.battery = false → run = answered tag .order .nothing h)
      ∧ (s.cfg.loaded.battery = true → s.inRun = true → run = answered tag .state .nothing h)
      ∧ (s.cfg.loaded.battery = true → s.inRun = false →
          (¬ good → run = answered tag .range .nothing h)
          ∧ (good → elsewhere → run = answered tag .duplicate .nothing h)
          ∧ (∀ r, good → ¬ elsewhere → h.term t = some r →
            let l := TermFn.filteredInput fn && (r.filtered != invert)
            let kept := h.updTerm t fun x => { x with invert := invert, drive := drive, edge := edge, level := l }
            let put := h.updTerm t fun _ => ⟨fn, invert, drive, edge, false, r.filtered, l, false, none⟩
            let left := match r.fn with
              | .batteryStopIn => if r.level then put.stopFollows false else put
              | .conveyorRunIn => if r.level then hand .conveyorRunIn t edge false put else put
              | .gateOut b => interrupted b put
              | .pressIn k => spoil k put
              | _ => put
            let came := match fn with
              | .pressIn k => spoil k left
              | _ => if l then hand fn t edge true left else left
            let told := if r.fn = fn then (if l = r.level then kept else hand fn t edge l kept) else came
            let v := told.startDischarge
            let u : State := { v with cfg.loaded.terminals :=
              if v.cfg.loaded.terminals.contains t then v.cfg.loaded.terminals else v.cfg.loaded.terminals ++ [t] }
            run = answered tag .ok .nothing u
              ∧ u.term t = some ⟨fn, invert, drive, edge, if r.fn = fn then r.out else false, r.filtered,
                  TermFn.filteredInput fn && (r.filtered != invert), if r.fn = fn then r.fault else false,
                  if r.fn = fn then r.duty else none⟩
              ∧ (∀ j, j ≠ t → u.term j = h.term j) ∧ t ∈ u.cfg.loaded.terminals))

/-! ## Chapter 10: links and messages -/

/-- The silence timers: an ONLINE link goes OFFLINE with LINK_STATE, its position TRAVEL and its machine's permit revoked
(R174, R49, R58); what the blocks do as a machine goes OFFLINE: a door task returned and the visit withdrawn (R100), a valve
task returned (R136), QC's issued move PENDING, the car that has left, or that stands out of its place (R143, R147; log 17),
the push record's loss rule (R84), the re-test (the order: log 35). A PRESENT S-link is LOST with SUPERVISOR_LOST, and a
request's frame makes it PRESENT again, restarts its timer, and before the request is taken brings the boundary build that
waited (R175, R40); a timer that is stopped does nothing (log 1). A gap in a frame discards it (R171). On a machine link in
a link test no frame is assembled: a gap does nothing, and a character goes to the checker, with the effect of
TEST_CHARACTER (R170, R179; log 25; what the checker does, LinkSettingsAndLinkTests says). The receiver reads the line after
receive invert: in NRZ at the middle of each cell, in OPTICAL a zero where a low pulse of a sixteenth of a cell or more
begins, and a fall that is too short starts no character (R170; the line in steps of a thirty-second: log 62). A good
character moves the receive assembly by the stages of R171, a damaged one discards (R170, R172; of two errors which is
recorded is free: log 14); a complete frame is taken in the same event, with the effect of the command it stands for (log
13); which command that is, FramesAndWhatTheyCarry says. -/
def Obligations.SilenceGapsAndCharacters : Prop :=
  (∀ s : State,
    let up : State := { s with lnk.sup.port.up := true, lnk.sup.port.silence := true }
    let waits := s.pln.round.isSome = true ∧ s.pln.cursor = none
    (s.present = true ∨ ¬ waits → s.supervisorHeard = up)
    ∧ (s.present = false → waits → s.supervisorHeard = up.buildNext.planSettle.planReport))
  ∧ (∀ (s : State) (m : MachineId), (s.machine m).position = some .travel →
    let door (d : Side) : State :=
      let others (e : TaskEntry) := (s.queue d).filter fun x => !(x.oven == e.oven && x.kind == e.kind)
      let u := match (s.queue d).find? fun e => e.service.isSome with
        | some e => s.setQueue d (joinHead { e with service := none } (others e))
        | none => s
      u.updRound d fun r => { r with visit := none }
    let valve : State := match s.ofu.queue.find? fun e => e.service.isSome with
      | some e => { s with ofu.queue := { e with service := none } :: s.ofu.queue.filter fun x => x.oven ≠ e.oven }
      | none => s
    let car : State :=
      let u : State := match s.qnu.car.move with
        | .issued _ _ => { s with qnu.car.move := .pending }
        | _ => s
      let v := match (s.machine .qc).mode, u.qnu.car.state with
        | some .auto, .parked => u.sendCar (.toOven .park)
        | some .auto, .spotted n => u.sendCar (.toOven (.oven n))
        | _, _ => u
      let placed := match v.qnu.car.state with
        | .loading _ => true
        | .quenching => true
        | .draining => true
        | .waitBay => true
        | .dumping => (v.qnu.load.bind LoadRec.bay).isSome
        | _ => false
      if placed = true ∧ v.qnu.car.positionFlag = false then
        State.raise { v with qnu.car.positionFlag := true } (.carPosition v.qnu.car.state none)
      else v
    s.handOffline m = (State.pushLoses (match m with
      | .pm => door .ps
      | .gc => door .cs
      | .cc => valve
      | .qc => car) m).retest)
  ∧ (∀ (s : State) (m : MachineId),
    let off := ((s.updPort (.mach m) fun p => { p with up := false, silence := false }).raise
      (.linkState m false .silence)).updMachine m fun r => { r with position := some .travel }
    ((s.mlink m).port.silence = false → exec (.mLinkSilenceExpiry m) s = ends s)
    ∧ ((s.mlink m).port.silence = true → s.online m = false → exec (.mLinkSilenceExpiry m) s =
        ends (s.updPort (.mach m) fun p => { p with silence := false }))
    ∧ ((s.mlink m).port.silence = true → s.online m = true →
        exec (.mLinkSilenceExpiry m) s = ends (off.handOffline m)
        ∧ (off.handOffline m).online m = false ∧ (off.handOffline m).ilk.machines = off.ilk.machines
        ∧ ((∀ p, s.permit m = some p → PermitKind.machine p.kind = m) → (off.handOffline m).permit m = none)))
  ∧ (∀ s : State,
      let lost : State := { s with
        lnk.sup.port.up := false
        lnk.sup.port.silence := false }
      (s.lnk.sup.port.silence = false → exec .sLinkSilenceExpiry s = ends s)
      ∧ (s.lnk.sup.port.silence = true → s.present = false → exec .sLinkSilenceExpiry s = ends lost)
      ∧ (s.lnk.sup.port.silence = true → s.present = true → exec .sLinkSilenceExpiry s = ends (lost.raise .supervisorLost)))
  ∧ (∀ (s : State) (l : LinkId) (c : Instr), (requestTag c).isSome ∨ (senderOf c).isSome →
      ends (takeFrame l (.message c) s) = exec c s)
  ∧ (∀ (s : State) (l : LinkId),
      (∀ tag, ends (takeFrame l (.format tag) s) = exec (.unknownRequest tag) s)
      ∧ ∀ c, takeFrame l (.discard c) s = s.updPort l fun p =>
          { p with errors := min 255 (p.errors + 1), lastCause := some c })
  ∧ (∀ (s : State) (l : LinkId), (∀ m, l = .mach m → s.untested m) →
      ((s.port l).rx.stage = .hunt → exec (.characterGapExpiry l) s = ends s)
      ∧ ((s.port l).rx.stage ≠ .hunt → exec (.characterGapExpiry l) s = ends (s.updPort l fun p =>
        { p with rx := .hunting, errors := min 255 (p.errors + 1), lastCause := some .gap })))
  ∧ (∀ (s : State) (m : MachineId), (s.mlink m).test.active = true →
      exec (.characterGapExpiry (.mach m)) s = ends s
      ∧ ∀ wave, exec (.characterReceived (.mach m) wave) s = exec (.testCharacter m wave) s)
  ∧ ∀ (s : State) (l : LinkId) (wave : LineWave) (bits : Nat → Bool) (b : Byte), (∀ m, l = .mach m → s.untested m) →
    let v := (s.port l).settings
    let low (i : Nat) : Prop := i < 352 ∧ wave.getLsbD i = v.rxInvert
    let pulse (i : Nat) : Prop := low i ∧ low (i + 1) ∧ (i = 0 ∨ ¬ low (i - 1))
    let zero (c : Nat) : Prop := match v.code with
      | .nrz => low (32 * c + 16)
      | .optical => ∃ i, 32 * c ≤ i ∧ i < 32 * c + 32 ∧ pulse i
    let starts : Prop := low 0 ∧ match v.code with
      | .nrz => low 16
      | .optical => low 1
    (∀ c, bits c = true ↔ ¬ zero c) → (∀ i, i < 8 → b.getLsbD i = bits (i + 1)) →
    let rx := (s.port l).rx
    let put (x : RxAssembly) := s.updPort l fun p => { p with rx := x }
    let dropped (c : DiscardCause) := ends (s.updPort l fun p =>
      { p with rx := .hunting, errors := min 255 (p.errors + 1), lastCause := some c })
    let ones := ((List.range 9).filter fun i => bits (i + 1)).length
    let even := ones % 2 = 0
    let stop := bits 10 = true
    let good := starts ∧ even ∧ stop
    let chars := rx.chars ++ [b]
    let run := exec (.characterReceived l wave) s
    (¬ starts → run = ends s)
    ∧ (starts → ¬ even → stop → run = dropped .parity)
    ∧ (starts → even → ¬ stop → run = dropped .framing)
    ∧ (starts → ¬ even → ¬ stop → run = dropped .parity ∨ run = dropped .framing)
    ∧ (good → rx.stage = .hunt → run = ends (if b = 0x5A#8 then put ⟨.length, 0, []⟩ else s))
    ∧ (good → rx.stage = .length → 1 ≤ b.toNat → b.toNat ≤ 60 → run = ends (put ⟨.body, b.toNat, []⟩))
    ∧ (good → rx.stage = .length → (b.toNat = 0 ∨ 60 < b.toNat) → run = dropped .len)
    ∧ (good → rx.stage = .body → run = ends (put ⟨if chars.length < rx.len then .body else .check, rx.len, chars⟩))
    ∧ (good → rx.stage = .check → chars.length < rx.len + 2 → run = ends (put ⟨.check, rx.len, chars⟩))
    ∧ ∀ kind body hi lo, good → rx.stage = .check → rx.len = body.length + 1 → chars = (kind :: body) ++ [hi, lo] →
      (crc16 (BitVec.ofNat 8 rx.len :: kind :: body) ≠ hi ++ lo → run = dropped .check)
      ∧ (crc16 (BitVec.ofNat 8 rx.len :: kind :: body) = hi ++ lo →
          run = ends (takeFrame l (frameOf l kind body) (put ⟨.hunt, 0, []⟩)))

/-- LINK, LINK_CLEAR, LINK_TEST, TEST_READ, TEST_END and a request whose name the part does not know, by R169, R172, R173,
R179 and R180; what the line shows of a character by the settings: a start bit 0, eight data bits least significant first, a
parity bit that makes the ones even, a stop bit 1, a cell of sixteen sixteenths each, NRZ or OPTICAL, turned over by
transmit invert, and of a line at rest, high, or low under transmit invert (R169; both together: log 58); and how the
checker judges a character of a link in test, and takes its eight data bits into its register, least significant first
(R180; for a damaged one too, what else a judged character leaves, and the registers a test starts with, are log 30; the
line in steps of a thirty-second is log 62). A test begun on an ONLINE link takes it OFFLINE with LINK_STATE TEST, the
position TRAVEL, and all that the blocks do at an OFFLINE (R179, R49; their order: log 35). That TEST_READ answers the test
flag on a link not in test too is the model's choice (log 88). -/
def Obligations.LinkSettingsAndLinkTests : Prop :=
  (∀ (s : State) (tag : Byte), s.room →
    let h := s.supervisorHeard
    let ok (u : State) := answered tag .ok .nothing u
    let enters (u : State) (l : LinkId) : State := { u with cfg.loaded.links :=
      (if u.cfg.loaded.links.contains l then u.cfg.loaded.links else u.cfg.loaded.links ++ [l]) }
    exec (.unknownRequest tag) s = answered tag .format .nothing h
    ∧ (∀ l v,
        let good := (1 ≤ v.dv ∧ v.dv ≤ 255) ∧ ¬ (l = .sup ∧ v.code = .optical)
        (s.cfg.loaded.battery = false → exec (.link tag l v) s = answered tag .order .nothing h)
        ∧ (s.cfg.loaded.battery = true → s.inRun = true → exec (.link tag l v) s = answered tag .state .nothing h)
        ∧ (s.cfg.loaded.battery = true → s.inRun = false → ¬ good →
            exec (.link tag l v) s = answered tag .range .nothing h)
        ∧ (s.cfg.loaded.battery = true → s.inRun = false → good →
            (l = .sup → exec (.link tag l v) s = ends ((enters h l).pushAnswer tag ⟨.ok, .nothing, some v⟩))
            ∧ (∀ m, l = .mach m → (s.mlink m).test.active = true →
                exec (.link tag l v) s = answered tag .busy .nothing h)
            ∧ (∀ m, l = .mach m → (s.mlink m).test.active = false →
                exec (.link tag l v) s = ok (enters (h.updLink m fun k =>
                  { k with sending := none, line := [], port := { k.port with settings := v, rx := .hunting } }) l))))
    ∧ exec (.linkClear tag none) s = answered tag .range .nothing h
    ∧ (∀ l, exec (.linkClear tag (some l)) s = ok (h.updPort l fun p => { p with errors := 0, lastCause := none }))
    ∧ (∀ l, (l = none ∨ l = some .sup) →
        exec (.linkTest tag l) s = answered tag .range .nothing h
        ∧ exec (.testRead tag l) s = answered tag .range .nothing h
        ∧ exec (.testEnd tag l) s = answered tag .range .nothing h)
    ∧ ∀ m,
      let k := h.mlink m
      let busy := k.test.active = true ∨ h.permit m ≠ none ∨ (m ≠ .cc ∧ h.ilk.push ≠ none)
      let putTest (t : LinkTest) := h.updLink m fun x => { x with test := t }
      let cut := h.updLink m fun x => { x with
        queue := []
        sending := none
        line := []
        port := { x.port with silence := false, rx := .hunting }
        test := ⟨true, 0, 0, 0, 0, x.test.checker, 0x7FFF#15⟩ }
      let off := ((cut.updPort (.mach m) fun p => { p with up := false, silence := false }).raise
        (.linkState m false .test)).updMachine m fun r => { r with position := some .travel }
      (busy → exec (.linkTest tag (some (.mach m))) s = answered tag .busy .nothing h)
      ∧ (¬ busy →
        let u := if h.online m = true then off.handOffline m else cut
        exec (.linkTest tag (some (.mach m))) s = ok u ∧ u.mlink m = { k with
          queue := []
          sending := none
          line := []
          port := { k.port with up := false, silence := false, rx := .hunting }
          test := ⟨true, 0, 0, 0, 0, k.test.checker, 0x7FFF#15⟩ })
      ∧ (k.test.active = true →
          exec (.testRead tag (some (.mach m))) s =
            answered tag .ok (.testCounts k.test.internalErrors k.test.received true)
              (putTest { k.test with reported := k.test.internalErrors })
          ∧ exec (.testEnd tag (some (.mach m))) s = ok (h.updLink m fun x => { x with
              test := { x.test with active := false, seeded := 0 }, port := { x.port with rx := .hunting } }))
      ∧ (k.test.active = false →
          exec (.testRead tag (some (.mach m))) s =
            answered tag .ok (.testCounts k.test.reported k.test.received false) h
          ∧ exec (.testEnd tag (some (.mach m))) s = answered tag .notFound .nothing h))
  ∧ (∀ (v : LineSettings) (b : Byte),
    let ones := ((List.range 8).filter fun i => b.getLsbD i).length
    let bit (i : Nat) : Bool := if i = 0 then false else if i ≤ 8 then b.getLsbD (i - 1)
      else if i = 9 then decide (ones % 2 = 1) else true
    let level (i j : Nat) : Bool := match v.code with
      | .nrz => bit i
      | .optical => bit i || decide (3 ≤ j)
    (charCells v b).length = 11 ∧ ∀ i x, (charCells v b)[i]? = some x → ∀ j, j < 16 →
      x.getLsbD j = (level i j != v.txInvert))
  ∧ (∀ (s : State) (l : LinkId),
    let line := match l with
      | .sup => s.lnk.sup.line
      | .mach m => (s.mlink m).line
    (line = [] → s.shownLine l = .rest (!(s.port l).settings.txInvert))
    ∧ (line ≠ [] → s.shownLine l = .characters line))
  ∧ ∀ (s : State) (m : MachineId) (wave : LineWave) (bits : Nat → Bool),
    let k := s.mlink m
    let v := k.port.settings
    let low (i : Nat) : Prop := i < 352 ∧ wave.getLsbD i = v.rxInvert
    let pulse (i : Nat) : Prop := low i ∧ low (i + 1) ∧ (i = 0 ∨ ¬ low (i - 1))
    let zero (c : Nat) : Prop := match v.code with
      | .nrz => low (32 * c + 16)
      | .optical => ∃ i, 32 * c ≤ i ∧ i < 32 * c + 32 ∧ pulse i
    let starts : Prop := low 0 ∧ match v.code with
      | .nrz => low 16
      | .optical => low 1
    let damaged := ¬ ((((List.range 9).filter fun i => bits (i + 1)).length % 2 = 0) ∧ bits 10 = true)
    let wrong := ∃ i, i < 8 ∧ bits (i + 1) ≠ (k.test.checker.getLsbD (14 - i) ^^ k.test.checker.getLsbD (13 - i))
    (∀ c, bits c = true ↔ ¬ zero c) →
    (k.test.active = false ∨ ¬ starts → exec (.testCharacter m wave) s = ends s)
    ∧ (k.test.active = true → starts → ∃ t,
        exec (.testCharacter m wave) s = ends (s.updLink m fun x => { x with test := t })
        ∧ t.active = true ∧ t.reported = k.test.reported ∧ t.generator = k.test.generator
        ∧ t.received = min 4294967295 (k.test.received + 1) ∧ t.seeded = min 2 (k.test.seeded + 1)
        ∧ (∀ j, j < 15 → t.checker.getLsbD j = if j < 8 then bits (8 - j) else k.test.checker.getLsbD (j - 8))
        ∧ (k.test.seeded < 2 ∨ ¬ (damaged ∨ wrong) → t.internalErrors = k.test.internalErrors)
        ∧ (2 ≤ k.test.seeded → (damaged ∨ wrong) →
            t.internalErrors = if k.test.internalErrors = 65535 then 0 else k.test.internalErrors + 1))

/-! ## Chapter 11 and the queries -/

/-- TIMING, DOORS, PRESSURE and WHARF by the tests of R181 in order, the ranges of their tables and the cross-checks of
R109; taken, the values stand and the block is entered in the loaded-block record. PRESSURE returns an active section's run
counters to 0 (R110); WHARF with another bay count rebuilds a free wharf or is BUSY (R156). TIMING in RUN: a change of W or
L sweeps the ovens, so that every COKING or READY oven follows its ready time by the new W (R13) and its overdue flag is set
when its overdue time by the new L has come (R19, R17); a change of L_iso moves the isolate timer that stands (R133); then
the re-test (R58). That the sweep comes first, the timer next and the re-test last is the model's choice (log 55), and so is
that the sweep takes each oven whole (log 77). -/
def Obligations.SetupBlocksReplaceTheirValues : Prop :=
  ∀ (s : State) (tag : Byte), s.room →
    let h := s.supervisorHeard
    let within (lo hi v : Nat) := lo ≤ v ∧ v ≤ hi
    let between (lo hi v : Int) := lo ≤ v ∧ v ≤ hi
    let ok (u : State) := answered tag .ok .nothing u
    let refused (c : Instr) (r : ResultCode) := exec c s = answered tag r .nothing h
    (s.cfg.loaded.battery = false → ∀ (v : Timing) (d : DoorVals) (k : Nat) (p : PressureParams) (w : WharfVals),
      refused (.timing tag v) .order ∧ refused (.doors tag d) .order ∧ refused (.pressure tag k p) .order
      ∧ refused (.wharf tag w) .order)
    ∧ (s.cfg.loaded.battery = true →
      (∀ v : Timing,
        let good := v.w ≤ 240 ∧ v.l ≤ 480 ∧ within 30 600 v.tUse ∧ v.tSs ≤ 3600 ∧ v.tSd ≤ 3600 ∧ v.tAdj ≤ 1440
          ∧ within 30 600 v.tRam ∧ within 30 600 v.tReturn ∧ within 60 1800 v.tDoors ∧ within 60 1800 v.tCharge
          ∧ within 60 1800 v.lIso
        (¬ good → refused (.timing tag v) .range)
        ∧ (good → s.inRun = false → exec (.timing tag v) s = ok { h with
            cfg.timing := v
            cfg.loaded.timing := true })
        ∧ (good → s.inRun = true →
          let entered : State := { h with
            cfg.timing := v
            cfg.loaded.timing := true }
          let same : Prop := h.cfg.timing.w = v.w ∧ h.cfg.timing.l = v.l
          let swept := if same then entered
            else (numbers 1 h.nOv).foldl (fun u n => (u.evalReady n).overdueCheck n) entered
          let moved := match swept.ofu.iso, swept.pln.reported with
            | some _, some (o, due) =>
              if h.cfg.timing.lIso = v.lIso then swept
              else if due - v.lIso ≤ h.now then ({ swept with ofu.iso := none }).offerValve o .isolate
              else { swept with ofu.iso := some ⟨o, due - v.lIso⟩ }
            | _, _ => swept
          let by_ (o : OvenRec) (minutes : Nat) : Bool :=
            o.chargeEnd.any fun t => decide (min tMax (t + minutes * 60) ≤ h.now)
          exec (.timing tag v) s = ok moved.retest
          ∧ moved.retest.cfg = entered.cfg
          ∧ moved.retest.ot = if same then h.ot else h.ot.map fun o =>
              if o.state = .coking ∨ o.state = .ready then { o with
                state := if by_ o (o.target - v.w) then .ready else .coking
                overdue := o.overdue || by_ o (o.target + v.l) }
              else o))
      ∧ (∀ d : DoorVals,
        let good := within 1 15 d.cleanThreshold ∧ within 60 3600 d.tConfirm ∧ within 60 3600 d.tTask ∧ within 60 7200 d.iBase
        (¬ good → refused (.doors tag d) .range)
        ∧ (good → exec (.doors tag d) s = ok { h with
            dru.vals := d
            cfg.loaded.doors := true }))
      ∧ (∀ (k : Nat) (p : PressureParams),
        let good := between (-100) 400 p.setpoint ∧ between 0 20 p.deadband ∧ between 0 255 p.kp ∧ between 0 255 p.ki
          ∧ between 0 1000 p.uMin ∧ between 0 1000 p.uMax ∧ between 1 100 p.rate ∧ between 0 1000 p.uStart
          ∧ between 1 50 p.decay ∧ between (-300) 300 p.ffIso ∧ between (-300) 300 p.ffChg ∧ between (-300) 300 p.ffEnd
          ∧ between (-250) 200 p.pLow ∧ between 0 700 p.pHigh ∧ between 100 750 p.pFlare ∧ between 10 100 p.hysteresis
          ∧ p.uMin < p.uMax ∧ p.pLow < p.setpoint ∧ p.setpoint < p.pHigh ∧ p.pHigh < p.pFlare
          ∧ (h.sec k).isSome = true
        (¬ good → refused (.pressure tag k p) .range)
        ∧ (good → exec (.pressure tag k p) s = ok { h with
            ofu.sections := upd1 (fun r => { r with
              params := some p
              live := r.live.map fun v => { v with counters := ⟨0, 0, 0, 0⟩ } }) k h.ofu.sections
            cfg.loaded.pressure := if h.cfg.loaded.pressure.contains k then h.cfg.loaded.pressure
              else h.cfg.loaded.pressure ++ [k] }))
      ∧ ∀ w : WharfVals,
        let good := within 2 12 w.bays ∧ within 60 900 w.tHot ∧ within 30 300 w.tSpray ∧ within 30 300 w.tDrain
          ∧ within 300 7200 w.tCool ∧ within 10 600 w.tGate ∧ within 30 900 w.tMove
        let allFree := ∀ b ∈ h.qnu.bays, ∃ t, b = .free t
        (s.inRun = true → refused (.wharf tag w) .state)
        ∧ (s.inRun = false → ¬ good → refused (.wharf tag w) .range)
        ∧ (s.inRun = false → good → w.bays = h.qnu.bays.length → exec (.wharf tag w) s = ok { h with
            qnu.vals := w
            cfg.loaded.wharf := true })
        ∧ (s.inRun = false → good → w.bays ≠ h.qnu.bays.length → ¬ allFree → refused (.wharf tag w) .busy)
        ∧ (s.inRun = false → good → w.bays ≠ h.qnu.bays.length → allFree → exec (.wharf tag w) s = ok { h with
            qnu := { h.qnu with
              vals := w
              bays := List.replicate w.bays (.free h.now)
              free := numbers 1 w.bays
              discharge := [] }
            cfg.loaded.wharf := true }))

/-- COMMIT: STATE in RUN, MISSING with the missing blocks and functions (R183, R167), else RUN with the time-open flag clear
and every configured section in AUTO at u_start, or in HOLD with a sensor fault (R184, R5, R124). The steps of the COMMIT in
order: the sweep of the ovens (R19), the end of the hold with CLEAR (R64), the door unit's RESEAL offers, confirm timers and
dispatch (R106; PS, then CS: log 51), the sections, the re-test, the ASPIRATE and NORMAL offers and dispatch (R139), the car
leaving UNKNOWN (R146), and the move and the dump tested. RESTART: STATE in CONFIG, BUSY with the first obstacle, else
CONFIG with PART_STATE, no plan, with RANGE_DONE for a range operation in progress, every permit revoked with reason
RESTART, STOP CONFIG to every ONLINE machine, an issued move PENDING, no door or valve work, no reseal pending flag and no
confirm timer, and every active section in HOLD (R185, R46, R69, R157, R106, R125, R139). The model's readings and choices:
sections that become active with the level kept raise no SECTION_ALARM (log 31); at RESTART the STOP frames are sent
whatever hold was in force before (log 27); the machines in the order PM, GC, CC, QC (log 71), and the blocks at RESTART in
the order of R185's list (log 90); of several ovens CHARGING the lowest is the obstacle named (log 76); the sweep takes each
oven whole (log 77); the functions that COMMIT finds on no terminal are listed in the order of R167 (log 80). -/
def Obligations.CommitAndRestart : Prop :=
  (∀ (s : State) (d : Side),
    let offered := (numbers 1 s.nOv).foldl (fun x n =>
      if x.doorState n d = some .leaking then x.offerTask d n .reseal else x) s
    let timed (p : Pair DoorRec) : Pair DoorRec :=
      if (p.get d).state = .onUnconfirmed
      then p.set d { p.get d with confirm := some (min tMax (offered.now + offered.dru.vals.tConfirm)) } else p
    s.commitDoors d = State.dispatchDoor { offered with dru.doors := offered.dru.doors.map timed } d)
  ∧ (∀ s : State,
    let aspirated := (numbers 1 s.nOv).foldl (fun x n =>
      if x.ovenState n = some .empty ∧ x.valveState n ≠ some .aspirating then x.offerValve n .aspirate else x) s
    s.commitValves = ((numbers 1 s.nOv).foldl (fun x n =>
      if (x.ovenState n = some .coking ∨ x.ovenState n = some .ready)
        ∧ (x.valveState n = some .closed ∨ x.valveState n = some .aspirating)
      then x.offerValve n .normal else x) aspirated).dispatchValve)
  ∧ (∀ s : State, s.readySweep = (numbers 1 s.nOv).foldl (fun x n => (x.evalReady n).overdueCheck n) s)
  ∧ ∀ (s : State) (tag : Byte), s.room →
    let h := s.supervisorHeard
    let stands (fn : TermFn) : Prop := ∃ r ∈ h.trm, r.fn = fn
    let needed := (numbers 1 h.nSec).map TermFn.pressIn ++ (numbers 1 h.nSec).map TermFn.damperPwm ++ [.sprayOut]
      ++ (numbers 1 h.qnu.bays.length).map TermFn.gateOut ++ [.conveyorRunIn, .batteryStopIn]
    let complete := h.cfg.loaded.battery = true ∧ (∀ k, 1 ≤ k → k ≤ h.nSec → k ∈ h.cfg.loaded.pressure)
      ∧ ∀ fn ∈ needed, stands fn
    let started (r : SecRec) : SecRec := match r.params with
      | none => r
      | some par => { r with
        integ := max 0 (min 256000 ((par.uStart - r.ff) * 256))
        live := some ⟨if r.sensorFault then .hold .fault else .auto, if r.sensorFault then none else some false, par.uStart,
          (r.live.map SecLive.level).getD .normal, (r.live.map SecLive.counters).getD ⟨0, 0, 0, 0⟩⟩ }
    let obstructed := (∃ n, h.ovenIs n .pushing = true) ∨ (∃ n, h.ovenIs n .charging = true) ∨ (match h.qnu.car.state with
      | .loading _ | .toTower | .quenching | .draining | .waitBay | .toBay _ | .dumping => True
      | _ => False)
    (s.inRun = true → exec (.commit tag) s = answered tag .state .nothing h)
    ∧ (s.inRun = false → ¬ complete → ∃ blocks fns, exec (.commit tag) s = answered tag .missing (.missing blocks fns) h
        ∧ (MissingBlock.battery ∈ blocks ↔ h.cfg.loaded.battery = false)
        ∧ (∀ k, MissingBlock.pressure k ∈ blocks ↔ 1 ≤ k ∧ k ≤ h.nSec ∧ k ∉ h.cfg.loaded.pressure)
        ∧ ∀ fn, fn ∈ fns ↔ fn ∈ needed ∧ ¬ stands fn)
    ∧ (s.inRun = false → complete →
        let run := (({ h with cfg.part := .run } : State).raise (.partState .run .commit))
        let swept := State.readySweep { run with tb.timeOpen := false }
        let clears := swept.sendAllOnline (.clear .config)
        let freed := if swept.hold = true then swept
          else if swept.unconfirmed = true ∧ clears.online .pm = true then clears.send .pm (.stop .linkLoss) else clears
        let sides := (freed.commitDoors .ps).commitDoors .cs
        let taken : State := { sides with
          trm := sides.trm.map fun r => match r.fn with
            | .damperPwm k => match sides.sec k with
              | some x => if x.live = none then { r with duty := x.params.map PressureParams.uStart } else r
              | none => r
            | _ => r
          ofu.sections := sides.ofu.sections.map started }
        let u := taken.retest.commitValves.leaveUnknown.testMove.testDump
        exec (.commit tag) s = answered tag .ok .nothing u ∧ u.inRun = true
        ∧ u.tb = { h.tb with timeOpen := false } ∧ u.cfg = { h.cfg with part := .run }
        ∧ u.ofu.sections = h.ofu.sections.map started
        ∧ (∀ k o, h.oven k = some o → (o.state = .coking ∨ o.state = .ready) → u.ovenState k = some (
            if o.chargeEnd.any (fun t => decide (min tMax (t + (o.target - h.cfg.timing.w) * 60) ≤ h.now)) then .ready
            else .coking))
        ∧ u.ilk.stop = h.ilk.stop)
    ∧ (s.inRun = false → exec (.restart tag) s = answered tag .state .nothing h)
    ∧ (s.inRun = true → obstructed → ∃ o, exec (.restart tag) s = answered tag .busy (.obstacle o) h
        ∧ (match o with
          | .pushing n => h.ovenIs n .pushing = true ∧ ∀ j, j < n → h.ovenIs j .pushing = false
          | .charging n => h.ovenIs n .charging = true ∧ (∀ j, h.ovenIs j .pushing = false)
              ∧ ∀ j, j < n → h.ovenIs j .charging = false
          | .car c => c = h.qnu.car.state ∧ ∀ j, h.ovenIs j .pushing = false ∧ h.ovenIs j .charging = false))
    ∧ (s.inRun = true → ¬ obstructed →
        let told := ({ h with cfg.part := .config } : State).raise (.partState .config .restart)
        let ended := match h.pln.range with
          | some r => told.raise (.rangeDone r.first r.last r.mode r.setCount r.skipCount r.left true)
          | none => told
        let idle : State := { ended with pln := { h.pln with
          state := .idle, round := none, cursor := none, dueTimer := none, holdOver := none, lag := 0, serving := none,
          makeup := [], reported := none, range := none } }
        let stopped := State.sendAllOnline { idle.revokeAll .restart with ilk.holdCause := .config } (.stop .config)
        let moved : State := { stopped with qnu.car.move := match stopped.qnu.car.move with
          | .issued _ _ => .pending
          | x => x }
        let sealed (r : DoorRec) : DoorRec := { r with confirm := none, resealPending := false }
        let u : State := { moved with
          dru := { moved.dru with
            doors := moved.dru.doors.map fun p => ⟨sealed p.ps, sealed p.cs⟩
            queues := ⟨[], []⟩
            rounds := ⟨{ moved.dru.rounds.ps with visit := none }, { moved.dru.rounds.cs with visit := none }⟩ }
          ofu := { moved.ofu with
            sections := moved.ofu.sections.map fun r => { r with
              live := r.live.map fun v => { v with mode := .hold .restart, transfer := none } }
            queue := []
            heldOffers := []
            iso := none } }
        exec (.restart tag) s = answered tag .ok .nothing u ∧ u.inRun = false
        ∧ u.tb = h.tb ∧ u.ot = h.ot ∧ u.trm = h.trm ∧ u.cfg = { h.cfg with part := .config }
        ∧ (∀ m, m ≠ .qc → u.permit m = none) ∧ u.hold = true ∧ u.ilk.machines = h.ilk.machines
        ∧ u.pln.state = .idle ∧ u.pln.round = none ∧ u.pln.serving = none ∧ u.pln.makeup = [] ∧ u.pln.lag = 0
        ∧ u.pln.range = none ∧ u.pln.active = h.pln.active ∧ u.pln.staged = h.pln.staged
        ∧ (∀ d, u.queue d = [] ∧ u.round d = { h.round d with visit := none })
        ∧ u.ofu.queue = [] ∧ u.ofu.heldOffers = [] ∧ u.ofu.iso = none ∧ u.ofu.valves = h.ofu.valves
        ∧ u.ofu.sections = h.ofu.sections.map fun r => { r with
            live := r.live.map fun v => { v with mode := .hold .restart, transfer := none } })

/-- The queries of the machines, the push, the doors and tasks, the sections, valves, quench unit and terminals answer what
they name and change nothing; the STATUS query clears the notices-lost flag as it answers (R68, R87, R107, R127, R140, R158,
R168, R177). In the QUENCH answer the car's state, spot and destination are fields of their own, an absent one with the
characters of an absent field (R141, R158; log 12). The model's choices: positions in the DOOR and VALVES answers count from
0 (log 56), a link-test state is the test flag, the reported error count and the received-character count (log 61), the last
gate's count is absent in the SECTION answer when that gate gave no reading, and in both answers before a first gate has
ended (log 59), a DAMPER_PWM with its fault flag set, or not driven, is given as released, without its duty (log 87), and
lists for which no rule orders the elements stand in the order of log 80. -/
def Obligations.QueriesAnswerTheState : Prop :=
  ∀ (s : State) (tag : Byte) (n : Nat) (d : Side), s.room →
    let h := s.supervisorHeard
    let gives (c : Instr) (a : AnswerData) := exec c s = answered tag .ok a h
    let visitAt (e : Side) := (h.round e).visit.filter fun v => v.oven == n
    let entries (e : Side) := ((h.queue e).zipIdx.filter fun p => p.1.oven == n).map fun p => (p.2, p.1)
    let link (l : LinkId) : LinkView := ⟨l, (h.port l).settings, (h.port l).up, (h.port l).errors, (h.port l).lastCause,
      match l with
      | .sup => none
      | .mach m => some ⟨(h.mlink m).test.active, (h.mlink m).test.reported, (h.mlink m).test.received⟩⟩
    let view (t : Nat) (r : TermRec) : TermView := ⟨t, r, h.outputLevel r, h.termState r,
      if r.fn = .input ∨ r.fn = .conveyorRunIn ∨ r.fn = .batteryStopIn then some (r.filtered, r.level) else none,
      match r.fn with
      | .pressIn k => (h.gate k).bind Gate.last
      | _ => none⟩
    exec (.statusQuery tag) s = answered tag .ok (.status h.cfg.part h.now h.present h.lnk.sup.notices.length
        h.lnk.sup.noticesLost ([LinkId.sup, .mach .pm, .mach .gc, .mach .cc, .mach .qc].map link))
      { h with lnk.sup.noticesLost := false }
    ∧ gives (.machinesQuery tag) (.machines ⟨h.ilk.machines, ⟨h.online .pm, h.online .gc, h.online .cc, h.online .qc⟩,
        h.ilk.permits, h.ilk.stop, h.hold,
        (if h.inRun then [] else [.config]) ++ (if h.ilk.stop then [.batteryStop] else [])
          ++ (if h.ot.any OvenRec.breach then [.breach] else []),
        (numbers 1 h.nOv).filter (fun k => (h.oven k).map OvenRec.breach == some true), h.ilk.lastRam⟩)
    ∧ gives (.pushQuery tag) (.push ⟨h.ilk.push, h.ilk.stop, h.unconfirmed, h.ram, h.guide, h.qnu.car.state⟩)
    ∧ (∀ p, nth1 h.dru.doors n = some p → gives (.doorQuery tag n)
        (.door ⟨p, ⟨entries .ps, entries .cs⟩, ⟨visitAt .ps, visitAt .cs⟩⟩))
    ∧ (nth1 h.dru.doors n = none → exec (.doorQuery tag n) s = answered tag .range .nothing h)
    ∧ gives (.tasksQuery tag d) (.tasks ⟨h.queue d, (h.queue d).find? (fun e => e.service.isSome),
        (numbers 1 h.nOv).filter (fun k => (h.door k d).map DoorRec.resealPending == some true), h.round d⟩)
    ∧ (h.sec n = none → exec (.sectionQuery tag n) s = answered tag .range .nothing h)
    ∧ (∀ r, h.sec n = some r → gives (.sectionQuery tag n) (.secView ⟨r, h.terminalOf (.pressIn n),
        h.terminalOf (.damperPwm n), h.terminalOf (.flareOut n), h.terminalOf (.lowAlarm n),
        (h.gate n).bind fun g => if g.gave then g.last else none,
        r.integ / 256⟩))
    ∧ gives (.valvesQuery tag none) (.valves ⟨h.ofu.queue,
        (h.ofu.queue.find? fun e => e.service.isSome).bind ValveEntry.service, h.ofu.heldOffers, h.ofu.iso, h.ofu.charges⟩)
    ∧ (nth1 h.ofu.valves n = none → exec (.valvesQuery tag (some n)) s = answered tag .range .nothing h)
    ∧ (∀ v, nth1 h.ofu.valves n = some v → ∃ a, gives (.valvesQuery tag (some n)) (.valve a) ∧ a.record = v
        ∧ (∀ i e, a.entry = some (i, e) → h.ofu.queue[i]? = some e ∧ e.oven = n)
        ∧ (a.entry = none → ∀ e ∈ h.ofu.queue, e.oven ≠ n)
        ∧ (∀ i o, a.heldOffer = some (i, o) → h.ofu.heldOffers[i]? = some o ∧ o.oven = n)
        ∧ (a.heldOffer = none → ∀ o ∈ h.ofu.heldOffers, o.oven ≠ n))
    ∧ gives (.quenchQuery tag) (.quench ⟨h.qnu, h.online .qc, (h.machine .qc).mode, (h.machine .qc).position,
        (h.machine .qc).status⟩)
    ∧ (∀ v : QuenchView,
      let b1 (n : Nat) : Byte := BitVec.ofNat 8 n
      let spot : List Byte := match v.unit.car.state with
        | .parked => Config.presentMark 2 ++ [Config.spotTypeCode .park, Config.noNumber]
        | .spotted n => Config.presentMark 2 ++ [Config.spotTypeCode .oven, b1 n]
        | .loading n => Config.presentMark 2 ++ [Config.spotTypeCode .oven, b1 n]
        | _ => Config.absentChars
      let dest : List Byte := match v.unit.car.state with
        | .toOven .park => Config.presentMark 2 ++ [Config.spotTypeCode .park, Config.noNumber]
        | .toOven (.oven n) => Config.presentMark 2 ++ [Config.spotTypeCode .oven, b1 n]
        | .toTower => Config.presentMark 2 ++ [Config.spotTypeCode .tower, Config.noNumber]
        | .toBay b => Config.presentMark 2 ++ [Config.spotTypeCode .wharf, b1 b]
        | _ => Config.absentChars
      ∃ rest, (AnswerData.quench v).chars = Config.carStateCode v.unit.car.state.ctorIdx :: spot ++ dest ++ rest)
    ∧ (h.term n = none → exec (.terminalsQuery tag (some n)) s = answered tag .range .nothing h)
    ∧ (∀ r, h.term n = some r → gives (.terminalsQuery tag (some n)) (.terminals [view n r]))
    ∧ gives (.terminalsQuery tag none) (.terminals (h.trm.zipIdx.map fun p => view p.2 p.1))
end

