-- ==== Sys2Proof/Laws/State.lean ====
section
/-! SUPPORT. What the setters of Machine/Ops.lean and their kin write and what they leave, and the small laws of the numbered
tables and of the per-machine and per-side records. -/

set_option linter.all false

namespace Sys2Proof.Machine

open Sys2Proof

/-! ## Records by machine and by side -/

@[simp] theorem Quad.get_set {α : Type} (q : Quad α) (m k : MachineId) (v : α) :
    (q.set m v).get k = if m = k then v else q.get k := by cases m <;> cases k <;> rfl

@[simp] theorem Quad.set_get {α : Type} (q : Quad α) (m : MachineId) : q.set m (q.get m) = q := by cases m <;> rfl

@[simp] theorem Pair.get_set {α : Type} (q : Pair α) (d k : Side) (v : α) :
    (q.set d v).get k = if d = k then v else q.get k := by cases d <;> cases k <;> rfl

@[simp] theorem Pair.set_get {α : Type} (q : Pair α) (d : Side) : q.set d (q.get d) = q := by cases d <;> rfl

/-! ## Tables numbered from 1 -/

@[simp] theorem upd1_length {α : Type} (f : α → α) (n : Nat) (l : List α) : (upd1 f n l).length = l.length := by
  fun_induction upd1 f n l <;> simp_all

theorem upd1_forall {α : Type} {P : α → Prop} {f : α → α} (hf : ∀ a, P a → P (f a)) (n : Nat) (l : List α)
    (hl : ∀ a ∈ l, P a) : ∀ a ∈ upd1 f n l, P a := by
  fun_induction upd1 f n l <;> simp_all

theorem upd1_map {α β : Type} {g : α → β} {f : α → α} (hf : ∀ a, g (f a) = g a) (n : Nat) (l : List α) :
    (upd1 f n l).map g = l.map g := by
  fun_induction upd1 f n l <;> simp_all

@[simp] theorem nth1_upd1 {α : Type} (f : α → α) (n k : Nat) (l : List α) :
    nth1 (upd1 f n l) k = if n = k then (nth1 l k).map f else nth1 l k := by
  fun_induction upd1 f n l generalizing k with
  | case1 l => cases k <;> simp [nth1]
  | case2 n => cases k <;> simp [nth1]
  | case3 a l => rcases k with _ | _ | k <;> simp [nth1]
  | case4 n a l ih =>
    rcases k with _ | _ | k
    · simp [nth1]
    · simp [nth1]
    · have := ih (k + 1)
      simp only [nth1, List.getElem?_cons_succ] at this ⊢
      rw [this]
      simp

theorem nth1_mem {α : Type} {l : List α} {n : Nat} {a : α} (h : nth1 l n = some a) : a ∈ l := by
  cases n with
  | zero => simp [nth1] at h
  | succ k => exact List.mem_of_getElem? h

namespace State

/-! ## What each setter writes -/

@[simp] theorem updOven_ot (s : State) (n : Nat) (f : OvenRec → OvenRec) : (s.updOven n f).ot = upd1 f n s.ot := rfl
@[simp] theorem updDoor_doors (s : State) (n : Nat) (d : Side) (f : DoorRec → DoorRec) :
    (s.updDoor n d f).dru.doors = upd1 (fun p => p.set d (f (p.get d))) n s.dru.doors := rfl
@[simp] theorem setQueue_queues (s : State) (d : Side) (q : List TaskEntry) :
    (s.setQueue d q).dru.queues = s.dru.queues.set d q := rfl
@[simp] theorem updRound_rounds (s : State) (d : Side) (f : Inspection → Inspection) :
    (s.updRound d f).dru.rounds = s.dru.rounds.set d (f (s.dru.rounds.get d)) := rfl
@[simp] theorem updSec_sections (s : State) (k : Nat) (f : SecRec → SecRec) :
    (s.updSec k f).ofu.sections = upd1 f k s.ofu.sections := rfl
@[simp] theorem updGate_gates (s : State) (k : Nat) (f : Gate → Gate) :
    (s.updGate k f).ofu.gates = upd1 f k s.ofu.gates := rfl
@[simp] theorem setValves_queue (s : State) (q : List ValveEntry) : (s.setValves q).ofu.queue = q := rfl
@[simp] theorem setBay_bays (s : State) (b : Nat) (r : BayRec) :
    (s.setBay b r).qnu.bays = upd1 (fun _ => r) b s.qnu.bays := rfl
@[simp] theorem updCar_car (s : State) (f : CarRec → CarRec) : (s.updCar f).qnu.car = f s.qnu.car := rfl
@[simp] theorem updLoad_load (s : State) (f : LoadRec → LoadRec) : (s.updLoad f).qnu.load = s.qnu.load.map f := rfl
@[simp] theorem setPhase_phase (s : State) (t : Option Nat) : (s.setPhase t).qnu.phase = t := rfl
@[simp] theorem updTerm_trm (s : State) (t : Nat) (f : TermRec → TermRec) : (s.updTerm t f).trm = upd1 f (t + 1) s.trm := rfl
@[simp] theorem updLink_mach (s : State) (m : MachineId) (f : MLink → MLink) :
    (s.updLink m f).lnk.mach = s.lnk.mach.set m (f (s.lnk.mach.get m)) := rfl
@[simp] theorem updMachine_machines (s : State) (m : MachineId) (f : MachineRec → MachineRec) :
    (s.updMachine m f).ilk.machines = s.ilk.machines.set m (f (s.ilk.machines.get m)) := rfl
@[simp] theorem setPermit_permits (s : State) (m : MachineId) (p : Option Permit) :
    (s.setPermit m p).ilk.permits = s.ilk.permits.set m p := rfl
@[simp] theorem setPush_push (s : State) (p : Option PushRec) : (s.setPush p).ilk.push = p := rfl
@[simp] theorem updPush_push (s : State) (f : PushRec → PushRec) : (s.updPush f).ilk.push = s.ilk.push.map f := rfl
@[simp] theorem updPlan_pln (s : State) (f : Planner → Planner) : (s.updPlan f).pln = f s.pln := rfl
@[simp] theorem load_loaded (s : State) (f : Loaded → Loaded) : (s.load f).cfg.loaded = f s.cfg.loaded := rfl
@[simp] theorem pushAnswer_answers (s : State) (tag : Byte) (r : Reply) :
    (s.pushAnswer tag r).lnk.sup.answers = s.lnk.sup.answers ++ [⟨tag, r, 0⟩] := rfl

/-! ## A step that hands back its state -/

@[simp] theorem refuse_fst (s : State) (c : ResultCode) : (s.refuse c).1 = s := rfl
@[simp] theorem ok_fst (s : State) : s.ok.1 = s := rfl
@[simp] theorem answer_fst (s : State) (d : AnswerData) : (s.answer d).1 = s := rfl

end State

end Sys2Proof.Machine
end

