-- ==== Sys2Proof/Laws/FramesA.lean ====
section
/-! SUPPORT. Frames: what the shared operations, permits, the quench unit and valve work leave unchanged. One lemma per operation, a
conjunction that simp reads as one rewrite rule per field. -/

set_option linter.all false

namespace Sys2Proof.Machine

open Sys2Proof

namespace State

@[simp] theorem updOven_frame (s : State) (n : Nat) (f : OvenRec → OvenRec) :
    (s.updOven n f).tb = s.tb ∧ (s.updOven n f).pln = s.pln ∧ (s.updOven n f).ilk = s.ilk ∧
    (s.updOven n f).dru = s.dru ∧ (s.updOven n f).ofu = s.ofu ∧ (s.updOven n f).qnu = s.qnu ∧
    (s.updOven n f).trm = s.trm ∧ (s.updOven n f).lnk = s.lnk ∧ (s.updOven n f).cfg = s.cfg ∧
    (s.updOven n f).pending = s.pending := by
  unfold updOven
  try dsimp only
  (repeat' split) <;> simp

@[simp] theorem updDoor_frame (s : State) (n : Nat) (d : Side) (f : DoorRec → DoorRec) :
    (s.updDoor n d f).tb = s.tb ∧ (s.updDoor n d f).ot = s.ot ∧ (s.updDoor n d f).pln = s.pln ∧
    (s.updDoor n d f).ilk = s.ilk ∧ (s.updDoor n d f).dru.queues = s.dru.queues ∧
    (s.updDoor n d f).dru.rounds = s.dru.rounds ∧ (s.updDoor n d f).dru.vals = s.dru.vals ∧
    (s.updDoor n d f).ofu = s.ofu ∧ (s.updDoor n d f).qnu = s.qnu ∧ (s.updDoor n d f).trm = s.trm ∧
    (s.updDoor n d f).lnk = s.lnk ∧ (s.updDoor n d f).cfg = s.cfg ∧ (s.updDoor n d f).pending = s.pending := by
  unfold updDoor
  try dsimp only
  (repeat' split) <;> simp

@[simp] theorem setQueue_frame (s : State) (d : Side) (q : List TaskEntry) :
    (s.setQueue d q).tb = s.tb ∧ (s.setQueue d q).ot = s.ot ∧ (s.setQueue d q).pln = s.pln ∧
    (s.setQueue d q).ilk = s.ilk ∧ (s.setQueue d q).dru.doors = s.dru.doors ∧
    (s.setQueue d q).dru.rounds = s.dru.rounds ∧ (s.setQueue d q).dru.vals = s.dru.vals ∧
    (s.setQueue d q).ofu = s.ofu ∧ (s.setQueue d q).qnu = s.qnu ∧ (s.setQueue d q).trm = s.trm ∧
    (s.setQueue d q).lnk = s.lnk ∧ (s.setQueue d q).cfg = s.cfg ∧ (s.setQueue d q).pending = s.pending := by
  unfold setQueue
  try dsimp only
  (repeat' split) <;> simp

@[simp] theorem updRound_frame (s : State) (d : Side) (f : Inspection → Inspection) :
    (s.updRound d f).tb = s.tb ∧ (s.updRound d f).ot = s.ot ∧ (s.updRound d f).pln = s.pln ∧
    (s.updRound d f).ilk = s.ilk ∧ (s.updRound d f).dru.doors = s.dru.doors ∧
    (s.updRound d f).dru.queues = s.dru.queues ∧ (s.updRound d f).dru.vals = s.dru.vals ∧
    (s.updRound d f).ofu = s.ofu ∧ (s.updRound d f).qnu = s.qnu ∧ (s.updRound d f).trm = s.trm ∧
    (s.updRound d f).lnk = s.lnk ∧ (s.updRound d f).cfg = s.cfg ∧ (s.updRound d f).pending = s.pending := by
  unfold updRound
  try dsimp only
  (repeat' split) <;> simp

@[simp] theorem updSec_frame (s : State) (k : Nat) (f : SecRec → SecRec) :
    (s.updSec k f).tb = s.tb ∧ (s.updSec k f).ot = s.ot ∧ (s.updSec k f).pln = s.pln ∧ (s.updSec k f).ilk = s.ilk ∧
    (s.updSec k f).dru = s.dru ∧ (s.updSec k f).ofu.gates = s.ofu.gates ∧ (s.updSec k f).ofu.valves = s.ofu.valves ∧
    (s.updSec k f).ofu.queue = s.ofu.queue ∧ (s.updSec k f).ofu.heldOffers = s.ofu.heldOffers ∧
    (s.updSec k f).ofu.iso = s.ofu.iso ∧ (s.updSec k f).ofu.charges = s.ofu.charges ∧ (s.updSec k f).qnu = s.qnu ∧
    (s.updSec k f).trm = s.trm ∧ (s.updSec k f).lnk = s.lnk ∧ (s.updSec k f).cfg = s.cfg ∧
    (s.updSec k f).pending = s.pending := by
  unfold updSec
  try dsimp only
  (repeat' split) <;> simp

@[simp] theorem setBay_frame (s : State) (b : Nat) (r : BayRec) :
    (s.setBay b r).tb = s.tb ∧ (s.setBay b r).ot = s.ot ∧ (s.setBay b r).pln = s.pln ∧ (s.setBay b r).ilk = s.ilk ∧
    (s.setBay b r).dru = s.dru ∧ (s.setBay b r).ofu = s.ofu ∧ (s.setBay b r).qnu.car = s.qnu.car ∧
    (s.setBay b r).qnu.blocked = s.qnu.blocked ∧ (s.setBay b r).qnu.load = s.qnu.load ∧
    (s.setBay b r).qnu.phase = s.qnu.phase ∧ (s.setBay b r).qnu.free = s.qnu.free ∧
    (s.setBay b r).qnu.discharge = s.qnu.discharge ∧ (s.setBay b r).qnu.vals = s.qnu.vals ∧
    (s.setBay b r).trm = s.trm ∧ (s.setBay b r).lnk = s.lnk ∧ (s.setBay b r).cfg = s.cfg ∧
    (s.setBay b r).pending = s.pending := by
  unfold setBay
  try dsimp only
  (repeat' split) <;> simp

@[simp] theorem updTerm_frame (s : State) (t : Nat) (f : TermRec → TermRec) :
    (s.updTerm t f).tb = s.tb ∧ (s.updTerm t f).ot = s.ot ∧ (s.updTerm t f).pln = s.pln ∧
    (s.updTerm t f).ilk = s.ilk ∧ (s.updTerm t f).dru = s.dru ∧ (s.updTerm t f).ofu = s.ofu ∧
    (s.updTerm t f).qnu = s.qnu ∧ (s.updTerm t f).lnk = s.lnk ∧ (s.updTerm t f).cfg = s.cfg ∧
    (s.updTerm t f).pending = s.pending := by
  unfold updTerm
  try dsimp only
  (repeat' split) <;> simp

@[simp] theorem updLink_frame (s : State) (m : MachineId) (f : MLink → MLink) :
    (s.updLink m f).tb = s.tb ∧ (s.updLink m f).ot = s.ot ∧ (s.updLink m f).pln = s.pln ∧
    (s.updLink m f).ilk = s.ilk ∧ (s.updLink m f).dru = s.dru ∧ (s.updLink m f).ofu = s.ofu ∧
    (s.updLink m f).qnu = s.qnu ∧ (s.updLink m f).trm = s.trm ∧ (s.updLink m f).lnk.sup = s.lnk.sup ∧
    (s.updLink m f).cfg = s.cfg ∧ (s.updLink m f).pending = s.pending := by
  unfold updLink
  try dsimp only
  (repeat' split) <;> simp

@[simp] theorem updPort_frame (s : State) (l : LinkId) (f : Port → Port) :
    (s.updPort l f).tb = s.tb ∧ (s.updPort l f).ot = s.ot ∧ (s.updPort l f).pln = s.pln ∧
    (s.updPort l f).ilk = s.ilk ∧ (s.updPort l f).dru = s.dru ∧ (s.updPort l f).ofu = s.ofu ∧
    (s.updPort l f).qnu = s.qnu ∧ (s.updPort l f).trm = s.trm ∧ (s.updPort l f).lnk.sup.answers = s.lnk.sup.answers ∧
    (s.updPort l f).lnk.sup.sending = s.lnk.sup.sending ∧ (s.updPort l f).lnk.sup.line = s.lnk.sup.line ∧
    (s.updPort l f).lnk.sup.notices = s.lnk.sup.notices ∧
    (s.updPort l f).lnk.sup.noticesLost = s.lnk.sup.noticesLost ∧
    (∀ j, (((s.updPort l f)).lnk.mach.get j).test = (s.lnk.mach.get j).test) ∧ (s.updPort l f).cfg = s.cfg ∧
    (s.updPort l f).pending = s.pending := by
  cases l <;> simp [updPort, updLink]
  intro j
  split <;> simp_all

@[simp] theorem updMachine_frame (s : State) (m : MachineId) (f : MachineRec → MachineRec) :
    (s.updMachine m f).tb = s.tb ∧ (s.updMachine m f).ot = s.ot ∧ (s.updMachine m f).pln = s.pln ∧
    (s.updMachine m f).ilk.permits = s.ilk.permits ∧ (s.updMachine m f).ilk.stop = s.ilk.stop ∧
    (s.updMachine m f).ilk.holdCause = s.ilk.holdCause ∧ (s.updMachine m f).ilk.lastRam = s.ilk.lastRam ∧
    (s.updMachine m f).ilk.push = s.ilk.push ∧ (s.updMachine m f).dru = s.dru ∧ (s.updMachine m f).ofu = s.ofu ∧
    (s.updMachine m f).qnu = s.qnu ∧ (s.updMachine m f).trm = s.trm ∧ (s.updMachine m f).lnk = s.lnk ∧
    (s.updMachine m f).cfg = s.cfg ∧ (s.updMachine m f).pending = s.pending := by
  unfold updMachine
  try dsimp only
  (repeat' split) <;> simp

@[simp] theorem setPermit_frame (s : State) (m : MachineId) (p : Option Permit) :
    (s.setPermit m p).tb = s.tb ∧ (s.setPermit m p).ot = s.ot ∧ (s.setPermit m p).pln = s.pln ∧
    (s.setPermit m p).ilk.machines = s.ilk.machines ∧ (s.setPermit m p).ilk.stop = s.ilk.stop ∧
    (s.setPermit m p).ilk.holdCause = s.ilk.holdCause ∧ (s.setPermit m p).ilk.lastRam = s.ilk.lastRam ∧
    (s.setPermit m p).ilk.push = s.ilk.push ∧ (s.setPermit m p).dru = s.dru ∧ (s.setPermit m p).ofu = s.ofu ∧
    (s.setPermit m p).qnu = s.qnu ∧ (s.setPermit m p).trm = s.trm ∧ (s.setPermit m p).lnk = s.lnk ∧
    (s.setPermit m p).cfg = s.cfg ∧ (s.setPermit m p).pending = s.pending := by
  unfold setPermit
  try dsimp only
  (repeat' split) <;> simp

@[simp] theorem setPush_frame (s : State) (p : Option PushRec) :
    (s.setPush p).tb = s.tb ∧ (s.setPush p).ot = s.ot ∧ (s.setPush p).pln = s.pln ∧
    (s.setPush p).ilk.machines = s.ilk.machines ∧ (s.setPush p).ilk.permits = s.ilk.permits ∧
    (s.setPush p).ilk.stop = s.ilk.stop ∧ (s.setPush p).ilk.holdCause = s.ilk.holdCause ∧
    (s.setPush p).ilk.lastRam = s.ilk.lastRam ∧ (s.setPush p).dru = s.dru ∧ (s.setPush p).ofu = s.ofu ∧
    (s.setPush p).qnu = s.qnu ∧ (s.setPush p).trm = s.trm ∧ (s.setPush p).lnk = s.lnk ∧ (s.setPush p).cfg = s.cfg ∧
    (s.setPush p).pending = s.pending := by
  unfold setPush
  try dsimp only
  (repeat' split) <;> simp

@[simp] theorem raise_frame (s : State) (b : NoticeBody) :
    (s.raise b).tb = s.tb ∧ (s.raise b).ot = s.ot ∧ (s.raise b).pln = s.pln ∧ (s.raise b).ilk = s.ilk ∧
    (s.raise b).dru = s.dru ∧ (s.raise b).ofu = s.ofu ∧ (s.raise b).qnu = s.qnu ∧ (s.raise b).trm = s.trm ∧
    (s.raise b).lnk.sup.port = s.lnk.sup.port ∧ (s.raise b).lnk.sup.answers = s.lnk.sup.answers ∧
    (s.raise b).lnk.sup.sending = s.lnk.sup.sending ∧ (s.raise b).lnk.sup.line = s.lnk.sup.line ∧
    (s.raise b).lnk.mach = s.lnk.mach ∧ (s.raise b).cfg = s.cfg ∧ (s.raise b).pending = s.pending := by
  unfold raise
  try dsimp only
  (repeat' split) <;> simp

@[simp] theorem send_frame (s : State) (m : MachineId) (f : MFrame) :
    (s.send m f).tb = s.tb ∧ (s.send m f).ot = s.ot ∧ (s.send m f).pln = s.pln ∧ (s.send m f).ilk = s.ilk ∧
    (s.send m f).dru = s.dru ∧ (s.send m f).ofu = s.ofu ∧ (s.send m f).qnu = s.qnu ∧ (s.send m f).trm = s.trm ∧
    (s.send m f).lnk.sup.port = s.lnk.sup.port ∧ (s.send m f).lnk.sup.answers = s.lnk.sup.answers ∧
    (s.send m f).lnk.sup.sending = s.lnk.sup.sending ∧ (s.send m f).lnk.sup.line = s.lnk.sup.line ∧
    (∀ j, ((s.send m f).lnk.mach.get j).port = (s.lnk.mach.get j).port) ∧
    (∀ j, ((s.send m f).lnk.mach.get j).test = (s.lnk.mach.get j).test) ∧
    (s.send m f).cfg = s.cfg ∧ (s.send m f).pending = s.pending := by
  unfold send raise
  dsimp only
  (repeat' split) <;> simp [updLink] <;> (try constructor) <;> intro k <;> split <;> simp_all

@[simp] theorem sendIfOnline_frame (s : State) (m : MachineId) (f : MFrame) :
    (s.sendIfOnline m f).tb = s.tb ∧ (s.sendIfOnline m f).ot = s.ot ∧ (s.sendIfOnline m f).pln = s.pln ∧
    (s.sendIfOnline m f).ilk = s.ilk ∧ (s.sendIfOnline m f).dru = s.dru ∧ (s.sendIfOnline m f).ofu = s.ofu ∧
    (s.sendIfOnline m f).qnu = s.qnu ∧ (s.sendIfOnline m f).trm = s.trm ∧
    (s.sendIfOnline m f).lnk.sup.port = s.lnk.sup.port ∧ (s.sendIfOnline m f).lnk.sup.answers = s.lnk.sup.answers ∧
    (s.sendIfOnline m f).lnk.sup.sending = s.lnk.sup.sending ∧ (s.sendIfOnline m f).lnk.sup.line = s.lnk.sup.line ∧
    (∀ j, (((s.sendIfOnline m f)).lnk.mach.get j).port = (s.lnk.mach.get j).port) ∧
    (∀ j, (((s.sendIfOnline m f)).lnk.mach.get j).test = (s.lnk.mach.get j).test) ∧ (s.sendIfOnline m f).cfg = s.cfg ∧
    (s.sendIfOnline m f).pending = s.pending := by
  unfold sendIfOnline
  try dsimp only
  (repeat' split) <;> simp

@[simp] theorem sendAllOnline_frame (s : State) (f : MFrame) :
    (s.sendAllOnline f).tb = s.tb ∧ (s.sendAllOnline f).ot = s.ot ∧ (s.sendAllOnline f).pln = s.pln ∧
    (s.sendAllOnline f).ilk = s.ilk ∧ (s.sendAllOnline f).dru = s.dru ∧ (s.sendAllOnline f).ofu = s.ofu ∧
    (s.sendAllOnline f).qnu = s.qnu ∧ (s.sendAllOnline f).trm = s.trm ∧
    (s.sendAllOnline f).lnk.sup.port = s.lnk.sup.port ∧ (s.sendAllOnline f).lnk.sup.answers = s.lnk.sup.answers ∧
    (s.sendAllOnline f).lnk.sup.sending = s.lnk.sup.sending ∧ (s.sendAllOnline f).lnk.sup.line = s.lnk.sup.line ∧
    (∀ j, (((s.sendAllOnline f)).lnk.mach.get j).port = (s.lnk.mach.get j).port) ∧
    (∀ j, (((s.sendAllOnline f)).lnk.mach.get j).test = (s.lnk.mach.get j).test) ∧ (s.sendAllOnline f).cfg = s.cfg ∧
    (s.sendAllOnline f).pending = s.pending := by
  unfold sendAllOnline
  try dsimp only
  (repeat' split) <;> simp

@[simp] theorem discard_frame (s : State) (l : LinkId) (c : DiscardCause) :
    (s.discard l c).tb = s.tb ∧ (s.discard l c).ot = s.ot ∧ (s.discard l c).pln = s.pln ∧
    (s.discard l c).ilk = s.ilk ∧ (s.discard l c).dru = s.dru ∧ (s.discard l c).ofu = s.ofu ∧
    (s.discard l c).qnu = s.qnu ∧ (s.discard l c).trm = s.trm ∧ (s.discard l c).lnk.sup.answers = s.lnk.sup.answers ∧
    (s.discard l c).lnk.sup.sending = s.lnk.sup.sending ∧ (s.discard l c).lnk.sup.line = s.lnk.sup.line ∧
    (s.discard l c).lnk.sup.notices = s.lnk.sup.notices ∧
    (s.discard l c).lnk.sup.noticesLost = s.lnk.sup.noticesLost ∧
    (∀ j, (((s.discard l c)).lnk.mach.get j).test = (s.lnk.mach.get j).test) ∧ (s.discard l c).cfg = s.cfg ∧
    (s.discard l c).pending = s.pending := by
  simp [discard]

@[simp] theorem pushAnswer_frame (s : State) (tag : Byte) (r : Reply) :
    (s.pushAnswer tag r).tb = s.tb ∧ (s.pushAnswer tag r).ot = s.ot ∧ (s.pushAnswer tag r).pln = s.pln ∧
    (s.pushAnswer tag r).ilk = s.ilk ∧ (s.pushAnswer tag r).dru = s.dru ∧ (s.pushAnswer tag r).ofu = s.ofu ∧
    (s.pushAnswer tag r).qnu = s.qnu ∧ (s.pushAnswer tag r).trm = s.trm ∧
    (s.pushAnswer tag r).lnk.sup.port = s.lnk.sup.port ∧ (s.pushAnswer tag r).lnk.sup.sending = s.lnk.sup.sending ∧
    (s.pushAnswer tag r).lnk.sup.line = s.lnk.sup.line ∧ (s.pushAnswer tag r).lnk.sup.notices = s.lnk.sup.notices ∧
    (s.pushAnswer tag r).lnk.sup.noticesLost = s.lnk.sup.noticesLost ∧ (s.pushAnswer tag r).lnk.mach = s.lnk.mach ∧
    (s.pushAnswer tag r).cfg = s.cfg ∧ (s.pushAnswer tag r).pending = s.pending := by
  simp [pushAnswer]

@[simp] theorem beginSup_frame (s : State) (f : SFrame) :
    (s.beginSup f).tb = s.tb ∧ (s.beginSup f).ot = s.ot ∧ (s.beginSup f).pln = s.pln ∧ (s.beginSup f).ilk = s.ilk ∧
    (s.beginSup f).dru = s.dru ∧ (s.beginSup f).ofu = s.ofu ∧ (s.beginSup f).qnu = s.qnu ∧
    (s.beginSup f).trm = s.trm ∧ (s.beginSup f).lnk.sup.port = s.lnk.sup.port ∧
    (s.beginSup f).lnk.sup.answers = s.lnk.sup.answers ∧ (s.beginSup f).lnk.sup.notices = s.lnk.sup.notices ∧
    (s.beginSup f).lnk.sup.noticesLost = s.lnk.sup.noticesLost ∧ (s.beginSup f).lnk.mach = s.lnk.mach ∧
    (s.beginSup f).cfg = s.cfg ∧ (s.beginSup f).pending = s.pending := by
  unfold beginSup
  try dsimp only
  (repeat' split) <;> simp

@[simp] theorem roundVisitCheck_frame (s : State) (d : Side) :
    (s.roundVisitCheck d).tb = s.tb ∧ (s.roundVisitCheck d).ot = s.ot ∧ (s.roundVisitCheck d).pln = s.pln ∧
    (s.roundVisitCheck d).ilk = s.ilk ∧ (s.roundVisitCheck d).dru.doors = s.dru.doors ∧
    (s.roundVisitCheck d).dru.queues = s.dru.queues ∧ (s.roundVisitCheck d).dru.vals = s.dru.vals ∧
    (s.roundVisitCheck d).ofu = s.ofu ∧ (s.roundVisitCheck d).qnu = s.qnu ∧ (s.roundVisitCheck d).trm = s.trm ∧
    (s.roundVisitCheck d).lnk.sup.port = s.lnk.sup.port ∧ (s.roundVisitCheck d).lnk.sup.answers = s.lnk.sup.answers ∧
    (s.roundVisitCheck d).lnk.sup.sending = s.lnk.sup.sending ∧ (s.roundVisitCheck d).lnk.sup.line = s.lnk.sup.line ∧
    (∀ j, (((s.roundVisitCheck d)).lnk.mach.get j).port = (s.lnk.mach.get j).port) ∧
    (∀ j, (((s.roundVisitCheck d)).lnk.mach.get j).test = (s.lnk.mach.get j).test) ∧
    (s.roundVisitCheck d).cfg = s.cfg ∧ (s.roundVisitCheck d).pending = s.pending := by
  unfold roundVisitCheck
  try dsimp only
  (repeat' split) <;> simp

@[simp] theorem dispatchDoor_frame (s : State) (d : Side) :
    (s.dispatchDoor d).tb = s.tb ∧ (s.dispatchDoor d).ot = s.ot ∧ (s.dispatchDoor d).pln = s.pln ∧
    (s.dispatchDoor d).ilk = s.ilk ∧ (s.dispatchDoor d).dru.doors = s.dru.doors ∧
    (s.dispatchDoor d).dru.vals = s.dru.vals ∧ (s.dispatchDoor d).ofu = s.ofu ∧ (s.dispatchDoor d).qnu = s.qnu ∧
    (s.dispatchDoor d).trm = s.trm ∧ (s.dispatchDoor d).lnk.sup.port = s.lnk.sup.port ∧
    (s.dispatchDoor d).lnk.sup.answers = s.lnk.sup.answers ∧ (s.dispatchDoor d).lnk.sup.sending = s.lnk.sup.sending ∧
    (s.dispatchDoor d).lnk.sup.line = s.lnk.sup.line ∧
    (∀ j, (((s.dispatchDoor d)).lnk.mach.get j).port = (s.lnk.mach.get j).port) ∧
    (∀ j, (((s.dispatchDoor d)).lnk.mach.get j).test = (s.lnk.mach.get j).test) ∧ (s.dispatchDoor d).cfg = s.cfg ∧
    (s.dispatchDoor d).pending = s.pending := by
  unfold dispatchDoor
  try dsimp only
  (repeat' split) <;> simp

@[simp] theorem dispatchValve_frame (s : State) :
    s.dispatchValve.tb = s.tb ∧ s.dispatchValve.ot = s.ot ∧ s.dispatchValve.pln = s.pln ∧
    s.dispatchValve.ilk = s.ilk ∧ s.dispatchValve.dru = s.dru ∧ s.dispatchValve.ofu.sections = s.ofu.sections ∧
    s.dispatchValve.ofu.gates = s.ofu.gates ∧ s.dispatchValve.ofu.valves = s.ofu.valves ∧
    s.dispatchValve.ofu.heldOffers = s.ofu.heldOffers ∧ s.dispatchValve.ofu.iso = s.ofu.iso ∧
    s.dispatchValve.ofu.charges = s.ofu.charges ∧ s.dispatchValve.qnu = s.qnu ∧ s.dispatchValve.trm = s.trm ∧
    s.dispatchValve.lnk.sup.port = s.lnk.sup.port ∧ s.dispatchValve.lnk.sup.answers = s.lnk.sup.answers ∧
    s.dispatchValve.lnk.sup.sending = s.lnk.sup.sending ∧ s.dispatchValve.lnk.sup.line = s.lnk.sup.line ∧
    (∀ j, ((s.dispatchValve).lnk.mach.get j).port = (s.lnk.mach.get j).port) ∧
    (∀ j, ((s.dispatchValve).lnk.mach.get j).test = (s.lnk.mach.get j).test) ∧ s.dispatchValve.cfg = s.cfg ∧
    s.dispatchValve.pending = s.pending := by
  unfold dispatchValve
  try dsimp only
  (repeat' split) <;> simp

@[simp] theorem dispatchFor_frame (s : State) (x0 : MachineId) :
    (s.dispatchFor x0).tb = s.tb ∧ (s.dispatchFor x0).ot = s.ot ∧ (s.dispatchFor x0).pln = s.pln ∧
    (s.dispatchFor x0).ilk = s.ilk ∧ (s.dispatchFor x0).dru.doors = s.dru.doors ∧
    (s.dispatchFor x0).dru.vals = s.dru.vals ∧ (s.dispatchFor x0).ofu.sections = s.ofu.sections ∧
    (s.dispatchFor x0).ofu.gates = s.ofu.gates ∧ (s.dispatchFor x0).ofu.valves = s.ofu.valves ∧
    (s.dispatchFor x0).ofu.heldOffers = s.ofu.heldOffers ∧ (s.dispatchFor x0).ofu.iso = s.ofu.iso ∧
    (s.dispatchFor x0).ofu.charges = s.ofu.charges ∧ (s.dispatchFor x0).qnu = s.qnu ∧ (s.dispatchFor x0).trm = s.trm ∧
    (s.dispatchFor x0).lnk.sup.port = s.lnk.sup.port ∧ (s.dispatchFor x0).lnk.sup.answers = s.lnk.sup.answers ∧
    (s.dispatchFor x0).lnk.sup.sending = s.lnk.sup.sending ∧ (s.dispatchFor x0).lnk.sup.line = s.lnk.sup.line ∧
    (∀ j, (((s.dispatchFor x0)).lnk.mach.get j).port = (s.lnk.mach.get j).port) ∧
    (∀ j, (((s.dispatchFor x0)).lnk.mach.get j).test = (s.lnk.mach.get j).test) ∧ (s.dispatchFor x0).cfg = s.cfg ∧
    (s.dispatchFor x0).pending = s.pending := by
  unfold dispatchFor
  try dsimp only
  (repeat' split) <;> simp

@[simp] theorem disarm_frame (s : State) :
    s.disarm.tb = s.tb ∧ s.disarm.ot = s.ot ∧ s.disarm.pln = s.pln ∧ s.disarm.ilk.machines = s.ilk.machines ∧
    s.disarm.ilk.permits = s.ilk.permits ∧ s.disarm.ilk.stop = s.ilk.stop ∧ s.disarm.ilk.holdCause = s.ilk.holdCause ∧
    s.disarm.ilk.lastRam = s.ilk.lastRam ∧ s.disarm.dru = s.dru ∧ s.disarm.ofu = s.ofu ∧ s.disarm.qnu = s.qnu ∧
    s.disarm.trm = s.trm ∧ s.disarm.lnk = s.lnk ∧ s.disarm.cfg = s.cfg ∧ s.disarm.pending = s.pending := by
  unfold disarm
  try dsimp only
  (repeat' split) <;> simp

@[simp] theorem revoke_frame (s : State) (m : MachineId) (r : Reason) :
    (s.revoke m r).tb = s.tb ∧ (s.revoke m r).ot = s.ot ∧ (s.revoke m r).pln = s.pln ∧
    (s.revoke m r).ilk.machines = s.ilk.machines ∧ (s.revoke m r).ilk.stop = s.ilk.stop ∧
    (s.revoke m r).ilk.holdCause = s.ilk.holdCause ∧ (s.revoke m r).ilk.lastRam = s.ilk.lastRam ∧
    (s.revoke m r).dru.doors = s.dru.doors ∧ (s.revoke m r).dru.vals = s.dru.vals ∧
    (s.revoke m r).ofu.sections = s.ofu.sections ∧ (s.revoke m r).ofu.gates = s.ofu.gates ∧
    (s.revoke m r).ofu.valves = s.ofu.valves ∧ (s.revoke m r).ofu.heldOffers = s.ofu.heldOffers ∧
    (s.revoke m r).ofu.iso = s.ofu.iso ∧ (s.revoke m r).ofu.charges = s.ofu.charges ∧ (s.revoke m r).qnu = s.qnu ∧
    (s.revoke m r).trm = s.trm ∧ (s.revoke m r).lnk.sup.port = s.lnk.sup.port ∧
    (s.revoke m r).lnk.sup.answers = s.lnk.sup.answers ∧ (s.revoke m r).lnk.sup.sending = s.lnk.sup.sending ∧
    (s.revoke m r).lnk.sup.line = s.lnk.sup.line ∧
    (∀ j, (((s.revoke m r)).lnk.mach.get j).port = (s.lnk.mach.get j).port) ∧
    (∀ j, (((s.revoke m r)).lnk.mach.get j).test = (s.lnk.mach.get j).test) ∧ (s.revoke m r).cfg = s.cfg ∧
    (s.revoke m r).pending = s.pending := by
  unfold revoke
  try dsimp only
  (repeat' split) <;> simp

@[simp] theorem revokeAll_frame (s : State) (r : Reason) :
    (s.revokeAll r).tb = s.tb ∧ (s.revokeAll r).ot = s.ot ∧ (s.revokeAll r).pln = s.pln ∧
    (s.revokeAll r).ilk.machines = s.ilk.machines ∧ (s.revokeAll r).ilk.stop = s.ilk.stop ∧
    (s.revokeAll r).ilk.holdCause = s.ilk.holdCause ∧ (s.revokeAll r).ilk.lastRam = s.ilk.lastRam ∧
    (s.revokeAll r).dru.doors = s.dru.doors ∧ (s.revokeAll r).dru.vals = s.dru.vals ∧
    (s.revokeAll r).ofu.sections = s.ofu.sections ∧ (s.revokeAll r).ofu.gates = s.ofu.gates ∧
    (s.revokeAll r).ofu.valves = s.ofu.valves ∧ (s.revokeAll r).ofu.heldOffers = s.ofu.heldOffers ∧
    (s.revokeAll r).ofu.iso = s.ofu.iso ∧ (s.revokeAll r).ofu.charges = s.ofu.charges ∧ (s.revokeAll r).qnu = s.qnu ∧
    (s.revokeAll r).trm = s.trm ∧ (s.revokeAll r).lnk.sup.port = s.lnk.sup.port ∧
    (s.revokeAll r).lnk.sup.answers = s.lnk.sup.answers ∧ (s.revokeAll r).lnk.sup.sending = s.lnk.sup.sending ∧
    (s.revokeAll r).lnk.sup.line = s.lnk.sup.line ∧
    (∀ j, (((s.revokeAll r)).lnk.mach.get j).port = (s.lnk.mach.get j).port) ∧
    (∀ j, (((s.revokeAll r)).lnk.mach.get j).test = (s.lnk.mach.get j).test) ∧ (s.revokeAll r).cfg = s.cfg ∧
    (s.revokeAll r).pending = s.pending := by
  unfold revokeAll
  try dsimp only
  (repeat' split) <;> simp

@[simp] theorem retestOne_frame (s : State) (m : MachineId) :
    (s.retestOne m).tb = s.tb ∧ (s.retestOne m).ot = s.ot ∧ (s.retestOne m).pln = s.pln ∧
    (s.retestOne m).ilk.machines = s.ilk.machines ∧ (s.retestOne m).ilk.stop = s.ilk.stop ∧
    (s.retestOne m).ilk.holdCause = s.ilk.holdCause ∧ (s.retestOne m).ilk.lastRam = s.ilk.lastRam ∧
    (s.retestOne m).dru.doors = s.dru.doors ∧ (s.retestOne m).dru.vals = s.dru.vals ∧
    (s.retestOne m).ofu.sections = s.ofu.sections ∧ (s.retestOne m).ofu.gates = s.ofu.gates ∧
    (s.retestOne m).ofu.valves = s.ofu.valves ∧ (s.retestOne m).ofu.heldOffers = s.ofu.heldOffers ∧
    (s.retestOne m).ofu.iso = s.ofu.iso ∧ (s.retestOne m).ofu.charges = s.ofu.charges ∧ (s.retestOne m).qnu = s.qnu ∧
    (s.retestOne m).trm = s.trm ∧ (s.retestOne m).lnk.sup.port = s.lnk.sup.port ∧
    (s.retestOne m).lnk.sup.answers = s.lnk.sup.answers ∧ (s.retestOne m).lnk.sup.sending = s.lnk.sup.sending ∧
    (s.retestOne m).lnk.sup.line = s.lnk.sup.line ∧
    (∀ j, (((s.retestOne m)).lnk.mach.get j).port = (s.lnk.mach.get j).port) ∧
    (∀ j, (((s.retestOne m)).lnk.mach.get j).test = (s.lnk.mach.get j).test) ∧ (s.retestOne m).cfg = s.cfg ∧
    (s.retestOne m).pending = s.pending := by
  unfold retestOne
  try dsimp only
  (repeat' split) <;> simp

@[simp] theorem retest_frame (s : State) :
    s.retest.tb = s.tb ∧ s.retest.ot = s.ot ∧ s.retest.pln = s.pln ∧ s.retest.ilk.machines = s.ilk.machines ∧
    s.retest.ilk.stop = s.ilk.stop ∧ s.retest.ilk.holdCause = s.ilk.holdCause ∧ s.retest.ilk.lastRam = s.ilk.lastRam ∧
    s.retest.dru.doors = s.dru.doors ∧ s.retest.dru.vals = s.dru.vals ∧ s.retest.ofu.sections = s.ofu.sections ∧
    s.retest.ofu.gates = s.ofu.gates ∧ s.retest.ofu.valves = s.ofu.valves ∧
    s.retest.ofu.heldOffers = s.ofu.heldOffers ∧ s.retest.ofu.iso = s.ofu.iso ∧ s.retest.ofu.charges = s.ofu.charges ∧
    s.retest.qnu = s.qnu ∧ s.retest.trm = s.trm ∧ s.retest.lnk.sup.port = s.lnk.sup.port ∧
    s.retest.lnk.sup.answers = s.lnk.sup.answers ∧ s.retest.lnk.sup.sending = s.lnk.sup.sending ∧
    s.retest.lnk.sup.line = s.lnk.sup.line ∧ (∀ j, ((s.retest).lnk.mach.get j).port = (s.lnk.mach.get j).port) ∧
    (∀ j, ((s.retest).lnk.mach.get j).test = (s.lnk.mach.get j).test) ∧ s.retest.cfg = s.cfg ∧
    s.retest.pending = s.pending := by
  unfold retest
  try dsimp only
  (repeat' split) <;> simp

@[simp] theorem grant_frame (s : State) (m : MachineId) (k : PermitKind) (n : Nat) :
    (s.grant m k n).tb = s.tb ∧ (s.grant m k n).ot = s.ot ∧ (s.grant m k n).pln = s.pln ∧
    (s.grant m k n).ilk.machines = s.ilk.machines ∧ (s.grant m k n).ilk.stop = s.ilk.stop ∧
    (s.grant m k n).ilk.holdCause = s.ilk.holdCause ∧ (s.grant m k n).ilk.lastRam = s.ilk.lastRam ∧
    (s.grant m k n).dru = s.dru ∧ (s.grant m k n).ofu = s.ofu ∧ (s.grant m k n).qnu = s.qnu ∧
    (s.grant m k n).trm = s.trm ∧ (s.grant m k n).lnk.sup.port = s.lnk.sup.port ∧
    (s.grant m k n).lnk.sup.answers = s.lnk.sup.answers ∧ (s.grant m k n).lnk.sup.sending = s.lnk.sup.sending ∧
    (s.grant m k n).lnk.sup.line = s.lnk.sup.line ∧
    (∀ j, (((s.grant m k n)).lnk.mach.get j).port = (s.lnk.mach.get j).port) ∧
    (∀ j, (((s.grant m k n)).lnk.mach.get j).test = (s.lnk.mach.get j).test) ∧ (s.grant m k n).cfg = s.cfg ∧
    (s.grant m k n).pending = s.pending := by
  unfold grant
  dsimp only
  split <;> simp

@[simp] theorem decideRequest_frame (s : State) (m : MachineId) (k : ReqKind) (n : Nat) :
    (s.decideRequest m k n).tb = s.tb ∧ (s.decideRequest m k n).ot = s.ot ∧ (s.decideRequest m k n).pln = s.pln ∧
    (s.decideRequest m k n).ilk.machines = s.ilk.machines ∧ (s.decideRequest m k n).ilk.stop = s.ilk.stop ∧
    (s.decideRequest m k n).ilk.holdCause = s.ilk.holdCause ∧ (s.decideRequest m k n).ilk.lastRam = s.ilk.lastRam ∧
    (s.decideRequest m k n).dru = s.dru ∧ (s.decideRequest m k n).ofu = s.ofu ∧ (s.decideRequest m k n).qnu = s.qnu ∧
    (s.decideRequest m k n).trm = s.trm ∧ (s.decideRequest m k n).lnk.sup.port = s.lnk.sup.port ∧
    (s.decideRequest m k n).lnk.sup.answers = s.lnk.sup.answers ∧
    (s.decideRequest m k n).lnk.sup.sending = s.lnk.sup.sending ∧
    (s.decideRequest m k n).lnk.sup.line = s.lnk.sup.line ∧
    (∀ j, (((s.decideRequest m k n)).lnk.mach.get j).port = (s.lnk.mach.get j).port) ∧
    (∀ j, (((s.decideRequest m k n)).lnk.mach.get j).test = (s.lnk.mach.get j).test) ∧
    (s.decideRequest m k n).cfg = s.cfg ∧ (s.decideRequest m k n).pending = s.pending := by
  unfold decideRequest
  try dsimp only
  (repeat' split) <;> simp

@[simp] theorem usePermit_frame (s : State) (m : MachineId) :
    (s.usePermit m).tb = s.tb ∧ (s.usePermit m).ot = s.ot ∧ (s.usePermit m).pln = s.pln ∧
    (s.usePermit m).ilk.machines = s.ilk.machines ∧ (s.usePermit m).ilk.stop = s.ilk.stop ∧
    (s.usePermit m).ilk.holdCause = s.ilk.holdCause ∧ (s.usePermit m).ilk.lastRam = s.ilk.lastRam ∧
    (s.usePermit m).ilk.push = s.ilk.push ∧ (s.usePermit m).dru = s.dru ∧ (s.usePermit m).ofu = s.ofu ∧
    (s.usePermit m).qnu = s.qnu ∧ (s.usePermit m).trm = s.trm ∧ (s.usePermit m).lnk = s.lnk ∧
    (s.usePermit m).cfg = s.cfg ∧ (s.usePermit m).pending = s.pending := by
  unfold usePermit
  try dsimp only
  (repeat' split) <;> simp

@[simp] theorem updCar_frame (s : State) (f : CarRec → CarRec) :
    (s.updCar f).tb = s.tb ∧ (s.updCar f).ot = s.ot ∧ (s.updCar f).pln = s.pln ∧ (s.updCar f).ilk = s.ilk ∧
    (s.updCar f).dru = s.dru ∧ (s.updCar f).ofu = s.ofu ∧ (s.updCar f).qnu.blocked = s.qnu.blocked ∧
    (s.updCar f).qnu.load = s.qnu.load ∧ (s.updCar f).qnu.phase = s.qnu.phase ∧ (s.updCar f).qnu.bays = s.qnu.bays ∧
    (s.updCar f).qnu.free = s.qnu.free ∧ (s.updCar f).qnu.discharge = s.qnu.discharge ∧
    (s.updCar f).qnu.vals = s.qnu.vals ∧ (s.updCar f).trm = s.trm ∧ (s.updCar f).lnk = s.lnk ∧
    (s.updCar f).cfg = s.cfg ∧ (s.updCar f).pending = s.pending := by
  unfold updCar
  try dsimp only
  (repeat' split) <;> simp

@[simp] theorem setCar_frame (s : State) (c : CarState) :
    (s.setCar c).tb = s.tb ∧ (s.setCar c).ot = s.ot ∧ (s.setCar c).pln = s.pln ∧ (s.setCar c).ilk = s.ilk ∧
    (s.setCar c).dru = s.dru ∧ (s.setCar c).ofu = s.ofu ∧ (s.setCar c).qnu.blocked = s.qnu.blocked ∧
    (s.setCar c).qnu.load = s.qnu.load ∧ (s.setCar c).qnu.phase = s.qnu.phase ∧ (s.setCar c).qnu.bays = s.qnu.bays ∧
    (s.setCar c).qnu.free = s.qnu.free ∧ (s.setCar c).qnu.discharge = s.qnu.discharge ∧
    (s.setCar c).qnu.vals = s.qnu.vals ∧ (s.setCar c).trm = s.trm ∧ (s.setCar c).lnk = s.lnk ∧
    (s.setCar c).cfg = s.cfg ∧ (s.setCar c).pending = s.pending := by
  unfold setCar
  try dsimp only
  (repeat' split) <;> simp

@[simp] theorem issueMove_frame (s : State) (dest : MoveDest) :
    (s.issueMove dest).tb = s.tb ∧ (s.issueMove dest).ot = s.ot ∧ (s.issueMove dest).pln = s.pln ∧
    (s.issueMove dest).ilk = s.ilk ∧ (s.issueMove dest).dru = s.dru ∧ (s.issueMove dest).ofu = s.ofu ∧
    (s.issueMove dest).qnu.blocked = s.qnu.blocked ∧ (s.issueMove dest).qnu.load = s.qnu.load ∧
    (s.issueMove dest).qnu.phase = s.qnu.phase ∧ (s.issueMove dest).qnu.bays = s.qnu.bays ∧
    (s.issueMove dest).qnu.free = s.qnu.free ∧ (s.issueMove dest).qnu.discharge = s.qnu.discharge ∧
    (s.issueMove dest).qnu.vals = s.qnu.vals ∧ (s.issueMove dest).trm = s.trm ∧
    (s.issueMove dest).lnk.sup.port = s.lnk.sup.port ∧ (s.issueMove dest).lnk.sup.answers = s.lnk.sup.answers ∧
    (s.issueMove dest).lnk.sup.sending = s.lnk.sup.sending ∧ (s.issueMove dest).lnk.sup.line = s.lnk.sup.line ∧
    (∀ j, (((s.issueMove dest)).lnk.mach.get j).port = (s.lnk.mach.get j).port) ∧
    (∀ j, (((s.issueMove dest)).lnk.mach.get j).test = (s.lnk.mach.get j).test) ∧ (s.issueMove dest).cfg = s.cfg ∧
    (s.issueMove dest).pending = s.pending := by
  unfold issueMove
  try dsimp only
  (repeat' split) <;> simp

@[simp] theorem testMove_frame (s : State) :
    s.testMove.tb = s.tb ∧ s.testMove.ot = s.ot ∧ s.testMove.pln = s.pln ∧ s.testMove.ilk = s.ilk ∧
    s.testMove.dru = s.dru ∧ s.testMove.ofu = s.ofu ∧ s.testMove.qnu.blocked = s.qnu.blocked ∧
    s.testMove.qnu.load = s.qnu.load ∧ s.testMove.qnu.phase = s.qnu.phase ∧ s.testMove.qnu.bays = s.qnu.bays ∧
    s.testMove.qnu.free = s.qnu.free ∧ s.testMove.qnu.discharge = s.qnu.discharge ∧ s.testMove.qnu.vals = s.qnu.vals ∧
    s.testMove.trm = s.trm ∧ s.testMove.lnk.sup.port = s.lnk.sup.port ∧
    s.testMove.lnk.sup.answers = s.lnk.sup.answers ∧ s.testMove.lnk.sup.sending = s.lnk.sup.sending ∧
    s.testMove.lnk.sup.line = s.lnk.sup.line ∧ (∀ j, ((s.testMove).lnk.mach.get j).port = (s.lnk.mach.get j).port) ∧
    (∀ j, ((s.testMove).lnk.mach.get j).test = (s.lnk.mach.get j).test) ∧ s.testMove.cfg = s.cfg ∧
    s.testMove.pending = s.pending := by
  unfold testMove
  try dsimp only
  (repeat' split) <;> simp

@[simp] theorem requestMove_frame (s : State) :
    s.requestMove.tb = s.tb ∧ s.requestMove.ot = s.ot ∧ s.requestMove.pln = s.pln ∧ s.requestMove.ilk = s.ilk ∧
    s.requestMove.dru = s.dru ∧ s.requestMove.ofu = s.ofu ∧ s.requestMove.qnu.blocked = s.qnu.blocked ∧
    s.requestMove.qnu.load = s.qnu.load ∧ s.requestMove.qnu.phase = s.qnu.phase ∧
    s.requestMove.qnu.bays = s.qnu.bays ∧ s.requestMove.qnu.free = s.qnu.free ∧
    s.requestMove.qnu.discharge = s.qnu.discharge ∧ s.requestMove.qnu.vals = s.qnu.vals ∧ s.requestMove.trm = s.trm ∧
    s.requestMove.lnk.sup.port = s.lnk.sup.port ∧ s.requestMove.lnk.sup.answers = s.lnk.sup.answers ∧
    s.requestMove.lnk.sup.sending = s.lnk.sup.sending ∧ s.requestMove.lnk.sup.line = s.lnk.sup.line ∧
    (∀ j, ((s.requestMove).lnk.mach.get j).port = (s.lnk.mach.get j).port) ∧
    (∀ j, ((s.requestMove).lnk.mach.get j).test = (s.lnk.mach.get j).test) ∧ s.requestMove.cfg = s.cfg ∧
    s.requestMove.pending = s.pending := by
  unfold requestMove
  try dsimp only
  (repeat' split) <;> simp

@[simp] theorem sendCar_frame (s : State) (c : CarState) :
    (s.sendCar c).tb = s.tb ∧ (s.sendCar c).ot = s.ot ∧ (s.sendCar c).pln = s.pln ∧
    (s.sendCar c).ilk.machines = s.ilk.machines ∧ (s.sendCar c).ilk.stop = s.ilk.stop ∧
    (s.sendCar c).ilk.holdCause = s.ilk.holdCause ∧ (s.sendCar c).ilk.lastRam = s.ilk.lastRam ∧
    (s.sendCar c).dru.doors = s.dru.doors ∧ (s.sendCar c).dru.vals = s.dru.vals ∧
    (s.sendCar c).ofu.sections = s.ofu.sections ∧ (s.sendCar c).ofu.gates = s.ofu.gates ∧
    (s.sendCar c).ofu.valves = s.ofu.valves ∧ (s.sendCar c).ofu.heldOffers = s.ofu.heldOffers ∧
    (s.sendCar c).ofu.iso = s.ofu.iso ∧ (s.sendCar c).ofu.charges = s.ofu.charges ∧
    (s.sendCar c).qnu.blocked = s.qnu.blocked ∧ (s.sendCar c).qnu.load = s.qnu.load ∧
    (s.sendCar c).qnu.phase = s.qnu.phase ∧ (s.sendCar c).qnu.bays = s.qnu.bays ∧
    (s.sendCar c).qnu.free = s.qnu.free ∧ (s.sendCar c).qnu.discharge = s.qnu.discharge ∧
    (s.sendCar c).qnu.vals = s.qnu.vals ∧ (s.sendCar c).trm = s.trm ∧ (s.sendCar c).lnk.sup.port = s.lnk.sup.port ∧
    (s.sendCar c).lnk.sup.answers = s.lnk.sup.answers ∧ (s.sendCar c).lnk.sup.sending = s.lnk.sup.sending ∧
    (s.sendCar c).lnk.sup.line = s.lnk.sup.line ∧
    (∀ j, (((s.sendCar c)).lnk.mach.get j).port = (s.lnk.mach.get j).port) ∧
    (∀ j, (((s.sendCar c)).lnk.mach.get j).test = (s.lnk.mach.get j).test) ∧ (s.sendCar c).cfg = s.cfg ∧
    (s.sendCar c).pending = s.pending := by
  unfold sendCar
  try dsimp only
  (repeat' split) <;> simp

@[simp] theorem settleCar_frame (s : State) (c : CarState) :
    (s.settleCar c).tb = s.tb ∧ (s.settleCar c).ot = s.ot ∧ (s.settleCar c).pln = s.pln ∧
    (s.settleCar c).ilk.machines = s.ilk.machines ∧ (s.settleCar c).ilk.stop = s.ilk.stop ∧
    (s.settleCar c).ilk.holdCause = s.ilk.holdCause ∧ (s.settleCar c).ilk.lastRam = s.ilk.lastRam ∧
    (s.settleCar c).dru.doors = s.dru.doors ∧ (s.settleCar c).dru.vals = s.dru.vals ∧
    (s.settleCar c).ofu.sections = s.ofu.sections ∧ (s.settleCar c).ofu.gates = s.ofu.gates ∧
    (s.settleCar c).ofu.valves = s.ofu.valves ∧ (s.settleCar c).ofu.heldOffers = s.ofu.heldOffers ∧
    (s.settleCar c).ofu.iso = s.ofu.iso ∧ (s.settleCar c).ofu.charges = s.ofu.charges ∧
    (s.settleCar c).qnu.blocked = s.qnu.blocked ∧ (s.settleCar c).qnu.load = s.qnu.load ∧
    (s.settleCar c).qnu.phase = s.qnu.phase ∧ (s.settleCar c).qnu.bays = s.qnu.bays ∧
    (s.settleCar c).qnu.free = s.qnu.free ∧ (s.settleCar c).qnu.discharge = s.qnu.discharge ∧
    (s.settleCar c).qnu.vals = s.qnu.vals ∧ (s.settleCar c).trm = s.trm ∧
    (s.settleCar c).lnk.sup.port = s.lnk.sup.port ∧ (s.settleCar c).lnk.sup.answers = s.lnk.sup.answers ∧
    (s.settleCar c).lnk.sup.sending = s.lnk.sup.sending ∧ (s.settleCar c).lnk.sup.line = s.lnk.sup.line ∧
    (∀ j, (((s.settleCar c)).lnk.mach.get j).port = (s.lnk.mach.get j).port) ∧
    (∀ j, (((s.settleCar c)).lnk.mach.get j).test = (s.lnk.mach.get j).test) ∧ (s.settleCar c).cfg = s.cfg ∧
    (s.settleCar c).pending = s.pending := by
  unfold settleCar
  try dsimp only
  (repeat' split) <;> simp

@[simp] theorem withdrawMove_frame (s : State) :
    s.withdrawMove.tb = s.tb ∧ s.withdrawMove.ot = s.ot ∧ s.withdrawMove.pln = s.pln ∧ s.withdrawMove.ilk = s.ilk ∧
    s.withdrawMove.dru = s.dru ∧ s.withdrawMove.ofu = s.ofu ∧ s.withdrawMove.qnu.blocked = s.qnu.blocked ∧
    s.withdrawMove.qnu.load = s.qnu.load ∧ s.withdrawMove.qnu.phase = s.qnu.phase ∧
    s.withdrawMove.qnu.bays = s.qnu.bays ∧ s.withdrawMove.qnu.free = s.qnu.free ∧
    s.withdrawMove.qnu.discharge = s.qnu.discharge ∧ s.withdrawMove.qnu.vals = s.qnu.vals ∧
    s.withdrawMove.trm = s.trm ∧ s.withdrawMove.lnk = s.lnk ∧ s.withdrawMove.cfg = s.cfg ∧
    s.withdrawMove.pending = s.pending := by
  unfold withdrawMove
  try dsimp only
  (repeat' split) <;> simp

@[simp] theorem requestDump_frame (s : State) :
    s.requestDump.tb = s.tb ∧ s.requestDump.ot = s.ot ∧ s.requestDump.pln = s.pln ∧ s.requestDump.ilk = s.ilk ∧
    s.requestDump.dru = s.dru ∧ s.requestDump.ofu = s.ofu ∧ s.requestDump.qnu.blocked = s.qnu.blocked ∧
    s.requestDump.qnu.load = s.qnu.load ∧ s.requestDump.qnu.phase = s.qnu.phase ∧
    s.requestDump.qnu.bays = s.qnu.bays ∧ s.requestDump.qnu.free = s.qnu.free ∧
    s.requestDump.qnu.discharge = s.qnu.discharge ∧ s.requestDump.qnu.vals = s.qnu.vals ∧ s.requestDump.trm = s.trm ∧
    s.requestDump.lnk.sup.port = s.lnk.sup.port ∧ s.requestDump.lnk.sup.answers = s.lnk.sup.answers ∧
    s.requestDump.lnk.sup.sending = s.lnk.sup.sending ∧ s.requestDump.lnk.sup.line = s.lnk.sup.line ∧
    (∀ j, ((s.requestDump).lnk.mach.get j).port = (s.lnk.mach.get j).port) ∧
    (∀ j, ((s.requestDump).lnk.mach.get j).test = (s.lnk.mach.get j).test) ∧ s.requestDump.cfg = s.cfg ∧
    s.requestDump.pending = s.pending := by
  unfold requestDump
  try dsimp only
  (repeat' split) <;> simp

@[simp] theorem testDump_frame (s : State) :
    s.testDump.tb = s.tb ∧ s.testDump.ot = s.ot ∧ s.testDump.pln = s.pln ∧ s.testDump.ilk = s.ilk ∧
    s.testDump.dru = s.dru ∧ s.testDump.ofu = s.ofu ∧ s.testDump.qnu.blocked = s.qnu.blocked ∧
    s.testDump.qnu.load = s.qnu.load ∧ s.testDump.qnu.phase = s.qnu.phase ∧ s.testDump.qnu.bays = s.qnu.bays ∧
    s.testDump.qnu.free = s.qnu.free ∧ s.testDump.qnu.discharge = s.qnu.discharge ∧ s.testDump.qnu.vals = s.qnu.vals ∧
    s.testDump.trm = s.trm ∧ s.testDump.lnk.sup.port = s.lnk.sup.port ∧
    s.testDump.lnk.sup.answers = s.lnk.sup.answers ∧ s.testDump.lnk.sup.sending = s.lnk.sup.sending ∧
    s.testDump.lnk.sup.line = s.lnk.sup.line ∧ (∀ j, ((s.testDump).lnk.mach.get j).port = (s.lnk.mach.get j).port) ∧
    (∀ j, ((s.testDump).lnk.mach.get j).test = (s.lnk.mach.get j).test) ∧ s.testDump.cfg = s.cfg ∧
    s.testDump.pending = s.pending := by
  unfold testDump
  try dsimp only
  (repeat' split) <;> simp

@[simp] theorem sendOnward_frame (s : State) :
    s.sendOnward.tb = s.tb ∧ s.sendOnward.ot = s.ot ∧ s.sendOnward.pln = s.pln ∧
    s.sendOnward.ilk.machines = s.ilk.machines ∧ s.sendOnward.ilk.stop = s.ilk.stop ∧
    s.sendOnward.ilk.holdCause = s.ilk.holdCause ∧ s.sendOnward.ilk.lastRam = s.ilk.lastRam ∧
    s.sendOnward.dru.doors = s.dru.doors ∧ s.sendOnward.dru.vals = s.dru.vals ∧
    s.sendOnward.ofu.sections = s.ofu.sections ∧ s.sendOnward.ofu.gates = s.ofu.gates ∧
    s.sendOnward.ofu.valves = s.ofu.valves ∧ s.sendOnward.ofu.heldOffers = s.ofu.heldOffers ∧
    s.sendOnward.ofu.iso = s.ofu.iso ∧ s.sendOnward.ofu.charges = s.ofu.charges ∧
    s.sendOnward.qnu.blocked = s.qnu.blocked ∧ s.sendOnward.qnu.load = s.qnu.load ∧
    s.sendOnward.qnu.phase = s.qnu.phase ∧ s.sendOnward.qnu.bays = s.qnu.bays ∧ s.sendOnward.qnu.free = s.qnu.free ∧
    s.sendOnward.qnu.discharge = s.qnu.discharge ∧ s.sendOnward.qnu.vals = s.qnu.vals ∧ s.sendOnward.trm = s.trm ∧
    s.sendOnward.lnk.sup.port = s.lnk.sup.port ∧ s.sendOnward.lnk.sup.answers = s.lnk.sup.answers ∧
    s.sendOnward.lnk.sup.sending = s.lnk.sup.sending ∧ s.sendOnward.lnk.sup.line = s.lnk.sup.line ∧
    (∀ j, ((s.sendOnward).lnk.mach.get j).port = (s.lnk.mach.get j).port) ∧
    (∀ j, ((s.sendOnward).lnk.mach.get j).test = (s.lnk.mach.get j).test) ∧ s.sendOnward.cfg = s.cfg ∧
    s.sendOnward.pending = s.pending := by
  unfold sendOnward
  try dsimp only
  (repeat' split) <;> simp

@[simp] theorem reconsiderCar_frame (s : State) (b : Nat) :
    (s.reconsiderCar b).tb = s.tb ∧ (s.reconsiderCar b).ot = s.ot ∧ (s.reconsiderCar b).pln = s.pln ∧
    (s.reconsiderCar b).ilk.machines = s.ilk.machines ∧ (s.reconsiderCar b).ilk.stop = s.ilk.stop ∧
    (s.reconsiderCar b).ilk.holdCause = s.ilk.holdCause ∧ (s.reconsiderCar b).ilk.lastRam = s.ilk.lastRam ∧
    (s.reconsiderCar b).dru.doors = s.dru.doors ∧ (s.reconsiderCar b).dru.vals = s.dru.vals ∧
    (s.reconsiderCar b).ofu.sections = s.ofu.sections ∧ (s.reconsiderCar b).ofu.gates = s.ofu.gates ∧
    (s.reconsiderCar b).ofu.valves = s.ofu.valves ∧ (s.reconsiderCar b).ofu.heldOffers = s.ofu.heldOffers ∧
    (s.reconsiderCar b).ofu.iso = s.ofu.iso ∧ (s.reconsiderCar b).ofu.charges = s.ofu.charges ∧
    (s.reconsiderCar b).qnu.blocked = s.qnu.blocked ∧ (s.reconsiderCar b).qnu.load = s.qnu.load ∧
    (s.reconsiderCar b).qnu.phase = s.qnu.phase ∧ (s.reconsiderCar b).qnu.bays = s.qnu.bays ∧
    (s.reconsiderCar b).qnu.free = s.qnu.free ∧ (s.reconsiderCar b).qnu.discharge = s.qnu.discharge ∧
    (s.reconsiderCar b).qnu.vals = s.qnu.vals ∧ (s.reconsiderCar b).trm = s.trm ∧
    (s.reconsiderCar b).lnk.sup.port = s.lnk.sup.port ∧ (s.reconsiderCar b).lnk.sup.answers = s.lnk.sup.answers ∧
    (s.reconsiderCar b).lnk.sup.sending = s.lnk.sup.sending ∧ (s.reconsiderCar b).lnk.sup.line = s.lnk.sup.line ∧
    (∀ j, (((s.reconsiderCar b)).lnk.mach.get j).port = (s.lnk.mach.get j).port) ∧
    (∀ j, (((s.reconsiderCar b)).lnk.mach.get j).test = (s.lnk.mach.get j).test) ∧ (s.reconsiderCar b).cfg = s.cfg ∧
    (s.reconsiderCar b).pending = s.pending := by
  unfold reconsiderCar
  try dsimp only
  (repeat' split) <;> simp

@[simp] theorem reconsiderNext_frame (s : State) :
    s.reconsiderNext.tb = s.tb ∧ s.reconsiderNext.ot = s.ot ∧ s.reconsiderNext.pln = s.pln ∧
    s.reconsiderNext.ilk.machines = s.ilk.machines ∧ s.reconsiderNext.ilk.stop = s.ilk.stop ∧
    s.reconsiderNext.ilk.holdCause = s.ilk.holdCause ∧ s.reconsiderNext.ilk.lastRam = s.ilk.lastRam ∧
    s.reconsiderNext.dru.doors = s.dru.doors ∧ s.reconsiderNext.dru.vals = s.dru.vals ∧
    s.reconsiderNext.ofu.sections = s.ofu.sections ∧ s.reconsiderNext.ofu.gates = s.ofu.gates ∧
    s.reconsiderNext.ofu.valves = s.ofu.valves ∧ s.reconsiderNext.ofu.heldOffers = s.ofu.heldOffers ∧
    s.reconsiderNext.ofu.iso = s.ofu.iso ∧ s.reconsiderNext.ofu.charges = s.ofu.charges ∧
    s.reconsiderNext.qnu.blocked = s.qnu.blocked ∧ s.reconsiderNext.qnu.load = s.qnu.load ∧
    s.reconsiderNext.qnu.phase = s.qnu.phase ∧ s.reconsiderNext.qnu.bays = s.qnu.bays ∧
    s.reconsiderNext.qnu.free = s.qnu.free ∧ s.reconsiderNext.qnu.discharge = s.qnu.discharge ∧
    s.reconsiderNext.qnu.vals = s.qnu.vals ∧ s.reconsiderNext.trm = s.trm ∧
    s.reconsiderNext.lnk.sup.port = s.lnk.sup.port ∧ s.reconsiderNext.lnk.sup.answers = s.lnk.sup.answers ∧
    s.reconsiderNext.lnk.sup.sending = s.lnk.sup.sending ∧ s.reconsiderNext.lnk.sup.line = s.lnk.sup.line ∧
    (∀ j, ((s.reconsiderNext).lnk.mach.get j).port = (s.lnk.mach.get j).port) ∧
    (∀ j, ((s.reconsiderNext).lnk.mach.get j).test = (s.lnk.mach.get j).test) ∧ s.reconsiderNext.cfg = s.cfg ∧
    s.reconsiderNext.pending = s.pending := by
  unfold reconsiderNext
  try dsimp only
  (repeat' split) <;> simp

@[simp] theorem leaveUnknown_frame (s : State) :
    s.leaveUnknown.tb = s.tb ∧ s.leaveUnknown.ot = s.ot ∧ s.leaveUnknown.pln = s.pln ∧
    s.leaveUnknown.ilk.machines = s.ilk.machines ∧ s.leaveUnknown.ilk.stop = s.ilk.stop ∧
    s.leaveUnknown.ilk.holdCause = s.ilk.holdCause ∧ s.leaveUnknown.ilk.lastRam = s.ilk.lastRam ∧
    s.leaveUnknown.dru.doors = s.dru.doors ∧ s.leaveUnknown.dru.vals = s.dru.vals ∧
    s.leaveUnknown.ofu.sections = s.ofu.sections ∧ s.leaveUnknown.ofu.gates = s.ofu.gates ∧
    s.leaveUnknown.ofu.valves = s.ofu.valves ∧ s.leaveUnknown.ofu.heldOffers = s.ofu.heldOffers ∧
    s.leaveUnknown.ofu.iso = s.ofu.iso ∧ s.leaveUnknown.ofu.charges = s.ofu.charges ∧
    s.leaveUnknown.qnu.blocked = s.qnu.blocked ∧ s.leaveUnknown.qnu.load = s.qnu.load ∧
    s.leaveUnknown.qnu.phase = s.qnu.phase ∧ s.leaveUnknown.qnu.bays = s.qnu.bays ∧
    s.leaveUnknown.qnu.free = s.qnu.free ∧ s.leaveUnknown.qnu.discharge = s.qnu.discharge ∧
    s.leaveUnknown.qnu.vals = s.qnu.vals ∧ s.leaveUnknown.trm = s.trm ∧ s.leaveUnknown.lnk.sup.port = s.lnk.sup.port ∧
    s.leaveUnknown.lnk.sup.answers = s.lnk.sup.answers ∧ s.leaveUnknown.lnk.sup.sending = s.lnk.sup.sending ∧
    s.leaveUnknown.lnk.sup.line = s.lnk.sup.line ∧
    (∀ j, ((s.leaveUnknown).lnk.mach.get j).port = (s.lnk.mach.get j).port) ∧
    (∀ j, ((s.leaveUnknown).lnk.mach.get j).test = (s.lnk.mach.get j).test) ∧ s.leaveUnknown.cfg = s.cfg ∧
    s.leaveUnknown.pending = s.pending := by
  unfold leaveUnknown
  try dsimp only
  (repeat' split) <;> simp

@[simp] theorem chooseBay_frame (s : State) :
    s.chooseBay.tb = s.tb ∧ s.chooseBay.ot = s.ot ∧ s.chooseBay.pln = s.pln ∧
    s.chooseBay.ilk.machines = s.ilk.machines ∧ s.chooseBay.ilk.stop = s.ilk.stop ∧
    s.chooseBay.ilk.holdCause = s.ilk.holdCause ∧ s.chooseBay.ilk.lastRam = s.ilk.lastRam ∧
    s.chooseBay.dru.doors = s.dru.doors ∧ s.chooseBay.dru.vals = s.dru.vals ∧
    s.chooseBay.ofu.sections = s.ofu.sections ∧ s.chooseBay.ofu.gates = s.ofu.gates ∧
    s.chooseBay.ofu.valves = s.ofu.valves ∧ s.chooseBay.ofu.heldOffers = s.ofu.heldOffers ∧
    s.chooseBay.ofu.iso = s.ofu.iso ∧ s.chooseBay.ofu.charges = s.ofu.charges ∧
    s.chooseBay.qnu.blocked = s.qnu.blocked ∧ s.chooseBay.qnu.phase = s.qnu.phase ∧
    s.chooseBay.qnu.discharge = s.qnu.discharge ∧ s.chooseBay.qnu.vals = s.qnu.vals ∧ s.chooseBay.trm = s.trm ∧
    s.chooseBay.lnk.sup.port = s.lnk.sup.port ∧ s.chooseBay.lnk.sup.answers = s.lnk.sup.answers ∧
    s.chooseBay.lnk.sup.sending = s.lnk.sup.sending ∧ s.chooseBay.lnk.sup.line = s.lnk.sup.line ∧
    (∀ j, ((s.chooseBay).lnk.mach.get j).port = (s.lnk.mach.get j).port) ∧
    (∀ j, ((s.chooseBay).lnk.mach.get j).test = (s.lnk.mach.get j).test) ∧ s.chooseBay.cfg = s.cfg ∧
    s.chooseBay.pending = s.pending := by
  unfold chooseBay
  try dsimp only
  (repeat' split) <;> simp

@[simp] theorem startDischarge_frame (s : State) :
    s.startDischarge.tb = s.tb ∧ s.startDischarge.ot = s.ot ∧ s.startDischarge.pln = s.pln ∧
    s.startDischarge.ilk = s.ilk ∧ s.startDischarge.dru = s.dru ∧ s.startDischarge.ofu = s.ofu ∧
    s.startDischarge.qnu.car = s.qnu.car ∧ s.startDischarge.qnu.blocked = s.qnu.blocked ∧
    s.startDischarge.qnu.load = s.qnu.load ∧ s.startDischarge.qnu.phase = s.qnu.phase ∧
    s.startDischarge.qnu.free = s.qnu.free ∧ s.startDischarge.qnu.discharge = s.qnu.discharge ∧
    s.startDischarge.qnu.vals = s.qnu.vals ∧ s.startDischarge.trm = s.trm ∧ s.startDischarge.lnk = s.lnk ∧
    s.startDischarge.cfg = s.cfg ∧ s.startDischarge.pending = s.pending := by
  unfold startDischarge
  try dsimp only
  (repeat' split) <;> simp

@[simp] theorem interruptDischarge_frame (s : State) (b : Nat) :
    (s.interruptDischarge b).tb = s.tb ∧ (s.interruptDischarge b).ot = s.ot ∧ (s.interruptDischarge b).pln = s.pln ∧
    (s.interruptDischarge b).ilk = s.ilk ∧ (s.interruptDischarge b).dru = s.dru ∧
    (s.interruptDischarge b).ofu = s.ofu ∧ (s.interruptDischarge b).qnu.car = s.qnu.car ∧
    (s.interruptDischarge b).qnu.blocked = s.qnu.blocked ∧ (s.interruptDischarge b).qnu.load = s.qnu.load ∧
    (s.interruptDischarge b).qnu.phase = s.qnu.phase ∧ (s.interruptDischarge b).qnu.free = s.qnu.free ∧
    (s.interruptDischarge b).qnu.discharge = s.qnu.discharge ∧ (s.interruptDischarge b).qnu.vals = s.qnu.vals ∧
    (s.interruptDischarge b).trm = s.trm ∧ (s.interruptDischarge b).lnk.sup.port = s.lnk.sup.port ∧
    (s.interruptDischarge b).lnk.sup.answers = s.lnk.sup.answers ∧
    (s.interruptDischarge b).lnk.sup.sending = s.lnk.sup.sending ∧
    (s.interruptDischarge b).lnk.sup.line = s.lnk.sup.line ∧ (s.interruptDischarge b).lnk.mach = s.lnk.mach ∧
    (s.interruptDischarge b).cfg = s.cfg ∧ (s.interruptDischarge b).pending = s.pending := by
  unfold interruptDischarge
  try dsimp only
  (repeat' split) <;> simp

@[simp] theorem conveyorLost_frame (s : State) :
    s.conveyorLost.tb = s.tb ∧ s.conveyorLost.ot = s.ot ∧ s.conveyorLost.pln = s.pln ∧ s.conveyorLost.ilk = s.ilk ∧
    s.conveyorLost.dru = s.dru ∧ s.conveyorLost.ofu = s.ofu ∧ s.conveyorLost.qnu.car = s.qnu.car ∧
    s.conveyorLost.qnu.blocked = s.qnu.blocked ∧ s.conveyorLost.qnu.load = s.qnu.load ∧
    s.conveyorLost.qnu.phase = s.qnu.phase ∧ s.conveyorLost.qnu.free = s.qnu.free ∧
    s.conveyorLost.qnu.discharge = s.qnu.discharge ∧ s.conveyorLost.qnu.vals = s.qnu.vals ∧
    s.conveyorLost.trm = s.trm ∧ s.conveyorLost.lnk.sup.port = s.lnk.sup.port ∧
    s.conveyorLost.lnk.sup.answers = s.lnk.sup.answers ∧ s.conveyorLost.lnk.sup.sending = s.lnk.sup.sending ∧
    s.conveyorLost.lnk.sup.line = s.lnk.sup.line ∧ s.conveyorLost.lnk.mach = s.lnk.mach ∧ s.conveyorLost.cfg = s.cfg ∧
    s.conveyorLost.pending = s.pending := by
  unfold conveyorLost
  try dsimp only
  (repeat' split) <;> simp

@[simp] theorem gateEnd_frame (s : State) (b : Nat) :
    (s.gateEnd b).tb = s.tb ∧ (s.gateEnd b).ot = s.ot ∧ (s.gateEnd b).pln = s.pln ∧
    (s.gateEnd b).ilk.machines = s.ilk.machines ∧ (s.gateEnd b).ilk.stop = s.ilk.stop ∧
    (s.gateEnd b).ilk.holdCause = s.ilk.holdCause ∧ (s.gateEnd b).ilk.lastRam = s.ilk.lastRam ∧
    (s.gateEnd b).dru.doors = s.dru.doors ∧ (s.gateEnd b).dru.vals = s.dru.vals ∧
    (s.gateEnd b).ofu.sections = s.ofu.sections ∧ (s.gateEnd b).ofu.gates = s.ofu.gates ∧
    (s.gateEnd b).ofu.valves = s.ofu.valves ∧ (s.gateEnd b).ofu.heldOffers = s.ofu.heldOffers ∧
    (s.gateEnd b).ofu.iso = s.ofu.iso ∧ (s.gateEnd b).ofu.charges = s.ofu.charges ∧
    (s.gateEnd b).qnu.blocked = s.qnu.blocked ∧ (s.gateEnd b).qnu.phase = s.qnu.phase ∧
    (s.gateEnd b).qnu.vals = s.qnu.vals ∧ (s.gateEnd b).trm = s.trm ∧ (s.gateEnd b).lnk.sup.port = s.lnk.sup.port ∧
    (s.gateEnd b).lnk.sup.answers = s.lnk.sup.answers ∧ (s.gateEnd b).lnk.sup.sending = s.lnk.sup.sending ∧
    (s.gateEnd b).lnk.sup.line = s.lnk.sup.line ∧
    (∀ j, (((s.gateEnd b)).lnk.mach.get j).port = (s.lnk.mach.get j).port) ∧
    (∀ j, (((s.gateEnd b)).lnk.mach.get j).test = (s.lnk.mach.get j).test) ∧ (s.gateEnd b).cfg = s.cfg ∧
    (s.gateEnd b).pending = s.pending := by
  unfold gateEnd
  try dsimp only
  (repeat' split) <;> simp

@[simp] theorem ramStartCar_frame (s : State) (n : Nat) :
    (s.ramStartCar n).tb = s.tb ∧ (s.ramStartCar n).ot = s.ot ∧ (s.ramStartCar n).pln = s.pln ∧
    (s.ramStartCar n).ilk.machines = s.ilk.machines ∧ (s.ramStartCar n).ilk.stop = s.ilk.stop ∧
    (s.ramStartCar n).ilk.holdCause = s.ilk.holdCause ∧ (s.ramStartCar n).ilk.lastRam = s.ilk.lastRam ∧
    (s.ramStartCar n).dru.doors = s.dru.doors ∧ (s.ramStartCar n).dru.vals = s.dru.vals ∧
    (s.ramStartCar n).ofu.sections = s.ofu.sections ∧ (s.ramStartCar n).ofu.gates = s.ofu.gates ∧
    (s.ramStartCar n).ofu.valves = s.ofu.valves ∧ (s.ramStartCar n).ofu.heldOffers = s.ofu.heldOffers ∧
    (s.ramStartCar n).ofu.iso = s.ofu.iso ∧ (s.ramStartCar n).ofu.charges = s.ofu.charges ∧
    (s.ramStartCar n).qnu.blocked = s.qnu.blocked ∧ (s.ramStartCar n).qnu.load = s.qnu.load ∧
    (s.ramStartCar n).qnu.phase = s.qnu.phase ∧ (s.ramStartCar n).qnu.bays = s.qnu.bays ∧
    (s.ramStartCar n).qnu.free = s.qnu.free ∧ (s.ramStartCar n).qnu.discharge = s.qnu.discharge ∧
    (s.ramStartCar n).qnu.vals = s.qnu.vals ∧ (s.ramStartCar n).trm = s.trm ∧
    (s.ramStartCar n).lnk.sup.port = s.lnk.sup.port ∧ (s.ramStartCar n).lnk.sup.answers = s.lnk.sup.answers ∧
    (s.ramStartCar n).lnk.sup.sending = s.lnk.sup.sending ∧ (s.ramStartCar n).lnk.sup.line = s.lnk.sup.line ∧
    (∀ j, (((s.ramStartCar n)).lnk.mach.get j).port = (s.lnk.mach.get j).port) ∧
    (∀ j, (((s.ramStartCar n)).lnk.mach.get j).test = (s.lnk.mach.get j).test) ∧ (s.ramStartCar n).cfg = s.cfg ∧
    (s.ramStartCar n).pending = s.pending := by
  unfold ramStartCar
  try dsimp only
  (repeat' split) <;> simp

@[simp] theorem stickerCar_frame (s : State) (n : Nat) :
    (s.stickerCar n).tb = s.tb ∧ (s.stickerCar n).ot = s.ot ∧ (s.stickerCar n).pln = s.pln ∧
    (s.stickerCar n).ilk.machines = s.ilk.machines ∧ (s.stickerCar n).ilk.stop = s.ilk.stop ∧
    (s.stickerCar n).ilk.holdCause = s.ilk.holdCause ∧ (s.stickerCar n).ilk.lastRam = s.ilk.lastRam ∧
    (s.stickerCar n).dru.doors = s.dru.doors ∧ (s.stickerCar n).dru.vals = s.dru.vals ∧
    (s.stickerCar n).ofu.sections = s.ofu.sections ∧ (s.stickerCar n).ofu.gates = s.ofu.gates ∧
    (s.stickerCar n).ofu.valves = s.ofu.valves ∧ (s.stickerCar n).ofu.heldOffers = s.ofu.heldOffers ∧
    (s.stickerCar n).ofu.iso = s.ofu.iso ∧ (s.stickerCar n).ofu.charges = s.ofu.charges ∧
    (s.stickerCar n).qnu.blocked = s.qnu.blocked ∧ (s.stickerCar n).qnu.load = s.qnu.load ∧
    (s.stickerCar n).qnu.phase = s.qnu.phase ∧ (s.stickerCar n).qnu.bays = s.qnu.bays ∧
    (s.stickerCar n).qnu.free = s.qnu.free ∧ (s.stickerCar n).qnu.discharge = s.qnu.discharge ∧
    (s.stickerCar n).qnu.vals = s.qnu.vals ∧ (s.stickerCar n).trm = s.trm ∧
    (s.stickerCar n).lnk.sup.port = s.lnk.sup.port ∧ (s.stickerCar n).lnk.sup.answers = s.lnk.sup.answers ∧
    (s.stickerCar n).lnk.sup.sending = s.lnk.sup.sending ∧ (s.stickerCar n).lnk.sup.line = s.lnk.sup.line ∧
    (∀ j, (((s.stickerCar n)).lnk.mach.get j).port = (s.lnk.mach.get j).port) ∧
    (∀ j, (((s.stickerCar n)).lnk.mach.get j).test = (s.lnk.mach.get j).test) ∧ (s.stickerCar n).cfg = s.cfg ∧
    (s.stickerCar n).pending = s.pending := by
  unfold stickerCar
  try dsimp only
  (repeat' split) <;> simp

@[simp] theorem ramEndCar_frame (s : State) (n t : Nat) :
    (s.ramEndCar n t).tb = s.tb ∧ (s.ramEndCar n t).ot = s.ot ∧ (s.ramEndCar n t).pln = s.pln ∧
    (s.ramEndCar n t).ilk.machines = s.ilk.machines ∧ (s.ramEndCar n t).ilk.stop = s.ilk.stop ∧
    (s.ramEndCar n t).ilk.holdCause = s.ilk.holdCause ∧ (s.ramEndCar n t).ilk.lastRam = s.ilk.lastRam ∧
    (s.ramEndCar n t).dru.doors = s.dru.doors ∧ (s.ramEndCar n t).dru.vals = s.dru.vals ∧
    (s.ramEndCar n t).ofu.sections = s.ofu.sections ∧ (s.ramEndCar n t).ofu.gates = s.ofu.gates ∧
    (s.ramEndCar n t).ofu.valves = s.ofu.valves ∧ (s.ramEndCar n t).ofu.heldOffers = s.ofu.heldOffers ∧
    (s.ramEndCar n t).ofu.iso = s.ofu.iso ∧ (s.ramEndCar n t).ofu.charges = s.ofu.charges ∧
    (s.ramEndCar n t).qnu.blocked = s.qnu.blocked ∧ (s.ramEndCar n t).qnu.phase = s.qnu.phase ∧
    (s.ramEndCar n t).qnu.bays = s.qnu.bays ∧ (s.ramEndCar n t).qnu.free = s.qnu.free ∧
    (s.ramEndCar n t).qnu.discharge = s.qnu.discharge ∧ (s.ramEndCar n t).qnu.vals = s.qnu.vals ∧
    (s.ramEndCar n t).trm = s.trm ∧ (s.ramEndCar n t).lnk.sup.port = s.lnk.sup.port ∧
    (s.ramEndCar n t).lnk.sup.answers = s.lnk.sup.answers ∧ (s.ramEndCar n t).lnk.sup.sending = s.lnk.sup.sending ∧
    (s.ramEndCar n t).lnk.sup.line = s.lnk.sup.line ∧
    (∀ j, (((s.ramEndCar n t)).lnk.mach.get j).port = (s.lnk.mach.get j).port) ∧
    (∀ j, (((s.ramEndCar n t)).lnk.mach.get j).test = (s.lnk.mach.get j).test) ∧ (s.ramEndCar n t).cfg = s.cfg ∧
    (s.ramEndCar n t).pending = s.pending := by
  unfold ramEndCar
  try dsimp only
  (repeat' split) <;> simp

@[simp] theorem arrive_frame (s : State) :
    s.arrive.tb = s.tb ∧ s.arrive.ot = s.ot ∧ s.arrive.pln = s.pln ∧ s.arrive.ilk.machines = s.ilk.machines ∧
    s.arrive.ilk.stop = s.ilk.stop ∧ s.arrive.ilk.holdCause = s.ilk.holdCause ∧ s.arrive.ilk.lastRam = s.ilk.lastRam ∧
    s.arrive.dru.doors = s.dru.doors ∧ s.arrive.dru.vals = s.dru.vals ∧ s.arrive.ofu.sections = s.ofu.sections ∧
    s.arrive.ofu.gates = s.ofu.gates ∧ s.arrive.ofu.valves = s.ofu.valves ∧
    s.arrive.ofu.heldOffers = s.ofu.heldOffers ∧ s.arrive.ofu.iso = s.ofu.iso ∧ s.arrive.ofu.charges = s.ofu.charges ∧
    s.arrive.qnu.blocked = s.qnu.blocked ∧ s.arrive.qnu.bays = s.qnu.bays ∧ s.arrive.qnu.free = s.qnu.free ∧
    s.arrive.qnu.discharge = s.qnu.discharge ∧ s.arrive.qnu.vals = s.qnu.vals ∧ s.arrive.trm = s.trm ∧
    s.arrive.lnk.sup.port = s.lnk.sup.port ∧ s.arrive.lnk.sup.answers = s.lnk.sup.answers ∧
    s.arrive.lnk.sup.sending = s.lnk.sup.sending ∧ s.arrive.lnk.sup.line = s.lnk.sup.line ∧
    (∀ j, ((s.arrive).lnk.mach.get j).port = (s.lnk.mach.get j).port) ∧
    (∀ j, ((s.arrive).lnk.mach.get j).test = (s.lnk.mach.get j).test) ∧ s.arrive.cfg = s.cfg ∧
    s.arrive.pending = s.pending := by
  unfold arrive
  try dsimp only
  (repeat' split) <;> simp

@[simp] theorem checkLoadedPlace_frame (s : State) (spot : Option ReportedSpot) :
    (s.checkLoadedPlace spot).tb = s.tb ∧ (s.checkLoadedPlace spot).ot = s.ot ∧
    (s.checkLoadedPlace spot).pln = s.pln ∧ (s.checkLoadedPlace spot).ilk = s.ilk ∧
    (s.checkLoadedPlace spot).dru = s.dru ∧ (s.checkLoadedPlace spot).ofu = s.ofu ∧
    (s.checkLoadedPlace spot).qnu.blocked = s.qnu.blocked ∧ (s.checkLoadedPlace spot).qnu.load = s.qnu.load ∧
    (s.checkLoadedPlace spot).qnu.phase = s.qnu.phase ∧ (s.checkLoadedPlace spot).qnu.bays = s.qnu.bays ∧
    (s.checkLoadedPlace spot).qnu.free = s.qnu.free ∧ (s.checkLoadedPlace spot).qnu.discharge = s.qnu.discharge ∧
    (s.checkLoadedPlace spot).qnu.vals = s.qnu.vals ∧ (s.checkLoadedPlace spot).trm = s.trm ∧
    (s.checkLoadedPlace spot).lnk.sup.port = s.lnk.sup.port ∧
    (s.checkLoadedPlace spot).lnk.sup.answers = s.lnk.sup.answers ∧
    (s.checkLoadedPlace spot).lnk.sup.sending = s.lnk.sup.sending ∧
    (s.checkLoadedPlace spot).lnk.sup.line = s.lnk.sup.line ∧ (s.checkLoadedPlace spot).lnk.mach = s.lnk.mach ∧
    (s.checkLoadedPlace spot).cfg = s.cfg ∧ (s.checkLoadedPlace spot).pending = s.pending := by
  unfold checkLoadedPlace
  try dsimp only
  (repeat' split) <;> simp

@[simp] theorem checkEmptyPlace_frame (s : State) (spot : Option ReportedSpot) :
    (s.checkEmptyPlace spot).tb = s.tb ∧ (s.checkEmptyPlace spot).ot = s.ot ∧ (s.checkEmptyPlace spot).pln = s.pln ∧
    (s.checkEmptyPlace spot).ilk.machines = s.ilk.machines ∧ (s.checkEmptyPlace spot).ilk.stop = s.ilk.stop ∧
    (s.checkEmptyPlace spot).ilk.holdCause = s.ilk.holdCause ∧ (s.checkEmptyPlace spot).ilk.lastRam = s.ilk.lastRam ∧
    (s.checkEmptyPlace spot).dru.doors = s.dru.doors ∧ (s.checkEmptyPlace spot).dru.vals = s.dru.vals ∧
    (s.checkEmptyPlace spot).ofu.sections = s.ofu.sections ∧ (s.checkEmptyPlace spot).ofu.gates = s.ofu.gates ∧
    (s.checkEmptyPlace spot).ofu.valves = s.ofu.valves ∧ (s.checkEmptyPlace spot).ofu.heldOffers = s.ofu.heldOffers ∧
    (s.checkEmptyPlace spot).ofu.iso = s.ofu.iso ∧ (s.checkEmptyPlace spot).ofu.charges = s.ofu.charges ∧
    (s.checkEmptyPlace spot).qnu.blocked = s.qnu.blocked ∧ (s.checkEmptyPlace spot).qnu.load = s.qnu.load ∧
    (s.checkEmptyPlace spot).qnu.phase = s.qnu.phase ∧ (s.checkEmptyPlace spot).qnu.bays = s.qnu.bays ∧
    (s.checkEmptyPlace spot).qnu.free = s.qnu.free ∧ (s.checkEmptyPlace spot).qnu.discharge = s.qnu.discharge ∧
    (s.checkEmptyPlace spot).qnu.vals = s.qnu.vals ∧ (s.checkEmptyPlace spot).trm = s.trm ∧
    (s.checkEmptyPlace spot).lnk.sup.port = s.lnk.sup.port ∧
    (s.checkEmptyPlace spot).lnk.sup.answers = s.lnk.sup.answers ∧
    (s.checkEmptyPlace spot).lnk.sup.sending = s.lnk.sup.sending ∧
    (s.checkEmptyPlace spot).lnk.sup.line = s.lnk.sup.line ∧
    (∀ j, (((s.checkEmptyPlace spot)).lnk.mach.get j).port = (s.lnk.mach.get j).port) ∧
    (∀ j, (((s.checkEmptyPlace spot)).lnk.mach.get j).test = (s.lnk.mach.get j).test) ∧
    (s.checkEmptyPlace spot).cfg = s.cfg ∧ (s.checkEmptyPlace spot).pending = s.pending := by
  unfold checkEmptyPlace
  try dsimp only
  (repeat' split) <;> simp

@[simp] theorem followLocal_frame (s : State) (stopped : Option CarSpot) :
    (s.followLocal stopped).tb = s.tb ∧ (s.followLocal stopped).ot = s.ot ∧ (s.followLocal stopped).pln = s.pln ∧
    (s.followLocal stopped).ilk.machines = s.ilk.machines ∧ (s.followLocal stopped).ilk.stop = s.ilk.stop ∧
    (s.followLocal stopped).ilk.holdCause = s.ilk.holdCause ∧ (s.followLocal stopped).ilk.lastRam = s.ilk.lastRam ∧
    (s.followLocal stopped).dru.doors = s.dru.doors ∧ (s.followLocal stopped).dru.vals = s.dru.vals ∧
    (s.followLocal stopped).ofu.sections = s.ofu.sections ∧ (s.followLocal stopped).ofu.gates = s.ofu.gates ∧
    (s.followLocal stopped).ofu.valves = s.ofu.valves ∧ (s.followLocal stopped).ofu.heldOffers = s.ofu.heldOffers ∧
    (s.followLocal stopped).ofu.iso = s.ofu.iso ∧ (s.followLocal stopped).ofu.charges = s.ofu.charges ∧
    (s.followLocal stopped).qnu.blocked = s.qnu.blocked ∧ (s.followLocal stopped).qnu.load = s.qnu.load ∧
    (s.followLocal stopped).qnu.phase = s.qnu.phase ∧ (s.followLocal stopped).qnu.bays = s.qnu.bays ∧
    (s.followLocal stopped).qnu.free = s.qnu.free ∧ (s.followLocal stopped).qnu.discharge = s.qnu.discharge ∧
    (s.followLocal stopped).qnu.vals = s.qnu.vals ∧ (s.followLocal stopped).trm = s.trm ∧
    (s.followLocal stopped).lnk.sup.port = s.lnk.sup.port ∧
    (s.followLocal stopped).lnk.sup.answers = s.lnk.sup.answers ∧
    (s.followLocal stopped).lnk.sup.sending = s.lnk.sup.sending ∧
    (s.followLocal stopped).lnk.sup.line = s.lnk.sup.line ∧
    (∀ j, (((s.followLocal stopped)).lnk.mach.get j).port = (s.lnk.mach.get j).port) ∧
    (∀ j, (((s.followLocal stopped)).lnk.mach.get j).test = (s.lnk.mach.get j).test) ∧
    (s.followLocal stopped).cfg = s.cfg ∧ (s.followLocal stopped).pending = s.pending := by
  unfold followLocal
  try dsimp only
  (repeat' split) <;> simp

@[simp] theorem qcStatus_frame (s : State) (oldMode : Option Mode) (stopped : Option CarSpot) (spot : ReportedSpot) :
    (s.qcStatus oldMode stopped spot).tb = s.tb ∧ (s.qcStatus oldMode stopped spot).ot = s.ot ∧
    (s.qcStatus oldMode stopped spot).pln = s.pln ∧ (s.qcStatus oldMode stopped spot).ilk.machines = s.ilk.machines ∧
    (s.qcStatus oldMode stopped spot).ilk.stop = s.ilk.stop ∧
    (s.qcStatus oldMode stopped spot).ilk.holdCause = s.ilk.holdCause ∧
    (s.qcStatus oldMode stopped spot).ilk.lastRam = s.ilk.lastRam ∧
    (s.qcStatus oldMode stopped spot).dru.doors = s.dru.doors ∧
    (s.qcStatus oldMode stopped spot).dru.vals = s.dru.vals ∧
    (s.qcStatus oldMode stopped spot).ofu.sections = s.ofu.sections ∧
    (s.qcStatus oldMode stopped spot).ofu.gates = s.ofu.gates ∧
    (s.qcStatus oldMode stopped spot).ofu.valves = s.ofu.valves ∧
    (s.qcStatus oldMode stopped spot).ofu.heldOffers = s.ofu.heldOffers ∧
    (s.qcStatus oldMode stopped spot).ofu.iso = s.ofu.iso ∧
    (s.qcStatus oldMode stopped spot).ofu.charges = s.ofu.charges ∧
    (s.qcStatus oldMode stopped spot).qnu.blocked = s.qnu.blocked ∧
    (s.qcStatus oldMode stopped spot).qnu.bays = s.qnu.bays ∧
    (s.qcStatus oldMode stopped spot).qnu.free = s.qnu.free ∧
    (s.qcStatus oldMode stopped spot).qnu.discharge = s.qnu.discharge ∧
    (s.qcStatus oldMode stopped spot).qnu.vals = s.qnu.vals ∧ (s.qcStatus oldMode stopped spot).trm = s.trm ∧
    (s.qcStatus oldMode stopped spot).lnk.sup.port = s.lnk.sup.port ∧
    (s.qcStatus oldMode stopped spot).lnk.sup.answers = s.lnk.sup.answers ∧
    (s.qcStatus oldMode stopped spot).lnk.sup.sending = s.lnk.sup.sending ∧
    (s.qcStatus oldMode stopped spot).lnk.sup.line = s.lnk.sup.line ∧
    (∀ j, (((s.qcStatus oldMode stopped spot)).lnk.mach.get j).port = (s.lnk.mach.get j).port) ∧
    (∀ j, (((s.qcStatus oldMode stopped spot)).lnk.mach.get j).test = (s.lnk.mach.get j).test) ∧
    (s.qcStatus oldMode stopped spot).cfg = s.cfg ∧ (s.qcStatus oldMode stopped spot).pending = s.pending := by
  unfold qcStatus
  try dsimp only
  (repeat' split) <;> simp

@[simp] theorem qcOffline_frame (s : State) :
    s.qcOffline.tb = s.tb ∧ s.qcOffline.ot = s.ot ∧ s.qcOffline.pln = s.pln ∧
    s.qcOffline.ilk.machines = s.ilk.machines ∧ s.qcOffline.ilk.stop = s.ilk.stop ∧
    s.qcOffline.ilk.holdCause = s.ilk.holdCause ∧ s.qcOffline.ilk.lastRam = s.ilk.lastRam ∧
    s.qcOffline.dru.doors = s.dru.doors ∧ s.qcOffline.dru.vals = s.dru.vals ∧
    s.qcOffline.ofu.sections = s.ofu.sections ∧ s.qcOffline.ofu.gates = s.ofu.gates ∧
    s.qcOffline.ofu.valves = s.ofu.valves ∧ s.qcOffline.ofu.heldOffers = s.ofu.heldOffers ∧
    s.qcOffline.ofu.iso = s.ofu.iso ∧ s.qcOffline.ofu.charges = s.ofu.charges ∧
    s.qcOffline.qnu.blocked = s.qnu.blocked ∧ s.qcOffline.qnu.load = s.qnu.load ∧
    s.qcOffline.qnu.phase = s.qnu.phase ∧ s.qcOffline.qnu.bays = s.qnu.bays ∧ s.qcOffline.qnu.free = s.qnu.free ∧
    s.qcOffline.qnu.discharge = s.qnu.discharge ∧ s.qcOffline.qnu.vals = s.qnu.vals ∧ s.qcOffline.trm = s.trm ∧
    s.qcOffline.lnk.sup.port = s.lnk.sup.port ∧ s.qcOffline.lnk.sup.answers = s.lnk.sup.answers ∧
    s.qcOffline.lnk.sup.sending = s.lnk.sup.sending ∧ s.qcOffline.lnk.sup.line = s.lnk.sup.line ∧
    (∀ j, ((s.qcOffline).lnk.mach.get j).port = (s.lnk.mach.get j).port) ∧
    (∀ j, ((s.qcOffline).lnk.mach.get j).test = (s.lnk.mach.get j).test) ∧ s.qcOffline.cfg = s.cfg ∧
    s.qcOffline.pending = s.pending := by
  unfold qcOffline
  try dsimp only
  (repeat' split) <;> simp

@[simp] theorem setValves_frame (s : State) (q : List ValveEntry) :
    (s.setValves q).tb = s.tb ∧ (s.setValves q).ot = s.ot ∧ (s.setValves q).pln = s.pln ∧
    (s.setValves q).ilk = s.ilk ∧ (s.setValves q).dru = s.dru ∧ (s.setValves q).ofu.sections = s.ofu.sections ∧
    (s.setValves q).ofu.gates = s.ofu.gates ∧ (s.setValves q).ofu.valves = s.ofu.valves ∧
    (s.setValves q).ofu.heldOffers = s.ofu.heldOffers ∧ (s.setValves q).ofu.iso = s.ofu.iso ∧
    (s.setValves q).ofu.charges = s.ofu.charges ∧ (s.setValves q).qnu = s.qnu ∧ (s.setValves q).trm = s.trm ∧
    (s.setValves q).lnk = s.lnk ∧ (s.setValves q).cfg = s.cfg ∧ (s.setValves q).pending = s.pending := by
  unfold setValves
  try dsimp only
  (repeat' split) <;> simp

@[simp] theorem withdrawNotice_frame (s : State) (e : ValveEntry) :
    (s.withdrawNotice e).tb = s.tb ∧ (s.withdrawNotice e).ot = s.ot ∧ (s.withdrawNotice e).pln = s.pln ∧
    (s.withdrawNotice e).ilk = s.ilk ∧ (s.withdrawNotice e).dru = s.dru ∧ (s.withdrawNotice e).ofu = s.ofu ∧
    (s.withdrawNotice e).qnu = s.qnu ∧ (s.withdrawNotice e).trm = s.trm ∧
    (s.withdrawNotice e).lnk.sup.port = s.lnk.sup.port ∧ (s.withdrawNotice e).lnk.sup.answers = s.lnk.sup.answers ∧
    (s.withdrawNotice e).lnk.sup.sending = s.lnk.sup.sending ∧ (s.withdrawNotice e).lnk.sup.line = s.lnk.sup.line ∧
    (s.withdrawNotice e).lnk.mach = s.lnk.mach ∧ (s.withdrawNotice e).cfg = s.cfg ∧
    (s.withdrawNotice e).pending = s.pending := by
  unfold withdrawNotice
  try dsimp only
  (repeat' split) <;> simp

@[simp] theorem clearValveWork_frame (s : State) (o : Nat) :
    (s.clearValveWork o).tb = s.tb ∧ (s.clearValveWork o).ot = s.ot ∧ (s.clearValveWork o).pln = s.pln ∧
    (s.clearValveWork o).ilk = s.ilk ∧ (s.clearValveWork o).dru = s.dru ∧
    (s.clearValveWork o).ofu.sections = s.ofu.sections ∧ (s.clearValveWork o).ofu.gates = s.ofu.gates ∧
    (s.clearValveWork o).ofu.valves = s.ofu.valves ∧ (s.clearValveWork o).ofu.iso = s.ofu.iso ∧
    (s.clearValveWork o).ofu.charges = s.ofu.charges ∧ (s.clearValveWork o).qnu = s.qnu ∧
    (s.clearValveWork o).trm = s.trm ∧ (s.clearValveWork o).lnk.sup.port = s.lnk.sup.port ∧
    (s.clearValveWork o).lnk.sup.answers = s.lnk.sup.answers ∧
    (s.clearValveWork o).lnk.sup.sending = s.lnk.sup.sending ∧ (s.clearValveWork o).lnk.sup.line = s.lnk.sup.line ∧
    (s.clearValveWork o).lnk.mach = s.lnk.mach ∧ (s.clearValveWork o).cfg = s.cfg ∧
    (s.clearValveWork o).pending = s.pending := by
  unfold clearValveWork
  try dsimp only
  (repeat' split) <;> simp

@[simp] theorem replaceAction_frame (s : State) (e : ValveEntry) (a : ValveAction) :
    (s.replaceAction e a).tb = s.tb ∧ (s.replaceAction e a).ot = s.ot ∧ (s.replaceAction e a).pln = s.pln ∧
    (s.replaceAction e a).ilk = s.ilk ∧ (s.replaceAction e a).dru = s.dru ∧
    (s.replaceAction e a).ofu.sections = s.ofu.sections ∧ (s.replaceAction e a).ofu.gates = s.ofu.gates ∧
    (s.replaceAction e a).ofu.valves = s.ofu.valves ∧ (s.replaceAction e a).ofu.heldOffers = s.ofu.heldOffers ∧
    (s.replaceAction e a).ofu.iso = s.ofu.iso ∧ (s.replaceAction e a).ofu.charges = s.ofu.charges ∧
    (s.replaceAction e a).qnu = s.qnu ∧ (s.replaceAction e a).trm = s.trm ∧
    (s.replaceAction e a).lnk.sup.port = s.lnk.sup.port ∧ (s.replaceAction e a).lnk.sup.answers = s.lnk.sup.answers ∧
    (s.replaceAction e a).lnk.sup.sending = s.lnk.sup.sending ∧ (s.replaceAction e a).lnk.sup.line = s.lnk.sup.line ∧
    (s.replaceAction e a).lnk.mach = s.lnk.mach ∧ (s.replaceAction e a).cfg = s.cfg ∧
    (s.replaceAction e a).pending = s.pending := by
  unfold replaceAction
  try dsimp only
  (repeat' split) <;> simp

@[simp] theorem holdBack_frame (s : State) (o : Nat) (a : ValveAction) :
    (s.holdBack o a).tb = s.tb ∧ (s.holdBack o a).ot = s.ot ∧ (s.holdBack o a).pln = s.pln ∧
    (s.holdBack o a).ilk = s.ilk ∧ (s.holdBack o a).dru = s.dru ∧ (s.holdBack o a).ofu.sections = s.ofu.sections ∧
    (s.holdBack o a).ofu.gates = s.ofu.gates ∧ (s.holdBack o a).ofu.valves = s.ofu.valves ∧
    (s.holdBack o a).ofu.queue = s.ofu.queue ∧ (s.holdBack o a).ofu.iso = s.ofu.iso ∧
    (s.holdBack o a).ofu.charges = s.ofu.charges ∧ (s.holdBack o a).qnu = s.qnu ∧ (s.holdBack o a).trm = s.trm ∧
    (s.holdBack o a).lnk.sup.port = s.lnk.sup.port ∧ (s.holdBack o a).lnk.sup.answers = s.lnk.sup.answers ∧
    (s.holdBack o a).lnk.sup.sending = s.lnk.sup.sending ∧ (s.holdBack o a).lnk.sup.line = s.lnk.sup.line ∧
    (s.holdBack o a).lnk.mach = s.lnk.mach ∧ (s.holdBack o a).cfg = s.cfg ∧ (s.holdBack o a).pending = s.pending := by
  unfold holdBack
  try dsimp only
  (repeat' split) <;> simp

@[simp] theorem decideOffer_frame (s : State) (o : Nat) (a : ValveAction) :
    (s.decideOffer o a).tb = s.tb ∧ (s.decideOffer o a).ot = s.ot ∧ (s.decideOffer o a).pln = s.pln ∧
    (s.decideOffer o a).ilk = s.ilk ∧ (s.decideOffer o a).dru = s.dru ∧
    (s.decideOffer o a).ofu.sections = s.ofu.sections ∧ (s.decideOffer o a).ofu.gates = s.ofu.gates ∧
    (s.decideOffer o a).ofu.valves = s.ofu.valves ∧ (s.decideOffer o a).ofu.iso = s.ofu.iso ∧
    (s.decideOffer o a).ofu.charges = s.ofu.charges ∧ (s.decideOffer o a).qnu = s.qnu ∧
    (s.decideOffer o a).trm = s.trm ∧ (s.decideOffer o a).lnk.sup.port = s.lnk.sup.port ∧
    (s.decideOffer o a).lnk.sup.answers = s.lnk.sup.answers ∧
    (s.decideOffer o a).lnk.sup.sending = s.lnk.sup.sending ∧ (s.decideOffer o a).lnk.sup.line = s.lnk.sup.line ∧
    (s.decideOffer o a).lnk.mach = s.lnk.mach ∧ (s.decideOffer o a).cfg = s.cfg ∧
    (s.decideOffer o a).pending = s.pending := by
  unfold decideOffer
  try dsimp only
  (repeat' split) <;> simp

@[simp] theorem offerValve_frame (s : State) (o : Nat) (a : ValveAction) :
    (s.offerValve o a).tb = s.tb ∧ (s.offerValve o a).ot = s.ot ∧ (s.offerValve o a).pln = s.pln ∧
    (s.offerValve o a).ilk = s.ilk ∧ (s.offerValve o a).dru = s.dru ∧
    (s.offerValve o a).ofu.sections = s.ofu.sections ∧ (s.offerValve o a).ofu.gates = s.ofu.gates ∧
    (s.offerValve o a).ofu.valves = s.ofu.valves ∧ (s.offerValve o a).ofu.iso = s.ofu.iso ∧
    (s.offerValve o a).ofu.charges = s.ofu.charges ∧ (s.offerValve o a).qnu = s.qnu ∧ (s.offerValve o a).trm = s.trm ∧
    (s.offerValve o a).lnk.sup.port = s.lnk.sup.port ∧ (s.offerValve o a).lnk.sup.answers = s.lnk.sup.answers ∧
    (s.offerValve o a).lnk.sup.sending = s.lnk.sup.sending ∧ (s.offerValve o a).lnk.sup.line = s.lnk.sup.line ∧
    (∀ j, (((s.offerValve o a)).lnk.mach.get j).port = (s.lnk.mach.get j).port) ∧
    (∀ j, (((s.offerValve o a)).lnk.mach.get j).test = (s.lnk.mach.get j).test) ∧ (s.offerValve o a).cfg = s.cfg ∧
    (s.offerValve o a).pending = s.pending := by
  unfold offerValve
  try dsimp only
  (repeat' split) <;> simp

@[simp] theorem retryHeld_frame  (x0 : List HeldOffer) (s : State) :
    (retryHeld x0 s).tb = s.tb ∧ (retryHeld x0 s).ot = s.ot ∧ (retryHeld x0 s).pln = s.pln ∧
    (retryHeld x0 s).ilk = s.ilk ∧ (retryHeld x0 s).dru = s.dru ∧ (retryHeld x0 s).ofu.sections = s.ofu.sections ∧
    (retryHeld x0 s).ofu.gates = s.ofu.gates ∧ (retryHeld x0 s).ofu.valves = s.ofu.valves ∧
    (retryHeld x0 s).ofu.iso = s.ofu.iso ∧ (retryHeld x0 s).ofu.charges = s.ofu.charges ∧
    (retryHeld x0 s).qnu = s.qnu ∧ (retryHeld x0 s).trm = s.trm ∧ (retryHeld x0 s).lnk.sup.port = s.lnk.sup.port ∧
    (retryHeld x0 s).lnk.sup.answers = s.lnk.sup.answers ∧ (retryHeld x0 s).lnk.sup.sending = s.lnk.sup.sending ∧
    (retryHeld x0 s).lnk.sup.line = s.lnk.sup.line ∧
    (∀ j, (((retryHeld x0 s)).lnk.mach.get j).port = (s.lnk.mach.get j).port) ∧
    (∀ j, (((retryHeld x0 s)).lnk.mach.get j).test = (s.lnk.mach.get j).test) ∧ (retryHeld x0 s).cfg = s.cfg ∧
    (retryHeld x0 s).pending = s.pending := by
  induction x0 generalizing s with
  | nil => simp [retryHeld]
  | cons a l ih => rw [retryHeld]; split <;> simp [ih]

@[simp] theorem valveTimeout_frame (s : State) (e : ValveEntry) :
    (s.valveTimeout e).tb = s.tb ∧ (s.valveTimeout e).ot = s.ot ∧ (s.valveTimeout e).pln = s.pln ∧
    (s.valveTimeout e).ilk = s.ilk ∧ (s.valveTimeout e).dru = s.dru ∧
    (s.valveTimeout e).ofu.sections = s.ofu.sections ∧ (s.valveTimeout e).ofu.gates = s.ofu.gates ∧
    (s.valveTimeout e).ofu.valves = s.ofu.valves ∧ (s.valveTimeout e).ofu.heldOffers = s.ofu.heldOffers ∧
    (s.valveTimeout e).ofu.iso = s.ofu.iso ∧ (s.valveTimeout e).ofu.charges = s.ofu.charges ∧
    (s.valveTimeout e).qnu = s.qnu ∧ (s.valveTimeout e).trm = s.trm ∧
    (s.valveTimeout e).lnk.sup.port = s.lnk.sup.port ∧ (s.valveTimeout e).lnk.sup.answers = s.lnk.sup.answers ∧
    (s.valveTimeout e).lnk.sup.sending = s.lnk.sup.sending ∧ (s.valveTimeout e).lnk.sup.line = s.lnk.sup.line ∧
    (∀ j, (((s.valveTimeout e)).lnk.mach.get j).port = (s.lnk.mach.get j).port) ∧
    (∀ j, (((s.valveTimeout e)).lnk.mach.get j).test = (s.lnk.mach.get j).test) ∧ (s.valveTimeout e).cfg = s.cfg ∧
    (s.valveTimeout e).pending = s.pending := by
  unfold valveTimeout
  try dsimp only
  (repeat' split) <;> simp

@[simp] theorem valveOffline_frame (s : State) :
    s.valveOffline.tb = s.tb ∧ s.valveOffline.ot = s.ot ∧ s.valveOffline.pln = s.pln ∧ s.valveOffline.ilk = s.ilk ∧
    s.valveOffline.dru = s.dru ∧ s.valveOffline.ofu.sections = s.ofu.sections ∧
    s.valveOffline.ofu.gates = s.ofu.gates ∧ s.valveOffline.ofu.valves = s.ofu.valves ∧
    s.valveOffline.ofu.heldOffers = s.ofu.heldOffers ∧ s.valveOffline.ofu.iso = s.ofu.iso ∧
    s.valveOffline.ofu.charges = s.ofu.charges ∧ s.valveOffline.qnu = s.qnu ∧ s.valveOffline.trm = s.trm ∧
    s.valveOffline.lnk = s.lnk ∧ s.valveOffline.cfg = s.cfg ∧ s.valveOffline.pending = s.pending := by
  unfold valveOffline
  try dsimp only
  (repeat' split) <;> simp

@[simp] theorem ccDone_frame (s : State) (o : Nat) (a : ValveAction) (r : ValveResult) :
    (s.ccDone o a r).tb = s.tb ∧ (s.ccDone o a r).ot = s.ot ∧ (s.ccDone o a r).pln = s.pln ∧
    (s.ccDone o a r).ilk = s.ilk ∧ (s.ccDone o a r).dru = s.dru ∧ (s.ccDone o a r).ofu.sections = s.ofu.sections ∧
    (s.ccDone o a r).ofu.gates = s.ofu.gates ∧ (s.ccDone o a r).ofu.valves = s.ofu.valves ∧
    (s.ccDone o a r).ofu.heldOffers = s.ofu.heldOffers ∧ (s.ccDone o a r).ofu.iso = s.ofu.iso ∧
    (s.ccDone o a r).ofu.charges = s.ofu.charges ∧ (s.ccDone o a r).qnu = s.qnu ∧ (s.ccDone o a r).trm = s.trm ∧
    (s.ccDone o a r).lnk.sup.port = s.lnk.sup.port ∧ (s.ccDone o a r).lnk.sup.answers = s.lnk.sup.answers ∧
    (s.ccDone o a r).lnk.sup.sending = s.lnk.sup.sending ∧ (s.ccDone o a r).lnk.sup.line = s.lnk.sup.line ∧
    (∀ j, (((s.ccDone o a r)).lnk.mach.get j).port = (s.lnk.mach.get j).port) ∧
    (∀ j, (((s.ccDone o a r)).lnk.mach.get j).test = (s.lnk.mach.get j).test) ∧ (s.ccDone o a r).cfg = s.cfg ∧
    (s.ccDone o a r).pending = s.pending := by
  unfold ccDone
  try dsimp only
  (repeat' split) <;> simp

@[simp] theorem setIsolate_frame (s : State) (o expiry : Nat) :
    (s.setIsolate o expiry).tb = s.tb ∧ (s.setIsolate o expiry).ot = s.ot ∧ (s.setIsolate o expiry).pln = s.pln ∧
    (s.setIsolate o expiry).ilk = s.ilk ∧ (s.setIsolate o expiry).dru = s.dru ∧
    (s.setIsolate o expiry).ofu.sections = s.ofu.sections ∧ (s.setIsolate o expiry).ofu.gates = s.ofu.gates ∧
    (s.setIsolate o expiry).ofu.valves = s.ofu.valves ∧ (s.setIsolate o expiry).ofu.charges = s.ofu.charges ∧
    (s.setIsolate o expiry).qnu = s.qnu ∧ (s.setIsolate o expiry).trm = s.trm ∧
    (s.setIsolate o expiry).lnk.sup.port = s.lnk.sup.port ∧
    (s.setIsolate o expiry).lnk.sup.answers = s.lnk.sup.answers ∧
    (s.setIsolate o expiry).lnk.sup.sending = s.lnk.sup.sending ∧
    (s.setIsolate o expiry).lnk.sup.line = s.lnk.sup.line ∧
    (∀ j, (((s.setIsolate o expiry)).lnk.mach.get j).port = (s.lnk.mach.get j).port) ∧
    (∀ j, (((s.setIsolate o expiry)).lnk.mach.get j).test = (s.lnk.mach.get j).test) ∧
    (s.setIsolate o expiry).cfg = s.cfg ∧ (s.setIsolate o expiry).pending = s.pending := by
  unfold setIsolate
  try dsimp only
  (repeat' split) <;> simp

@[simp] theorem normalCheck_frame (s : State) (o : Nat) :
    (s.normalCheck o).tb = s.tb ∧ (s.normalCheck o).ot = s.ot ∧ (s.normalCheck o).pln = s.pln ∧
    (s.normalCheck o).ilk = s.ilk ∧ (s.normalCheck o).dru = s.dru ∧ (s.normalCheck o).ofu.sections = s.ofu.sections ∧
    (s.normalCheck o).ofu.gates = s.ofu.gates ∧ (s.normalCheck o).ofu.valves = s.ofu.valves ∧
    (s.normalCheck o).ofu.iso = s.ofu.iso ∧ (s.normalCheck o).ofu.charges = s.ofu.charges ∧
    (s.normalCheck o).qnu = s.qnu ∧ (s.normalCheck o).trm = s.trm ∧ (s.normalCheck o).lnk.sup.port = s.lnk.sup.port ∧
    (s.normalCheck o).lnk.sup.answers = s.lnk.sup.answers ∧ (s.normalCheck o).lnk.sup.sending = s.lnk.sup.sending ∧
    (s.normalCheck o).lnk.sup.line = s.lnk.sup.line ∧
    (∀ j, (((s.normalCheck o)).lnk.mach.get j).port = (s.lnk.mach.get j).port) ∧
    (∀ j, (((s.normalCheck o)).lnk.mach.get j).test = (s.lnk.mach.get j).test) ∧ (s.normalCheck o).cfg = s.cfg ∧
    (s.normalCheck o).pending = s.pending := by
  unfold normalCheck
  try dsimp only
  (repeat' split) <;> simp

@[simp] theorem nextForValves_frame (s : State) (old new : Option (Nat × Nat)) :
    (s.nextForValves old new).tb = s.tb ∧ (s.nextForValves old new).ot = s.ot ∧
    (s.nextForValves old new).pln = s.pln ∧ (s.nextForValves old new).ilk = s.ilk ∧
    (s.nextForValves old new).dru = s.dru ∧ (s.nextForValves old new).ofu.sections = s.ofu.sections ∧
    (s.nextForValves old new).ofu.gates = s.ofu.gates ∧ (s.nextForValves old new).ofu.valves = s.ofu.valves ∧
    (s.nextForValves old new).ofu.charges = s.ofu.charges ∧ (s.nextForValves old new).qnu = s.qnu ∧
    (s.nextForValves old new).trm = s.trm ∧ (s.nextForValves old new).lnk.sup.port = s.lnk.sup.port ∧
    (s.nextForValves old new).lnk.sup.answers = s.lnk.sup.answers ∧
    (s.nextForValves old new).lnk.sup.sending = s.lnk.sup.sending ∧
    (s.nextForValves old new).lnk.sup.line = s.lnk.sup.line ∧
    (∀ j, (((s.nextForValves old new)).lnk.mach.get j).port = (s.lnk.mach.get j).port) ∧
    (∀ j, (((s.nextForValves old new)).lnk.mach.get j).test = (s.lnk.mach.get j).test) ∧
    (s.nextForValves old new).cfg = s.cfg ∧ (s.nextForValves old new).pending = s.pending := by
  unfold nextForValves
  try dsimp only
  (repeat' split) <;> simp

end State

end Sys2Proof.Machine
end

