-- ==== Sys2Proof/Laws/FramesB.lean ====
section
/-! SUPPORT. Frames: what the planner, the oven table, the door unit and the push record leave unchanged. One lemma per operation, a
conjunction that simp reads as one rewrite rule per field. -/

set_option linter.all false

namespace Sys2Proof.Machine

open Sys2Proof

namespace State

@[simp] theorem updPlan_frame (s : State) (f : Planner → Planner) :
    (s.updPlan f).tb = s.tb ∧ (s.updPlan f).ot = s.ot ∧ (s.updPlan f).ilk = s.ilk ∧ (s.updPlan f).dru = s.dru ∧
    (s.updPlan f).ofu = s.ofu ∧ (s.updPlan f).qnu = s.qnu ∧ (s.updPlan f).trm = s.trm ∧ (s.updPlan f).lnk = s.lnk ∧
    (s.updPlan f).cfg = s.cfg ∧ (s.updPlan f).pending = s.pending := by
  unfold updPlan
  try dsimp only
  (repeat' split) <;> simp

@[simp] theorem updCursor_frame (s : State) (f : Slot → Slot) :
    (s.updCursor f).tb = s.tb ∧ (s.updCursor f).ot = s.ot ∧ (s.updCursor f).ilk = s.ilk ∧
    (s.updCursor f).dru = s.dru ∧ (s.updCursor f).ofu = s.ofu ∧ (s.updCursor f).qnu = s.qnu ∧
    (s.updCursor f).trm = s.trm ∧ (s.updCursor f).lnk = s.lnk ∧ (s.updCursor f).cfg = s.cfg ∧
    (s.updCursor f).pending = s.pending := by
  unfold updCursor
  try dsimp only
  (repeat' split) <;> simp

@[simp] theorem idleServing_frame (s : State) :
    s.idleServing.tb = s.tb ∧ s.idleServing.ot = s.ot ∧ s.idleServing.ilk = s.ilk ∧ s.idleServing.dru = s.dru ∧
    s.idleServing.ofu = s.ofu ∧ s.idleServing.qnu = s.qnu ∧ s.idleServing.trm = s.trm ∧ s.idleServing.lnk = s.lnk ∧
    s.idleServing.cfg = s.cfg ∧ s.idleServing.pending = s.pending := by
  unfold idleServing
  try dsimp only
  (repeat' split) <;> simp

@[simp] theorem build_frame (s : State) (p : SeriesParams) (start number : Nat) (stagedUsed : Bool) (st : PlanState) :
    (s.build p start number stagedUsed st).tb = s.tb ∧ (s.build p start number stagedUsed st).ot = s.ot ∧
    (s.build p start number stagedUsed st).ilk = s.ilk ∧ (s.build p start number stagedUsed st).dru = s.dru ∧
    (s.build p start number stagedUsed st).ofu = s.ofu ∧ (s.build p start number stagedUsed st).qnu = s.qnu ∧
    (s.build p start number stagedUsed st).trm = s.trm ∧
    (s.build p start number stagedUsed st).lnk.sup.port = s.lnk.sup.port ∧
    (s.build p start number stagedUsed st).lnk.sup.answers = s.lnk.sup.answers ∧
    (s.build p start number stagedUsed st).lnk.sup.sending = s.lnk.sup.sending ∧
    (s.build p start number stagedUsed st).lnk.sup.line = s.lnk.sup.line ∧
    (s.build p start number stagedUsed st).lnk.mach = s.lnk.mach ∧
    (s.build p start number stagedUsed st).cfg = s.cfg ∧
    (s.build p start number stagedUsed st).pending = s.pending := by
  unfold build
  try dsimp only
  (repeat' split) <;> simp

@[simp] theorem buildNext_frame (s : State) :
    s.buildNext.tb = s.tb ∧ s.buildNext.ot = s.ot ∧ s.buildNext.ilk = s.ilk ∧ s.buildNext.dru = s.dru ∧
    s.buildNext.ofu = s.ofu ∧ s.buildNext.qnu = s.qnu ∧ s.buildNext.trm = s.trm ∧
    s.buildNext.lnk.sup.port = s.lnk.sup.port ∧ s.buildNext.lnk.sup.answers = s.lnk.sup.answers ∧
    s.buildNext.lnk.sup.sending = s.lnk.sup.sending ∧ s.buildNext.lnk.sup.line = s.lnk.sup.line ∧
    s.buildNext.lnk.mach = s.lnk.mach ∧ s.buildNext.cfg = s.cfg ∧ s.buildNext.pending = s.pending := by
  unfold buildNext
  try dsimp only
  (repeat' split) <;> simp

@[simp] theorem boundary_frame (s : State) :
    s.boundary.tb = s.tb ∧ s.boundary.ot = s.ot ∧ s.boundary.ilk = s.ilk ∧ s.boundary.dru = s.dru ∧
    s.boundary.ofu = s.ofu ∧ s.boundary.qnu = s.qnu ∧ s.boundary.trm = s.trm ∧
    s.boundary.lnk.sup.port = s.lnk.sup.port ∧ s.boundary.lnk.sup.answers = s.lnk.sup.answers ∧
    s.boundary.lnk.sup.sending = s.lnk.sup.sending ∧ s.boundary.lnk.sup.line = s.lnk.sup.line ∧
    s.boundary.lnk.mach = s.lnk.mach ∧ s.boundary.cfg = s.cfg ∧ s.boundary.pending = s.pending := by
  unfold boundary
  try dsimp only
  (repeat' split) <;> simp

@[simp] theorem advance_frame (s : State) :
    s.advance.tb = s.tb ∧ s.advance.ot = s.ot ∧ s.advance.ilk = s.ilk ∧ s.advance.dru = s.dru ∧
    s.advance.ofu = s.ofu ∧ s.advance.qnu = s.qnu ∧ s.advance.trm = s.trm ∧ s.advance.lnk.sup.port = s.lnk.sup.port ∧
    s.advance.lnk.sup.answers = s.lnk.sup.answers ∧ s.advance.lnk.sup.sending = s.lnk.sup.sending ∧
    s.advance.lnk.sup.line = s.lnk.sup.line ∧ s.advance.lnk.mach = s.lnk.mach ∧ s.advance.cfg = s.cfg ∧
    s.advance.pending = s.pending := by
  unfold advance
  try dsimp only
  (repeat' split) <;> simp

@[simp] theorem passSlot_frame (s : State) (reason : PassReason) :
    (s.passSlot reason).tb = s.tb ∧ (s.passSlot reason).ot = s.ot ∧ (s.passSlot reason).ilk = s.ilk ∧
    (s.passSlot reason).dru = s.dru ∧ (s.passSlot reason).ofu = s.ofu ∧ (s.passSlot reason).qnu = s.qnu ∧
    (s.passSlot reason).trm = s.trm ∧ (s.passSlot reason).lnk.sup.port = s.lnk.sup.port ∧
    (s.passSlot reason).lnk.sup.answers = s.lnk.sup.answers ∧
    (s.passSlot reason).lnk.sup.sending = s.lnk.sup.sending ∧ (s.passSlot reason).lnk.sup.line = s.lnk.sup.line ∧
    (s.passSlot reason).lnk.mach = s.lnk.mach ∧ (s.passSlot reason).cfg = s.cfg ∧
    (s.passSlot reason).pending = s.pending := by
  unfold passSlot
  try dsimp only
  (repeat' split) <;> simp

@[simp] theorem checkOnce_frame (s : State) :
    s.checkOnce.1.tb = s.tb ∧ s.checkOnce.1.ot = s.ot ∧ s.checkOnce.1.ilk = s.ilk ∧ s.checkOnce.1.dru = s.dru ∧
    s.checkOnce.1.ofu = s.ofu ∧ s.checkOnce.1.qnu = s.qnu ∧ s.checkOnce.1.trm = s.trm ∧
    s.checkOnce.1.lnk.sup.port = s.lnk.sup.port ∧ s.checkOnce.1.lnk.sup.answers = s.lnk.sup.answers ∧
    s.checkOnce.1.lnk.sup.sending = s.lnk.sup.sending ∧ s.checkOnce.1.lnk.sup.line = s.lnk.sup.line ∧
    s.checkOnce.1.lnk.mach = s.lnk.mach ∧ s.checkOnce.1.cfg = s.cfg ∧ s.checkOnce.1.pending = s.pending := by
  unfold checkOnce
  try dsimp only
  (repeat' split) <;> simp

@[simp] theorem checkLoop_frame  (x0 : Nat) (s : State) :
    (checkLoop x0 s).tb = s.tb ∧ (checkLoop x0 s).ot = s.ot ∧ (checkLoop x0 s).ilk = s.ilk ∧
    (checkLoop x0 s).dru = s.dru ∧ (checkLoop x0 s).ofu = s.ofu ∧ (checkLoop x0 s).qnu = s.qnu ∧
    (checkLoop x0 s).trm = s.trm ∧ (checkLoop x0 s).lnk.sup.port = s.lnk.sup.port ∧
    (checkLoop x0 s).lnk.sup.answers = s.lnk.sup.answers ∧ (checkLoop x0 s).lnk.sup.sending = s.lnk.sup.sending ∧
    (checkLoop x0 s).lnk.sup.line = s.lnk.sup.line ∧ (checkLoop x0 s).lnk.mach = s.lnk.mach ∧
    (checkLoop x0 s).cfg = s.cfg ∧ (checkLoop x0 s).pending = s.pending := by
  induction x0 generalizing s with
  | zero => rw [checkLoop]; split <;> simp
  | succ k ih =>
    have h := checkOnce_frame s
    rw [checkLoop]; split <;> rename_i e <;> rw [e] at h <;> simp_all

@[simp] theorem makeupCheck_frame (s : State) :
    s.makeupCheck.tb = s.tb ∧ s.makeupCheck.ot = s.ot ∧ s.makeupCheck.ilk = s.ilk ∧ s.makeupCheck.dru = s.dru ∧
    s.makeupCheck.ofu = s.ofu ∧ s.makeupCheck.qnu = s.qnu ∧ s.makeupCheck.trm = s.trm ∧ s.makeupCheck.lnk = s.lnk ∧
    s.makeupCheck.cfg = s.cfg ∧ s.makeupCheck.pending = s.pending := by
  unfold makeupCheck
  try dsimp only
  (repeat' split) <;> simp

@[simp] theorem planSettle_frame (s : State) :
    s.planSettle.tb = s.tb ∧ s.planSettle.ot = s.ot ∧ s.planSettle.ilk = s.ilk ∧ s.planSettle.dru = s.dru ∧
    s.planSettle.ofu = s.ofu ∧ s.planSettle.qnu = s.qnu ∧ s.planSettle.trm = s.trm ∧
    s.planSettle.lnk.sup.port = s.lnk.sup.port ∧ s.planSettle.lnk.sup.answers = s.lnk.sup.answers ∧
    s.planSettle.lnk.sup.sending = s.lnk.sup.sending ∧ s.planSettle.lnk.sup.line = s.lnk.sup.line ∧
    s.planSettle.lnk.mach = s.lnk.mach ∧ s.planSettle.cfg = s.cfg ∧ s.planSettle.pending = s.pending := by
  unfold planSettle
  try dsimp only
  (repeat' split) <;> simp

@[simp] theorem planReport_frame (s : State) :
    s.planReport.tb = s.tb ∧ s.planReport.ot = s.ot ∧ s.planReport.ilk.machines = s.ilk.machines ∧
    s.planReport.ilk.stop = s.ilk.stop ∧ s.planReport.ilk.holdCause = s.ilk.holdCause ∧
    s.planReport.ilk.lastRam = s.ilk.lastRam ∧ s.planReport.dru.doors = s.dru.doors ∧
    s.planReport.dru.vals = s.dru.vals ∧ s.planReport.ofu.sections = s.ofu.sections ∧
    s.planReport.ofu.gates = s.ofu.gates ∧ s.planReport.ofu.valves = s.ofu.valves ∧
    s.planReport.ofu.charges = s.ofu.charges ∧ s.planReport.qnu.blocked = s.qnu.blocked ∧
    s.planReport.qnu.load = s.qnu.load ∧ s.planReport.qnu.phase = s.qnu.phase ∧ s.planReport.qnu.bays = s.qnu.bays ∧
    s.planReport.qnu.free = s.qnu.free ∧ s.planReport.qnu.discharge = s.qnu.discharge ∧
    s.planReport.qnu.vals = s.qnu.vals ∧ s.planReport.trm = s.trm ∧ s.planReport.lnk.sup.port = s.lnk.sup.port ∧
    s.planReport.lnk.sup.answers = s.lnk.sup.answers ∧ s.planReport.lnk.sup.sending = s.lnk.sup.sending ∧
    s.planReport.lnk.sup.line = s.lnk.sup.line ∧
    (∀ j, ((s.planReport).lnk.mach.get j).port = (s.lnk.mach.get j).port) ∧
    (∀ j, ((s.planReport).lnk.mach.get j).test = (s.lnk.mach.get j).test) ∧ s.planReport.cfg = s.cfg ∧
    s.planReport.pending = s.pending := by
  unfold planReport
  try dsimp only
  (repeat' split) <;> simp

@[simp] theorem planUpdate_frame (s : State) :
    s.planUpdate.tb = s.tb ∧ s.planUpdate.ot = s.ot ∧ s.planUpdate.ilk.machines = s.ilk.machines ∧
    s.planUpdate.ilk.stop = s.ilk.stop ∧ s.planUpdate.ilk.holdCause = s.ilk.holdCause ∧
    s.planUpdate.ilk.lastRam = s.ilk.lastRam ∧ s.planUpdate.dru.doors = s.dru.doors ∧
    s.planUpdate.dru.vals = s.dru.vals ∧ s.planUpdate.ofu.sections = s.ofu.sections ∧
    s.planUpdate.ofu.gates = s.ofu.gates ∧ s.planUpdate.ofu.valves = s.ofu.valves ∧
    s.planUpdate.ofu.charges = s.ofu.charges ∧ s.planUpdate.qnu.blocked = s.qnu.blocked ∧
    s.planUpdate.qnu.load = s.qnu.load ∧ s.planUpdate.qnu.phase = s.qnu.phase ∧ s.planUpdate.qnu.bays = s.qnu.bays ∧
    s.planUpdate.qnu.free = s.qnu.free ∧ s.planUpdate.qnu.discharge = s.qnu.discharge ∧
    s.planUpdate.qnu.vals = s.qnu.vals ∧ s.planUpdate.trm = s.trm ∧ s.planUpdate.lnk.sup.port = s.lnk.sup.port ∧
    s.planUpdate.lnk.sup.answers = s.lnk.sup.answers ∧ s.planUpdate.lnk.sup.sending = s.lnk.sup.sending ∧
    s.planUpdate.lnk.sup.line = s.lnk.sup.line ∧
    (∀ j, ((s.planUpdate).lnk.mach.get j).port = (s.lnk.mach.get j).port) ∧
    (∀ j, ((s.planUpdate).lnk.mach.get j).test = (s.lnk.mach.get j).test) ∧ s.planUpdate.cfg = s.cfg ∧
    s.planUpdate.pending = s.pending := by
  unfold planUpdate
  try dsimp only
  (repeat' split) <;> simp

@[simp] theorem releaseServing_frame (s : State) :
    s.releaseServing.tb = s.tb ∧ s.releaseServing.ot = s.ot ∧ s.releaseServing.ilk = s.ilk ∧
    s.releaseServing.dru = s.dru ∧ s.releaseServing.ofu = s.ofu ∧ s.releaseServing.qnu = s.qnu ∧
    s.releaseServing.trm = s.trm ∧ s.releaseServing.lnk = s.lnk ∧ s.releaseServing.cfg = s.cfg ∧
    s.releaseServing.pending = s.pending := by
  unfold releaseServing
  try dsimp only
  (repeat' split) <;> simp

@[simp] theorem planOvenChanged_frame (s : State) (n : Nat) :
    (s.planOvenChanged n).tb = s.tb ∧ (s.planOvenChanged n).ot = s.ot ∧
    (s.planOvenChanged n).ilk.machines = s.ilk.machines ∧ (s.planOvenChanged n).ilk.stop = s.ilk.stop ∧
    (s.planOvenChanged n).ilk.holdCause = s.ilk.holdCause ∧ (s.planOvenChanged n).ilk.lastRam = s.ilk.lastRam ∧
    (s.planOvenChanged n).dru.doors = s.dru.doors ∧ (s.planOvenChanged n).dru.vals = s.dru.vals ∧
    (s.planOvenChanged n).ofu.sections = s.ofu.sections ∧ (s.planOvenChanged n).ofu.gates = s.ofu.gates ∧
    (s.planOvenChanged n).ofu.valves = s.ofu.valves ∧ (s.planOvenChanged n).ofu.charges = s.ofu.charges ∧
    (s.planOvenChanged n).qnu.blocked = s.qnu.blocked ∧ (s.planOvenChanged n).qnu.load = s.qnu.load ∧
    (s.planOvenChanged n).qnu.phase = s.qnu.phase ∧ (s.planOvenChanged n).qnu.bays = s.qnu.bays ∧
    (s.planOvenChanged n).qnu.free = s.qnu.free ∧ (s.planOvenChanged n).qnu.discharge = s.qnu.discharge ∧
    (s.planOvenChanged n).qnu.vals = s.qnu.vals ∧ (s.planOvenChanged n).trm = s.trm ∧
    (s.planOvenChanged n).lnk.sup.port = s.lnk.sup.port ∧ (s.planOvenChanged n).lnk.sup.answers = s.lnk.sup.answers ∧
    (s.planOvenChanged n).lnk.sup.sending = s.lnk.sup.sending ∧ (s.planOvenChanged n).lnk.sup.line = s.lnk.sup.line ∧
    (∀ j, (((s.planOvenChanged n)).lnk.mach.get j).port = (s.lnk.mach.get j).port) ∧
    (∀ j, (((s.planOvenChanged n)).lnk.mach.get j).test = (s.lnk.mach.get j).test) ∧
    (s.planOvenChanged n).cfg = s.cfg ∧ (s.planOvenChanged n).pending = s.pending := by
  unfold planOvenChanged
  try dsimp only
  (repeat' split) <;> simp

@[simp] theorem writeMode_frame (s : State) (n : Nat) (mode : SlotMode) (fixedPush : Option Nat) :
    (s.writeMode n mode fixedPush).tb = s.tb ∧ (s.writeMode n mode fixedPush).ilk.machines = s.ilk.machines ∧
    (s.writeMode n mode fixedPush).ilk.stop = s.ilk.stop ∧
    (s.writeMode n mode fixedPush).ilk.holdCause = s.ilk.holdCause ∧
    (s.writeMode n mode fixedPush).ilk.lastRam = s.ilk.lastRam ∧
    (s.writeMode n mode fixedPush).dru.doors = s.dru.doors ∧ (s.writeMode n mode fixedPush).dru.vals = s.dru.vals ∧
    (s.writeMode n mode fixedPush).ofu.sections = s.ofu.sections ∧
    (s.writeMode n mode fixedPush).ofu.gates = s.ofu.gates ∧
    (s.writeMode n mode fixedPush).ofu.valves = s.ofu.valves ∧
    (s.writeMode n mode fixedPush).ofu.charges = s.ofu.charges ∧
    (s.writeMode n mode fixedPush).qnu.blocked = s.qnu.blocked ∧
    (s.writeMode n mode fixedPush).qnu.load = s.qnu.load ∧ (s.writeMode n mode fixedPush).qnu.phase = s.qnu.phase ∧
    (s.writeMode n mode fixedPush).qnu.bays = s.qnu.bays ∧ (s.writeMode n mode fixedPush).qnu.free = s.qnu.free ∧
    (s.writeMode n mode fixedPush).qnu.discharge = s.qnu.discharge ∧
    (s.writeMode n mode fixedPush).qnu.vals = s.qnu.vals ∧ (s.writeMode n mode fixedPush).trm = s.trm ∧
    (s.writeMode n mode fixedPush).lnk.sup.port = s.lnk.sup.port ∧
    (s.writeMode n mode fixedPush).lnk.sup.answers = s.lnk.sup.answers ∧
    (s.writeMode n mode fixedPush).lnk.sup.sending = s.lnk.sup.sending ∧
    (s.writeMode n mode fixedPush).lnk.sup.line = s.lnk.sup.line ∧
    (∀ j, (((s.writeMode n mode fixedPush)).lnk.mach.get j).port = (s.lnk.mach.get j).port) ∧
    (∀ j, (((s.writeMode n mode fixedPush)).lnk.mach.get j).test = (s.lnk.mach.get j).test) ∧
    (s.writeMode n mode fixedPush).cfg = s.cfg ∧ (s.writeMode n mode fixedPush).pending = s.pending := by
  unfold writeMode
  try dsimp only
  (repeat' split) <;> simp

@[simp] theorem planHalt_frame (s : State) :
    s.planHalt.tb = s.tb ∧ s.planHalt.ot = s.ot ∧ s.planHalt.ilk.machines = s.ilk.machines ∧
    s.planHalt.ilk.stop = s.ilk.stop ∧ s.planHalt.ilk.holdCause = s.ilk.holdCause ∧
    s.planHalt.ilk.lastRam = s.ilk.lastRam ∧ s.planHalt.dru.doors = s.dru.doors ∧ s.planHalt.dru.vals = s.dru.vals ∧
    s.planHalt.ofu.sections = s.ofu.sections ∧ s.planHalt.ofu.gates = s.ofu.gates ∧
    s.planHalt.ofu.valves = s.ofu.valves ∧ s.planHalt.ofu.charges = s.ofu.charges ∧
    s.planHalt.qnu.blocked = s.qnu.blocked ∧ s.planHalt.qnu.load = s.qnu.load ∧ s.planHalt.qnu.phase = s.qnu.phase ∧
    s.planHalt.qnu.bays = s.qnu.bays ∧ s.planHalt.qnu.free = s.qnu.free ∧ s.planHalt.qnu.discharge = s.qnu.discharge ∧
    s.planHalt.qnu.vals = s.qnu.vals ∧ s.planHalt.trm = s.trm ∧ s.planHalt.lnk.sup.port = s.lnk.sup.port ∧
    s.planHalt.lnk.sup.answers = s.lnk.sup.answers ∧ s.planHalt.lnk.sup.sending = s.lnk.sup.sending ∧
    s.planHalt.lnk.sup.line = s.lnk.sup.line ∧ (∀ j, ((s.planHalt).lnk.mach.get j).port = (s.lnk.mach.get j).port) ∧
    (∀ j, ((s.planHalt).lnk.mach.get j).test = (s.lnk.mach.get j).test) ∧ s.planHalt.cfg = s.cfg ∧
    s.planHalt.pending = s.pending := by
  unfold planHalt
  try dsimp only
  (repeat' split) <;> simp

@[simp] theorem planPushBegins_frame (s : State) (n : Nat) :
    (s.planPushBegins n).tb = s.tb ∧ (s.planPushBegins n).ot = s.ot ∧
    (s.planPushBegins n).ilk.machines = s.ilk.machines ∧ (s.planPushBegins n).ilk.stop = s.ilk.stop ∧
    (s.planPushBegins n).ilk.holdCause = s.ilk.holdCause ∧ (s.planPushBegins n).ilk.lastRam = s.ilk.lastRam ∧
    (s.planPushBegins n).dru.doors = s.dru.doors ∧ (s.planPushBegins n).dru.vals = s.dru.vals ∧
    (s.planPushBegins n).ofu.sections = s.ofu.sections ∧ (s.planPushBegins n).ofu.gates = s.ofu.gates ∧
    (s.planPushBegins n).ofu.valves = s.ofu.valves ∧ (s.planPushBegins n).ofu.charges = s.ofu.charges ∧
    (s.planPushBegins n).qnu.blocked = s.qnu.blocked ∧ (s.planPushBegins n).qnu.load = s.qnu.load ∧
    (s.planPushBegins n).qnu.phase = s.qnu.phase ∧ (s.planPushBegins n).qnu.bays = s.qnu.bays ∧
    (s.planPushBegins n).qnu.free = s.qnu.free ∧ (s.planPushBegins n).qnu.discharge = s.qnu.discharge ∧
    (s.planPushBegins n).qnu.vals = s.qnu.vals ∧ (s.planPushBegins n).trm = s.trm ∧
    (s.planPushBegins n).lnk.sup.port = s.lnk.sup.port ∧ (s.planPushBegins n).lnk.sup.answers = s.lnk.sup.answers ∧
    (s.planPushBegins n).lnk.sup.sending = s.lnk.sup.sending ∧ (s.planPushBegins n).lnk.sup.line = s.lnk.sup.line ∧
    (∀ j, (((s.planPushBegins n)).lnk.mach.get j).port = (s.lnk.mach.get j).port) ∧
    (∀ j, (((s.planPushBegins n)).lnk.mach.get j).test = (s.lnk.mach.get j).test) ∧ (s.planPushBegins n).cfg = s.cfg ∧
    (s.planPushBegins n).pending = s.pending := by
  unfold planPushBegins
  try dsimp only
  (repeat' split) <;> simp

@[simp] theorem planRamStart_frame (s : State) (n : Nat) :
    (s.planRamStart n).tb = s.tb ∧ (s.planRamStart n).ot = s.ot ∧ (s.planRamStart n).ilk.machines = s.ilk.machines ∧
    (s.planRamStart n).ilk.stop = s.ilk.stop ∧ (s.planRamStart n).ilk.holdCause = s.ilk.holdCause ∧
    (s.planRamStart n).ilk.lastRam = s.ilk.lastRam ∧ (s.planRamStart n).dru.doors = s.dru.doors ∧
    (s.planRamStart n).dru.vals = s.dru.vals ∧ (s.planRamStart n).ofu.sections = s.ofu.sections ∧
    (s.planRamStart n).ofu.gates = s.ofu.gates ∧ (s.planRamStart n).ofu.valves = s.ofu.valves ∧
    (s.planRamStart n).ofu.charges = s.ofu.charges ∧ (s.planRamStart n).qnu.blocked = s.qnu.blocked ∧
    (s.planRamStart n).qnu.load = s.qnu.load ∧ (s.planRamStart n).qnu.phase = s.qnu.phase ∧
    (s.planRamStart n).qnu.bays = s.qnu.bays ∧ (s.planRamStart n).qnu.free = s.qnu.free ∧
    (s.planRamStart n).qnu.discharge = s.qnu.discharge ∧ (s.planRamStart n).qnu.vals = s.qnu.vals ∧
    (s.planRamStart n).trm = s.trm ∧ (s.planRamStart n).lnk.sup.port = s.lnk.sup.port ∧
    (s.planRamStart n).lnk.sup.answers = s.lnk.sup.answers ∧ (s.planRamStart n).lnk.sup.sending = s.lnk.sup.sending ∧
    (s.planRamStart n).lnk.sup.line = s.lnk.sup.line ∧
    (∀ j, (((s.planRamStart n)).lnk.mach.get j).port = (s.lnk.mach.get j).port) ∧
    (∀ j, (((s.planRamStart n)).lnk.mach.get j).test = (s.lnk.mach.get j).test) ∧ (s.planRamStart n).cfg = s.cfg ∧
    (s.planRamStart n).pending = s.pending := by
  unfold planRamStart
  try dsimp only
  (repeat' split) <;> simp

@[simp] theorem dropMakeup_frame (s : State) (n : Nat) :
    (s.dropMakeup n).tb = s.tb ∧ (s.dropMakeup n).ot = s.ot ∧ (s.dropMakeup n).ilk = s.ilk ∧
    (s.dropMakeup n).dru = s.dru ∧ (s.dropMakeup n).ofu = s.ofu ∧ (s.dropMakeup n).qnu = s.qnu ∧
    (s.dropMakeup n).trm = s.trm ∧ (s.dropMakeup n).lnk = s.lnk ∧ (s.dropMakeup n).cfg = s.cfg ∧
    (s.dropMakeup n).pending = s.pending := by
  unfold dropMakeup
  try dsimp only
  (repeat' split) <;> simp

@[simp] theorem advanceIfRunning_frame (s : State) :
    s.advanceIfRunning.tb = s.tb ∧ s.advanceIfRunning.ot = s.ot ∧ s.advanceIfRunning.ilk = s.ilk ∧
    s.advanceIfRunning.dru = s.dru ∧ s.advanceIfRunning.ofu = s.ofu ∧ s.advanceIfRunning.qnu = s.qnu ∧
    s.advanceIfRunning.trm = s.trm ∧ s.advanceIfRunning.lnk.sup.port = s.lnk.sup.port ∧
    s.advanceIfRunning.lnk.sup.answers = s.lnk.sup.answers ∧ s.advanceIfRunning.lnk.sup.sending = s.lnk.sup.sending ∧
    s.advanceIfRunning.lnk.sup.line = s.lnk.sup.line ∧ s.advanceIfRunning.lnk.mach = s.lnk.mach ∧
    s.advanceIfRunning.cfg = s.cfg ∧ s.advanceIfRunning.pending = s.pending := by
  unfold advanceIfRunning
  try dsimp only
  (repeat' split) <;> simp

@[simp] theorem planPushComplete_frame (s : State) (n : Nat) :
    (s.planPushComplete n).tb = s.tb ∧ (s.planPushComplete n).ot = s.ot ∧
    (s.planPushComplete n).ilk.machines = s.ilk.machines ∧ (s.planPushComplete n).ilk.stop = s.ilk.stop ∧
    (s.planPushComplete n).ilk.holdCause = s.ilk.holdCause ∧ (s.planPushComplete n).ilk.lastRam = s.ilk.lastRam ∧
    (s.planPushComplete n).dru.doors = s.dru.doors ∧ (s.planPushComplete n).dru.vals = s.dru.vals ∧
    (s.planPushComplete n).ofu.sections = s.ofu.sections ∧ (s.planPushComplete n).ofu.gates = s.ofu.gates ∧
    (s.planPushComplete n).ofu.valves = s.ofu.valves ∧ (s.planPushComplete n).ofu.charges = s.ofu.charges ∧
    (s.planPushComplete n).qnu.blocked = s.qnu.blocked ∧ (s.planPushComplete n).qnu.load = s.qnu.load ∧
    (s.planPushComplete n).qnu.phase = s.qnu.phase ∧ (s.planPushComplete n).qnu.bays = s.qnu.bays ∧
    (s.planPushComplete n).qnu.free = s.qnu.free ∧ (s.planPushComplete n).qnu.discharge = s.qnu.discharge ∧
    (s.planPushComplete n).qnu.vals = s.qnu.vals ∧ (s.planPushComplete n).trm = s.trm ∧
    (s.planPushComplete n).lnk.sup.port = s.lnk.sup.port ∧
    (s.planPushComplete n).lnk.sup.answers = s.lnk.sup.answers ∧
    (s.planPushComplete n).lnk.sup.sending = s.lnk.sup.sending ∧
    (s.planPushComplete n).lnk.sup.line = s.lnk.sup.line ∧
    (∀ j, (((s.planPushComplete n)).lnk.mach.get j).port = (s.lnk.mach.get j).port) ∧
    (∀ j, (((s.planPushComplete n)).lnk.mach.get j).test = (s.lnk.mach.get j).test) ∧
    (s.planPushComplete n).cfg = s.cfg ∧ (s.planPushComplete n).pending = s.pending := by
  unfold planPushComplete
  try dsimp only
  (repeat' split) <;> simp

@[simp] theorem planAbandon_frame (s : State) (n : Nat) :
    (s.planAbandon n).tb = s.tb ∧ (s.planAbandon n).ot = s.ot ∧ (s.planAbandon n).ilk.machines = s.ilk.machines ∧
    (s.planAbandon n).ilk.stop = s.ilk.stop ∧ (s.planAbandon n).ilk.holdCause = s.ilk.holdCause ∧
    (s.planAbandon n).ilk.lastRam = s.ilk.lastRam ∧ (s.planAbandon n).dru.doors = s.dru.doors ∧
    (s.planAbandon n).dru.vals = s.dru.vals ∧ (s.planAbandon n).ofu.sections = s.ofu.sections ∧
    (s.planAbandon n).ofu.gates = s.ofu.gates ∧ (s.planAbandon n).ofu.valves = s.ofu.valves ∧
    (s.planAbandon n).ofu.charges = s.ofu.charges ∧ (s.planAbandon n).qnu.blocked = s.qnu.blocked ∧
    (s.planAbandon n).qnu.load = s.qnu.load ∧ (s.planAbandon n).qnu.phase = s.qnu.phase ∧
    (s.planAbandon n).qnu.bays = s.qnu.bays ∧ (s.planAbandon n).qnu.free = s.qnu.free ∧
    (s.planAbandon n).qnu.discharge = s.qnu.discharge ∧ (s.planAbandon n).qnu.vals = s.qnu.vals ∧
    (s.planAbandon n).trm = s.trm ∧ (s.planAbandon n).lnk.sup.port = s.lnk.sup.port ∧
    (s.planAbandon n).lnk.sup.answers = s.lnk.sup.answers ∧ (s.planAbandon n).lnk.sup.sending = s.lnk.sup.sending ∧
    (s.planAbandon n).lnk.sup.line = s.lnk.sup.line ∧
    (∀ j, (((s.planAbandon n)).lnk.mach.get j).port = (s.lnk.mach.get j).port) ∧
    (∀ j, (((s.planAbandon n)).lnk.mach.get j).test = (s.lnk.mach.get j).test) ∧ (s.planAbandon n).cfg = s.cfg ∧
    (s.planAbandon n).pending = s.pending := by
  unfold planAbandon
  try dsimp only
  (repeat' split) <;> simp

@[simp] theorem planReturn_frame (s : State) :
    s.planReturn.tb = s.tb ∧ s.planReturn.ot = s.ot ∧ s.planReturn.ilk.machines = s.ilk.machines ∧
    s.planReturn.ilk.stop = s.ilk.stop ∧ s.planReturn.ilk.holdCause = s.ilk.holdCause ∧
    s.planReturn.ilk.lastRam = s.ilk.lastRam ∧ s.planReturn.dru.doors = s.dru.doors ∧
    s.planReturn.dru.vals = s.dru.vals ∧ s.planReturn.ofu.sections = s.ofu.sections ∧
    s.planReturn.ofu.gates = s.ofu.gates ∧ s.planReturn.ofu.valves = s.ofu.valves ∧
    s.planReturn.ofu.charges = s.ofu.charges ∧ s.planReturn.qnu.blocked = s.qnu.blocked ∧
    s.planReturn.qnu.load = s.qnu.load ∧ s.planReturn.qnu.phase = s.qnu.phase ∧ s.planReturn.qnu.bays = s.qnu.bays ∧
    s.planReturn.qnu.free = s.qnu.free ∧ s.planReturn.qnu.discharge = s.qnu.discharge ∧
    s.planReturn.qnu.vals = s.qnu.vals ∧ s.planReturn.trm = s.trm ∧ s.planReturn.lnk.sup.port = s.lnk.sup.port ∧
    s.planReturn.lnk.sup.answers = s.lnk.sup.answers ∧ s.planReturn.lnk.sup.sending = s.lnk.sup.sending ∧
    s.planReturn.lnk.sup.line = s.lnk.sup.line ∧
    (∀ j, ((s.planReturn).lnk.mach.get j).port = (s.lnk.mach.get j).port) ∧
    (∀ j, ((s.planReturn).lnk.mach.get j).test = (s.lnk.mach.get j).test) ∧ s.planReturn.cfg = s.cfg ∧
    s.planReturn.pending = s.pending := by
  unfold planReturn
  try dsimp only
  (repeat' split) <;> simp

@[simp] theorem planResumeOp_frame (s : State) :
    s.planResumeOp.tb = s.tb ∧ s.planResumeOp.ot = s.ot ∧ s.planResumeOp.ilk.machines = s.ilk.machines ∧
    s.planResumeOp.ilk.stop = s.ilk.stop ∧ s.planResumeOp.ilk.holdCause = s.ilk.holdCause ∧
    s.planResumeOp.ilk.lastRam = s.ilk.lastRam ∧ s.planResumeOp.dru.doors = s.dru.doors ∧
    s.planResumeOp.dru.vals = s.dru.vals ∧ s.planResumeOp.ofu.sections = s.ofu.sections ∧
    s.planResumeOp.ofu.gates = s.ofu.gates ∧ s.planResumeOp.ofu.valves = s.ofu.valves ∧
    s.planResumeOp.ofu.charges = s.ofu.charges ∧ s.planResumeOp.qnu.blocked = s.qnu.blocked ∧
    s.planResumeOp.qnu.load = s.qnu.load ∧ s.planResumeOp.qnu.phase = s.qnu.phase ∧
    s.planResumeOp.qnu.bays = s.qnu.bays ∧ s.planResumeOp.qnu.free = s.qnu.free ∧
    s.planResumeOp.qnu.discharge = s.qnu.discharge ∧ s.planResumeOp.qnu.vals = s.qnu.vals ∧
    s.planResumeOp.trm = s.trm ∧ s.planResumeOp.lnk.sup.port = s.lnk.sup.port ∧
    s.planResumeOp.lnk.sup.answers = s.lnk.sup.answers ∧ s.planResumeOp.lnk.sup.sending = s.lnk.sup.sending ∧
    s.planResumeOp.lnk.sup.line = s.lnk.sup.line ∧
    (∀ j, ((s.planResumeOp).lnk.mach.get j).port = (s.lnk.mach.get j).port) ∧
    (∀ j, ((s.planResumeOp).lnk.mach.get j).test = (s.lnk.mach.get j).test) ∧ s.planResumeOp.cfg = s.cfg ∧
    s.planResumeOp.pending = s.pending := by
  unfold planResumeOp
  try dsimp only
  (repeat' split) <;> simp

@[simp] theorem rangeEnd_frame (s : State) (r : RangeOp) (aborted : Bool) :
    (s.rangeEnd r aborted).tb = s.tb ∧ (s.rangeEnd r aborted).ot = s.ot ∧ (s.rangeEnd r aborted).ilk = s.ilk ∧
    (s.rangeEnd r aborted).dru = s.dru ∧ (s.rangeEnd r aborted).ofu = s.ofu ∧ (s.rangeEnd r aborted).qnu = s.qnu ∧
    (s.rangeEnd r aborted).trm = s.trm ∧ (s.rangeEnd r aborted).lnk.sup.port = s.lnk.sup.port ∧
    (s.rangeEnd r aborted).lnk.sup.answers = s.lnk.sup.answers ∧
    (s.rangeEnd r aborted).lnk.sup.sending = s.lnk.sup.sending ∧
    (s.rangeEnd r aborted).lnk.sup.line = s.lnk.sup.line ∧ (s.rangeEnd r aborted).lnk.mach = s.lnk.mach ∧
    (s.rangeEnd r aborted).cfg = s.cfg ∧ (s.rangeEnd r aborted).pending = s.pending := by
  unfold rangeEnd
  try dsimp only
  (repeat' split) <;> simp

@[simp] theorem rangeStep_frame (s : State) (r : RangeOp) :
    (s.rangeStep r).tb = s.tb ∧ (s.rangeStep r).ilk.machines = s.ilk.machines ∧
    (s.rangeStep r).ilk.stop = s.ilk.stop ∧ (s.rangeStep r).ilk.holdCause = s.ilk.holdCause ∧
    (s.rangeStep r).ilk.lastRam = s.ilk.lastRam ∧ (s.rangeStep r).dru.doors = s.dru.doors ∧
    (s.rangeStep r).dru.vals = s.dru.vals ∧ (s.rangeStep r).ofu.sections = s.ofu.sections ∧
    (s.rangeStep r).ofu.gates = s.ofu.gates ∧ (s.rangeStep r).ofu.valves = s.ofu.valves ∧
    (s.rangeStep r).ofu.charges = s.ofu.charges ∧ (s.rangeStep r).qnu.blocked = s.qnu.blocked ∧
    (s.rangeStep r).qnu.load = s.qnu.load ∧ (s.rangeStep r).qnu.phase = s.qnu.phase ∧
    (s.rangeStep r).qnu.bays = s.qnu.bays ∧ (s.rangeStep r).qnu.free = s.qnu.free ∧
    (s.rangeStep r).qnu.discharge = s.qnu.discharge ∧ (s.rangeStep r).qnu.vals = s.qnu.vals ∧
    (s.rangeStep r).trm = s.trm ∧ (s.rangeStep r).lnk.sup.port = s.lnk.sup.port ∧
    (s.rangeStep r).lnk.sup.answers = s.lnk.sup.answers ∧ (s.rangeStep r).lnk.sup.sending = s.lnk.sup.sending ∧
    (s.rangeStep r).lnk.sup.line = s.lnk.sup.line ∧
    (∀ j, (((s.rangeStep r)).lnk.mach.get j).port = (s.lnk.mach.get j).port) ∧
    (∀ j, (((s.rangeStep r)).lnk.mach.get j).test = (s.lnk.mach.get j).test) ∧ (s.rangeStep r).cfg = s.cfg ∧
    (s.rangeStep r).pending = s.pending := by
  unfold rangeStep
  try dsimp only
  (repeat' split) <;> simp

@[simp] theorem planRestart_frame (s : State) :
    s.planRestart.tb = s.tb ∧ s.planRestart.ot = s.ot ∧ s.planRestart.ilk = s.ilk ∧ s.planRestart.dru = s.dru ∧
    s.planRestart.ofu = s.ofu ∧ s.planRestart.qnu = s.qnu ∧ s.planRestart.trm = s.trm ∧
    s.planRestart.lnk.sup.port = s.lnk.sup.port ∧ s.planRestart.lnk.sup.answers = s.lnk.sup.answers ∧
    s.planRestart.lnk.sup.sending = s.lnk.sup.sending ∧ s.planRestart.lnk.sup.line = s.lnk.sup.line ∧
    s.planRestart.lnk.mach = s.lnk.mach ∧ s.planRestart.cfg = s.cfg ∧ s.planRestart.pending = s.pending := by
  unfold planRestart
  try dsimp only
  (repeat' split) <;> simp

@[simp] theorem ovenChanged_frame (s : State) (n : Nat) :
    (s.ovenChanged n).tb = s.tb ∧ (s.ovenChanged n).ot = s.ot ∧ (s.ovenChanged n).ilk.machines = s.ilk.machines ∧
    (s.ovenChanged n).ilk.stop = s.ilk.stop ∧ (s.ovenChanged n).ilk.holdCause = s.ilk.holdCause ∧
    (s.ovenChanged n).ilk.lastRam = s.ilk.lastRam ∧ (s.ovenChanged n).dru.doors = s.dru.doors ∧
    (s.ovenChanged n).dru.vals = s.dru.vals ∧ (s.ovenChanged n).ofu.sections = s.ofu.sections ∧
    (s.ovenChanged n).ofu.gates = s.ofu.gates ∧ (s.ovenChanged n).ofu.valves = s.ofu.valves ∧
    (s.ovenChanged n).ofu.charges = s.ofu.charges ∧ (s.ovenChanged n).qnu.blocked = s.qnu.blocked ∧
    (s.ovenChanged n).qnu.load = s.qnu.load ∧ (s.ovenChanged n).qnu.phase = s.qnu.phase ∧
    (s.ovenChanged n).qnu.bays = s.qnu.bays ∧ (s.ovenChanged n).qnu.free = s.qnu.free ∧
    (s.ovenChanged n).qnu.discharge = s.qnu.discharge ∧ (s.ovenChanged n).qnu.vals = s.qnu.vals ∧
    (s.ovenChanged n).trm = s.trm ∧ (s.ovenChanged n).lnk.sup.port = s.lnk.sup.port ∧
    (s.ovenChanged n).lnk.sup.answers = s.lnk.sup.answers ∧ (s.ovenChanged n).lnk.sup.sending = s.lnk.sup.sending ∧
    (s.ovenChanged n).lnk.sup.line = s.lnk.sup.line ∧
    (∀ j, (((s.ovenChanged n)).lnk.mach.get j).port = (s.lnk.mach.get j).port) ∧
    (∀ j, (((s.ovenChanged n)).lnk.mach.get j).test = (s.lnk.mach.get j).test) ∧ (s.ovenChanged n).cfg = s.cfg ∧
    (s.ovenChanged n).pending = s.pending := by
  unfold ovenChanged
  try dsimp only
  (repeat' split) <;> simp

@[simp] theorem evalReadyRaw_frame (s : State) (n : Nat) :
    (s.evalReadyRaw n).tb = s.tb ∧ (s.evalReadyRaw n).pln = s.pln ∧ (s.evalReadyRaw n).ilk = s.ilk ∧
    (s.evalReadyRaw n).dru = s.dru ∧ (s.evalReadyRaw n).ofu = s.ofu ∧ (s.evalReadyRaw n).qnu = s.qnu ∧
    (s.evalReadyRaw n).trm = s.trm ∧ (s.evalReadyRaw n).lnk = s.lnk ∧ (s.evalReadyRaw n).cfg = s.cfg ∧
    (s.evalReadyRaw n).pending = s.pending := by
  unfold evalReadyRaw
  try dsimp only
  (repeat' split) <;> simp

@[simp] theorem evalReady_frame (s : State) (n : Nat) :
    (s.evalReady n).tb = s.tb ∧ (s.evalReady n).ilk.machines = s.ilk.machines ∧
    (s.evalReady n).ilk.stop = s.ilk.stop ∧ (s.evalReady n).ilk.holdCause = s.ilk.holdCause ∧
    (s.evalReady n).ilk.lastRam = s.ilk.lastRam ∧ (s.evalReady n).dru.doors = s.dru.doors ∧
    (s.evalReady n).dru.vals = s.dru.vals ∧ (s.evalReady n).ofu.sections = s.ofu.sections ∧
    (s.evalReady n).ofu.gates = s.ofu.gates ∧ (s.evalReady n).ofu.valves = s.ofu.valves ∧
    (s.evalReady n).ofu.charges = s.ofu.charges ∧ (s.evalReady n).qnu.blocked = s.qnu.blocked ∧
    (s.evalReady n).qnu.load = s.qnu.load ∧ (s.evalReady n).qnu.phase = s.qnu.phase ∧
    (s.evalReady n).qnu.bays = s.qnu.bays ∧ (s.evalReady n).qnu.free = s.qnu.free ∧
    (s.evalReady n).qnu.discharge = s.qnu.discharge ∧ (s.evalReady n).qnu.vals = s.qnu.vals ∧
    (s.evalReady n).trm = s.trm ∧ (s.evalReady n).lnk.sup.port = s.lnk.sup.port ∧
    (s.evalReady n).lnk.sup.answers = s.lnk.sup.answers ∧ (s.evalReady n).lnk.sup.sending = s.lnk.sup.sending ∧
    (s.evalReady n).lnk.sup.line = s.lnk.sup.line ∧
    (∀ j, (((s.evalReady n)).lnk.mach.get j).port = (s.lnk.mach.get j).port) ∧
    (∀ j, (((s.evalReady n)).lnk.mach.get j).test = (s.lnk.mach.get j).test) ∧ (s.evalReady n).cfg = s.cfg ∧
    (s.evalReady n).pending = s.pending := by
  unfold evalReady
  try dsimp only
  (repeat' split) <;> simp

@[simp] theorem overdueCheck_frame (s : State) (n : Nat) :
    (s.overdueCheck n).tb = s.tb ∧ (s.overdueCheck n).pln = s.pln ∧ (s.overdueCheck n).ilk = s.ilk ∧
    (s.overdueCheck n).dru = s.dru ∧ (s.overdueCheck n).ofu = s.ofu ∧ (s.overdueCheck n).qnu = s.qnu ∧
    (s.overdueCheck n).trm = s.trm ∧ (s.overdueCheck n).lnk.sup.port = s.lnk.sup.port ∧
    (s.overdueCheck n).lnk.sup.answers = s.lnk.sup.answers ∧ (s.overdueCheck n).lnk.sup.sending = s.lnk.sup.sending ∧
    (s.overdueCheck n).lnk.sup.line = s.lnk.sup.line ∧ (s.overdueCheck n).lnk.mach = s.lnk.mach ∧
    (s.overdueCheck n).cfg = s.cfg ∧ (s.overdueCheck n).pending = s.pending := by
  unfold overdueCheck
  try dsimp only
  (repeat' split) <;> simp

@[simp] theorem sweepOvens_frame  (x0 : List Nat) (s : State) :
    (sweepOvens x0 s).tb = s.tb ∧ (sweepOvens x0 s).ilk.machines = s.ilk.machines ∧
    (sweepOvens x0 s).ilk.stop = s.ilk.stop ∧ (sweepOvens x0 s).ilk.holdCause = s.ilk.holdCause ∧
    (sweepOvens x0 s).ilk.lastRam = s.ilk.lastRam ∧ (sweepOvens x0 s).dru.doors = s.dru.doors ∧
    (sweepOvens x0 s).dru.vals = s.dru.vals ∧ (sweepOvens x0 s).ofu.sections = s.ofu.sections ∧
    (sweepOvens x0 s).ofu.gates = s.ofu.gates ∧ (sweepOvens x0 s).ofu.valves = s.ofu.valves ∧
    (sweepOvens x0 s).ofu.charges = s.ofu.charges ∧ (sweepOvens x0 s).qnu.blocked = s.qnu.blocked ∧
    (sweepOvens x0 s).qnu.load = s.qnu.load ∧ (sweepOvens x0 s).qnu.phase = s.qnu.phase ∧
    (sweepOvens x0 s).qnu.bays = s.qnu.bays ∧ (sweepOvens x0 s).qnu.free = s.qnu.free ∧
    (sweepOvens x0 s).qnu.discharge = s.qnu.discharge ∧ (sweepOvens x0 s).qnu.vals = s.qnu.vals ∧
    (sweepOvens x0 s).trm = s.trm ∧ (sweepOvens x0 s).lnk.sup.port = s.lnk.sup.port ∧
    (sweepOvens x0 s).lnk.sup.answers = s.lnk.sup.answers ∧ (sweepOvens x0 s).lnk.sup.sending = s.lnk.sup.sending ∧
    (sweepOvens x0 s).lnk.sup.line = s.lnk.sup.line ∧
    (∀ j, (((sweepOvens x0 s)).lnk.mach.get j).port = (s.lnk.mach.get j).port) ∧
    (∀ j, (((sweepOvens x0 s)).lnk.mach.get j).test = (s.lnk.mach.get j).test) ∧ (sweepOvens x0 s).cfg = s.cfg ∧
    (sweepOvens x0 s).pending = s.pending := by
  induction x0 generalizing s with
  | nil => simp [sweepOvens]
  | cons a l ih => rw [sweepOvens]; simp [ih]

@[simp] theorem readySweep_frame (s : State) :
    s.readySweep.tb = s.tb ∧ s.readySweep.ilk.machines = s.ilk.machines ∧ s.readySweep.ilk.stop = s.ilk.stop ∧
    s.readySweep.ilk.holdCause = s.ilk.holdCause ∧ s.readySweep.ilk.lastRam = s.ilk.lastRam ∧
    s.readySweep.dru.doors = s.dru.doors ∧ s.readySweep.dru.vals = s.dru.vals ∧
    s.readySweep.ofu.sections = s.ofu.sections ∧ s.readySweep.ofu.gates = s.ofu.gates ∧
    s.readySweep.ofu.valves = s.ofu.valves ∧ s.readySweep.ofu.charges = s.ofu.charges ∧
    s.readySweep.qnu.blocked = s.qnu.blocked ∧ s.readySweep.qnu.load = s.qnu.load ∧
    s.readySweep.qnu.phase = s.qnu.phase ∧ s.readySweep.qnu.bays = s.qnu.bays ∧ s.readySweep.qnu.free = s.qnu.free ∧
    s.readySweep.qnu.discharge = s.qnu.discharge ∧ s.readySweep.qnu.vals = s.qnu.vals ∧ s.readySweep.trm = s.trm ∧
    s.readySweep.lnk.sup.port = s.lnk.sup.port ∧ s.readySweep.lnk.sup.answers = s.lnk.sup.answers ∧
    s.readySweep.lnk.sup.sending = s.lnk.sup.sending ∧ s.readySweep.lnk.sup.line = s.lnk.sup.line ∧
    (∀ j, ((s.readySweep).lnk.mach.get j).port = (s.lnk.mach.get j).port) ∧
    (∀ j, ((s.readySweep).lnk.mach.get j).test = (s.lnk.mach.get j).test) ∧ s.readySweep.cfg = s.cfg ∧
    s.readySweep.pending = s.pending := by
  unfold readySweep
  try dsimp only
  (repeat' split) <;> simp

@[simp] theorem dropCharge_frame (s : State) (n : Nat) :
    (s.dropCharge n).tb = s.tb ∧ (s.dropCharge n).ot = s.ot ∧ (s.dropCharge n).pln = s.pln ∧
    (s.dropCharge n).ilk = s.ilk ∧ (s.dropCharge n).dru = s.dru ∧ (s.dropCharge n).ofu.sections = s.ofu.sections ∧
    (s.dropCharge n).ofu.gates = s.ofu.gates ∧ (s.dropCharge n).ofu.valves = s.ofu.valves ∧
    (s.dropCharge n).ofu.queue = s.ofu.queue ∧ (s.dropCharge n).ofu.heldOffers = s.ofu.heldOffers ∧
    (s.dropCharge n).ofu.iso = s.ofu.iso ∧ (s.dropCharge n).qnu = s.qnu ∧ (s.dropCharge n).trm = s.trm ∧
    (s.dropCharge n).lnk = s.lnk ∧ (s.dropCharge n).cfg = s.cfg ∧ (s.dropCharge n).pending = s.pending := by
  unfold dropCharge
  try dsimp only
  (repeat' split) <;> simp

@[simp] theorem beginCoking_frame (s : State) (n : Nat) :
    (s.beginCoking n).tb = s.tb ∧ (s.beginCoking n).pln = s.pln ∧ (s.beginCoking n).ilk = s.ilk ∧
    (s.beginCoking n).dru = s.dru ∧ (s.beginCoking n).ofu = s.ofu ∧ (s.beginCoking n).qnu = s.qnu ∧
    (s.beginCoking n).trm = s.trm ∧ (s.beginCoking n).lnk = s.lnk ∧ (s.beginCoking n).cfg = s.cfg ∧
    (s.beginCoking n).pending = s.pending := by
  unfold beginCoking
  try dsimp only
  (repeat' split) <;> simp

@[simp] theorem assumeEnd_frame (s : State) (m : Nat) :
    (s.assumeEnd m).tb = s.tb ∧ (s.assumeEnd m).ilk.machines = s.ilk.machines ∧
    (s.assumeEnd m).ilk.stop = s.ilk.stop ∧ (s.assumeEnd m).ilk.holdCause = s.ilk.holdCause ∧
    (s.assumeEnd m).ilk.lastRam = s.ilk.lastRam ∧ (s.assumeEnd m).dru.doors = s.dru.doors ∧
    (s.assumeEnd m).dru.vals = s.dru.vals ∧ (s.assumeEnd m).ofu.sections = s.ofu.sections ∧
    (s.assumeEnd m).ofu.gates = s.ofu.gates ∧ (s.assumeEnd m).ofu.valves = s.ofu.valves ∧
    (s.assumeEnd m).qnu.blocked = s.qnu.blocked ∧ (s.assumeEnd m).qnu.load = s.qnu.load ∧
    (s.assumeEnd m).qnu.phase = s.qnu.phase ∧ (s.assumeEnd m).qnu.bays = s.qnu.bays ∧
    (s.assumeEnd m).qnu.free = s.qnu.free ∧ (s.assumeEnd m).qnu.discharge = s.qnu.discharge ∧
    (s.assumeEnd m).qnu.vals = s.qnu.vals ∧ (s.assumeEnd m).trm = s.trm ∧
    (s.assumeEnd m).lnk.sup.port = s.lnk.sup.port ∧ (s.assumeEnd m).lnk.sup.answers = s.lnk.sup.answers ∧
    (s.assumeEnd m).lnk.sup.sending = s.lnk.sup.sending ∧ (s.assumeEnd m).lnk.sup.line = s.lnk.sup.line ∧
    (∀ j, (((s.assumeEnd m)).lnk.mach.get j).port = (s.lnk.mach.get j).port) ∧
    (∀ j, (((s.assumeEnd m)).lnk.mach.get j).test = (s.lnk.mach.get j).test) ∧ (s.assumeEnd m).cfg = s.cfg ∧
    (s.assumeEnd m).pending = s.pending := by
  unfold assumeEnd
  try dsimp only
  (repeat' split) <;> simp

@[simp] theorem chargeFact_frame (s : State) (n : Nat) :
    (s.chargeFact n).tb = s.tb ∧ (s.chargeFact n).ilk.machines = s.ilk.machines ∧
    (s.chargeFact n).ilk.stop = s.ilk.stop ∧ (s.chargeFact n).ilk.holdCause = s.ilk.holdCause ∧
    (s.chargeFact n).ilk.lastRam = s.ilk.lastRam ∧ (s.chargeFact n).dru.doors = s.dru.doors ∧
    (s.chargeFact n).dru.vals = s.dru.vals ∧ (s.chargeFact n).ofu.sections = s.ofu.sections ∧
    (s.chargeFact n).ofu.gates = s.ofu.gates ∧ (s.chargeFact n).ofu.valves = s.ofu.valves ∧
    (s.chargeFact n).qnu.blocked = s.qnu.blocked ∧ (s.chargeFact n).qnu.load = s.qnu.load ∧
    (s.chargeFact n).qnu.phase = s.qnu.phase ∧ (s.chargeFact n).qnu.bays = s.qnu.bays ∧
    (s.chargeFact n).qnu.free = s.qnu.free ∧ (s.chargeFact n).qnu.discharge = s.qnu.discharge ∧
    (s.chargeFact n).qnu.vals = s.qnu.vals ∧ (s.chargeFact n).trm = s.trm ∧
    (s.chargeFact n).lnk.sup.port = s.lnk.sup.port ∧ (s.chargeFact n).lnk.sup.answers = s.lnk.sup.answers ∧
    (s.chargeFact n).lnk.sup.sending = s.lnk.sup.sending ∧ (s.chargeFact n).lnk.sup.line = s.lnk.sup.line ∧
    (∀ j, (((s.chargeFact n)).lnk.mach.get j).port = (s.lnk.mach.get j).port) ∧
    (∀ j, (((s.chargeFact n)).lnk.mach.get j).test = (s.lnk.mach.get j).test) ∧ (s.chargeFact n).cfg = s.cfg ∧
    (s.chargeFact n).pending = s.pending := by
  unfold chargeFact
  try dsimp only
  (repeat' split) <;> simp

@[simp] theorem chargeEndFact_frame (s : State) (n : Nat) :
    (s.chargeEndFact n).tb = s.tb ∧ (s.chargeEndFact n).ilk.machines = s.ilk.machines ∧
    (s.chargeEndFact n).ilk.stop = s.ilk.stop ∧ (s.chargeEndFact n).ilk.holdCause = s.ilk.holdCause ∧
    (s.chargeEndFact n).ilk.lastRam = s.ilk.lastRam ∧ (s.chargeEndFact n).dru.doors = s.dru.doors ∧
    (s.chargeEndFact n).dru.vals = s.dru.vals ∧ (s.chargeEndFact n).ofu.sections = s.ofu.sections ∧
    (s.chargeEndFact n).ofu.gates = s.ofu.gates ∧ (s.chargeEndFact n).ofu.valves = s.ofu.valves ∧
    (s.chargeEndFact n).qnu.blocked = s.qnu.blocked ∧ (s.chargeEndFact n).qnu.load = s.qnu.load ∧
    (s.chargeEndFact n).qnu.phase = s.qnu.phase ∧ (s.chargeEndFact n).qnu.bays = s.qnu.bays ∧
    (s.chargeEndFact n).qnu.free = s.qnu.free ∧ (s.chargeEndFact n).qnu.discharge = s.qnu.discharge ∧
    (s.chargeEndFact n).qnu.vals = s.qnu.vals ∧ (s.chargeEndFact n).trm = s.trm ∧
    (s.chargeEndFact n).lnk.sup.port = s.lnk.sup.port ∧ (s.chargeEndFact n).lnk.sup.answers = s.lnk.sup.answers ∧
    (s.chargeEndFact n).lnk.sup.sending = s.lnk.sup.sending ∧ (s.chargeEndFact n).lnk.sup.line = s.lnk.sup.line ∧
    (∀ j, (((s.chargeEndFact n)).lnk.mach.get j).port = (s.lnk.mach.get j).port) ∧
    (∀ j, (((s.chargeEndFact n)).lnk.mach.get j).test = (s.lnk.mach.get j).test) ∧ (s.chargeEndFact n).cfg = s.cfg ∧
    (s.chargeEndFact n).pending = s.pending := by
  unfold chargeEndFact
  try dsimp only
  (repeat' split) <;> simp

@[simp] theorem feedForward_frame (s : State) (k : Nat) (old new : ValveState) :
    (s.feedForward k old new).tb = s.tb ∧ (s.feedForward k old new).ot = s.ot ∧
    (s.feedForward k old new).pln = s.pln ∧ (s.feedForward k old new).ilk = s.ilk ∧
    (s.feedForward k old new).dru = s.dru ∧ (s.feedForward k old new).ofu.gates = s.ofu.gates ∧
    (s.feedForward k old new).ofu.valves = s.ofu.valves ∧ (s.feedForward k old new).ofu.queue = s.ofu.queue ∧
    (s.feedForward k old new).ofu.heldOffers = s.ofu.heldOffers ∧ (s.feedForward k old new).ofu.iso = s.ofu.iso ∧
    (s.feedForward k old new).ofu.charges = s.ofu.charges ∧ (s.feedForward k old new).qnu = s.qnu ∧
    (s.feedForward k old new).trm = s.trm ∧ (s.feedForward k old new).lnk = s.lnk ∧
    (s.feedForward k old new).cfg = s.cfg ∧ (s.feedForward k old new).pending = s.pending := by
  unfold feedForward
  try dsimp only
  (repeat' split) <;> simp

@[simp] theorem dropReachedOffer_frame (s : State) (n : Nat) (v : ValveState) :
    (s.dropReachedOffer n v).tb = s.tb ∧ (s.dropReachedOffer n v).ot = s.ot ∧ (s.dropReachedOffer n v).pln = s.pln ∧
    (s.dropReachedOffer n v).ilk = s.ilk ∧ (s.dropReachedOffer n v).dru = s.dru ∧
    (s.dropReachedOffer n v).ofu.sections = s.ofu.sections ∧ (s.dropReachedOffer n v).ofu.gates = s.ofu.gates ∧
    (s.dropReachedOffer n v).ofu.valves = s.ofu.valves ∧ (s.dropReachedOffer n v).ofu.queue = s.ofu.queue ∧
    (s.dropReachedOffer n v).ofu.iso = s.ofu.iso ∧ (s.dropReachedOffer n v).ofu.charges = s.ofu.charges ∧
    (s.dropReachedOffer n v).qnu = s.qnu ∧ (s.dropReachedOffer n v).trm = s.trm ∧
    (s.dropReachedOffer n v).lnk = s.lnk ∧ (s.dropReachedOffer n v).cfg = s.cfg ∧
    (s.dropReachedOffer n v).pending = s.pending := by
  unfold dropReachedOffer
  try dsimp only
  (repeat' split) <;> simp

@[simp] theorem valveReport_frame (s : State) (n : Nat) (v : ValveState) :
    (s.valveReport n v).tb = s.tb ∧ (s.valveReport n v).ot = s.ot ∧ (s.valveReport n v).pln = s.pln ∧
    (s.valveReport n v).ilk.machines = s.ilk.machines ∧ (s.valveReport n v).ilk.stop = s.ilk.stop ∧
    (s.valveReport n v).ilk.holdCause = s.ilk.holdCause ∧ (s.valveReport n v).ilk.lastRam = s.ilk.lastRam ∧
    (s.valveReport n v).dru.doors = s.dru.doors ∧ (s.valveReport n v).dru.vals = s.dru.vals ∧
    (s.valveReport n v).ofu.gates = s.ofu.gates ∧ (s.valveReport n v).ofu.iso = s.ofu.iso ∧
    (s.valveReport n v).ofu.charges = s.ofu.charges ∧ (s.valveReport n v).qnu = s.qnu ∧
    (s.valveReport n v).trm = s.trm ∧ (s.valveReport n v).lnk.sup.port = s.lnk.sup.port ∧
    (s.valveReport n v).lnk.sup.answers = s.lnk.sup.answers ∧
    (s.valveReport n v).lnk.sup.sending = s.lnk.sup.sending ∧ (s.valveReport n v).lnk.sup.line = s.lnk.sup.line ∧
    (∀ j, (((s.valveReport n v)).lnk.mach.get j).port = (s.lnk.mach.get j).port) ∧
    (∀ j, (((s.valveReport n v)).lnk.mach.get j).test = (s.lnk.mach.get j).test) ∧ (s.valveReport n v).cfg = s.cfg ∧
    (s.valveReport n v).pending = s.pending := by
  unfold valveReport
  try dsimp only
  (repeat' split) <;> simp

@[simp] theorem setPending_frame (s : State) (n : Nat) (d : Side) :
    (s.setPending n d).tb = s.tb ∧ (s.setPending n d).ot = s.ot ∧ (s.setPending n d).pln = s.pln ∧
    (s.setPending n d).ilk = s.ilk ∧ (s.setPending n d).dru.queues = s.dru.queues ∧
    (s.setPending n d).dru.rounds = s.dru.rounds ∧ (s.setPending n d).dru.vals = s.dru.vals ∧
    (s.setPending n d).ofu = s.ofu ∧ (s.setPending n d).qnu = s.qnu ∧ (s.setPending n d).trm = s.trm ∧
    (s.setPending n d).lnk.sup.port = s.lnk.sup.port ∧ (s.setPending n d).lnk.sup.answers = s.lnk.sup.answers ∧
    (s.setPending n d).lnk.sup.sending = s.lnk.sup.sending ∧ (s.setPending n d).lnk.sup.line = s.lnk.sup.line ∧
    (s.setPending n d).lnk.mach = s.lnk.mach ∧ (s.setPending n d).cfg = s.cfg ∧
    (s.setPending n d).pending = s.pending := by
  unfold setPending
  try dsimp only
  (repeat' split) <;> simp

@[simp] theorem joinTask_frame (s : State) (d : Side) (n : Nat) (k : TaskKind) (rest : List TaskEntry) :
    (s.joinTask d n k rest).tb = s.tb ∧ (s.joinTask d n k rest).ot = s.ot ∧ (s.joinTask d n k rest).pln = s.pln ∧
    (s.joinTask d n k rest).ilk = s.ilk ∧ (s.joinTask d n k rest).dru.rounds = s.dru.rounds ∧
    (s.joinTask d n k rest).dru.vals = s.dru.vals ∧ (s.joinTask d n k rest).ofu = s.ofu ∧ (s.joinTask d n k rest).qnu = s.qnu ∧
    (s.joinTask d n k rest).trm = s.trm ∧ (s.joinTask d n k rest).lnk = s.lnk ∧ (s.joinTask d n k rest).cfg = s.cfg ∧
    (s.joinTask d n k rest).pending = s.pending := by
  unfold joinTask
  try dsimp only
  (repeat' split) <;> simp

@[simp] theorem offerFull_frame (s : State) (d : Side) (n : Nat) (k : TaskKind) :
    (s.offerFull d n k).tb = s.tb ∧ (s.offerFull d n k).ot = s.ot ∧ (s.offerFull d n k).pln = s.pln ∧
    (s.offerFull d n k).ilk = s.ilk ∧ (s.offerFull d n k).dru.rounds = s.dru.rounds ∧
    (s.offerFull d n k).dru.vals = s.dru.vals ∧ (s.offerFull d n k).ofu = s.ofu ∧ (s.offerFull d n k).qnu = s.qnu ∧
    (s.offerFull d n k).trm = s.trm ∧ (s.offerFull d n k).lnk.sup.port = s.lnk.sup.port ∧
    (s.offerFull d n k).lnk.sup.answers = s.lnk.sup.answers ∧
    (s.offerFull d n k).lnk.sup.sending = s.lnk.sup.sending ∧ (s.offerFull d n k).lnk.sup.line = s.lnk.sup.line ∧
    (s.offerFull d n k).lnk.mach = s.lnk.mach ∧ (s.offerFull d n k).cfg = s.cfg ∧
    (s.offerFull d n k).pending = s.pending := by
  unfold offerFull
  try dsimp only
  (repeat' split) <;> simp

@[simp] theorem offerTask_frame (s : State) (d : Side) (n : Nat) (k : TaskKind) :
    (s.offerTask d n k).tb = s.tb ∧ (s.offerTask d n k).ot = s.ot ∧ (s.offerTask d n k).pln = s.pln ∧
    (s.offerTask d n k).ilk = s.ilk ∧ (s.offerTask d n k).dru.rounds = s.dru.rounds ∧
    (s.offerTask d n k).dru.vals = s.dru.vals ∧ (s.offerTask d n k).ofu = s.ofu ∧ (s.offerTask d n k).qnu = s.qnu ∧
    (s.offerTask d n k).trm = s.trm ∧ (s.offerTask d n k).lnk.sup.port = s.lnk.sup.port ∧
    (s.offerTask d n k).lnk.sup.answers = s.lnk.sup.answers ∧
    (s.offerTask d n k).lnk.sup.sending = s.lnk.sup.sending ∧ (s.offerTask d n k).lnk.sup.line = s.lnk.sup.line ∧
    (s.offerTask d n k).lnk.mach = s.lnk.mach ∧ (s.offerTask d n k).cfg = s.cfg ∧
    (s.offerTask d n k).pending = s.pending := by
  unfold offerTask
  try dsimp only
  (repeat' split) <;> simp

@[simp] theorem offerInRun_frame (s : State) (d : Side) (n : Nat) (k : TaskKind) :
    (s.offerInRun d n k).tb = s.tb ∧ (s.offerInRun d n k).ot = s.ot ∧ (s.offerInRun d n k).pln = s.pln ∧
    (s.offerInRun d n k).ilk = s.ilk ∧ (s.offerInRun d n k).dru.rounds = s.dru.rounds ∧
    (s.offerInRun d n k).dru.vals = s.dru.vals ∧ (s.offerInRun d n k).ofu = s.ofu ∧ (s.offerInRun d n k).qnu = s.qnu ∧
    (s.offerInRun d n k).trm = s.trm ∧ (s.offerInRun d n k).lnk.sup.port = s.lnk.sup.port ∧
    (s.offerInRun d n k).lnk.sup.answers = s.lnk.sup.answers ∧
    (s.offerInRun d n k).lnk.sup.sending = s.lnk.sup.sending ∧ (s.offerInRun d n k).lnk.sup.line = s.lnk.sup.line ∧
    (s.offerInRun d n k).lnk.mach = s.lnk.mach ∧ (s.offerInRun d n k).cfg = s.cfg ∧
    (s.offerInRun d n k).pending = s.pending := by
  unfold offerInRun
  try dsimp only
  (repeat' split) <;> simp

@[simp] theorem offerChecked_frame (s : State) (d : Side) (n : Nat) (k : TaskKind) :
    (s.offerChecked d n k).tb = s.tb ∧ (s.offerChecked d n k).ot = s.ot ∧ (s.offerChecked d n k).pln = s.pln ∧
    (s.offerChecked d n k).ilk = s.ilk ∧ (s.offerChecked d n k).dru.vals = s.dru.vals ∧
    (s.offerChecked d n k).ofu = s.ofu ∧ (s.offerChecked d n k).qnu = s.qnu ∧ (s.offerChecked d n k).trm = s.trm ∧
    (s.offerChecked d n k).lnk.sup.port = s.lnk.sup.port ∧
    (s.offerChecked d n k).lnk.sup.answers = s.lnk.sup.answers ∧
    (s.offerChecked d n k).lnk.sup.sending = s.lnk.sup.sending ∧
    (s.offerChecked d n k).lnk.sup.line = s.lnk.sup.line ∧
    (∀ j, (((s.offerChecked d n k)).lnk.mach.get j).port = (s.lnk.mach.get j).port) ∧
    (∀ j, (((s.offerChecked d n k)).lnk.mach.get j).test = (s.lnk.mach.get j).test) ∧
    (s.offerChecked d n k).cfg = s.cfg ∧ (s.offerChecked d n k).pending = s.pending := by
  unfold offerChecked
  try dsimp only
  (repeat' split) <;> simp

@[simp] theorem releaseOne_frame (s : State) (d : Side) (n : Nat) :
    (s.releaseOne d n).tb = s.tb ∧ (s.releaseOne d n).ot = s.ot ∧ (s.releaseOne d n).pln = s.pln ∧
    (s.releaseOne d n).ilk = s.ilk ∧ (s.releaseOne d n).dru.rounds = s.dru.rounds ∧
    (s.releaseOne d n).dru.vals = s.dru.vals ∧ (s.releaseOne d n).ofu = s.ofu ∧ (s.releaseOne d n).qnu = s.qnu ∧
    (s.releaseOne d n).trm = s.trm ∧ (s.releaseOne d n).lnk = s.lnk ∧ (s.releaseOne d n).cfg = s.cfg ∧
    (s.releaseOne d n).pending = s.pending := by
  unfold releaseOne
  try dsimp only
  (repeat' split) <;> simp

@[simp] theorem releaseFrom_frame (d : Side) (x0 : List Nat) (s : State) :
    (releaseFrom d x0 s).tb = s.tb ∧ (releaseFrom d x0 s).ot = s.ot ∧ (releaseFrom d x0 s).pln = s.pln ∧
    (releaseFrom d x0 s).ilk = s.ilk ∧ (releaseFrom d x0 s).dru.rounds = s.dru.rounds ∧
    (releaseFrom d x0 s).dru.vals = s.dru.vals ∧ (releaseFrom d x0 s).ofu = s.ofu ∧ (releaseFrom d x0 s).qnu = s.qnu ∧
    (releaseFrom d x0 s).trm = s.trm ∧ (releaseFrom d x0 s).lnk = s.lnk ∧ (releaseFrom d x0 s).cfg = s.cfg ∧
    (releaseFrom d x0 s).pending = s.pending := by
  induction x0 generalizing s with
  | nil => simp [releaseFrom]
  | cons a l ih => rw [releaseFrom]; simp [ih]

@[simp] theorem pendingRelease_frame (s : State) (d : Side) :
    (s.pendingRelease d).tb = s.tb ∧ (s.pendingRelease d).ot = s.ot ∧ (s.pendingRelease d).pln = s.pln ∧
    (s.pendingRelease d).ilk = s.ilk ∧ (s.pendingRelease d).dru.rounds = s.dru.rounds ∧
    (s.pendingRelease d).dru.vals = s.dru.vals ∧ (s.pendingRelease d).ofu = s.ofu ∧ (s.pendingRelease d).qnu = s.qnu ∧
    (s.pendingRelease d).trm = s.trm ∧ (s.pendingRelease d).lnk = s.lnk ∧ (s.pendingRelease d).cfg = s.cfg ∧
    (s.pendingRelease d).pending = s.pending := by
  unfold pendingRelease
  try dsimp only
  (repeat' split) <;> simp

@[simp] theorem dropSealWork_frame (s : State) (d : Side) (n : Nat) :
    (s.dropSealWork d n).tb = s.tb ∧ (s.dropSealWork d n).ot = s.ot ∧ (s.dropSealWork d n).pln = s.pln ∧
    (s.dropSealWork d n).ilk = s.ilk ∧ (s.dropSealWork d n).dru.doors = s.dru.doors ∧
    (s.dropSealWork d n).dru.rounds = s.dru.rounds ∧ (s.dropSealWork d n).dru.vals = s.dru.vals ∧
    (s.dropSealWork d n).ofu = s.ofu ∧ (s.dropSealWork d n).qnu = s.qnu ∧ (s.dropSealWork d n).trm = s.trm ∧
    (s.dropSealWork d n).lnk = s.lnk ∧ (s.dropSealWork d n).cfg = s.cfg ∧
    (s.dropSealWork d n).pending = s.pending := by
  unfold dropSealWork
  try dsimp only
  (repeat' split) <;> simp

@[simp] theorem enterLeaking_frame (s : State) (n : Nat) (d : Side) :
    (s.enterLeaking n d).tb = s.tb ∧ (s.enterLeaking n d).ot = s.ot ∧ (s.enterLeaking n d).pln = s.pln ∧
    (s.enterLeaking n d).ilk.machines = s.ilk.machines ∧ (s.enterLeaking n d).ilk.stop = s.ilk.stop ∧
    (s.enterLeaking n d).ilk.holdCause = s.ilk.holdCause ∧ (s.enterLeaking n d).ilk.lastRam = s.ilk.lastRam ∧
    (s.enterLeaking n d).dru.vals = s.dru.vals ∧ (s.enterLeaking n d).ofu.sections = s.ofu.sections ∧
    (s.enterLeaking n d).ofu.gates = s.ofu.gates ∧ (s.enterLeaking n d).ofu.valves = s.ofu.valves ∧
    (s.enterLeaking n d).ofu.heldOffers = s.ofu.heldOffers ∧ (s.enterLeaking n d).ofu.iso = s.ofu.iso ∧
    (s.enterLeaking n d).ofu.charges = s.ofu.charges ∧ (s.enterLeaking n d).qnu = s.qnu ∧
    (s.enterLeaking n d).trm = s.trm ∧ (s.enterLeaking n d).lnk.sup.port = s.lnk.sup.port ∧
    (s.enterLeaking n d).lnk.sup.answers = s.lnk.sup.answers ∧
    (s.enterLeaking n d).lnk.sup.sending = s.lnk.sup.sending ∧ (s.enterLeaking n d).lnk.sup.line = s.lnk.sup.line ∧
    (∀ j, (((s.enterLeaking n d)).lnk.mach.get j).port = (s.lnk.mach.get j).port) ∧
    (∀ j, (((s.enterLeaking n d)).lnk.mach.get j).test = (s.lnk.mach.get j).test) ∧ (s.enterLeaking n d).cfg = s.cfg ∧
    (s.enterLeaking n d).pending = s.pending := by
  unfold enterLeaking
  try dsimp only
  (repeat' split) <;> simp

@[simp] theorem leakAt_frame (s : State) (n : Nat) (d : Side) :
    (s.leakAt n d).tb = s.tb ∧ (s.leakAt n d).ot = s.ot ∧ (s.leakAt n d).pln = s.pln ∧
    (s.leakAt n d).ilk.machines = s.ilk.machines ∧ (s.leakAt n d).ilk.stop = s.ilk.stop ∧
    (s.leakAt n d).ilk.holdCause = s.ilk.holdCause ∧ (s.leakAt n d).ilk.lastRam = s.ilk.lastRam ∧
    (s.leakAt n d).dru.vals = s.dru.vals ∧ (s.leakAt n d).ofu.sections = s.ofu.sections ∧
    (s.leakAt n d).ofu.gates = s.ofu.gates ∧ (s.leakAt n d).ofu.valves = s.ofu.valves ∧
    (s.leakAt n d).ofu.heldOffers = s.ofu.heldOffers ∧ (s.leakAt n d).ofu.iso = s.ofu.iso ∧
    (s.leakAt n d).ofu.charges = s.ofu.charges ∧ (s.leakAt n d).qnu = s.qnu ∧ (s.leakAt n d).trm = s.trm ∧
    (s.leakAt n d).lnk.sup.port = s.lnk.sup.port ∧ (s.leakAt n d).lnk.sup.answers = s.lnk.sup.answers ∧
    (s.leakAt n d).lnk.sup.sending = s.lnk.sup.sending ∧ (s.leakAt n d).lnk.sup.line = s.lnk.sup.line ∧
    (∀ j, (((s.leakAt n d)).lnk.mach.get j).port = (s.lnk.mach.get j).port) ∧
    (∀ j, (((s.leakAt n d)).lnk.mach.get j).test = (s.lnk.mach.get j).test) ∧ (s.leakAt n d).cfg = s.cfg ∧
    (s.leakAt n d).pending = s.pending := by
  unfold leakAt
  try dsimp only
  (repeat' split) <;> simp

@[simp] theorem doorTight_frame (s : State) (n : Nat) (d : Side) :
    (s.doorTight n d).tb = s.tb ∧ (s.doorTight n d).ot = s.ot ∧ (s.doorTight n d).pln = s.pln ∧
    (s.doorTight n d).ilk.machines = s.ilk.machines ∧ (s.doorTight n d).ilk.stop = s.ilk.stop ∧
    (s.doorTight n d).ilk.holdCause = s.ilk.holdCause ∧ (s.doorTight n d).ilk.lastRam = s.ilk.lastRam ∧
    (s.doorTight n d).dru.vals = s.dru.vals ∧ (s.doorTight n d).ofu.sections = s.ofu.sections ∧
    (s.doorTight n d).ofu.gates = s.ofu.gates ∧ (s.doorTight n d).ofu.valves = s.ofu.valves ∧
    (s.doorTight n d).ofu.heldOffers = s.ofu.heldOffers ∧ (s.doorTight n d).ofu.iso = s.ofu.iso ∧
    (s.doorTight n d).ofu.charges = s.ofu.charges ∧ (s.doorTight n d).qnu = s.qnu ∧ (s.doorTight n d).trm = s.trm ∧
    (s.doorTight n d).lnk.sup.port = s.lnk.sup.port ∧ (s.doorTight n d).lnk.sup.answers = s.lnk.sup.answers ∧
    (s.doorTight n d).lnk.sup.sending = s.lnk.sup.sending ∧ (s.doorTight n d).lnk.sup.line = s.lnk.sup.line ∧
    (∀ j, (((s.doorTight n d)).lnk.mach.get j).port = (s.lnk.mach.get j).port) ∧
    (∀ j, (((s.doorTight n d)).lnk.mach.get j).test = (s.lnk.mach.get j).test) ∧ (s.doorTight n d).cfg = s.cfg ∧
    (s.doorTight n d).pending = s.pending := by
  unfold doorTight
  try dsimp only
  (repeat' split) <;> simp

@[simp] theorem withdrawAt_frame (s : State) (n : Nat) (d : Side) :
    (s.withdrawAt n d).tb = s.tb ∧ (s.withdrawAt n d).ot = s.ot ∧ (s.withdrawAt n d).pln = s.pln ∧
    (s.withdrawAt n d).ilk = s.ilk ∧ (s.withdrawAt n d).dru.doors = s.dru.doors ∧
    (s.withdrawAt n d).dru.vals = s.dru.vals ∧ (s.withdrawAt n d).ofu = s.ofu ∧ (s.withdrawAt n d).qnu = s.qnu ∧
    (s.withdrawAt n d).trm = s.trm ∧ (s.withdrawAt n d).lnk.sup.port = s.lnk.sup.port ∧
    (s.withdrawAt n d).lnk.sup.answers = s.lnk.sup.answers ∧ (s.withdrawAt n d).lnk.sup.sending = s.lnk.sup.sending ∧
    (s.withdrawAt n d).lnk.sup.line = s.lnk.sup.line ∧ (s.withdrawAt n d).lnk.mach = s.lnk.mach ∧
    (s.withdrawAt n d).cfg = s.cfg ∧ (s.withdrawAt n d).pending = s.pending := by
  unfold withdrawAt
  try dsimp only
  (repeat' split) <;> simp

@[simp] theorem doorGoesOff_frame (s : State) (n : Nat) (d : Side) :
    (s.doorGoesOff n d).tb = s.tb ∧ (s.doorGoesOff n d).ot = s.ot ∧ (s.doorGoesOff n d).pln = s.pln ∧
    (s.doorGoesOff n d).ilk.machines = s.ilk.machines ∧ (s.doorGoesOff n d).ilk.stop = s.ilk.stop ∧
    (s.doorGoesOff n d).ilk.holdCause = s.ilk.holdCause ∧ (s.doorGoesOff n d).ilk.lastRam = s.ilk.lastRam ∧
    (s.doorGoesOff n d).dru.vals = s.dru.vals ∧ (s.doorGoesOff n d).ofu.sections = s.ofu.sections ∧
    (s.doorGoesOff n d).ofu.gates = s.ofu.gates ∧ (s.doorGoesOff n d).ofu.valves = s.ofu.valves ∧
    (s.doorGoesOff n d).ofu.heldOffers = s.ofu.heldOffers ∧ (s.doorGoesOff n d).ofu.iso = s.ofu.iso ∧
    (s.doorGoesOff n d).ofu.charges = s.ofu.charges ∧ (s.doorGoesOff n d).qnu = s.qnu ∧
    (s.doorGoesOff n d).trm = s.trm ∧ (s.doorGoesOff n d).lnk.sup.port = s.lnk.sup.port ∧
    (s.doorGoesOff n d).lnk.sup.answers = s.lnk.sup.answers ∧
    (s.doorGoesOff n d).lnk.sup.sending = s.lnk.sup.sending ∧ (s.doorGoesOff n d).lnk.sup.line = s.lnk.sup.line ∧
    (∀ j, (((s.doorGoesOff n d)).lnk.mach.get j).port = (s.lnk.mach.get j).port) ∧
    (∀ j, (((s.doorGoesOff n d)).lnk.mach.get j).test = (s.lnk.mach.get j).test) ∧ (s.doorGoesOff n d).cfg = s.cfg ∧
    (s.doorGoesOff n d).pending = s.pending := by
  unfold doorGoesOff
  try dsimp only
  (repeat' split) <;> simp

@[simp] theorem doorSequence_frame (s : State) (n : Nat) (d : Side) (rep : ReportName) :
    (s.doorSequence n d rep).tb = s.tb ∧ (s.doorSequence n d rep).ot = s.ot ∧ (s.doorSequence n d rep).pln = s.pln ∧
    (s.doorSequence n d rep).ilk = s.ilk ∧ (s.doorSequence n d rep).dru = s.dru ∧
    (s.doorSequence n d rep).ofu = s.ofu ∧ (s.doorSequence n d rep).qnu = s.qnu ∧
    (s.doorSequence n d rep).trm = s.trm ∧ (s.doorSequence n d rep).lnk.sup.port = s.lnk.sup.port ∧
    (s.doorSequence n d rep).lnk.sup.answers = s.lnk.sup.answers ∧
    (s.doorSequence n d rep).lnk.sup.sending = s.lnk.sup.sending ∧
    (s.doorSequence n d rep).lnk.sup.line = s.lnk.sup.line ∧ (s.doorSequence n d rep).lnk.mach = s.lnk.mach ∧
    (s.doorSequence n d rep).cfg = s.cfg ∧ (s.doorSequence n d rep).pending = s.pending := by
  unfold doorSequence
  try dsimp only
  (repeat' split) <;> simp

@[simp] theorem doorOnFact_frame (s : State) (n : Nat) (d : Side) :
    (s.doorOnFact n d).1.tb = s.tb ∧ (s.doorOnFact n d).1.ot = s.ot ∧ (s.doorOnFact n d).1.pln = s.pln ∧
    (s.doorOnFact n d).1.ilk.machines = s.ilk.machines ∧ (s.doorOnFact n d).1.ilk.stop = s.ilk.stop ∧
    (s.doorOnFact n d).1.ilk.holdCause = s.ilk.holdCause ∧ (s.doorOnFact n d).1.ilk.lastRam = s.ilk.lastRam ∧
    (s.doorOnFact n d).1.dru.vals = s.dru.vals ∧ (s.doorOnFact n d).1.ofu.sections = s.ofu.sections ∧
    (s.doorOnFact n d).1.ofu.gates = s.ofu.gates ∧ (s.doorOnFact n d).1.ofu.valves = s.ofu.valves ∧
    (s.doorOnFact n d).1.ofu.heldOffers = s.ofu.heldOffers ∧ (s.doorOnFact n d).1.ofu.iso = s.ofu.iso ∧
    (s.doorOnFact n d).1.ofu.charges = s.ofu.charges ∧ (s.doorOnFact n d).1.qnu = s.qnu ∧
    (s.doorOnFact n d).1.trm = s.trm ∧ (s.doorOnFact n d).1.lnk.sup.port = s.lnk.sup.port ∧
    (s.doorOnFact n d).1.lnk.sup.answers = s.lnk.sup.answers ∧
    (s.doorOnFact n d).1.lnk.sup.sending = s.lnk.sup.sending ∧ (s.doorOnFact n d).1.lnk.sup.line = s.lnk.sup.line ∧
    (∀ j, (((s.doorOnFact n d).1).lnk.mach.get j).port = (s.lnk.mach.get j).port) ∧
    (∀ j, (((s.doorOnFact n d).1).lnk.mach.get j).test = (s.lnk.mach.get j).test) ∧ (s.doorOnFact n d).1.cfg = s.cfg ∧
    (s.doorOnFact n d).1.pending = s.pending := by
  unfold doorOnFact
  try dsimp only
  (repeat' split) <;> simp

@[simp] theorem doorTightFact_frame (s : State) (n : Nat) (d : Side) :
    (s.doorTightFact n d).tb = s.tb ∧ (s.doorTightFact n d).ot = s.ot ∧ (s.doorTightFact n d).pln = s.pln ∧
    (s.doorTightFact n d).ilk.machines = s.ilk.machines ∧ (s.doorTightFact n d).ilk.stop = s.ilk.stop ∧
    (s.doorTightFact n d).ilk.holdCause = s.ilk.holdCause ∧ (s.doorTightFact n d).ilk.lastRam = s.ilk.lastRam ∧
    (s.doorTightFact n d).dru.vals = s.dru.vals ∧ (s.doorTightFact n d).ofu.sections = s.ofu.sections ∧
    (s.doorTightFact n d).ofu.gates = s.ofu.gates ∧ (s.doorTightFact n d).ofu.valves = s.ofu.valves ∧
    (s.doorTightFact n d).ofu.heldOffers = s.ofu.heldOffers ∧ (s.doorTightFact n d).ofu.iso = s.ofu.iso ∧
    (s.doorTightFact n d).ofu.charges = s.ofu.charges ∧ (s.doorTightFact n d).qnu = s.qnu ∧
    (s.doorTightFact n d).trm = s.trm ∧ (s.doorTightFact n d).lnk.sup.port = s.lnk.sup.port ∧
    (s.doorTightFact n d).lnk.sup.answers = s.lnk.sup.answers ∧
    (s.doorTightFact n d).lnk.sup.sending = s.lnk.sup.sending ∧ (s.doorTightFact n d).lnk.sup.line = s.lnk.sup.line ∧
    (∀ j, (((s.doorTightFact n d)).lnk.mach.get j).port = (s.lnk.mach.get j).port) ∧
    (∀ j, (((s.doorTightFact n d)).lnk.mach.get j).test = (s.lnk.mach.get j).test) ∧
    (s.doorTightFact n d).cfg = s.cfg ∧ (s.doorTightFact n d).pending = s.pending := by
  unfold doorTightFact
  try dsimp only
  (repeat' split) <;> simp

@[simp] theorem applyResult_frame (s : State) (d : Side) (n : Nat) (k : TaskKind) (r : TaskResult) :
    (s.applyResult d n k r).tb = s.tb ∧ (s.applyResult d n k r).ot = s.ot ∧ (s.applyResult d n k r).pln = s.pln ∧
    (s.applyResult d n k r).ilk.machines = s.ilk.machines ∧ (s.applyResult d n k r).ilk.stop = s.ilk.stop ∧
    (s.applyResult d n k r).ilk.holdCause = s.ilk.holdCause ∧ (s.applyResult d n k r).ilk.lastRam = s.ilk.lastRam ∧
    (s.applyResult d n k r).dru.vals = s.dru.vals ∧ (s.applyResult d n k r).ofu.sections = s.ofu.sections ∧
    (s.applyResult d n k r).ofu.gates = s.ofu.gates ∧ (s.applyResult d n k r).ofu.valves = s.ofu.valves ∧
    (s.applyResult d n k r).ofu.heldOffers = s.ofu.heldOffers ∧ (s.applyResult d n k r).ofu.iso = s.ofu.iso ∧
    (s.applyResult d n k r).ofu.charges = s.ofu.charges ∧ (s.applyResult d n k r).qnu = s.qnu ∧
    (s.applyResult d n k r).trm = s.trm ∧ (s.applyResult d n k r).lnk.sup.port = s.lnk.sup.port ∧
    (s.applyResult d n k r).lnk.sup.answers = s.lnk.sup.answers ∧
    (s.applyResult d n k r).lnk.sup.sending = s.lnk.sup.sending ∧
    (s.applyResult d n k r).lnk.sup.line = s.lnk.sup.line ∧
    (∀ j, (((s.applyResult d n k r)).lnk.mach.get j).port = (s.lnk.mach.get j).port) ∧
    (∀ j, (((s.applyResult d n k r)).lnk.mach.get j).test = (s.lnk.mach.get j).test) ∧
    (s.applyResult d n k r).cfg = s.cfg ∧ (s.applyResult d n k r).pending = s.pending := by
  unfold applyResult
  by_cases h : k = .clean <;> simp only [h, if_true, if_false] <;> split <;> simp

@[simp] theorem visitDone_frame (s : State) (d : Side) (n : Nat) :
    (s.visitDone d n).tb = s.tb ∧ (s.visitDone d n).ot = s.ot ∧ (s.visitDone d n).pln = s.pln ∧
    (s.visitDone d n).ilk.machines = s.ilk.machines ∧ (s.visitDone d n).ilk.stop = s.ilk.stop ∧
    (s.visitDone d n).ilk.holdCause = s.ilk.holdCause ∧ (s.visitDone d n).ilk.lastRam = s.ilk.lastRam ∧
    (s.visitDone d n).dru.doors = s.dru.doors ∧ (s.visitDone d n).dru.vals = s.dru.vals ∧
    (s.visitDone d n).ofu.sections = s.ofu.sections ∧ (s.visitDone d n).ofu.gates = s.ofu.gates ∧
    (s.visitDone d n).ofu.valves = s.ofu.valves ∧ (s.visitDone d n).ofu.heldOffers = s.ofu.heldOffers ∧
    (s.visitDone d n).ofu.iso = s.ofu.iso ∧ (s.visitDone d n).ofu.charges = s.ofu.charges ∧
    (s.visitDone d n).qnu = s.qnu ∧ (s.visitDone d n).trm = s.trm ∧ (s.visitDone d n).lnk.sup.port = s.lnk.sup.port ∧
    (s.visitDone d n).lnk.sup.answers = s.lnk.sup.answers ∧ (s.visitDone d n).lnk.sup.sending = s.lnk.sup.sending ∧
    (s.visitDone d n).lnk.sup.line = s.lnk.sup.line ∧
    (∀ j, (((s.visitDone d n)).lnk.mach.get j).port = (s.lnk.mach.get j).port) ∧
    (∀ j, (((s.visitDone d n)).lnk.mach.get j).test = (s.lnk.mach.get j).test) ∧ (s.visitDone d n).cfg = s.cfg ∧
    (s.visitDone d n).pending = s.pending := by
  unfold visitDone
  try dsimp only
  (repeat' split) <;> simp

@[simp] theorem taskDoneOp_frame (s : State) (d : Side) (n : Nat) (k : TaskKind) (r : TaskResult) :
    (s.taskDoneOp d n k r).tb = s.tb ∧ (s.taskDoneOp d n k r).ot = s.ot ∧ (s.taskDoneOp d n k r).pln = s.pln ∧
    (s.taskDoneOp d n k r).ilk.machines = s.ilk.machines ∧ (s.taskDoneOp d n k r).ilk.stop = s.ilk.stop ∧
    (s.taskDoneOp d n k r).ilk.holdCause = s.ilk.holdCause ∧ (s.taskDoneOp d n k r).ilk.lastRam = s.ilk.lastRam ∧
    (s.taskDoneOp d n k r).dru.vals = s.dru.vals ∧ (s.taskDoneOp d n k r).ofu.sections = s.ofu.sections ∧
    (s.taskDoneOp d n k r).ofu.gates = s.ofu.gates ∧ (s.taskDoneOp d n k r).ofu.valves = s.ofu.valves ∧
    (s.taskDoneOp d n k r).ofu.heldOffers = s.ofu.heldOffers ∧ (s.taskDoneOp d n k r).ofu.iso = s.ofu.iso ∧
    (s.taskDoneOp d n k r).ofu.charges = s.ofu.charges ∧ (s.taskDoneOp d n k r).qnu = s.qnu ∧
    (s.taskDoneOp d n k r).trm = s.trm ∧ (s.taskDoneOp d n k r).lnk.sup.port = s.lnk.sup.port ∧
    (s.taskDoneOp d n k r).lnk.sup.answers = s.lnk.sup.answers ∧
    (s.taskDoneOp d n k r).lnk.sup.sending = s.lnk.sup.sending ∧
    (s.taskDoneOp d n k r).lnk.sup.line = s.lnk.sup.line ∧
    (∀ j, (((s.taskDoneOp d n k r)).lnk.mach.get j).port = (s.lnk.mach.get j).port) ∧
    (∀ j, (((s.taskDoneOp d n k r)).lnk.mach.get j).test = (s.lnk.mach.get j).test) ∧
    (s.taskDoneOp d n k r).cfg = s.cfg ∧ (s.taskDoneOp d n k r).pending = s.pending := by
  unfold taskDoneOp
  try dsimp only
  (repeat' split) <;> simp

@[simp] theorem taskTimeout_frame (s : State) (d : Side) (e : TaskEntry) :
    (s.taskTimeout d e).tb = s.tb ∧ (s.taskTimeout d e).ot = s.ot ∧ (s.taskTimeout d e).pln = s.pln ∧
    (s.taskTimeout d e).ilk = s.ilk ∧ (s.taskTimeout d e).dru.vals = s.dru.vals ∧ (s.taskTimeout d e).ofu = s.ofu ∧
    (s.taskTimeout d e).qnu = s.qnu ∧ (s.taskTimeout d e).trm = s.trm ∧
    (s.taskTimeout d e).lnk.sup.port = s.lnk.sup.port ∧ (s.taskTimeout d e).lnk.sup.answers = s.lnk.sup.answers ∧
    (s.taskTimeout d e).lnk.sup.sending = s.lnk.sup.sending ∧ (s.taskTimeout d e).lnk.sup.line = s.lnk.sup.line ∧
    (∀ j, (((s.taskTimeout d e)).lnk.mach.get j).port = (s.lnk.mach.get j).port) ∧
    (∀ j, (((s.taskTimeout d e)).lnk.mach.get j).test = (s.lnk.mach.get j).test) ∧ (s.taskTimeout d e).cfg = s.cfg ∧
    (s.taskTimeout d e).pending = s.pending := by
  unfold taskTimeout
  try dsimp only
  (repeat' split) <;> simp

@[simp] theorem visitTimeout_frame (s : State) (d : Side) (v : Visit) :
    (s.visitTimeout d v).tb = s.tb ∧ (s.visitTimeout d v).ot = s.ot ∧ (s.visitTimeout d v).pln = s.pln ∧
    (s.visitTimeout d v).ilk = s.ilk ∧ (s.visitTimeout d v).dru.doors = s.dru.doors ∧
    (s.visitTimeout d v).dru.vals = s.dru.vals ∧ (s.visitTimeout d v).ofu = s.ofu ∧ (s.visitTimeout d v).qnu = s.qnu ∧
    (s.visitTimeout d v).trm = s.trm ∧ (s.visitTimeout d v).lnk.sup.port = s.lnk.sup.port ∧
    (s.visitTimeout d v).lnk.sup.answers = s.lnk.sup.answers ∧
    (s.visitTimeout d v).lnk.sup.sending = s.lnk.sup.sending ∧ (s.visitTimeout d v).lnk.sup.line = s.lnk.sup.line ∧
    (∀ j, (((s.visitTimeout d v)).lnk.mach.get j).port = (s.lnk.mach.get j).port) ∧
    (∀ j, (((s.visitTimeout d v)).lnk.mach.get j).test = (s.lnk.mach.get j).test) ∧ (s.visitTimeout d v).cfg = s.cfg ∧
    (s.visitTimeout d v).pending = s.pending := by
  unfold visitTimeout
  try dsimp only
  (repeat' split) <;> simp

@[simp] theorem doorOffline_frame (s : State) (d : Side) :
    (s.doorOffline d).tb = s.tb ∧ (s.doorOffline d).ot = s.ot ∧ (s.doorOffline d).pln = s.pln ∧
    (s.doorOffline d).ilk = s.ilk ∧ (s.doorOffline d).dru.doors = s.dru.doors ∧
    (s.doorOffline d).dru.vals = s.dru.vals ∧ (s.doorOffline d).ofu = s.ofu ∧ (s.doorOffline d).qnu = s.qnu ∧
    (s.doorOffline d).trm = s.trm ∧ (s.doorOffline d).lnk = s.lnk ∧ (s.doorOffline d).cfg = s.cfg ∧
    (s.doorOffline d).pending = s.pending := by
  unfold doorOffline
  try dsimp only
  (repeat' split) <;> simp

@[simp] theorem accrue_frame (s : State) (d : Side) :
    (s.accrue d).tb = s.tb ∧ (s.accrue d).ot = s.ot ∧ (s.accrue d).pln = s.pln ∧
    (s.accrue d).ilk.machines = s.ilk.machines ∧ (s.accrue d).ilk.stop = s.ilk.stop ∧
    (s.accrue d).ilk.holdCause = s.ilk.holdCause ∧ (s.accrue d).ilk.lastRam = s.ilk.lastRam ∧
    (s.accrue d).dru.doors = s.dru.doors ∧ (s.accrue d).dru.vals = s.dru.vals ∧
    (s.accrue d).ofu.sections = s.ofu.sections ∧ (s.accrue d).ofu.gates = s.ofu.gates ∧
    (s.accrue d).ofu.valves = s.ofu.valves ∧ (s.accrue d).ofu.heldOffers = s.ofu.heldOffers ∧
    (s.accrue d).ofu.iso = s.ofu.iso ∧ (s.accrue d).ofu.charges = s.ofu.charges ∧ (s.accrue d).qnu = s.qnu ∧
    (s.accrue d).trm = s.trm ∧ (s.accrue d).lnk.sup.port = s.lnk.sup.port ∧
    (s.accrue d).lnk.sup.answers = s.lnk.sup.answers ∧ (s.accrue d).lnk.sup.sending = s.lnk.sup.sending ∧
    (s.accrue d).lnk.sup.line = s.lnk.sup.line ∧
    (∀ j, (((s.accrue d)).lnk.mach.get j).port = (s.lnk.mach.get j).port) ∧
    (∀ j, (((s.accrue d)).lnk.mach.get j).test = (s.lnk.mach.get j).test) ∧ (s.accrue d).cfg = s.cfg ∧
    (s.accrue d).pending = s.pending := by
  unfold accrue
  try dsimp only
  (repeat' split) <;> simp

@[simp] theorem confirmExpire_frame (s : State) (n : Nat) (d : Side) :
    (s.confirmExpire n d).tb = s.tb ∧ (s.confirmExpire n d).ot = s.ot ∧ (s.confirmExpire n d).pln = s.pln ∧
    (s.confirmExpire n d).ilk = s.ilk ∧ (s.confirmExpire n d).dru.vals = s.dru.vals ∧
    (s.confirmExpire n d).ofu = s.ofu ∧ (s.confirmExpire n d).qnu = s.qnu ∧ (s.confirmExpire n d).trm = s.trm ∧
    (s.confirmExpire n d).lnk.sup.port = s.lnk.sup.port ∧ (s.confirmExpire n d).lnk.sup.answers = s.lnk.sup.answers ∧
    (s.confirmExpire n d).lnk.sup.sending = s.lnk.sup.sending ∧ (s.confirmExpire n d).lnk.sup.line = s.lnk.sup.line ∧
    (∀ j, (((s.confirmExpire n d)).lnk.mach.get j).port = (s.lnk.mach.get j).port) ∧
    (∀ j, (((s.confirmExpire n d)).lnk.mach.get j).test = (s.lnk.mach.get j).test) ∧
    (s.confirmExpire n d).cfg = s.cfg ∧ (s.confirmExpire n d).pending = s.pending := by
  unfold confirmExpire
  try dsimp only
  (repeat' split) <;> simp

@[simp] theorem commitDoorsFrom_frame (d : Side) (x0 : List Nat) (s : State) :
    (commitDoorsFrom d x0 s).tb = s.tb ∧ (commitDoorsFrom d x0 s).ot = s.ot ∧ (commitDoorsFrom d x0 s).pln = s.pln ∧
    (commitDoorsFrom d x0 s).ilk = s.ilk ∧ (commitDoorsFrom d x0 s).dru.rounds = s.dru.rounds ∧
    (commitDoorsFrom d x0 s).dru.vals = s.dru.vals ∧ (commitDoorsFrom d x0 s).ofu = s.ofu ∧
    (commitDoorsFrom d x0 s).qnu = s.qnu ∧ (commitDoorsFrom d x0 s).trm = s.trm ∧
    (commitDoorsFrom d x0 s).lnk.sup.port = s.lnk.sup.port ∧
    (commitDoorsFrom d x0 s).lnk.sup.answers = s.lnk.sup.answers ∧
    (commitDoorsFrom d x0 s).lnk.sup.sending = s.lnk.sup.sending ∧
    (commitDoorsFrom d x0 s).lnk.sup.line = s.lnk.sup.line ∧ (commitDoorsFrom d x0 s).lnk.mach = s.lnk.mach ∧
    (commitDoorsFrom d x0 s).cfg = s.cfg ∧ (commitDoorsFrom d x0 s).pending = s.pending := by
  induction x0 generalizing s with
  | nil => simp [commitDoorsFrom]
  | cons a l ih => rw [commitDoorsFrom]; split <;> simp [ih]

@[simp] theorem commitDoors_frame (s : State) (d : Side) :
    (s.commitDoors d).tb = s.tb ∧ (s.commitDoors d).ot = s.ot ∧ (s.commitDoors d).pln = s.pln ∧
    (s.commitDoors d).ilk = s.ilk ∧ (s.commitDoors d).dru.vals = s.dru.vals ∧ (s.commitDoors d).ofu = s.ofu ∧
    (s.commitDoors d).qnu = s.qnu ∧ (s.commitDoors d).trm = s.trm ∧ (s.commitDoors d).lnk.sup.port = s.lnk.sup.port ∧
    (s.commitDoors d).lnk.sup.answers = s.lnk.sup.answers ∧ (s.commitDoors d).lnk.sup.sending = s.lnk.sup.sending ∧
    (s.commitDoors d).lnk.sup.line = s.lnk.sup.line ∧
    (∀ j, (((s.commitDoors d)).lnk.mach.get j).port = (s.lnk.mach.get j).port) ∧
    (∀ j, (((s.commitDoors d)).lnk.mach.get j).test = (s.lnk.mach.get j).test) ∧ (s.commitDoors d).cfg = s.cfg ∧
    (s.commitDoors d).pending = s.pending := by
  unfold commitDoors
  try dsimp only
  (repeat' split) <;> simp

@[simp] theorem doorRestart_frame (s : State) :
    s.doorRestart.tb = s.tb ∧ s.doorRestart.ot = s.ot ∧ s.doorRestart.pln = s.pln ∧ s.doorRestart.ilk = s.ilk ∧
    s.doorRestart.dru.vals = s.dru.vals ∧ s.doorRestart.ofu = s.ofu ∧ s.doorRestart.qnu = s.qnu ∧
    s.doorRestart.trm = s.trm ∧ s.doorRestart.lnk = s.lnk ∧ s.doorRestart.cfg = s.cfg ∧
    s.doorRestart.pending = s.pending := by
  unfold doorRestart
  try dsimp only
  (repeat' split) <;> simp

@[simp] theorem updPush_frame (s : State) (f : PushRec → PushRec) :
    (s.updPush f).tb = s.tb ∧ (s.updPush f).ot = s.ot ∧ (s.updPush f).pln = s.pln ∧
    (s.updPush f).ilk.machines = s.ilk.machines ∧ (s.updPush f).ilk.permits = s.ilk.permits ∧
    (s.updPush f).ilk.stop = s.ilk.stop ∧ (s.updPush f).ilk.holdCause = s.ilk.holdCause ∧
    (s.updPush f).ilk.lastRam = s.ilk.lastRam ∧ (s.updPush f).dru = s.dru ∧ (s.updPush f).ofu = s.ofu ∧
    (s.updPush f).qnu = s.qnu ∧ (s.updPush f).trm = s.trm ∧ (s.updPush f).lnk = s.lnk ∧ (s.updPush f).cfg = s.cfg ∧
    (s.updPush f).pending = s.pending := by
  unfold updPush
  try dsimp only
  (repeat' split) <;> simp

@[simp] theorem holdTimer_frame (s : State) :
    s.holdTimer.tb = s.tb ∧ s.holdTimer.ot = s.ot ∧ s.holdTimer.pln = s.pln ∧
    s.holdTimer.ilk.machines = s.ilk.machines ∧ s.holdTimer.ilk.permits = s.ilk.permits ∧
    s.holdTimer.ilk.stop = s.ilk.stop ∧ s.holdTimer.ilk.holdCause = s.ilk.holdCause ∧
    s.holdTimer.ilk.lastRam = s.ilk.lastRam ∧ s.holdTimer.dru = s.dru ∧ s.holdTimer.ofu = s.ofu ∧
    s.holdTimer.qnu = s.qnu ∧ s.holdTimer.trm = s.trm ∧ s.holdTimer.lnk = s.lnk ∧ s.holdTimer.cfg = s.cfg ∧
    s.holdTimer.pending = s.pending := by
  unfold holdTimer
  try dsimp only
  (repeat' split) <;> simp

@[simp] theorem sticker_frame (s : State) (p : PushRec) :
    (s.sticker p).tb = s.tb ∧ (s.sticker p).pln = s.pln ∧ (s.sticker p).ilk.machines = s.ilk.machines ∧
    (s.sticker p).ilk.stop = s.ilk.stop ∧ (s.sticker p).ilk.holdCause = s.ilk.holdCause ∧
    (s.sticker p).ilk.lastRam = s.ilk.lastRam ∧ (s.sticker p).dru.doors = s.dru.doors ∧
    (s.sticker p).dru.vals = s.dru.vals ∧ (s.sticker p).ofu.sections = s.ofu.sections ∧
    (s.sticker p).ofu.gates = s.ofu.gates ∧ (s.sticker p).ofu.valves = s.ofu.valves ∧
    (s.sticker p).ofu.heldOffers = s.ofu.heldOffers ∧ (s.sticker p).ofu.iso = s.ofu.iso ∧
    (s.sticker p).ofu.charges = s.ofu.charges ∧ (s.sticker p).qnu.blocked = s.qnu.blocked ∧
    (s.sticker p).qnu.load = s.qnu.load ∧ (s.sticker p).qnu.phase = s.qnu.phase ∧
    (s.sticker p).qnu.bays = s.qnu.bays ∧ (s.sticker p).qnu.free = s.qnu.free ∧
    (s.sticker p).qnu.discharge = s.qnu.discharge ∧ (s.sticker p).qnu.vals = s.qnu.vals ∧ (s.sticker p).trm = s.trm ∧
    (s.sticker p).lnk.sup.port = s.lnk.sup.port ∧ (s.sticker p).lnk.sup.answers = s.lnk.sup.answers ∧
    (s.sticker p).lnk.sup.sending = s.lnk.sup.sending ∧ (s.sticker p).lnk.sup.line = s.lnk.sup.line ∧
    (∀ j, (((s.sticker p)).lnk.mach.get j).port = (s.lnk.mach.get j).port) ∧
    (∀ j, (((s.sticker p)).lnk.mach.get j).test = (s.lnk.mach.get j).test) ∧ (s.sticker p).cfg = s.cfg ∧
    (s.sticker p).pending = s.pending := by
  unfold sticker
  try dsimp only
  (repeat' split) <;> simp

@[simp] theorem pushLate_frame (s : State) (p : PushRec) :
    (s.pushLate p).tb = s.tb ∧ (s.pushLate p).ot = s.ot ∧ (s.pushLate p).pln = s.pln ∧
    (s.pushLate p).ilk.machines = s.ilk.machines ∧ (s.pushLate p).ilk.permits = s.ilk.permits ∧
    (s.pushLate p).ilk.stop = s.ilk.stop ∧ (s.pushLate p).ilk.holdCause = s.ilk.holdCause ∧
    (s.pushLate p).ilk.lastRam = s.ilk.lastRam ∧ (s.pushLate p).dru = s.dru ∧ (s.pushLate p).ofu = s.ofu ∧
    (s.pushLate p).qnu = s.qnu ∧ (s.pushLate p).trm = s.trm ∧ (s.pushLate p).lnk.sup.port = s.lnk.sup.port ∧
    (s.pushLate p).lnk.sup.answers = s.lnk.sup.answers ∧ (s.pushLate p).lnk.sup.sending = s.lnk.sup.sending ∧
    (s.pushLate p).lnk.sup.line = s.lnk.sup.line ∧ (s.pushLate p).lnk.mach = s.lnk.mach ∧ (s.pushLate p).cfg = s.cfg ∧
    (s.pushLate p).pending = s.pending := by
  unfold pushLate
  try dsimp only
  (repeat' split) <;> simp

@[simp] theorem stageExpire_frame (s : State) (p : PushRec) :
    (s.stageExpire p).tb = s.tb ∧ (s.stageExpire p).pln = s.pln ∧ (s.stageExpire p).ilk.machines = s.ilk.machines ∧
    (s.stageExpire p).ilk.stop = s.ilk.stop ∧ (s.stageExpire p).ilk.holdCause = s.ilk.holdCause ∧
    (s.stageExpire p).ilk.lastRam = s.ilk.lastRam ∧ (s.stageExpire p).dru.doors = s.dru.doors ∧
    (s.stageExpire p).dru.vals = s.dru.vals ∧ (s.stageExpire p).ofu.sections = s.ofu.sections ∧
    (s.stageExpire p).ofu.gates = s.ofu.gates ∧ (s.stageExpire p).ofu.valves = s.ofu.valves ∧
    (s.stageExpire p).ofu.heldOffers = s.ofu.heldOffers ∧ (s.stageExpire p).ofu.iso = s.ofu.iso ∧
    (s.stageExpire p).ofu.charges = s.ofu.charges ∧ (s.stageExpire p).qnu.blocked = s.qnu.blocked ∧
    (s.stageExpire p).qnu.load = s.qnu.load ∧ (s.stageExpire p).qnu.phase = s.qnu.phase ∧
    (s.stageExpire p).qnu.bays = s.qnu.bays ∧ (s.stageExpire p).qnu.free = s.qnu.free ∧
    (s.stageExpire p).qnu.discharge = s.qnu.discharge ∧ (s.stageExpire p).qnu.vals = s.qnu.vals ∧
    (s.stageExpire p).trm = s.trm ∧ (s.stageExpire p).lnk.sup.port = s.lnk.sup.port ∧
    (s.stageExpire p).lnk.sup.answers = s.lnk.sup.answers ∧ (s.stageExpire p).lnk.sup.sending = s.lnk.sup.sending ∧
    (s.stageExpire p).lnk.sup.line = s.lnk.sup.line ∧
    (∀ j, (((s.stageExpire p)).lnk.mach.get j).port = (s.lnk.mach.get j).port) ∧
    (∀ j, (((s.stageExpire p)).lnk.mach.get j).test = (s.lnk.mach.get j).test) ∧ (s.stageExpire p).cfg = s.cfg ∧
    (s.stageExpire p).pending = s.pending := by
  unfold stageExpire
  try dsimp only
  (repeat' split) <;> simp

@[simp] theorem resumeTimer_frame (s : State) :
    s.resumeTimer.tb = s.tb ∧ s.resumeTimer.pln = s.pln ∧ s.resumeTimer.ilk.machines = s.ilk.machines ∧
    s.resumeTimer.ilk.stop = s.ilk.stop ∧ s.resumeTimer.ilk.holdCause = s.ilk.holdCause ∧
    s.resumeTimer.ilk.lastRam = s.ilk.lastRam ∧ s.resumeTimer.dru.doors = s.dru.doors ∧
    s.resumeTimer.dru.vals = s.dru.vals ∧ s.resumeTimer.ofu.sections = s.ofu.sections ∧
    s.resumeTimer.ofu.gates = s.ofu.gates ∧ s.resumeTimer.ofu.valves = s.ofu.valves ∧
    s.resumeTimer.ofu.heldOffers = s.ofu.heldOffers ∧ s.resumeTimer.ofu.iso = s.ofu.iso ∧
    s.resumeTimer.ofu.charges = s.ofu.charges ∧ s.resumeTimer.qnu.blocked = s.qnu.blocked ∧
    s.resumeTimer.qnu.load = s.qnu.load ∧ s.resumeTimer.qnu.phase = s.qnu.phase ∧
    s.resumeTimer.qnu.bays = s.qnu.bays ∧ s.resumeTimer.qnu.free = s.qnu.free ∧
    s.resumeTimer.qnu.discharge = s.qnu.discharge ∧ s.resumeTimer.qnu.vals = s.qnu.vals ∧ s.resumeTimer.trm = s.trm ∧
    s.resumeTimer.lnk.sup.port = s.lnk.sup.port ∧ s.resumeTimer.lnk.sup.answers = s.lnk.sup.answers ∧
    s.resumeTimer.lnk.sup.sending = s.lnk.sup.sending ∧ s.resumeTimer.lnk.sup.line = s.lnk.sup.line ∧
    (∀ j, ((s.resumeTimer).lnk.mach.get j).port = (s.lnk.mach.get j).port) ∧
    (∀ j, ((s.resumeTimer).lnk.mach.get j).test = (s.lnk.mach.get j).test) ∧ s.resumeTimer.cfg = s.cfg ∧
    s.resumeTimer.pending = s.pending := by
  unfold resumeTimer
  try dsimp only
  (repeat' split) <;> simp

@[simp] theorem pushRemoved_frame (s : State) (n : Nat) :
    (s.pushRemoved n).tb = s.tb ∧ (s.pushRemoved n).ot = s.ot ∧ (s.pushRemoved n).pln = s.pln ∧
    (s.pushRemoved n).ilk.machines = s.ilk.machines ∧ (s.pushRemoved n).ilk.stop = s.ilk.stop ∧
    (s.pushRemoved n).ilk.holdCause = s.ilk.holdCause ∧ (s.pushRemoved n).ilk.lastRam = s.ilk.lastRam ∧
    (s.pushRemoved n).dru.doors = s.dru.doors ∧ (s.pushRemoved n).dru.vals = s.dru.vals ∧
    (s.pushRemoved n).ofu.sections = s.ofu.sections ∧ (s.pushRemoved n).ofu.gates = s.ofu.gates ∧
    (s.pushRemoved n).ofu.valves = s.ofu.valves ∧ (s.pushRemoved n).ofu.heldOffers = s.ofu.heldOffers ∧
    (s.pushRemoved n).ofu.iso = s.ofu.iso ∧ (s.pushRemoved n).ofu.charges = s.ofu.charges ∧
    (s.pushRemoved n).qnu.blocked = s.qnu.blocked ∧ (s.pushRemoved n).qnu.load = s.qnu.load ∧
    (s.pushRemoved n).qnu.phase = s.qnu.phase ∧ (s.pushRemoved n).qnu.bays = s.qnu.bays ∧
    (s.pushRemoved n).qnu.free = s.qnu.free ∧ (s.pushRemoved n).qnu.discharge = s.qnu.discharge ∧
    (s.pushRemoved n).qnu.vals = s.qnu.vals ∧ (s.pushRemoved n).trm = s.trm ∧
    (s.pushRemoved n).lnk.sup.port = s.lnk.sup.port ∧ (s.pushRemoved n).lnk.sup.answers = s.lnk.sup.answers ∧
    (s.pushRemoved n).lnk.sup.sending = s.lnk.sup.sending ∧ (s.pushRemoved n).lnk.sup.line = s.lnk.sup.line ∧
    (∀ j, (((s.pushRemoved n)).lnk.mach.get j).port = (s.lnk.mach.get j).port) ∧
    (∀ j, (((s.pushRemoved n)).lnk.mach.get j).test = (s.lnk.mach.get j).test) ∧ (s.pushRemoved n).cfg = s.cfg ∧
    (s.pushRemoved n).pending = s.pending := by
  unfold pushRemoved
  try dsimp only
  (repeat' split) <;> simp

@[simp] theorem pushComplete_frame (s : State) (p : PushRec) :
    (s.pushComplete p).tb = s.tb ∧ (s.pushComplete p).ilk.machines = s.ilk.machines ∧
    (s.pushComplete p).ilk.stop = s.ilk.stop ∧ (s.pushComplete p).ilk.holdCause = s.ilk.holdCause ∧
    (s.pushComplete p).ilk.lastRam = s.ilk.lastRam ∧ (s.pushComplete p).dru.doors = s.dru.doors ∧
    (s.pushComplete p).dru.vals = s.dru.vals ∧ (s.pushComplete p).ofu.sections = s.ofu.sections ∧
    (s.pushComplete p).ofu.gates = s.ofu.gates ∧ (s.pushComplete p).ofu.valves = s.ofu.valves ∧
    (s.pushComplete p).ofu.charges = s.ofu.charges ∧ (s.pushComplete p).qnu.blocked = s.qnu.blocked ∧
    (s.pushComplete p).qnu.load = s.qnu.load ∧ (s.pushComplete p).qnu.phase = s.qnu.phase ∧
    (s.pushComplete p).qnu.bays = s.qnu.bays ∧ (s.pushComplete p).qnu.free = s.qnu.free ∧
    (s.pushComplete p).qnu.discharge = s.qnu.discharge ∧ (s.pushComplete p).qnu.vals = s.qnu.vals ∧
    (s.pushComplete p).trm = s.trm ∧ (s.pushComplete p).lnk.sup.port = s.lnk.sup.port ∧
    (s.pushComplete p).lnk.sup.answers = s.lnk.sup.answers ∧ (s.pushComplete p).lnk.sup.sending = s.lnk.sup.sending ∧
    (s.pushComplete p).lnk.sup.line = s.lnk.sup.line ∧
    (∀ j, (((s.pushComplete p)).lnk.mach.get j).port = (s.lnk.mach.get j).port) ∧
    (∀ j, (((s.pushComplete p)).lnk.mach.get j).test = (s.lnk.mach.get j).test) ∧ (s.pushComplete p).cfg = s.cfg ∧
    (s.pushComplete p).pending = s.pending := by
  unfold pushComplete
  try dsimp only
  (repeat' split) <;> simp

@[simp] theorem completionTest_frame (s : State) :
    s.completionTest.tb = s.tb ∧ s.completionTest.ilk.machines = s.ilk.machines ∧
    s.completionTest.ilk.stop = s.ilk.stop ∧ s.completionTest.ilk.holdCause = s.ilk.holdCause ∧
    s.completionTest.ilk.lastRam = s.ilk.lastRam ∧ s.completionTest.dru.doors = s.dru.doors ∧
    s.completionTest.dru.vals = s.dru.vals ∧ s.completionTest.ofu.sections = s.ofu.sections ∧
    s.completionTest.ofu.gates = s.ofu.gates ∧ s.completionTest.ofu.valves = s.ofu.valves ∧
    s.completionTest.ofu.charges = s.ofu.charges ∧ s.completionTest.qnu.blocked = s.qnu.blocked ∧
    s.completionTest.qnu.load = s.qnu.load ∧ s.completionTest.qnu.phase = s.qnu.phase ∧
    s.completionTest.qnu.bays = s.qnu.bays ∧ s.completionTest.qnu.free = s.qnu.free ∧
    s.completionTest.qnu.discharge = s.qnu.discharge ∧ s.completionTest.qnu.vals = s.qnu.vals ∧
    s.completionTest.trm = s.trm ∧ s.completionTest.lnk.sup.port = s.lnk.sup.port ∧
    s.completionTest.lnk.sup.answers = s.lnk.sup.answers ∧ s.completionTest.lnk.sup.sending = s.lnk.sup.sending ∧
    s.completionTest.lnk.sup.line = s.lnk.sup.line ∧
    (∀ j, ((s.completionTest).lnk.mach.get j).port = (s.lnk.mach.get j).port) ∧
    (∀ j, ((s.completionTest).lnk.mach.get j).test = (s.lnk.mach.get j).test) ∧ s.completionTest.cfg = s.cfg ∧
    s.completionTest.pending = s.pending := by
  unfold completionTest
  try dsimp only
  (repeat' split) <;> simp

@[simp] theorem followRam_frame (s : State) (n : Nat) :
    (s.followRam n).tb = s.tb ∧ (s.followRam n).ot = s.ot ∧ (s.followRam n).pln = s.pln ∧
    (s.followRam n).ilk.machines = s.ilk.machines ∧ (s.followRam n).ilk.stop = s.ilk.stop ∧
    (s.followRam n).ilk.holdCause = s.ilk.holdCause ∧ (s.followRam n).ilk.lastRam = s.ilk.lastRam ∧
    (s.followRam n).dru.doors = s.dru.doors ∧ (s.followRam n).dru.vals = s.dru.vals ∧
    (s.followRam n).ofu.sections = s.ofu.sections ∧ (s.followRam n).ofu.gates = s.ofu.gates ∧
    (s.followRam n).ofu.valves = s.ofu.valves ∧ (s.followRam n).ofu.heldOffers = s.ofu.heldOffers ∧
    (s.followRam n).ofu.iso = s.ofu.iso ∧ (s.followRam n).ofu.charges = s.ofu.charges ∧
    (s.followRam n).qnu.blocked = s.qnu.blocked ∧ (s.followRam n).qnu.load = s.qnu.load ∧
    (s.followRam n).qnu.phase = s.qnu.phase ∧ (s.followRam n).qnu.bays = s.qnu.bays ∧
    (s.followRam n).qnu.free = s.qnu.free ∧ (s.followRam n).qnu.discharge = s.qnu.discharge ∧
    (s.followRam n).qnu.vals = s.qnu.vals ∧ (s.followRam n).trm = s.trm ∧
    (s.followRam n).lnk.sup.port = s.lnk.sup.port ∧ (s.followRam n).lnk.sup.answers = s.lnk.sup.answers ∧
    (s.followRam n).lnk.sup.sending = s.lnk.sup.sending ∧ (s.followRam n).lnk.sup.line = s.lnk.sup.line ∧
    (∀ j, (((s.followRam n)).lnk.mach.get j).port = (s.lnk.mach.get j).port) ∧
    (∀ j, (((s.followRam n)).lnk.mach.get j).test = (s.lnk.mach.get j).test) ∧ (s.followRam n).cfg = s.cfg ∧
    (s.followRam n).pending = s.pending := by
  unfold followRam
  try dsimp only
  (repeat' split) <;> simp

@[simp] theorem takeRamEnd_frame (s : State) (p : PushRec) (derived : Bool) :
    (s.takeRamEnd p derived).tb = s.tb ∧ (s.takeRamEnd p derived).ot = s.ot ∧ (s.takeRamEnd p derived).pln = s.pln ∧
    (s.takeRamEnd p derived).ilk.machines = s.ilk.machines ∧ (s.takeRamEnd p derived).ilk.stop = s.ilk.stop ∧
    (s.takeRamEnd p derived).ilk.holdCause = s.ilk.holdCause ∧ (s.takeRamEnd p derived).ilk.lastRam = s.ilk.lastRam ∧
    (s.takeRamEnd p derived).dru.doors = s.dru.doors ∧ (s.takeRamEnd p derived).dru.vals = s.dru.vals ∧
    (s.takeRamEnd p derived).ofu.sections = s.ofu.sections ∧ (s.takeRamEnd p derived).ofu.gates = s.ofu.gates ∧
    (s.takeRamEnd p derived).ofu.valves = s.ofu.valves ∧ (s.takeRamEnd p derived).ofu.heldOffers = s.ofu.heldOffers ∧
    (s.takeRamEnd p derived).ofu.iso = s.ofu.iso ∧ (s.takeRamEnd p derived).ofu.charges = s.ofu.charges ∧
    (s.takeRamEnd p derived).qnu.blocked = s.qnu.blocked ∧ (s.takeRamEnd p derived).qnu.phase = s.qnu.phase ∧
    (s.takeRamEnd p derived).qnu.bays = s.qnu.bays ∧ (s.takeRamEnd p derived).qnu.free = s.qnu.free ∧
    (s.takeRamEnd p derived).qnu.discharge = s.qnu.discharge ∧ (s.takeRamEnd p derived).qnu.vals = s.qnu.vals ∧
    (s.takeRamEnd p derived).trm = s.trm ∧ (s.takeRamEnd p derived).lnk.sup.port = s.lnk.sup.port ∧
    (s.takeRamEnd p derived).lnk.sup.answers = s.lnk.sup.answers ∧
    (s.takeRamEnd p derived).lnk.sup.sending = s.lnk.sup.sending ∧
    (s.takeRamEnd p derived).lnk.sup.line = s.lnk.sup.line ∧
    (∀ j, (((s.takeRamEnd p derived)).lnk.mach.get j).port = (s.lnk.mach.get j).port) ∧
    (∀ j, (((s.takeRamEnd p derived)).lnk.mach.get j).test = (s.lnk.mach.get j).test) ∧
    (s.takeRamEnd p derived).cfg = s.cfg ∧ (s.takeRamEnd p derived).pending = s.pending := by
  unfold takeRamEnd
  try dsimp only
  (repeat' split) <;> simp

@[simp] theorem enterClosing_frame (s : State) (p : PushRec) (derived : Bool) :
    (s.enterClosing p derived).tb = s.tb ∧ (s.enterClosing p derived).ot = s.ot ∧
    (s.enterClosing p derived).pln = s.pln ∧ (s.enterClosing p derived).ilk.machines = s.ilk.machines ∧
    (s.enterClosing p derived).ilk.stop = s.ilk.stop ∧ (s.enterClosing p derived).ilk.holdCause = s.ilk.holdCause ∧
    (s.enterClosing p derived).ilk.lastRam = s.ilk.lastRam ∧ (s.enterClosing p derived).dru.doors = s.dru.doors ∧
    (s.enterClosing p derived).dru.vals = s.dru.vals ∧ (s.enterClosing p derived).ofu.sections = s.ofu.sections ∧
    (s.enterClosing p derived).ofu.gates = s.ofu.gates ∧ (s.enterClosing p derived).ofu.valves = s.ofu.valves ∧
    (s.enterClosing p derived).ofu.heldOffers = s.ofu.heldOffers ∧ (s.enterClosing p derived).ofu.iso = s.ofu.iso ∧
    (s.enterClosing p derived).ofu.charges = s.ofu.charges ∧ (s.enterClosing p derived).qnu = s.qnu ∧
    (s.enterClosing p derived).trm = s.trm ∧ (s.enterClosing p derived).lnk.sup.port = s.lnk.sup.port ∧
    (s.enterClosing p derived).lnk.sup.answers = s.lnk.sup.answers ∧
    (s.enterClosing p derived).lnk.sup.sending = s.lnk.sup.sending ∧
    (s.enterClosing p derived).lnk.sup.line = s.lnk.sup.line ∧
    (∀ j, (((s.enterClosing p derived)).lnk.mach.get j).port = (s.lnk.mach.get j).port) ∧
    (∀ j, (((s.enterClosing p derived)).lnk.mach.get j).test = (s.lnk.mach.get j).test) ∧
    (s.enterClosing p derived).cfg = s.cfg ∧ (s.enterClosing p derived).pending = s.pending := by
  unfold enterClosing
  try dsimp only
  (repeat' split) <;> simp

@[simp] theorem pushLoses_frame (s : State) (m : MachineId) :
    (s.pushLoses m).tb = s.tb ∧ (s.pushLoses m).ot = s.ot ∧ (s.pushLoses m).pln = s.pln ∧
    (s.pushLoses m).ilk.machines = s.ilk.machines ∧ (s.pushLoses m).ilk.permits = s.ilk.permits ∧
    (s.pushLoses m).ilk.stop = s.ilk.stop ∧ (s.pushLoses m).ilk.holdCause = s.ilk.holdCause ∧
    (s.pushLoses m).ilk.lastRam = s.ilk.lastRam ∧ (s.pushLoses m).dru = s.dru ∧ (s.pushLoses m).ofu = s.ofu ∧
    (s.pushLoses m).qnu = s.qnu ∧ (s.pushLoses m).trm = s.trm ∧ (s.pushLoses m).lnk.sup.port = s.lnk.sup.port ∧
    (s.pushLoses m).lnk.sup.answers = s.lnk.sup.answers ∧ (s.pushLoses m).lnk.sup.sending = s.lnk.sup.sending ∧
    (s.pushLoses m).lnk.sup.line = s.lnk.sup.line ∧
    (∀ j, (((s.pushLoses m)).lnk.mach.get j).port = (s.lnk.mach.get j).port) ∧
    (∀ j, (((s.pushLoses m)).lnk.mach.get j).test = (s.lnk.mach.get j).test) ∧ (s.pushLoses m).cfg = s.cfg ∧
    (s.pushLoses m).pending = s.pending := by
  unfold pushLoses
  try dsimp only
  (repeat' split) <;> simp

@[simp] theorem rederiveStage_frame (s : State) (p : PushRec) :
    (s.rederiveStage p).tb = s.tb ∧ (s.rederiveStage p).ot = s.ot ∧ (s.rederiveStage p).pln = s.pln ∧
    (s.rederiveStage p).ilk.machines = s.ilk.machines ∧ (s.rederiveStage p).ilk.stop = s.ilk.stop ∧
    (s.rederiveStage p).ilk.holdCause = s.ilk.holdCause ∧ (s.rederiveStage p).ilk.lastRam = s.ilk.lastRam ∧
    (s.rederiveStage p).dru.doors = s.dru.doors ∧ (s.rederiveStage p).dru.vals = s.dru.vals ∧
    (s.rederiveStage p).ofu.sections = s.ofu.sections ∧ (s.rederiveStage p).ofu.gates = s.ofu.gates ∧
    (s.rederiveStage p).ofu.valves = s.ofu.valves ∧ (s.rederiveStage p).ofu.heldOffers = s.ofu.heldOffers ∧
    (s.rederiveStage p).ofu.iso = s.ofu.iso ∧ (s.rederiveStage p).ofu.charges = s.ofu.charges ∧
    (s.rederiveStage p).qnu.blocked = s.qnu.blocked ∧ (s.rederiveStage p).qnu.phase = s.qnu.phase ∧
    (s.rederiveStage p).qnu.bays = s.qnu.bays ∧ (s.rederiveStage p).qnu.free = s.qnu.free ∧
    (s.rederiveStage p).qnu.discharge = s.qnu.discharge ∧ (s.rederiveStage p).qnu.vals = s.qnu.vals ∧
    (s.rederiveStage p).trm = s.trm ∧ (s.rederiveStage p).lnk.sup.port = s.lnk.sup.port ∧
    (s.rederiveStage p).lnk.sup.answers = s.lnk.sup.answers ∧
    (s.rederiveStage p).lnk.sup.sending = s.lnk.sup.sending ∧ (s.rederiveStage p).lnk.sup.line = s.lnk.sup.line ∧
    (∀ j, (((s.rederiveStage p)).lnk.mach.get j).port = (s.lnk.mach.get j).port) ∧
    (∀ j, (((s.rederiveStage p)).lnk.mach.get j).test = (s.lnk.mach.get j).test) ∧ (s.rederiveStage p).cfg = s.cfg ∧
    (s.rederiveStage p).pending = s.pending := by
  unfold rederiveStage
  try dsimp only
  (repeat' split) <;> simp

@[simp] theorem rederive_frame (s : State) (p : PushRec) :
    (s.rederive p).tb = s.tb ∧ (s.rederive p).ilk.machines = s.ilk.machines ∧ (s.rederive p).ilk.stop = s.ilk.stop ∧
    (s.rederive p).ilk.holdCause = s.ilk.holdCause ∧ (s.rederive p).ilk.lastRam = s.ilk.lastRam ∧
    (s.rederive p).dru.doors = s.dru.doors ∧ (s.rederive p).dru.vals = s.dru.vals ∧
    (s.rederive p).ofu.sections = s.ofu.sections ∧ (s.rederive p).ofu.gates = s.ofu.gates ∧
    (s.rederive p).ofu.valves = s.ofu.valves ∧ (s.rederive p).ofu.charges = s.ofu.charges ∧
    (s.rederive p).qnu.blocked = s.qnu.blocked ∧ (s.rederive p).qnu.phase = s.qnu.phase ∧
    (s.rederive p).qnu.bays = s.qnu.bays ∧ (s.rederive p).qnu.free = s.qnu.free ∧
    (s.rederive p).qnu.discharge = s.qnu.discharge ∧ (s.rederive p).qnu.vals = s.qnu.vals ∧
    (s.rederive p).trm = s.trm ∧ (s.rederive p).lnk.sup.port = s.lnk.sup.port ∧
    (s.rederive p).lnk.sup.answers = s.lnk.sup.answers ∧ (s.rederive p).lnk.sup.sending = s.lnk.sup.sending ∧
    (s.rederive p).lnk.sup.line = s.lnk.sup.line ∧
    (∀ j, (((s.rederive p)).lnk.mach.get j).port = (s.lnk.mach.get j).port) ∧
    (∀ j, (((s.rederive p)).lnk.mach.get j).test = (s.lnk.mach.get j).test) ∧ (s.rederive p).cfg = s.cfg ∧
    (s.rederive p).pending = s.pending := by
  unfold rederive
  try dsimp only
  (repeat' split) <;> simp

@[simp] theorem pushRegains_frame (s : State) (m : MachineId) (became : Bool) :
    (s.pushRegains m became).tb = s.tb ∧ (s.pushRegains m became).ilk.machines = s.ilk.machines ∧
    (s.pushRegains m became).ilk.stop = s.ilk.stop ∧ (s.pushRegains m became).ilk.holdCause = s.ilk.holdCause ∧
    (s.pushRegains m became).ilk.lastRam = s.ilk.lastRam ∧ (s.pushRegains m became).dru.doors = s.dru.doors ∧
    (s.pushRegains m became).dru.vals = s.dru.vals ∧ (s.pushRegains m became).ofu.sections = s.ofu.sections ∧
    (s.pushRegains m became).ofu.gates = s.ofu.gates ∧ (s.pushRegains m became).ofu.valves = s.ofu.valves ∧
    (s.pushRegains m became).ofu.charges = s.ofu.charges ∧ (s.pushRegains m became).qnu.blocked = s.qnu.blocked ∧
    (s.pushRegains m became).qnu.phase = s.qnu.phase ∧ (s.pushRegains m became).qnu.bays = s.qnu.bays ∧
    (s.pushRegains m became).qnu.free = s.qnu.free ∧ (s.pushRegains m became).qnu.discharge = s.qnu.discharge ∧
    (s.pushRegains m became).qnu.vals = s.qnu.vals ∧ (s.pushRegains m became).trm = s.trm ∧
    (s.pushRegains m became).lnk.sup.port = s.lnk.sup.port ∧
    (s.pushRegains m became).lnk.sup.answers = s.lnk.sup.answers ∧
    (s.pushRegains m became).lnk.sup.sending = s.lnk.sup.sending ∧
    (s.pushRegains m became).lnk.sup.line = s.lnk.sup.line ∧
    (∀ j, (((s.pushRegains m became)).lnk.mach.get j).port = (s.lnk.mach.get j).port) ∧
    (∀ j, (((s.pushRegains m became)).lnk.mach.get j).test = (s.lnk.mach.get j).test) ∧
    (s.pushRegains m became).cfg = s.cfg ∧ (s.pushRegains m became).pending = s.pending := by
  unfold pushRegains
  try dsimp only
  (repeat' split) <;> simp

@[simp] theorem sendClears_frame (s : State) (c : HoldCause) :
    (s.sendClears c).tb = s.tb ∧ (s.sendClears c).ot = s.ot ∧ (s.sendClears c).pln = s.pln ∧
    (s.sendClears c).ilk = s.ilk ∧ (s.sendClears c).dru = s.dru ∧ (s.sendClears c).ofu = s.ofu ∧
    (s.sendClears c).qnu = s.qnu ∧ (s.sendClears c).trm = s.trm ∧ (s.sendClears c).lnk.sup.port = s.lnk.sup.port ∧
    (s.sendClears c).lnk.sup.answers = s.lnk.sup.answers ∧ (s.sendClears c).lnk.sup.sending = s.lnk.sup.sending ∧
    (s.sendClears c).lnk.sup.line = s.lnk.sup.line ∧
    (∀ j, (((s.sendClears c)).lnk.mach.get j).port = (s.lnk.mach.get j).port) ∧
    (∀ j, (((s.sendClears c)).lnk.mach.get j).test = (s.lnk.mach.get j).test) ∧ (s.sendClears c).cfg = s.cfg ∧
    (s.sendClears c).pending = s.pending := by
  unfold sendClears
  try dsimp only
  (repeat' split) <;> simp

@[simp] theorem workAfterHold_frame (s : State) :
    s.workAfterHold.tb = s.tb ∧ s.workAfterHold.ot = s.ot ∧ s.workAfterHold.pln = s.pln ∧
    s.workAfterHold.ilk = s.ilk ∧ s.workAfterHold.dru.doors = s.dru.doors ∧ s.workAfterHold.dru.vals = s.dru.vals ∧
    s.workAfterHold.ofu.sections = s.ofu.sections ∧ s.workAfterHold.ofu.gates = s.ofu.gates ∧
    s.workAfterHold.ofu.valves = s.ofu.valves ∧ s.workAfterHold.ofu.heldOffers = s.ofu.heldOffers ∧
    s.workAfterHold.ofu.iso = s.ofu.iso ∧ s.workAfterHold.ofu.charges = s.ofu.charges ∧
    s.workAfterHold.qnu.blocked = s.qnu.blocked ∧ s.workAfterHold.qnu.load = s.qnu.load ∧
    s.workAfterHold.qnu.phase = s.qnu.phase ∧ s.workAfterHold.qnu.bays = s.qnu.bays ∧
    s.workAfterHold.qnu.free = s.qnu.free ∧ s.workAfterHold.qnu.discharge = s.qnu.discharge ∧
    s.workAfterHold.qnu.vals = s.qnu.vals ∧ s.workAfterHold.trm = s.trm ∧
    s.workAfterHold.lnk.sup.port = s.lnk.sup.port ∧ s.workAfterHold.lnk.sup.answers = s.lnk.sup.answers ∧
    s.workAfterHold.lnk.sup.sending = s.lnk.sup.sending ∧ s.workAfterHold.lnk.sup.line = s.lnk.sup.line ∧
    (∀ j, ((s.workAfterHold).lnk.mach.get j).port = (s.lnk.mach.get j).port) ∧
    (∀ j, ((s.workAfterHold).lnk.mach.get j).test = (s.lnk.mach.get j).test) ∧ s.workAfterHold.cfg = s.cfg ∧
    s.workAfterHold.pending = s.pending := by
  unfold workAfterHold
  try dsimp only
  (repeat' split) <;> simp

@[simp] theorem holdEnds_frame (s : State) (c : HoldCause) :
    (s.holdEnds c).tb = s.tb ∧ (s.holdEnds c).ot = s.ot ∧ (s.holdEnds c).pln = s.pln ∧ (s.holdEnds c).ilk = s.ilk ∧
    (s.holdEnds c).dru.doors = s.dru.doors ∧ (s.holdEnds c).dru.vals = s.dru.vals ∧
    (s.holdEnds c).ofu.sections = s.ofu.sections ∧ (s.holdEnds c).ofu.gates = s.ofu.gates ∧
    (s.holdEnds c).ofu.valves = s.ofu.valves ∧ (s.holdEnds c).ofu.heldOffers = s.ofu.heldOffers ∧
    (s.holdEnds c).ofu.iso = s.ofu.iso ∧ (s.holdEnds c).ofu.charges = s.ofu.charges ∧
    (s.holdEnds c).qnu.blocked = s.qnu.blocked ∧ (s.holdEnds c).qnu.load = s.qnu.load ∧
    (s.holdEnds c).qnu.phase = s.qnu.phase ∧ (s.holdEnds c).qnu.bays = s.qnu.bays ∧
    (s.holdEnds c).qnu.free = s.qnu.free ∧ (s.holdEnds c).qnu.discharge = s.qnu.discharge ∧
    (s.holdEnds c).qnu.vals = s.qnu.vals ∧ (s.holdEnds c).trm = s.trm ∧ (s.holdEnds c).lnk.sup.port = s.lnk.sup.port ∧
    (s.holdEnds c).lnk.sup.answers = s.lnk.sup.answers ∧ (s.holdEnds c).lnk.sup.sending = s.lnk.sup.sending ∧
    (s.holdEnds c).lnk.sup.line = s.lnk.sup.line ∧
    (∀ j, (((s.holdEnds c)).lnk.mach.get j).port = (s.lnk.mach.get j).port) ∧
    (∀ j, (((s.holdEnds c)).lnk.mach.get j).test = (s.lnk.mach.get j).test) ∧ (s.holdEnds c).cfg = s.cfg ∧
    (s.holdEnds c).pending = s.pending := by
  unfold holdEnds
  try dsimp only
  (repeat' split) <;> simp

@[simp] theorem holdStarts_frame (s : State) (c : HoldCause) :
    (s.holdStarts c).tb = s.tb ∧ (s.holdStarts c).ot = s.ot ∧ (s.holdStarts c).pln = s.pln ∧
    (s.holdStarts c).ilk.machines = s.ilk.machines ∧ (s.holdStarts c).ilk.permits = s.ilk.permits ∧
    (s.holdStarts c).ilk.stop = s.ilk.stop ∧ (s.holdStarts c).ilk.lastRam = s.ilk.lastRam ∧
    (s.holdStarts c).ilk.push = s.ilk.push ∧ (s.holdStarts c).dru = s.dru ∧ (s.holdStarts c).ofu = s.ofu ∧
    (s.holdStarts c).qnu.blocked = s.qnu.blocked ∧ (s.holdStarts c).qnu.load = s.qnu.load ∧
    (s.holdStarts c).qnu.phase = s.qnu.phase ∧ (s.holdStarts c).qnu.bays = s.qnu.bays ∧
    (s.holdStarts c).qnu.free = s.qnu.free ∧ (s.holdStarts c).qnu.discharge = s.qnu.discharge ∧
    (s.holdStarts c).qnu.vals = s.qnu.vals ∧ (s.holdStarts c).trm = s.trm ∧
    (s.holdStarts c).lnk.sup.port = s.lnk.sup.port ∧ (s.holdStarts c).lnk.sup.answers = s.lnk.sup.answers ∧
    (s.holdStarts c).lnk.sup.sending = s.lnk.sup.sending ∧ (s.holdStarts c).lnk.sup.line = s.lnk.sup.line ∧
    (∀ j, (((s.holdStarts c)).lnk.mach.get j).port = (s.lnk.mach.get j).port) ∧
    (∀ j, (((s.holdStarts c)).lnk.mach.get j).test = (s.lnk.mach.get j).test) ∧ (s.holdStarts c).cfg = s.cfg ∧
    (s.holdStarts c).pending = s.pending := by
  unfold holdStarts
  try dsimp only
  (repeat' split) <;> simp

@[simp] theorem stopSets_frame (s : State) :
    s.stopSets.tb = s.tb ∧ s.stopSets.ot = s.ot ∧ s.stopSets.pln = s.pln ∧ s.stopSets.ilk.machines = s.ilk.machines ∧
    s.stopSets.ilk.lastRam = s.ilk.lastRam ∧ s.stopSets.dru.doors = s.dru.doors ∧ s.stopSets.dru.vals = s.dru.vals ∧
    s.stopSets.ofu.sections = s.ofu.sections ∧ s.stopSets.ofu.gates = s.ofu.gates ∧
    s.stopSets.ofu.valves = s.ofu.valves ∧ s.stopSets.ofu.heldOffers = s.ofu.heldOffers ∧
    s.stopSets.ofu.iso = s.ofu.iso ∧ s.stopSets.ofu.charges = s.ofu.charges ∧ s.stopSets.qnu.blocked = s.qnu.blocked ∧
    s.stopSets.qnu.load = s.qnu.load ∧ s.stopSets.qnu.phase = s.qnu.phase ∧ s.stopSets.qnu.bays = s.qnu.bays ∧
    s.stopSets.qnu.free = s.qnu.free ∧ s.stopSets.qnu.discharge = s.qnu.discharge ∧ s.stopSets.qnu.vals = s.qnu.vals ∧
    s.stopSets.trm = s.trm ∧ s.stopSets.lnk.sup.port = s.lnk.sup.port ∧
    s.stopSets.lnk.sup.answers = s.lnk.sup.answers ∧ s.stopSets.lnk.sup.sending = s.lnk.sup.sending ∧
    s.stopSets.lnk.sup.line = s.lnk.sup.line ∧ (∀ j, ((s.stopSets).lnk.mach.get j).port = (s.lnk.mach.get j).port) ∧
    (∀ j, ((s.stopSets).lnk.mach.get j).test = (s.lnk.mach.get j).test) ∧ s.stopSets.cfg = s.cfg ∧
    s.stopSets.pending = s.pending := by
  unfold stopSets
  try dsimp only
  (repeat' split) <;> simp

@[simp] theorem stopClears_frame (s : State) :
    s.stopClears.tb = s.tb ∧ s.stopClears.pln = s.pln ∧ s.stopClears.ilk.machines = s.ilk.machines ∧
    s.stopClears.ilk.holdCause = s.ilk.holdCause ∧ s.stopClears.ilk.lastRam = s.ilk.lastRam ∧
    s.stopClears.dru.doors = s.dru.doors ∧ s.stopClears.dru.vals = s.dru.vals ∧
    s.stopClears.ofu.sections = s.ofu.sections ∧ s.stopClears.ofu.gates = s.ofu.gates ∧
    s.stopClears.ofu.valves = s.ofu.valves ∧ s.stopClears.ofu.heldOffers = s.ofu.heldOffers ∧
    s.stopClears.ofu.iso = s.ofu.iso ∧ s.stopClears.ofu.charges = s.ofu.charges ∧
    s.stopClears.qnu.blocked = s.qnu.blocked ∧ s.stopClears.qnu.load = s.qnu.load ∧
    s.stopClears.qnu.phase = s.qnu.phase ∧ s.stopClears.qnu.bays = s.qnu.bays ∧ s.stopClears.qnu.free = s.qnu.free ∧
    s.stopClears.qnu.discharge = s.qnu.discharge ∧ s.stopClears.qnu.vals = s.qnu.vals ∧ s.stopClears.trm = s.trm ∧
    s.stopClears.lnk.sup.port = s.lnk.sup.port ∧ s.stopClears.lnk.sup.answers = s.lnk.sup.answers ∧
    s.stopClears.lnk.sup.sending = s.lnk.sup.sending ∧ s.stopClears.lnk.sup.line = s.lnk.sup.line ∧
    (∀ j, ((s.stopClears).lnk.mach.get j).port = (s.lnk.mach.get j).port) ∧
    (∀ j, ((s.stopClears).lnk.mach.get j).test = (s.lnk.mach.get j).test) ∧ s.stopClears.cfg = s.cfg ∧
    s.stopClears.pending = s.pending := by
  unfold stopClears
  try dsimp only
  (repeat' split) <;> simp

@[simp] theorem stopFollows_frame (s : State) (active : Bool) :
    (s.stopFollows active).tb = s.tb ∧ (s.stopFollows active).pln = s.pln ∧
    (s.stopFollows active).ilk.machines = s.ilk.machines ∧ (s.stopFollows active).ilk.lastRam = s.ilk.lastRam ∧
    (s.stopFollows active).dru.doors = s.dru.doors ∧ (s.stopFollows active).dru.vals = s.dru.vals ∧
    (s.stopFollows active).ofu.sections = s.ofu.sections ∧ (s.stopFollows active).ofu.gates = s.ofu.gates ∧
    (s.stopFollows active).ofu.valves = s.ofu.valves ∧ (s.stopFollows active).ofu.heldOffers = s.ofu.heldOffers ∧
    (s.stopFollows active).ofu.iso = s.ofu.iso ∧ (s.stopFollows active).ofu.charges = s.ofu.charges ∧
    (s.stopFollows active).qnu.blocked = s.qnu.blocked ∧ (s.stopFollows active).qnu.load = s.qnu.load ∧
    (s.stopFollows active).qnu.phase = s.qnu.phase ∧ (s.stopFollows active).qnu.bays = s.qnu.bays ∧
    (s.stopFollows active).qnu.free = s.qnu.free ∧ (s.stopFollows active).qnu.discharge = s.qnu.discharge ∧
    (s.stopFollows active).qnu.vals = s.qnu.vals ∧ (s.stopFollows active).trm = s.trm ∧
    (s.stopFollows active).lnk.sup.port = s.lnk.sup.port ∧
    (s.stopFollows active).lnk.sup.answers = s.lnk.sup.answers ∧
    (s.stopFollows active).lnk.sup.sending = s.lnk.sup.sending ∧
    (s.stopFollows active).lnk.sup.line = s.lnk.sup.line ∧
    (∀ j, (((s.stopFollows active)).lnk.mach.get j).port = (s.lnk.mach.get j).port) ∧
    (∀ j, (((s.stopFollows active)).lnk.mach.get j).test = (s.lnk.mach.get j).test) ∧
    (s.stopFollows active).cfg = s.cfg ∧ (s.stopFollows active).pending = s.pending := by
  unfold stopFollows
  try dsimp only
  (repeat' split) <;> simp

@[simp] theorem breachBegins_frame (s : State) (n : Nat) :
    (s.breachBegins n).tb = s.tb ∧ (s.breachBegins n).pln = s.pln ∧ (s.breachBegins n).ilk.machines = s.ilk.machines ∧
    (s.breachBegins n).ilk.stop = s.ilk.stop ∧ (s.breachBegins n).ilk.holdCause = s.ilk.holdCause ∧
    (s.breachBegins n).ilk.lastRam = s.ilk.lastRam ∧ (s.breachBegins n).dru.doors = s.dru.doors ∧
    (s.breachBegins n).dru.vals = s.dru.vals ∧ (s.breachBegins n).ofu.sections = s.ofu.sections ∧
    (s.breachBegins n).ofu.gates = s.ofu.gates ∧ (s.breachBegins n).ofu.valves = s.ofu.valves ∧
    (s.breachBegins n).ofu.heldOffers = s.ofu.heldOffers ∧ (s.breachBegins n).ofu.iso = s.ofu.iso ∧
    (s.breachBegins n).ofu.charges = s.ofu.charges ∧ (s.breachBegins n).qnu = s.qnu ∧ (s.breachBegins n).trm = s.trm ∧
    (s.breachBegins n).lnk.sup.port = s.lnk.sup.port ∧ (s.breachBegins n).lnk.sup.answers = s.lnk.sup.answers ∧
    (s.breachBegins n).lnk.sup.sending = s.lnk.sup.sending ∧ (s.breachBegins n).lnk.sup.line = s.lnk.sup.line ∧
    (∀ j, (((s.breachBegins n)).lnk.mach.get j).port = (s.lnk.mach.get j).port) ∧
    (∀ j, (((s.breachBegins n)).lnk.mach.get j).test = (s.lnk.mach.get j).test) ∧ (s.breachBegins n).cfg = s.cfg ∧
    (s.breachBegins n).pending = s.pending := by
  unfold breachBegins
  try dsimp only
  (repeat' split) <;> simp

@[simp] theorem breachEnds_frame (s : State) (n : Nat) (m : MachineId) (rep : ReportName) (held : Option Permit) :
    (s.breachEnds n m rep held).tb = s.tb ∧ (s.breachEnds n m rep held).ot = s.ot ∧
    (s.breachEnds n m rep held).ilk.machines = s.ilk.machines ∧ (s.breachEnds n m rep held).ilk.stop = s.ilk.stop ∧
    (s.breachEnds n m rep held).ilk.lastRam = s.ilk.lastRam ∧ (s.breachEnds n m rep held).dru.doors = s.dru.doors ∧
    (s.breachEnds n m rep held).dru.vals = s.dru.vals ∧ (s.breachEnds n m rep held).ofu.sections = s.ofu.sections ∧
    (s.breachEnds n m rep held).ofu.gates = s.ofu.gates ∧ (s.breachEnds n m rep held).ofu.valves = s.ofu.valves ∧
    (s.breachEnds n m rep held).ofu.charges = s.ofu.charges ∧
    (s.breachEnds n m rep held).qnu.blocked = s.qnu.blocked ∧ (s.breachEnds n m rep held).qnu.load = s.qnu.load ∧
    (s.breachEnds n m rep held).qnu.phase = s.qnu.phase ∧ (s.breachEnds n m rep held).qnu.bays = s.qnu.bays ∧
    (s.breachEnds n m rep held).qnu.free = s.qnu.free ∧ (s.breachEnds n m rep held).qnu.discharge = s.qnu.discharge ∧
    (s.breachEnds n m rep held).qnu.vals = s.qnu.vals ∧ (s.breachEnds n m rep held).trm = s.trm ∧
    (s.breachEnds n m rep held).lnk.sup.port = s.lnk.sup.port ∧
    (s.breachEnds n m rep held).lnk.sup.answers = s.lnk.sup.answers ∧
    (s.breachEnds n m rep held).lnk.sup.sending = s.lnk.sup.sending ∧
    (s.breachEnds n m rep held).lnk.sup.line = s.lnk.sup.line ∧
    (∀ j, (((s.breachEnds n m rep held)).lnk.mach.get j).port = (s.lnk.mach.get j).port) ∧
    (∀ j, (((s.breachEnds n m rep held)).lnk.mach.get j).test = (s.lnk.mach.get j).test) ∧
    (s.breachEnds n m rep held).cfg = s.cfg ∧ (s.breachEnds n m rep held).pending = s.pending := by
  unfold breachEnds
  try dsimp only
  (repeat' split) <;> simp

@[simp] theorem writeRam_frame (s : State) (r : Ram) :
    (s.writeRam r).tb = s.tb ∧ (s.writeRam r).ot = s.ot ∧ (s.writeRam r).pln = s.pln ∧
    (s.writeRam r).ilk.permits = s.ilk.permits ∧ (s.writeRam r).ilk.stop = s.ilk.stop ∧
    (s.writeRam r).ilk.holdCause = s.ilk.holdCause ∧ (s.writeRam r).ilk.lastRam = s.ilk.lastRam ∧
    (s.writeRam r).ilk.push = s.ilk.push ∧ (s.writeRam r).dru = s.dru ∧ (s.writeRam r).ofu = s.ofu ∧
    (s.writeRam r).qnu = s.qnu ∧ (s.writeRam r).trm = s.trm ∧ (s.writeRam r).lnk = s.lnk ∧
    (s.writeRam r).cfg = s.cfg ∧ (s.writeRam r).pending = s.pending := by
  unfold writeRam
  try dsimp only
  (repeat' split) <;> simp

@[simp] theorem ramStartFact_frame (s : State) (n : Nat) :
    (s.ramStartFact n).tb = s.tb ∧ (s.ramStartFact n).ot = s.ot ∧ (s.ramStartFact n).pln = s.pln ∧
    (s.ramStartFact n).ilk.permits = s.ilk.permits ∧ (s.ramStartFact n).ilk.stop = s.ilk.stop ∧
    (s.ramStartFact n).ilk.holdCause = s.ilk.holdCause ∧ (s.ramStartFact n).ilk.push = s.ilk.push ∧
    (s.ramStartFact n).dru = s.dru ∧ (s.ramStartFact n).ofu = s.ofu ∧ (s.ramStartFact n).qnu = s.qnu ∧
    (s.ramStartFact n).trm = s.trm ∧ (s.ramStartFact n).lnk = s.lnk ∧ (s.ramStartFact n).cfg = s.cfg ∧
    (s.ramStartFact n).pending = s.pending := by
  unfold ramStartFact
  try dsimp only
  (repeat' split) <;> simp

end State

end Sys2Proof.Machine
end

