-- ==== Sys2Proof/Laws/FramesC.lean ====
section
/-! SUPPORT. Frames: what the pressure loops, terminals, link ports, expiries, reports, setup blocks and commands leave unchanged. One lemma per operation, a
conjunction that simp reads as one rewrite rule per field. -/

set_option linter.all false

namespace Sys2Proof.Machine

open Sys2Proof

namespace State

@[simp] theorem updGate_frame (s : State) (k : Nat) (f : Gate → Gate) :
    (s.updGate k f).tb = s.tb ∧ (s.updGate k f).ot = s.ot ∧ (s.updGate k f).pln = s.pln ∧
    (s.updGate k f).ilk = s.ilk ∧ (s.updGate k f).dru = s.dru ∧ (s.updGate k f).ofu.sections = s.ofu.sections ∧
    (s.updGate k f).ofu.valves = s.ofu.valves ∧ (s.updGate k f).ofu.queue = s.ofu.queue ∧
    (s.updGate k f).ofu.heldOffers = s.ofu.heldOffers ∧ (s.updGate k f).ofu.iso = s.ofu.iso ∧
    (s.updGate k f).ofu.charges = s.ofu.charges ∧ (s.updGate k f).qnu = s.qnu ∧ (s.updGate k f).trm = s.trm ∧
    (s.updGate k f).lnk = s.lnk ∧ (s.updGate k f).cfg = s.cfg ∧ (s.updGate k f).pending = s.pending := by
  unfold updGate
  try dsimp only
  (repeat' split) <;> simp

@[simp] theorem endGate_frame (s : State) (k : Nat) :
    (s.endGate k).tb = s.tb ∧ (s.endGate k).ot = s.ot ∧ (s.endGate k).pln = s.pln ∧ (s.endGate k).ilk = s.ilk ∧
    (s.endGate k).dru = s.dru ∧ (s.endGate k).ofu.sections = s.ofu.sections ∧
    (s.endGate k).ofu.valves = s.ofu.valves ∧ (s.endGate k).ofu.queue = s.ofu.queue ∧
    (s.endGate k).ofu.heldOffers = s.ofu.heldOffers ∧ (s.endGate k).ofu.iso = s.ofu.iso ∧
    (s.endGate k).ofu.charges = s.ofu.charges ∧ (s.endGate k).qnu = s.qnu ∧ (s.endGate k).trm = s.trm ∧
    (s.endGate k).lnk = s.lnk ∧ (s.endGate k).cfg = s.cfg ∧ (s.endGate k).pending = s.pending := by
  unfold endGate
  try dsimp only
  (repeat' split) <;> simp

@[simp] theorem faultReading_frame (s : State) (k n : Nat) :
    (s.faultReading k n).tb = s.tb ∧ (s.faultReading k n).ot = s.ot ∧ (s.faultReading k n).pln = s.pln ∧
    (s.faultReading k n).ilk = s.ilk ∧ (s.faultReading k n).dru = s.dru ∧
    (s.faultReading k n).ofu.gates = s.ofu.gates ∧ (s.faultReading k n).ofu.valves = s.ofu.valves ∧
    (s.faultReading k n).ofu.queue = s.ofu.queue ∧ (s.faultReading k n).ofu.heldOffers = s.ofu.heldOffers ∧
    (s.faultReading k n).ofu.iso = s.ofu.iso ∧ (s.faultReading k n).ofu.charges = s.ofu.charges ∧
    (s.faultReading k n).qnu = s.qnu ∧ (s.faultReading k n).trm = s.trm ∧
    (s.faultReading k n).lnk.sup.port = s.lnk.sup.port ∧ (s.faultReading k n).lnk.sup.answers = s.lnk.sup.answers ∧
    (s.faultReading k n).lnk.sup.sending = s.lnk.sup.sending ∧ (s.faultReading k n).lnk.sup.line = s.lnk.sup.line ∧
    (s.faultReading k n).lnk.mach = s.lnk.mach ∧ (s.faultReading k n).cfg = s.cfg ∧
    (s.faultReading k n).pending = s.pending := by
  unfold faultReading
  try dsimp only
  (repeat' split) <;> simp

@[simp] theorem goodReading_frame (s : State) (k : Nat) (p : Int) :
    (s.goodReading k p).tb = s.tb ∧ (s.goodReading k p).ot = s.ot ∧ (s.goodReading k p).pln = s.pln ∧
    (s.goodReading k p).ilk = s.ilk ∧ (s.goodReading k p).dru = s.dru ∧ (s.goodReading k p).ofu.gates = s.ofu.gates ∧
    (s.goodReading k p).ofu.valves = s.ofu.valves ∧ (s.goodReading k p).ofu.queue = s.ofu.queue ∧
    (s.goodReading k p).ofu.heldOffers = s.ofu.heldOffers ∧ (s.goodReading k p).ofu.iso = s.ofu.iso ∧
    (s.goodReading k p).ofu.charges = s.ofu.charges ∧ (s.goodReading k p).qnu = s.qnu ∧
    (s.goodReading k p).trm = s.trm ∧ (s.goodReading k p).lnk = s.lnk ∧ (s.goodReading k p).cfg = s.cfg ∧
    (s.goodReading k p).pending = s.pending := by
  unfold goodReading
  try dsimp only
  (repeat' split) <;> simp

@[simp] theorem recover_frame (s : State) (k : Nat) (p : Int) :
    (s.recover k p).tb = s.tb ∧ (s.recover k p).ot = s.ot ∧ (s.recover k p).pln = s.pln ∧
    (s.recover k p).ilk = s.ilk ∧ (s.recover k p).dru = s.dru ∧ (s.recover k p).ofu.gates = s.ofu.gates ∧
    (s.recover k p).ofu.valves = s.ofu.valves ∧ (s.recover k p).ofu.queue = s.ofu.queue ∧
    (s.recover k p).ofu.heldOffers = s.ofu.heldOffers ∧ (s.recover k p).ofu.iso = s.ofu.iso ∧
    (s.recover k p).ofu.charges = s.ofu.charges ∧ (s.recover k p).qnu = s.qnu ∧ (s.recover k p).trm = s.trm ∧
    (s.recover k p).lnk.sup.port = s.lnk.sup.port ∧ (s.recover k p).lnk.sup.answers = s.lnk.sup.answers ∧
    (s.recover k p).lnk.sup.sending = s.lnk.sup.sending ∧ (s.recover k p).lnk.sup.line = s.lnk.sup.line ∧
    (s.recover k p).lnk.mach = s.lnk.mach ∧ (s.recover k p).cfg = s.cfg ∧ (s.recover k p).pending = s.pending := by
  unfold recover
  try dsimp only
  (repeat' split) <;> simp

@[simp] theorem chargeUnderPressure_frame (s : State) (k : Nat) (l : AlarmLevel) :
    (s.chargeUnderPressure k l).tb = s.tb ∧ (s.chargeUnderPressure k l).ot = s.ot ∧
    (s.chargeUnderPressure k l).pln = s.pln ∧ (s.chargeUnderPressure k l).ilk = s.ilk ∧
    (s.chargeUnderPressure k l).dru = s.dru ∧ (s.chargeUnderPressure k l).ofu = s.ofu ∧
    (s.chargeUnderPressure k l).qnu = s.qnu ∧ (s.chargeUnderPressure k l).trm = s.trm ∧
    (s.chargeUnderPressure k l).lnk.sup.port = s.lnk.sup.port ∧
    (s.chargeUnderPressure k l).lnk.sup.answers = s.lnk.sup.answers ∧
    (s.chargeUnderPressure k l).lnk.sup.sending = s.lnk.sup.sending ∧
    (s.chargeUnderPressure k l).lnk.sup.line = s.lnk.sup.line ∧ (s.chargeUnderPressure k l).lnk.mach = s.lnk.mach ∧
    (s.chargeUnderPressure k l).cfg = s.cfg ∧ (s.chargeUnderPressure k l).pending = s.pending := by
  unfold chargeUnderPressure
  try dsimp only
  (repeat' split) <;> simp

@[simp] theorem alarmEval_frame (s : State) (k : Nat) (p : Int) :
    (s.alarmEval k p).tb = s.tb ∧ (s.alarmEval k p).ot = s.ot ∧ (s.alarmEval k p).pln = s.pln ∧
    (s.alarmEval k p).ilk.machines = s.ilk.machines ∧ (s.alarmEval k p).ilk.stop = s.ilk.stop ∧
    (s.alarmEval k p).ilk.holdCause = s.ilk.holdCause ∧ (s.alarmEval k p).ilk.lastRam = s.ilk.lastRam ∧
    (s.alarmEval k p).dru.doors = s.dru.doors ∧ (s.alarmEval k p).dru.vals = s.dru.vals ∧
    (s.alarmEval k p).ofu.gates = s.ofu.gates ∧ (s.alarmEval k p).ofu.valves = s.ofu.valves ∧
    (s.alarmEval k p).ofu.heldOffers = s.ofu.heldOffers ∧ (s.alarmEval k p).ofu.iso = s.ofu.iso ∧
    (s.alarmEval k p).ofu.charges = s.ofu.charges ∧ (s.alarmEval k p).qnu = s.qnu ∧ (s.alarmEval k p).trm = s.trm ∧
    (s.alarmEval k p).lnk.sup.port = s.lnk.sup.port ∧ (s.alarmEval k p).lnk.sup.answers = s.lnk.sup.answers ∧
    (s.alarmEval k p).lnk.sup.sending = s.lnk.sup.sending ∧ (s.alarmEval k p).lnk.sup.line = s.lnk.sup.line ∧
    (∀ j, (((s.alarmEval k p)).lnk.mach.get j).port = (s.lnk.mach.get j).port) ∧
    (∀ j, (((s.alarmEval k p)).lnk.mach.get j).test = (s.lnk.mach.get j).test) ∧ (s.alarmEval k p).cfg = s.cfg ∧
    (s.alarmEval k p).pending = s.pending := by
  unfold alarmEval
  try dsimp only
  (repeat' split) <;> simp

@[simp] theorem sectionStep_frame (s : State) (k : Nat) (back : Bool) (rd : Reading) :
    (s.sectionStep k back rd).tb = s.tb ∧ (s.sectionStep k back rd).ot = s.ot ∧
    (s.sectionStep k back rd).pln = s.pln ∧ (s.sectionStep k back rd).ilk = s.ilk ∧
    (s.sectionStep k back rd).dru = s.dru ∧ (s.sectionStep k back rd).ofu.gates = s.ofu.gates ∧
    (s.sectionStep k back rd).ofu.valves = s.ofu.valves ∧ (s.sectionStep k back rd).ofu.queue = s.ofu.queue ∧
    (s.sectionStep k back rd).ofu.heldOffers = s.ofu.heldOffers ∧ (s.sectionStep k back rd).ofu.iso = s.ofu.iso ∧
    (s.sectionStep k back rd).ofu.charges = s.ofu.charges ∧ (s.sectionStep k back rd).qnu = s.qnu ∧
    (s.sectionStep k back rd).trm = s.trm ∧ (s.sectionStep k back rd).lnk = s.lnk ∧
    (s.sectionStep k back rd).cfg = s.cfg ∧ (s.sectionStep k back rd).pending = s.pending := by
  unfold sectionStep
  try dsimp only
  (repeat' split) <;> simp

@[simp] theorem endSection_frame (s : State) (k : Nat) :
    (s.endSection k).tb = s.tb ∧ (s.endSection k).ot = s.ot ∧ (s.endSection k).pln = s.pln ∧
    (s.endSection k).ilk.machines = s.ilk.machines ∧ (s.endSection k).ilk.stop = s.ilk.stop ∧
    (s.endSection k).ilk.holdCause = s.ilk.holdCause ∧ (s.endSection k).ilk.lastRam = s.ilk.lastRam ∧
    (s.endSection k).dru.doors = s.dru.doors ∧ (s.endSection k).dru.vals = s.dru.vals ∧
    (s.endSection k).ofu.valves = s.ofu.valves ∧ (s.endSection k).ofu.heldOffers = s.ofu.heldOffers ∧
    (s.endSection k).ofu.iso = s.ofu.iso ∧ (s.endSection k).ofu.charges = s.ofu.charges ∧
    (s.endSection k).qnu = s.qnu ∧ (s.endSection k).trm = s.trm ∧ (s.endSection k).lnk.sup.port = s.lnk.sup.port ∧
    (s.endSection k).lnk.sup.answers = s.lnk.sup.answers ∧ (s.endSection k).lnk.sup.sending = s.lnk.sup.sending ∧
    (s.endSection k).lnk.sup.line = s.lnk.sup.line ∧
    (∀ j, (((s.endSection k)).lnk.mach.get j).port = (s.lnk.mach.get j).port) ∧
    (∀ j, (((s.endSection k)).lnk.mach.get j).test = (s.lnk.mach.get j).test) ∧ (s.endSection k).cfg = s.cfg ∧
    (s.endSection k).pending = s.pending := by
  unfold endSection
  try dsimp only
  (repeat' split) <;> simp

@[simp] theorem endSections_frame  (x0 : List Nat) (s : State) :
    (endSections x0 s).tb = s.tb ∧ (endSections x0 s).ot = s.ot ∧ (endSections x0 s).pln = s.pln ∧
    (endSections x0 s).ilk.machines = s.ilk.machines ∧ (endSections x0 s).ilk.stop = s.ilk.stop ∧
    (endSections x0 s).ilk.holdCause = s.ilk.holdCause ∧ (endSections x0 s).ilk.lastRam = s.ilk.lastRam ∧
    (endSections x0 s).dru.doors = s.dru.doors ∧ (endSections x0 s).dru.vals = s.dru.vals ∧
    (endSections x0 s).ofu.valves = s.ofu.valves ∧ (endSections x0 s).ofu.heldOffers = s.ofu.heldOffers ∧
    (endSections x0 s).ofu.iso = s.ofu.iso ∧ (endSections x0 s).ofu.charges = s.ofu.charges ∧
    (endSections x0 s).qnu = s.qnu ∧ (endSections x0 s).trm = s.trm ∧
    (endSections x0 s).lnk.sup.port = s.lnk.sup.port ∧ (endSections x0 s).lnk.sup.answers = s.lnk.sup.answers ∧
    (endSections x0 s).lnk.sup.sending = s.lnk.sup.sending ∧ (endSections x0 s).lnk.sup.line = s.lnk.sup.line ∧
    (∀ j, (((endSections x0 s)).lnk.mach.get j).port = (s.lnk.mach.get j).port) ∧
    (∀ j, (((endSections x0 s)).lnk.mach.get j).test = (s.lnk.mach.get j).test) ∧ (endSections x0 s).cfg = s.cfg ∧
    (endSections x0 s).pending = s.pending := by
  induction x0 generalizing s with
  | nil => simp [endSections]
  | cons a l ih => rw [endSections]; simp [ih]

@[simp] theorem activateSections_frame (s : State) :
    s.activateSections.tb = s.tb ∧ s.activateSections.ot = s.ot ∧ s.activateSections.pln = s.pln ∧
    s.activateSections.ilk = s.ilk ∧ s.activateSections.dru = s.dru ∧ s.activateSections.ofu.gates = s.ofu.gates ∧
    s.activateSections.ofu.valves = s.ofu.valves ∧ s.activateSections.ofu.queue = s.ofu.queue ∧
    s.activateSections.ofu.heldOffers = s.ofu.heldOffers ∧ s.activateSections.ofu.iso = s.ofu.iso ∧
    s.activateSections.ofu.charges = s.ofu.charges ∧ s.activateSections.qnu = s.qnu ∧ s.activateSections.lnk = s.lnk ∧
    s.activateSections.cfg = s.cfg ∧ s.activateSections.pending = s.pending := by
  unfold activateSections
  try dsimp only
  (repeat' split) <;> simp

@[simp] theorem holdSections_frame (s : State) :
    s.holdSections.tb = s.tb ∧ s.holdSections.ot = s.ot ∧ s.holdSections.pln = s.pln ∧ s.holdSections.ilk = s.ilk ∧
    s.holdSections.dru = s.dru ∧ s.holdSections.ofu.gates = s.ofu.gates ∧ s.holdSections.ofu.valves = s.ofu.valves ∧
    s.holdSections.ofu.queue = s.ofu.queue ∧ s.holdSections.ofu.heldOffers = s.ofu.heldOffers ∧
    s.holdSections.ofu.iso = s.ofu.iso ∧ s.holdSections.ofu.charges = s.ofu.charges ∧ s.holdSections.qnu = s.qnu ∧
    s.holdSections.trm = s.trm ∧ s.holdSections.lnk = s.lnk ∧ s.holdSections.cfg = s.cfg ∧
    s.holdSections.pending = s.pending := by
  unfold holdSections
  try dsimp only
  (repeat' split) <;> simp

@[simp] theorem offerWhere_frame (pick : State → Nat → Bool) (a : ValveAction) (x0 : List Nat) (s : State) :
    (offerWhere pick a x0 s).tb = s.tb ∧ (offerWhere pick a x0 s).ot = s.ot ∧ (offerWhere pick a x0 s).pln = s.pln ∧
    (offerWhere pick a x0 s).ilk = s.ilk ∧ (offerWhere pick a x0 s).dru = s.dru ∧
    (offerWhere pick a x0 s).ofu.sections = s.ofu.sections ∧ (offerWhere pick a x0 s).ofu.gates = s.ofu.gates ∧
    (offerWhere pick a x0 s).ofu.valves = s.ofu.valves ∧ (offerWhere pick a x0 s).ofu.iso = s.ofu.iso ∧
    (offerWhere pick a x0 s).ofu.charges = s.ofu.charges ∧ (offerWhere pick a x0 s).qnu = s.qnu ∧
    (offerWhere pick a x0 s).trm = s.trm ∧ (offerWhere pick a x0 s).lnk.sup.port = s.lnk.sup.port ∧
    (offerWhere pick a x0 s).lnk.sup.answers = s.lnk.sup.answers ∧
    (offerWhere pick a x0 s).lnk.sup.sending = s.lnk.sup.sending ∧
    (offerWhere pick a x0 s).lnk.sup.line = s.lnk.sup.line ∧
    (∀ j, (((offerWhere pick a x0 s)).lnk.mach.get j).port = (s.lnk.mach.get j).port) ∧
    (∀ j, (((offerWhere pick a x0 s)).lnk.mach.get j).test = (s.lnk.mach.get j).test) ∧
    (offerWhere pick a x0 s).cfg = s.cfg ∧ (offerWhere pick a x0 s).pending = s.pending := by
  induction x0 generalizing s with
  | nil => simp [offerWhere]
  | cons a l ih => rw [offerWhere]; split <;> simp [ih]

@[simp] theorem commitValves_frame (s : State) :
    s.commitValves.tb = s.tb ∧ s.commitValves.ot = s.ot ∧ s.commitValves.pln = s.pln ∧ s.commitValves.ilk = s.ilk ∧
    s.commitValves.dru = s.dru ∧ s.commitValves.ofu.sections = s.ofu.sections ∧
    s.commitValves.ofu.gates = s.ofu.gates ∧ s.commitValves.ofu.valves = s.ofu.valves ∧
    s.commitValves.ofu.iso = s.ofu.iso ∧ s.commitValves.ofu.charges = s.ofu.charges ∧ s.commitValves.qnu = s.qnu ∧
    s.commitValves.trm = s.trm ∧ s.commitValves.lnk.sup.port = s.lnk.sup.port ∧
    s.commitValves.lnk.sup.answers = s.lnk.sup.answers ∧ s.commitValves.lnk.sup.sending = s.lnk.sup.sending ∧
    s.commitValves.lnk.sup.line = s.lnk.sup.line ∧
    (∀ j, ((s.commitValves).lnk.mach.get j).port = (s.lnk.mach.get j).port) ∧
    (∀ j, ((s.commitValves).lnk.mach.get j).test = (s.lnk.mach.get j).test) ∧ s.commitValves.cfg = s.cfg ∧
    s.commitValves.pending = s.pending := by
  unfold commitValves
  try dsimp only
  (repeat' split) <;> simp

@[simp] theorem valveRestart_frame (s : State) :
    s.valveRestart.tb = s.tb ∧ s.valveRestart.ot = s.ot ∧ s.valveRestart.pln = s.pln ∧ s.valveRestart.ilk = s.ilk ∧
    s.valveRestart.dru = s.dru ∧ s.valveRestart.ofu.sections = s.ofu.sections ∧
    s.valveRestart.ofu.gates = s.ofu.gates ∧ s.valveRestart.ofu.valves = s.ofu.valves ∧
    s.valveRestart.ofu.charges = s.ofu.charges ∧ s.valveRestart.qnu = s.qnu ∧ s.valveRestart.trm = s.trm ∧
    s.valveRestart.lnk = s.lnk ∧ s.valveRestart.cfg = s.cfg ∧ s.valveRestart.pending = s.pending := by
  unfold valveRestart
  try dsimp only
  (repeat' split) <;> simp

@[simp] theorem conveyorFollows_frame (s : State) (active : Bool) :
    (s.conveyorFollows active).tb = s.tb ∧ (s.conveyorFollows active).ot = s.ot ∧
    (s.conveyorFollows active).pln = s.pln ∧ (s.conveyorFollows active).ilk = s.ilk ∧
    (s.conveyorFollows active).dru = s.dru ∧ (s.conveyorFollows active).ofu = s.ofu ∧
    (s.conveyorFollows active).qnu.car = s.qnu.car ∧ (s.conveyorFollows active).qnu.blocked = s.qnu.blocked ∧
    (s.conveyorFollows active).qnu.load = s.qnu.load ∧ (s.conveyorFollows active).qnu.phase = s.qnu.phase ∧
    (s.conveyorFollows active).qnu.free = s.qnu.free ∧ (s.conveyorFollows active).qnu.discharge = s.qnu.discharge ∧
    (s.conveyorFollows active).qnu.vals = s.qnu.vals ∧ (s.conveyorFollows active).trm = s.trm ∧
    (s.conveyorFollows active).lnk.sup.port = s.lnk.sup.port ∧
    (s.conveyorFollows active).lnk.sup.answers = s.lnk.sup.answers ∧
    (s.conveyorFollows active).lnk.sup.sending = s.lnk.sup.sending ∧
    (s.conveyorFollows active).lnk.sup.line = s.lnk.sup.line ∧ (s.conveyorFollows active).lnk.mach = s.lnk.mach ∧
    (s.conveyorFollows active).cfg = s.cfg ∧ (s.conveyorFollows active).pending = s.pending := by
  unfold conveyorFollows
  try dsimp only
  (repeat' split) <;> simp

@[simp] theorem handLevel_frame (s : State) (fn : TermFn) (t : Nat) (e : Edge) (l : Bool) :
    (s.handLevel fn t e l).tb = s.tb ∧ (s.handLevel fn t e l).pln = s.pln ∧
    (s.handLevel fn t e l).ilk.machines = s.ilk.machines ∧ (s.handLevel fn t e l).ilk.lastRam = s.ilk.lastRam ∧
    (s.handLevel fn t e l).dru.doors = s.dru.doors ∧ (s.handLevel fn t e l).dru.vals = s.dru.vals ∧
    (s.handLevel fn t e l).ofu.sections = s.ofu.sections ∧ (s.handLevel fn t e l).ofu.gates = s.ofu.gates ∧
    (s.handLevel fn t e l).ofu.valves = s.ofu.valves ∧ (s.handLevel fn t e l).ofu.heldOffers = s.ofu.heldOffers ∧
    (s.handLevel fn t e l).ofu.iso = s.ofu.iso ∧ (s.handLevel fn t e l).ofu.charges = s.ofu.charges ∧
    (s.handLevel fn t e l).qnu.blocked = s.qnu.blocked ∧ (s.handLevel fn t e l).qnu.load = s.qnu.load ∧
    (s.handLevel fn t e l).qnu.phase = s.qnu.phase ∧ (s.handLevel fn t e l).qnu.free = s.qnu.free ∧
    (s.handLevel fn t e l).qnu.discharge = s.qnu.discharge ∧ (s.handLevel fn t e l).qnu.vals = s.qnu.vals ∧
    (s.handLevel fn t e l).trm = s.trm ∧ (s.handLevel fn t e l).lnk.sup.port = s.lnk.sup.port ∧
    (s.handLevel fn t e l).lnk.sup.answers = s.lnk.sup.answers ∧
    (s.handLevel fn t e l).lnk.sup.sending = s.lnk.sup.sending ∧
    (s.handLevel fn t e l).lnk.sup.line = s.lnk.sup.line ∧
    (∀ j, (((s.handLevel fn t e l)).lnk.mach.get j).port = (s.lnk.mach.get j).port) ∧
    (∀ j, (((s.handLevel fn t e l)).lnk.mach.get j).test = (s.lnk.mach.get j).test) ∧
    (s.handLevel fn t e l).cfg = s.cfg ∧ (s.handLevel fn t e l).pending = s.pending := by
  unfold handLevel
  try dsimp only
  (repeat' split) <;> simp

@[simp] theorem inputHolds_frame (s : State) (t : Nat) (energised : Bool) :
    (s.inputHolds t energised).tb = s.tb ∧ (s.inputHolds t energised).pln = s.pln ∧
    (s.inputHolds t energised).ilk.machines = s.ilk.machines ∧
    (s.inputHolds t energised).ilk.lastRam = s.ilk.lastRam ∧ (s.inputHolds t energised).dru.doors = s.dru.doors ∧
    (s.inputHolds t energised).dru.vals = s.dru.vals ∧ (s.inputHolds t energised).ofu.sections = s.ofu.sections ∧
    (s.inputHolds t energised).ofu.gates = s.ofu.gates ∧ (s.inputHolds t energised).ofu.valves = s.ofu.valves ∧
    (s.inputHolds t energised).ofu.heldOffers = s.ofu.heldOffers ∧ (s.inputHolds t energised).ofu.iso = s.ofu.iso ∧
    (s.inputHolds t energised).ofu.charges = s.ofu.charges ∧ (s.inputHolds t energised).qnu.blocked = s.qnu.blocked ∧
    (s.inputHolds t energised).qnu.load = s.qnu.load ∧ (s.inputHolds t energised).qnu.phase = s.qnu.phase ∧
    (s.inputHolds t energised).qnu.free = s.qnu.free ∧ (s.inputHolds t energised).qnu.discharge = s.qnu.discharge ∧
    (s.inputHolds t energised).qnu.vals = s.qnu.vals ∧ (s.inputHolds t energised).lnk.sup.port = s.lnk.sup.port ∧
    (s.inputHolds t energised).lnk.sup.answers = s.lnk.sup.answers ∧
    (s.inputHolds t energised).lnk.sup.sending = s.lnk.sup.sending ∧
    (s.inputHolds t energised).lnk.sup.line = s.lnk.sup.line ∧
    (∀ j, (((s.inputHolds t energised)).lnk.mach.get j).port = (s.lnk.mach.get j).port) ∧
    (∀ j, (((s.inputHolds t energised)).lnk.mach.get j).test = (s.lnk.mach.get j).test) ∧
    (s.inputHolds t energised).cfg = s.cfg ∧ (s.inputHolds t energised).pending = s.pending := by
  unfold inputHolds
  try dsimp only
  (repeat' split) <;> simp

@[simp] theorem overload_frame (s : State) (t : Nat) :
    (s.overload t).tb = s.tb ∧ (s.overload t).ot = s.ot ∧ (s.overload t).pln = s.pln ∧ (s.overload t).ilk = s.ilk ∧
    (s.overload t).dru = s.dru ∧ (s.overload t).ofu = s.ofu ∧ (s.overload t).qnu = s.qnu ∧
    (s.overload t).lnk.sup.port = s.lnk.sup.port ∧ (s.overload t).lnk.sup.answers = s.lnk.sup.answers ∧
    (s.overload t).lnk.sup.sending = s.lnk.sup.sending ∧ (s.overload t).lnk.sup.line = s.lnk.sup.line ∧
    (s.overload t).lnk.mach = s.lnk.mach ∧ (s.overload t).cfg = s.cfg ∧ (s.overload t).pending = s.pending := by
  unfold overload
  try dsimp only
  (repeat' split) <;> simp

@[simp] theorem pulseEdge_frame (s : State) (t : Nat) :
    (s.pulseEdge t).tb = s.tb ∧ (s.pulseEdge t).ot = s.ot ∧ (s.pulseEdge t).pln = s.pln ∧
    (s.pulseEdge t).ilk = s.ilk ∧ (s.pulseEdge t).dru = s.dru ∧ (s.pulseEdge t).ofu.sections = s.ofu.sections ∧
    (s.pulseEdge t).ofu.valves = s.ofu.valves ∧ (s.pulseEdge t).ofu.queue = s.ofu.queue ∧
    (s.pulseEdge t).ofu.heldOffers = s.ofu.heldOffers ∧ (s.pulseEdge t).ofu.iso = s.ofu.iso ∧
    (s.pulseEdge t).ofu.charges = s.ofu.charges ∧ (s.pulseEdge t).qnu = s.qnu ∧ (s.pulseEdge t).trm = s.trm ∧
    (s.pulseEdge t).lnk = s.lnk ∧ (s.pulseEdge t).cfg = s.cfg ∧ (s.pulseEdge t).pending = s.pending := by
  unfold pulseEdge
  try dsimp only
  (repeat' split) <;> simp

@[simp] theorem periodStart_frame (s : State) (t : Nat) :
    (s.periodStart t).tb = s.tb ∧ (s.periodStart t).ot = s.ot ∧ (s.periodStart t).pln = s.pln ∧
    (s.periodStart t).ilk = s.ilk ∧ (s.periodStart t).dru = s.dru ∧ (s.periodStart t).ofu = s.ofu ∧
    (s.periodStart t).qnu = s.qnu ∧ (s.periodStart t).lnk = s.lnk ∧ (s.periodStart t).cfg = s.cfg ∧
    (s.periodStart t).pending = s.pending := by
  unfold periodStart
  try dsimp only
  (repeat' split) <;> simp

@[simp] theorem spoilGate_frame (s : State) (fn : TermFn) :
    (s.spoilGate fn).tb = s.tb ∧ (s.spoilGate fn).ot = s.ot ∧ (s.spoilGate fn).pln = s.pln ∧
    (s.spoilGate fn).ilk = s.ilk ∧ (s.spoilGate fn).dru = s.dru ∧ (s.spoilGate fn).ofu.sections = s.ofu.sections ∧
    (s.spoilGate fn).ofu.valves = s.ofu.valves ∧ (s.spoilGate fn).ofu.queue = s.ofu.queue ∧
    (s.spoilGate fn).ofu.heldOffers = s.ofu.heldOffers ∧ (s.spoilGate fn).ofu.iso = s.ofu.iso ∧
    (s.spoilGate fn).ofu.charges = s.ofu.charges ∧ (s.spoilGate fn).qnu = s.qnu ∧ (s.spoilGate fn).trm = s.trm ∧
    (s.spoilGate fn).lnk = s.lnk ∧ (s.spoilGate fn).cfg = s.cfg ∧ (s.spoilGate fn).pending = s.pending := by
  unfold spoilGate
  try dsimp only
  (repeat' split) <;> simp

@[simp] theorem functionLeaves_frame (s : State) (fn : TermFn) (level : Bool) :
    (s.functionLeaves fn level).tb = s.tb ∧ (s.functionLeaves fn level).pln = s.pln ∧
    (s.functionLeaves fn level).ilk.machines = s.ilk.machines ∧
    (s.functionLeaves fn level).ilk.lastRam = s.ilk.lastRam ∧ (s.functionLeaves fn level).dru.doors = s.dru.doors ∧
    (s.functionLeaves fn level).dru.vals = s.dru.vals ∧ (s.functionLeaves fn level).ofu.sections = s.ofu.sections ∧
    (s.functionLeaves fn level).ofu.valves = s.ofu.valves ∧
    (s.functionLeaves fn level).ofu.heldOffers = s.ofu.heldOffers ∧ (s.functionLeaves fn level).ofu.iso = s.ofu.iso ∧
    (s.functionLeaves fn level).ofu.charges = s.ofu.charges ∧
    (s.functionLeaves fn level).qnu.blocked = s.qnu.blocked ∧ (s.functionLeaves fn level).qnu.load = s.qnu.load ∧
    (s.functionLeaves fn level).qnu.phase = s.qnu.phase ∧ (s.functionLeaves fn level).qnu.free = s.qnu.free ∧
    (s.functionLeaves fn level).qnu.discharge = s.qnu.discharge ∧ (s.functionLeaves fn level).qnu.vals = s.qnu.vals ∧
    (s.functionLeaves fn level).trm = s.trm ∧ (s.functionLeaves fn level).lnk.sup.port = s.lnk.sup.port ∧
    (s.functionLeaves fn level).lnk.sup.answers = s.lnk.sup.answers ∧
    (s.functionLeaves fn level).lnk.sup.sending = s.lnk.sup.sending ∧
    (s.functionLeaves fn level).lnk.sup.line = s.lnk.sup.line ∧
    (∀ j, (((s.functionLeaves fn level)).lnk.mach.get j).port = (s.lnk.mach.get j).port) ∧
    (∀ j, (((s.functionLeaves fn level)).lnk.mach.get j).test = (s.lnk.mach.get j).test) ∧
    (s.functionLeaves fn level).cfg = s.cfg ∧ (s.functionLeaves fn level).pending = s.pending := by
  unfold functionLeaves
  try dsimp only
  (repeat' split) <;> simp

@[simp] theorem functionArrives_frame (s : State) (fn : TermFn) (t : Nat) (e : Edge) (level : Bool) :
    (s.functionArrives fn t e level).tb = s.tb ∧ (s.functionArrives fn t e level).pln = s.pln ∧
    (s.functionArrives fn t e level).ilk.machines = s.ilk.machines ∧
    (s.functionArrives fn t e level).ilk.lastRam = s.ilk.lastRam ∧
    (s.functionArrives fn t e level).dru.doors = s.dru.doors ∧
    (s.functionArrives fn t e level).dru.vals = s.dru.vals ∧
    (s.functionArrives fn t e level).ofu.sections = s.ofu.sections ∧
    (s.functionArrives fn t e level).ofu.valves = s.ofu.valves ∧
    (s.functionArrives fn t e level).ofu.heldOffers = s.ofu.heldOffers ∧
    (s.functionArrives fn t e level).ofu.iso = s.ofu.iso ∧
    (s.functionArrives fn t e level).ofu.charges = s.ofu.charges ∧
    (s.functionArrives fn t e level).qnu.blocked = s.qnu.blocked ∧
    (s.functionArrives fn t e level).qnu.load = s.qnu.load ∧
    (s.functionArrives fn t e level).qnu.phase = s.qnu.phase ∧
    (s.functionArrives fn t e level).qnu.free = s.qnu.free ∧
    (s.functionArrives fn t e level).qnu.discharge = s.qnu.discharge ∧
    (s.functionArrives fn t e level).qnu.vals = s.qnu.vals ∧ (s.functionArrives fn t e level).trm = s.trm ∧
    (s.functionArrives fn t e level).lnk.sup.port = s.lnk.sup.port ∧
    (s.functionArrives fn t e level).lnk.sup.answers = s.lnk.sup.answers ∧
    (s.functionArrives fn t e level).lnk.sup.sending = s.lnk.sup.sending ∧
    (s.functionArrives fn t e level).lnk.sup.line = s.lnk.sup.line ∧
    (∀ j, (((s.functionArrives fn t e level)).lnk.mach.get j).port = (s.lnk.mach.get j).port) ∧
    (∀ j, (((s.functionArrives fn t e level)).lnk.mach.get j).test = (s.lnk.mach.get j).test) ∧
    (s.functionArrives fn t e level).cfg = s.cfg ∧ (s.functionArrives fn t e level).pending = s.pending := by
  unfold functionArrives
  try dsimp only
  (repeat' split) <;> simp

@[simp] theorem assignTerminal_frame (s : State) (t : Nat) (r : TermRec) (fn : TermFn) (invert : Bool) (drive : Drive) (edge : Edge) :
    (s.assignTerminal t r fn invert drive edge).tb = s.tb ∧ (s.assignTerminal t r fn invert drive edge).pln = s.pln ∧
    (s.assignTerminal t r fn invert drive edge).ilk.machines = s.ilk.machines ∧
    (s.assignTerminal t r fn invert drive edge).ilk.lastRam = s.ilk.lastRam ∧
    (s.assignTerminal t r fn invert drive edge).dru.doors = s.dru.doors ∧
    (s.assignTerminal t r fn invert drive edge).dru.vals = s.dru.vals ∧
    (s.assignTerminal t r fn invert drive edge).ofu.sections = s.ofu.sections ∧
    (s.assignTerminal t r fn invert drive edge).ofu.valves = s.ofu.valves ∧
    (s.assignTerminal t r fn invert drive edge).ofu.heldOffers = s.ofu.heldOffers ∧
    (s.assignTerminal t r fn invert drive edge).ofu.iso = s.ofu.iso ∧
    (s.assignTerminal t r fn invert drive edge).ofu.charges = s.ofu.charges ∧
    (s.assignTerminal t r fn invert drive edge).qnu.blocked = s.qnu.blocked ∧
    (s.assignTerminal t r fn invert drive edge).qnu.load = s.qnu.load ∧
    (s.assignTerminal t r fn invert drive edge).qnu.phase = s.qnu.phase ∧
    (s.assignTerminal t r fn invert drive edge).qnu.free = s.qnu.free ∧
    (s.assignTerminal t r fn invert drive edge).qnu.discharge = s.qnu.discharge ∧
    (s.assignTerminal t r fn invert drive edge).qnu.vals = s.qnu.vals ∧
    (s.assignTerminal t r fn invert drive edge).lnk.sup.port = s.lnk.sup.port ∧
    (s.assignTerminal t r fn invert drive edge).lnk.sup.answers = s.lnk.sup.answers ∧
    (s.assignTerminal t r fn invert drive edge).lnk.sup.sending = s.lnk.sup.sending ∧
    (s.assignTerminal t r fn invert drive edge).lnk.sup.line = s.lnk.sup.line ∧
    (∀ j, (((s.assignTerminal t r fn invert drive edge)).lnk.mach.get j).port = (s.lnk.mach.get j).port) ∧
    (∀ j, (((s.assignTerminal t r fn invert drive edge)).lnk.mach.get j).test = (s.lnk.mach.get j).test) ∧
    (s.assignTerminal t r fn invert drive edge).cfg = s.cfg ∧
    (s.assignTerminal t r fn invert drive edge).pending = s.pending := by
  unfold assignTerminal
  try dsimp only
  (repeat' split) <;> simp

@[simp] theorem handOffline_frame (s : State) (m : MachineId) :
    (s.handOffline m).tb = s.tb ∧ (s.handOffline m).ot = s.ot ∧ (s.handOffline m).pln = s.pln ∧
    (s.handOffline m).ilk.machines = s.ilk.machines ∧ (s.handOffline m).ilk.stop = s.ilk.stop ∧
    (s.handOffline m).ilk.holdCause = s.ilk.holdCause ∧ (s.handOffline m).ilk.lastRam = s.ilk.lastRam ∧
    (s.handOffline m).dru.doors = s.dru.doors ∧ (s.handOffline m).dru.vals = s.dru.vals ∧
    (s.handOffline m).ofu.sections = s.ofu.sections ∧ (s.handOffline m).ofu.gates = s.ofu.gates ∧
    (s.handOffline m).ofu.valves = s.ofu.valves ∧ (s.handOffline m).ofu.heldOffers = s.ofu.heldOffers ∧
    (s.handOffline m).ofu.iso = s.ofu.iso ∧ (s.handOffline m).ofu.charges = s.ofu.charges ∧
    (s.handOffline m).qnu.blocked = s.qnu.blocked ∧ (s.handOffline m).qnu.load = s.qnu.load ∧
    (s.handOffline m).qnu.phase = s.qnu.phase ∧ (s.handOffline m).qnu.bays = s.qnu.bays ∧
    (s.handOffline m).qnu.free = s.qnu.free ∧ (s.handOffline m).qnu.discharge = s.qnu.discharge ∧
    (s.handOffline m).qnu.vals = s.qnu.vals ∧ (s.handOffline m).trm = s.trm ∧
    (s.handOffline m).lnk.sup.port = s.lnk.sup.port ∧ (s.handOffline m).lnk.sup.answers = s.lnk.sup.answers ∧
    (s.handOffline m).lnk.sup.sending = s.lnk.sup.sending ∧ (s.handOffline m).lnk.sup.line = s.lnk.sup.line ∧
    (∀ j, (((s.handOffline m)).lnk.mach.get j).port = (s.lnk.mach.get j).port) ∧
    (∀ j, (((s.handOffline m)).lnk.mach.get j).test = (s.lnk.mach.get j).test) ∧ (s.handOffline m).cfg = s.cfg ∧
    (s.handOffline m).pending = s.pending := by
  cases m <;> simp [handOffline]

@[simp] theorem goOffline_frame (s : State) (m : MachineId) (c : LinkCause) :
    (s.goOffline m c).tb = s.tb ∧ (s.goOffline m c).ot = s.ot ∧ (s.goOffline m c).pln = s.pln ∧
    (s.goOffline m c).ilk.stop = s.ilk.stop ∧ (s.goOffline m c).ilk.holdCause = s.ilk.holdCause ∧
    (s.goOffline m c).ilk.lastRam = s.ilk.lastRam ∧ (s.goOffline m c).dru.doors = s.dru.doors ∧
    (s.goOffline m c).dru.vals = s.dru.vals ∧ (s.goOffline m c).ofu.sections = s.ofu.sections ∧
    (s.goOffline m c).ofu.gates = s.ofu.gates ∧ (s.goOffline m c).ofu.valves = s.ofu.valves ∧
    (s.goOffline m c).ofu.heldOffers = s.ofu.heldOffers ∧ (s.goOffline m c).ofu.iso = s.ofu.iso ∧
    (s.goOffline m c).ofu.charges = s.ofu.charges ∧ (s.goOffline m c).qnu.blocked = s.qnu.blocked ∧
    (s.goOffline m c).qnu.load = s.qnu.load ∧ (s.goOffline m c).qnu.phase = s.qnu.phase ∧
    (s.goOffline m c).qnu.bays = s.qnu.bays ∧ (s.goOffline m c).qnu.free = s.qnu.free ∧
    (s.goOffline m c).qnu.discharge = s.qnu.discharge ∧ (s.goOffline m c).qnu.vals = s.qnu.vals ∧
    (s.goOffline m c).trm = s.trm ∧ (s.goOffline m c).lnk.sup.answers = s.lnk.sup.answers ∧
    (s.goOffline m c).lnk.sup.sending = s.lnk.sup.sending ∧ (s.goOffline m c).lnk.sup.line = s.lnk.sup.line ∧
    (∀ j, (((s.goOffline m c)).lnk.mach.get j).test = (s.lnk.mach.get j).test) ∧ (s.goOffline m c).cfg = s.cfg ∧
    (s.goOffline m c).pending = s.pending := by
  unfold goOffline
  try dsimp only
  (repeat' split) <;> simp

@[simp] theorem goOnline_frame (s : State) (m : MachineId) :
    (s.goOnline m).tb = s.tb ∧ (s.goOnline m).ot = s.ot ∧ (s.goOnline m).pln = s.pln ∧ (s.goOnline m).ilk = s.ilk ∧
    (s.goOnline m).dru = s.dru ∧ (s.goOnline m).ofu = s.ofu ∧ (s.goOnline m).qnu = s.qnu ∧
    (s.goOnline m).trm = s.trm ∧ (s.goOnline m).lnk.sup.answers = s.lnk.sup.answers ∧
    (s.goOnline m).lnk.sup.sending = s.lnk.sup.sending ∧ (s.goOnline m).lnk.sup.line = s.lnk.sup.line ∧
    (∀ j, (((s.goOnline m)).lnk.mach.get j).test = (s.lnk.mach.get j).test) ∧ (s.goOnline m).cfg = s.cfg ∧
    (s.goOnline m).pending = s.pending := by
  unfold goOnline
  try dsimp only
  (repeat' split) <;> simp

@[simp] theorem invalidNotice_frame (s : State) (m : MachineId) (before : Bool) (spot : ReportedSpot) :
    (s.invalidNotice m before spot).tb = s.tb ∧ (s.invalidNotice m before spot).ot = s.ot ∧
    (s.invalidNotice m before spot).pln = s.pln ∧ (s.invalidNotice m before spot).ilk = s.ilk ∧
    (s.invalidNotice m before spot).dru = s.dru ∧ (s.invalidNotice m before spot).ofu = s.ofu ∧
    (s.invalidNotice m before spot).qnu = s.qnu ∧ (s.invalidNotice m before spot).trm = s.trm ∧
    (s.invalidNotice m before spot).lnk.sup.port = s.lnk.sup.port ∧
    (s.invalidNotice m before spot).lnk.sup.answers = s.lnk.sup.answers ∧
    (s.invalidNotice m before spot).lnk.sup.sending = s.lnk.sup.sending ∧
    (s.invalidNotice m before spot).lnk.sup.line = s.lnk.sup.line ∧
    (s.invalidNotice m before spot).lnk.mach = s.lnk.mach ∧ (s.invalidNotice m before spot).cfg = s.cfg ∧
    (s.invalidNotice m before spot).pending = s.pending := by
  unfold invalidNotice
  try dsimp only
  (repeat' split) <;> simp

@[simp] theorem handStatus_frame (s : State) (m : MachineId) (became : Bool) (oldMode : Option Mode) (stopped : Option CarSpot) (spot : ReportedSpot) :
    (s.handStatus m became oldMode stopped spot).tb = s.tb ∧
    (s.handStatus m became oldMode stopped spot).ilk.machines = s.ilk.machines ∧
    (s.handStatus m became oldMode stopped spot).ilk.stop = s.ilk.stop ∧
    (s.handStatus m became oldMode stopped spot).ilk.holdCause = s.ilk.holdCause ∧
    (s.handStatus m became oldMode stopped spot).ilk.lastRam = s.ilk.lastRam ∧
    (s.handStatus m became oldMode stopped spot).dru.doors = s.dru.doors ∧
    (s.handStatus m became oldMode stopped spot).dru.vals = s.dru.vals ∧
    (s.handStatus m became oldMode stopped spot).ofu.sections = s.ofu.sections ∧
    (s.handStatus m became oldMode stopped spot).ofu.gates = s.ofu.gates ∧
    (s.handStatus m became oldMode stopped spot).ofu.valves = s.ofu.valves ∧
    (s.handStatus m became oldMode stopped spot).ofu.charges = s.ofu.charges ∧
    (s.handStatus m became oldMode stopped spot).qnu.blocked = s.qnu.blocked ∧
    (s.handStatus m became oldMode stopped spot).qnu.bays = s.qnu.bays ∧
    (s.handStatus m became oldMode stopped spot).qnu.free = s.qnu.free ∧
    (s.handStatus m became oldMode stopped spot).qnu.discharge = s.qnu.discharge ∧
    (s.handStatus m became oldMode stopped spot).qnu.vals = s.qnu.vals ∧
    (s.handStatus m became oldMode stopped spot).trm = s.trm ∧
    (s.handStatus m became oldMode stopped spot).lnk.sup.port = s.lnk.sup.port ∧
    (s.handStatus m became oldMode stopped spot).lnk.sup.answers = s.lnk.sup.answers ∧
    (s.handStatus m became oldMode stopped spot).lnk.sup.sending = s.lnk.sup.sending ∧
    (s.handStatus m became oldMode stopped spot).lnk.sup.line = s.lnk.sup.line ∧
    (∀ j, (((s.handStatus m became oldMode stopped spot)).lnk.mach.get j).port = (s.lnk.mach.get j).port) ∧
    (∀ j, (((s.handStatus m became oldMode stopped spot)).lnk.mach.get j).test = (s.lnk.mach.get j).test) ∧
    (s.handStatus m became oldMode stopped spot).cfg = s.cfg ∧
    (s.handStatus m became oldMode stopped spot).pending = s.pending := by
  unfold handStatus
  try dsimp only
  (repeat' split) <;> simp

@[simp] theorem takeStatus_frame (s : State) (sender : StatusFrom) (mode : Mode) (motion : Motion) (spot : ReportedSpot) :
    (s.takeStatus sender mode motion spot).tb = s.tb ∧ (s.takeStatus sender mode motion spot).ilk.stop = s.ilk.stop ∧
    (s.takeStatus sender mode motion spot).ilk.holdCause = s.ilk.holdCause ∧
    (s.takeStatus sender mode motion spot).ilk.lastRam = s.ilk.lastRam ∧
    (s.takeStatus sender mode motion spot).dru.doors = s.dru.doors ∧
    (s.takeStatus sender mode motion spot).dru.vals = s.dru.vals ∧
    (s.takeStatus sender mode motion spot).ofu.sections = s.ofu.sections ∧
    (s.takeStatus sender mode motion spot).ofu.gates = s.ofu.gates ∧
    (s.takeStatus sender mode motion spot).ofu.valves = s.ofu.valves ∧
    (s.takeStatus sender mode motion spot).ofu.charges = s.ofu.charges ∧
    (s.takeStatus sender mode motion spot).qnu.blocked = s.qnu.blocked ∧
    (s.takeStatus sender mode motion spot).qnu.bays = s.qnu.bays ∧
    (s.takeStatus sender mode motion spot).qnu.free = s.qnu.free ∧
    (s.takeStatus sender mode motion spot).qnu.discharge = s.qnu.discharge ∧
    (s.takeStatus sender mode motion spot).qnu.vals = s.qnu.vals ∧
    (s.takeStatus sender mode motion spot).trm = s.trm ∧
    (s.takeStatus sender mode motion spot).lnk.sup.answers = s.lnk.sup.answers ∧
    (s.takeStatus sender mode motion spot).lnk.sup.sending = s.lnk.sup.sending ∧
    (s.takeStatus sender mode motion spot).lnk.sup.line = s.lnk.sup.line ∧
    (∀ j, (((s.takeStatus sender mode motion spot)).lnk.mach.get j).test = (s.lnk.mach.get j).test) ∧
    (s.takeStatus sender mode motion spot).cfg = s.cfg ∧
    (s.takeStatus sender mode motion spot).pending = s.pending := by
  unfold takeStatus
  try dsimp only
  (repeat' split) <;> simp

@[simp] theorem supervisorHeard_frame (s : State) :
    s.supervisorHeard.tb = s.tb ∧ s.supervisorHeard.ot = s.ot ∧ s.supervisorHeard.ilk.machines = s.ilk.machines ∧
    s.supervisorHeard.ilk.stop = s.ilk.stop ∧ s.supervisorHeard.ilk.holdCause = s.ilk.holdCause ∧
    s.supervisorHeard.ilk.lastRam = s.ilk.lastRam ∧ s.supervisorHeard.dru.doors = s.dru.doors ∧
    s.supervisorHeard.dru.vals = s.dru.vals ∧ s.supervisorHeard.ofu.sections = s.ofu.sections ∧
    s.supervisorHeard.ofu.gates = s.ofu.gates ∧ s.supervisorHeard.ofu.valves = s.ofu.valves ∧
    s.supervisorHeard.ofu.charges = s.ofu.charges ∧ s.supervisorHeard.qnu.blocked = s.qnu.blocked ∧
    s.supervisorHeard.qnu.load = s.qnu.load ∧ s.supervisorHeard.qnu.phase = s.qnu.phase ∧
    s.supervisorHeard.qnu.bays = s.qnu.bays ∧ s.supervisorHeard.qnu.free = s.qnu.free ∧
    s.supervisorHeard.qnu.discharge = s.qnu.discharge ∧ s.supervisorHeard.qnu.vals = s.qnu.vals ∧
    s.supervisorHeard.trm = s.trm ∧ s.supervisorHeard.lnk.sup.answers = s.lnk.sup.answers ∧
    s.supervisorHeard.lnk.sup.sending = s.lnk.sup.sending ∧ s.supervisorHeard.lnk.sup.line = s.lnk.sup.line ∧
    (∀ j, ((s.supervisorHeard).lnk.mach.get j).test = (s.lnk.mach.get j).test) ∧ s.supervisorHeard.cfg = s.cfg ∧
    s.supervisorHeard.pending = s.pending := by
  unfold supervisorHeard
  try dsimp only
  (repeat' split) <;> simp

@[simp] theorem updTest_frame (s : State) (m : MachineId) (f : LinkTest → LinkTest) :
    (s.updTest m f).tb = s.tb ∧ (s.updTest m f).ot = s.ot ∧ (s.updTest m f).pln = s.pln ∧
    (s.updTest m f).ilk = s.ilk ∧ (s.updTest m f).dru = s.dru ∧ (s.updTest m f).ofu = s.ofu ∧
    (s.updTest m f).qnu = s.qnu ∧ (s.updTest m f).trm = s.trm ∧ (s.updTest m f).lnk.sup = s.lnk.sup ∧
    (s.updTest m f).cfg = s.cfg ∧ (s.updTest m f).pending = s.pending := by
  unfold updTest
  try dsimp only
  (repeat' split) <;> simp

@[simp] theorem startTest_frame (s : State) (m : MachineId) :
    (s.startTest m).tb = s.tb ∧ (s.startTest m).ot = s.ot ∧ (s.startTest m).pln = s.pln ∧
    (s.startTest m).ilk.stop = s.ilk.stop ∧ (s.startTest m).ilk.holdCause = s.ilk.holdCause ∧
    (s.startTest m).ilk.lastRam = s.ilk.lastRam ∧ (s.startTest m).dru.doors = s.dru.doors ∧
    (s.startTest m).dru.vals = s.dru.vals ∧ (s.startTest m).ofu.sections = s.ofu.sections ∧
    (s.startTest m).ofu.gates = s.ofu.gates ∧ (s.startTest m).ofu.valves = s.ofu.valves ∧
    (s.startTest m).ofu.heldOffers = s.ofu.heldOffers ∧ (s.startTest m).ofu.iso = s.ofu.iso ∧
    (s.startTest m).ofu.charges = s.ofu.charges ∧ (s.startTest m).qnu.blocked = s.qnu.blocked ∧
    (s.startTest m).qnu.load = s.qnu.load ∧ (s.startTest m).qnu.phase = s.qnu.phase ∧
    (s.startTest m).qnu.bays = s.qnu.bays ∧ (s.startTest m).qnu.free = s.qnu.free ∧
    (s.startTest m).qnu.discharge = s.qnu.discharge ∧ (s.startTest m).qnu.vals = s.qnu.vals ∧
    (s.startTest m).trm = s.trm ∧ (s.startTest m).lnk.sup.answers = s.lnk.sup.answers ∧
    (s.startTest m).lnk.sup.sending = s.lnk.sup.sending ∧ (s.startTest m).lnk.sup.line = s.lnk.sup.line ∧
    (s.startTest m).cfg = s.cfg ∧ (s.startTest m).pending = s.pending := by
  unfold startTest
  try dsimp only
  (repeat' split) <;> simp

@[simp] theorem linkTestOp_frame (s : State) (m : MachineId) :
    (s.linkTestOp m).1.tb = s.tb ∧ (s.linkTestOp m).1.ot = s.ot ∧ (s.linkTestOp m).1.pln = s.pln ∧
    (s.linkTestOp m).1.ilk.stop = s.ilk.stop ∧ (s.linkTestOp m).1.ilk.holdCause = s.ilk.holdCause ∧
    (s.linkTestOp m).1.ilk.lastRam = s.ilk.lastRam ∧ (s.linkTestOp m).1.dru.doors = s.dru.doors ∧
    (s.linkTestOp m).1.dru.vals = s.dru.vals ∧ (s.linkTestOp m).1.ofu.sections = s.ofu.sections ∧
    (s.linkTestOp m).1.ofu.gates = s.ofu.gates ∧ (s.linkTestOp m).1.ofu.valves = s.ofu.valves ∧
    (s.linkTestOp m).1.ofu.heldOffers = s.ofu.heldOffers ∧ (s.linkTestOp m).1.ofu.iso = s.ofu.iso ∧
    (s.linkTestOp m).1.ofu.charges = s.ofu.charges ∧ (s.linkTestOp m).1.qnu.blocked = s.qnu.blocked ∧
    (s.linkTestOp m).1.qnu.load = s.qnu.load ∧ (s.linkTestOp m).1.qnu.phase = s.qnu.phase ∧
    (s.linkTestOp m).1.qnu.bays = s.qnu.bays ∧ (s.linkTestOp m).1.qnu.free = s.qnu.free ∧
    (s.linkTestOp m).1.qnu.discharge = s.qnu.discharge ∧ (s.linkTestOp m).1.qnu.vals = s.qnu.vals ∧
    (s.linkTestOp m).1.trm = s.trm ∧ (s.linkTestOp m).1.lnk.sup.answers = s.lnk.sup.answers ∧
    (s.linkTestOp m).1.lnk.sup.sending = s.lnk.sup.sending ∧ (s.linkTestOp m).1.lnk.sup.line = s.lnk.sup.line ∧
    (s.linkTestOp m).1.cfg = s.cfg ∧ (s.linkTestOp m).1.pending = s.pending := by
  unfold linkTestOp
  try dsimp only
  (repeat' split) <;> simp

@[simp] theorem testReadOp_frame (s : State) (m : MachineId) :
    (s.testReadOp m).1.tb = s.tb ∧ (s.testReadOp m).1.ot = s.ot ∧ (s.testReadOp m).1.pln = s.pln ∧
    (s.testReadOp m).1.ilk = s.ilk ∧ (s.testReadOp m).1.dru = s.dru ∧ (s.testReadOp m).1.ofu = s.ofu ∧
    (s.testReadOp m).1.qnu = s.qnu ∧ (s.testReadOp m).1.trm = s.trm ∧ (s.testReadOp m).1.lnk.sup = s.lnk.sup ∧
    (s.testReadOp m).1.cfg = s.cfg ∧ (s.testReadOp m).1.pending = s.pending := by
  unfold testReadOp
  try dsimp only
  (repeat' split) <;> simp

@[simp] theorem testEndOp_frame (s : State) (m : MachineId) :
    (s.testEndOp m).1.tb = s.tb ∧ (s.testEndOp m).1.ot = s.ot ∧ (s.testEndOp m).1.pln = s.pln ∧
    (s.testEndOp m).1.ilk = s.ilk ∧ (s.testEndOp m).1.dru = s.dru ∧ (s.testEndOp m).1.ofu = s.ofu ∧
    (s.testEndOp m).1.qnu = s.qnu ∧ (s.testEndOp m).1.trm = s.trm ∧
    (s.testEndOp m).1.lnk.sup.answers = s.lnk.sup.answers ∧ (s.testEndOp m).1.lnk.sup.sending = s.lnk.sup.sending ∧
    (s.testEndOp m).1.lnk.sup.line = s.lnk.sup.line ∧ (s.testEndOp m).1.lnk.sup.notices = s.lnk.sup.notices ∧
    (s.testEndOp m).1.lnk.sup.noticesLost = s.lnk.sup.noticesLost ∧ (s.testEndOp m).1.cfg = s.cfg ∧
    (s.testEndOp m).1.pending = s.pending := by
  unfold testEndOp
  try dsimp only
  (repeat' split) <;> simp

@[simp] theorem readyExpire_frame (s : State) (n : Nat) :
    (s.readyExpire n).tb = s.tb ∧ (s.readyExpire n).ilk.machines = s.ilk.machines ∧
    (s.readyExpire n).ilk.stop = s.ilk.stop ∧ (s.readyExpire n).ilk.holdCause = s.ilk.holdCause ∧
    (s.readyExpire n).ilk.lastRam = s.ilk.lastRam ∧ (s.readyExpire n).dru.doors = s.dru.doors ∧
    (s.readyExpire n).dru.vals = s.dru.vals ∧ (s.readyExpire n).ofu.sections = s.ofu.sections ∧
    (s.readyExpire n).ofu.gates = s.ofu.gates ∧ (s.readyExpire n).ofu.valves = s.ofu.valves ∧
    (s.readyExpire n).ofu.charges = s.ofu.charges ∧ (s.readyExpire n).qnu.blocked = s.qnu.blocked ∧
    (s.readyExpire n).qnu.load = s.qnu.load ∧ (s.readyExpire n).qnu.phase = s.qnu.phase ∧
    (s.readyExpire n).qnu.bays = s.qnu.bays ∧ (s.readyExpire n).qnu.free = s.qnu.free ∧
    (s.readyExpire n).qnu.discharge = s.qnu.discharge ∧ (s.readyExpire n).qnu.vals = s.qnu.vals ∧
    (s.readyExpire n).trm = s.trm ∧ (s.readyExpire n).lnk.sup.port = s.lnk.sup.port ∧
    (s.readyExpire n).lnk.sup.answers = s.lnk.sup.answers ∧ (s.readyExpire n).lnk.sup.sending = s.lnk.sup.sending ∧
    (s.readyExpire n).lnk.sup.line = s.lnk.sup.line ∧
    (∀ j, (((s.readyExpire n)).lnk.mach.get j).port = (s.lnk.mach.get j).port) ∧
    (∀ j, (((s.readyExpire n)).lnk.mach.get j).test = (s.lnk.mach.get j).test) ∧ (s.readyExpire n).cfg = s.cfg ∧
    (s.readyExpire n).pending = s.pending := by
  unfold readyExpire
  try dsimp only
  (repeat' split) <;> simp

@[simp] theorem dueExpire_frame (s : State) :
    s.dueExpire.tb = s.tb ∧ s.dueExpire.ot = s.ot ∧ s.dueExpire.ilk.machines = s.ilk.machines ∧
    s.dueExpire.ilk.stop = s.ilk.stop ∧ s.dueExpire.ilk.holdCause = s.ilk.holdCause ∧
    s.dueExpire.ilk.lastRam = s.ilk.lastRam ∧ s.dueExpire.dru.doors = s.dru.doors ∧
    s.dueExpire.dru.vals = s.dru.vals ∧ s.dueExpire.ofu.sections = s.ofu.sections ∧
    s.dueExpire.ofu.gates = s.ofu.gates ∧ s.dueExpire.ofu.valves = s.ofu.valves ∧
    s.dueExpire.ofu.charges = s.ofu.charges ∧ s.dueExpire.qnu.blocked = s.qnu.blocked ∧
    s.dueExpire.qnu.load = s.qnu.load ∧ s.dueExpire.qnu.phase = s.qnu.phase ∧ s.dueExpire.qnu.bays = s.qnu.bays ∧
    s.dueExpire.qnu.free = s.qnu.free ∧ s.dueExpire.qnu.discharge = s.qnu.discharge ∧
    s.dueExpire.qnu.vals = s.qnu.vals ∧ s.dueExpire.trm = s.trm ∧ s.dueExpire.lnk.sup.port = s.lnk.sup.port ∧
    s.dueExpire.lnk.sup.answers = s.lnk.sup.answers ∧ s.dueExpire.lnk.sup.sending = s.lnk.sup.sending ∧
    s.dueExpire.lnk.sup.line = s.lnk.sup.line ∧ (∀ j, ((s.dueExpire).lnk.mach.get j).port = (s.lnk.mach.get j).port) ∧
    (∀ j, ((s.dueExpire).lnk.mach.get j).test = (s.lnk.mach.get j).test) ∧ s.dueExpire.cfg = s.cfg ∧
    s.dueExpire.pending = s.pending := by
  unfold dueExpire
  try dsimp only
  (repeat' split) <;> simp

@[simp] theorem holdOverExpire_frame (s : State) :
    s.holdOverExpire.tb = s.tb ∧ s.holdOverExpire.ot = s.ot ∧ s.holdOverExpire.ilk.machines = s.ilk.machines ∧
    s.holdOverExpire.ilk.stop = s.ilk.stop ∧ s.holdOverExpire.ilk.holdCause = s.ilk.holdCause ∧
    s.holdOverExpire.ilk.lastRam = s.ilk.lastRam ∧ s.holdOverExpire.dru.doors = s.dru.doors ∧
    s.holdOverExpire.dru.vals = s.dru.vals ∧ s.holdOverExpire.ofu.sections = s.ofu.sections ∧
    s.holdOverExpire.ofu.gates = s.ofu.gates ∧ s.holdOverExpire.ofu.valves = s.ofu.valves ∧
    s.holdOverExpire.ofu.charges = s.ofu.charges ∧ s.holdOverExpire.qnu.blocked = s.qnu.blocked ∧
    s.holdOverExpire.qnu.load = s.qnu.load ∧ s.holdOverExpire.qnu.phase = s.qnu.phase ∧
    s.holdOverExpire.qnu.bays = s.qnu.bays ∧ s.holdOverExpire.qnu.free = s.qnu.free ∧
    s.holdOverExpire.qnu.discharge = s.qnu.discharge ∧ s.holdOverExpire.qnu.vals = s.qnu.vals ∧
    s.holdOverExpire.trm = s.trm ∧ s.holdOverExpire.lnk.sup.port = s.lnk.sup.port ∧
    s.holdOverExpire.lnk.sup.answers = s.lnk.sup.answers ∧ s.holdOverExpire.lnk.sup.sending = s.lnk.sup.sending ∧
    s.holdOverExpire.lnk.sup.line = s.lnk.sup.line ∧
    (∀ j, ((s.holdOverExpire).lnk.mach.get j).port = (s.lnk.mach.get j).port) ∧
    (∀ j, ((s.holdOverExpire).lnk.mach.get j).test = (s.lnk.mach.get j).test) ∧ s.holdOverExpire.cfg = s.cfg ∧
    s.holdOverExpire.pending = s.pending := by
  unfold holdOverExpire
  try dsimp only
  (repeat' split) <;> simp

@[simp] theorem deadlineExpire_frame (s : State) (m : MachineId) :
    (s.deadlineExpire m).tb = s.tb ∧ (s.deadlineExpire m).ot = s.ot ∧ (s.deadlineExpire m).pln = s.pln ∧
    (s.deadlineExpire m).ilk.machines = s.ilk.machines ∧ (s.deadlineExpire m).ilk.stop = s.ilk.stop ∧
    (s.deadlineExpire m).ilk.holdCause = s.ilk.holdCause ∧ (s.deadlineExpire m).ilk.lastRam = s.ilk.lastRam ∧
    (s.deadlineExpire m).dru.doors = s.dru.doors ∧ (s.deadlineExpire m).dru.vals = s.dru.vals ∧
    (s.deadlineExpire m).ofu.sections = s.ofu.sections ∧ (s.deadlineExpire m).ofu.gates = s.ofu.gates ∧
    (s.deadlineExpire m).ofu.valves = s.ofu.valves ∧ (s.deadlineExpire m).ofu.heldOffers = s.ofu.heldOffers ∧
    (s.deadlineExpire m).ofu.iso = s.ofu.iso ∧ (s.deadlineExpire m).ofu.charges = s.ofu.charges ∧
    (s.deadlineExpire m).qnu = s.qnu ∧ (s.deadlineExpire m).trm = s.trm ∧
    (s.deadlineExpire m).lnk.sup.port = s.lnk.sup.port ∧ (s.deadlineExpire m).lnk.sup.answers = s.lnk.sup.answers ∧
    (s.deadlineExpire m).lnk.sup.sending = s.lnk.sup.sending ∧ (s.deadlineExpire m).lnk.sup.line = s.lnk.sup.line ∧
    (∀ j, (((s.deadlineExpire m)).lnk.mach.get j).port = (s.lnk.mach.get j).port) ∧
    (∀ j, (((s.deadlineExpire m)).lnk.mach.get j).test = (s.lnk.mach.get j).test) ∧ (s.deadlineExpire m).cfg = s.cfg ∧
    (s.deadlineExpire m).pending = s.pending := by
  unfold deadlineExpire
  try dsimp only
  (repeat' split) <;> simp

@[simp] theorem ramTimerExpire_frame (s : State) :
    s.ramTimerExpire.tb = s.tb ∧ s.ramTimerExpire.pln = s.pln ∧ s.ramTimerExpire.ilk.machines = s.ilk.machines ∧
    s.ramTimerExpire.ilk.stop = s.ilk.stop ∧ s.ramTimerExpire.ilk.holdCause = s.ilk.holdCause ∧
    s.ramTimerExpire.ilk.lastRam = s.ilk.lastRam ∧ s.ramTimerExpire.dru.doors = s.dru.doors ∧
    s.ramTimerExpire.dru.vals = s.dru.vals ∧ s.ramTimerExpire.ofu.sections = s.ofu.sections ∧
    s.ramTimerExpire.ofu.gates = s.ofu.gates ∧ s.ramTimerExpire.ofu.valves = s.ofu.valves ∧
    s.ramTimerExpire.ofu.heldOffers = s.ofu.heldOffers ∧ s.ramTimerExpire.ofu.iso = s.ofu.iso ∧
    s.ramTimerExpire.ofu.charges = s.ofu.charges ∧ s.ramTimerExpire.qnu.blocked = s.qnu.blocked ∧
    s.ramTimerExpire.qnu.load = s.qnu.load ∧ s.ramTimerExpire.qnu.phase = s.qnu.phase ∧
    s.ramTimerExpire.qnu.bays = s.qnu.bays ∧ s.ramTimerExpire.qnu.free = s.qnu.free ∧
    s.ramTimerExpire.qnu.discharge = s.qnu.discharge ∧ s.ramTimerExpire.qnu.vals = s.qnu.vals ∧
    s.ramTimerExpire.trm = s.trm ∧ s.ramTimerExpire.lnk.sup.port = s.lnk.sup.port ∧
    s.ramTimerExpire.lnk.sup.answers = s.lnk.sup.answers ∧ s.ramTimerExpire.lnk.sup.sending = s.lnk.sup.sending ∧
    s.ramTimerExpire.lnk.sup.line = s.lnk.sup.line ∧
    (∀ j, ((s.ramTimerExpire).lnk.mach.get j).port = (s.lnk.mach.get j).port) ∧
    (∀ j, ((s.ramTimerExpire).lnk.mach.get j).test = (s.lnk.mach.get j).test) ∧ s.ramTimerExpire.cfg = s.cfg ∧
    s.ramTimerExpire.pending = s.pending := by
  unfold ramTimerExpire
  try dsimp only
  (repeat' split) <;> simp

@[simp] theorem lateTimerExpire_frame (s : State) :
    s.lateTimerExpire.tb = s.tb ∧ s.lateTimerExpire.pln = s.pln ∧ s.lateTimerExpire.ilk.machines = s.ilk.machines ∧
    s.lateTimerExpire.ilk.stop = s.ilk.stop ∧ s.lateTimerExpire.ilk.holdCause = s.ilk.holdCause ∧
    s.lateTimerExpire.ilk.lastRam = s.ilk.lastRam ∧ s.lateTimerExpire.dru.doors = s.dru.doors ∧
    s.lateTimerExpire.dru.vals = s.dru.vals ∧ s.lateTimerExpire.ofu.sections = s.ofu.sections ∧
    s.lateTimerExpire.ofu.gates = s.ofu.gates ∧ s.lateTimerExpire.ofu.valves = s.ofu.valves ∧
    s.lateTimerExpire.ofu.heldOffers = s.ofu.heldOffers ∧ s.lateTimerExpire.ofu.iso = s.ofu.iso ∧
    s.lateTimerExpire.ofu.charges = s.ofu.charges ∧ s.lateTimerExpire.qnu.blocked = s.qnu.blocked ∧
    s.lateTimerExpire.qnu.load = s.qnu.load ∧ s.lateTimerExpire.qnu.phase = s.qnu.phase ∧
    s.lateTimerExpire.qnu.bays = s.qnu.bays ∧ s.lateTimerExpire.qnu.free = s.qnu.free ∧
    s.lateTimerExpire.qnu.discharge = s.qnu.discharge ∧ s.lateTimerExpire.qnu.vals = s.qnu.vals ∧
    s.lateTimerExpire.trm = s.trm ∧ s.lateTimerExpire.lnk.sup.port = s.lnk.sup.port ∧
    s.lateTimerExpire.lnk.sup.answers = s.lnk.sup.answers ∧ s.lateTimerExpire.lnk.sup.sending = s.lnk.sup.sending ∧
    s.lateTimerExpire.lnk.sup.line = s.lnk.sup.line ∧
    (∀ j, ((s.lateTimerExpire).lnk.mach.get j).port = (s.lnk.mach.get j).port) ∧
    (∀ j, ((s.lateTimerExpire).lnk.mach.get j).test = (s.lnk.mach.get j).test) ∧ s.lateTimerExpire.cfg = s.cfg ∧
    s.lateTimerExpire.pending = s.pending := by
  unfold lateTimerExpire
  try dsimp only
  (repeat' split) <;> simp

@[simp] theorem confirmTimerExpire_frame (s : State) (n : Nat) (d : Side) :
    (s.confirmTimerExpire n d).tb = s.tb ∧ (s.confirmTimerExpire n d).ot = s.ot ∧
    (s.confirmTimerExpire n d).pln = s.pln ∧ (s.confirmTimerExpire n d).ilk = s.ilk ∧
    (s.confirmTimerExpire n d).dru.vals = s.dru.vals ∧ (s.confirmTimerExpire n d).ofu = s.ofu ∧
    (s.confirmTimerExpire n d).qnu = s.qnu ∧ (s.confirmTimerExpire n d).trm = s.trm ∧
    (s.confirmTimerExpire n d).lnk.sup.port = s.lnk.sup.port ∧
    (s.confirmTimerExpire n d).lnk.sup.answers = s.lnk.sup.answers ∧
    (s.confirmTimerExpire n d).lnk.sup.sending = s.lnk.sup.sending ∧
    (s.confirmTimerExpire n d).lnk.sup.line = s.lnk.sup.line ∧
    (∀ j, (((s.confirmTimerExpire n d)).lnk.mach.get j).port = (s.lnk.mach.get j).port) ∧
    (∀ j, (((s.confirmTimerExpire n d)).lnk.mach.get j).test = (s.lnk.mach.get j).test) ∧
    (s.confirmTimerExpire n d).cfg = s.cfg ∧ (s.confirmTimerExpire n d).pending = s.pending := by
  unfold confirmTimerExpire
  try dsimp only
  (repeat' split) <;> simp

@[simp] theorem taskTimerExpire_frame (s : State) (d : Side) :
    (s.taskTimerExpire d).tb = s.tb ∧ (s.taskTimerExpire d).ot = s.ot ∧ (s.taskTimerExpire d).pln = s.pln ∧
    (s.taskTimerExpire d).ilk = s.ilk ∧ (s.taskTimerExpire d).dru.vals = s.dru.vals ∧
    (s.taskTimerExpire d).ofu = s.ofu ∧ (s.taskTimerExpire d).qnu = s.qnu ∧ (s.taskTimerExpire d).trm = s.trm ∧
    (s.taskTimerExpire d).lnk.sup.port = s.lnk.sup.port ∧ (s.taskTimerExpire d).lnk.sup.answers = s.lnk.sup.answers ∧
    (s.taskTimerExpire d).lnk.sup.sending = s.lnk.sup.sending ∧ (s.taskTimerExpire d).lnk.sup.line = s.lnk.sup.line ∧
    (∀ j, (((s.taskTimerExpire d)).lnk.mach.get j).port = (s.lnk.mach.get j).port) ∧
    (∀ j, (((s.taskTimerExpire d)).lnk.mach.get j).test = (s.lnk.mach.get j).test) ∧
    (s.taskTimerExpire d).cfg = s.cfg ∧ (s.taskTimerExpire d).pending = s.pending := by
  unfold taskTimerExpire
  try dsimp only
  (repeat' split) <;> simp

@[simp] theorem visitTimerExpire_frame (s : State) (d : Side) :
    (s.visitTimerExpire d).tb = s.tb ∧ (s.visitTimerExpire d).ot = s.ot ∧ (s.visitTimerExpire d).pln = s.pln ∧
    (s.visitTimerExpire d).ilk = s.ilk ∧ (s.visitTimerExpire d).dru.doors = s.dru.doors ∧
    (s.visitTimerExpire d).dru.vals = s.dru.vals ∧ (s.visitTimerExpire d).ofu = s.ofu ∧
    (s.visitTimerExpire d).qnu = s.qnu ∧ (s.visitTimerExpire d).trm = s.trm ∧
    (s.visitTimerExpire d).lnk.sup.port = s.lnk.sup.port ∧
    (s.visitTimerExpire d).lnk.sup.answers = s.lnk.sup.answers ∧
    (s.visitTimerExpire d).lnk.sup.sending = s.lnk.sup.sending ∧
    (s.visitTimerExpire d).lnk.sup.line = s.lnk.sup.line ∧
    (∀ j, (((s.visitTimerExpire d)).lnk.mach.get j).port = (s.lnk.mach.get j).port) ∧
    (∀ j, (((s.visitTimerExpire d)).lnk.mach.get j).test = (s.lnk.mach.get j).test) ∧
    (s.visitTimerExpire d).cfg = s.cfg ∧ (s.visitTimerExpire d).pending = s.pending := by
  unfold visitTimerExpire
  try dsimp only
  (repeat' split) <;> simp

@[simp] theorem isolateExpire_frame (s : State) :
    s.isolateExpire.tb = s.tb ∧ s.isolateExpire.ot = s.ot ∧ s.isolateExpire.pln = s.pln ∧
    s.isolateExpire.ilk = s.ilk ∧ s.isolateExpire.dru = s.dru ∧ s.isolateExpire.ofu.sections = s.ofu.sections ∧
    s.isolateExpire.ofu.gates = s.ofu.gates ∧ s.isolateExpire.ofu.valves = s.ofu.valves ∧
    s.isolateExpire.ofu.charges = s.ofu.charges ∧ s.isolateExpire.qnu = s.qnu ∧ s.isolateExpire.trm = s.trm ∧
    s.isolateExpire.lnk.sup.port = s.lnk.sup.port ∧ s.isolateExpire.lnk.sup.answers = s.lnk.sup.answers ∧
    s.isolateExpire.lnk.sup.sending = s.lnk.sup.sending ∧ s.isolateExpire.lnk.sup.line = s.lnk.sup.line ∧
    (∀ j, ((s.isolateExpire).lnk.mach.get j).port = (s.lnk.mach.get j).port) ∧
    (∀ j, ((s.isolateExpire).lnk.mach.get j).test = (s.lnk.mach.get j).test) ∧ s.isolateExpire.cfg = s.cfg ∧
    s.isolateExpire.pending = s.pending := by
  unfold isolateExpire
  try dsimp only
  (repeat' split) <;> simp

@[simp] theorem valveTimerExpire_frame (s : State) :
    s.valveTimerExpire.tb = s.tb ∧ s.valveTimerExpire.ot = s.ot ∧ s.valveTimerExpire.pln = s.pln ∧
    s.valveTimerExpire.ilk = s.ilk ∧ s.valveTimerExpire.dru = s.dru ∧
    s.valveTimerExpire.ofu.sections = s.ofu.sections ∧ s.valveTimerExpire.ofu.gates = s.ofu.gates ∧
    s.valveTimerExpire.ofu.valves = s.ofu.valves ∧ s.valveTimerExpire.ofu.heldOffers = s.ofu.heldOffers ∧
    s.valveTimerExpire.ofu.iso = s.ofu.iso ∧ s.valveTimerExpire.ofu.charges = s.ofu.charges ∧
    s.valveTimerExpire.qnu = s.qnu ∧ s.valveTimerExpire.trm = s.trm ∧
    s.valveTimerExpire.lnk.sup.port = s.lnk.sup.port ∧ s.valveTimerExpire.lnk.sup.answers = s.lnk.sup.answers ∧
    s.valveTimerExpire.lnk.sup.sending = s.lnk.sup.sending ∧ s.valveTimerExpire.lnk.sup.line = s.lnk.sup.line ∧
    (∀ j, ((s.valveTimerExpire).lnk.mach.get j).port = (s.lnk.mach.get j).port) ∧
    (∀ j, ((s.valveTimerExpire).lnk.mach.get j).test = (s.lnk.mach.get j).test) ∧ s.valveTimerExpire.cfg = s.cfg ∧
    s.valveTimerExpire.pending = s.pending := by
  unfold valveTimerExpire
  try dsimp only
  (repeat' split) <;> simp

@[simp] theorem chargeTimerExpire_frame (s : State) (n : Nat) :
    (s.chargeTimerExpire n).tb = s.tb ∧ (s.chargeTimerExpire n).ot = s.ot ∧ (s.chargeTimerExpire n).pln = s.pln ∧
    (s.chargeTimerExpire n).ilk = s.ilk ∧ (s.chargeTimerExpire n).dru = s.dru ∧
    (s.chargeTimerExpire n).ofu.sections = s.ofu.sections ∧ (s.chargeTimerExpire n).ofu.gates = s.ofu.gates ∧
    (s.chargeTimerExpire n).ofu.valves = s.ofu.valves ∧ (s.chargeTimerExpire n).ofu.queue = s.ofu.queue ∧
    (s.chargeTimerExpire n).ofu.heldOffers = s.ofu.heldOffers ∧ (s.chargeTimerExpire n).ofu.iso = s.ofu.iso ∧
    (s.chargeTimerExpire n).qnu = s.qnu ∧ (s.chargeTimerExpire n).trm = s.trm ∧
    (s.chargeTimerExpire n).lnk.sup.port = s.lnk.sup.port ∧
    (s.chargeTimerExpire n).lnk.sup.answers = s.lnk.sup.answers ∧
    (s.chargeTimerExpire n).lnk.sup.sending = s.lnk.sup.sending ∧
    (s.chargeTimerExpire n).lnk.sup.line = s.lnk.sup.line ∧ (s.chargeTimerExpire n).lnk.mach = s.lnk.mach ∧
    (s.chargeTimerExpire n).cfg = s.cfg ∧ (s.chargeTimerExpire n).pending = s.pending := by
  unfold chargeTimerExpire
  try dsimp only
  (repeat' split) <;> simp

@[simp] theorem moveTimerExpire_frame (s : State) :
    s.moveTimerExpire.tb = s.tb ∧ s.moveTimerExpire.ot = s.ot ∧ s.moveTimerExpire.pln = s.pln ∧
    s.moveTimerExpire.ilk = s.ilk ∧ s.moveTimerExpire.dru = s.dru ∧ s.moveTimerExpire.ofu = s.ofu ∧
    s.moveTimerExpire.qnu.blocked = s.qnu.blocked ∧ s.moveTimerExpire.qnu.load = s.qnu.load ∧
    s.moveTimerExpire.qnu.phase = s.qnu.phase ∧ s.moveTimerExpire.qnu.bays = s.qnu.bays ∧
    s.moveTimerExpire.qnu.free = s.qnu.free ∧ s.moveTimerExpire.qnu.discharge = s.qnu.discharge ∧
    s.moveTimerExpire.qnu.vals = s.qnu.vals ∧ s.moveTimerExpire.trm = s.trm ∧
    s.moveTimerExpire.lnk.sup.port = s.lnk.sup.port ∧ s.moveTimerExpire.lnk.sup.answers = s.lnk.sup.answers ∧
    s.moveTimerExpire.lnk.sup.sending = s.lnk.sup.sending ∧ s.moveTimerExpire.lnk.sup.line = s.lnk.sup.line ∧
    s.moveTimerExpire.lnk.mach = s.lnk.mach ∧ s.moveTimerExpire.cfg = s.cfg ∧
    s.moveTimerExpire.pending = s.pending := by
  unfold moveTimerExpire
  try dsimp only
  (repeat' split) <;> simp

@[simp] theorem updLoad_frame (s : State) (f : LoadRec → LoadRec) :
    (s.updLoad f).tb = s.tb ∧ (s.updLoad f).ot = s.ot ∧ (s.updLoad f).pln = s.pln ∧ (s.updLoad f).ilk = s.ilk ∧
    (s.updLoad f).dru = s.dru ∧ (s.updLoad f).ofu = s.ofu ∧ (s.updLoad f).qnu.car = s.qnu.car ∧
    (s.updLoad f).qnu.blocked = s.qnu.blocked ∧ (s.updLoad f).qnu.phase = s.qnu.phase ∧
    (s.updLoad f).qnu.bays = s.qnu.bays ∧ (s.updLoad f).qnu.free = s.qnu.free ∧
    (s.updLoad f).qnu.discharge = s.qnu.discharge ∧ (s.updLoad f).qnu.vals = s.qnu.vals ∧ (s.updLoad f).trm = s.trm ∧
    (s.updLoad f).lnk = s.lnk ∧ (s.updLoad f).cfg = s.cfg ∧ (s.updLoad f).pending = s.pending := by
  unfold updLoad
  try dsimp only
  (repeat' split) <;> simp

@[simp] theorem hotTimerExpire_frame (s : State) :
    s.hotTimerExpire.tb = s.tb ∧ s.hotTimerExpire.ot = s.ot ∧ s.hotTimerExpire.pln = s.pln ∧
    s.hotTimerExpire.ilk = s.ilk ∧ s.hotTimerExpire.dru = s.dru ∧ s.hotTimerExpire.ofu = s.ofu ∧
    s.hotTimerExpire.qnu.car = s.qnu.car ∧ s.hotTimerExpire.qnu.blocked = s.qnu.blocked ∧
    s.hotTimerExpire.qnu.phase = s.qnu.phase ∧ s.hotTimerExpire.qnu.bays = s.qnu.bays ∧
    s.hotTimerExpire.qnu.free = s.qnu.free ∧ s.hotTimerExpire.qnu.discharge = s.qnu.discharge ∧
    s.hotTimerExpire.qnu.vals = s.qnu.vals ∧ s.hotTimerExpire.trm = s.trm ∧
    s.hotTimerExpire.lnk.sup.port = s.lnk.sup.port ∧ s.hotTimerExpire.lnk.sup.answers = s.lnk.sup.answers ∧
    s.hotTimerExpire.lnk.sup.sending = s.lnk.sup.sending ∧ s.hotTimerExpire.lnk.sup.line = s.lnk.sup.line ∧
    s.hotTimerExpire.lnk.mach = s.lnk.mach ∧ s.hotTimerExpire.cfg = s.cfg ∧ s.hotTimerExpire.pending = s.pending := by
  unfold hotTimerExpire
  try dsimp only
  (repeat' split) <;> simp

@[simp] theorem setPhase_frame (s : State) (t : Option Nat) :
    (s.setPhase t).tb = s.tb ∧ (s.setPhase t).ot = s.ot ∧ (s.setPhase t).pln = s.pln ∧ (s.setPhase t).ilk = s.ilk ∧
    (s.setPhase t).dru = s.dru ∧ (s.setPhase t).ofu = s.ofu ∧ (s.setPhase t).qnu.car = s.qnu.car ∧
    (s.setPhase t).qnu.blocked = s.qnu.blocked ∧ (s.setPhase t).qnu.load = s.qnu.load ∧
    (s.setPhase t).qnu.bays = s.qnu.bays ∧ (s.setPhase t).qnu.free = s.qnu.free ∧
    (s.setPhase t).qnu.discharge = s.qnu.discharge ∧ (s.setPhase t).qnu.vals = s.qnu.vals ∧
    (s.setPhase t).trm = s.trm ∧ (s.setPhase t).lnk = s.lnk ∧ (s.setPhase t).cfg = s.cfg ∧
    (s.setPhase t).pending = s.pending := by
  unfold setPhase
  try dsimp only
  (repeat' split) <;> simp

@[simp] theorem sprayExpire_frame (s : State) :
    s.sprayExpire.tb = s.tb ∧ s.sprayExpire.ot = s.ot ∧ s.sprayExpire.pln = s.pln ∧
    s.sprayExpire.ilk.machines = s.ilk.machines ∧ s.sprayExpire.ilk.stop = s.ilk.stop ∧
    s.sprayExpire.ilk.holdCause = s.ilk.holdCause ∧ s.sprayExpire.ilk.lastRam = s.ilk.lastRam ∧
    s.sprayExpire.dru.doors = s.dru.doors ∧ s.sprayExpire.dru.vals = s.dru.vals ∧
    s.sprayExpire.ofu.sections = s.ofu.sections ∧ s.sprayExpire.ofu.gates = s.ofu.gates ∧
    s.sprayExpire.ofu.valves = s.ofu.valves ∧ s.sprayExpire.ofu.heldOffers = s.ofu.heldOffers ∧
    s.sprayExpire.ofu.iso = s.ofu.iso ∧ s.sprayExpire.ofu.charges = s.ofu.charges ∧
    s.sprayExpire.qnu.blocked = s.qnu.blocked ∧ s.sprayExpire.qnu.bays = s.qnu.bays ∧
    s.sprayExpire.qnu.free = s.qnu.free ∧ s.sprayExpire.qnu.discharge = s.qnu.discharge ∧
    s.sprayExpire.qnu.vals = s.qnu.vals ∧ s.sprayExpire.trm = s.trm ∧ s.sprayExpire.lnk.sup.port = s.lnk.sup.port ∧
    s.sprayExpire.lnk.sup.answers = s.lnk.sup.answers ∧ s.sprayExpire.lnk.sup.sending = s.lnk.sup.sending ∧
    s.sprayExpire.lnk.sup.line = s.lnk.sup.line ∧
    (∀ j, ((s.sprayExpire).lnk.mach.get j).port = (s.lnk.mach.get j).port) ∧
    (∀ j, ((s.sprayExpire).lnk.mach.get j).test = (s.lnk.mach.get j).test) ∧ s.sprayExpire.cfg = s.cfg ∧
    s.sprayExpire.pending = s.pending := by
  unfold sprayExpire
  try dsimp only
  (repeat' split) <;> simp

@[simp] theorem drainExpire_frame (s : State) :
    s.drainExpire.tb = s.tb ∧ s.drainExpire.ot = s.ot ∧ s.drainExpire.pln = s.pln ∧
    s.drainExpire.ilk.machines = s.ilk.machines ∧ s.drainExpire.ilk.stop = s.ilk.stop ∧
    s.drainExpire.ilk.holdCause = s.ilk.holdCause ∧ s.drainExpire.ilk.lastRam = s.ilk.lastRam ∧
    s.drainExpire.dru.doors = s.dru.doors ∧ s.drainExpire.dru.vals = s.dru.vals ∧
    s.drainExpire.ofu.sections = s.ofu.sections ∧ s.drainExpire.ofu.gates = s.ofu.gates ∧
    s.drainExpire.ofu.valves = s.ofu.valves ∧ s.drainExpire.ofu.heldOffers = s.ofu.heldOffers ∧
    s.drainExpire.ofu.iso = s.ofu.iso ∧ s.drainExpire.ofu.charges = s.ofu.charges ∧
    s.drainExpire.qnu.blocked = s.qnu.blocked ∧ s.drainExpire.qnu.discharge = s.qnu.discharge ∧
    s.drainExpire.qnu.vals = s.qnu.vals ∧ s.drainExpire.trm = s.trm ∧ s.drainExpire.lnk.sup.port = s.lnk.sup.port ∧
    s.drainExpire.lnk.sup.answers = s.lnk.sup.answers ∧ s.drainExpire.lnk.sup.sending = s.lnk.sup.sending ∧
    s.drainExpire.lnk.sup.line = s.lnk.sup.line ∧
    (∀ j, ((s.drainExpire).lnk.mach.get j).port = (s.lnk.mach.get j).port) ∧
    (∀ j, ((s.drainExpire).lnk.mach.get j).test = (s.lnk.mach.get j).test) ∧ s.drainExpire.cfg = s.cfg ∧
    s.drainExpire.pending = s.pending := by
  unfold drainExpire
  try dsimp only
  (repeat' split) <;> simp

@[simp] theorem coolExpire_frame (s : State) (b : Nat) :
    (s.coolExpire b).tb = s.tb ∧ (s.coolExpire b).ot = s.ot ∧ (s.coolExpire b).pln = s.pln ∧
    (s.coolExpire b).ilk = s.ilk ∧ (s.coolExpire b).dru = s.dru ∧ (s.coolExpire b).ofu = s.ofu ∧
    (s.coolExpire b).qnu.car = s.qnu.car ∧ (s.coolExpire b).qnu.blocked = s.qnu.blocked ∧
    (s.coolExpire b).qnu.load = s.qnu.load ∧ (s.coolExpire b).qnu.phase = s.qnu.phase ∧
    (s.coolExpire b).qnu.free = s.qnu.free ∧ (s.coolExpire b).qnu.vals = s.qnu.vals ∧ (s.coolExpire b).trm = s.trm ∧
    (s.coolExpire b).lnk = s.lnk ∧ (s.coolExpire b).cfg = s.cfg ∧ (s.coolExpire b).pending = s.pending := by
  unfold coolExpire
  try dsimp only
  (repeat' split) <;> simp

@[simp] theorem gateExpire_frame (s : State) :
    s.gateExpire.tb = s.tb ∧ s.gateExpire.ot = s.ot ∧ s.gateExpire.pln = s.pln ∧
    s.gateExpire.ilk.machines = s.ilk.machines ∧ s.gateExpire.ilk.stop = s.ilk.stop ∧
    s.gateExpire.ilk.holdCause = s.ilk.holdCause ∧ s.gateExpire.ilk.lastRam = s.ilk.lastRam ∧
    s.gateExpire.dru.doors = s.dru.doors ∧ s.gateExpire.dru.vals = s.dru.vals ∧
    s.gateExpire.ofu.sections = s.ofu.sections ∧ s.gateExpire.ofu.gates = s.ofu.gates ∧
    s.gateExpire.ofu.valves = s.ofu.valves ∧ s.gateExpire.ofu.heldOffers = s.ofu.heldOffers ∧
    s.gateExpire.ofu.iso = s.ofu.iso ∧ s.gateExpire.ofu.charges = s.ofu.charges ∧
    s.gateExpire.qnu.blocked = s.qnu.blocked ∧ s.gateExpire.qnu.phase = s.qnu.phase ∧
    s.gateExpire.qnu.vals = s.qnu.vals ∧ s.gateExpire.trm = s.trm ∧ s.gateExpire.lnk.sup.port = s.lnk.sup.port ∧
    s.gateExpire.lnk.sup.answers = s.lnk.sup.answers ∧ s.gateExpire.lnk.sup.sending = s.lnk.sup.sending ∧
    s.gateExpire.lnk.sup.line = s.lnk.sup.line ∧
    (∀ j, ((s.gateExpire).lnk.mach.get j).port = (s.lnk.mach.get j).port) ∧
    (∀ j, ((s.gateExpire).lnk.mach.get j).test = (s.lnk.mach.get j).test) ∧ s.gateExpire.cfg = s.cfg ∧
    s.gateExpire.pending = s.pending := by
  unfold gateExpire
  try dsimp only
  (repeat' split) <;> simp

@[simp] theorem reject_frame (s : State) (m : MachineId) (rep : ReportName) (oven : Option Nat) :
    (s.reject m rep oven).tb = s.tb ∧ (s.reject m rep oven).ot = s.ot ∧ (s.reject m rep oven).pln = s.pln ∧
    (s.reject m rep oven).ilk = s.ilk ∧ (s.reject m rep oven).dru = s.dru ∧ (s.reject m rep oven).ofu = s.ofu ∧
    (s.reject m rep oven).qnu = s.qnu ∧ (s.reject m rep oven).trm = s.trm ∧
    (s.reject m rep oven).lnk.sup.port = s.lnk.sup.port ∧ (s.reject m rep oven).lnk.sup.answers = s.lnk.sup.answers ∧
    (s.reject m rep oven).lnk.sup.sending = s.lnk.sup.sending ∧ (s.reject m rep oven).lnk.sup.line = s.lnk.sup.line ∧
    (s.reject m rep oven).lnk.mach = s.lnk.mach ∧ (s.reject m rep oven).cfg = s.cfg ∧
    (s.reject m rep oven).pending = s.pending := by
  unfold reject
  try dsimp only
  (repeat' split) <;> simp

@[simp] theorem doorOffCovered_frame (s : State) (m : MachineId) (d : Side) (n : Nat) :
    (s.doorOffCovered m d n).tb = s.tb ∧ (s.doorOffCovered m d n).ilk.machines = s.ilk.machines ∧
    (s.doorOffCovered m d n).ilk.stop = s.ilk.stop ∧ (s.doorOffCovered m d n).ilk.holdCause = s.ilk.holdCause ∧
    (s.doorOffCovered m d n).ilk.lastRam = s.ilk.lastRam ∧ (s.doorOffCovered m d n).dru.vals = s.dru.vals ∧
    (s.doorOffCovered m d n).ofu.sections = s.ofu.sections ∧ (s.doorOffCovered m d n).ofu.gates = s.ofu.gates ∧
    (s.doorOffCovered m d n).ofu.valves = s.ofu.valves ∧ (s.doorOffCovered m d n).ofu.charges = s.ofu.charges ∧
    (s.doorOffCovered m d n).qnu.blocked = s.qnu.blocked ∧ (s.doorOffCovered m d n).qnu.load = s.qnu.load ∧
    (s.doorOffCovered m d n).qnu.phase = s.qnu.phase ∧ (s.doorOffCovered m d n).qnu.bays = s.qnu.bays ∧
    (s.doorOffCovered m d n).qnu.free = s.qnu.free ∧ (s.doorOffCovered m d n).qnu.discharge = s.qnu.discharge ∧
    (s.doorOffCovered m d n).qnu.vals = s.qnu.vals ∧ (s.doorOffCovered m d n).trm = s.trm ∧
    (s.doorOffCovered m d n).lnk.sup.port = s.lnk.sup.port ∧
    (s.doorOffCovered m d n).lnk.sup.answers = s.lnk.sup.answers ∧
    (s.doorOffCovered m d n).lnk.sup.sending = s.lnk.sup.sending ∧
    (s.doorOffCovered m d n).lnk.sup.line = s.lnk.sup.line ∧
    (∀ j, (((s.doorOffCovered m d n)).lnk.mach.get j).port = (s.lnk.mach.get j).port) ∧
    (∀ j, (((s.doorOffCovered m d n)).lnk.mach.get j).test = (s.lnk.mach.get j).test) ∧
    (s.doorOffCovered m d n).cfg = s.cfg ∧ (s.doorOffCovered m d n).pending = s.pending := by
  unfold doorOffCovered
  try dsimp only
  (repeat' split) <;> simp

@[simp] theorem doorOffBreach_frame (s : State) (m : MachineId) (d : Side) (n : Nat) :
    (s.doorOffBreach m d n).tb = s.tb ∧ (s.doorOffBreach m d n).ilk.machines = s.ilk.machines ∧
    (s.doorOffBreach m d n).ilk.stop = s.ilk.stop ∧ (s.doorOffBreach m d n).ilk.lastRam = s.ilk.lastRam ∧
    (s.doorOffBreach m d n).dru.vals = s.dru.vals ∧ (s.doorOffBreach m d n).ofu.sections = s.ofu.sections ∧
    (s.doorOffBreach m d n).ofu.gates = s.ofu.gates ∧ (s.doorOffBreach m d n).ofu.valves = s.ofu.valves ∧
    (s.doorOffBreach m d n).ofu.charges = s.ofu.charges ∧ (s.doorOffBreach m d n).qnu.blocked = s.qnu.blocked ∧
    (s.doorOffBreach m d n).qnu.load = s.qnu.load ∧ (s.doorOffBreach m d n).qnu.phase = s.qnu.phase ∧
    (s.doorOffBreach m d n).qnu.bays = s.qnu.bays ∧ (s.doorOffBreach m d n).qnu.free = s.qnu.free ∧
    (s.doorOffBreach m d n).qnu.discharge = s.qnu.discharge ∧ (s.doorOffBreach m d n).qnu.vals = s.qnu.vals ∧
    (s.doorOffBreach m d n).trm = s.trm ∧ (s.doorOffBreach m d n).lnk.sup.port = s.lnk.sup.port ∧
    (s.doorOffBreach m d n).lnk.sup.answers = s.lnk.sup.answers ∧
    (s.doorOffBreach m d n).lnk.sup.sending = s.lnk.sup.sending ∧
    (s.doorOffBreach m d n).lnk.sup.line = s.lnk.sup.line ∧
    (∀ j, (((s.doorOffBreach m d n)).lnk.mach.get j).port = (s.lnk.mach.get j).port) ∧
    (∀ j, (((s.doorOffBreach m d n)).lnk.mach.get j).test = (s.lnk.mach.get j).test) ∧
    (s.doorOffBreach m d n).cfg = s.cfg ∧ (s.doorOffBreach m d n).pending = s.pending := by
  unfold doorOffBreach
  try dsimp only
  (repeat' split) <;> simp

@[simp] theorem takeDoorOff_frame (s : State) (m : MachineId) (d : Side) (n : Nat) :
    (s.takeDoorOff m d n).tb = s.tb ∧ (s.takeDoorOff m d n).ilk.machines = s.ilk.machines ∧
    (s.takeDoorOff m d n).ilk.stop = s.ilk.stop ∧ (s.takeDoorOff m d n).ilk.lastRam = s.ilk.lastRam ∧
    (s.takeDoorOff m d n).dru.vals = s.dru.vals ∧ (s.takeDoorOff m d n).ofu.sections = s.ofu.sections ∧
    (s.takeDoorOff m d n).ofu.gates = s.ofu.gates ∧ (s.takeDoorOff m d n).ofu.valves = s.ofu.valves ∧
    (s.takeDoorOff m d n).ofu.charges = s.ofu.charges ∧ (s.takeDoorOff m d n).qnu.blocked = s.qnu.blocked ∧
    (s.takeDoorOff m d n).qnu.load = s.qnu.load ∧ (s.takeDoorOff m d n).qnu.phase = s.qnu.phase ∧
    (s.takeDoorOff m d n).qnu.bays = s.qnu.bays ∧ (s.takeDoorOff m d n).qnu.free = s.qnu.free ∧
    (s.takeDoorOff m d n).qnu.discharge = s.qnu.discharge ∧ (s.takeDoorOff m d n).qnu.vals = s.qnu.vals ∧
    (s.takeDoorOff m d n).trm = s.trm ∧ (s.takeDoorOff m d n).lnk.sup.port = s.lnk.sup.port ∧
    (s.takeDoorOff m d n).lnk.sup.answers = s.lnk.sup.answers ∧
    (s.takeDoorOff m d n).lnk.sup.sending = s.lnk.sup.sending ∧ (s.takeDoorOff m d n).lnk.sup.line = s.lnk.sup.line ∧
    (∀ j, (((s.takeDoorOff m d n)).lnk.mach.get j).port = (s.lnk.mach.get j).port) ∧
    (∀ j, (((s.takeDoorOff m d n)).lnk.mach.get j).test = (s.lnk.mach.get j).test) ∧
    (s.takeDoorOff m d n).cfg = s.cfg ∧ (s.takeDoorOff m d n).pending = s.pending := by
  unfold takeDoorOff
  split <;> simp

@[simp] theorem takeDoorOn_frame (s : State) (d : Side) (n : Nat) :
    (s.takeDoorOn d n).tb = s.tb ∧ (s.takeDoorOn d n).ilk.machines = s.ilk.machines ∧
    (s.takeDoorOn d n).ilk.stop = s.ilk.stop ∧ (s.takeDoorOn d n).ilk.holdCause = s.ilk.holdCause ∧
    (s.takeDoorOn d n).ilk.lastRam = s.ilk.lastRam ∧ (s.takeDoorOn d n).dru.vals = s.dru.vals ∧
    (s.takeDoorOn d n).ofu.sections = s.ofu.sections ∧ (s.takeDoorOn d n).ofu.gates = s.ofu.gates ∧
    (s.takeDoorOn d n).ofu.valves = s.ofu.valves ∧ (s.takeDoorOn d n).ofu.charges = s.ofu.charges ∧
    (s.takeDoorOn d n).qnu.blocked = s.qnu.blocked ∧ (s.takeDoorOn d n).qnu.load = s.qnu.load ∧
    (s.takeDoorOn d n).qnu.phase = s.qnu.phase ∧ (s.takeDoorOn d n).qnu.bays = s.qnu.bays ∧
    (s.takeDoorOn d n).qnu.free = s.qnu.free ∧ (s.takeDoorOn d n).qnu.discharge = s.qnu.discharge ∧
    (s.takeDoorOn d n).qnu.vals = s.qnu.vals ∧ (s.takeDoorOn d n).trm = s.trm ∧
    (s.takeDoorOn d n).lnk.sup.port = s.lnk.sup.port ∧ (s.takeDoorOn d n).lnk.sup.answers = s.lnk.sup.answers ∧
    (s.takeDoorOn d n).lnk.sup.sending = s.lnk.sup.sending ∧ (s.takeDoorOn d n).lnk.sup.line = s.lnk.sup.line ∧
    (∀ j, (((s.takeDoorOn d n)).lnk.mach.get j).port = (s.lnk.mach.get j).port) ∧
    (∀ j, (((s.takeDoorOn d n)).lnk.mach.get j).test = (s.lnk.mach.get j).test) ∧ (s.takeDoorOn d n).cfg = s.cfg ∧
    (s.takeDoorOn d n).pending = s.pending := by
  have h := doorOnFact_frame s n d
  unfold takeDoorOn
  split <;> rename_i e <;> rw [e] at h <;> simp_all

@[simp] theorem ramStartCovered_frame (s : State) (n : Nat) :
    (s.ramStartCovered n).tb = s.tb ∧ (s.ramStartCovered n).ot = s.ot ∧ (s.ramStartCovered n).ilk.stop = s.ilk.stop ∧
    (s.ramStartCovered n).ilk.holdCause = s.ilk.holdCause ∧ (s.ramStartCovered n).dru.doors = s.dru.doors ∧
    (s.ramStartCovered n).dru.vals = s.dru.vals ∧ (s.ramStartCovered n).ofu.sections = s.ofu.sections ∧
    (s.ramStartCovered n).ofu.gates = s.ofu.gates ∧ (s.ramStartCovered n).ofu.valves = s.ofu.valves ∧
    (s.ramStartCovered n).ofu.charges = s.ofu.charges ∧ (s.ramStartCovered n).qnu.blocked = s.qnu.blocked ∧
    (s.ramStartCovered n).qnu.load = s.qnu.load ∧ (s.ramStartCovered n).qnu.phase = s.qnu.phase ∧
    (s.ramStartCovered n).qnu.bays = s.qnu.bays ∧ (s.ramStartCovered n).qnu.free = s.qnu.free ∧
    (s.ramStartCovered n).qnu.discharge = s.qnu.discharge ∧ (s.ramStartCovered n).qnu.vals = s.qnu.vals ∧
    (s.ramStartCovered n).trm = s.trm ∧ (s.ramStartCovered n).lnk.sup.port = s.lnk.sup.port ∧
    (s.ramStartCovered n).lnk.sup.answers = s.lnk.sup.answers ∧
    (s.ramStartCovered n).lnk.sup.sending = s.lnk.sup.sending ∧ (s.ramStartCovered n).lnk.sup.line = s.lnk.sup.line ∧
    (∀ j, (((s.ramStartCovered n)).lnk.mach.get j).port = (s.lnk.mach.get j).port) ∧
    (∀ j, (((s.ramStartCovered n)).lnk.mach.get j).test = (s.lnk.mach.get j).test) ∧
    (s.ramStartCovered n).cfg = s.cfg ∧ (s.ramStartCovered n).pending = s.pending := by
  unfold ramStartCovered
  try dsimp only
  (repeat' split) <;> simp

@[simp] theorem ramStartBreach_frame (s : State) (n : Nat) :
    (s.ramStartBreach n).tb = s.tb ∧ (s.ramStartBreach n).ilk.stop = s.ilk.stop ∧
    (s.ramStartBreach n).dru.doors = s.dru.doors ∧ (s.ramStartBreach n).dru.vals = s.dru.vals ∧
    (s.ramStartBreach n).ofu.sections = s.ofu.sections ∧ (s.ramStartBreach n).ofu.gates = s.ofu.gates ∧
    (s.ramStartBreach n).ofu.valves = s.ofu.valves ∧ (s.ramStartBreach n).ofu.charges = s.ofu.charges ∧
    (s.ramStartBreach n).qnu.blocked = s.qnu.blocked ∧ (s.ramStartBreach n).qnu.load = s.qnu.load ∧
    (s.ramStartBreach n).qnu.phase = s.qnu.phase ∧ (s.ramStartBreach n).qnu.bays = s.qnu.bays ∧
    (s.ramStartBreach n).qnu.free = s.qnu.free ∧ (s.ramStartBreach n).qnu.discharge = s.qnu.discharge ∧
    (s.ramStartBreach n).qnu.vals = s.qnu.vals ∧ (s.ramStartBreach n).trm = s.trm ∧
    (s.ramStartBreach n).lnk.sup.port = s.lnk.sup.port ∧ (s.ramStartBreach n).lnk.sup.answers = s.lnk.sup.answers ∧
    (s.ramStartBreach n).lnk.sup.sending = s.lnk.sup.sending ∧ (s.ramStartBreach n).lnk.sup.line = s.lnk.sup.line ∧
    (∀ j, (((s.ramStartBreach n)).lnk.mach.get j).port = (s.lnk.mach.get j).port) ∧
    (∀ j, (((s.ramStartBreach n)).lnk.mach.get j).test = (s.lnk.mach.get j).test) ∧ (s.ramStartBreach n).cfg = s.cfg ∧
    (s.ramStartBreach n).pending = s.pending := by
  unfold ramStartBreach
  try dsimp only
  (repeat' split) <;> simp

@[simp] theorem takeRamStart_frame (s : State) (n : Nat) :
    (s.takeRamStart n).tb = s.tb ∧ (s.takeRamStart n).ilk.stop = s.ilk.stop ∧
    (s.takeRamStart n).dru.doors = s.dru.doors ∧ (s.takeRamStart n).dru.vals = s.dru.vals ∧
    (s.takeRamStart n).ofu.sections = s.ofu.sections ∧ (s.takeRamStart n).ofu.gates = s.ofu.gates ∧
    (s.takeRamStart n).ofu.valves = s.ofu.valves ∧ (s.takeRamStart n).ofu.charges = s.ofu.charges ∧
    (s.takeRamStart n).qnu.blocked = s.qnu.blocked ∧ (s.takeRamStart n).qnu.load = s.qnu.load ∧
    (s.takeRamStart n).qnu.phase = s.qnu.phase ∧ (s.takeRamStart n).qnu.bays = s.qnu.bays ∧
    (s.takeRamStart n).qnu.free = s.qnu.free ∧ (s.takeRamStart n).qnu.discharge = s.qnu.discharge ∧
    (s.takeRamStart n).qnu.vals = s.qnu.vals ∧ (s.takeRamStart n).trm = s.trm ∧
    (s.takeRamStart n).lnk.sup.port = s.lnk.sup.port ∧ (s.takeRamStart n).lnk.sup.answers = s.lnk.sup.answers ∧
    (s.takeRamStart n).lnk.sup.sending = s.lnk.sup.sending ∧ (s.takeRamStart n).lnk.sup.line = s.lnk.sup.line ∧
    (∀ j, (((s.takeRamStart n)).lnk.mach.get j).port = (s.lnk.mach.get j).port) ∧
    (∀ j, (((s.takeRamStart n)).lnk.mach.get j).test = (s.lnk.mach.get j).test) ∧ (s.takeRamStart n).cfg = s.cfg ∧
    (s.takeRamStart n).pending = s.pending := by
  unfold takeRamStart
  try dsimp only
  (repeat' split) <;> simp

@[simp] theorem ramSequence_frame (s : State) (n : Nat) (rep : ReportName) :
    (s.ramSequence n rep).tb = s.tb ∧ (s.ramSequence n rep).ot = s.ot ∧ (s.ramSequence n rep).pln = s.pln ∧
    (s.ramSequence n rep).ilk = s.ilk ∧ (s.ramSequence n rep).dru = s.dru ∧ (s.ramSequence n rep).ofu = s.ofu ∧
    (s.ramSequence n rep).qnu = s.qnu ∧ (s.ramSequence n rep).trm = s.trm ∧
    (s.ramSequence n rep).lnk.sup.port = s.lnk.sup.port ∧ (s.ramSequence n rep).lnk.sup.answers = s.lnk.sup.answers ∧
    (s.ramSequence n rep).lnk.sup.sending = s.lnk.sup.sending ∧ (s.ramSequence n rep).lnk.sup.line = s.lnk.sup.line ∧
    (s.ramSequence n rep).lnk.mach = s.lnk.mach ∧ (s.ramSequence n rep).cfg = s.cfg ∧
    (s.ramSequence n rep).pending = s.pending := by
  unfold ramSequence
  try dsimp only
  (repeat' split) <;> simp

@[simp] theorem takeRamAtEnd_frame (s : State) (n : Nat) :
    (s.takeRamAtEnd n).tb = s.tb ∧ (s.takeRamAtEnd n).ot = s.ot ∧ (s.takeRamAtEnd n).pln = s.pln ∧
    (s.takeRamAtEnd n).ilk.stop = s.ilk.stop ∧ (s.takeRamAtEnd n).ilk.holdCause = s.ilk.holdCause ∧
    (s.takeRamAtEnd n).ilk.lastRam = s.ilk.lastRam ∧ (s.takeRamAtEnd n).dru.doors = s.dru.doors ∧
    (s.takeRamAtEnd n).dru.vals = s.dru.vals ∧ (s.takeRamAtEnd n).ofu.sections = s.ofu.sections ∧
    (s.takeRamAtEnd n).ofu.gates = s.ofu.gates ∧ (s.takeRamAtEnd n).ofu.valves = s.ofu.valves ∧
    (s.takeRamAtEnd n).ofu.heldOffers = s.ofu.heldOffers ∧ (s.takeRamAtEnd n).ofu.iso = s.ofu.iso ∧
    (s.takeRamAtEnd n).ofu.charges = s.ofu.charges ∧ (s.takeRamAtEnd n).qnu.blocked = s.qnu.blocked ∧
    (s.takeRamAtEnd n).qnu.phase = s.qnu.phase ∧ (s.takeRamAtEnd n).qnu.bays = s.qnu.bays ∧
    (s.takeRamAtEnd n).qnu.free = s.qnu.free ∧ (s.takeRamAtEnd n).qnu.discharge = s.qnu.discharge ∧
    (s.takeRamAtEnd n).qnu.vals = s.qnu.vals ∧ (s.takeRamAtEnd n).trm = s.trm ∧
    (s.takeRamAtEnd n).lnk.sup.port = s.lnk.sup.port ∧ (s.takeRamAtEnd n).lnk.sup.answers = s.lnk.sup.answers ∧
    (s.takeRamAtEnd n).lnk.sup.sending = s.lnk.sup.sending ∧ (s.takeRamAtEnd n).lnk.sup.line = s.lnk.sup.line ∧
    (∀ j, (((s.takeRamAtEnd n)).lnk.mach.get j).port = (s.lnk.mach.get j).port) ∧
    (∀ j, (((s.takeRamAtEnd n)).lnk.mach.get j).test = (s.lnk.mach.get j).test) ∧ (s.takeRamAtEnd n).cfg = s.cfg ∧
    (s.takeRamAtEnd n).pending = s.pending := by
  unfold takeRamAtEnd
  try dsimp only
  (repeat' split) <;> simp

@[simp] theorem takeRamHome_frame (s : State) (n : Nat) :
    (s.takeRamHome n).tb = s.tb ∧ (s.takeRamHome n).ilk.stop = s.ilk.stop ∧
    (s.takeRamHome n).ilk.holdCause = s.ilk.holdCause ∧ (s.takeRamHome n).ilk.lastRam = s.ilk.lastRam ∧
    (s.takeRamHome n).dru.doors = s.dru.doors ∧ (s.takeRamHome n).dru.vals = s.dru.vals ∧
    (s.takeRamHome n).ofu.sections = s.ofu.sections ∧ (s.takeRamHome n).ofu.gates = s.ofu.gates ∧
    (s.takeRamHome n).ofu.valves = s.ofu.valves ∧ (s.takeRamHome n).ofu.charges = s.ofu.charges ∧
    (s.takeRamHome n).qnu.blocked = s.qnu.blocked ∧ (s.takeRamHome n).qnu.load = s.qnu.load ∧
    (s.takeRamHome n).qnu.phase = s.qnu.phase ∧ (s.takeRamHome n).qnu.bays = s.qnu.bays ∧
    (s.takeRamHome n).qnu.free = s.qnu.free ∧ (s.takeRamHome n).qnu.discharge = s.qnu.discharge ∧
    (s.takeRamHome n).qnu.vals = s.qnu.vals ∧ (s.takeRamHome n).trm = s.trm ∧
    (s.takeRamHome n).lnk.sup.port = s.lnk.sup.port ∧ (s.takeRamHome n).lnk.sup.answers = s.lnk.sup.answers ∧
    (s.takeRamHome n).lnk.sup.sending = s.lnk.sup.sending ∧ (s.takeRamHome n).lnk.sup.line = s.lnk.sup.line ∧
    (∀ j, (((s.takeRamHome n)).lnk.mach.get j).port = (s.lnk.mach.get j).port) ∧
    (∀ j, (((s.takeRamHome n)).lnk.mach.get j).test = (s.lnk.mach.get j).test) ∧ (s.takeRamHome n).cfg = s.cfg ∧
    (s.takeRamHome n).pending = s.pending := by
  unfold takeRamHome
  try dsimp only
  (repeat' split) <;> simp

@[simp] theorem takeChargeStart_frame (s : State) (n : Nat) :
    (s.takeChargeStart n).tb = s.tb ∧ (s.takeChargeStart n).ilk.machines = s.ilk.machines ∧
    (s.takeChargeStart n).ilk.stop = s.ilk.stop ∧ (s.takeChargeStart n).ilk.lastRam = s.ilk.lastRam ∧
    (s.takeChargeStart n).dru.doors = s.dru.doors ∧ (s.takeChargeStart n).dru.vals = s.dru.vals ∧
    (s.takeChargeStart n).ofu.sections = s.ofu.sections ∧ (s.takeChargeStart n).ofu.gates = s.ofu.gates ∧
    (s.takeChargeStart n).ofu.valves = s.ofu.valves ∧ (s.takeChargeStart n).qnu.blocked = s.qnu.blocked ∧
    (s.takeChargeStart n).qnu.load = s.qnu.load ∧ (s.takeChargeStart n).qnu.phase = s.qnu.phase ∧
    (s.takeChargeStart n).qnu.bays = s.qnu.bays ∧ (s.takeChargeStart n).qnu.free = s.qnu.free ∧
    (s.takeChargeStart n).qnu.discharge = s.qnu.discharge ∧ (s.takeChargeStart n).qnu.vals = s.qnu.vals ∧
    (s.takeChargeStart n).trm = s.trm ∧ (s.takeChargeStart n).lnk.sup.port = s.lnk.sup.port ∧
    (s.takeChargeStart n).lnk.sup.answers = s.lnk.sup.answers ∧
    (s.takeChargeStart n).lnk.sup.sending = s.lnk.sup.sending ∧ (s.takeChargeStart n).lnk.sup.line = s.lnk.sup.line ∧
    (∀ j, (((s.takeChargeStart n)).lnk.mach.get j).port = (s.lnk.mach.get j).port) ∧
    (∀ j, (((s.takeChargeStart n)).lnk.mach.get j).test = (s.lnk.mach.get j).test) ∧
    (s.takeChargeStart n).cfg = s.cfg ∧ (s.takeChargeStart n).pending = s.pending := by
  unfold takeChargeStart
  try dsimp only
  (repeat' split) <;> simp

@[simp] theorem takeDumpDone_frame (s : State) (b : Nat) :
    (s.takeDumpDone b).tb = s.tb ∧ (s.takeDumpDone b).ot = s.ot ∧ (s.takeDumpDone b).pln = s.pln ∧
    (s.takeDumpDone b).ilk.machines = s.ilk.machines ∧ (s.takeDumpDone b).ilk.stop = s.ilk.stop ∧
    (s.takeDumpDone b).ilk.holdCause = s.ilk.holdCause ∧ (s.takeDumpDone b).ilk.lastRam = s.ilk.lastRam ∧
    (s.takeDumpDone b).dru.doors = s.dru.doors ∧ (s.takeDumpDone b).dru.vals = s.dru.vals ∧
    (s.takeDumpDone b).ofu.sections = s.ofu.sections ∧ (s.takeDumpDone b).ofu.gates = s.ofu.gates ∧
    (s.takeDumpDone b).ofu.valves = s.ofu.valves ∧ (s.takeDumpDone b).ofu.heldOffers = s.ofu.heldOffers ∧
    (s.takeDumpDone b).ofu.iso = s.ofu.iso ∧ (s.takeDumpDone b).ofu.charges = s.ofu.charges ∧
    (s.takeDumpDone b).qnu.blocked = s.qnu.blocked ∧ (s.takeDumpDone b).qnu.phase = s.qnu.phase ∧
    (s.takeDumpDone b).qnu.free = s.qnu.free ∧ (s.takeDumpDone b).qnu.discharge = s.qnu.discharge ∧
    (s.takeDumpDone b).qnu.vals = s.qnu.vals ∧ (s.takeDumpDone b).trm = s.trm ∧
    (s.takeDumpDone b).lnk.sup.port = s.lnk.sup.port ∧ (s.takeDumpDone b).lnk.sup.answers = s.lnk.sup.answers ∧
    (s.takeDumpDone b).lnk.sup.sending = s.lnk.sup.sending ∧ (s.takeDumpDone b).lnk.sup.line = s.lnk.sup.line ∧
    (∀ j, (((s.takeDumpDone b)).lnk.mach.get j).port = (s.lnk.mach.get j).port) ∧
    (∀ j, (((s.takeDumpDone b)).lnk.mach.get j).test = (s.lnk.mach.get j).test) ∧ (s.takeDumpDone b).cfg = s.cfg ∧
    (s.takeDumpDone b).pending = s.pending := by
  unfold takeDumpDone
  try dsimp only
  (repeat' split) <;> simp

@[simp] theorem load_frame (s : State) (f : Loaded → Loaded) :
    (s.load f).tb = s.tb ∧ (s.load f).ot = s.ot ∧ (s.load f).pln = s.pln ∧ (s.load f).ilk = s.ilk ∧
    (s.load f).dru = s.dru ∧ (s.load f).ofu = s.ofu ∧ (s.load f).qnu = s.qnu ∧ (s.load f).trm = s.trm ∧
    (s.load f).lnk = s.lnk ∧ (s.load f).cfg.part = s.cfg.part ∧ (s.load f).cfg.timing = s.cfg.timing ∧
    (s.load f).pending = s.pending := by
  unfold load
  try dsimp only
  (repeat' split) <;> simp

@[simp] theorem newTables_frame (nOv k : Nat) (lasts : List Nat) (s : State) :
    (newTables nOv k lasts s).tb = s.tb ∧ (newTables nOv k lasts s).pln = s.pln ∧
    (newTables nOv k lasts s).ilk = s.ilk ∧ (newTables nOv k lasts s).dru.queues = s.dru.queues ∧
    (newTables nOv k lasts s).dru.rounds = s.dru.rounds ∧ (newTables nOv k lasts s).dru.vals = s.dru.vals ∧
    (newTables nOv k lasts s).ofu.gates = s.ofu.gates ∧ (newTables nOv k lasts s).ofu.queue = s.ofu.queue ∧
    (newTables nOv k lasts s).ofu.heldOffers = s.ofu.heldOffers ∧ (newTables nOv k lasts s).ofu.iso = s.ofu.iso ∧
    (newTables nOv k lasts s).ofu.charges = s.ofu.charges ∧ (newTables nOv k lasts s).qnu.blocked = s.qnu.blocked ∧
    (newTables nOv k lasts s).qnu.load = s.qnu.load ∧ (newTables nOv k lasts s).qnu.phase = s.qnu.phase ∧
    (newTables nOv k lasts s).qnu.bays = s.qnu.bays ∧ (newTables nOv k lasts s).qnu.free = s.qnu.free ∧
    (newTables nOv k lasts s).qnu.discharge = s.qnu.discharge ∧ (newTables nOv k lasts s).qnu.vals = s.qnu.vals ∧
    (newTables nOv k lasts s).trm = s.trm ∧ (newTables nOv k lasts s).lnk = s.lnk ∧
    (newTables nOv k lasts s).cfg = s.cfg ∧ (newTables nOv k lasts s).pending = s.pending := by
  unfold newTables
  try dsimp only
  (repeat' split) <;> simp

@[simp] theorem reload_frame (s : State) :
    s.reload.tb = s.tb ∧ s.reload.ot = s.ot ∧ s.reload.ilk.permits = s.ilk.permits ∧ s.reload.ilk.stop = s.ilk.stop ∧
    s.reload.ilk.holdCause = s.ilk.holdCause ∧ s.reload.ilk.push = s.ilk.push ∧ s.reload.dru.doors = s.dru.doors ∧
    s.reload.dru.queues = s.dru.queues ∧ s.reload.ofu = s.ofu ∧ s.reload.trm = s.trm ∧ s.reload.lnk = s.lnk ∧
    s.reload.cfg.part = s.cfg.part ∧ s.reload.pending = s.pending := by
  unfold reload
  try dsimp only
  (repeat' split) <;> simp

@[simp] theorem takeBattery_frame (nOv k : Nat) (lasts : List Nat) (s : State) :
    (takeBattery nOv k lasts s).tb = s.tb ∧ (takeBattery nOv k lasts s).ilk.permits = s.ilk.permits ∧
    (takeBattery nOv k lasts s).ilk.stop = s.ilk.stop ∧ (takeBattery nOv k lasts s).ilk.holdCause = s.ilk.holdCause ∧
    (takeBattery nOv k lasts s).ilk.push = s.ilk.push ∧ (takeBattery nOv k lasts s).dru.queues = s.dru.queues ∧
    (takeBattery nOv k lasts s).ofu.gates = s.ofu.gates ∧ (takeBattery nOv k lasts s).ofu.queue = s.ofu.queue ∧
    (takeBattery nOv k lasts s).ofu.heldOffers = s.ofu.heldOffers ∧ (takeBattery nOv k lasts s).ofu.iso = s.ofu.iso ∧
    (takeBattery nOv k lasts s).ofu.charges = s.ofu.charges ∧ (takeBattery nOv k lasts s).trm = s.trm ∧
    (takeBattery nOv k lasts s).lnk = s.lnk ∧ (takeBattery nOv k lasts s).cfg.part = s.cfg.part ∧
    (takeBattery nOv k lasts s).pending = s.pending := by
  unfold takeBattery
  try dsimp only
  (repeat' split) <;> simp

@[simp] theorem takeSeries_frame (p : SeriesParams) (start : Option Time32) (s : State) :
    (takeSeries p start s).tb = s.tb ∧ (takeSeries p start s).ot = s.ot ∧ (takeSeries p start s).ilk = s.ilk ∧
    (takeSeries p start s).dru = s.dru ∧ (takeSeries p start s).ofu = s.ofu ∧ (takeSeries p start s).qnu = s.qnu ∧
    (takeSeries p start s).trm = s.trm ∧ (takeSeries p start s).lnk = s.lnk ∧
    (takeSeries p start s).cfg.part = s.cfg.part ∧ (takeSeries p start s).cfg.timing = s.cfg.timing ∧
    (takeSeries p start s).pending = s.pending := by
  unfold takeSeries
  try dsimp only
  (repeat' split) <;> simp

@[simp] theorem takeTiming_frame (v : Timing) (s : State) :
    (takeTiming v s).tb = s.tb ∧ (takeTiming v s).ilk.machines = s.ilk.machines ∧
    (takeTiming v s).ilk.stop = s.ilk.stop ∧ (takeTiming v s).ilk.holdCause = s.ilk.holdCause ∧
    (takeTiming v s).ilk.lastRam = s.ilk.lastRam ∧ (takeTiming v s).dru.doors = s.dru.doors ∧
    (takeTiming v s).dru.vals = s.dru.vals ∧ (takeTiming v s).ofu.sections = s.ofu.sections ∧
    (takeTiming v s).ofu.gates = s.ofu.gates ∧ (takeTiming v s).ofu.valves = s.ofu.valves ∧
    (takeTiming v s).ofu.charges = s.ofu.charges ∧ (takeTiming v s).qnu.blocked = s.qnu.blocked ∧
    (takeTiming v s).qnu.load = s.qnu.load ∧ (takeTiming v s).qnu.phase = s.qnu.phase ∧
    (takeTiming v s).qnu.bays = s.qnu.bays ∧ (takeTiming v s).qnu.free = s.qnu.free ∧
    (takeTiming v s).qnu.discharge = s.qnu.discharge ∧ (takeTiming v s).qnu.vals = s.qnu.vals ∧
    (takeTiming v s).trm = s.trm ∧ (takeTiming v s).lnk.sup.port = s.lnk.sup.port ∧
    (takeTiming v s).lnk.sup.answers = s.lnk.sup.answers ∧ (takeTiming v s).lnk.sup.sending = s.lnk.sup.sending ∧
    (takeTiming v s).lnk.sup.line = s.lnk.sup.line ∧
    (∀ j, (((takeTiming v s)).lnk.mach.get j).port = (s.lnk.mach.get j).port) ∧
    (∀ j, (((takeTiming v s)).lnk.mach.get j).test = (s.lnk.mach.get j).test) ∧
    (takeTiming v s).cfg.part = s.cfg.part ∧ (takeTiming v s).pending = s.pending := by
  unfold takeTiming
  try dsimp only
  (repeat' split) <;> simp

@[simp] theorem takePressure_frame (k : Nat) (p : PressureParams) (s : State) :
    (takePressure k p s).tb = s.tb ∧ (takePressure k p s).ot = s.ot ∧ (takePressure k p s).pln = s.pln ∧
    (takePressure k p s).ilk = s.ilk ∧ (takePressure k p s).dru = s.dru ∧
    (takePressure k p s).ofu.gates = s.ofu.gates ∧ (takePressure k p s).ofu.valves = s.ofu.valves ∧
    (takePressure k p s).ofu.queue = s.ofu.queue ∧ (takePressure k p s).ofu.heldOffers = s.ofu.heldOffers ∧
    (takePressure k p s).ofu.iso = s.ofu.iso ∧ (takePressure k p s).ofu.charges = s.ofu.charges ∧
    (takePressure k p s).qnu = s.qnu ∧ (takePressure k p s).trm = s.trm ∧ (takePressure k p s).lnk = s.lnk ∧
    (takePressure k p s).cfg.part = s.cfg.part ∧ (takePressure k p s).cfg.timing = s.cfg.timing ∧
    (takePressure k p s).pending = s.pending := by
  unfold takePressure
  try dsimp only
  (repeat' split) <;> simp

@[simp] theorem takeWharf_frame (v : WharfVals) (s : State) :
    (takeWharf v s).1.tb = s.tb ∧ (takeWharf v s).1.ot = s.ot ∧ (takeWharf v s).1.pln = s.pln ∧
    (takeWharf v s).1.ilk = s.ilk ∧ (takeWharf v s).1.dru = s.dru ∧ (takeWharf v s).1.ofu = s.ofu ∧
    (takeWharf v s).1.qnu.car = s.qnu.car ∧ (takeWharf v s).1.qnu.blocked = s.qnu.blocked ∧
    (takeWharf v s).1.qnu.load = s.qnu.load ∧ (takeWharf v s).1.qnu.phase = s.qnu.phase ∧
    (takeWharf v s).1.trm = s.trm ∧ (takeWharf v s).1.lnk = s.lnk ∧ (takeWharf v s).1.cfg.part = s.cfg.part ∧
    (takeWharf v s).1.cfg.timing = s.cfg.timing ∧ (takeWharf v s).1.pending = s.pending := by
  unfold takeWharf
  try dsimp only
  (repeat' split) <;> simp

@[simp] theorem takeDoors_frame (v : DoorVals) (s : State) :
    (takeDoors v s).tb = s.tb ∧ (takeDoors v s).ot = s.ot ∧ (takeDoors v s).pln = s.pln ∧
    (takeDoors v s).ilk = s.ilk ∧ (takeDoors v s).dru.doors = s.dru.doors ∧
    (takeDoors v s).dru.queues = s.dru.queues ∧ (takeDoors v s).dru.rounds = s.dru.rounds ∧
    (takeDoors v s).ofu = s.ofu ∧ (takeDoors v s).qnu = s.qnu ∧ (takeDoors v s).trm = s.trm ∧
    (takeDoors v s).lnk = s.lnk ∧ (takeDoors v s).cfg.part = s.cfg.part ∧ (takeDoors v s).cfg.timing = s.cfg.timing ∧
    (takeDoors v s).pending = s.pending := by
  unfold takeDoors
  try dsimp only
  (repeat' split) <;> simp

@[simp] theorem takeTerminal_frame (t : Nat) (fn : TermFn) (invert : Bool) (drive : Drive) (edge : Edge) (s : State) :
    (takeTerminal t fn invert drive edge s).1.tb = s.tb ∧ (takeTerminal t fn invert drive edge s).1.pln = s.pln ∧
    (takeTerminal t fn invert drive edge s).1.ilk.machines = s.ilk.machines ∧
    (takeTerminal t fn invert drive edge s).1.ilk.lastRam = s.ilk.lastRam ∧
    (takeTerminal t fn invert drive edge s).1.dru.doors = s.dru.doors ∧
    (takeTerminal t fn invert drive edge s).1.dru.vals = s.dru.vals ∧
    (takeTerminal t fn invert drive edge s).1.ofu.sections = s.ofu.sections ∧
    (takeTerminal t fn invert drive edge s).1.ofu.valves = s.ofu.valves ∧
    (takeTerminal t fn invert drive edge s).1.ofu.heldOffers = s.ofu.heldOffers ∧
    (takeTerminal t fn invert drive edge s).1.ofu.iso = s.ofu.iso ∧
    (takeTerminal t fn invert drive edge s).1.ofu.charges = s.ofu.charges ∧
    (takeTerminal t fn invert drive edge s).1.qnu.blocked = s.qnu.blocked ∧
    (takeTerminal t fn invert drive edge s).1.qnu.load = s.qnu.load ∧
    (takeTerminal t fn invert drive edge s).1.qnu.phase = s.qnu.phase ∧
    (takeTerminal t fn invert drive edge s).1.qnu.free = s.qnu.free ∧
    (takeTerminal t fn invert drive edge s).1.qnu.discharge = s.qnu.discharge ∧
    (takeTerminal t fn invert drive edge s).1.qnu.vals = s.qnu.vals ∧
    (takeTerminal t fn invert drive edge s).1.lnk.sup.port = s.lnk.sup.port ∧
    (takeTerminal t fn invert drive edge s).1.lnk.sup.answers = s.lnk.sup.answers ∧
    (takeTerminal t fn invert drive edge s).1.lnk.sup.sending = s.lnk.sup.sending ∧
    (takeTerminal t fn invert drive edge s).1.lnk.sup.line = s.lnk.sup.line ∧
    (∀ j, (((takeTerminal t fn invert drive edge s).1).lnk.mach.get j).port = (s.lnk.mach.get j).port) ∧
    (∀ j, (((takeTerminal t fn invert drive edge s).1).lnk.mach.get j).test = (s.lnk.mach.get j).test) ∧
    (takeTerminal t fn invert drive edge s).1.cfg.part = s.cfg.part ∧
    (takeTerminal t fn invert drive edge s).1.cfg.timing = s.cfg.timing ∧
    (takeTerminal t fn invert drive edge s).1.pending = s.pending := by
  unfold takeTerminal
  try dsimp only
  (repeat' split) <;> simp

@[simp] theorem takeLink_frame (l : LinkId) (v : LineSettings) (s : State) :
    (takeLink l v s).1.tb = s.tb ∧ (takeLink l v s).1.ot = s.ot ∧ (takeLink l v s).1.pln = s.pln ∧
    (takeLink l v s).1.ilk = s.ilk ∧ (takeLink l v s).1.dru = s.dru ∧ (takeLink l v s).1.ofu = s.ofu ∧
    (takeLink l v s).1.qnu = s.qnu ∧ (takeLink l v s).1.trm = s.trm ∧ (takeLink l v s).1.lnk.sup = s.lnk.sup ∧
    (takeLink l v s).1.cfg.part = s.cfg.part ∧ (takeLink l v s).1.cfg.timing = s.cfg.timing ∧
    (takeLink l v s).1.pending = s.pending := by
  unfold takeLink
  try dsimp only
  (repeat' split) <;> simp

@[simp] theorem loadNotice_frame (s : State) (n : Nat) (d : Side) :
    (s.loadNotice n d).tb = s.tb ∧ (s.loadNotice n d).ot = s.ot ∧ (s.loadNotice n d).pln = s.pln ∧
    (s.loadNotice n d).ilk = s.ilk ∧ (s.loadNotice n d).dru = s.dru ∧ (s.loadNotice n d).ofu = s.ofu ∧
    (s.loadNotice n d).qnu = s.qnu ∧ (s.loadNotice n d).trm = s.trm ∧
    (s.loadNotice n d).lnk.sup.port = s.lnk.sup.port ∧ (s.loadNotice n d).lnk.sup.answers = s.lnk.sup.answers ∧
    (s.loadNotice n d).lnk.sup.sending = s.lnk.sup.sending ∧ (s.loadNotice n d).lnk.sup.line = s.lnk.sup.line ∧
    (s.loadNotice n d).lnk.mach = s.lnk.mach ∧ (s.loadNotice n d).cfg = s.cfg ∧
    (s.loadNotice n d).pending = s.pending := by
  unfold loadNotice
  try dsimp only
  (repeat' split) <;> simp

@[simp] theorem takeOvenLoad_frame (v : OvenLoad) (s : State) :
    (takeOvenLoad v s).tb = s.tb ∧ (takeOvenLoad v s).pln = s.pln ∧ (takeOvenLoad v s).ilk = s.ilk ∧
    (takeOvenLoad v s).dru.queues = s.dru.queues ∧ (takeOvenLoad v s).dru.rounds = s.dru.rounds ∧
    (takeOvenLoad v s).dru.vals = s.dru.vals ∧ (takeOvenLoad v s).ofu.sections = s.ofu.sections ∧
    (takeOvenLoad v s).ofu.gates = s.ofu.gates ∧ (takeOvenLoad v s).ofu.queue = s.ofu.queue ∧
    (takeOvenLoad v s).ofu.heldOffers = s.ofu.heldOffers ∧ (takeOvenLoad v s).ofu.iso = s.ofu.iso ∧
    (takeOvenLoad v s).ofu.charges = s.ofu.charges ∧ (takeOvenLoad v s).qnu = s.qnu ∧ (takeOvenLoad v s).trm = s.trm ∧
    (takeOvenLoad v s).lnk.sup.port = s.lnk.sup.port ∧ (takeOvenLoad v s).lnk.sup.answers = s.lnk.sup.answers ∧
    (takeOvenLoad v s).lnk.sup.sending = s.lnk.sup.sending ∧ (takeOvenLoad v s).lnk.sup.line = s.lnk.sup.line ∧
    (takeOvenLoad v s).lnk.mach = s.lnk.mach ∧ (takeOvenLoad v s).cfg.part = s.cfg.part ∧
    (takeOvenLoad v s).cfg.timing = s.cfg.timing ∧ (takeOvenLoad v s).pending = s.pending := by
  unfold takeOvenLoad
  try dsimp only
  (repeat' split) <;> simp

@[simp] theorem setTimeOp_frame (t : Time32) (s : State) :
    (setTimeOp t s).1.ot = s.ot ∧ (setTimeOp t s).1.pln = s.pln ∧ (setTimeOp t s).1.ilk = s.ilk ∧
    (setTimeOp t s).1.dru = s.dru ∧ (setTimeOp t s).1.ofu = s.ofu ∧ (setTimeOp t s).1.qnu = s.qnu ∧
    (setTimeOp t s).1.trm = s.trm ∧ (setTimeOp t s).1.lnk.sup.port = s.lnk.sup.port ∧
    (setTimeOp t s).1.lnk.sup.answers = s.lnk.sup.answers ∧ (setTimeOp t s).1.lnk.sup.sending = s.lnk.sup.sending ∧
    (setTimeOp t s).1.lnk.sup.line = s.lnk.sup.line ∧ (setTimeOp t s).1.lnk.mach = s.lnk.mach ∧
    (setTimeOp t s).1.cfg = s.cfg ∧ (setTimeOp t s).1.pending = s.pending := by
  unfold setTimeOp
  try dsimp only
  (repeat' split) <;> simp

@[simp] theorem moveOven_frame (s : State) (n : Nat) (st : OvenState) :
    (s.moveOven n st).tb = s.tb ∧ (s.moveOven n st).ilk.machines = s.ilk.machines ∧
    (s.moveOven n st).ilk.stop = s.ilk.stop ∧ (s.moveOven n st).ilk.holdCause = s.ilk.holdCause ∧
    (s.moveOven n st).ilk.lastRam = s.ilk.lastRam ∧ (s.moveOven n st).dru.doors = s.dru.doors ∧
    (s.moveOven n st).dru.vals = s.dru.vals ∧ (s.moveOven n st).ofu.sections = s.ofu.sections ∧
    (s.moveOven n st).ofu.gates = s.ofu.gates ∧ (s.moveOven n st).ofu.valves = s.ofu.valves ∧
    (s.moveOven n st).ofu.charges = s.ofu.charges ∧ (s.moveOven n st).qnu.blocked = s.qnu.blocked ∧
    (s.moveOven n st).qnu.load = s.qnu.load ∧ (s.moveOven n st).qnu.phase = s.qnu.phase ∧
    (s.moveOven n st).qnu.bays = s.qnu.bays ∧ (s.moveOven n st).qnu.free = s.qnu.free ∧
    (s.moveOven n st).qnu.discharge = s.qnu.discharge ∧ (s.moveOven n st).qnu.vals = s.qnu.vals ∧
    (s.moveOven n st).trm = s.trm ∧ (s.moveOven n st).lnk.sup.port = s.lnk.sup.port ∧
    (s.moveOven n st).lnk.sup.answers = s.lnk.sup.answers ∧ (s.moveOven n st).lnk.sup.sending = s.lnk.sup.sending ∧
    (s.moveOven n st).lnk.sup.line = s.lnk.sup.line ∧
    (∀ j, (((s.moveOven n st)).lnk.mach.get j).port = (s.lnk.mach.get j).port) ∧
    (∀ j, (((s.moveOven n st)).lnk.mach.get j).test = (s.lnk.mach.get j).test) ∧ (s.moveOven n st).cfg = s.cfg ∧
    (s.moveOven n st).pending = s.pending := by
  unfold moveOven
  try dsimp only
  (repeat' split) <;> simp

@[simp] theorem ovenServiceOp_frame (n : Nat) (dir : ServiceDir) (s : State) :
    (ovenServiceOp n dir s).1.tb = s.tb ∧ (ovenServiceOp n dir s).1.ilk.machines = s.ilk.machines ∧
    (ovenServiceOp n dir s).1.ilk.stop = s.ilk.stop ∧ (ovenServiceOp n dir s).1.ilk.holdCause = s.ilk.holdCause ∧
    (ovenServiceOp n dir s).1.ilk.lastRam = s.ilk.lastRam ∧ (ovenServiceOp n dir s).1.dru.doors = s.dru.doors ∧
    (ovenServiceOp n dir s).1.dru.vals = s.dru.vals ∧ (ovenServiceOp n dir s).1.ofu.sections = s.ofu.sections ∧
    (ovenServiceOp n dir s).1.ofu.gates = s.ofu.gates ∧ (ovenServiceOp n dir s).1.ofu.valves = s.ofu.valves ∧
    (ovenServiceOp n dir s).1.ofu.charges = s.ofu.charges ∧ (ovenServiceOp n dir s).1.qnu.blocked = s.qnu.blocked ∧
    (ovenServiceOp n dir s).1.qnu.load = s.qnu.load ∧ (ovenServiceOp n dir s).1.qnu.phase = s.qnu.phase ∧
    (ovenServiceOp n dir s).1.qnu.bays = s.qnu.bays ∧ (ovenServiceOp n dir s).1.qnu.free = s.qnu.free ∧
    (ovenServiceOp n dir s).1.qnu.discharge = s.qnu.discharge ∧ (ovenServiceOp n dir s).1.qnu.vals = s.qnu.vals ∧
    (ovenServiceOp n dir s).1.trm = s.trm ∧ (ovenServiceOp n dir s).1.lnk.sup.port = s.lnk.sup.port ∧
    (ovenServiceOp n dir s).1.lnk.sup.answers = s.lnk.sup.answers ∧
    (ovenServiceOp n dir s).1.lnk.sup.sending = s.lnk.sup.sending ∧
    (ovenServiceOp n dir s).1.lnk.sup.line = s.lnk.sup.line ∧
    (∀ j, (((ovenServiceOp n dir s).1).lnk.mach.get j).port = (s.lnk.mach.get j).port) ∧
    (∀ j, (((ovenServiceOp n dir s).1).lnk.mach.get j).test = (s.lnk.mach.get j).test) ∧
    (ovenServiceOp n dir s).1.cfg = s.cfg ∧ (ovenServiceOp n dir s).1.pending = s.pending := by
  unfold ovenServiceOp
  try dsimp only
  (repeat' split) <;> simp

@[simp] theorem setTargetOp_frame (n target : Nat) (s : State) :
    (setTargetOp n target s).1.tb = s.tb ∧ (setTargetOp n target s).1.ilk.machines = s.ilk.machines ∧
    (setTargetOp n target s).1.ilk.stop = s.ilk.stop ∧ (setTargetOp n target s).1.ilk.holdCause = s.ilk.holdCause ∧
    (setTargetOp n target s).1.ilk.lastRam = s.ilk.lastRam ∧ (setTargetOp n target s).1.dru.doors = s.dru.doors ∧
    (setTargetOp n target s).1.dru.vals = s.dru.vals ∧ (setTargetOp n target s).1.ofu.sections = s.ofu.sections ∧
    (setTargetOp n target s).1.ofu.gates = s.ofu.gates ∧ (setTargetOp n target s).1.ofu.valves = s.ofu.valves ∧
    (setTargetOp n target s).1.ofu.charges = s.ofu.charges ∧ (setTargetOp n target s).1.qnu.blocked = s.qnu.blocked ∧
    (setTargetOp n target s).1.qnu.load = s.qnu.load ∧ (setTargetOp n target s).1.qnu.phase = s.qnu.phase ∧
    (setTargetOp n target s).1.qnu.bays = s.qnu.bays ∧ (setTargetOp n target s).1.qnu.free = s.qnu.free ∧
    (setTargetOp n target s).1.qnu.discharge = s.qnu.discharge ∧ (setTargetOp n target s).1.qnu.vals = s.qnu.vals ∧
    (setTargetOp n target s).1.trm = s.trm ∧ (setTargetOp n target s).1.lnk.sup.port = s.lnk.sup.port ∧
    (setTargetOp n target s).1.lnk.sup.answers = s.lnk.sup.answers ∧
    (setTargetOp n target s).1.lnk.sup.sending = s.lnk.sup.sending ∧
    (setTargetOp n target s).1.lnk.sup.line = s.lnk.sup.line ∧
    (∀ j, (((setTargetOp n target s).1).lnk.mach.get j).port = (s.lnk.mach.get j).port) ∧
    (∀ j, (((setTargetOp n target s).1).lnk.mach.get j).test = (s.lnk.mach.get j).test) ∧
    (setTargetOp n target s).1.cfg = s.cfg ∧ (setTargetOp n target s).1.pending = s.pending := by
  unfold setTargetOp
  try dsimp only
  (repeat' split) <;> simp

@[simp] theorem makeupOp_frame (n : Nat) (s : State) :
    (makeupOp n s).1.tb = s.tb ∧ (makeupOp n s).1.ot = s.ot ∧ (makeupOp n s).1.ilk.machines = s.ilk.machines ∧
    (makeupOp n s).1.ilk.stop = s.ilk.stop ∧ (makeupOp n s).1.ilk.holdCause = s.ilk.holdCause ∧
    (makeupOp n s).1.ilk.lastRam = s.ilk.lastRam ∧ (makeupOp n s).1.dru.doors = s.dru.doors ∧
    (makeupOp n s).1.dru.vals = s.dru.vals ∧ (makeupOp n s).1.ofu.sections = s.ofu.sections ∧
    (makeupOp n s).1.ofu.gates = s.ofu.gates ∧ (makeupOp n s).1.ofu.valves = s.ofu.valves ∧
    (makeupOp n s).1.ofu.charges = s.ofu.charges ∧ (makeupOp n s).1.qnu.blocked = s.qnu.blocked ∧
    (makeupOp n s).1.qnu.load = s.qnu.load ∧ (makeupOp n s).1.qnu.phase = s.qnu.phase ∧
    (makeupOp n s).1.qnu.bays = s.qnu.bays ∧ (makeupOp n s).1.qnu.free = s.qnu.free ∧
    (makeupOp n s).1.qnu.discharge = s.qnu.discharge ∧ (makeupOp n s).1.qnu.vals = s.qnu.vals ∧
    (makeupOp n s).1.trm = s.trm ∧ (makeupOp n s).1.lnk.sup.port = s.lnk.sup.port ∧
    (makeupOp n s).1.lnk.sup.answers = s.lnk.sup.answers ∧ (makeupOp n s).1.lnk.sup.sending = s.lnk.sup.sending ∧
    (makeupOp n s).1.lnk.sup.line = s.lnk.sup.line ∧
    (∀ j, (((makeupOp n s).1).lnk.mach.get j).port = (s.lnk.mach.get j).port) ∧
    (∀ j, (((makeupOp n s).1).lnk.mach.get j).test = (s.lnk.mach.get j).test) ∧ (makeupOp n s).1.cfg = s.cfg ∧
    (makeupOp n s).1.pending = s.pending := by
  unfold makeupOp
  try dsimp only
  (repeat' split) <;> simp

@[simp] theorem cancelMakeupOp_frame (n : Nat) (s : State) :
    (cancelMakeupOp n s).1.tb = s.tb ∧ (cancelMakeupOp n s).1.ot = s.ot ∧
    (cancelMakeupOp n s).1.ilk.machines = s.ilk.machines ∧ (cancelMakeupOp n s).1.ilk.stop = s.ilk.stop ∧
    (cancelMakeupOp n s).1.ilk.holdCause = s.ilk.holdCause ∧ (cancelMakeupOp n s).1.ilk.lastRam = s.ilk.lastRam ∧
    (cancelMakeupOp n s).1.dru.doors = s.dru.doors ∧ (cancelMakeupOp n s).1.dru.vals = s.dru.vals ∧
    (cancelMakeupOp n s).1.ofu.sections = s.ofu.sections ∧ (cancelMakeupOp n s).1.ofu.gates = s.ofu.gates ∧
    (cancelMakeupOp n s).1.ofu.valves = s.ofu.valves ∧ (cancelMakeupOp n s).1.ofu.charges = s.ofu.charges ∧
    (cancelMakeupOp n s).1.qnu.blocked = s.qnu.blocked ∧ (cancelMakeupOp n s).1.qnu.load = s.qnu.load ∧
    (cancelMakeupOp n s).1.qnu.phase = s.qnu.phase ∧ (cancelMakeupOp n s).1.qnu.bays = s.qnu.bays ∧
    (cancelMakeupOp n s).1.qnu.free = s.qnu.free ∧ (cancelMakeupOp n s).1.qnu.discharge = s.qnu.discharge ∧
    (cancelMakeupOp n s).1.qnu.vals = s.qnu.vals ∧ (cancelMakeupOp n s).1.trm = s.trm ∧
    (cancelMakeupOp n s).1.lnk.sup.port = s.lnk.sup.port ∧
    (cancelMakeupOp n s).1.lnk.sup.answers = s.lnk.sup.answers ∧
    (cancelMakeupOp n s).1.lnk.sup.sending = s.lnk.sup.sending ∧
    (cancelMakeupOp n s).1.lnk.sup.line = s.lnk.sup.line ∧
    (∀ j, (((cancelMakeupOp n s).1).lnk.mach.get j).port = (s.lnk.mach.get j).port) ∧
    (∀ j, (((cancelMakeupOp n s).1).lnk.mach.get j).test = (s.lnk.mach.get j).test) ∧
    (cancelMakeupOp n s).1.cfg = s.cfg ∧ (cancelMakeupOp n s).1.pending = s.pending := by
  unfold cancelMakeupOp
  try dsimp only
  (repeat' split) <;> simp

@[simp] theorem planStartOp_frame (start : Option Time32) (s : State) :
    (planStartOp start s).1.tb = s.tb ∧ (planStartOp start s).1.ot = s.ot ∧
    (planStartOp start s).1.ilk.machines = s.ilk.machines ∧ (planStartOp start s).1.ilk.stop = s.ilk.stop ∧
    (planStartOp start s).1.ilk.holdCause = s.ilk.holdCause ∧ (planStartOp start s).1.ilk.lastRam = s.ilk.lastRam ∧
    (planStartOp start s).1.dru.doors = s.dru.doors ∧ (planStartOp start s).1.dru.vals = s.dru.vals ∧
    (planStartOp start s).1.ofu.sections = s.ofu.sections ∧ (planStartOp start s).1.ofu.gates = s.ofu.gates ∧
    (planStartOp start s).1.ofu.valves = s.ofu.valves ∧ (planStartOp start s).1.ofu.charges = s.ofu.charges ∧
    (planStartOp start s).1.qnu.blocked = s.qnu.blocked ∧ (planStartOp start s).1.qnu.load = s.qnu.load ∧
    (planStartOp start s).1.qnu.phase = s.qnu.phase ∧ (planStartOp start s).1.qnu.bays = s.qnu.bays ∧
    (planStartOp start s).1.qnu.free = s.qnu.free ∧ (planStartOp start s).1.qnu.discharge = s.qnu.discharge ∧
    (planStartOp start s).1.qnu.vals = s.qnu.vals ∧ (planStartOp start s).1.trm = s.trm ∧
    (planStartOp start s).1.lnk.sup.port = s.lnk.sup.port ∧
    (planStartOp start s).1.lnk.sup.answers = s.lnk.sup.answers ∧
    (planStartOp start s).1.lnk.sup.sending = s.lnk.sup.sending ∧
    (planStartOp start s).1.lnk.sup.line = s.lnk.sup.line ∧
    (∀ j, (((planStartOp start s).1).lnk.mach.get j).port = (s.lnk.mach.get j).port) ∧
    (∀ j, (((planStartOp start s).1).lnk.mach.get j).test = (s.lnk.mach.get j).test) ∧
    (planStartOp start s).1.cfg = s.cfg ∧ (planStartOp start s).1.pending = s.pending := by
  unfold planStartOp
  try dsimp only
  (repeat' split) <;> simp

@[simp] theorem planHaltOp_frame (s : State) :
    s.planHaltOp.1.tb = s.tb ∧ s.planHaltOp.1.ot = s.ot ∧ s.planHaltOp.1.ilk.machines = s.ilk.machines ∧
    s.planHaltOp.1.ilk.stop = s.ilk.stop ∧ s.planHaltOp.1.ilk.holdCause = s.ilk.holdCause ∧
    s.planHaltOp.1.ilk.lastRam = s.ilk.lastRam ∧ s.planHaltOp.1.dru.doors = s.dru.doors ∧
    s.planHaltOp.1.dru.vals = s.dru.vals ∧ s.planHaltOp.1.ofu.sections = s.ofu.sections ∧
    s.planHaltOp.1.ofu.gates = s.ofu.gates ∧ s.planHaltOp.1.ofu.valves = s.ofu.valves ∧
    s.planHaltOp.1.ofu.charges = s.ofu.charges ∧ s.planHaltOp.1.qnu.blocked = s.qnu.blocked ∧
    s.planHaltOp.1.qnu.load = s.qnu.load ∧ s.planHaltOp.1.qnu.phase = s.qnu.phase ∧
    s.planHaltOp.1.qnu.bays = s.qnu.bays ∧ s.planHaltOp.1.qnu.free = s.qnu.free ∧
    s.planHaltOp.1.qnu.discharge = s.qnu.discharge ∧ s.planHaltOp.1.qnu.vals = s.qnu.vals ∧
    s.planHaltOp.1.trm = s.trm ∧ s.planHaltOp.1.lnk.sup.port = s.lnk.sup.port ∧
    s.planHaltOp.1.lnk.sup.answers = s.lnk.sup.answers ∧ s.planHaltOp.1.lnk.sup.sending = s.lnk.sup.sending ∧
    s.planHaltOp.1.lnk.sup.line = s.lnk.sup.line ∧
    (∀ j, ((s.planHaltOp.1).lnk.mach.get j).port = (s.lnk.mach.get j).port) ∧
    (∀ j, ((s.planHaltOp.1).lnk.mach.get j).test = (s.lnk.mach.get j).test) ∧ s.planHaltOp.1.cfg = s.cfg ∧
    s.planHaltOp.1.pending = s.pending := by
  unfold planHaltOp
  try dsimp only
  (repeat' split) <;> simp

@[simp] theorem planResumeReq_frame (s : State) :
    s.planResumeReq.1.tb = s.tb ∧ s.planResumeReq.1.ot = s.ot ∧ s.planResumeReq.1.ilk.machines = s.ilk.machines ∧
    s.planResumeReq.1.ilk.stop = s.ilk.stop ∧ s.planResumeReq.1.ilk.holdCause = s.ilk.holdCause ∧
    s.planResumeReq.1.ilk.lastRam = s.ilk.lastRam ∧ s.planResumeReq.1.dru.doors = s.dru.doors ∧
    s.planResumeReq.1.dru.vals = s.dru.vals ∧ s.planResumeReq.1.ofu.sections = s.ofu.sections ∧
    s.planResumeReq.1.ofu.gates = s.ofu.gates ∧ s.planResumeReq.1.ofu.valves = s.ofu.valves ∧
    s.planResumeReq.1.ofu.charges = s.ofu.charges ∧ s.planResumeReq.1.qnu.blocked = s.qnu.blocked ∧
    s.planResumeReq.1.qnu.load = s.qnu.load ∧ s.planResumeReq.1.qnu.phase = s.qnu.phase ∧
    s.planResumeReq.1.qnu.bays = s.qnu.bays ∧ s.planResumeReq.1.qnu.free = s.qnu.free ∧
    s.planResumeReq.1.qnu.discharge = s.qnu.discharge ∧ s.planResumeReq.1.qnu.vals = s.qnu.vals ∧
    s.planResumeReq.1.trm = s.trm ∧ s.planResumeReq.1.lnk.sup.port = s.lnk.sup.port ∧
    s.planResumeReq.1.lnk.sup.answers = s.lnk.sup.answers ∧ s.planResumeReq.1.lnk.sup.sending = s.lnk.sup.sending ∧
    s.planResumeReq.1.lnk.sup.line = s.lnk.sup.line ∧
    (∀ j, ((s.planResumeReq.1).lnk.mach.get j).port = (s.lnk.mach.get j).port) ∧
    (∀ j, ((s.planResumeReq.1).lnk.mach.get j).test = (s.lnk.mach.get j).test) ∧ s.planResumeReq.1.cfg = s.cfg ∧
    s.planResumeReq.1.pending = s.pending := by
  unfold planResumeReq
  try dsimp only
  (repeat' split) <;> simp

@[simp] theorem planStageOp_frame (s : State) :
    s.planStageOp.1.tb = s.tb ∧ s.planStageOp.1.ot = s.ot ∧ s.planStageOp.1.ilk = s.ilk ∧
    s.planStageOp.1.dru = s.dru ∧ s.planStageOp.1.ofu = s.ofu ∧ s.planStageOp.1.qnu = s.qnu ∧
    s.planStageOp.1.trm = s.trm ∧ s.planStageOp.1.lnk = s.lnk ∧ s.planStageOp.1.cfg = s.cfg ∧
    s.planStageOp.1.pending = s.pending := by
  unfold planStageOp
  try dsimp only
  (repeat' split) <;> simp

@[simp] theorem setModeOp_frame (n : Nat) (mode : SlotMode) (fixedPush : Option Time32) (s : State) :
    (setModeOp n mode fixedPush s).1.tb = s.tb ∧ (setModeOp n mode fixedPush s).1.ilk.machines = s.ilk.machines ∧
    (setModeOp n mode fixedPush s).1.ilk.stop = s.ilk.stop ∧
    (setModeOp n mode fixedPush s).1.ilk.holdCause = s.ilk.holdCause ∧
    (setModeOp n mode fixedPush s).1.ilk.lastRam = s.ilk.lastRam ∧
    (setModeOp n mode fixedPush s).1.dru.doors = s.dru.doors ∧
    (setModeOp n mode fixedPush s).1.dru.vals = s.dru.vals ∧
    (setModeOp n mode fixedPush s).1.ofu.sections = s.ofu.sections ∧
    (setModeOp n mode fixedPush s).1.ofu.gates = s.ofu.gates ∧
    (setModeOp n mode fixedPush s).1.ofu.valves = s.ofu.valves ∧
    (setModeOp n mode fixedPush s).1.ofu.charges = s.ofu.charges ∧
    (setModeOp n mode fixedPush s).1.qnu.blocked = s.qnu.blocked ∧
    (setModeOp n mode fixedPush s).1.qnu.load = s.qnu.load ∧
    (setModeOp n mode fixedPush s).1.qnu.phase = s.qnu.phase ∧
    (setModeOp n mode fixedPush s).1.qnu.bays = s.qnu.bays ∧ (setModeOp n mode fixedPush s).1.qnu.free = s.qnu.free ∧
    (setModeOp n mode fixedPush s).1.qnu.discharge = s.qnu.discharge ∧
    (setModeOp n mode fixedPush s).1.qnu.vals = s.qnu.vals ∧ (setModeOp n mode fixedPush s).1.trm = s.trm ∧
    (setModeOp n mode fixedPush s).1.lnk.sup.port = s.lnk.sup.port ∧
    (setModeOp n mode fixedPush s).1.lnk.sup.answers = s.lnk.sup.answers ∧
    (setModeOp n mode fixedPush s).1.lnk.sup.sending = s.lnk.sup.sending ∧
    (setModeOp n mode fixedPush s).1.lnk.sup.line = s.lnk.sup.line ∧
    (∀ j, (((setModeOp n mode fixedPush s).1).lnk.mach.get j).port = (s.lnk.mach.get j).port) ∧
    (∀ j, (((setModeOp n mode fixedPush s).1).lnk.mach.get j).test = (s.lnk.mach.get j).test) ∧
    (setModeOp n mode fixedPush s).1.cfg = s.cfg ∧ (setModeOp n mode fixedPush s).1.pending = s.pending := by
  unfold setModeOp
  try dsimp only
  (repeat' split) <;> simp

@[simp] theorem setModeRangeOp_frame (first last : Nat) (mode : Option SlotMode) (fixedPush : Option Time32) (s : State) :
    (setModeRangeOp first last mode fixedPush s).1.tb = s.tb ∧
    (setModeRangeOp first last mode fixedPush s).1.ot = s.ot ∧
    (setModeRangeOp first last mode fixedPush s).1.ilk = s.ilk ∧
    (setModeRangeOp first last mode fixedPush s).1.dru = s.dru ∧
    (setModeRangeOp first last mode fixedPush s).1.ofu = s.ofu ∧
    (setModeRangeOp first last mode fixedPush s).1.qnu = s.qnu ∧
    (setModeRangeOp first last mode fixedPush s).1.trm = s.trm ∧
    (setModeRangeOp first last mode fixedPush s).1.lnk = s.lnk ∧
    (setModeRangeOp first last mode fixedPush s).1.cfg = s.cfg ∧
    (setModeRangeOp first last mode fixedPush s).1.pending = s.pending := by
  unfold setModeRangeOp
  try dsimp only
  (repeat' split) <;> simp

@[simp] theorem rangeAbortOp_frame (s : State) :
    s.rangeAbortOp.1.tb = s.tb ∧ s.rangeAbortOp.1.ot = s.ot ∧ s.rangeAbortOp.1.ilk = s.ilk ∧
    s.rangeAbortOp.1.dru = s.dru ∧ s.rangeAbortOp.1.ofu = s.ofu ∧ s.rangeAbortOp.1.qnu = s.qnu ∧
    s.rangeAbortOp.1.trm = s.trm ∧ s.rangeAbortOp.1.lnk = s.lnk ∧ s.rangeAbortOp.1.cfg = s.cfg ∧
    s.rangeAbortOp.1.pending = s.pending := by
  unfold rangeAbortOp
  try dsimp only
  (repeat' split) <;> simp

@[simp] theorem clearBreachOp_frame (n : Nat) (s : State) :
    (clearBreachOp n s).1.tb = s.tb ∧ (clearBreachOp n s).1.pln = s.pln ∧ (clearBreachOp n s).1.ilk = s.ilk ∧
    (clearBreachOp n s).1.dru.doors = s.dru.doors ∧ (clearBreachOp n s).1.dru.vals = s.dru.vals ∧
    (clearBreachOp n s).1.ofu.sections = s.ofu.sections ∧ (clearBreachOp n s).1.ofu.gates = s.ofu.gates ∧
    (clearBreachOp n s).1.ofu.valves = s.ofu.valves ∧ (clearBreachOp n s).1.ofu.heldOffers = s.ofu.heldOffers ∧
    (clearBreachOp n s).1.ofu.iso = s.ofu.iso ∧ (clearBreachOp n s).1.ofu.charges = s.ofu.charges ∧
    (clearBreachOp n s).1.qnu.blocked = s.qnu.blocked ∧ (clearBreachOp n s).1.qnu.load = s.qnu.load ∧
    (clearBreachOp n s).1.qnu.phase = s.qnu.phase ∧ (clearBreachOp n s).1.qnu.bays = s.qnu.bays ∧
    (clearBreachOp n s).1.qnu.free = s.qnu.free ∧ (clearBreachOp n s).1.qnu.discharge = s.qnu.discharge ∧
    (clearBreachOp n s).1.qnu.vals = s.qnu.vals ∧ (clearBreachOp n s).1.trm = s.trm ∧
    (clearBreachOp n s).1.lnk.sup.port = s.lnk.sup.port ∧ (clearBreachOp n s).1.lnk.sup.answers = s.lnk.sup.answers ∧
    (clearBreachOp n s).1.lnk.sup.sending = s.lnk.sup.sending ∧ (clearBreachOp n s).1.lnk.sup.line = s.lnk.sup.line ∧
    (∀ j, (((clearBreachOp n s).1).lnk.mach.get j).port = (s.lnk.mach.get j).port) ∧
    (∀ j, (((clearBreachOp n s).1).lnk.mach.get j).test = (s.lnk.mach.get j).test) ∧
    (clearBreachOp n s).1.cfg = s.cfg ∧ (clearBreachOp n s).1.pending = s.pending := by
  unfold clearBreachOp
  try dsimp only
  (repeat' split) <;> simp

@[simp] theorem pushRetryOp_frame (n : Nat) (s : State) :
    (pushRetryOp n s).1.tb = s.tb ∧ (pushRetryOp n s).1.ot = s.ot ∧ (pushRetryOp n s).1.pln = s.pln ∧
    (pushRetryOp n s).1.ilk.machines = s.ilk.machines ∧ (pushRetryOp n s).1.ilk.stop = s.ilk.stop ∧
    (pushRetryOp n s).1.ilk.holdCause = s.ilk.holdCause ∧ (pushRetryOp n s).1.ilk.lastRam = s.ilk.lastRam ∧
    (pushRetryOp n s).1.dru.doors = s.dru.doors ∧ (pushRetryOp n s).1.dru.vals = s.dru.vals ∧
    (pushRetryOp n s).1.ofu.sections = s.ofu.sections ∧ (pushRetryOp n s).1.ofu.gates = s.ofu.gates ∧
    (pushRetryOp n s).1.ofu.valves = s.ofu.valves ∧ (pushRetryOp n s).1.ofu.heldOffers = s.ofu.heldOffers ∧
    (pushRetryOp n s).1.ofu.iso = s.ofu.iso ∧ (pushRetryOp n s).1.ofu.charges = s.ofu.charges ∧
    (pushRetryOp n s).1.qnu = s.qnu ∧ (pushRetryOp n s).1.trm = s.trm ∧
    (pushRetryOp n s).1.lnk.sup.port = s.lnk.sup.port ∧ (pushRetryOp n s).1.lnk.sup.answers = s.lnk.sup.answers ∧
    (pushRetryOp n s).1.lnk.sup.sending = s.lnk.sup.sending ∧ (pushRetryOp n s).1.lnk.sup.line = s.lnk.sup.line ∧
    (∀ j, (((pushRetryOp n s).1).lnk.mach.get j).port = (s.lnk.mach.get j).port) ∧
    (∀ j, (((pushRetryOp n s).1).lnk.mach.get j).test = (s.lnk.mach.get j).test) ∧ (pushRetryOp n s).1.cfg = s.cfg ∧
    (pushRetryOp n s).1.pending = s.pending := by
  unfold pushRetryOp
  try dsimp only
  (repeat' split) <;> simp

@[simp] theorem abandonPush_frame (s : State) (p : PushRec) :
    (s.abandonPush p).tb = s.tb ∧ (s.abandonPush p).ilk.machines = s.ilk.machines ∧
    (s.abandonPush p).ilk.stop = s.ilk.stop ∧ (s.abandonPush p).ilk.holdCause = s.ilk.holdCause ∧
    (s.abandonPush p).ilk.lastRam = s.ilk.lastRam ∧ (s.abandonPush p).dru.doors = s.dru.doors ∧
    (s.abandonPush p).dru.vals = s.dru.vals ∧ (s.abandonPush p).ofu.sections = s.ofu.sections ∧
    (s.abandonPush p).ofu.gates = s.ofu.gates ∧ (s.abandonPush p).ofu.valves = s.ofu.valves ∧
    (s.abandonPush p).ofu.charges = s.ofu.charges ∧ (s.abandonPush p).qnu.blocked = s.qnu.blocked ∧
    (s.abandonPush p).qnu.load = s.qnu.load ∧ (s.abandonPush p).qnu.phase = s.qnu.phase ∧
    (s.abandonPush p).qnu.bays = s.qnu.bays ∧ (s.abandonPush p).qnu.free = s.qnu.free ∧
    (s.abandonPush p).qnu.discharge = s.qnu.discharge ∧ (s.abandonPush p).qnu.vals = s.qnu.vals ∧
    (s.abandonPush p).trm = s.trm ∧ (s.abandonPush p).lnk.sup.port = s.lnk.sup.port ∧
    (s.abandonPush p).lnk.sup.answers = s.lnk.sup.answers ∧ (s.abandonPush p).lnk.sup.sending = s.lnk.sup.sending ∧
    (s.abandonPush p).lnk.sup.line = s.lnk.sup.line ∧
    (∀ j, (((s.abandonPush p)).lnk.mach.get j).port = (s.lnk.mach.get j).port) ∧
    (∀ j, (((s.abandonPush p)).lnk.mach.get j).test = (s.lnk.mach.get j).test) ∧ (s.abandonPush p).cfg = s.cfg ∧
    (s.abandonPush p).pending = s.pending := by
  simp [abandonPush]

@[simp] theorem abandonOp_frame (n : Nat) (s : State) :
    (abandonOp n s).1.tb = s.tb ∧ (abandonOp n s).1.ilk.machines = s.ilk.machines ∧
    (abandonOp n s).1.ilk.stop = s.ilk.stop ∧ (abandonOp n s).1.ilk.holdCause = s.ilk.holdCause ∧
    (abandonOp n s).1.ilk.lastRam = s.ilk.lastRam ∧ (abandonOp n s).1.dru.doors = s.dru.doors ∧
    (abandonOp n s).1.dru.vals = s.dru.vals ∧ (abandonOp n s).1.ofu.sections = s.ofu.sections ∧
    (abandonOp n s).1.ofu.gates = s.ofu.gates ∧ (abandonOp n s).1.ofu.valves = s.ofu.valves ∧
    (abandonOp n s).1.ofu.charges = s.ofu.charges ∧ (abandonOp n s).1.qnu.blocked = s.qnu.blocked ∧
    (abandonOp n s).1.qnu.load = s.qnu.load ∧ (abandonOp n s).1.qnu.phase = s.qnu.phase ∧
    (abandonOp n s).1.qnu.bays = s.qnu.bays ∧ (abandonOp n s).1.qnu.free = s.qnu.free ∧
    (abandonOp n s).1.qnu.discharge = s.qnu.discharge ∧ (abandonOp n s).1.qnu.vals = s.qnu.vals ∧
    (abandonOp n s).1.trm = s.trm ∧ (abandonOp n s).1.lnk.sup.port = s.lnk.sup.port ∧
    (abandonOp n s).1.lnk.sup.answers = s.lnk.sup.answers ∧ (abandonOp n s).1.lnk.sup.sending = s.lnk.sup.sending ∧
    (abandonOp n s).1.lnk.sup.line = s.lnk.sup.line ∧
    (∀ j, (((abandonOp n s).1).lnk.mach.get j).port = (s.lnk.mach.get j).port) ∧
    (∀ j, (((abandonOp n s).1).lnk.mach.get j).test = (s.lnk.mach.get j).test) ∧ (abandonOp n s).1.cfg = s.cfg ∧
    (abandonOp n s).1.pending = s.pending := by
  unfold abandonOp
  try dsimp only
  (repeat' split) <;> simp

@[simp] theorem leakReportOp_frame (n : Nat) (side : Option Side) (s : State) :
    (leakReportOp n side s).1.tb = s.tb ∧ (leakReportOp n side s).1.ot = s.ot ∧
    (leakReportOp n side s).1.pln = s.pln ∧ (leakReportOp n side s).1.ilk.machines = s.ilk.machines ∧
    (leakReportOp n side s).1.ilk.stop = s.ilk.stop ∧ (leakReportOp n side s).1.ilk.holdCause = s.ilk.holdCause ∧
    (leakReportOp n side s).1.ilk.lastRam = s.ilk.lastRam ∧ (leakReportOp n side s).1.dru.vals = s.dru.vals ∧
    (leakReportOp n side s).1.ofu.sections = s.ofu.sections ∧ (leakReportOp n side s).1.ofu.gates = s.ofu.gates ∧
    (leakReportOp n side s).1.ofu.valves = s.ofu.valves ∧
    (leakReportOp n side s).1.ofu.heldOffers = s.ofu.heldOffers ∧ (leakReportOp n side s).1.ofu.iso = s.ofu.iso ∧
    (leakReportOp n side s).1.ofu.charges = s.ofu.charges ∧ (leakReportOp n side s).1.qnu = s.qnu ∧
    (leakReportOp n side s).1.trm = s.trm ∧ (leakReportOp n side s).1.lnk.sup.port = s.lnk.sup.port ∧
    (leakReportOp n side s).1.lnk.sup.answers = s.lnk.sup.answers ∧
    (leakReportOp n side s).1.lnk.sup.sending = s.lnk.sup.sending ∧
    (leakReportOp n side s).1.lnk.sup.line = s.lnk.sup.line ∧
    (∀ j, (((leakReportOp n side s).1).lnk.mach.get j).port = (s.lnk.mach.get j).port) ∧
    (∀ j, (((leakReportOp n side s).1).lnk.mach.get j).test = (s.lnk.mach.get j).test) ∧
    (leakReportOp n side s).1.cfg = s.cfg ∧ (leakReportOp n side s).1.pending = s.pending := by
  unfold leakReportOp
  try dsimp only
  (repeat' split) <;> simp

@[simp] theorem setDamperOp_frame (k value : Nat) (s : State) :
    (setDamperOp k value s).1.tb = s.tb ∧ (setDamperOp k value s).1.ot = s.ot ∧
    (setDamperOp k value s).1.pln = s.pln ∧ (setDamperOp k value s).1.ilk = s.ilk ∧
    (setDamperOp k value s).1.dru = s.dru ∧ (setDamperOp k value s).1.ofu.gates = s.ofu.gates ∧
    (setDamperOp k value s).1.ofu.valves = s.ofu.valves ∧ (setDamperOp k value s).1.ofu.queue = s.ofu.queue ∧
    (setDamperOp k value s).1.ofu.heldOffers = s.ofu.heldOffers ∧ (setDamperOp k value s).1.ofu.iso = s.ofu.iso ∧
    (setDamperOp k value s).1.ofu.charges = s.ofu.charges ∧ (setDamperOp k value s).1.qnu = s.qnu ∧
    (setDamperOp k value s).1.trm = s.trm ∧ (setDamperOp k value s).1.lnk = s.lnk ∧
    (setDamperOp k value s).1.cfg = s.cfg ∧ (setDamperOp k value s).1.pending = s.pending := by
  unfold setDamperOp
  try dsimp only
  (repeat' split) <;> simp

@[simp] theorem setAutoOp_frame (k : Nat) (s : State) :
    (setAutoOp k s).1.tb = s.tb ∧ (setAutoOp k s).1.ot = s.ot ∧ (setAutoOp k s).1.pln = s.pln ∧
    (setAutoOp k s).1.ilk = s.ilk ∧ (setAutoOp k s).1.dru = s.dru ∧ (setAutoOp k s).1.ofu.gates = s.ofu.gates ∧
    (setAutoOp k s).1.ofu.valves = s.ofu.valves ∧ (setAutoOp k s).1.ofu.queue = s.ofu.queue ∧
    (setAutoOp k s).1.ofu.heldOffers = s.ofu.heldOffers ∧ (setAutoOp k s).1.ofu.iso = s.ofu.iso ∧
    (setAutoOp k s).1.ofu.charges = s.ofu.charges ∧ (setAutoOp k s).1.qnu = s.qnu ∧ (setAutoOp k s).1.trm = s.trm ∧
    (setAutoOp k s).1.lnk = s.lnk ∧ (setAutoOp k s).1.cfg = s.cfg ∧ (setAutoOp k s).1.pending = s.pending := by
  unfold setAutoOp
  try dsimp only
  (repeat' split) <;> simp

@[simp] theorem setSetpointOp_frame (k : Nat) (value : Int) (s : State) :
    (setSetpointOp k value s).1.tb = s.tb ∧ (setSetpointOp k value s).1.ot = s.ot ∧
    (setSetpointOp k value s).1.pln = s.pln ∧ (setSetpointOp k value s).1.ilk = s.ilk ∧
    (setSetpointOp k value s).1.dru = s.dru ∧ (setSetpointOp k value s).1.ofu.gates = s.ofu.gates ∧
    (setSetpointOp k value s).1.ofu.valves = s.ofu.valves ∧ (setSetpointOp k value s).1.ofu.queue = s.ofu.queue ∧
    (setSetpointOp k value s).1.ofu.heldOffers = s.ofu.heldOffers ∧ (setSetpointOp k value s).1.ofu.iso = s.ofu.iso ∧
    (setSetpointOp k value s).1.ofu.charges = s.ofu.charges ∧ (setSetpointOp k value s).1.qnu = s.qnu ∧
    (setSetpointOp k value s).1.trm = s.trm ∧ (setSetpointOp k value s).1.lnk = s.lnk ∧
    (setSetpointOp k value s).1.cfg = s.cfg ∧ (setSetpointOp k value s).1.pending = s.pending := by
  unfold setSetpointOp
  try dsimp only
  (repeat' split) <;> simp

@[simp] theorem blockedInMotion_frame (s : State) (run : List TrackSpot) :
    (s.blockedInMotion run).tb = s.tb ∧ (s.blockedInMotion run).ot = s.ot ∧ (s.blockedInMotion run).pln = s.pln ∧
    (s.blockedInMotion run).ilk = s.ilk ∧ (s.blockedInMotion run).dru = s.dru ∧ (s.blockedInMotion run).ofu = s.ofu ∧
    (s.blockedInMotion run).qnu = s.qnu ∧ (s.blockedInMotion run).trm = s.trm ∧
    (s.blockedInMotion run).lnk.sup.port = s.lnk.sup.port ∧
    (s.blockedInMotion run).lnk.sup.answers = s.lnk.sup.answers ∧
    (s.blockedInMotion run).lnk.sup.sending = s.lnk.sup.sending ∧
    (s.blockedInMotion run).lnk.sup.line = s.lnk.sup.line ∧ (s.blockedInMotion run).lnk.mach = s.lnk.mach ∧
    (s.blockedInMotion run).cfg = s.cfg ∧ (s.blockedInMotion run).pending = s.pending := by
  unfold blockedInMotion
  try dsimp only
  (repeat' split) <;> simp

@[simp] theorem trackBlockOp_frame (first last : Option TrackSpot) (s : State) :
    (trackBlockOp first last s).1.tb = s.tb ∧ (trackBlockOp first last s).1.ot = s.ot ∧
    (trackBlockOp first last s).1.pln = s.pln ∧ (trackBlockOp first last s).1.ilk = s.ilk ∧
    (trackBlockOp first last s).1.dru = s.dru ∧ (trackBlockOp first last s).1.ofu = s.ofu ∧
    (trackBlockOp first last s).1.qnu.car = s.qnu.car ∧ (trackBlockOp first last s).1.qnu.load = s.qnu.load ∧
    (trackBlockOp first last s).1.qnu.phase = s.qnu.phase ∧ (trackBlockOp first last s).1.qnu.bays = s.qnu.bays ∧
    (trackBlockOp first last s).1.qnu.free = s.qnu.free ∧
    (trackBlockOp first last s).1.qnu.discharge = s.qnu.discharge ∧
    (trackBlockOp first last s).1.qnu.vals = s.qnu.vals ∧ (trackBlockOp first last s).1.trm = s.trm ∧
    (trackBlockOp first last s).1.lnk.sup.port = s.lnk.sup.port ∧
    (trackBlockOp first last s).1.lnk.sup.answers = s.lnk.sup.answers ∧
    (trackBlockOp first last s).1.lnk.sup.sending = s.lnk.sup.sending ∧
    (trackBlockOp first last s).1.lnk.sup.line = s.lnk.sup.line ∧
    (trackBlockOp first last s).1.lnk.mach = s.lnk.mach ∧ (trackBlockOp first last s).1.cfg = s.cfg ∧
    (trackBlockOp first last s).1.pending = s.pending := by
  unfold trackBlockOp
  try dsimp only
  (repeat' split) <;> simp

@[simp] theorem trackFreeOp_frame (first last : Option TrackSpot) (s : State) :
    (trackFreeOp first last s).1.tb = s.tb ∧ (trackFreeOp first last s).1.ot = s.ot ∧
    (trackFreeOp first last s).1.pln = s.pln ∧ (trackFreeOp first last s).1.ilk = s.ilk ∧
    (trackFreeOp first last s).1.dru = s.dru ∧ (trackFreeOp first last s).1.ofu = s.ofu ∧
    (trackFreeOp first last s).1.qnu.load = s.qnu.load ∧ (trackFreeOp first last s).1.qnu.phase = s.qnu.phase ∧
    (trackFreeOp first last s).1.qnu.bays = s.qnu.bays ∧ (trackFreeOp first last s).1.qnu.free = s.qnu.free ∧
    (trackFreeOp first last s).1.qnu.discharge = s.qnu.discharge ∧
    (trackFreeOp first last s).1.qnu.vals = s.qnu.vals ∧ (trackFreeOp first last s).1.trm = s.trm ∧
    (trackFreeOp first last s).1.lnk.sup.port = s.lnk.sup.port ∧
    (trackFreeOp first last s).1.lnk.sup.answers = s.lnk.sup.answers ∧
    (trackFreeOp first last s).1.lnk.sup.sending = s.lnk.sup.sending ∧
    (trackFreeOp first last s).1.lnk.sup.line = s.lnk.sup.line ∧
    (∀ j, (((trackFreeOp first last s).1).lnk.mach.get j).port = (s.lnk.mach.get j).port) ∧
    (∀ j, (((trackFreeOp first last s).1).lnk.mach.get j).test = (s.lnk.mach.get j).test) ∧
    (trackFreeOp first last s).1.cfg = s.cfg ∧ (trackFreeOp first last s).1.pending = s.pending := by
  unfold trackFreeOp
  try dsimp only
  (repeat' split) <;> simp

@[simp] theorem writeOutput_frame (t : Nat) (f : Bool → Bool) (s : State) :
    (writeOutput t f s).1.tb = s.tb ∧ (writeOutput t f s).1.ot = s.ot ∧ (writeOutput t f s).1.pln = s.pln ∧
    (writeOutput t f s).1.ilk = s.ilk ∧ (writeOutput t f s).1.dru = s.dru ∧ (writeOutput t f s).1.ofu = s.ofu ∧
    (writeOutput t f s).1.qnu = s.qnu ∧ (writeOutput t f s).1.lnk = s.lnk ∧ (writeOutput t f s).1.cfg = s.cfg ∧
    (writeOutput t f s).1.pending = s.pending := by
  unfold writeOutput
  try dsimp only
  (repeat' split) <;> simp

@[simp] theorem setOutputOp_frame (t : Nat) (level : Option Bool) (s : State) :
    (setOutputOp t level s).1.tb = s.tb ∧ (setOutputOp t level s).1.ot = s.ot ∧
    (setOutputOp t level s).1.pln = s.pln ∧ (setOutputOp t level s).1.ilk = s.ilk ∧
    (setOutputOp t level s).1.dru = s.dru ∧ (setOutputOp t level s).1.ofu = s.ofu ∧
    (setOutputOp t level s).1.qnu = s.qnu ∧ (setOutputOp t level s).1.lnk = s.lnk ∧
    (setOutputOp t level s).1.cfg = s.cfg ∧ (setOutputOp t level s).1.pending = s.pending := by
  unfold setOutputOp
  try dsimp only
  (repeat' split) <;> simp

@[simp] theorem clearTerminalOp_frame (t : Nat) (s : State) :
    (clearTerminalOp t s).1.tb = s.tb ∧ (clearTerminalOp t s).1.ot = s.ot ∧ (clearTerminalOp t s).1.pln = s.pln ∧
    (clearTerminalOp t s).1.ilk = s.ilk ∧ (clearTerminalOp t s).1.dru = s.dru ∧ (clearTerminalOp t s).1.ofu = s.ofu ∧
    (clearTerminalOp t s).1.qnu = s.qnu ∧ (clearTerminalOp t s).1.lnk = s.lnk ∧ (clearTerminalOp t s).1.cfg = s.cfg ∧
    (clearTerminalOp t s).1.pending = s.pending := by
  unfold clearTerminalOp
  try dsimp only
  (repeat' split) <;> simp

@[simp] theorem linkClearOp_frame (l : Option LinkId) (s : State) :
    (linkClearOp l s).1.tb = s.tb ∧ (linkClearOp l s).1.ot = s.ot ∧ (linkClearOp l s).1.pln = s.pln ∧
    (linkClearOp l s).1.ilk = s.ilk ∧ (linkClearOp l s).1.dru = s.dru ∧ (linkClearOp l s).1.ofu = s.ofu ∧
    (linkClearOp l s).1.qnu = s.qnu ∧ (linkClearOp l s).1.trm = s.trm ∧
    (linkClearOp l s).1.lnk.sup.answers = s.lnk.sup.answers ∧
    (linkClearOp l s).1.lnk.sup.sending = s.lnk.sup.sending ∧ (linkClearOp l s).1.lnk.sup.line = s.lnk.sup.line ∧
    (linkClearOp l s).1.lnk.sup.notices = s.lnk.sup.notices ∧
    (linkClearOp l s).1.lnk.sup.noticesLost = s.lnk.sup.noticesLost ∧
    (∀ j, (((linkClearOp l s).1).lnk.mach.get j).test = (s.lnk.mach.get j).test) ∧ (linkClearOp l s).1.cfg = s.cfg ∧
    (linkClearOp l s).1.pending = s.pending := by
  unfold linkClearOp
  try dsimp only
  (repeat' split) <;> simp

@[simp] theorem enterRun_frame (s : State) :
    s.enterRun.ilk.machines = s.ilk.machines ∧ s.enterRun.ilk.stop = s.ilk.stop ∧
    s.enterRun.ilk.holdCause = s.ilk.holdCause ∧ s.enterRun.ilk.lastRam = s.ilk.lastRam ∧
    s.enterRun.dru.vals = s.dru.vals ∧ s.enterRun.ofu.gates = s.ofu.gates ∧ s.enterRun.ofu.valves = s.ofu.valves ∧
    s.enterRun.ofu.charges = s.ofu.charges ∧ s.enterRun.qnu.blocked = s.qnu.blocked ∧
    s.enterRun.qnu.load = s.qnu.load ∧ s.enterRun.qnu.phase = s.qnu.phase ∧ s.enterRun.qnu.bays = s.qnu.bays ∧
    s.enterRun.qnu.free = s.qnu.free ∧ s.enterRun.qnu.discharge = s.qnu.discharge ∧ s.enterRun.qnu.vals = s.qnu.vals ∧
    s.enterRun.lnk.sup.port = s.lnk.sup.port ∧ s.enterRun.lnk.sup.answers = s.lnk.sup.answers ∧
    s.enterRun.lnk.sup.sending = s.lnk.sup.sending ∧ s.enterRun.lnk.sup.line = s.lnk.sup.line ∧
    (∀ j, ((s.enterRun).lnk.mach.get j).port = (s.lnk.mach.get j).port) ∧
    (∀ j, ((s.enterRun).lnk.mach.get j).test = (s.lnk.mach.get j).test) ∧ s.enterRun.cfg.loaded = s.cfg.loaded ∧
    s.enterRun.cfg.timing = s.cfg.timing ∧ s.enterRun.pending = s.pending := by
  simp only [enterRun]
  split <;> simp

@[simp] theorem commitOp_frame (s : State) :
    s.commitOp.1.ilk.machines = s.ilk.machines ∧ s.commitOp.1.ilk.stop = s.ilk.stop ∧
    s.commitOp.1.ilk.holdCause = s.ilk.holdCause ∧ s.commitOp.1.ilk.lastRam = s.ilk.lastRam ∧
    s.commitOp.1.dru.vals = s.dru.vals ∧ s.commitOp.1.ofu.gates = s.ofu.gates ∧
    s.commitOp.1.ofu.valves = s.ofu.valves ∧ s.commitOp.1.ofu.charges = s.ofu.charges ∧
    s.commitOp.1.qnu.blocked = s.qnu.blocked ∧ s.commitOp.1.qnu.load = s.qnu.load ∧
    s.commitOp.1.qnu.phase = s.qnu.phase ∧ s.commitOp.1.qnu.bays = s.qnu.bays ∧ s.commitOp.1.qnu.free = s.qnu.free ∧
    s.commitOp.1.qnu.discharge = s.qnu.discharge ∧ s.commitOp.1.qnu.vals = s.qnu.vals ∧
    s.commitOp.1.lnk.sup.port = s.lnk.sup.port ∧ s.commitOp.1.lnk.sup.answers = s.lnk.sup.answers ∧
    s.commitOp.1.lnk.sup.sending = s.lnk.sup.sending ∧ s.commitOp.1.lnk.sup.line = s.lnk.sup.line ∧
    (∀ j, ((s.commitOp.1).lnk.mach.get j).port = (s.lnk.mach.get j).port) ∧
    (∀ j, ((s.commitOp.1).lnk.mach.get j).test = (s.lnk.mach.get j).test) ∧ s.commitOp.1.cfg.loaded = s.cfg.loaded ∧
    s.commitOp.1.cfg.timing = s.cfg.timing ∧ s.commitOp.1.pending = s.pending := by
  unfold commitOp
  try dsimp only
  (repeat' split) <;> simp

@[simp] theorem enterConfig_frame (s : State) :
    s.enterConfig.tb = s.tb ∧ s.enterConfig.ot = s.ot ∧ s.enterConfig.ilk.machines = s.ilk.machines ∧
    s.enterConfig.ilk.stop = s.ilk.stop ∧ s.enterConfig.ilk.lastRam = s.ilk.lastRam ∧
    s.enterConfig.dru.vals = s.dru.vals ∧ s.enterConfig.ofu.gates = s.ofu.gates ∧
    s.enterConfig.ofu.valves = s.ofu.valves ∧ s.enterConfig.ofu.charges = s.ofu.charges ∧
    s.enterConfig.qnu.blocked = s.qnu.blocked ∧ s.enterConfig.qnu.load = s.qnu.load ∧
    s.enterConfig.qnu.phase = s.qnu.phase ∧ s.enterConfig.qnu.bays = s.qnu.bays ∧
    s.enterConfig.qnu.free = s.qnu.free ∧ s.enterConfig.qnu.discharge = s.qnu.discharge ∧
    s.enterConfig.qnu.vals = s.qnu.vals ∧ s.enterConfig.trm = s.trm ∧ s.enterConfig.lnk.sup.port = s.lnk.sup.port ∧
    s.enterConfig.lnk.sup.answers = s.lnk.sup.answers ∧ s.enterConfig.lnk.sup.sending = s.lnk.sup.sending ∧
    s.enterConfig.lnk.sup.line = s.lnk.sup.line ∧
    (∀ j, ((s.enterConfig).lnk.mach.get j).port = (s.lnk.mach.get j).port) ∧
    (∀ j, ((s.enterConfig).lnk.mach.get j).test = (s.lnk.mach.get j).test) ∧ s.enterConfig.cfg.loaded = s.cfg.loaded ∧
    s.enterConfig.cfg.timing = s.cfg.timing ∧ s.enterConfig.pending = s.pending := by
  simp [enterConfig]

@[simp] theorem restartOp_frame (s : State) :
    s.restartOp.1.tb = s.tb ∧ s.restartOp.1.ot = s.ot ∧ s.restartOp.1.ilk.machines = s.ilk.machines ∧
    s.restartOp.1.ilk.stop = s.ilk.stop ∧ s.restartOp.1.ilk.lastRam = s.ilk.lastRam ∧
    s.restartOp.1.dru.vals = s.dru.vals ∧ s.restartOp.1.ofu.gates = s.ofu.gates ∧
    s.restartOp.1.ofu.valves = s.ofu.valves ∧ s.restartOp.1.ofu.charges = s.ofu.charges ∧
    s.restartOp.1.qnu.blocked = s.qnu.blocked ∧ s.restartOp.1.qnu.load = s.qnu.load ∧
    s.restartOp.1.qnu.phase = s.qnu.phase ∧ s.restartOp.1.qnu.bays = s.qnu.bays ∧
    s.restartOp.1.qnu.free = s.qnu.free ∧ s.restartOp.1.qnu.discharge = s.qnu.discharge ∧
    s.restartOp.1.qnu.vals = s.qnu.vals ∧ s.restartOp.1.trm = s.trm ∧ s.restartOp.1.lnk.sup.port = s.lnk.sup.port ∧
    s.restartOp.1.lnk.sup.answers = s.lnk.sup.answers ∧ s.restartOp.1.lnk.sup.sending = s.lnk.sup.sending ∧
    s.restartOp.1.lnk.sup.line = s.lnk.sup.line ∧
    (∀ j, ((s.restartOp.1).lnk.mach.get j).port = (s.lnk.mach.get j).port) ∧
    (∀ j, ((s.restartOp.1).lnk.mach.get j).test = (s.lnk.mach.get j).test) ∧ s.restartOp.1.cfg.loaded = s.cfg.loaded ∧
    s.restartOp.1.cfg.timing = s.cfg.timing ∧ s.restartOp.1.pending = s.pending := by
  unfold restartOp
  try dsimp only
  (repeat' split) <;> simp

/-- What a sweep keeps, sweep after sweep keeps. -/
theorem sweeps_keeps {P : State → Prop} (step : ∀ {s : State}, P s → P s.sweepOnce) (k : Nat) {s : State} (h : P s) :
    P (sweeps k s) := by
  induction k generalizing s with
  | zero => exact h
  | succ k ih =>
    unfold sweeps
    split
    · exact h
    · exact ih (step h)

end State

end Sys2Proof.Machine
end

