-- ==== Sys2Proof/Laws/EventEnd.lean ====
section
/-! SUPPORT. How events end and how frames begin: what the transmitters change, when the sweep is nothing, when
no slot check is made, the two outcomes of a supervisor's frame, of a machine's frame and of ready evaluation, and what a
link in test makes of a character and of a gap. -/

set_option linter.all false

namespace Sys2Proof.Machine

open Sys2Proof

namespace State

/-- The S-link transmitter changes only its own queues. -/
@[simp] theorem kickSup_frame (s : State) :
    s.kickSup.tb = s.tb ∧ s.kickSup.ot = s.ot ∧ s.kickSup.pln = s.pln ∧ s.kickSup.ilk = s.ilk ∧ s.kickSup.dru = s.dru ∧
    s.kickSup.ofu = s.ofu ∧ s.kickSup.qnu = s.qnu ∧ s.kickSup.trm = s.trm ∧ s.kickSup.lnk.mach = s.lnk.mach ∧
    s.kickSup.lnk.sup.port = s.lnk.sup.port ∧ s.kickSup.lnk.sup.noticesLost = s.lnk.sup.noticesLost ∧
    s.kickSup.cfg = s.cfg ∧ s.kickSup.pending = s.pending := by
  unfold kickSup
  (repeat' split) <;> simp

/-- The transmitters change only the link ports' queues. -/
@[simp] theorem kick_frame (s : State) :
    s.kick.tb = s.tb ∧ s.kick.ot = s.ot ∧ s.kick.pln = s.pln ∧ s.kick.ilk = s.ilk ∧ s.kick.dru = s.dru ∧
    s.kick.ofu = s.ofu ∧ s.kick.qnu = s.qnu ∧ s.kick.trm = s.trm ∧ s.kick.lnk.sup.port = s.lnk.sup.port ∧
    s.kick.lnk.sup.noticesLost = s.lnk.sup.noticesLost ∧ s.kick.cfg = s.cfg ∧ s.kick.pending = s.pending := by
  simp [kick]

@[simp] theorem beginLink_frame (k : MLink) (f : MFrame) :
    (beginLink k f).port = k.port ∧ (beginLink k f).test = k.test ∧ (beginLink k f).queue = k.queue ∧
    (beginLink k f).suppressed = k.suppressed := by
  simp [beginLink]

/-- An M-link's port and test record are no concern of its transmitter. -/
@[simp] theorem kickLink_frame (k : MLink) : (kickLink k).port = k.port ∧ (kickLink k).test = k.test := by
  unfold kickLink
  dsimp only
  (repeat' split) <;> simp

theorem kick_mlink (s : State) (m : MachineId) : s.kick.lnk.mach.get m = kickLink (s.lnk.mach.get m) := by
  have h : s.kickSup.lnk.mach = s.lnk.mach := by simp
  cases m <;> simp [kick, h, Quad.get]

/-- While battery time runs an event ends with the transmitters alone. -/
theorem settle_eq_kick {s : State} (h : s.now < tMax) : s.settle = s.kick := by
  simp [settle, heldSweep, h]

/-- An expiry for every number of a list is a fold over it. -/
theorem forEach_eq_foldl (f : State → Nat → State) (l : List Nat) (s : State) : forEach f l s = l.foldl f s := by
  induction l generalizing s with
  | nil => rfl
  | cons a l ih => simp [forEach, ih]

/-- No slot check is made outside RUNNING or at a slot that is not WAITING. -/
theorem checkOnce_none {s : State} (h : s.pln.state ≠ .running ∨ s.cursorStatus ≠ some .waiting) : s.checkOnce = (s, false) := by
  unfold checkOnce
  cases hs : s.cursorSlot with
  | none => rfl
  | some sl =>
    have : ¬ (s.pln.state = .running ∧ sl.status = .waiting) := by
      rintro ⟨a, b⟩
      exact h.elim (· a) (· (by simp [cursorStatus, hs, b]))
    simp [this]

/-- A machine's frame on a link that is not in test restarts the silence timer and is taken. -/
theorem machineFrame_taken {s : State} {m : MachineId} (h : (s.mlink m).test.active = false) (body : State → State) :
    machineFrame m body s = body (s.updPort (.mach m) fun p => { p with silence := true }) := by
  simp [machineFrame, h]

/-- On a link in test no frame is assembled. -/
theorem machineFrame_ignored {s : State} {m : MachineId} (h : (s.mlink m).test.active = true) (body : State → State) :
    machineFrame m body s = s := by
  simp [machineFrame, h]

/-- With four answers waiting a request is discarded. -/
theorem request_overrun {s : State} (h : 4 ≤ s.lnk.sup.answers.length) (tag : Byte) (body : State → State × Reply) :
    request tag body s = s.discard .sup .overrun := by
  simp [request, h]

/-- With room among the answers a request is taken and answered. -/
theorem request_taken {s : State} (h : s.lnk.sup.answers.length < 4) (tag : Byte) (body : State → State × Reply) :
    request tag body s = (body s.supervisorHeard).1.pushAnswer tag (body s.supervisorHeard).2 := by
  simp [request, Nat.not_le.2 h]

/-- Ready evaluation that leaves the oven's state leaves everything (R13). -/
theorem evalReady_unchanged {s : State} {n : Nat} (h : (s.evalReadyRaw n).ovenState n = s.ovenState n) :
    s.evalReady n = s := by
  rw [evalReady, if_pos h]

/-- Ready evaluation that changes the oven's state hands the change on (R9, R13; log 9). -/
theorem evalReady_changed {s : State} {n : Nat} (h : (s.evalReadyRaw n).ovenState n ≠ s.ovenState n) :
    s.evalReady n = (s.evalReadyRaw n).ovenChanged n := by
  rw [evalReady, if_neg h]

/-- What ready evaluation writes, as one condition on the charge end time (R9, R13). -/
theorem evalReadyRaw_eq (s : State) (n : Nat) : s.evalReadyRaw n = s.updOven n fun o => { o with state :=
    if o.state = .coking ∨ o.state = .ready then
      (if (o.chargeEnd.any fun t => decide (min tMax (t + (o.target - s.cfg.timing.w) * 60) ≤ s.now)) then .ready
        else .coking)
    else o.state } := by
  unfold evalReadyRaw
  congr 1
  funext o
  rcases o with ⟨_, st, ce, _, _, _, _, _, _, _⟩
  cases st <;> cases ce <;> simp [readyState, reached, readyTime, timeAdd, Nat.min_comm]

end State

/-- On a link in test a character goes to the checker (R170, R179). -/
theorem doCharacterReceived_inTest {s : State} {m : MachineId} (h : (s.mlink m).test.active = true) (wave : LineWave) :
    doCharacterReceived (.mach m) wave s = doTestCharacter m wave s :=
  if_pos (show s.inTest (.mach m) = true from h)

/-- On a link in test a gap changes nothing: no frame is assembled (R179). -/
theorem doCharacterGapExpiry_inTest {s : State} {m : MachineId} (h : (s.mlink m).test.active = true) :
    doCharacterGapExpiry (.mach m) s = s :=
  if_pos (by rw [show s.inTest (.mach m) = true from h]; rfl)

end Sys2Proof.Machine
end

