-- ==== Sys2Proof/Laws/CarA.lean ====
section
/-! SUPPORT. `CarSafe` under every operation: load record and tower timer follow the car state. -/

set_option linter.all false

namespace Sys2Proof.Machine

open Sys2Proof

namespace State

theorem car_raw {s t : State} (h : CarSafe s) (hc : t.qnu.car.state = s.qnu.car.state)
    (hl : t.qnu.load.isSome = s.qnu.load.isSome) (hp : t.qnu.phase.isSome = s.qnu.phase.isSome) : CarSafe t := by
  unfold CarSafe at *
  rwa [hc, hl, hp]

/-- An empty car: no load record, no tower timer. -/
theorem empty_of {s : State} (h : CarSafe s) (hc : s.qnu.car.state.loaded = false) :
    s.qnu.load.isSome = false ∧ s.qnu.phase.isSome = false := by
  obtain ⟨a, b⟩ := h
  refine ⟨a.trans hc, b.trans ?_⟩
  cases e : s.qnu.car.state <;> simp_all [CarState.loaded, CarState.inTower]

@[simp] theorem held_loaded (d : EmptyDest) : d.held.loaded = false := by cases d <;> rfl
@[simp] theorem held_inTower (d : EmptyDest) : d.held.inTower = false := by cases d <;> rfl

@[simp] theorem updOven_carSafe {s : State} (h : CarSafe s) (n : Nat) (f : OvenRec → OvenRec) :
    CarSafe (s.updOven n f) := by
  unfold CarSafe at *
  simpa using h

@[simp] theorem updDoor_carSafe {s : State} (h : CarSafe s) (n : Nat) (d : Side) (f : DoorRec → DoorRec) :
    CarSafe (s.updDoor n d f) := by
  unfold CarSafe at *
  simpa using h

@[simp] theorem setQueue_carSafe {s : State} (h : CarSafe s) (d : Side) (q : List TaskEntry) :
    CarSafe (s.setQueue d q) := by
  unfold CarSafe at *
  simpa using h

@[simp] theorem updRound_carSafe {s : State} (h : CarSafe s) (d : Side) (f : Inspection → Inspection) :
    CarSafe (s.updRound d f) := by
  unfold CarSafe at *
  simpa using h

@[simp] theorem updSec_carSafe {s : State} (h : CarSafe s) (k : Nat) (f : SecRec → SecRec) :
    CarSafe (s.updSec k f) := by
  unfold CarSafe at *
  simpa using h

@[simp] theorem setBay_carSafe {s : State} (h : CarSafe s) (b : Nat) (r : BayRec) : CarSafe (s.setBay b r) := by
  unfold CarSafe at *
  simpa using h

@[simp] theorem updTerm_carSafe {s : State} (h : CarSafe s) (t : Nat) (f : TermRec → TermRec) :
    CarSafe (s.updTerm t f) := by
  unfold CarSafe at *
  simpa using h

@[simp] theorem updPort_carSafe {s : State} (h : CarSafe s) (l : LinkId) (f : Port → Port) :
    CarSafe (s.updPort l f) := by
  unfold CarSafe at *
  simpa using h

@[simp] theorem updMachine_carSafe {s : State} (h : CarSafe s) (m : MachineId) (f : MachineRec → MachineRec) :
    CarSafe (s.updMachine m f) := by
  unfold CarSafe at *
  simpa using h

@[simp] theorem setPermit_carSafe {s : State} (h : CarSafe s) (m : MachineId) (p : Option Permit) :
    CarSafe (s.setPermit m p) := by
  unfold CarSafe at *
  simpa using h

@[simp] theorem setPush_carSafe {s : State} (h : CarSafe s) (p : Option PushRec) : CarSafe (s.setPush p) := by
  unfold CarSafe at *
  simpa using h

@[simp] theorem raise_carSafe {s : State} (h : CarSafe s) (b : NoticeBody) : CarSafe (s.raise b) := by
  unfold CarSafe at *
  simpa using h

@[simp] theorem send_carSafe {s : State} (h : CarSafe s) (m : MachineId) (f : MFrame) : CarSafe (s.send m f) := by
  unfold CarSafe at *
  simpa using h

@[simp] theorem sendIfOnline_carSafe {s : State} (h : CarSafe s) (m : MachineId) (f : MFrame) :
    CarSafe (s.sendIfOnline m f) := by
  unfold CarSafe at *
  simpa using h

@[simp] theorem sendAllOnline_carSafe {s : State} (h : CarSafe s) (f : MFrame) : CarSafe (s.sendAllOnline f) := by
  unfold CarSafe at *
  simpa using h

@[simp] theorem discard_carSafe {s : State} (h : CarSafe s) (l : LinkId) (c : DiscardCause) :
    CarSafe (s.discard l c) := by
  unfold CarSafe at *
  simpa using h

@[simp] theorem roundVisitCheck_carSafe {s : State} (h : CarSafe s) (d : Side) : CarSafe (s.roundVisitCheck d) := by
  unfold CarSafe at *
  simpa using h

@[simp] theorem dispatchDoor_carSafe {s : State} (h : CarSafe s) (d : Side) : CarSafe (s.dispatchDoor d) := by
  unfold CarSafe at *
  simpa using h

@[simp] theorem dispatchValve_carSafe {s : State} (h : CarSafe s) : CarSafe (s.dispatchValve) := by
  unfold CarSafe at *
  simpa using h

@[simp] theorem dispatchFor_carSafe {s : State} (h : CarSafe s) (x0 : MachineId) : CarSafe (s.dispatchFor x0) := by
  unfold CarSafe at *
  simpa using h

@[simp] theorem disarm_carSafe {s : State} (h : CarSafe s) : CarSafe (s.disarm) := by
  unfold CarSafe at *
  simpa using h

@[simp] theorem revoke_carSafe {s : State} (h : CarSafe s) (m : MachineId) (r : Reason) :
    CarSafe (s.revoke m r) := by
  unfold CarSafe at *
  simpa using h

@[simp] theorem revokeAll_carSafe {s : State} (h : CarSafe s) (r : Reason) : CarSafe (s.revokeAll r) := by
  unfold CarSafe at *
  simpa using h

@[simp] theorem retestOne_carSafe {s : State} (h : CarSafe s) (m : MachineId) : CarSafe (s.retestOne m) := by
  unfold CarSafe at *
  simpa using h

@[simp] theorem retest_carSafe {s : State} (h : CarSafe s) : CarSafe (s.retest) := by
  unfold CarSafe at *
  simpa using h

@[simp] theorem grant_carSafe {s : State} (h : CarSafe s) (m : MachineId) (k : PermitKind) (n : Nat) :
    CarSafe (s.grant m k n) := by
  unfold CarSafe at *
  simpa using h

@[simp] theorem decideRequest_carSafe {s : State} (h : CarSafe s) (m : MachineId) (k : ReqKind) (n : Nat) :
    CarSafe (s.decideRequest m k n) := by
  unfold CarSafe at *
  simpa using h

@[simp] theorem usePermit_carSafe {s : State} (h : CarSafe s) (m : MachineId) : CarSafe (s.usePermit m) := by
  unfold CarSafe at *
  simpa using h

@[simp] theorem updCar_carSafe {s : State} (h : CarSafe s) {f : CarRec → CarRec} (hf : ∀ r, (f r).state = r.state) :
    CarSafe (s.updCar f) := car_raw h (hf _) rfl rfl

theorem setCar_carSafe {s : State} {c : CarState} (hl : s.qnu.load.isSome = c.loaded) (hp : s.qnu.phase.isSome = c.inTower) :
    CarSafe (s.setCar c) := by
  unfold setCar CarSafe
  split
  · rename_i hc
    exact ⟨by rw [hc]; exact hl, by rw [hc]; exact hp⟩
  · exact ⟨hl, hp⟩

@[simp] theorem issueMove_carSafe {s : State} (h : CarSafe s) (dest : MoveDest) : CarSafe (s.issueMove dest) := by
  refine send_carSafe (updCar_carSafe h ?_) _ _
  exact fun _ => rfl

@[simp] theorem testMove_carSafe {s : State} (h : CarSafe s) : CarSafe (s.testMove) := by
  unfold testMove
  (repeat' split) <;> first
    | exact h
    | exact issueMove_carSafe h _
    | exact raise_carSafe (updCar_carSafe h (f := fun r => { r with blockTold := true }) fun _ => rfl) _

@[simp] theorem requestMove_carSafe {s : State} (h : CarSafe s) : CarSafe (s.requestMove) := by
  unfold requestMove
  split
  · exact h
  · exact testMove_carSafe (updCar_carSafe h (f := fun r => { r with move := .pending, blockTold := false }) fun _ => rfl)

theorem sendCar_carSafe {s : State} {c : CarState} (hl : s.qnu.load.isSome = c.loaded) (hp : s.qnu.phase.isSome = c.inTower) :
    CarSafe (s.sendCar c) := by
  exact retest_carSafe (requestMove_carSafe (setCar_carSafe hl hp))

theorem settleCar_carSafe {s : State} {c : CarState} (hl : s.qnu.load.isSome = c.loaded) (hp : s.qnu.phase.isSome = c.inTower) :
    CarSafe (s.settleCar c) := by
  refine retest_carSafe (updCar_carSafe (setCar_carSafe hl hp) ?_)
  exact fun _ => rfl

@[simp] theorem withdrawMove_carSafe {s : State} (h : CarSafe s) : CarSafe (s.withdrawMove) := by
  unfold withdrawMove
  split
  · exact updCar_carSafe h fun _ => rfl
  · exact h

@[simp] theorem requestDump_carSafe {s : State} (h : CarSafe s) : CarSafe (s.requestDump) := by
  unfold requestDump
  split
  · exact h
  · split
    · exact updCar_carSafe h fun _ => rfl
    · refine send_carSafe (updCar_carSafe h ?_) _ _
      exact fun _ => rfl

@[simp] theorem testDump_carSafe {s : State} (h : CarSafe s) : CarSafe (s.testDump) := by
  unfold testDump
  try dsimp only
  (repeat' split) <;> simp +contextual (maxDischargeDepth := 40) [h]

theorem sendOnward_carSafe {s : State} (hl : s.qnu.load.isSome = false) (hp : s.qnu.phase.isSome = false) : CarSafe s.sendOnward := by
  unfold sendOnward
  dsimp only
  split
  · exact settleCar_carSafe (by simpa using hl) (by simpa using hp)
  · exact sendCar_carSafe hl hp

@[simp] theorem reconsiderCar_carSafe {s : State} (h : CarSafe s) (b : Nat) : CarSafe (s.reconsiderCar b) := by
  unfold reconsiderCar
  split <;> rename_i hc
  · obtain ⟨hl, hp⟩ := empty_of h (by simp [hc, CarState.loaded])
    split
    · exact h
    · exact sendCar_carSafe hl hp
  · obtain ⟨hl, hp⟩ := empty_of h (by simp [hc, CarState.loaded])
    exact sendCar_carSafe hl hp
  · obtain ⟨hl, hp⟩ := empty_of h (by simp [hc, CarState.loaded])
    split
    · exact h
    · exact sendCar_carSafe hl hp
  · exact h

@[simp] theorem reconsiderNext_carSafe {s : State} (h : CarSafe s) : CarSafe (s.reconsiderNext) := by
  unfold reconsiderNext
  try dsimp only
  (repeat' split) <;> simp +contextual (maxDischargeDepth := 40) [h]

@[simp] theorem leaveUnknown_carSafe {s : State} (h : CarSafe s) : CarSafe (s.leaveUnknown) := by
  unfold leaveUnknown
  split
  · rename_i hc
    have hs : s.qnu.car.state = .unknown := by simp at hc; tauto
    obtain ⟨hl, hp⟩ := empty_of h (by simp [hs, CarState.loaded])
    split
    · exact sendOnward_carSafe hl hp
    · split
      · exact h
      · refine raise_carSafe (updCar_carSafe h ?_) _
        exact fun _ => rfl
    · exact h
  · exact h

theorem chooseBay_carSafe {s : State} (h : s.qnu.load.isSome = true) (hp : s.qnu.phase.isSome = false) : CarSafe s.chooseBay := by
  unfold chooseBay
  split
  · rename_i hl
    simp [hl] at h
  · split
    · exact sendCar_carSafe (by simp [CarState.loaded]) (by simpa [CarState.inTower] using hp)
    · split
      · rename_i hc
        exact ⟨by simp [hc, h, CarState.loaded], by simp [hc, hp, CarState.inTower]⟩
      · refine retest_carSafe (raise_carSafe (updCar_carSafe (setCar_carSafe ?_ ?_) ?_) _)
        · simp [h, CarState.loaded]
        · simp [hp, CarState.inTower]
        · exact fun _ => rfl

@[simp] theorem startDischarge_carSafe {s : State} (h : CarSafe s) : CarSafe (s.startDischarge) := by
  unfold CarSafe at *
  simpa using h

@[simp] theorem interruptDischarge_carSafe {s : State} (h : CarSafe s) (b : Nat) :
    CarSafe (s.interruptDischarge b) := by
  unfold CarSafe at *
  simpa using h

@[simp] theorem conveyorLost_carSafe {s : State} (h : CarSafe s) : CarSafe (s.conveyorLost) := by
  unfold CarSafe at *
  simpa using h

@[simp] theorem gateEnd_carSafe {s : State} (h : CarSafe s) (b : Nat) : CarSafe (s.gateEnd b) := by
  have h1 : CarSafe ({ s.setBay b (.free s.now) with
      qnu.discharge := (s.setBay b (.free s.now)).qnu.discharge.filter (· != b)
      qnu.free := insertFree (s.setBay b (.free s.now)).freeSince b (s.setBay b (.free s.now)).now
        (s.setBay b (.free s.now)).qnu.free } : State) := h
  unfold gateEnd
  dsimp only
  split
  · rename_i hc
    refine startDischarge_carSafe (chooseBay_carSafe ?_ ?_)
    · exact h.1.trans (by rw [show s.qnu.car.state = .waitBay from hc]; rfl)
    · exact h.2.trans (by rw [show s.qnu.car.state = .waitBay from hc]; rfl)
  · exact startDischarge_carSafe h1

@[simp] theorem ramStartCar_carSafe {s : State} (h : CarSafe s) (n : Nat) : CarSafe (s.ramStartCar n) := by
  unfold ramStartCar
  split
  · rename_i hc
    obtain ⟨hl, hp⟩ := empty_of h (by simp [hc, CarState.loaded])
    exact retest_carSafe (setCar_carSafe hl hp)
  · exact raise_carSafe h _

@[simp] theorem stickerCar_carSafe {s : State} (h : CarSafe s) (n : Nat) : CarSafe (s.stickerCar n) := by
  unfold stickerCar
  split
  · rename_i hc
    obtain ⟨hl, hp⟩ := empty_of h (by simp [hc, CarState.loaded])
    exact retest_carSafe (setCar_carSafe hl hp)
  · exact h

@[simp] theorem ramEndCar_carSafe {s : State} (h : CarSafe s) (n t : Nat) : CarSafe (s.ramEndCar n t) := by
  unfold ramEndCar
  split
  · rename_i hc
    obtain ⟨hl, hp⟩ := empty_of h (by rcases hc with hc | hc <;> simp [hc, CarState.loaded])
    exact sendCar_carSafe (by simp [CarState.loaded]) hp
  · exact raise_carSafe h _

@[simp] theorem arrive_carSafe {s : State} (h : CarSafe s) : CarSafe (s.arrive) := by
  unfold arrive
  split <;> rename_i hc
  · obtain ⟨hl, hp⟩ := empty_of h (by simp [hc, CarState.loaded])
    exact settleCar_carSafe (by simpa using hl) (by simpa using hp)
  · have hl := h.1
    simp only [hc, CarState.loaded] at hl
    exact settleCar_carSafe (by simpa [CarState.loaded] using hl) (by simp [CarState.inTower])
  · have hl := h.1
    have hp := h.2
    simp only [hc, CarState.loaded, CarState.inTower] at hl hp
    exact requestDump_carSafe (settleCar_carSafe hl hp)
  · exact h

@[simp] theorem checkLoadedPlace_carSafe {s : State} (h : CarSafe s) (spot : Option ReportedSpot) :
    CarSafe (s.checkLoadedPlace spot) := by
  unfold checkLoadedPlace
  split
  · exact h
  · split
    · exact h
    · refine raise_carSafe (updCar_carSafe h ?_) _
      exact fun _ => rfl

@[simp] theorem checkEmptyPlace_carSafe {s : State} (h : CarSafe s) (spot : Option ReportedSpot) :
    CarSafe (s.checkEmptyPlace spot) := by
  have h1 : s.qnu.car.state.loaded = false → ∀ d b, CarSafe (if (s.machine .qc).position = some (EmptyDest.spot d).position then s else
      (if b.isSome = true then s.raise (.carPosition s.qnu.car.state b) else s).sendCar (.toOven d)) :=
    fun hc d b => by
      obtain ⟨hl, hp⟩ := empty_of h hc
      split
      · exact h
      · refine sendCar_carSafe ?_ ?_
        · split <;> simpa [CarState.loaded] using hl
        · split <;> simpa [CarState.inTower] using hp
  unfold checkEmptyPlace
  dsimp only
  split <;> rename_i hc
  · exact h1 (by simp [hc, CarState.loaded]) _ _
  · exact h1 (by simp [hc, CarState.loaded]) _ _
  · exact h

theorem followLocal_carSafe {s : State} (hl : s.qnu.load.isSome = false) (hp : s.qnu.phase.isSome = false) (stopped : Option CarSpot) :
    CarSafe (s.followLocal stopped) := by
  unfold followLocal
  split
  · exact settleCar_carSafe hl hp
  · exact settleCar_carSafe hl hp
  · exact sendCar_carSafe hl hp

@[simp] theorem qcStatus_carSafe {s : State} (h : CarSafe s) (oldMode : Option Mode) (stopped : Option CarSpot)
    (spot : ReportedSpot) : CarSafe (s.qcStatus oldMode stopped spot) := by
  have h1 : CarSafe (if stopped.isSome = true then s.updCar fun r => { r with lastSpot := stopped } else s) := by
    split
    · exact updCar_carSafe h fun _ => rfl
    · exact h
  have h2 : ∀ {t : State}, CarSafe t → ∀ a b : Bool, CarSafe (if t.qnu.car.state = .unknown then t.leaveUnknown
      else if (a && t.carEmpty) = true then t.followLocal stopped else if b = true then t.arrive else t.checkEmptyPlace (some spot)) :=
    fun {t} ht a b => by
      split
      · exact leaveUnknown_carSafe ht
      · split
        · rename_i hc
          have he : t.qnu.car.state.loaded = false := by
            simp only [Bool.and_eq_true, carEmpty] at hc
            cases e : t.qnu.car.state <;> simp_all [CarState.loaded]
          obtain ⟨hl, hp⟩ := empty_of ht he
          exact followLocal_carSafe hl hp _
        · split
          · exact arrive_carSafe ht
          · exact checkEmptyPlace_carSafe ht _
  have h3 : ∀ {t : State}, CarSafe t → ∀ a : Bool, CarSafe (if a = true then t.withdrawMove else t) := fun ht a => by
    split
    · exact withdrawMove_carSafe ht
    · exact ht
  have h4 : ∀ {t : State}, CarSafe t → ∀ a : Bool, CarSafe (if a = true then t.reconsiderNext else t) := fun ht a => by
    split
    · exact reconsiderNext_carSafe ht
    · exact ht
  exact testDump_carSafe (testMove_carSafe (h4 (h3 (checkLoadedPlace_carSafe (h2 h1 _ _) _) _) _))

@[simp] theorem qcOffline_carSafe {s : State} (h : CarSafe s) : CarSafe (s.qcOffline) := by
  unfold qcOffline
  try dsimp only
  (repeat' split) <;> simp +contextual (maxDischargeDepth := 40) [h]

@[simp] theorem setValves_carSafe {s : State} (h : CarSafe s) (q : List ValveEntry) : CarSafe (s.setValves q) := by
  unfold CarSafe at *
  simpa using h

@[simp] theorem withdrawNotice_carSafe {s : State} (h : CarSafe s) (e : ValveEntry) :
    CarSafe (s.withdrawNotice e) := by
  unfold CarSafe at *
  simpa using h

@[simp] theorem clearValveWork_carSafe {s : State} (h : CarSafe s) (o : Nat) : CarSafe (s.clearValveWork o) := by
  unfold CarSafe at *
  simpa using h

@[simp] theorem replaceAction_carSafe {s : State} (h : CarSafe s) (e : ValveEntry) (a : ValveAction) :
    CarSafe (s.replaceAction e a) := by
  unfold CarSafe at *
  simpa using h

@[simp] theorem holdBack_carSafe {s : State} (h : CarSafe s) (o : Nat) (a : ValveAction) :
    CarSafe (s.holdBack o a) := by
  unfold CarSafe at *
  simpa using h

@[simp] theorem decideOffer_carSafe {s : State} (h : CarSafe s) (o : Nat) (a : ValveAction) :
    CarSafe (s.decideOffer o a) := by
  unfold CarSafe at *
  simpa using h

@[simp] theorem offerValve_carSafe {s : State} (h : CarSafe s) (o : Nat) (a : ValveAction) :
    CarSafe (s.offerValve o a) := by
  unfold CarSafe at *
  simpa using h

@[simp] theorem valveTimeout_carSafe {s : State} (h : CarSafe s) (e : ValveEntry) : CarSafe (s.valveTimeout e) := by
  unfold CarSafe at *
  simpa using h

@[simp] theorem valveOffline_carSafe {s : State} (h : CarSafe s) : CarSafe (s.valveOffline) := by
  unfold CarSafe at *
  simpa using h

@[simp] theorem ccDone_carSafe {s : State} (h : CarSafe s) (o : Nat) (a : ValveAction) (r : ValveResult) :
    CarSafe (s.ccDone o a r) := by
  unfold CarSafe at *
  simpa using h

@[simp] theorem setIsolate_carSafe {s : State} (h : CarSafe s) (o expiry : Nat) :
    CarSafe (s.setIsolate o expiry) := by
  unfold CarSafe at *
  simpa using h

@[simp] theorem normalCheck_carSafe {s : State} (h : CarSafe s) (o : Nat) : CarSafe (s.normalCheck o) := by
  unfold CarSafe at *
  simpa using h

@[simp] theorem nextForValves_carSafe {s : State} (h : CarSafe s) (old new : Option (Nat × Nat)) :
    CarSafe (s.nextForValves old new) := by
  unfold CarSafe at *
  simpa using h

@[simp] theorem updPlan_carSafe {s : State} (h : CarSafe s) (f : Planner → Planner) : CarSafe (s.updPlan f) := by
  unfold CarSafe at *
  simpa using h

@[simp] theorem updCursor_carSafe {s : State} (h : CarSafe s) (f : Slot → Slot) : CarSafe (s.updCursor f) := by
  unfold CarSafe at *
  simpa using h

@[simp] theorem idleServing_carSafe {s : State} (h : CarSafe s) : CarSafe (s.idleServing) := by
  unfold CarSafe at *
  simpa using h

@[simp] theorem build_carSafe {s : State} (h : CarSafe s) (p : SeriesParams) (start number : Nat) (stagedUsed : Bool) (st : PlanState) :
    CarSafe (s.build p start number stagedUsed st) := by
  unfold CarSafe at *
  simpa using h

@[simp] theorem buildNext_carSafe {s : State} (h : CarSafe s) : CarSafe (s.buildNext) := by
  unfold CarSafe at *
  simpa using h

@[simp] theorem boundary_carSafe {s : State} (h : CarSafe s) : CarSafe (s.boundary) := by
  unfold CarSafe at *
  simpa using h

@[simp] theorem advance_carSafe {s : State} (h : CarSafe s) : CarSafe (s.advance) := by
  unfold CarSafe at *
  simpa using h

@[simp] theorem passSlot_carSafe {s : State} (h : CarSafe s) (reason : PassReason) :
    CarSafe (s.passSlot reason) := by
  unfold CarSafe at *
  simpa using h

@[simp] theorem checkOnce_carSafe {s : State} (h : CarSafe s) : CarSafe (s.checkOnce).1 := by
  unfold CarSafe at *
  simpa using h

@[simp] theorem makeupCheck_carSafe {s : State} (h : CarSafe s) : CarSafe (s.makeupCheck) := by
  unfold CarSafe at *
  simpa using h

@[simp] theorem planSettle_carSafe {s : State} (h : CarSafe s) : CarSafe (s.planSettle) := by
  unfold CarSafe at *
  simpa using h

@[simp] theorem planReport_carSafe {s : State} (h : CarSafe s) : CarSafe (s.planReport) := by
  unfold planReport
  try dsimp only
  (repeat' split) <;> simp +contextual (maxDischargeDepth := 40) [h]

@[simp] theorem planUpdate_carSafe {s : State} (h : CarSafe s) : CarSafe (s.planUpdate) := by
  unfold planUpdate
  try dsimp only
  (repeat' split) <;> simp +contextual (maxDischargeDepth := 40) [h]

@[simp] theorem releaseServing_carSafe {s : State} (h : CarSafe s) : CarSafe (s.releaseServing) := by
  unfold CarSafe at *
  simpa using h

@[simp] theorem planOvenChanged_carSafe {s : State} (h : CarSafe s) (n : Nat) : CarSafe (s.planOvenChanged n) := by
  unfold planOvenChanged
  try dsimp only
  (repeat' split) <;> simp +contextual (maxDischargeDepth := 40) [h]

@[simp] theorem writeMode_carSafe {s : State} (h : CarSafe s) (n : Nat) (mode : SlotMode) (fixedPush : Option Nat) :
    CarSafe (s.writeMode n mode fixedPush) := by
  unfold writeMode
  try dsimp only
  (repeat' split) <;> simp +contextual (maxDischargeDepth := 40) [h]

@[simp] theorem planHalt_carSafe {s : State} (h : CarSafe s) : CarSafe (s.planHalt) := by
  unfold planHalt
  try dsimp only
  (repeat' split) <;> simp +contextual (maxDischargeDepth := 40) [h]

@[simp] theorem planPushBegins_carSafe {s : State} (h : CarSafe s) (n : Nat) : CarSafe (s.planPushBegins n) := by
  unfold planPushBegins
  try dsimp only
  (repeat' split) <;> simp +contextual (maxDischargeDepth := 40) [h]

@[simp] theorem planRamStart_carSafe {s : State} (h : CarSafe s) (n : Nat) : CarSafe (s.planRamStart n) := by
  unfold planRamStart
  try dsimp only
  (repeat' split) <;> simp +contextual (maxDischargeDepth := 40) [h]

@[simp] theorem dropMakeup_carSafe {s : State} (h : CarSafe s) (n : Nat) : CarSafe (s.dropMakeup n) := by
  unfold CarSafe at *
  simpa using h

@[simp] theorem advanceIfRunning_carSafe {s : State} (h : CarSafe s) : CarSafe (s.advanceIfRunning) := by
  unfold CarSafe at *
  simpa using h

@[simp] theorem planPushComplete_carSafe {s : State} (h : CarSafe s) (n : Nat) :
    CarSafe (s.planPushComplete n) := by
  unfold planPushComplete
  try dsimp only
  (repeat' split) <;> simp +contextual (maxDischargeDepth := 40) [h]

@[simp] theorem planAbandon_carSafe {s : State} (h : CarSafe s) (n : Nat) : CarSafe (s.planAbandon n) := by
  unfold planAbandon
  try dsimp only
  (repeat' split) <;> simp +contextual (maxDischargeDepth := 40) [h]

@[simp] theorem planReturn_carSafe {s : State} (h : CarSafe s) : CarSafe (s.planReturn) := by
  unfold planReturn
  try dsimp only
  (repeat' split) <;> simp +contextual (maxDischargeDepth := 40) [h]

@[simp] theorem planResumeOp_carSafe {s : State} (h : CarSafe s) : CarSafe (s.planResumeOp) := by
  unfold planResumeOp
  try dsimp only
  (repeat' split) <;> simp +contextual (maxDischargeDepth := 40) [h]

@[simp] theorem rangeEnd_carSafe {s : State} (h : CarSafe s) (r : RangeOp) (aborted : Bool) :
    CarSafe (s.rangeEnd r aborted) := by
  unfold CarSafe at *
  simpa using h

@[simp] theorem rangeStep_carSafe {s : State} (h : CarSafe s) (r : RangeOp) : CarSafe (s.rangeStep r) := by
  unfold rangeStep
  try dsimp only
  (repeat' split) <;> simp +contextual (maxDischargeDepth := 40) [h]

@[simp] theorem planRestart_carSafe {s : State} (h : CarSafe s) : CarSafe (s.planRestart) := by
  unfold CarSafe at *
  simpa using h

@[simp] theorem ovenChanged_carSafe {s : State} (h : CarSafe s) (n : Nat) : CarSafe (s.ovenChanged n) := by
  unfold ovenChanged
  try dsimp only
  (repeat' split) <;> simp +contextual (maxDischargeDepth := 40) [h]

@[simp] theorem evalReadyRaw_carSafe {s : State} (h : CarSafe s) (n : Nat) : CarSafe (s.evalReadyRaw n) := by
  unfold CarSafe at *
  simpa using h

@[simp] theorem evalReady_carSafe {s : State} (h : CarSafe s) (n : Nat) : CarSafe (s.evalReady n) := by
  unfold evalReady
  try dsimp only
  (repeat' split) <;> simp +contextual (maxDischargeDepth := 40) [h]

@[simp] theorem overdueCheck_carSafe {s : State} (h : CarSafe s) (n : Nat) : CarSafe (s.overdueCheck n) := by
  unfold CarSafe at *
  simpa using h

@[simp] theorem sweepOvens_carSafe {s : State} (h : CarSafe s) (l : List Nat) : CarSafe (sweepOvens l s) := by
  induction l generalizing s with
  | nil => exact h
  | cons a l ih => exact ih (overdueCheck_carSafe (evalReady_carSafe h a) a)

@[simp] theorem readySweep_carSafe {s : State} (h : CarSafe s) : CarSafe (s.readySweep) := by
  unfold readySweep
  try dsimp only
  (repeat' split) <;> simp +contextual (maxDischargeDepth := 40) [h]

@[simp] theorem dropCharge_carSafe {s : State} (h : CarSafe s) (n : Nat) : CarSafe (s.dropCharge n) := by
  unfold CarSafe at *
  simpa using h

@[simp] theorem beginCoking_carSafe {s : State} (h : CarSafe s) (n : Nat) : CarSafe (s.beginCoking n) := by
  unfold CarSafe at *
  simpa using h

@[simp] theorem assumeEnd_carSafe {s : State} (h : CarSafe s) (m : Nat) : CarSafe (s.assumeEnd m) := by
  unfold assumeEnd
  try dsimp only
  (repeat' split) <;> simp +contextual (maxDischargeDepth := 40) [h]

@[simp] theorem chargeFact_carSafe {s : State} (h : CarSafe s) (n : Nat) : CarSafe (s.chargeFact n) := by
  unfold chargeFact
  split
  · dsimp only
    split
    · refine ovenChanged_carSafe ?_ n
      exact car_raw (assumeEnd_carSafe (updOven_carSafe h n _) _) rfl rfl rfl
    · refine ovenChanged_carSafe ?_ n
      exact car_raw h rfl rfl rfl
  · exact h

@[simp] theorem chargeEndFact_carSafe {s : State} (h : CarSafe s) (n : Nat) : CarSafe (s.chargeEndFact n) := by
  unfold chargeEndFact
  try dsimp only
  (repeat' split) <;> simp +contextual (maxDischargeDepth := 40) [h]

@[simp] theorem feedForward_carSafe {s : State} (h : CarSafe s) (k : Nat) (old new : ValveState) :
    CarSafe (s.feedForward k old new) := by
  unfold CarSafe at *
  simpa using h

@[simp] theorem dropReachedOffer_carSafe {s : State} (h : CarSafe s) (n : Nat) (v : ValveState) :
    CarSafe (s.dropReachedOffer n v) := by
  unfold CarSafe at *
  simpa using h

@[simp] theorem valveReport_carSafe {s : State} (h : CarSafe s) (n : Nat) (v : ValveState) :
    CarSafe (s.valveReport n v) := by
  unfold CarSafe at *
  simpa using h

@[simp] theorem setPending_carSafe {s : State} (h : CarSafe s) (n : Nat) (d : Side) :
    CarSafe (s.setPending n d) := by
  unfold CarSafe at *
  simpa using h

@[simp] theorem offerFull_carSafe {s : State} (h : CarSafe s) (d : Side) (n : Nat) (k : TaskKind) :
    CarSafe (s.offerFull d n k) := by
  unfold CarSafe at *
  simpa using h

@[simp] theorem offerTask_carSafe {s : State} (h : CarSafe s) (d : Side) (n : Nat) (k : TaskKind) :
    CarSafe (s.offerTask d n k) := by
  unfold CarSafe at *
  simpa using h

@[simp] theorem offerInRun_carSafe {s : State} (h : CarSafe s) (d : Side) (n : Nat) (k : TaskKind) :
    CarSafe (s.offerInRun d n k) := by
  unfold CarSafe at *
  simpa using h

@[simp] theorem pendingRelease_carSafe {s : State} (h : CarSafe s) (d : Side) : CarSafe (s.pendingRelease d) := by
  unfold CarSafe at *
  simpa using h

@[simp] theorem dropSealWork_carSafe {s : State} (h : CarSafe s) (d : Side) (n : Nat) :
    CarSafe (s.dropSealWork d n) := by
  unfold CarSafe at *
  simpa using h

@[simp] theorem enterLeaking_carSafe {s : State} (h : CarSafe s) (n : Nat) (d : Side) :
    CarSafe (s.enterLeaking n d) := by
  unfold CarSafe at *
  simpa using h

@[simp] theorem leakAt_carSafe {s : State} (h : CarSafe s) (n : Nat) (d : Side) : CarSafe (s.leakAt n d) := by
  unfold CarSafe at *
  simpa using h

@[simp] theorem doorTight_carSafe {s : State} (h : CarSafe s) (n : Nat) (d : Side) : CarSafe (s.doorTight n d) := by
  unfold CarSafe at *
  simpa using h

@[simp] theorem withdrawAt_carSafe {s : State} (h : CarSafe s) (n : Nat) (d : Side) :
    CarSafe (s.withdrawAt n d) := by
  unfold CarSafe at *
  simpa using h

@[simp] theorem doorGoesOff_carSafe {s : State} (h : CarSafe s) (n : Nat) (d : Side) :
    CarSafe (s.doorGoesOff n d) := by
  unfold CarSafe at *
  simpa using h

@[simp] theorem doorSequence_carSafe {s : State} (h : CarSafe s) (n : Nat) (d : Side) (rep : ReportName) :
    CarSafe (s.doorSequence n d rep) := by
  unfold CarSafe at *
  simpa using h

@[simp] theorem doorOnFact_carSafe {s : State} (h : CarSafe s) (n : Nat) (d : Side) :
    CarSafe (s.doorOnFact n d).1 := by
  unfold CarSafe at *
  simpa using h

@[simp] theorem doorTightFact_carSafe {s : State} (h : CarSafe s) (n : Nat) (d : Side) :
    CarSafe (s.doorTightFact n d) := by
  unfold CarSafe at *
  simpa using h

@[simp] theorem applyResult_carSafe {s : State} (h : CarSafe s) (d : Side) (n : Nat) (k : TaskKind) (r : TaskResult) :
    CarSafe (s.applyResult d n k r) := by
  unfold CarSafe at *
  simpa using h

@[simp] theorem visitDone_carSafe {s : State} (h : CarSafe s) (d : Side) (n : Nat) : CarSafe (s.visitDone d n) := by
  unfold CarSafe at *
  simpa using h

@[simp] theorem taskDoneOp_carSafe {s : State} (h : CarSafe s) (d : Side) (n : Nat) (k : TaskKind) (r : TaskResult) :
    CarSafe (s.taskDoneOp d n k r) := by
  unfold CarSafe at *
  simpa using h

@[simp] theorem taskTimeout_carSafe {s : State} (h : CarSafe s) (d : Side) (e : TaskEntry) :
    CarSafe (s.taskTimeout d e) := by
  unfold CarSafe at *
  simpa using h

@[simp] theorem visitTimeout_carSafe {s : State} (h : CarSafe s) (d : Side) (v : Visit) :
    CarSafe (s.visitTimeout d v) := by
  unfold CarSafe at *
  simpa using h

@[simp] theorem doorOffline_carSafe {s : State} (h : CarSafe s) (d : Side) : CarSafe (s.doorOffline d) := by
  unfold CarSafe at *
  simpa using h

@[simp] theorem accrue_carSafe {s : State} (h : CarSafe s) (d : Side) : CarSafe (s.accrue d) := by
  unfold CarSafe at *
  simpa using h

@[simp] theorem confirmExpire_carSafe {s : State} (h : CarSafe s) (n : Nat) (d : Side) :
    CarSafe (s.confirmExpire n d) := by
  unfold CarSafe at *
  simpa using h

@[simp] theorem commitDoors_carSafe {s : State} (h : CarSafe s) (d : Side) : CarSafe (s.commitDoors d) := by
  unfold CarSafe at *
  simpa using h

@[simp] theorem doorRestart_carSafe {s : State} (h : CarSafe s) : CarSafe (s.doorRestart) := by
  unfold CarSafe at *
  simpa using h

@[simp] theorem updPush_carSafe {s : State} (h : CarSafe s) (f : PushRec → PushRec) : CarSafe (s.updPush f) := by
  unfold CarSafe at *
  simpa using h

@[simp] theorem holdTimer_carSafe {s : State} (h : CarSafe s) : CarSafe (s.holdTimer) := by
  unfold CarSafe at *
  simpa using h

@[simp] theorem sticker_carSafe {s : State} (h : CarSafe s) (p : PushRec) : CarSafe (s.sticker p) := by
  unfold sticker
  try dsimp only
  (repeat' split) <;> simp +contextual (maxDischargeDepth := 40) [h]

@[simp] theorem pushLate_carSafe {s : State} (h : CarSafe s) (p : PushRec) : CarSafe (s.pushLate p) := by
  unfold CarSafe at *
  simpa using h

@[simp] theorem stageExpire_carSafe {s : State} (h : CarSafe s) (p : PushRec) : CarSafe (s.stageExpire p) := by
  unfold stageExpire
  try dsimp only
  (repeat' split) <;> simp +contextual (maxDischargeDepth := 40) [h]

@[simp] theorem resumeTimer_carSafe {s : State} (h : CarSafe s) : CarSafe (s.resumeTimer) := by
  unfold resumeTimer
  try dsimp only
  (repeat' split) <;> simp +contextual (maxDischargeDepth := 40) [h]

@[simp] theorem pushRemoved_carSafe {s : State} (h : CarSafe s) (n : Nat) : CarSafe (s.pushRemoved n) := by
  unfold pushRemoved
  try dsimp only
  (repeat' split) <;> simp +contextual (maxDischargeDepth := 40) [h]

@[simp] theorem pushComplete_carSafe {s : State} (h : CarSafe s) (p : PushRec) : CarSafe (s.pushComplete p) := by
  unfold pushComplete
  try dsimp only
  (repeat' split) <;> simp +contextual (maxDischargeDepth := 40) [h]

@[simp] theorem completionTest_carSafe {s : State} (h : CarSafe s) : CarSafe (s.completionTest) := by
  unfold completionTest
  try dsimp only
  (repeat' split) <;> simp +contextual (maxDischargeDepth := 40) [h]

@[simp] theorem followRam_carSafe {s : State} (h : CarSafe s) (n : Nat) : CarSafe (s.followRam n) := by
  unfold followRam
  try dsimp only
  (repeat' split) <;> simp +contextual (maxDischargeDepth := 40) [h]

@[simp] theorem takeRamEnd_carSafe {s : State} (h : CarSafe s) (p : PushRec) (derived : Bool) :
    CarSafe (s.takeRamEnd p derived) := by
  unfold takeRamEnd
  try dsimp only
  (repeat' split) <;> simp +contextual (maxDischargeDepth := 40) [h]

@[simp] theorem enterClosing_carSafe {s : State} (h : CarSafe s) (p : PushRec) (derived : Bool) :
    CarSafe (s.enterClosing p derived) := by
  unfold CarSafe at *
  simpa using h

@[simp] theorem pushLoses_carSafe {s : State} (h : CarSafe s) (m : MachineId) : CarSafe (s.pushLoses m) := by
  unfold CarSafe at *
  simpa using h

@[simp] theorem rederiveStage_carSafe {s : State} (h : CarSafe s) (p : PushRec) : CarSafe (s.rederiveStage p) := by
  unfold rederiveStage
  try dsimp only
  (repeat' split) <;> simp +contextual (maxDischargeDepth := 40) [h]

@[simp] theorem rederive_carSafe {s : State} (h : CarSafe s) (p : PushRec) : CarSafe (s.rederive p) := by
  unfold rederive
  try dsimp only
  (repeat' split) <;> simp +contextual (maxDischargeDepth := 40) [h]

@[simp] theorem pushRegains_carSafe {s : State} (h : CarSafe s) (m : MachineId) (became : Bool) :
    CarSafe (s.pushRegains m became) := by
  unfold pushRegains
  try dsimp only
  (repeat' split) <;> simp +contextual (maxDischargeDepth := 40) [h]

@[simp] theorem sendClears_carSafe {s : State} (h : CarSafe s) (c : HoldCause) : CarSafe (s.sendClears c) := by
  unfold CarSafe at *
  simpa using h

@[simp] theorem workAfterHold_carSafe {s : State} (h : CarSafe s) : CarSafe (s.workAfterHold) := by
  unfold workAfterHold
  try dsimp only
  (repeat' split) <;> simp +contextual (maxDischargeDepth := 40) [h]

@[simp] theorem holdEnds_carSafe {s : State} (h : CarSafe s) (c : HoldCause) : CarSafe (s.holdEnds c) := by
  unfold holdEnds
  try dsimp only
  (repeat' split) <;> simp +contextual (maxDischargeDepth := 40) [h]

@[simp] theorem holdStarts_carSafe {s : State} (h : CarSafe s) (c : HoldCause) : CarSafe (s.holdStarts c) := by
  exact withdrawMove_carSafe (sendAllOnline_carSafe (s := { s with ilk.holdCause := c }) h _)

@[simp] theorem stopSets_carSafe {s : State} (h : CarSafe s) : CarSafe (s.stopSets) := by
  have h1 := holdTimer_carSafe (revokeAll_carSafe (raise_carSafe (s := { s with ilk.stop := true }) h (.batteryStop true)) .stopped)
  unfold stopSets
  dsimp only
  split
  · exact h1
  · exact holdStarts_carSafe h1 _

@[simp] theorem stopClears_carSafe {s : State} (h : CarSafe s) : CarSafe (s.stopClears) := by
  exact holdEnds_carSafe (resumeTimer_carSafe (raise_carSafe (s := { s with ilk.stop := false }) h _)) _

@[simp] theorem stopFollows_carSafe {s : State} (h : CarSafe s) (active : Bool) :
    CarSafe (s.stopFollows active) := by
  unfold stopFollows
  try dsimp only
  (repeat' split) <;> simp +contextual (maxDischargeDepth := 40) [h]

@[simp] theorem breachBegins_carSafe {s : State} (h : CarSafe s) (n : Nat) : CarSafe (s.breachBegins n) := by
  unfold CarSafe at *
  simpa using h

@[simp] theorem breachEnds_carSafe {s : State} (h : CarSafe s) (n : Nat) (m : MachineId) (rep : ReportName) (held : Option Permit) :
    CarSafe (s.breachEnds n m rep held) := by
  unfold breachEnds
  try dsimp only
  (repeat' split) <;> simp +contextual (maxDischargeDepth := 40) [h]

@[simp] theorem writeRam_carSafe {s : State} (h : CarSafe s) (r : Ram) : CarSafe (s.writeRam r) := by
  unfold CarSafe at *
  simpa using h

@[simp] theorem ramStartFact_carSafe {s : State} (h : CarSafe s) (n : Nat) : CarSafe (s.ramStartFact n) := by
  unfold CarSafe at *
  simpa using h

@[simp] theorem updGate_carSafe {s : State} (h : CarSafe s) (k : Nat) (f : Gate → Gate) :
    CarSafe (s.updGate k f) := by
  unfold CarSafe at *
  simpa using h

@[simp] theorem endGate_carSafe {s : State} (h : CarSafe s) (k : Nat) : CarSafe (s.endGate k) := by
  unfold CarSafe at *
  simpa using h

@[simp] theorem faultReading_carSafe {s : State} (h : CarSafe s) (k n : Nat) : CarSafe (s.faultReading k n) := by
  unfold CarSafe at *
  simpa using h

@[simp] theorem goodReading_carSafe {s : State} (h : CarSafe s) (k : Nat) (p : Int) :
    CarSafe (s.goodReading k p) := by
  unfold CarSafe at *
  simpa using h

@[simp] theorem recover_carSafe {s : State} (h : CarSafe s) (k : Nat) (p : Int) : CarSafe (s.recover k p) := by
  unfold CarSafe at *
  simpa using h

@[simp] theorem chargeUnderPressure_carSafe {s : State} (h : CarSafe s) (k : Nat) (l : AlarmLevel) :
    CarSafe (s.chargeUnderPressure k l) := by
  unfold CarSafe at *
  simpa using h

@[simp] theorem alarmEval_carSafe {s : State} (h : CarSafe s) (k : Nat) (p : Int) : CarSafe (s.alarmEval k p) := by
  unfold CarSafe at *
  simpa using h

@[simp] theorem sectionStep_carSafe {s : State} (h : CarSafe s) (k : Nat) (back : Bool) (rd : Reading) :
    CarSafe (s.sectionStep k back rd) := by
  unfold CarSafe at *
  simpa using h

@[simp] theorem endSection_carSafe {s : State} (h : CarSafe s) (k : Nat) : CarSafe (s.endSection k) := by
  unfold CarSafe at *
  simpa using h

@[simp] theorem endSections_carSafe {s : State} (h : CarSafe s) (l : List Nat) : CarSafe (endSections l s) := by
  induction l generalizing s with
  | nil => exact h
  | cons a l ih => exact ih (endSection_carSafe h a)

@[simp] theorem activateSections_carSafe {s : State} (h : CarSafe s) : CarSafe (s.activateSections) := by
  unfold CarSafe at *
  simpa using h

@[simp] theorem holdSections_carSafe {s : State} (h : CarSafe s) : CarSafe (s.holdSections) := by
  unfold CarSafe at *
  simpa using h

@[simp] theorem commitValves_carSafe {s : State} (h : CarSafe s) : CarSafe (s.commitValves) := by
  unfold CarSafe at *
  simpa using h

@[simp] theorem valveRestart_carSafe {s : State} (h : CarSafe s) : CarSafe (s.valveRestart) := by
  unfold CarSafe at *
  simpa using h

@[simp] theorem conveyorFollows_carSafe {s : State} (h : CarSafe s) (active : Bool) :
    CarSafe (s.conveyorFollows active) := by
  unfold CarSafe at *
  simpa using h

@[simp] theorem handLevel_carSafe {s : State} (h : CarSafe s) (fn : TermFn) (t : Nat) (e : Edge) (l : Bool) :
    CarSafe (s.handLevel fn t e l) := by
  unfold handLevel
  try dsimp only
  (repeat' split) <;> simp +contextual (maxDischargeDepth := 40) [h]

@[simp] theorem inputHolds_carSafe {s : State} (h : CarSafe s) (t : Nat) (energised : Bool) :
    CarSafe (s.inputHolds t energised) := by
  unfold inputHolds
  try dsimp only
  (repeat' split) <;> simp +contextual (maxDischargeDepth := 40) [h]

@[simp] theorem overload_carSafe {s : State} (h : CarSafe s) (t : Nat) : CarSafe (s.overload t) := by
  unfold CarSafe at *
  simpa using h

@[simp] theorem pulseEdge_carSafe {s : State} (h : CarSafe s) (t : Nat) : CarSafe (s.pulseEdge t) := by
  unfold CarSafe at *
  simpa using h

@[simp] theorem periodStart_carSafe {s : State} (h : CarSafe s) (t : Nat) : CarSafe (s.periodStart t) := by
  unfold CarSafe at *
  simpa using h

@[simp] theorem spoilGate_carSafe {s : State} (h : CarSafe s) (fn : TermFn) : CarSafe (s.spoilGate fn) := by
  unfold CarSafe at *
  simpa using h

@[simp] theorem functionLeaves_carSafe {s : State} (h : CarSafe s) (fn : TermFn) (level : Bool) :
    CarSafe (s.functionLeaves fn level) := by
  unfold functionLeaves
  try dsimp only
  (repeat' split) <;> simp +contextual (maxDischargeDepth := 40) [h]

@[simp] theorem functionArrives_carSafe {s : State} (h : CarSafe s) (fn : TermFn) (t : Nat) (e : Edge) (level : Bool) :
    CarSafe (s.functionArrives fn t e level) := by
  unfold functionArrives
  try dsimp only
  (repeat' split) <;> simp +contextual (maxDischargeDepth := 40) [h]

@[simp] theorem assignTerminal_carSafe {s : State} (h : CarSafe s) (t : Nat) (r : TermRec) (fn : TermFn) (invert : Bool) (drive : Drive) (edge : Edge) :
    CarSafe (s.assignTerminal t r fn invert drive edge) := by
  unfold assignTerminal
  try dsimp only
  (repeat' split) <;> simp +contextual (maxDischargeDepth := 40) [h]

@[simp] theorem handOffline_carSafe {s : State} (h : CarSafe s) (m : MachineId) : CarSafe (s.handOffline m) := by
  unfold handOffline
  try dsimp only
  (repeat' split) <;> simp +contextual (maxDischargeDepth := 40) [h]

@[simp] theorem goOffline_carSafe {s : State} (h : CarSafe s) (m : MachineId) (c : LinkCause) :
    CarSafe (s.goOffline m c) := by
  unfold goOffline
  try dsimp only
  (repeat' split) <;> simp +contextual (maxDischargeDepth := 40) [h]

@[simp] theorem goOnline_carSafe {s : State} (h : CarSafe s) (m : MachineId) : CarSafe (s.goOnline m) := by
  unfold CarSafe at *
  simpa using h

@[simp] theorem invalidNotice_carSafe {s : State} (h : CarSafe s) (m : MachineId) (before : Bool) (spot : ReportedSpot) :
    CarSafe (s.invalidNotice m before spot) := by
  unfold CarSafe at *
  simpa using h

@[simp] theorem handStatus_carSafe {s : State} (h : CarSafe s) (m : MachineId) (became : Bool) (oldMode : Option Mode) (stopped : Option CarSpot)
    (spot : ReportedSpot) : CarSafe (s.handStatus m became oldMode stopped spot) := by
  unfold handStatus
  try dsimp only
  (repeat' split) <;> simp +contextual (maxDischargeDepth := 40) [h]

@[simp] theorem takeStatus_carSafe {s : State} (h : CarSafe s) (sender : StatusFrom) (mode : Mode) (motion : Motion) (spot : ReportedSpot) :
    CarSafe (s.takeStatus sender mode motion spot) := by
  unfold takeStatus
  try dsimp only
  (repeat' split) <;> simp +contextual (maxDischargeDepth := 40) [h]

@[simp] theorem supervisorHeard_carSafe {s : State} (h : CarSafe s) : CarSafe (s.supervisorHeard) := by
  unfold supervisorHeard
  try dsimp only
  (repeat' split) <;> simp +contextual (maxDischargeDepth := 40) [h]

@[simp] theorem updTest_carSafe {s : State} (h : CarSafe s) (m : MachineId) (f : LinkTest → LinkTest) :
    CarSafe (s.updTest m f) := by
  unfold CarSafe at *
  simpa using h

@[simp] theorem startTest_carSafe {s : State} (h : CarSafe s) (m : MachineId) : CarSafe (s.startTest m) := by
  unfold startTest
  dsimp only
  split
  · refine goOffline_carSafe ?_ m _
    exact car_raw h (by simp) (by simp) (by simp)
  · exact car_raw h (by simp) (by simp) (by simp)

@[simp] theorem linkTestOp_carSafe {s : State} (h : CarSafe s) (m : MachineId) : CarSafe (s.linkTestOp m).1 := by
  unfold linkTestOp
  try dsimp only
  (repeat' split) <;> simp +contextual (maxDischargeDepth := 40) [h]

@[simp] theorem testReadOp_carSafe {s : State} (h : CarSafe s) (m : MachineId) : CarSafe (s.testReadOp m).1 := by
  unfold CarSafe at *
  simpa using h

@[simp] theorem testEndOp_carSafe {s : State} (h : CarSafe s) (m : MachineId) : CarSafe (s.testEndOp m).1 := by
  unfold CarSafe at *
  simpa using h

@[simp] theorem readyExpire_carSafe {s : State} (h : CarSafe s) (n : Nat) : CarSafe (s.readyExpire n) := by
  unfold readyExpire
  try dsimp only
  (repeat' split) <;> simp +contextual (maxDischargeDepth := 40) [h]

@[simp] theorem dueExpire_carSafe {s : State} (h : CarSafe s) : CarSafe (s.dueExpire) := by
  unfold dueExpire
  try dsimp only
  (repeat' split) <;> simp +contextual (maxDischargeDepth := 40) [h]

@[simp] theorem holdOverExpire_carSafe {s : State} (h : CarSafe s) : CarSafe (s.holdOverExpire) := by
  unfold holdOverExpire
  try dsimp only
  (repeat' split) <;> simp +contextual (maxDischargeDepth := 40) [h]

@[simp] theorem deadlineExpire_carSafe {s : State} (h : CarSafe s) (m : MachineId) :
    CarSafe (s.deadlineExpire m) := by
  unfold CarSafe at *
  simpa using h

@[simp] theorem ramTimerExpire_carSafe {s : State} (h : CarSafe s) : CarSafe (s.ramTimerExpire) := by
  unfold ramTimerExpire
  try dsimp only
  (repeat' split) <;> simp +contextual (maxDischargeDepth := 40) [h]

@[simp] theorem lateTimerExpire_carSafe {s : State} (h : CarSafe s) : CarSafe (s.lateTimerExpire) := by
  unfold lateTimerExpire
  try dsimp only
  (repeat' split) <;> simp +contextual (maxDischargeDepth := 40) [h]

@[simp] theorem confirmTimerExpire_carSafe {s : State} (h : CarSafe s) (n : Nat) (d : Side) :
    CarSafe (s.confirmTimerExpire n d) := by
  unfold CarSafe at *
  simpa using h

@[simp] theorem taskTimerExpire_carSafe {s : State} (h : CarSafe s) (d : Side) : CarSafe (s.taskTimerExpire d) := by
  unfold CarSafe at *
  simpa using h

@[simp] theorem visitTimerExpire_carSafe {s : State} (h : CarSafe s) (d : Side) :
    CarSafe (s.visitTimerExpire d) := by
  unfold CarSafe at *
  simpa using h

@[simp] theorem isolateExpire_carSafe {s : State} (h : CarSafe s) : CarSafe (s.isolateExpire) := by
  unfold CarSafe at *
  simpa using h

@[simp] theorem valveTimerExpire_carSafe {s : State} (h : CarSafe s) : CarSafe (s.valveTimerExpire) := by
  unfold CarSafe at *
  simpa using h

@[simp] theorem chargeTimerExpire_carSafe {s : State} (h : CarSafe s) (n : Nat) :
    CarSafe (s.chargeTimerExpire n) := by
  unfold CarSafe at *
  simpa using h

@[simp] theorem moveTimerExpire_carSafe {s : State} (h : CarSafe s) : CarSafe (s.moveTimerExpire) := by
  unfold moveTimerExpire
  split
  · split
    · refine raise_carSafe (updCar_carSafe h ?_) _
      exact fun _ => rfl
    · exact h
  · exact h

@[simp] theorem updLoad_carSafe {s : State} (h : CarSafe s) (f : LoadRec → LoadRec) : CarSafe (s.updLoad f) := by
  exact car_raw h rfl (by simp [updLoad]) rfl

@[simp] theorem hotTimerExpire_carSafe {s : State} (h : CarSafe s) : CarSafe (s.hotTimerExpire) := by
  unfold hotTimerExpire
  try dsimp only
  (repeat' split) <;> simp +contextual (maxDischargeDepth := 40) [h]

@[simp] theorem sprayExpire_carSafe {s : State} (h : CarSafe s) : CarSafe (s.sprayExpire) := by
  unfold sprayExpire
  split
  · rename_i hc
    have hl := h.1
    simp only [hc.1, CarState.loaded] at hl
    exact retest_carSafe (setCar_carSafe (by simpa [CarState.loaded, setPhase, updLoad] using hl) (by simp [CarState.inTower, setPhase]))
  · exact h

@[simp] theorem drainExpire_carSafe {s : State} (h : CarSafe s) : CarSafe (s.drainExpire) := by
  unfold drainExpire
  split
  · rename_i hc
    have hl := h.1
    simp only [hc.1, CarState.loaded] at hl
    exact chooseBay_carSafe (by simpa [setPhase] using hl) (by simp [setPhase])
  · exact h

@[simp] theorem coolExpire_carSafe {s : State} (h : CarSafe s) (b : Nat) : CarSafe (s.coolExpire b) := by
  unfold CarSafe at *
  simpa using h

@[simp] theorem gateExpire_carSafe {s : State} (h : CarSafe s) : CarSafe (s.gateExpire) := by
  unfold gateExpire
  try dsimp only
  (repeat' split) <;> simp +contextual (maxDischargeDepth := 40) [h]

theorem forEach_carSafe {s : State} (h : CarSafe s) {f : State → Nat → State} (hf : ∀ {t}, CarSafe t → ∀ n, CarSafe (f t n))
    (l : List Nat) : CarSafe (forEach f l s) := by
  induction l generalizing s with
  | nil => exact h
  | cons a l ih => exact ih (hf h a)

@[simp] theorem sweepOnce_carSafe {s : State} (h : CarSafe s) : CarSafe s.sweepOnce := by
  have h1 : ∀ l, CarSafe (forEach overdueCheck l (forEach readyExpire l s)) := fun l =>
    forEach_carSafe (forEach_carSafe h (fun ht n => readyExpire_carSafe ht n) l) (fun ht n => overdueCheck_carSafe ht n) l
  unfold sweepOnce
  dsimp only
  refine gateExpire_carSafe (forEach_carSafe (drainExpire_carSafe (sprayExpire_carSafe (hotTimerExpire_carSafe (moveTimerExpire_carSafe
    (forEach_carSafe (valveTimerExpire_carSafe (isolateExpire_carSafe (visitTimerExpire_carSafe (visitTimerExpire_carSafe
      (taskTimerExpire_carSafe (taskTimerExpire_carSafe
      (forEach_carSafe ?_ (fun ht n => confirmTimerExpire_carSafe (confirmTimerExpire_carSafe ht n .ps) n .cs) _) _) _) _) _)))
    (fun ht n => chargeTimerExpire_carSafe ht n) _)))))
    (fun ht n => coolExpire_carSafe ht n) _)
  simp (maxDischargeDepth := 40) [h1]

@[simp] theorem sweeps_carSafe {s : State} (h : CarSafe s) (k : Nat) : CarSafe (sweeps k s) :=
  sweeps_keeps (P := CarSafe) sweepOnce_carSafe k h

@[simp] theorem heldSweep_carSafe {s : State} (h : CarSafe s) : CarSafe s.heldSweep := by
  unfold heldSweep
  split
  · exact h
  · exact sweeps_carSafe h _

@[simp] theorem reject_carSafe {s : State} (h : CarSafe s) (m : MachineId) (rep : ReportName) (oven : Option Nat) :
    CarSafe (s.reject m rep oven) := by
  unfold CarSafe at *
  simpa using h

@[simp] theorem doorOffCovered_carSafe {s : State} (h : CarSafe s) (m : MachineId) (d : Side) (n : Nat) :
    CarSafe (s.doorOffCovered m d n) := by
  unfold doorOffCovered
  try dsimp only
  (repeat' split) <;> simp +contextual (maxDischargeDepth := 40) [h]

@[simp] theorem doorOffBreach_carSafe {s : State} (h : CarSafe s) (m : MachineId) (d : Side) (n : Nat) :
    CarSafe (s.doorOffBreach m d n) := by
  unfold doorOffBreach
  try dsimp only
  (repeat' split) <;> simp +contextual (maxDischargeDepth := 40) [h]

@[simp] theorem takeDoorOff_carSafe {s : State} (h : CarSafe s) (m : MachineId) (d : Side) (n : Nat) :
    CarSafe (s.takeDoorOff m d n) := by
  unfold takeDoorOff
  try dsimp only
  (repeat' split) <;> simp +contextual (maxDischargeDepth := 40) [h]

@[simp] theorem takeDoorOn_carSafe {s : State} (h : CarSafe s) (d : Side) (n : Nat) :
    CarSafe (s.takeDoorOn d n) := by
  have h1 := doorOnFact_carSafe h n d
  unfold takeDoorOn
  split
  · rename_i t ht
    rw [ht] at h1
    exact dispatchDoor_carSafe (completionTest_carSafe h1) _
  · rename_i t ht
    rw [ht] at h1
    exact h1

@[simp] theorem ramStartCovered_carSafe {s : State} (h : CarSafe s) (n : Nat) : CarSafe (s.ramStartCovered n) := by
  unfold ramStartCovered
  try dsimp only
  (repeat' split) <;> simp +contextual (maxDischargeDepth := 40) [h]

@[simp] theorem ramStartBreach_carSafe {s : State} (h : CarSafe s) (n : Nat) : CarSafe (s.ramStartBreach n) := by
  unfold ramStartBreach
  try dsimp only
  (repeat' split) <;> simp +contextual (maxDischargeDepth := 40) [h]

@[simp] theorem takeRamStart_carSafe {s : State} (h : CarSafe s) (n : Nat) : CarSafe (s.takeRamStart n) := by
  unfold takeRamStart
  try dsimp only
  (repeat' split) <;> simp +contextual (maxDischargeDepth := 40) [h]

@[simp] theorem ramSequence_carSafe {s : State} (h : CarSafe s) (n : Nat) (rep : ReportName) :
    CarSafe (s.ramSequence n rep) := by
  unfold CarSafe at *
  simpa using h

@[simp] theorem takeRamAtEnd_carSafe {s : State} (h : CarSafe s) (n : Nat) : CarSafe (s.takeRamAtEnd n) := by
  unfold takeRamAtEnd
  try dsimp only
  (repeat' split) <;> simp +contextual (maxDischargeDepth := 40) [h]

@[simp] theorem takeRamHome_carSafe {s : State} (h : CarSafe s) (n : Nat) : CarSafe (s.takeRamHome n) := by
  unfold takeRamHome
  try dsimp only
  (repeat' split) <;> simp +contextual (maxDischargeDepth := 40) [h]

@[simp] theorem takeChargeStart_carSafe {s : State} (h : CarSafe s) (n : Nat) : CarSafe (s.takeChargeStart n) := by
  unfold takeChargeStart
  try dsimp only
  (repeat' split) <;> simp +contextual (maxDischargeDepth := 40) [h]

@[simp] theorem takeDumpDone_carSafe {s : State} (h : CarSafe s) (b : Nat) : CarSafe (s.takeDumpDone b) := by
  unfold takeDumpDone
  split
  · rename_i l hl
    split
    · rename_i hc
      have hp := h.2
      simp only [hc.1, CarState.inTower] at hp
      dsimp only
      refine sendOnward_carSafe ?_ ?_
      · rfl
      · simpa using hp
    · exact raise_carSafe h _
  · exact raise_carSafe h _

@[simp] theorem load_carSafe {s : State} (h : CarSafe s) (f : Loaded → Loaded) : CarSafe (s.load f) := by
  unfold CarSafe at *
  simpa using h

@[simp] theorem newTables_carSafe {s : State} (h : CarSafe s) (nOv k : Nat) (lasts : List Nat) :
    CarSafe (newTables nOv k lasts s) := by
  exact car_raw h rfl rfl rfl

@[simp] theorem reload_carSafe {s : State} (h : CarSafe s) : CarSafe (s.reload) := by
  exact ⟨rfl, rfl⟩

@[simp] theorem takeBattery_carSafe {s : State} (h : CarSafe s) (nOv k : Nat) (lasts : List Nat) :
    CarSafe (takeBattery nOv k lasts s) := by
  unfold takeBattery
  try dsimp only
  (repeat' split) <;> simp +contextual (maxDischargeDepth := 40) [h]

@[simp] theorem takeSeries_carSafe {s : State} (h : CarSafe s) (p : SeriesParams) (start : Option Time32) :
    CarSafe (takeSeries p start s) := by
  unfold CarSafe at *
  simpa using h

@[simp] theorem takeTiming_carSafe {s : State} (h : CarSafe s) (v : Timing) : CarSafe (takeTiming v s) := by
  have h1 : CarSafe (({ s with cfg.timing := v } : State).load fun l => { l with timing := true }) := h
  unfold takeTiming
  dsimp only
  split
  · refine retest_carSafe ?_
    have h2 : CarSafe (if s.cfg.timing.w = v.w ∧ s.cfg.timing.l = v.l then
        (({ s with cfg.timing := v } : State).load fun l => { l with timing := true }) else
        (({ s with cfg.timing := v } : State).load fun l => { l with timing := true }).readySweep) := by
      split
      · exact h1
      · exact readySweep_carSafe h1
    split
    · split
      · exact h2
      · exact setIsolate_carSafe h2 _ _
    · exact h2
  · exact h1

@[simp] theorem takePressure_carSafe {s : State} (h : CarSafe s) (k : Nat) (p : PressureParams) :
    CarSafe (takePressure k p s) := by
  unfold CarSafe at *
  simpa using h

@[simp] theorem takeWharf_carSafe {s : State} (h : CarSafe s) (v : WharfVals) : CarSafe (takeWharf v s).1 := by
  unfold CarSafe at *
  simpa using h

@[simp] theorem takeDoors_carSafe {s : State} (h : CarSafe s) (v : DoorVals) : CarSafe (takeDoors v s) := by
  unfold CarSafe at *
  simpa using h

@[simp] theorem takeTerminal_carSafe {s : State} (h : CarSafe s) (t : Nat) (fn : TermFn) (invert : Bool) (drive : Drive) (edge : Edge) :
    CarSafe (takeTerminal t fn invert drive edge s).1 := by
  unfold takeTerminal
  try dsimp only
  (repeat' split) <;> simp +contextual (maxDischargeDepth := 40) [h]

@[simp] theorem takeLink_carSafe {s : State} (h : CarSafe s) (l : LinkId) (v : LineSettings) :
    CarSafe (takeLink l v s).1 := by
  unfold CarSafe at *
  simpa using h

@[simp] theorem loadNotice_carSafe {s : State} (h : CarSafe s) (n : Nat) (d : Side) :
    CarSafe (s.loadNotice n d) := by
  unfold CarSafe at *
  simpa using h

@[simp] theorem takeOvenLoad_carSafe {s : State} (h : CarSafe s) (v : OvenLoad) : CarSafe (takeOvenLoad v s) := by
  unfold CarSafe at *
  simpa using h

@[simp] theorem setTimeOp_carSafe {s : State} (h : CarSafe s) (t : Time32) : CarSafe (setTimeOp t s).1 := by
  unfold CarSafe at *
  simpa using h

@[simp] theorem moveOven_carSafe {s : State} (h : CarSafe s) (n : Nat) (st : OvenState) :
    CarSafe (s.moveOven n st) := by
  unfold moveOven
  try dsimp only
  (repeat' split) <;> simp +contextual (maxDischargeDepth := 40) [h]

@[simp] theorem ovenServiceOp_carSafe {s : State} (h : CarSafe s) (n : Nat) (dir : ServiceDir) :
    CarSafe (ovenServiceOp n dir s).1 := by
  unfold ovenServiceOp
  try dsimp only
  (repeat' split) <;> simp +contextual (maxDischargeDepth := 40) [h]

@[simp] theorem setTargetOp_carSafe {s : State} (h : CarSafe s) (n target : Nat) :
    CarSafe (setTargetOp n target s).1 := by
  unfold setTargetOp
  try dsimp only
  (repeat' split) <;> simp +contextual (maxDischargeDepth := 40) [h]

@[simp] theorem makeupOp_carSafe {s : State} (h : CarSafe s) (n : Nat) : CarSafe (makeupOp n s).1 := by
  unfold makeupOp
  try dsimp only
  (repeat' split) <;> simp +contextual (maxDischargeDepth := 40) [h]

@[simp] theorem cancelMakeupOp_carSafe {s : State} (h : CarSafe s) (n : Nat) : CarSafe (cancelMakeupOp n s).1 := by
  unfold cancelMakeupOp
  try dsimp only
  (repeat' split) <;> simp +contextual (maxDischargeDepth := 40) [h]

@[simp] theorem planStartOp_carSafe {s : State} (h : CarSafe s) (start : Option Time32) :
    CarSafe (planStartOp start s).1 := by
  unfold planStartOp
  try dsimp only
  (repeat' split) <;> simp +contextual (maxDischargeDepth := 40) [h]

@[simp] theorem planHaltOp_carSafe {s : State} (h : CarSafe s) : CarSafe (s.planHaltOp).1 := by
  unfold planHaltOp
  try dsimp only
  (repeat' split) <;> simp +contextual (maxDischargeDepth := 40) [h]

@[simp] theorem planResumeReq_carSafe {s : State} (h : CarSafe s) : CarSafe (s.planResumeReq).1 := by
  unfold planResumeReq
  try dsimp only
  (repeat' split) <;> simp +contextual (maxDischargeDepth := 40) [h]

@[simp] theorem planStageOp_carSafe {s : State} (h : CarSafe s) : CarSafe (s.planStageOp).1 := by
  unfold CarSafe at *
  simpa using h

@[simp] theorem setModeOp_carSafe {s : State} (h : CarSafe s) (n : Nat) (mode : SlotMode) (fixedPush : Option Time32) :
    CarSafe (setModeOp n mode fixedPush s).1 := by
  unfold setModeOp
  try dsimp only
  (repeat' split) <;> simp +contextual (maxDischargeDepth := 40) [h]

@[simp] theorem setModeRangeOp_carSafe {s : State} (h : CarSafe s) (first last : Nat) (mode : Option SlotMode) (fixedPush : Option Time32) :
    CarSafe (setModeRangeOp first last mode fixedPush s).1 := by
  unfold CarSafe at *
  simpa using h

@[simp] theorem rangeAbortOp_carSafe {s : State} (h : CarSafe s) : CarSafe (s.rangeAbortOp).1 := by
  unfold CarSafe at *
  simpa using h

@[simp] theorem clearBreachOp_carSafe {s : State} (h : CarSafe s) (n : Nat) : CarSafe (clearBreachOp n s).1 := by
  unfold clearBreachOp
  try dsimp only
  (repeat' split) <;> simp +contextual (maxDischargeDepth := 40) [h]

@[simp] theorem pushRetryOp_carSafe {s : State} (h : CarSafe s) (n : Nat) : CarSafe (pushRetryOp n s).1 := by
  unfold CarSafe at *
  simpa using h

@[simp] theorem abandonPush_carSafe {s : State} (h : CarSafe s) (p : PushRec) : CarSafe (s.abandonPush p) := by
  unfold abandonPush
  try dsimp only
  (repeat' split) <;> simp +contextual (maxDischargeDepth := 40) [h]

@[simp] theorem abandonOp_carSafe {s : State} (h : CarSafe s) (n : Nat) : CarSafe (abandonOp n s).1 := by
  unfold abandonOp
  try dsimp only
  (repeat' split) <;> simp +contextual (maxDischargeDepth := 40) [h]

@[simp] theorem leakReportOp_carSafe {s : State} (h : CarSafe s) (n : Nat) (side : Option Side) :
    CarSafe (leakReportOp n side s).1 := by
  unfold CarSafe at *
  simpa using h

@[simp] theorem setDamperOp_carSafe {s : State} (h : CarSafe s) (k value : Nat) :
    CarSafe (setDamperOp k value s).1 := by
  unfold CarSafe at *
  simpa using h

@[simp] theorem setAutoOp_carSafe {s : State} (h : CarSafe s) (k : Nat) : CarSafe (setAutoOp k s).1 := by
  unfold CarSafe at *
  simpa using h

@[simp] theorem setSetpointOp_carSafe {s : State} (h : CarSafe s) (k : Nat) (value : Int) :
    CarSafe (setSetpointOp k value s).1 := by
  unfold CarSafe at *
  simpa using h

@[simp] theorem blockedInMotion_carSafe {s : State} (h : CarSafe s) (run : List TrackSpot) :
    CarSafe (s.blockedInMotion run) := by
  unfold CarSafe at *
  simpa using h

@[simp] theorem trackBlockOp_carSafe {s : State} (h : CarSafe s) (first last : Option TrackSpot) :
    CarSafe (trackBlockOp first last s).1 := by
  unfold CarSafe at *
  simpa using h

@[simp] theorem trackFreeOp_carSafe {s : State} (h : CarSafe s) (first last : Option TrackSpot) :
    CarSafe (trackFreeOp first last s).1 := by
  unfold trackFreeOp
  split
  · exact h
  · exact testMove_carSafe (s := { s with qnu.blocked := _ }) h

@[simp] theorem writeOutput_carSafe {s : State} (h : CarSafe s) (t : Nat) (f : Bool → Bool) :
    CarSafe (writeOutput t f s).1 := by
  unfold CarSafe at *
  simpa using h

@[simp] theorem setOutputOp_carSafe {s : State} (h : CarSafe s) (t : Nat) (level : Option Bool) :
    CarSafe (setOutputOp t level s).1 := by
  unfold CarSafe at *
  simpa using h

@[simp] theorem clearTerminalOp_carSafe {s : State} (h : CarSafe s) (t : Nat) :
    CarSafe (clearTerminalOp t s).1 := by
  unfold CarSafe at *
  simpa using h

@[simp] theorem linkClearOp_carSafe {s : State} (h : CarSafe s) (l : Option LinkId) :
    CarSafe (linkClearOp l s).1 := by
  unfold CarSafe at *
  simpa using h

@[simp] theorem enterRun_carSafe {s : State} (h : CarSafe s) : CarSafe (s.enterRun) := by
  have h1 : CarSafe (({ ({ s with cfg.part := .run } : State).raise (.partState .run .commit) with tb.timeOpen := false } : State)) :=
    raise_carSafe (s := { s with cfg.part := .run }) h (.partState .run .commit)
  have h2 := readySweep_carSafe h1
  unfold enterRun
  dsimp only
  refine testDump_carSafe (testMove_carSafe (leaveUnknown_carSafe (commitValves_carSafe (retest_carSafe (activateSections_carSafe
    (commitDoors_carSafe (commitDoors_carSafe ?_ _) _))))))
  split
  · exact h2
  · exact sendClears_carSafe h2 _

@[simp] theorem commitOp_carSafe {s : State} (h : CarSafe s) : CarSafe (s.commitOp).1 := by
  unfold commitOp
  try dsimp only
  (repeat' split) <;> simp +contextual (maxDischargeDepth := 40) [h]

@[simp] theorem enterConfig_carSafe {s : State} (h : CarSafe s) : CarSafe (s.enterConfig) := by
  have h1 := raise_carSafe (s := { s with cfg.part := .config }) h (.partState .config .restart)
  exact valveRestart_carSafe (holdSections_carSafe (doorRestart_carSafe (holdStarts_carSafe (revokeAll_carSafe
    (planRestart_carSafe h1) _) _)))

@[simp] theorem restartOp_carSafe {s : State} (h : CarSafe s) : CarSafe (s.restartOp).1 := by
  unfold restartOp
  try dsimp only
  (repeat' split) <;> simp +contextual (maxDischargeDepth := 40) [h]

@[simp] theorem answer_carSafe {s : State} (h : CarSafe s) (d : AnswerData) : CarSafe (s.answer d).1 := by
  unfold answer
  (repeat' split) <;> exact h

@[simp] theorem statusAnswer_carSafe {s : State} (h : CarSafe s) : CarSafe (s.statusAnswer).1 := by
  unfold statusAnswer
  (repeat' split) <;> exact h

@[simp] theorem timeAnswer_carSafe {s : State} (h : CarSafe s) : CarSafe (s.timeAnswer).1 := by
  unfold timeAnswer
  (repeat' split) <;> exact h

@[simp] theorem ovenAnswer_carSafe {s : State} (h : CarSafe s) (n : Nat) : CarSafe (ovenAnswer n s).1 := by
  unfold ovenAnswer
  (repeat' split) <;> exact h

@[simp] theorem planAnswer_carSafe {s : State} (h : CarSafe s) : CarSafe (s.planAnswer).1 := by
  unfold planAnswer
  (repeat' split) <;> exact h

@[simp] theorem slotAnswer_carSafe {s : State} (h : CarSafe s) (i : Nat) : CarSafe (slotAnswer i s).1 := by
  unfold slotAnswer
  (repeat' split) <;> exact h

@[simp] theorem machinesAnswer_carSafe {s : State} (h : CarSafe s) : CarSafe (s.machinesAnswer).1 := by
  unfold machinesAnswer
  (repeat' split) <;> exact h

@[simp] theorem pushAnswerOf_carSafe {s : State} (h : CarSafe s) : CarSafe (s.pushAnswerOf).1 := by
  unfold pushAnswerOf
  (repeat' split) <;> exact h

@[simp] theorem doorAnswer_carSafe {s : State} (h : CarSafe s) (n : Nat) : CarSafe (doorAnswer n s).1 := by
  unfold doorAnswer
  (repeat' split) <;> exact h

@[simp] theorem tasksAnswer_carSafe {s : State} (h : CarSafe s) (d : Side) : CarSafe (tasksAnswer d s).1 := by
  unfold tasksAnswer
  (repeat' split) <;> exact h

@[simp] theorem sectionAnswer_carSafe {s : State} (h : CarSafe s) (k : Nat) : CarSafe (sectionAnswer k s).1 := by
  unfold sectionAnswer
  (repeat' split) <;> exact h

@[simp] theorem valvesAnswer_carSafe {s : State} (h : CarSafe s) (n : Option Nat) :
    CarSafe (valvesAnswer n s).1 := by
  unfold valvesAnswer
  (repeat' split) <;> exact h

@[simp] theorem quenchAnswer_carSafe {s : State} (h : CarSafe s) : CarSafe (s.quenchAnswer).1 := by
  unfold quenchAnswer
  (repeat' split) <;> exact h

@[simp] theorem terminalsAnswer_carSafe {s : State} (h : CarSafe s) (t : Option Nat) :
    CarSafe (terminalsAnswer t s).1 := by
  unfold terminalsAnswer
  (repeat' split) <;> exact h

end State

end Sys2Proof.Machine
end

