-- ==== Sys2Proof/Laws/CarB.lean ====
section
/-! SUPPORT. `CarSafe` under the body of every command and under a step's end. -/

set_option linter.all false

namespace Sys2Proof.Machine

open Sys2Proof

namespace State

theorem runOnly_carSafe {s : State} (h : CarSafe s) {take : State → State × Reply} (ht : CarSafe (take s).1) : CarSafe (runOnly take s).1 := by
  unfold runOnly
  split
  · exact ht
  · exact h

theorem forOven_carSafe {s : State} (h : CarSafe s) (n : Nat) {take : State → State × Reply} (ht : CarSafe (take s).1) :
    CarSafe (forOven n take s).1 := by
  unfold forOven
  split
  · exact ht
  · exact h

theorem forSection_carSafe {s : State} (h : CarSafe s) (k : Nat) {take : State → State × Reply} (ht : CarSafe (take s).1) :
    CarSafe (forSection k take s).1 := by
  unfold forSection
  split
  · exact ht
  · exact h

theorem forMLink_carSafe {s : State} (h : CarSafe s) (l : Option LinkId) {take : MachineId → State → State × Reply}
    (ht : ∀ m, CarSafe (take m s).1) : CarSafe (forMLink l take s).1 := by
  unfold forMLink
  split
  · exact ht _
  · exact h

theorem setup_carSafe {s : State} (h : CarSafe s) (configOnly rangeOk : Bool) {take : State → State × Reply}
    (ht : rangeOk = true → CarSafe (take s).1) : CarSafe (setup configOnly rangeOk take s).1 := by
  unfold setup
  split
  · exact h
  · split
    · rename_i hr
      exact ht hr
    · exact h

@[simp] theorem kick_carSafe {s : State} (h : CarSafe s) : CarSafe s.kick := by
  exact car_raw h (by simp) (by simp) (by simp)

@[simp] theorem settle_carSafe {s : State} (h : CarSafe s) : CarSafe s.settle := kick_carSafe (heldSweep_carSafe h)

@[simp] theorem idle_carSafe {s : State} (h : CarSafe s) : CarSafe s.idle := h

theorem machineFrame_carSafe {s : State} (h : CarSafe s) (m : MachineId) {body : State → State}
    (hb : ∀ {t}, CarSafe t → CarSafe (body t)) : CarSafe (machineFrame m body s) := by
  unfold machineFrame
  split
  · exact h
  · exact hb (updPort_carSafe h _ _)

@[simp] theorem retryHeld_carSafe {s : State} (h : CarSafe s) (l : List HeldOffer) : CarSafe (retryHeld l s) := by
  induction l generalizing s with
  | nil => exact h
  | cons a l ih =>
    rw [retryHeld]
    split
    · exact h
    · refine ih (offerValve_carSafe ?_ _ _)
      exact car_raw h rfl rfl rfl

theorem request_carSafe {s : State} (h : CarSafe s) (tag : Byte) {body : State → State × Reply}
    (hb : ∀ {t}, CarSafe t → CarSafe (body t).1) : CarSafe (request tag body s) := by
  unfold request
  split
  · exact discard_carSafe h _ _
  · exact car_raw (hb (supervisorHeard_carSafe h)) rfl rfl rfl

end State

open State

theorem doHardReset_carSafe {s : State} (h : CarSafe s) : CarSafe (doHardReset s) := by
  exact ⟨rfl, rfl⟩

theorem doControlTick_carSafe {s : State} (h : CarSafe s) : CarSafe (doControlTick s) := by
  exact endSections_carSafe (s := { s with tb.phase := (s.tb.phase + 1) % 4 }) h _

theorem countSecond_carSafe {s : State} (h : CarSafe s) : CarSafe (countSecond s) := by
  have h1 : CarSafe ({ s with tb.time := s.now + 1 } : State) := car_raw h rfl rfl rfl
  unfold countSecond
  split
  · dsimp only
    split
    · exact raise_carSafe h1 _
    · exact h1
  · exact h

theorem tickRounds_carSafe {s : State} (h : CarSafe s) : CarSafe (tickRounds s) := by
  exact car_raw h rfl rfl rfl

theorem doOneSecondTick_carSafe {s : State} (h : CarSafe s) : CarSafe (doOneSecondTick s) := by
  have h1 := countSecond_carSafe h
  unfold doOneSecondTick
  dsimp only
  split
  · exact retryHeld_carSafe (tickRounds_carSafe h1) _
  · exact h1

theorem doInspectionAccrual_carSafe {s : State} (h : CarSafe s) (d : Side) : CarSafe (doInspectionAccrual d s) := by
  unfold doInspectionAccrual
  try dsimp only
  (repeat' split) <;> simp (maxDischargeDepth := 40) [h]


theorem doReadyExpiry_carSafe {s : State} (h : CarSafe s) (n : Nat) : CarSafe (doReadyExpiry n s) := by
  exact readyExpire_carSafe h n

theorem doOverdueExpiry_carSafe {s : State} (h : CarSafe s) (n : Nat) : CarSafe (doOverdueExpiry n s) := by
  exact overdueCheck_carSafe h n

theorem doDueExpiry_carSafe {s : State} (h : CarSafe s) : CarSafe (doDueExpiry s) := by
  exact dueExpire_carSafe h

theorem doHoldOverExpiry_carSafe {s : State} (h : CarSafe s) : CarSafe (doHoldOverExpiry s) := by
  exact holdOverExpire_carSafe h

theorem doRangeStepEnd_carSafe {s : State} (h : CarSafe s) : CarSafe (doRangeStepEnd s) := by
  unfold doRangeStepEnd
  split
  · exact rangeStep_carSafe h _
  · exact h

theorem doUseDeadlineExpiry_carSafe {s : State} (h : CarSafe s) (m : MachineId) :
    CarSafe (doUseDeadlineExpiry m s) := by
  exact deadlineExpire_carSafe h m

theorem doTRamExpiry_carSafe {s : State} (h : CarSafe s) : CarSafe (doTRamExpiry s) := by
  exact ramTimerExpire_carSafe h

theorem doStageTimerExpiry_carSafe {s : State} (h : CarSafe s) : CarSafe (doStageTimerExpiry s) := by
  exact lateTimerExpire_carSafe h

theorem doConfirmExpiry_carSafe {s : State} (h : CarSafe s) (n : Nat) (d : Side) :
    CarSafe (doConfirmExpiry n d s) := by
  exact confirmTimerExpire_carSafe h n d

theorem doTaskTimerExpiry_carSafe {s : State} (h : CarSafe s) (d : Side) : CarSafe (doTaskTimerExpiry d s) := by
  exact taskTimerExpire_carSafe h d

theorem doRoundVisitTimerExpiry_carSafe {s : State} (h : CarSafe s) (d : Side) :
    CarSafe (doRoundVisitTimerExpiry d s) := by
  exact visitTimerExpire_carSafe h d

theorem doIsolateTimerExpiry_carSafe {s : State} (h : CarSafe s) : CarSafe (doIsolateTimerExpiry s) := by
  exact isolateExpire_carSafe h

theorem doValveTaskTimerExpiry_carSafe {s : State} (h : CarSafe s) : CarSafe (doValveTaskTimerExpiry s) := by
  exact valveTimerExpire_carSafe h

theorem doChargeTimerExpiry_carSafe {s : State} (h : CarSafe s) (n : Nat) : CarSafe (doChargeTimerExpiry n s) := by
  exact chargeTimerExpire_carSafe h n

theorem doMoveTimerExpiry_carSafe {s : State} (h : CarSafe s) : CarSafe (doMoveTimerExpiry s) := by
  exact moveTimerExpire_carSafe h

theorem doHotTimerExpiry_carSafe {s : State} (h : CarSafe s) : CarSafe (doHotTimerExpiry s) := by
  exact hotTimerExpire_carSafe h

theorem doSprayTimerExpiry_carSafe {s : State} (h : CarSafe s) : CarSafe (doSprayTimerExpiry s) := by
  exact sprayExpire_carSafe h

theorem doDrainTimerExpiry_carSafe {s : State} (h : CarSafe s) : CarSafe (doDrainTimerExpiry s) := by
  exact drainExpire_carSafe h

theorem doCoolTimerExpiry_carSafe {s : State} (h : CarSafe s) (b : Nat) : CarSafe (doCoolTimerExpiry b s) := by
  exact coolExpire_carSafe h b

theorem doGateTimerExpiry_carSafe {s : State} (h : CarSafe s) : CarSafe (doGateTimerExpiry s) := by
  exact gateExpire_carSafe h

theorem doMLinkSilenceExpiry_carSafe {s : State} (h : CarSafe s) (m : MachineId) :
    CarSafe (doMLinkSilenceExpiry m s) := by
  unfold doMLinkSilenceExpiry
  split
  · split
    · exact goOffline_carSafe h m _
    · exact updPort_carSafe h _ _
  · exact h

theorem doSLinkSilenceExpiry_carSafe {s : State} (h : CarSafe s) : CarSafe (doSLinkSilenceExpiry s) := by
  unfold doSLinkSilenceExpiry
  split
  · dsimp only
    split
    · exact raise_carSafe (updPort_carSafe h _ _) _
    · exact updPort_carSafe h _ _
  · exact h

theorem doCharacterGapExpiry_carSafe {s : State} (h : CarSafe s) (l : LinkId) :
    CarSafe (doCharacterGapExpiry l s) := by
  unfold doCharacterGapExpiry
  split
  · exact h
  · exact updPort_carSafe (discard_carSafe h l _) l _

theorem doTestCharacter_carSafe {s : State} (h : CarSafe s) (m : MachineId) (wave : LineWave) :
    CarSafe (doTestCharacter m wave s) := by
  unfold doTestCharacter
  (repeat' split) <;> first | exact h | exact updTest_carSafe h m _

theorem doSLinkFrameSent_carSafe {s : State} (h : CarSafe s) : CarSafe (doSLinkFrameSent s) := by
  unfold doSLinkFrameSent
  split
  · exact h
  · dsimp only
    split
    · split
      · exact updPort_carSafe (s := { s with lnk.sup.sending := none, lnk.sup.line := [] }) h _ _
      · exact h
    · exact h

theorem doMLinkFrameSent_carSafe {s : State} (h : CarSafe s) (m : MachineId) : CarSafe (doMLinkFrameSent m s) := by
  exact car_raw h rfl rfl rfl

theorem doInputLevelChange_carSafe {s : State} (h : CarSafe s) (t : Nat) (energised : Bool) :
    CarSafe (doInputLevelChange t energised s) := by
  exact inputHolds_carSafe h t energised

theorem doTerminalOverload_carSafe {s : State} (h : CarSafe s) (t : Nat) : CarSafe (doTerminalOverload t s) := by
  exact overload_carSafe h t

theorem doPressInPulseEdge_carSafe {s : State} (h : CarSafe s) (t : Nat) : CarSafe (doPressInPulseEdge t s) := by
  exact pulseEdge_carSafe h t

theorem doDamperPwmPeriodStart_carSafe {s : State} (h : CarSafe s) (t : Nat) :
    CarSafe (doDamperPwmPeriodStart t s) := by
  exact periodStart_carSafe h t

theorem doStatus_carSafe {s : State} (h : CarSafe s) (sender : StatusFrom) (mode : Mode) (motion : Motion) (spot : ReportedSpot) :
    CarSafe (doStatus sender mode motion spot s) := by
  refine machineFrame_carSafe h _ fun ht => ?_
  exact takeStatus_carSafe ht sender mode motion spot

theorem doRequest_carSafe {s : State} (h : CarSafe s) (m : MachineId) (k : ReqKind) (n : Nat) :
    CarSafe (doRequest m k n s) := by
  refine machineFrame_carSafe h _ fun ht => ?_
  try dsimp only
  (repeat' split) <;> simp (maxDischargeDepth := 40) [ht]

theorem doDoorOff_carSafe {s : State} (h : CarSafe s) (m : MachineId) (n : Nat) (side : Option Side) :
    CarSafe (doDoorOff m n side s) := by
  refine machineFrame_carSafe h _ fun ht => ?_
  try dsimp only
  (repeat' split) <;> simp (maxDischargeDepth := 40) [ht]

theorem doDoorOn_carSafe {s : State} (h : CarSafe s) (m : MachineId) (n : Nat) (side : Option Side) :
    CarSafe (doDoorOn m n side s) := by
  refine machineFrame_carSafe h _ fun ht => ?_
  try dsimp only
  (repeat' split) <;> simp (maxDischargeDepth := 40) [ht]

theorem doDoorTight_carSafe {s : State} (h : CarSafe s) (m : MachineId) (n : Nat) (side : Option Side) :
    CarSafe (doDoorTight m n side s) := by
  refine machineFrame_carSafe h _ fun ht => ?_
  try dsimp only
  (repeat' split) <;> simp (maxDischargeDepth := 40) [ht]

theorem doRamStart_carSafe {s : State} (h : CarSafe s) (m : MachineId) (n : Nat) : CarSafe (doRamStart m n s) := by
  refine machineFrame_carSafe h _ fun ht => ?_
  try dsimp only
  (repeat' split) <;> simp (maxDischargeDepth := 40) [ht]

theorem doRamAtEnd_carSafe {s : State} (h : CarSafe s) (m : MachineId) (n : Nat) : CarSafe (doRamAtEnd m n s) := by
  refine machineFrame_carSafe h _ fun ht => ?_
  try dsimp only
  (repeat' split) <;> simp (maxDischargeDepth := 40) [ht]

theorem doRamHome_carSafe {s : State} (h : CarSafe s) (m : MachineId) (n : Nat) : CarSafe (doRamHome m n s) := by
  refine machineFrame_carSafe h _ fun ht => ?_
  try dsimp only
  (repeat' split) <;> simp (maxDischargeDepth := 40) [ht]

theorem doChargeStart_carSafe {s : State} (h : CarSafe s) (m : MachineId) (n : Nat) :
    CarSafe (doChargeStart m n s) := by
  refine machineFrame_carSafe h _ fun ht => ?_
  try dsimp only
  (repeat' split) <;> simp (maxDischargeDepth := 40) [ht]

theorem doChargeEnd_carSafe {s : State} (h : CarSafe s) (m : MachineId) (n : Nat) :
    CarSafe (doChargeEnd m n s) := by
  refine machineFrame_carSafe h _ fun ht => ?_
  try dsimp only
  (repeat' split) <;> simp (maxDischargeDepth := 40) [ht]

theorem doValve_carSafe {s : State} (h : CarSafe s) (m : MachineId) (n : Nat) (v : Option ValveState) :
    CarSafe (doValve m n v s) := by
  refine machineFrame_carSafe h _ fun ht => ?_
  try dsimp only
  (repeat' split) <;> simp (maxDischargeDepth := 40) [ht]

theorem doLeakSeen_carSafe {s : State} (h : CarSafe s) (m : MachineId) (n : Nat) (side : Option Side) :
    CarSafe (doLeakSeen m n side s) := by
  refine machineFrame_carSafe h _ fun ht => ?_
  try dsimp only
  (repeat' split) <;> simp (maxDischargeDepth := 40) [ht]

theorem doTaskDone_carSafe {s : State} (h : CarSafe s) (m : TaskSender) (n : Nat) (k : TaskKind) (r : TaskResult) :
    CarSafe (doTaskDone m n k r s) := by
  refine machineFrame_carSafe h _ fun ht => ?_
  try dsimp only
  (repeat' split) <;> simp (maxDischargeDepth := 40) [ht]

theorem doCcTaskDone_carSafe {s : State} (h : CarSafe s) (n : Nat) (a : ValveAction) (r : ValveResult) :
    CarSafe (doCcTaskDone n a r s) := by
  refine machineFrame_carSafe h _ fun ht => ?_
  try dsimp only
  (repeat' split) <;> simp (maxDischargeDepth := 40) [ht]

theorem doDumpDone_carSafe {s : State} (h : CarSafe s) (m : MachineId) (b : Nat) : CarSafe (doDumpDone m b s) := by
  refine machineFrame_carSafe h _ fun ht => ?_
  try dsimp only
  (repeat' split) <;> simp (maxDischargeDepth := 40) [ht]

theorem doBattery_carSafe {s : State} (h : CarSafe s) (tag : Byte) (nOv k : Nat) (lasts : List Nat) :
    CarSafe (doBattery tag nOv k lasts s) := by
  refine request_carSafe h tag (fun ht => ?_)
  split
  · exact ht
  · split
    · exact takeBattery_carSafe ht nOv k lasts
    · exact ht

theorem doSeries_carSafe {s : State} (h : CarSafe s) (tag : Byte) (p : SeriesParams) (start : Option Time32) :
    CarSafe (doSeries tag p start s) := by
  exact request_carSafe h tag fun ht => setup_carSafe ht _ _ fun _ => takeSeries_carSafe ht p start

theorem doTiming_carSafe {s : State} (h : CarSafe s) (tag : Byte) (v : Timing) : CarSafe (doTiming tag v s) := by
  exact request_carSafe h tag fun ht => setup_carSafe ht _ _ fun _ => takeTiming_carSafe ht v

theorem doPressure_carSafe {s : State} (h : CarSafe s) (tag : Byte) (k : Nat) (p : PressureParams) :
    CarSafe (doPressure tag k p s) := by
  refine request_carSafe h tag (fun ht => setup_carSafe ht _ _ fun hr => ?_)
  split
  · exact takePressure_carSafe ht k p
  · exact ht

theorem doWharf_carSafe {s : State} (h : CarSafe s) (tag : Byte) (v : WharfVals) : CarSafe (doWharf tag v s) := by
  exact request_carSafe h tag fun ht => setup_carSafe ht _ _ fun _ => takeWharf_carSafe ht v

theorem doDoors_carSafe {s : State} (h : CarSafe s) (tag : Byte) (v : DoorVals) : CarSafe (doDoors tag v s) := by
  exact request_carSafe h tag fun ht => setup_carSafe ht _ _ fun _ => takeDoors_carSafe ht v

theorem doTerminal_carSafe {s : State} (h : CarSafe s) (tag : Byte) (t : Nat) (fn : TermFn) (invert : Bool) (drive : Drive) (edge : Edge) :
    CarSafe (doTerminal tag t fn invert drive edge s) := by
  exact request_carSafe h tag fun ht => setup_carSafe ht _ _ fun _ => takeTerminal_carSafe ht t fn invert drive edge

theorem doLink_carSafe {s : State} (h : CarSafe s) (tag : Byte) (l : LinkId) (v : LineSettings) :
    CarSafe (doLink tag l v s) := by
  exact request_carSafe h tag fun ht => setup_carSafe ht _ _ fun _ => takeLink_carSafe ht l v

theorem doOvenLoad_carSafe {s : State} (h : CarSafe s) (tag : Byte) (v : OvenLoad) :
    CarSafe (doOvenLoad tag v s) := by
  refine request_carSafe h tag (fun ht => setup_carSafe ht _ _ fun _ => ?_)
  split
  · exact takeOvenLoad_carSafe ht v
  · exact ht

theorem doSetTime_carSafe {s : State} (h : CarSafe s) (tag : Byte) (t : Time32) : CarSafe (doSetTime tag t s) := by
  exact request_carSafe h tag (fun ht => setTimeOp_carSafe ht t) 


theorem doOvenService_carSafe {s : State} (h : CarSafe s) (tag : Byte) (n : Nat) (dir : ServiceDir) :
    CarSafe (doOvenService tag n dir s) := by
  exact request_carSafe h tag (fun ht => forOven_carSafe ht n (ovenServiceOp_carSafe ht n dir)) 


theorem doSetTarget_carSafe {s : State} (h : CarSafe s) (tag : Byte) (n target : Nat) :
    CarSafe (doSetTarget tag n target s) := by
  exact request_carSafe h tag (fun ht => forOven_carSafe ht n (setTargetOp_carSafe ht n target)) 


theorem doMakeup_carSafe {s : State} (h : CarSafe s) (tag : Byte) (n : Nat) : CarSafe (doMakeup tag n s) := by
  exact request_carSafe h tag (fun ht => runOnly_carSafe ht (forOven_carSafe ht n (makeupOp_carSafe ht n))) 


theorem doCancelMakeup_carSafe {s : State} (h : CarSafe s) (tag : Byte) (n : Nat) :
    CarSafe (doCancelMakeup tag n s) := by
  exact request_carSafe h tag (fun ht => runOnly_carSafe ht (cancelMakeupOp_carSafe ht n)) 


theorem doPlanStart_carSafe {s : State} (h : CarSafe s) (tag : Byte) (start : Option Time32) :
    CarSafe (doPlanStart tag start s) := by
  exact request_carSafe h tag (fun ht => runOnly_carSafe ht (planStartOp_carSafe ht start)) 


theorem doPlanHalt_carSafe {s : State} (h : CarSafe s) (tag : Byte) : CarSafe (doPlanHalt tag s) := by
  exact request_carSafe h tag (fun ht => runOnly_carSafe ht (planHaltOp_carSafe ht)) 


theorem doPlanResume_carSafe {s : State} (h : CarSafe s) (tag : Byte) : CarSafe (doPlanResume tag s) := by
  exact request_carSafe h tag (fun ht => runOnly_carSafe ht (planResumeReq_carSafe ht)) 


theorem doPlanStage_carSafe {s : State} (h : CarSafe s) (tag : Byte) : CarSafe (doPlanStage tag s) := by
  exact request_carSafe h tag (fun ht => runOnly_carSafe ht (planStageOp_carSafe ht)) 


theorem doSetMode_carSafe {s : State} (h : CarSafe s) (tag : Byte) (n : Nat) (mode : SlotMode) (fixedPush : Option Time32) :
    CarSafe (doSetMode tag n mode fixedPush s) := by
  exact request_carSafe h tag (fun ht => forOven_carSafe ht n (setModeOp_carSafe ht n mode fixedPush)) 


theorem doSetModeRange_carSafe {s : State} (h : CarSafe s) (tag : Byte) (first last : Nat) (mode : Option SlotMode) (fixedPush : Option Time32) :
    CarSafe (doSetModeRange tag first last mode fixedPush s) := by
  exact request_carSafe h tag (fun ht => runOnly_carSafe ht (setModeRangeOp_carSafe ht first last mode fixedPush)) 


theorem doRangeAbort_carSafe {s : State} (h : CarSafe s) (tag : Byte) : CarSafe (doRangeAbort tag s) := by
  exact request_carSafe h tag (fun ht => runOnly_carSafe ht (rangeAbortOp_carSafe ht)) 


theorem doClearBreach_carSafe {s : State} (h : CarSafe s) (tag : Byte) (n : Nat) :
    CarSafe (doClearBreach tag n s) := by
  exact request_carSafe h tag (fun ht => forOven_carSafe ht n (clearBreachOp_carSafe ht n)) 


theorem doPushRetry_carSafe {s : State} (h : CarSafe s) (tag : Byte) (n : Nat) : CarSafe (doPushRetry tag n s) := by
  exact request_carSafe h tag (fun ht => runOnly_carSafe ht (pushRetryOp_carSafe ht n)) 


theorem doAbandon_carSafe {s : State} (h : CarSafe s) (tag : Byte) (n : Nat) : CarSafe (doAbandon tag n s) := by
  exact request_carSafe h tag (fun ht => runOnly_carSafe ht (abandonOp_carSafe ht n)) 


theorem doLeakReport_carSafe {s : State} (h : CarSafe s) (tag : Byte) (n : Nat) (side : Option Side) :
    CarSafe (doLeakReport tag n side s) := by
  exact request_carSafe h tag (fun ht => runOnly_carSafe ht (leakReportOp_carSafe ht n side)) 


theorem doSetDamper_carSafe {s : State} (h : CarSafe s) (tag : Byte) (k value : Nat) :
    CarSafe (doSetDamper tag k value s) := by
  exact request_carSafe h tag (fun ht => forSection_carSafe ht k (setDamperOp_carSafe ht k value)) 


theorem doSetAuto_carSafe {s : State} (h : CarSafe s) (tag : Byte) (k : Nat) : CarSafe (doSetAuto tag k s) := by
  exact request_carSafe h tag (fun ht => forSection_carSafe ht k (setAutoOp_carSafe ht k)) 


theorem doSetSetpoint_carSafe {s : State} (h : CarSafe s) (tag : Byte) (k : Nat) (value : Int) :
    CarSafe (doSetSetpoint tag k value s) := by
  exact request_carSafe h tag (fun ht => forSection_carSafe ht k (setSetpointOp_carSafe ht k value)) 


theorem doTrackBlock_carSafe {s : State} (h : CarSafe s) (tag : Byte) (first last : Option TrackSpot) :
    CarSafe (doTrackBlock tag first last s) := by
  exact request_carSafe h tag (fun ht => trackBlockOp_carSafe ht first last) 


theorem doTrackFree_carSafe {s : State} (h : CarSafe s) (tag : Byte) (first last : Option TrackSpot) :
    CarSafe (doTrackFree tag first last s) := by
  exact request_carSafe h tag (fun ht => trackFreeOp_carSafe ht first last) 


theorem doSetOutput_carSafe {s : State} (h : CarSafe s) (tag : Byte) (t : Nat) (level : Option Bool) :
    CarSafe (doSetOutput tag t level s) := by
  exact request_carSafe h tag (fun ht => setOutputOp_carSafe ht t level) 


theorem doToggle_carSafe {s : State} (h : CarSafe s) (tag : Byte) (t : Nat) : CarSafe (doToggle tag t s) := by
  exact request_carSafe h tag (fun ht => writeOutput_carSafe ht t _) 


theorem doClearTerminal_carSafe {s : State} (h : CarSafe s) (tag : Byte) (t : Nat) :
    CarSafe (doClearTerminal tag t s) := by
  exact request_carSafe h tag (fun ht => clearTerminalOp_carSafe ht t) 


theorem doLinkClear_carSafe {s : State} (h : CarSafe s) (tag : Byte) (l : Option LinkId) :
    CarSafe (doLinkClear tag l s) := by
  exact request_carSafe h tag (fun ht => linkClearOp_carSafe ht l) 


theorem doLinkTest_carSafe {s : State} (h : CarSafe s) (tag : Byte) (l : Option LinkId) :
    CarSafe (doLinkTest tag l s) := by
  exact request_carSafe h tag (fun ht => forMLink_carSafe ht l fun m => linkTestOp_carSafe ht m) 


theorem doTestRead_carSafe {s : State} (h : CarSafe s) (tag : Byte) (l : Option LinkId) :
    CarSafe (doTestRead tag l s) := by
  exact request_carSafe h tag (fun ht => forMLink_carSafe ht l fun m => testReadOp_carSafe ht m) 


theorem doTestEnd_carSafe {s : State} (h : CarSafe s) (tag : Byte) (l : Option LinkId) :
    CarSafe (doTestEnd tag l s) := by
  exact request_carSafe h tag (fun ht => forMLink_carSafe ht l fun m => testEndOp_carSafe ht m) 


theorem doCommit_carSafe {s : State} (h : CarSafe s) (tag : Byte) : CarSafe (doCommit tag s) := by
  exact request_carSafe h tag (fun ht => commitOp_carSafe ht) 


theorem doRestart_carSafe {s : State} (h : CarSafe s) (tag : Byte) : CarSafe (doRestart tag s) := by
  exact request_carSafe h tag (fun ht => restartOp_carSafe ht) 


theorem doUnknownRequest_carSafe {s : State} (h : CarSafe s) (tag : Byte) : CarSafe (doUnknownRequest tag s) := by
  exact request_carSafe h tag (fun ht => ht) 


theorem doStatusQuery_carSafe {s : State} (h : CarSafe s) (tag : Byte) : CarSafe (doStatusQuery tag s) := by
  exact request_carSafe h tag fun ht => statusAnswer_carSafe ht

theorem doTimeQuery_carSafe {s : State} (h : CarSafe s) (tag : Byte) : CarSafe (doTimeQuery tag s) := by
  exact request_carSafe h tag fun ht => timeAnswer_carSafe ht

theorem doOvenQuery_carSafe {s : State} (h : CarSafe s) (tag : Byte) (n : Nat) : CarSafe (doOvenQuery tag n s) := by
  exact request_carSafe h tag fun ht => ovenAnswer_carSafe ht n

theorem doPlanQuery_carSafe {s : State} (h : CarSafe s) (tag : Byte) : CarSafe (doPlanQuery tag s) := by
  exact request_carSafe h tag fun ht => planAnswer_carSafe ht

theorem doSlotQuery_carSafe {s : State} (h : CarSafe s) (tag : Byte) (i : Nat) : CarSafe (doSlotQuery tag i s) := by
  exact request_carSafe h tag fun ht => slotAnswer_carSafe ht i

theorem doMachinesQuery_carSafe {s : State} (h : CarSafe s) (tag : Byte) : CarSafe (doMachinesQuery tag s) := by
  exact request_carSafe h tag fun ht => machinesAnswer_carSafe ht

theorem doPushQuery_carSafe {s : State} (h : CarSafe s) (tag : Byte) : CarSafe (doPushQuery tag s) := by
  exact request_carSafe h tag fun ht => pushAnswerOf_carSafe ht

theorem doDoorQuery_carSafe {s : State} (h : CarSafe s) (tag : Byte) (n : Nat) : CarSafe (doDoorQuery tag n s) := by
  exact request_carSafe h tag fun ht => doorAnswer_carSafe ht n

theorem doTasksQuery_carSafe {s : State} (h : CarSafe s) (tag : Byte) (d : Side) :
    CarSafe (doTasksQuery tag d s) := by
  exact request_carSafe h tag fun ht => tasksAnswer_carSafe ht d

theorem doSectionQuery_carSafe {s : State} (h : CarSafe s) (tag : Byte) (k : Nat) :
    CarSafe (doSectionQuery tag k s) := by
  exact request_carSafe h tag fun ht => sectionAnswer_carSafe ht k

theorem doValvesQuery_carSafe {s : State} (h : CarSafe s) (tag : Byte) (n : Option Nat) :
    CarSafe (doValvesQuery tag n s) := by
  exact request_carSafe h tag fun ht => valvesAnswer_carSafe ht n

theorem doQuenchQuery_carSafe {s : State} (h : CarSafe s) (tag : Byte) : CarSafe (doQuenchQuery tag s) := by
  exact request_carSafe h tag fun ht => quenchAnswer_carSafe ht

theorem doTerminalsQuery_carSafe {s : State} (h : CarSafe s) (tag : Byte) (t : Option Nat) :
    CarSafe (doTerminalsQuery tag t s) := by
  exact request_carSafe h tag fun ht => terminalsAnswer_carSafe ht t

theorem runFrame_carSafe {s : State} (h : CarSafe s) (i : Instr) : CarSafe (runFrame i s) := by
  unfold runFrame
  split
  · exact doStatus_carSafe h _ _ _ _
  · exact doRequest_carSafe h _ _ _
  · exact doRequest_carSafe h _ _ _
  · exact doRequest_carSafe h _ _ _
  · exact doRequest_carSafe h _ _ _
  · exact doDoorOff_carSafe h _ _ _
  · exact doDoorOn_carSafe h _ _ _
  · exact doDoorTight_carSafe h _ _ _
  · exact doRamStart_carSafe h _ _
  · exact doRamAtEnd_carSafe h _ _
  · exact doRamHome_carSafe h _ _
  · exact doChargeStart_carSafe h _ _
  · exact doChargeEnd_carSafe h _ _
  · exact doValve_carSafe h _ _ _
  · exact doLeakSeen_carSafe h _ _ _
  · exact doTaskDone_carSafe h _ _ _ _
  · exact doCcTaskDone_carSafe h _ _ _
  · exact doDumpDone_carSafe h _ _
  · exact doBattery_carSafe h _ _ _ _
  · exact doSeries_carSafe h _ _ _
  · exact doTiming_carSafe h _ _
  · exact doPressure_carSafe h _ _ _
  · exact doWharf_carSafe h _ _
  · exact doDoors_carSafe h _ _
  · exact doTerminal_carSafe h _ _ _ _ _ _
  · exact doLink_carSafe h _ _ _
  · exact doOvenLoad_carSafe h _ _
  · exact doSetTime_carSafe h _ _
  · exact doOvenService_carSafe h _ _ _
  · exact doSetTarget_carSafe h _ _ _
  · exact doMakeup_carSafe h _ _
  · exact doCancelMakeup_carSafe h _ _
  · exact doPlanStart_carSafe h _ _
  · exact doPlanHalt_carSafe h _
  · exact doPlanResume_carSafe h _
  · exact doPlanStage_carSafe h _
  · exact doSetMode_carSafe h _ _ _ _
  · exact doSetModeRange_carSafe h _ _ _ _ _
  · exact doRangeAbort_carSafe h _
  · exact doClearBreach_carSafe h _ _
  · exact doPushRetry_carSafe h _ _
  · exact doAbandon_carSafe h _ _
  · exact doLeakReport_carSafe h _ _ _
  · exact doSetDamper_carSafe h _ _ _
  · exact doSetAuto_carSafe h _ _
  · exact doSetSetpoint_carSafe h _ _ _
  · exact doTrackBlock_carSafe h _ _ _
  · exact doTrackFree_carSafe h _ _ _
  · exact doSetOutput_carSafe h _ _ _
  · exact doToggle_carSafe h _ _
  · exact doClearTerminal_carSafe h _ _
  · exact doLinkClear_carSafe h _ _
  · exact doLinkTest_carSafe h _ _
  · exact doTestRead_carSafe h _ _
  · exact doTestEnd_carSafe h _ _
  · exact doCommit_carSafe h _
  · exact doRestart_carSafe h _
  · exact doUnknownRequest_carSafe h _
  · exact doStatusQuery_carSafe h _
  · exact doTimeQuery_carSafe h _
  · exact doOvenQuery_carSafe h _ _
  · exact doPlanQuery_carSafe h _
  · exact doSlotQuery_carSafe h _ _
  · exact doMachinesQuery_carSafe h _
  · exact doPushQuery_carSafe h _
  · exact doDoorQuery_carSafe h _ _
  · exact doTasksQuery_carSafe h _ _
  · exact doSectionQuery_carSafe h _ _
  · exact doValvesQuery_carSafe h _ _
  · exact doQuenchQuery_carSafe h _
  · exact doTerminalsQuery_carSafe h _ _
  · exact h

theorem takeFrame_carSafe {s : State} (h : CarSafe s) (l : LinkId) (t : Taken) : CarSafe (takeFrame l t s) := by
  unfold takeFrame
  split
  · exact runFrame_carSafe h _
  · exact doRequest_carSafe h _ _ _
  · exact doUnknownRequest_carSafe h _
  · exact discard_carSafe h _ _

theorem completeFrame_carSafe {s : State} (h : CarSafe s) (l : LinkId) (len : Nat) (chars : List Byte) :
    CarSafe (completeFrame l len chars s) := by
  unfold completeFrame
  dsimp only
  split
  · split
    · exact takeFrame_carSafe h _ _
    · exact discard_carSafe h _ _
  · exact discard_carSafe h _ _

theorem State.setRx_carSafe {s : State} (h : CarSafe s) (l : LinkId) (rx : RxAssembly) : CarSafe (s.setRx l rx) :=
  updPort_carSafe h l _

theorem assemble_carSafe {s : State} (h : CarSafe s) (l : LinkId) (b : Byte) : CarSafe (assemble l b s) := by
  unfold assemble
  dsimp only
  split
  · split
    · exact setRx_carSafe h _ _
    · exact h
  · split
    · exact setRx_carSafe h _ _
    · exact discard_carSafe (setRx_carSafe h _ _) _ _
  · exact setRx_carSafe h _ _
  · split
    · exact setRx_carSafe h _ _
    · exact completeFrame_carSafe (setRx_carSafe h _ _) _ _ _

theorem takeChar_carSafe {s : State} (h : CarSafe s) (l : LinkId) (c : RxChar) : CarSafe (takeChar l c s) := by
  unfold takeChar
  split
  · exact assemble_carSafe h _ _
  · exact discard_carSafe (setRx_carSafe h _ _) _ _
  · exact discard_carSafe (setRx_carSafe h _ _) _ _

theorem toChecker_carSafe {s : State} (h : CarSafe s) (l : LinkId) (wave : LineWave) :
    CarSafe (toChecker l wave s) := by
  unfold toChecker
  split
  · exact doTestCharacter_carSafe h _ _
  · exact h

theorem doCharacterReceived_carSafe {s : State} (h : CarSafe s) (l : LinkId) (wave : LineWave) :
    CarSafe (doCharacterReceived l wave s) := by
  unfold doCharacterReceived
  split
  · exact toChecker_carSafe h _ _
  · split
    · exact takeChar_carSafe h _ _
    · exact h

end Sys2Proof.Machine
end

