-- ==== Sys2Proof/Laws/InvA.lean ====
section
/-! SUPPORT. `Inv` under the setters and the shared operations: each keeps it, under a condition on what a setter writes. -/

set_option linter.all false
set_option maxRecDepth 2000

namespace Sys2Proof.Machine

open Sys2Proof

/-! ## Queues -/

@[simp] theorem QueueOk.filter {q : List TaskEntry} (h : QueueOk q) (p : TaskEntry → Bool) : QueueOk (q.filter p) :=
  ⟨Nat.le_trans (List.length_filter_le _ _) h.1, h.2.1.filter _, h.2.2.sublist (List.filter_sublist.map _)⟩

@[simp] theorem joinLast_length (e : TaskEntry) (q : List TaskEntry) : (joinLast e q).length = q.length + 1 := by
  fun_induction joinLast e q <;> simp_all

@[simp] theorem joinHead_length (e : TaskEntry) (q : List TaskEntry) : (joinHead e q).length = q.length + 1 := by
  fun_induction joinHead e q <;> simp_all

theorem mem_joinLast {e x : TaskEntry} {q : List TaskEntry} : x ∈ joinLast e q ↔ x = e ∨ x ∈ q := by
  fun_induction joinLast e q <;> simp_all <;> tauto

theorem mem_joinHead {e x : TaskEntry} {q : List TaskEntry} : x ∈ joinHead e q ↔ x = e ∨ x ∈ q := by
  fun_induction joinHead e q <;> simp_all <;> tauto

theorem joinLast_perm (e : TaskEntry) (q : List TaskEntry) : (joinLast e q).Perm (e :: q) := by
  fun_induction joinLast e q with
  | case1 => exact .refl _
  | case2 a l hlt => exact .refl _
  | case3 a l hlt ih => exact (ih.cons a).trans (.swap _ _ _)

theorem joinHead_perm (e : TaskEntry) (q : List TaskEntry) : (joinHead e q).Perm (e :: q) := by
  fun_induction joinHead e q with
  | case1 => exact .refl _
  | case2 a l hlt => exact .refl _
  | case3 a l hlt ih => exact (ih.cons a).trans (.swap _ _ _)

/-- No entry of a queue has an oven and kind. -/
def Apart (n : Nat) (k : TaskKind) (q : List TaskEntry) : Prop := q.any (fun e => e.is n k) = false

theorem Apart.not_mem {n : Nat} {k : TaskKind} {q : List TaskEntry} (h : Apart n k q) :
    (n, k) ∉ q.map fun e => (e.oven, e.kind) := by
  simp only [Apart, List.any_eq_false, TaskEntry.is] at h
  simp only [List.mem_map, not_exists, not_and]
  intro e he hk
  obtain ⟨rfl, rfl⟩ := Prod.mk.inj hk
  simpa using h e he

theorem Apart.filter {n : Nat} {k : TaskKind} {q : List TaskEntry} (h : Apart n k q) (p : TaskEntry → Bool) :
    Apart n k (q.filter p) := by
  simp only [Apart, List.any_eq_false, List.mem_filter] at h ⊢
  exact fun e he => h e he.1

theorem apart_without (q : List TaskEntry) (n : Nat) (k : TaskKind) : Apart n k (q.filter fun e => !(e.is n k)) := by
  simp only [Apart, List.any_eq_false, List.mem_filter]
  simp

def Sorted (q : List TaskEntry) : Prop := q.Pairwise fun a b => TaskKind.rank a.kind ≤ TaskKind.rank b.kind

theorem joinLast_sorted {e : TaskEntry} {q : List TaskEntry} (h : Sorted q) : Sorted (joinLast e q) := by
  fun_induction joinLast e q with
  | case1 => simp [Sorted]
  | case2 a l hlt =>
    unfold Sorted at *
    rw [List.pairwise_cons] at h ⊢
    refine ⟨fun b hb => ?_, List.pairwise_cons.2 h⟩
    rcases List.mem_cons.1 hb with rfl | hb
    · omega
    · have := h.1 b hb; omega
  | case3 a l hlt ih =>
    unfold Sorted at *
    rw [List.pairwise_cons] at h ⊢
    refine ⟨fun b hb => ?_, ih h.2⟩
    rcases mem_joinLast.1 hb with rfl | hb
    · omega
    · exact h.1 b hb

theorem joinHead_sorted {e : TaskEntry} {q : List TaskEntry} (h : Sorted q) : Sorted (joinHead e q) := by
  fun_induction joinHead e q with
  | case1 => simp [Sorted]
  | case2 a l hlt =>
    unfold Sorted at *
    rw [List.pairwise_cons] at h ⊢
    refine ⟨fun b hb => ?_, List.pairwise_cons.2 h⟩
    rcases List.mem_cons.1 hb with rfl | hb
    · omega
    · have := h.1 b hb; omega
  | case3 a l hlt ih =>
    unfold Sorted at *
    rw [List.pairwise_cons] at h ⊢
    refine ⟨fun b hb => ?_, ih h.2⟩
    rcases mem_joinHead.1 hb with rfl | hb
    · omega
    · exact h.1 b hb

theorem QueueOk.joinLast {q : List TaskEntry} (h : QueueOk q) (hl : q.length < 16) {e : TaskEntry}
    (ha : Apart e.oven e.kind q) : QueueOk (joinLast e q) :=
  ⟨by simp; omega, joinLast_sorted h.2.1,
    ((joinLast_perm e q).map _).nodup_iff.2 (List.nodup_cons.2 ⟨ha.not_mem, h.2.2⟩)⟩

theorem QueueOk.joinHead {q : List TaskEntry} (h : QueueOk q) (hl : q.length < 16) {e : TaskEntry}
    (ha : Apart e.oven e.kind q) : QueueOk (joinHead e q) :=
  ⟨by simp; omega, joinHead_sorted h.2.1,
    ((joinHead_perm e q).map _).nodup_iff.2 (List.nodup_cons.2 ⟨ha.not_mem, h.2.2⟩)⟩

/-- The entries of a queue in service, with ovens and kinds kept. -/
theorem serveFirst_kinds {ok : TaskEntry → Bool} {t : Nat} {q : List TaskEntry} {e : TaskEntry} {r : List TaskEntry}
    (h : serveFirst ok t q = some (e, r)) :
    (r.map fun e => (e.oven, e.kind)) = q.map fun e => (e.oven, e.kind) := by
  fun_induction serveFirst ok t q generalizing e r with
  | case1 => simp at h
  | case2 a l hok => cases h; simp
  | case3 a l hok ih =>
    simp only [Option.map_eq_some_iff] at h
    obtain ⟨⟨e', r'⟩, h1, h2⟩ := h
    obtain ⟨-, rfl⟩ := by simpa using h2
    simp [ih h1]

theorem QueueOk.of_kinds {q r : List TaskEntry} (h : QueueOk q)
    (hk : (r.map fun e => (e.oven, e.kind)) = q.map fun e => (e.oven, e.kind)) : QueueOk r := by
  have hl : r.length = q.length := by simpa using congrArg List.length hk
  refine ⟨by rw [hl]; exact h.1, ?_, by rw [hk]; exact h.2.2⟩
  have h2 := h.2.1
  rw [← List.pairwise_map (f := fun e : TaskEntry => (e.oven, e.kind))
    (R := fun a b => TaskKind.rank a.2 ≤ TaskKind.rank b.2)] at h2 ⊢
  rwa [hk]

namespace State

/-! ## Setters -/

/-- A change of records that keeps sections and makes no oven CHARGING keeps the one CHARGING oven of a section. -/
theorem OneCharging.upd1 {l : List OvenRec} (h : OneCharging l) (n : Nat) {f : OvenRec → OvenRec}
    (hs : ∀ o, (f o).sec = o.sec) (hc : ∀ o, (f o).state = .charging → o.state = .charging) :
    OneCharging (upd1 f n l) := by
  have key : ∀ i a, nth1 (Machine.upd1 f n l) i = some a →
      ∃ a', nth1 l i = some a' ∧ a.sec = a'.sec ∧ (a.state = .charging → a'.state = .charging) := by
    intro i a hi
    rw [nth1_upd1] at hi
    split at hi
    · obtain ⟨a', ha, rfl⟩ := Option.map_eq_some_iff.1 hi
      exact ⟨a', ha, hs a', hc a'⟩
    · exact ⟨a, hi, rfl, id⟩
  intro i j a b hi hj ha hb hab
  obtain ⟨a', hi', ea, ca⟩ := key i a hi
  obtain ⟨b', hj', eb, cb⟩ := key j b hj
  exact h i j a' b' hi' hj' (ca ha) (cb hb) (by rw [← ea, ← eb, hab])

@[simp] theorem updOven_inv {s : State} (h : Inv s) (n : Nat) {f : OvenRec → OvenRec} (hf : ∀ o, o.Ok → (f o).Ok)
    (hs : ∀ o, (f o).sec = o.sec) (hc : ∀ o, (f o).state = .charging → o.state = .charging) :
    Inv (s.updOven n f) := by
  obtain ⟨h1, h2, h3, h4, h5, h6, h7, h8, h9, h10, h11⟩ := h
  refine ⟨h1, ⟨by simpa using h2.1, ?_, OneCharging.upd1 h2.2.2 n hs hc⟩, h3, h4, h5, h6, h7, h8, h9, h10, ?_⟩
  · exact upd1_forall hf n _ h2.2.1
  · refine ⟨by simpa using h11.1, by simpa using h11.2.1, h11.2.2.1, by simpa using h11.2.2.2.1,
      by simpa using h11.2.2.2.2.1, fun hb => ?_⟩
    have := h11.2.2.2.2.2 hb
    simp [updOven, this]
    cases n <;> rfl

@[simp] theorem updDoor_inv {s : State} (h : Inv s) (n : Nat) (d : Side) {f : DoorRec → DoorRec}
    (hf : ∀ r, r.leaks ≤ 15 → (f r).leaks ≤ 15) : Inv (s.updDoor n d f) := by
  obtain ⟨h1, h2, h3, h4, h5, h6, h7, h8, h9, h10, h11⟩ := h
  refine ⟨h1, h2, h3, h4, ⟨?_, h5.2⟩, h6, h7, h8, h9, h10, by simpa [TablesOk, State.inRun] using h11⟩
  refine upd1_forall (P := fun (p : Pair DoorRec) => p.ps.leaks ≤ 15 ∧ p.cs.leaks ≤ 15) (fun p hp => ?_) n _ h5.1
  cases d <;> simp [Pair.set, Pair.get, hp, hf]

@[simp] theorem setQueue_inv {s : State} (h : Inv s) (d : Side) {q : List TaskEntry} (hq : QueueOk q) :
    Inv (s.setQueue d q) := by
  obtain ⟨h1, h2, h3, h4, h5, h6, h7, h8, h9, h10, h11⟩ := h
  refine ⟨h1, h2, h3, h4, ?_, h6, h7, h8, h9, h10, by simpa [TablesOk, State.inRun] using h11⟩
  obtain ⟨a, b, c, e⟩ := h5
  cases d
  · exact ⟨a, hq, c, e⟩
  · exact ⟨a, b, hq, e⟩

@[simp] theorem queue_ok {s : State} (h : Inv s) (d : Side) : QueueOk (s.queue d) := by
  cases d
  · exact h.dru.2.1
  · exact h.dru.2.2.1

theorem round_ok {s : State} (h : Inv s) (d : Side) : (s.round d).Ok := by
  cases d
  · exact h.dru.2.2.2.1
  · exact h.dru.2.2.2.2.1

theorem round_pointer {s : State} (h : Inv s) (d : Side) : PointerOk s.ot.length (s.round d) := by
  cases d
  · exact h.tables.2.2.2.1
  · exact h.tables.2.2.2.2.1

@[simp] theorem updRound_inv {s : State} (h : Inv s) (d : Side) {f : Inspection → Inspection} (hf : ∀ r, r.Ok → (f r).Ok)
    (hp : ∀ r, PointerOk s.ot.length r → PointerOk s.ot.length (f r)) : Inv (s.updRound d f) := by
  obtain ⟨h1, h2, h3, h4, h5, h6, h7, h8, h9, h10, h11⟩ := h
  obtain ⟨a, b, c, e, g, k⟩ := h5
  obtain ⟨t1, t2, t3, t4, t5, t6⟩ := h11
  cases d
  · exact ⟨h1, h2, h3, h4, ⟨a, b, c, hf _ e, g, k⟩, h6, h7, h8, h9, h10, t1, t2, t3, hp _ t4, t5, t6⟩
  · exact ⟨h1, h2, h3, h4, ⟨a, b, c, e, hf _ g, k⟩, h6, h7, h8, h9, h10, t1, t2, t3, t4, hp _ t5, t6⟩

@[simp] theorem updSec_inv {s : State} (h : Inv s) (k : Nat) {f : SecRec → SecRec} (hf : ∀ r, r.Ok → (f r).Ok) :
    Inv (s.updSec k f) := by
  obtain ⟨h1, h2, h3, h4, h5, h6, h7, h8, h9, h10, h11⟩ := h
  refine ⟨h1, h2, h3, h4, h5, ⟨by simpa using h6.1, upd1_forall hf k _ h6.2.1, h6.2.2⟩, h7, h8, h9, h10,
    by simpa [TablesOk, State.inRun] using h11⟩

@[simp] theorem updGate_inv {s : State} (h : Inv s) (k : Nat) (f : Gate → Gate) : Inv (s.updGate k f) := by
  obtain ⟨h1, h2, h3, h4, h5, h6, h7, h8, h9, h10, h11⟩ := h
  exact ⟨h1, h2, h3, h4, h5, ⟨h6.1, h6.2.1, by simpa using h6.2.2.1, h6.2.2.2⟩, h7, h8, h9, h10,
    by simpa [TablesOk, State.inRun] using h11⟩

/-- The valve-task queue as the invariant has it. -/
abbrev ValvesOk (q : List ValveEntry) : Prop := q.length ≤ 8 ∧ (q.map ValveEntry.oven).Nodup

theorem ValvesOk.filter {q : List ValveEntry} (h : ValvesOk q) (p : ValveEntry → Bool) : ValvesOk (q.filter p) :=
  ⟨Nat.le_trans (List.length_filter_le _ _) h.1, h.2.sublist (List.filter_sublist.map _)⟩

/-- An entry of the queue put at its head in another form, its oven kept. -/
theorem ValvesOk.atHead {q : List ValveEntry} (h : ValvesOk q) {e x : ValveEntry} (he : e ∈ q) (hx : x.oven = e.oven) :
    ValvesOk (x :: q.filter fun y => y.oven != e.oven) := by
  have hl : (q.filter fun y => y.oven != e.oven).length < q.length :=
    List.length_filter_lt_length_iff_exists.2 ⟨e, he, by simp⟩
  refine ⟨by simp; have := h.1; omega, ?_⟩
  rw [List.map_cons, List.nodup_cons]
  refine ⟨?_, (h.filter _).2⟩
  simp [hx]

theorem valves_ok {s : State} (h : Inv s) : ValvesOk s.ofu.queue := h.ofu.2.2.2

@[simp] theorem setValves_inv {s : State} (h : Inv s) {q : List ValveEntry} (hq : ValvesOk q) : Inv (s.setValves q) := by
  obtain ⟨h1, h2, h3, h4, h5, h6, h7, h8, h9, h10, h11⟩ := h
  exact ⟨h1, h2, h3, h4, h5, ⟨h6.1, h6.2.1, h6.2.2.1, hq⟩, h7, h8, h9, h10, by simpa [TablesOk, State.inRun] using h11⟩

/-- A bay that is neither FREE nor ASSIGNED takes another such state. -/
theorem setBay_inv {s : State} (h : Inv s) (b : Nat) {r old : BayRec} (ho : s.bay b = some old)
    (hf : ∀ t, old ≠ .free t ∧ r ≠ .free t) (ha : ∀ o, old ≠ .assigned o) : Inv (s.setBay b r) := by
  obtain ⟨h1, h2, h3, h4, h5, h6, h7, h8, h9, h10, h11⟩ := h
  obtain ⟨q1, q2, q3, q4, q5⟩ := h7
  refine ⟨h1, h2, h3, h4, h5, h6, ⟨q1, by simpa using q2, q3, fun c => ?_, fun l c hl hb => ?_⟩, h8, h9, h10, h11⟩
  · show c ∈ s.qnu.free ↔ _
    rw [q4 c]
    simp only [QuenchUnit.isFree, setBay_bays, nth1_upd1]
    split
    · rename_i e
      subst e
      simp only [show nth1 s.qnu.bays b = some old from ho, Option.map_some, Option.some.injEq]
      exact ⟨fun ⟨t, ht⟩ => absurd ht (hf t).1, fun ⟨t, ht⟩ => absurd ht (hf t).2⟩
    · exact Iff.rfl
  · obtain ⟨o, ho'⟩ := q5 l c hl hb
    have hne : b ≠ c := by
      rintro rfl
      rw [show nth1 s.qnu.bays b = some old from ho] at ho'
      exact ha o (Option.some.inj ho')
    refine ⟨o, ?_⟩
    rw [setBay_bays, nth1_upd1, if_neg hne]
    exact ho'

@[simp] theorem updCar_inv {s : State} (h : Inv s) (f : CarRec → CarRec) : Inv (s.updCar f) :=
  ⟨h.tb, h.ot, h.pln, h.ilk, h.dru, h.ofu, h.qnu, h.trm, h.lnk, h.cfg, h.tables⟩

@[simp] theorem updLoad_inv {s : State} (h : Inv s) {f : LoadRec → LoadRec} (hf : ∀ l, (f l).bay = l.bay) :
    Inv (s.updLoad f) := by
  refine ⟨h.tb, h.ot, h.pln, h.ilk, h.dru, h.ofu, ?_, h.trm, h.lnk, h.cfg, h.tables⟩
  obtain ⟨q1, q2, q3, q4, q5⟩ := h.qnu
  refine ⟨q1, q2, q3, q4, fun l b hl hb => ?_⟩
  obtain ⟨l', hl', rfl⟩ := Option.map_eq_some_iff.1 hl
  exact q5 l' b hl' (by rw [← hf, hb])

@[simp] theorem setPhase_inv {s : State} (h : Inv s) (t : Option Nat) : Inv (s.setPhase t) := 
  ⟨h.tb, h.ot, h.pln, h.ilk, h.dru, h.ofu, h.qnu, h.trm, h.lnk, h.cfg, h.tables⟩

@[simp] theorem updTerm_inv {s : State} (h : Inv s) (t : Nat) {f : TermRec → TermRec} (hf : ∀ r, (f r).fn = r.fn) :
    Inv (s.updTerm t f) := by
  obtain ⟨h1, h2, h3, h4, h5, h6, h7, h8, h9, h10, h11⟩ := h
  refine ⟨h1, h2, h3, h4, h5, h6, h7, ⟨by simpa using h8.1, ?_⟩, h9, h10, by simpa [TablesOk, State.inRun] using h11⟩
  have : (upd1 f (t + 1) s.trm).map TermRec.fn = s.trm.map TermRec.fn := upd1_map hf _ _
  simpa [updTerm, this] using h8.2

theorem link_ok {s : State} (h : Inv s) (m : MachineId) : (s.lnk.mach.get m).Ok := by
  obtain ⟨-, -, -, -, -, -, -, -, ⟨-, -, -, a, b, c, d⟩, -, -⟩ := h
  cases m <;> assumption

theorem updLink_inv {s : State} (h : Inv s) (m : MachineId) {f : MLink → MLink} (hf : (f (s.lnk.mach.get m)).Ok) :
    Inv (s.updLink m f) := by
  obtain ⟨h1, h2, h3, h4, h5, h6, h7, h8, ⟨x, y, z, a, b, c, d⟩, h10, h11⟩ := h
  refine ⟨h1, h2, h3, h4, h5, h6, h7, h8, ?_, h10, by simpa [TablesOk, State.inRun] using h11⟩
  cases m
  · exact ⟨x, y, z, hf, b, c, d⟩
  · exact ⟨x, y, z, a, hf, c, d⟩
  · exact ⟨x, y, z, a, b, hf, d⟩
  · exact ⟨x, y, z, a, b, c, hf⟩

/-- A port keeps its error count in range, and comes up only outside a link test. -/
theorem updPort_inv {s : State} (h : Inv s) (l : LinkId) {f : Port → Port}
    (hf : (s.port l).errors ≤ 255 → (f (s.port l)).errors ≤ 255)
    (hu : ∀ m, l = .mach m → (f (s.port l)).up = (s.port l).up ∨ (f (s.port l)).up = false
      ∨ (s.mlink m).test.active = false) : Inv (s.updPort l f) := by
  cases l with
  | sup =>
    obtain ⟨h1, h2, h3, h4, h5, h6, h7, h8, ⟨x, y⟩, h10, h11⟩ := h
    exact ⟨h1, h2, h3, h4, h5, h6, h7, h8, ⟨hf x, y⟩, h10, by simpa [TablesOk, State.inRun] using h11⟩
  | mach m =>
    refine updLink_inv (f := fun k => { k with port := f k.port }) h m ?_
    obtain ⟨a, b, c, d, e⟩ := link_ok h m
    refine ⟨a, hf b, c, d, fun ht => ⟨?_, (e ht).2⟩⟩
    rcases hu m rfl with h' | h' | h'
    · exact h'.trans (e ht).1
    · exact h'
    · exact absurd ht (by simpa [mlink] using h')

@[simp] theorem updMachine_inv {s : State} (h : Inv s) (m : MachineId) (f : MachineRec → MachineRec) :
    Inv (s.updMachine m f) := 
  ⟨h.tb, h.ot, h.pln, h.ilk, h.dru, h.ofu, h.qnu, h.trm, h.lnk, h.cfg, h.tables⟩

theorem setPermit_inv {s : State} (h : Inv s) (m : MachineId) {p : Option Permit}
    (hp : ∀ x, p = some x → PermitKind.machine x.kind = m) : Inv (s.setPermit m p) := by
  obtain ⟨h1, h2, h3, h4, h5, h6, h7, h8, h9, h10, h11⟩ := h
  refine ⟨h1, h2, h3, ⟨fun k x hx => ?_, h4.2⟩, h5, h6, h7, h8, h9, h10, by simpa [TablesOk, State.inRun] using h11⟩
  rw [setPermit_permits, Quad.get_set] at hx
  split at hx
  · rename_i e; subst e; exact hp x hx
  · exact h4.1 k x hx

@[simp] theorem setPermit_none_inv {s : State} (h : Inv s) (m : MachineId) : Inv (s.setPermit m none) :=
  setPermit_inv h m (by simp)

theorem setPush_inv {s : State} (h : Inv s) {p : Option PushRec} (hp : ∀ x, p = some x → x.Ok) : Inv (s.setPush p) := by
  obtain ⟨h1, h2, h3, h4, h5, h6, h7, h8, h9, h10, h11⟩ := h
  exact ⟨h1, h2, h3, ⟨h4.1, hp⟩, h5, h6, h7, h8, h9, h10, by simpa [TablesOk, State.inRun] using h11⟩

@[simp] theorem setPush_none_inv {s : State} (h : Inv s) : Inv (s.setPush none) := setPush_inv h (by simp)

theorem push_ok {s : State} (h : Inv s) {p : PushRec} (hp : s.ilk.push = some p) : p.Ok := h.ilk.2 p hp

@[simp] theorem updPush_inv {s : State} (h : Inv s) {f : PushRec → PushRec} (hf : ∀ p, p.Ok → (f p).Ok) : Inv (s.updPush f) := by
  refine setPush_inv h fun x hx => ?_
  obtain ⟨p, hp, rfl⟩ := Option.map_eq_some_iff.1 hx
  exact hf p (push_ok h hp)

@[simp] theorem updPlan_inv {s : State} (h : Inv s) {f : Planner → Planner} (hf : s.pln.Ok → (f s.pln).Ok) : Inv (s.updPlan f) := by
  obtain ⟨h1, h2, h3, h4, h5, h6, h7, h8, h9, h10, h11⟩ := h
  exact ⟨h1, h2, hf h3, h4, h5, h6, h7, h8, h9, h10, by simpa [TablesOk, State.inRun] using h11⟩

@[simp] theorem load_inv {s : State} (h : Inv s) {f : Loaded → Loaded}
    (hf : (f s.cfg.loaded).battery = false → s.cfg.loaded.battery = false) : Inv (s.load f) :=
  ⟨h.tb, h.ot, h.pln, h.ilk, h.dru, h.ofu, h.qnu, h.trm, h.lnk, h.cfg,
    ⟨h.tables.1, h.tables.2.1, h.tables.2.2.1, h.tables.2.2.2.1, h.tables.2.2.2.2.1,
      fun hb => h.tables.2.2.2.2.2 (hf hb)⟩⟩

/-! ## Notices and frames -/

@[simp] theorem raise_inv {s : State} (h : Inv s) (b : NoticeBody) : Inv (s.raise b) := by
  obtain ⟨h1, h2, h3, h4, h5, h6, h7, h8, ⟨x, y, z, w⟩, h10, h11⟩ := h
  unfold raise
  split
  · exact ⟨h1, h2, h3, h4, h5, h6, h7, h8, ⟨x, y, by simp; omega, w⟩, h10, h11⟩
  · exact ⟨h1, h2, h3, h4, h5, h6, h7, h8, ⟨x, y, z, w⟩, h10, h11⟩

@[simp] theorem send_inv {s : State} (h : Inv s) (m : MachineId) (f : MFrame) : Inv (s.send m f) := by
  have hl := link_ok h m
  unfold send
  dsimp only
  by_cases ht : (s.mlink m).test.active = true
  · simpa [ht] using h
  by_cases hq : (s.mlink m).queue.length < 16
  · simp only [ht, hq, if_true, if_false, Bool.false_eq_true]
    exact updLink_inv h m ⟨by simp [mlink] at hq ⊢; omega, hl.2.1, hl.2.2.1, hl.2.2.2.1, fun x => absurd x ht⟩
  by_cases hs : (s.mlink m).suppressed = true
  · simpa [ht, hq, hs] using h
  · simp only [ht, hq, hs, if_false, Bool.false_eq_true]
    exact raise_inv (updLink_inv h m hl) _

@[simp] theorem sendIfOnline_inv {s : State} (h : Inv s) (m : MachineId) (f : MFrame) : Inv (s.sendIfOnline m f) := by
  unfold sendIfOnline
  split <;> simp [h]

@[simp] theorem sendAllOnline_inv {s : State} (h : Inv s) (f : MFrame) : Inv (s.sendAllOnline f) := by
  simp (maxDischargeDepth := 40) [sendAllOnline, h]

@[simp] theorem discard_inv {s : State} (h : Inv s) (l : LinkId) (c : DiscardCause) : Inv (s.discard l c) :=
  updPort_inv h l (fun _ => Nat.min_le_left _ _) (fun _ _ => .inl rfl)

end State

end Sys2Proof.Machine
end

