-- ==== Sys2Proof/Laws/InvB.lean ====
section
/-! SUPPORT. `Inv` under dispatching, the permit table, the quench unit and valve work. -/

set_option linter.all false

namespace Sys2Proof.Machine

open Sys2Proof

namespace State

theorem mem_numbers {n lo hi : Nat} : n ∈ numbers lo hi ↔ lo ≤ n ∧ n ≤ hi := by
  simp only [numbers, List.mem_map, List.mem_range]
  constructor
  · rintro ⟨k, hk, rfl⟩
    omega
  · intro h
    exact ⟨n - lo, by omega, by omega⟩

/-- The ovens a round visit looks at lie in the table. -/
theorem mem_pointerOrder {n p nOv : Nat} (hp : 1 ≤ p ∧ p ≤ max 1 nOv) (hn : n ∈ pointerOrder p nOv) :
    1 ≤ n ∧ n ≤ max 1 nOv := by
  simp only [pointerOrder, List.mem_append, mem_numbers] at hn
  omega

@[simp] theorem roundVisitCheck_inv {s : State} (h : Inv s) (d : Side) : Inv (s.roundVisitCheck d) := by
  unfold roundVisitCheck
  split
  · exact h
  · split
    · exact h
    · rename_i n hn
      refine send_inv (updRound_inv h d (f := fun r =>
        { r with pointer := n, visit := some ⟨n, timeAdd s.now s.dru.vals.tTask⟩ }) (fun _ hr => hr) fun r _ => ?_) _ _
      exact mem_pointerOrder (round_pointer h d) (List.mem_of_find?_eq_some hn)

@[simp] theorem dispatchDoor_inv {s : State} (h : Inv s) (d : Side) : Inv (s.dispatchDoor d) := by
  unfold dispatchDoor
  split
  · split
    · rename_i e q hq
      exact send_inv (setQueue_inv h d ((queue_ok h d).of_kinds (serveFirst_kinds hq))) _ _
    · exact roundVisitCheck_inv h d
  · exact h

@[simp] theorem dispatchValve_inv {s : State} (h : Inv s) : Inv (s.dispatchValve) := by
  unfold dispatchValve
  split
  · split
    · exact h
    · rename_i e rest hq
      have h8 := valves_ok h
      rw [hq] at h8
      exact send_inv (setValves_inv h (q := { e with service := some _ } :: rest) h8) _ _
  · exact h

@[simp] theorem dispatchFor_inv {s : State} (h : Inv s) (x0 : MachineId) : Inv (s.dispatchFor x0) := by
  unfold dispatchFor
  try dsimp only
  (repeat' split) <;> simp (maxDischargeDepth := 40) [h]

@[simp] theorem disarm_inv {s : State} (h : Inv s) : Inv (s.disarm) := by
  unfold disarm
  split
  · rename_i p hp
    have := push_ok h hp
    split
    · rename_i a ha
      refine setPush_inv h fun x hx => ?_
      obtain rfl := Option.some.inj hx
      exact ⟨this.1, by cases a <;> simp [ArmedFrom.stage]⟩
    · exact h
  · exact h

@[simp] theorem revoke_inv {s : State} (h : Inv s) (m : MachineId) (r : Reason) : Inv (s.revoke m r) := by
  unfold revoke
  try dsimp only
  (repeat' split) <;> simp (maxDischargeDepth := 40) [h]

@[simp] theorem revokeAll_inv {s : State} (h : Inv s) (r : Reason) : Inv (s.revokeAll r) := by
  unfold revokeAll
  try dsimp only
  (repeat' split) <;> simp (maxDischargeDepth := 40) [h]

@[simp] theorem retestOne_inv {s : State} (h : Inv s) (m : MachineId) : Inv (s.retestOne m) := by
  unfold retestOne
  try dsimp only
  (repeat' split) <;> simp (maxDischargeDepth := 40) [h]

@[simp] theorem retest_inv {s : State} (h : Inv s) : Inv (s.retest) := by
  unfold retest
  try dsimp only
  (repeat' split) <;> simp (maxDischargeDepth := 40) [h]

theorem grant_inv {s : State} (h : Inv s) (m : MachineId) (k : PermitKind) (n : Nat) (hk : PermitKind.machine k = m) :
    Inv (s.grant m k n) := by
  have h1 : Inv ((s.setPermit m (some ⟨k, n, s.now, timeAdd s.now s.cfg.timing.tUse⟩)).send m
      (.grant k n (timeAdd s.now s.cfg.timing.tUse))) := send_inv (setPermit_inv h m (by simp [hk])) _ _
  unfold grant
  dsimp only
  split
  · rename_i p hp
    have := push_ok h (by simpa using hp)
    refine setPush_inv h1 fun x hx => ?_
    obtain rfl := Option.some.inj hx
    exact ⟨this.1, by simp⟩
  · exact h1

/-- The tests of a request, all passed (R52). -/
theorem requestFail_eq_none {s : State} {m : MachineId} {k : PermitKind} {n : Nat} :
    s.requestFail m (.known k) n = none ↔ s.inRun = true ∧ s.ovenOk n = true ∧ PermitKind.machine k = m
      ∧ s.permit m = none ∧ s.ilk.stop = false ∧ s.ot.any OvenRec.breach = false ∧ s.kindFail false k n = none := by
  by_cases h1 : s.inRun = true <;> by_cases h2 : s.ovenOk n = true <;> by_cases h3 : PermitKind.machine k = m <;>
    by_cases h4 : s.permit m = none <;> by_cases h5 : s.ilk.stop = true <;>
    by_cases h6 : s.ot.any OvenRec.breach = true <;> simp [requestFail, firstFail, h1, h2, h3, h4, h5, h6]

@[simp] theorem decideRequest_inv {s : State} (h : Inv s) (m : MachineId) (k : ReqKind) (n : Nat) :
    Inv (s.decideRequest m k n) := by
  unfold decideRequest
  split
  · exact send_inv h _ _
  · exact send_inv h _ _
  · rename_i hr
    split
    · exact grant_inv h m _ n (requestFail_eq_none.1 hr).2.2.1
    · exact send_inv h _ _

@[simp] theorem usePermit_inv {s : State} (h : Inv s) (m : MachineId) : Inv (s.usePermit m) := by
  unfold usePermit
  try dsimp only
  (repeat' split) <;> simp (maxDischargeDepth := 40) [h]

@[simp] theorem setCar_inv {s : State} (h : Inv s) (c : CarState) : Inv (s.setCar c) := by
  unfold setCar
  try dsimp only
  (repeat' split) <;> simp (maxDischargeDepth := 40) [h]

@[simp] theorem issueMove_inv {s : State} (h : Inv s) (dest : MoveDest) : Inv (s.issueMove dest) := by
  unfold issueMove
  try dsimp only
  (repeat' split) <;> simp (maxDischargeDepth := 40) [h]

@[simp] theorem testMove_inv {s : State} (h : Inv s) : Inv (s.testMove) := by
  unfold testMove
  try dsimp only
  (repeat' split) <;> simp (maxDischargeDepth := 40) [h]

@[simp] theorem requestMove_inv {s : State} (h : Inv s) : Inv (s.requestMove) := by
  unfold requestMove
  try dsimp only
  (repeat' split) <;> simp (maxDischargeDepth := 40) [h]

@[simp] theorem sendCar_inv {s : State} (h : Inv s) (c : CarState) : Inv (s.sendCar c) := by
  unfold sendCar
  try dsimp only
  (repeat' split) <;> simp (maxDischargeDepth := 40) [h]

@[simp] theorem settleCar_inv {s : State} (h : Inv s) (c : CarState) : Inv (s.settleCar c) := by
  unfold settleCar
  try dsimp only
  (repeat' split) <;> simp (maxDischargeDepth := 40) [h]

@[simp] theorem withdrawMove_inv {s : State} (h : Inv s) : Inv (s.withdrawMove) := by
  unfold withdrawMove
  try dsimp only
  (repeat' split) <;> simp (maxDischargeDepth := 40) [h]

@[simp] theorem requestDump_inv {s : State} (h : Inv s) : Inv (s.requestDump) := by
  unfold requestDump
  try dsimp only
  (repeat' split) <;> simp (maxDischargeDepth := 40) [h]

@[simp] theorem testDump_inv {s : State} (h : Inv s) : Inv (s.testDump) := by
  unfold testDump
  try dsimp only
  (repeat' split) <;> simp (maxDischargeDepth := 40) [h]

@[simp] theorem sendOnward_inv {s : State} (h : Inv s) : Inv (s.sendOnward) := by
  unfold sendOnward
  try dsimp only
  (repeat' split) <;> simp (maxDischargeDepth := 40) [h]

@[simp] theorem reconsiderCar_inv {s : State} (h : Inv s) (b : Nat) : Inv (s.reconsiderCar b) := by
  unfold reconsiderCar
  try dsimp only
  (repeat' split) <;> simp (maxDischargeDepth := 40) [h]

@[simp] theorem reconsiderNext_inv {s : State} (h : Inv s) : Inv (s.reconsiderNext) := by
  unfold reconsiderNext
  try dsimp only
  (repeat' split) <;> simp (maxDischargeDepth := 40) [h]

@[simp] theorem leaveUnknown_inv {s : State} (h : Inv s) : Inv (s.leaveUnknown) := by
  unfold leaveUnknown
  try dsimp only
  (repeat' split) <;> simp (maxDischargeDepth := 40) [h]

@[simp] theorem chooseBay_inv {s : State} (h : Inv s) : Inv (s.chooseBay) := by
  unfold chooseBay
  split
  · exact h
  · split
    · rename_i _ l hl _ b rest hfree
      refine sendCar_inv ?_ _
      refine ⟨h.tb, h.ot, h.pln, h.ilk, h.dru, h.ofu, ?_, h.trm, h.lnk, h.cfg, h.tables⟩
      obtain ⟨q1, q2, q3, q4, q5⟩ := h.qnu
      rw [hfree] at q3 q4
      obtain ⟨hb, hr⟩ := List.nodup_cons.1 q3
      refine ⟨q1, by simpa [setBay] using q2, hr, fun c => ?_, fun l' c hl' hc => ?_⟩
      · have := q4 c
        simp only [List.mem_cons, QuenchUnit.isFree] at this
        simp only [QuenchUnit.isFree, setBay_bays, nth1_upd1]
        split
        · rename_i e
          subst e
          have h1 : ¬(∃ t, (Option.map (fun _ => BayRec.assigned l.oven) (nth1 s.qnu.bays b)) = some (.free t)) := by
            cases nth1 s.qnu.bays b <;> simp
          exact ⟨fun hm => absurd hm hb, fun ⟨t, ht⟩ => absurd ⟨t, ht⟩ h1⟩
        · rename_i e
          rw [← this]
          exact ⟨.inr, fun hm => hm.resolve_left fun e' => e e'.symm⟩
      · obtain rfl := Option.some.inj hl'
        obtain rfl := Option.some.inj hc
        obtain ⟨t, ht⟩ := (q4 b).1 (by simp)
        exact ⟨l.oven, by rw [setBay_bays, nth1_upd1, if_pos rfl]; simp [ht]⟩
    · split <;> simp (maxDischargeDepth := 40) [h]

@[simp] theorem startDischarge_inv {s : State} (h : Inv s) : Inv (s.startDischarge) := by
  unfold startDischarge
  (repeat' split) <;> try exact h
  rename_i hb
  exact setBay_inv h _ hb (by simp) (by simp)

@[simp] theorem interruptDischarge_inv {s : State} (h : Inv s) (b : Nat) : Inv (s.interruptDischarge b) := by
  unfold interruptDischarge
  split
  · rename_i hb
    exact raise_inv (setBay_inv h _ hb (by simp) (by simp)) _
  · exact h

@[simp] theorem conveyorLost_inv {s : State} (h : Inv s) : Inv (s.conveyorLost) := by
  unfold conveyorLost
  try dsimp only
  (repeat' split) <;> simp (maxDischargeDepth := 40) [h]

theorem insertFree_perm (since : Nat → Nat) (b t : Nat) (l : List Nat) : (insertFree since b t l).Perm (b :: l) := by
  fun_induction insertFree since b t l with
  | case1 => exact .refl _
  | case2 a l hlt ih => exact (ih.cons a).trans (.swap _ _ _)
  | case3 a l hlt => exact .refl _

theorem gateEnd_inv {s : State} (h : Inv s) {b o dump c g : Nat} (hb : s.bay b = some (.discharging o dump c g)) :
    Inv (s.gateEnd b) := by
  have hb' : nth1 s.qnu.bays b = some (.discharging o dump c g) := hb
  have key : ∀ since, Inv { s.setBay b (.free s.now) with
      qnu.discharge := s.qnu.discharge.filter (· != b)
      qnu.free := insertFree since b s.now s.qnu.free } := by
    intro since
    obtain ⟨q1, q2, q3, q4, q5⟩ := h.qnu
    have hp := insertFree_perm since b s.now s.qnu.free
    have hnb : b ∉ s.qnu.free := fun hm => by
      obtain ⟨t, ht⟩ := (q4 b).1 hm
      rw [hb'] at ht
      simp at ht
    refine ⟨h.tb, h.ot, h.pln, h.ilk, h.dru, h.ofu,
      ⟨q1, by simpa [setBay] using q2, hp.nodup_iff.2 (List.nodup_cons.2 ⟨hnb, q3⟩), fun x => ?_, fun l x hl hx => ?_⟩,
      h.trm, h.lnk, h.cfg, h.tables⟩
    · show x ∈ insertFree since b s.now s.qnu.free ↔ _
      rw [hp.mem_iff, List.mem_cons, q4 x]
      simp only [QuenchUnit.isFree, setBay_bays, nth1_upd1]
      split
      · rename_i e
        subst e
        simp [hb']
      · rename_i e
        exact ⟨fun hm => hm.resolve_left fun e' => e e'.symm, .inr⟩
    · obtain ⟨o', ho'⟩ := q5 l x hl hx
      have hne : b ≠ x := by
        rintro rfl
        rw [hb'] at ho'
        simp at ho'
      exact ⟨o', by rw [setBay_bays, nth1_upd1, if_neg hne]; exact ho'⟩
  unfold gateEnd
  dsimp only
  refine startDischarge_inv ?_
  split
  · exact chooseBay_inv (key _)
  · exact key _

@[simp] theorem ramStartCar_inv {s : State} (h : Inv s) (n : Nat) : Inv (s.ramStartCar n) := by
  unfold ramStartCar
  try dsimp only
  (repeat' split) <;> simp (maxDischargeDepth := 40) [h]

@[simp] theorem stickerCar_inv {s : State} (h : Inv s) (n : Nat) : Inv (s.stickerCar n) := by
  unfold stickerCar
  try dsimp only
  (repeat' split) <;> simp (maxDischargeDepth := 40) [h]

@[simp] theorem ramEndCar_inv {s : State} (h : Inv s) (n t : Nat) : Inv (s.ramEndCar n t) := by
  unfold ramEndCar
  split
  · obtain ⟨q1, q2, q3, q4, q5⟩ := h.qnu
    refine sendCar_inv ?_ _
    refine ⟨h.tb, h.ot, h.pln, h.ilk, h.dru, h.ofu, ⟨q1, q2, q3, q4, fun l b hl hb => ?_⟩, h.trm, h.lnk, h.cfg,
      h.tables⟩
    obtain rfl := Option.some.inj hl
    simp at hb
  · exact raise_inv h _

@[simp] theorem arrive_inv {s : State} (h : Inv s) : Inv (s.arrive) := by
  unfold arrive
  split
  · exact settleCar_inv h _
  · refine settleCar_inv (setPhase_inv (updLoad_inv h (f := fun l => { l with quenchStart := some s.now, hot := none })
      fun _ => rfl) _) _
  · exact requestDump_inv (settleCar_inv h _)
  · exact h

@[simp] theorem checkLoadedPlace_inv {s : State} (h : Inv s) (spot : Option ReportedSpot) :
    Inv (s.checkLoadedPlace spot) := by
  unfold checkLoadedPlace
  try dsimp only
  (repeat' split) <;> simp (maxDischargeDepth := 40) [h]

@[simp] theorem checkEmptyPlace_inv {s : State} (h : Inv s) (spot : Option ReportedSpot) :
    Inv (s.checkEmptyPlace spot) := by
  unfold checkEmptyPlace
  try dsimp only
  (repeat' split) <;> simp (maxDischargeDepth := 40) [h]

@[simp] theorem followLocal_inv {s : State} (h : Inv s) (stopped : Option CarSpot) :
    Inv (s.followLocal stopped) := by
  unfold followLocal
  try dsimp only
  (repeat' split) <;> simp (maxDischargeDepth := 40) [h]

@[simp] theorem qcStatus_inv {s : State} (h : Inv s) (oldMode : Option Mode) (stopped : Option CarSpot)
    (spot : ReportedSpot) : Inv (s.qcStatus oldMode stopped spot) := by
  unfold qcStatus
  try dsimp only
  (repeat' split) <;> simp (maxDischargeDepth := 40) [h]

@[simp] theorem qcOffline_inv {s : State} (h : Inv s) : Inv (s.qcOffline) := by
  unfold qcOffline
  try dsimp only
  (repeat' split) <;> simp (maxDischargeDepth := 40) [h]

@[simp] theorem withdrawNotice_inv {s : State} (h : Inv s) (e : ValveEntry) : Inv (s.withdrawNotice e) := by
  unfold withdrawNotice
  try dsimp only
  (repeat' split) <;> simp (maxDischargeDepth := 40) [h]

@[simp] theorem clearValveWork_inv {s : State} (h : Inv s) (o : Nat) : Inv (s.clearValveWork o) := by
  unfold clearValveWork
  dsimp only
  split
  · refine withdrawNotice_inv ?_ _
    exact ⟨h.tb, h.ot, h.pln, h.ilk, h.dru, ⟨h.ofu.1, h.ofu.2.1, h.ofu.2.2.1,
      (valves_ok h).filter _⟩, h.qnu, h.trm, h.lnk, h.cfg, h.tables⟩
  · exact ⟨h.tb, h.ot, h.pln, h.ilk, h.dru, h.ofu, h.qnu, h.trm, h.lnk, h.cfg, h.tables⟩

@[simp] theorem replaceAction_inv {s : State} (h : Inv s) (e : ValveEntry) (a : ValveAction) :
    Inv (s.replaceAction e a) := by
  have hm : (s.ofu.queue.map fun x => if x.oven = e.oven then (⟨x.oven, a, s.now, false, none⟩ : ValveEntry) else x).map
      ValveEntry.oven = s.ofu.queue.map ValveEntry.oven := by
    rw [List.map_map]
    refine List.map_congr_left fun x _ => ?_
    simp only [Function.comp]
    split <;> rfl
  refine withdrawNotice_inv (setValves_inv h ⟨by simpa using (valves_ok h).1, ?_⟩) _
  rw [hm]
  exact (valves_ok h).2

@[simp] theorem holdBack_inv {s : State} (h : Inv s) (o : Nat) (a : ValveAction) : Inv (s.holdBack o a) := by
  have h1 : Inv (if s.ofu.heldOffers.isEmpty then s.raise (.valveQueueFull o a) else s) := by
    split <;> simp [h]
  exact ⟨h1.tb, h1.ot, h1.pln, h1.ilk, h1.dru, h1.ofu, h1.qnu, h1.trm, h1.lnk, h1.cfg, h1.tables⟩

@[simp] theorem decideOffer_inv {s : State} (h : Inv s) (o : Nat) (a : ValveAction) : Inv (s.decideOffer o a) := by
  unfold decideOffer
  split
  · exact clearValveWork_inv h _
  · split
    · split
      · exact h
      · exact replaceAction_inv h _ _
    · rename_i hno
      split
      · exact ⟨h.tb, h.ot, h.pln, h.ilk, h.dru, h.ofu, h.qnu, h.trm, h.lnk, h.cfg, h.tables⟩
      · split
        · have hn : ∀ x ∈ s.ofu.queue, x.oven ≠ o := fun x hx e => by
            simpa [e] using List.find?_eq_none.1 hno x hx
          refine setValves_inv h ⟨by simp; omega, ?_⟩
          rw [List.map_append, List.nodup_append]
          refine ⟨(valves_ok h).2, by simp, fun a ha b hb => ?_⟩
          obtain ⟨x, hx, rfl⟩ := List.mem_map.1 ha
          simp only [List.map_cons, List.map_nil, List.mem_singleton] at hb
          rw [hb]
          exact hn x hx
        · exact holdBack_inv h _ _

@[simp] theorem offerValve_inv {s : State} (h : Inv s) (o : Nat) (a : ValveAction) : Inv (s.offerValve o a) := by
  unfold offerValve
  try dsimp only
  (repeat' split) <;> simp (maxDischargeDepth := 40) [h]

@[simp] theorem retryHeld_inv {s : State} (h : Inv s) (l : List HeldOffer) : Inv (retryHeld l s) := by
  induction l generalizing s with
  | nil => exact h
  | cons a l ih =>
    rw [retryHeld]
    split
    · exact h
    · refine ih (offerValve_inv ?_ _ _)
      exact ⟨h.tb, h.ot, h.pln, h.ilk, h.dru, h.ofu, h.qnu, h.trm, h.lnk, h.cfg, h.tables⟩

theorem valveTimeout_inv {s : State} (h : Inv s) {e : ValveEntry} (he : e ∈ s.ofu.queue) : Inv (s.valveTimeout e) := by
  unfold valveTimeout
  dsimp only
  split
  · exact dispatchValve_inv (raise_inv (setValves_inv h ((valves_ok h).filter _)) _)
  · exact dispatchValve_inv (setValves_inv h ((valves_ok h).atHead he rfl))

@[simp] theorem valveOffline_inv {s : State} (h : Inv s) : Inv (s.valveOffline) := by
  unfold valveOffline
  split
  · rename_i e he
    exact setValves_inv h ((valves_ok h).atHead (List.mem_of_find?_eq_some he) rfl)
  · exact h

@[simp] theorem ccDone_inv {s : State} (h : Inv s) (o : Nat) (a : ValveAction) (r : ValveResult) :
    Inv (s.ccDone o a r) := by
  unfold ccDone
  split
  · exact raise_inv h _
  · rename_i e he
    split
    · exact valveTimeout_inv h (List.mem_of_find?_eq_some he)
    · have h1 := setValves_inv h (q := s.ofu.queue.filter fun x => x.oven != o)
        ((valves_ok h).filter _)
      dsimp only
      split <;> simp (maxDischargeDepth := 40) [h1]

@[simp] theorem setIsolate_inv {s : State} (h : Inv s) (o expiry : Nat) : Inv (s.setIsolate o expiry) := by
  unfold setIsolate
  split
  · refine offerValve_inv ?_ _ _
    exact ⟨h.tb, h.ot, h.pln, h.ilk, h.dru, h.ofu, h.qnu, h.trm, h.lnk, h.cfg, h.tables⟩
  · exact ⟨h.tb, h.ot, h.pln, h.ilk, h.dru, h.ofu, h.qnu, h.trm, h.lnk, h.cfg, h.tables⟩

@[simp] theorem normalCheck_inv {s : State} (h : Inv s) (o : Nat) : Inv (s.normalCheck o) := by
  unfold normalCheck
  try dsimp only
  (repeat' split) <;> simp (maxDischargeDepth := 40) [h]

@[simp] theorem nextForValves_inv {s : State} (h : Inv s) (old new : Option (Nat × Nat)) :
    Inv (s.nextForValves old new) := by
  have h1 : ∀ o, Inv (s.normalCheck o) := fun o => normalCheck_inv h o
  unfold nextForValves
  dsimp only
  split
  · split
    · exact setIsolate_inv h _ _
    · exact h
  · rcases old with _ | ⟨o, t⟩ <;> dsimp only <;> split
    · exact setIsolate_inv h _ _
    · exact ⟨h.tb, h.ot, h.pln, h.ilk, h.dru, h.ofu, h.qnu, h.trm, h.lnk, h.cfg, h.tables⟩
    · exact setIsolate_inv (h1 o) _ _
    · have h := h1 o
      exact ⟨h.tb, h.ot, h.pln, h.ilk, h.dru, h.ofu, h.qnu, h.trm, h.lnk, h.cfg, h.tables⟩

end State

end Sys2Proof.Machine
end

