-- ==== Sys2Proof/Laws/InvC.lean ====
section
/-! SUPPORT. `Inv` under the planner, the oven table and the door unit. -/

set_option linter.all false

namespace Sys2Proof.Machine

open Sys2Proof

namespace State

@[simp] theorem updCursor_inv {s : State} (h : Inv s) (f : Slot → Slot) : Inv (s.updCursor f) := by
  unfold updCursor
  split
  · refine updPlan_inv h fun ⟨a, b, c, d, e, f, g, k⟩ => ⟨a, b, c, d, e, ?_, ?_, k⟩
    · cases hr : s.pln.round with
      | none => simpa [RoundOk, hr] using f
      | some r => simpa [RoundOk, hr] using f
    · intro hi
      simp [g hi]
  · exact h

@[simp] theorem idleServing_inv {s : State} (h : Inv s) : Inv (s.idleServing) := by
  exact updPlan_inv h fun hp => hp

theorem build_inv {s : State} (h : Inv s) {p : SeriesParams} (hp : seriesOk p = true) (start : Nat) {number : Nat}
    (hn : number ≤ 65535) (stagedUsed : Bool) {st : PlanState} (hs : st ≠ .idle) :
    Inv (s.build p start number stagedUsed st) := by
  unfold build
  dsimp only
  split
  · refine idleServing_inv (raise_inv (updPlan_inv h fun ⟨a, b, c, d, e, f, g, k⟩ => ?_) _)
    exact ⟨a, b, c, hp, e, rfl, fun _ => rfl, k⟩
  · rename_i hne
    refine raise_inv (updPlan_inv h fun ⟨a, b, c, d, e, f, g, k⟩ => ?_) _
    refine ⟨a, b, c, hp, e, ⟨hn, fun i hi => ?_⟩, fun hi => absurd hi hs, k⟩
    obtain rfl := Option.some.inj hi
    simpa [List.length_pos_iff, List.isEmpty_iff] using hne

@[simp] theorem buildNext_inv {s : State} (h : Inv s) : Inv (s.buildNext) := by
  unfold buildNext
  split
  · exact h
  · rename_i r hr
    have hi : s.pln.state ≠ .idle := fun hi => by simp [h.pln.2.2.2.2.2.2.1 hi] at hr
    have hn : nextNumber r.number ≤ 65535 := by
      have := h.pln.2.2.2.2.2.1
      rw [hr] at this
      have := this.1
      unfold nextNumber
      split <;> omega
    have h1 : Inv (s.updPlan fun q => { q with mark := false, stagedStart := none }) := updPlan_inv h fun hp => hp
    dsimp only
    split
    · exact build_inv h1 h.pln.2.2.2.2.1 _ hn _ hi
    · exact build_inv h h.pln.2.2.2.1 _ hn _ hi

@[simp] theorem boundary_inv {s : State} (h : Inv s) : Inv (s.boundary) := by
  unfold boundary
  split
  · exact buildNext_inv h
  · refine idleServing_inv (raise_inv (updPlan_inv h fun ⟨a, b, c, d, e, f, g, k⟩ => ?_) _)
    refine ⟨a, b, c, d, e, ?_, g, k⟩
    cases hr : s.pln.round with
    | none => simp
    | some r =>
      rw [hr] at f
      exact ⟨f.1, by simp⟩

@[simp] theorem advance_inv {s : State} (h : Inv s) : Inv (s.advance) := by
  have h1 : Inv (s.updPlan fun q => { q with lag := q.lag - q.active.c, holdOver := none, dueTimer := none }) :=
    updPlan_inv h fun ⟨a, b⟩ => ⟨by simp; omega, b⟩
  unfold advance
  dsimp only
  split
  · rename_i r i hr hi
    split
    · rename_i hlt
      refine updPlan_inv h1 fun ⟨a, b, c, d, e, f, g, k⟩ => ⟨a, b, c, d, e, ?_, g, k⟩
      rw [hr] at f ⊢
      refine ⟨f.1, fun j hj => ?_⟩
      obtain rfl := Option.some.inj hj
      exact hlt
    · exact boundary_inv h1
  · exact h1

@[simp] theorem passSlot_inv {s : State} (h : Inv s) (reason : PassReason) : Inv (s.passSlot reason) := by
  unfold passSlot
  try dsimp only
  (repeat' split) <;> simp +contextual (maxDischargeDepth := 40) [h, OvenRec.Ok, PushRec.Ok, Inspection.Ok, Planner.Ok]

@[simp] theorem checkOnce_inv {s : State} (h : Inv s) : Inv (s.checkOnce).1 := by
  have h1 : ∀ (a b : Option Nat), Inv (s.updPlan fun q => { q with dueTimer := a, holdOver := b }) :=
    fun a b => updPlan_inv h fun hp => hp
  unfold checkOnce
  split
  · exact h
  · split
    · dsimp only
      split
      · simp [h, Planner.Ok]
      · split
        · exact h1 _ _
        · split
          · exact passSlot_inv (h1 _ _) _
          · split
            · split
              · simp +contextual [h1, Planner.Ok]
              · exact h1 _ _
            · split
              · exact h1 _ _
              · exact passSlot_inv (h1 _ _) _
    · exact h

@[simp] theorem checkLoop_inv {s : State} (h : Inv s) (k : Nat) : Inv (checkLoop k s) := by
  induction k generalizing s with
  | zero =>
    rw [checkLoop]
    split
    · exact updPlan_inv h fun hp => hp
    · exact h
  | succ k ih =>
    have h1 := checkOnce_inv h
    rw [checkLoop]
    split <;> rename_i e <;> rw [e] at h1
    · exact ih h1
    · exact h1

@[simp] theorem makeupCheck_inv {s : State} (h : Inv s) : Inv (s.makeupCheck) := by
  unfold makeupCheck
  split
  · split
    · exact updPlan_inv h fun hp => hp
    · exact h
  · exact h

@[simp] theorem planSettle_inv {s : State} (h : Inv s) : Inv (s.planSettle) := by
  unfold planSettle
  try dsimp only
  (repeat' split) <;> simp +contextual (maxDischargeDepth := 40) [h, OvenRec.Ok, PushRec.Ok, Inspection.Ok, Planner.Ok]

@[simp] theorem planReport_inv {s : State} (h : Inv s) : Inv (s.planReport) := by
  have h1 : ∀ x, Inv (s.retest.updPlan fun q => { q with reported := x }) := fun x =>
    updPlan_inv (retest_inv h) fun hp => hp
  unfold planReport
  dsimp only
  split
  · exact retest_inv h
  · split
    · split
      · exact nextForValves_inv (h1 _) _ _
      · exact reconsiderCar_inv (nextForValves_inv (h1 _) _ _) _
    · exact nextForValves_inv (h1 _) _ _

@[simp] theorem planUpdate_inv {s : State} (h : Inv s) : Inv (s.planUpdate) := by
  unfold planUpdate
  try dsimp only
  (repeat' split) <;> simp +contextual (maxDischargeDepth := 40) [h, OvenRec.Ok, PushRec.Ok, Inspection.Ok, Planner.Ok]

@[simp] theorem releaseServing_inv {s : State} (h : Inv s) : Inv (s.releaseServing) := by
  unfold releaseServing
  dsimp only
  split
  · exact updPlan_inv (updCursor_inv h _) fun hp => hp
  · exact updPlan_inv h fun hp => hp

@[simp] theorem planOvenChanged_inv {s : State} (h : Inv s) (n : Nat) : Inv (s.planOvenChanged n) := by
  unfold planOvenChanged
  try dsimp only
  (repeat' split) <;> simp +contextual (maxDischargeDepth := 40) [h, OvenRec.Ok, PushRec.Ok, Inspection.Ok, Planner.Ok]

theorem writeMode_inv {s : State} (h : Inv s) (n : Nat) {mode : SlotMode} {fixedPush : Option Nat}
    (hm : mode = .fixed ↔ fixedPush.isSome) : Inv (s.writeMode n mode fixedPush) := by
  have h1 : Inv (s.updOven n fun o => { o with mode := mode, fixedPush := fixedPush }) :=
    updOven_inv h n (fun o ho => ⟨ho.1, ho.2.1, ho.2.2.1, hm, ho.2.2.2.2⟩) (fun _ => rfl) fun _ => id
  have h2 : Inv ((s.updOven n fun o => { o with mode := mode, fixedPush := fixedPush }).releaseServing.updPlan fun q =>
      { q with holdOver := none }) := updPlan_inv (releaseServing_inv h1) fun hp => hp
  unfold writeMode
  dsimp only
  split
  · split
    · exact planUpdate_inv h1
    · split
      · exact planUpdate_inv (passSlot_inv (releaseServing_inv h1) _)
      · split
        · exact planUpdate_inv h2
        · exact planReport_inv h1
    · exact planReport_inv h1
  · exact h1

@[simp] theorem planHalt_inv {s : State} (h : Inv s) : Inv (s.planHalt) := by
  have h1 : ∀ hs : s.pln.state = .running, Inv (s.updPlan fun q => { q with state := .halted, dueTimer := none }) :=
    fun _ => updPlan_inv h fun ⟨a, b, c, d, e, f, _, k⟩ => ⟨a, b, c, d, e, f, by simp, k⟩
  unfold planHalt
  split
  · rename_i hs
    dsimp only
    split
    · split
      · exact planReport_inv (h1 hs)
      · exact planReport_inv (releaseServing_inv (h1 hs))
    · exact planReport_inv (h1 hs)
  · exact h

@[simp] theorem planPushBegins_inv {s : State} (h : Inv s) (n : Nat) : Inv (s.planPushBegins n) := by
  unfold planPushBegins
  try dsimp only
  (repeat' split) <;> simp +contextual (maxDischargeDepth := 40) [h, OvenRec.Ok, PushRec.Ok, Inspection.Ok, Planner.Ok]

@[simp] theorem planRamStart_inv {s : State} (h : Inv s) (n : Nat) : Inv (s.planRamStart n) := by
  unfold planRamStart
  split
  · split
    · split
      · refine planReport_inv (updPlan_inv (updCursor_inv h _) fun ⟨a, b⟩ => ⟨Nat.min_le_left _ _, b⟩)
      · exact h
    · exact h
  · exact h

@[simp] theorem dropMakeup_inv {s : State} (h : Inv s) (n : Nat) : Inv (s.dropMakeup n) := by
  refine updPlan_inv h fun ⟨a, b, c, d⟩ => ⟨a, Nat.le_trans (List.length_filter_le _ _) b, ?_, d⟩
  exact c.sublist (List.filter_sublist.map _)

@[simp] theorem advanceIfRunning_inv {s : State} (h : Inv s) : Inv (s.advanceIfRunning) := by
  unfold advanceIfRunning
  try dsimp only
  (repeat' split) <;> simp +contextual (maxDischargeDepth := 40) [h, OvenRec.Ok, PushRec.Ok, Inspection.Ok, Planner.Ok]

@[simp] theorem planPushComplete_inv {s : State} (h : Inv s) (n : Nat) : Inv (s.planPushComplete n) := by
  have h1 : ∀ f : Slot → Slot, Inv ((s.updCursor f).updPlan fun q => { q with serving := none }) := fun f =>
    updPlan_inv (updCursor_inv h f) fun hp => hp
  have h2 : Inv (s.updPlan fun q => { q with serving := none }) := updPlan_inv h fun hp => hp
  unfold planPushComplete
  (repeat' split) <;> simp (maxDischargeDepth := 40) [h, h1, h2]

@[simp] theorem planAbandon_inv {s : State} (h : Inv s) (n : Nat) : Inv (s.planAbandon n) := by
  have h1 : ∀ f : Slot → Slot, Inv ((s.updCursor f).updPlan fun q => { q with serving := none }) := fun f =>
    updPlan_inv (updCursor_inv h f) fun hp => hp
  have h2 : Inv (s.updPlan fun q => { q with serving := none }) := updPlan_inv h fun hp => hp
  unfold planAbandon
  (repeat' split) <;> simp (maxDischargeDepth := 40) [h, h1, h2]

@[simp] theorem planReturn_inv {s : State} (h : Inv s) : Inv (s.planReturn) := by
  unfold planReturn
  try dsimp only
  (repeat' split) <;> simp +contextual (maxDischargeDepth := 40) [h, OvenRec.Ok, PushRec.Ok, Inspection.Ok, Planner.Ok]

theorem planResumeOp_inv {s : State} (h : Inv s) : Inv s.planResumeOp := by
  have h1 : Inv (s.updPlan fun q => { q with state := .running }) :=
    updPlan_inv h fun ⟨a, b, c, d, e, f, _, k⟩ => ⟨a, b, c, d, e, f, by simp, k⟩
  unfold planResumeOp
  dsimp only
  split
  · exact planUpdate_inv (advance_inv h1)
  · exact planUpdate_inv (advance_inv h1)
  · exact planUpdate_inv h1

@[simp] theorem rangeEnd_inv {s : State} (h : Inv s) (r : RangeOp) (aborted : Bool) :
    Inv (s.rangeEnd r aborted) := by
  refine raise_inv (updPlan_inv h ?_) _
  exact fun ⟨a, b, c, d, e, f, g, k⟩ => ⟨a, b, c, d, e, f, g, by simp [RangeOk]⟩

theorem rangeStep_inv {s : State} (h : Inv s) {r : RangeOp} (hr : r.mode = .fixed ↔ r.fixedPush.isSome) :
    Inv (s.rangeStep r) := by
  have h2 : ∀ {t : State}, Inv t → ∀ x : RangeOp, (x.mode = .fixed ↔ x.fixedPush.isSome) →
      Inv (t.updPlan fun q => { q with range := some x }) := fun ht x hx =>
    updPlan_inv ht fun ⟨a, b, c, d, e, f, g, k⟩ => ⟨a, b, c, d, e, f, g, fun y hy => by
      obtain rfl := Option.some.inj hy
      exact hx⟩
  have h1 : Inv (if s.ovenIs r.next .pushing then s else s.writeMode r.next r.mode r.fixedPush) := by
    split
    · exact h
    · exact writeMode_inv h _ hr
  unfold rangeStep
  dsimp only
  split
  · exact rangeEnd_inv h _ _
  · split
    · exact rangeEnd_inv h1 _ _
    · exact h2 h1 _ hr

@[simp] theorem planRestart_inv {s : State} (h : Inv s) : Inv (s.planRestart) := by
  have h1 : ∀ {t : State}, Inv t → Inv (t.updPlan fun q => { q with
      state := .idle, round := none, cursor := none, dueTimer := none, holdOver := none, lag := 0, serving := none,
      makeup := [], reported := none }) := fun ht =>
    updPlan_inv ht fun ⟨a, b, c, d, e, f, g, k⟩ => ⟨by simp, by simp, by simp, d, e, rfl, fun _ => rfl, k⟩
  unfold planRestart
  dsimp only
  split
  · exact h1 (rangeEnd_inv h _ _)
  · exact h1 h

@[simp] theorem ovenChanged_inv {s : State} (h : Inv s) (n : Nat) : Inv (s.ovenChanged n) := by
  unfold ovenChanged
  try dsimp only
  (repeat' split) <;> simp +contextual (maxDischargeDepth := 40) [h, OvenRec.Ok, PushRec.Ok, Inspection.Ok, Planner.Ok]

@[simp] theorem evalReadyRaw_inv {s : State} (h : Inv s) (n : Nat) : Inv (s.evalReadyRaw n) := by
  refine updOven_inv h n (fun o ho => ⟨ho.1, ho.2.1, ho.2.2.1, ho.2.2.2.1, ?_⟩) (fun _ => rfl) fun o => ?_
  · have := ho.2.2.2.2
    simp only [readyState]
    split <;> try split
    all_goals simp_all
  · simp only [readyState]
    split <;> try split
    all_goals simp_all

@[simp] theorem evalReady_inv {s : State} (h : Inv s) (n : Nat) : Inv (s.evalReady n) := by
  unfold evalReady
  try dsimp only
  (repeat' split) <;> simp +contextual (maxDischargeDepth := 40) [h, OvenRec.Ok, PushRec.Ok, Inspection.Ok, Planner.Ok]

@[simp] theorem overdueCheck_inv {s : State} (h : Inv s) (n : Nat) : Inv (s.overdueCheck n) := by
  unfold overdueCheck
  try dsimp only
  (repeat' split) <;> simp +contextual (maxDischargeDepth := 40) [h, OvenRec.Ok, PushRec.Ok, Inspection.Ok, Planner.Ok]

@[simp] theorem sweepOvens_inv {s : State} (h : Inv s) (l : List Nat) : Inv (sweepOvens l s) := by
  induction l generalizing s with
  | nil => exact h
  | cons a l ih => exact ih (overdueCheck_inv (evalReady_inv h a) a)

@[simp] theorem readySweep_inv {s : State} (h : Inv s) : Inv (s.readySweep) := by
  unfold readySweep
  try dsimp only
  (repeat' split) <;> simp +contextual (maxDischargeDepth := 40) [h, OvenRec.Ok, PushRec.Ok, Inspection.Ok, Planner.Ok]

@[simp] theorem dropCharge_inv {s : State} (h : Inv s) (n : Nat) : Inv (s.dropCharge n) := by
  exact ⟨h.tb, h.ot, h.pln, h.ilk, h.dru, h.ofu, h.qnu, h.trm, h.lnk, h.cfg, h.tables⟩

@[simp] theorem beginCoking_inv {s : State} (h : Inv s) (n : Nat) : Inv (s.beginCoking n) := by
  unfold beginCoking
  try dsimp only
  (repeat' split) <;> simp +contextual (maxDischargeDepth := 40) [h, OvenRec.Ok, PushRec.Ok, Inspection.Ok, Planner.Ok]

@[simp] theorem assumeEnd_inv {s : State} (h : Inv s) (m : Nat) : Inv (s.assumeEnd m) := by
  unfold assumeEnd
  try dsimp only
  (repeat' split) <;> simp +contextual (maxDischargeDepth := 40) [h, OvenRec.Ok, PushRec.Ok, Inspection.Ok, Planner.Ok]

/-- An oven found CHARGING elsewhere in a section is another, of that section, and CHARGING. -/
theorem chargingElsewhere_some {s : State} {n k m : Nat} (h : s.chargingElsewhere n k = some m) :
    m ≠ n ∧ ∃ a, nth1 s.ot m = some a ∧ a.sec = k ∧ a.state = .charging := by
  have h1 := List.find?_some h
  simp only [Bool.and_eq_true, bne_iff_ne, beq_iff_eq, ovenIs, ovenState] at h1
  obtain ⟨⟨h2, h3⟩, h4⟩ := h1
  obtain ⟨a, ha, hs⟩ := Option.map_eq_some_iff.1 h4
  exact ⟨h2, a, ha, by simpa [secOf, oven, show nth1 s.ot m = some a from ha] using h3, hs⟩

/-- With none found no other oven of the section is CHARGING. -/
theorem chargingElsewhere_none {s : State} {n k m : Nat} (h : s.chargingElsewhere n k = none) (hm : m ≠ n) {a : OvenRec}
    (ha : nth1 s.ot m = some a) (hk : a.sec = k) : a.state ≠ .charging := by
  intro hs
  have hmem : m ∈ numbers 1 s.nOv := by
    rw [mem_numbers]
    cases m with
    | zero => simp [nth1] at ha
    | succ j =>
      have := (List.getElem?_eq_some_iff.1 ha).1
      exact ⟨by omega, this⟩
  have := List.find?_eq_none.1 h m hmem
  simp [hm, secOf, oven, ha, hk, ovenIs, ovenState, hs] at this

/-- A section's oven begins to charge as the one CHARGING there, if any, ends (R11). -/
theorem charging_inv {s : State} (h : Inv s) {n : Nat} :
    (s.chargingElsewhere n (s.secOf n) = none →
      Inv (s.updOven n fun o => { o with state := .charging, chargeEnd := none })) ∧
    ∀ m, s.chargingElsewhere n (s.secOf n) = some m →
      Inv ((s.updOven n fun o => { o with state := .charging, chargeEnd := none }).beginCoking m) := by
  have hsec : ∀ a, nth1 s.ot n = some a → s.secOf n = a.sec := fun a ha => by simp [secOf, oven, ha]
  have hok : ∀ o : OvenRec, o.Ok → ({ o with state := .charging, chargeEnd := none } : OvenRec).Ok :=
    fun o ho => ⟨ho.1, ho.2.1, ho.2.2.1, ho.2.2.2.1, by simp⟩
  have rest : ∀ t : State, t.ot.length = s.ot.length → (∀ o ∈ t.ot, o.Ok) → OneCharging t.ot →
      t.tb = s.tb → t.pln = s.pln → t.ilk = s.ilk → t.dru = s.dru → t.ofu = s.ofu → t.qnu = s.qnu → t.trm = s.trm →
      t.lnk = s.lnk → t.cfg = s.cfg → Inv t := by
    intro t e1 e2 e3 a b c d e f g i j
    obtain ⟨t1, t2, t3, t4, t5, t6⟩ := h.tables
    refine ⟨a ▸ h.tb, ⟨e1 ▸ h.ot.1, e2, e3⟩, b ▸ h.pln, c ▸ h.ilk, d ▸ h.dru, e ▸ h.ofu, f ▸ h.qnu, g ▸ h.trm, i ▸ h.lnk,
      j ▸ h.cfg, ?_⟩
    refine ⟨by rw [d, e1]; exact t1, by rw [e, e1]; exact t2, by rw [inRun, j, a]; exact t3, by rw [d, e1]; exact t4,
      by rw [d, e1]; exact t5, fun hb => ?_⟩
    rw [j] at hb
    exact List.eq_nil_of_length_eq_zero (by rw [e1, t6 hb]; rfl)
  constructor
  · intro hn
    refine rest _ (by simp) (upd1_forall hok n _ h.ot.2.1) ?_ rfl rfl rfl rfl rfl rfl rfl rfl rfl
    have key : ∀ i a, nth1 (upd1 (fun o : OvenRec => { o with state := .charging, chargeEnd := none }) n s.ot) i = some a →
        ∃ a', nth1 s.ot i = some a' ∧ a.sec = a'.sec ∧ (i ≠ n → a = a') := by
      intro i a hi
      rw [nth1_upd1] at hi
      split at hi
      · obtain ⟨a', ha, rfl⟩ := Option.map_eq_some_iff.1 hi
        exact ⟨a', ha, rfl, fun e => absurd (by assumption) e.symm⟩
      · exact ⟨a, hi, rfl, fun _ => rfl⟩
    intro i j a b hi hj ha hb hab
    obtain ⟨a', hi', ea, ca⟩ := key i a hi
    obtain ⟨b', hj', eb, cb⟩ := key j b hj
    by_cases e1 : i = n <;> by_cases e2 : j = n
    · rw [e1, e2]
    · have := chargingElsewhere_none hn e2 hj' (by rw [hsec a' (e1 ▸ hi'), ← ea, ← eb, hab])
      exact absurd (cb e2 ▸ hb) this
    · have := chargingElsewhere_none hn e1 hi' (by rw [hsec b' (e2 ▸ hj'), ← ea, ← eb, hab])
      exact absurd (ca e1 ▸ ha) this
    · exact h.ot.2.2 i j a' b' hi' hj' (ca e1 ▸ ha) (cb e2 ▸ hb) (by rw [← ea, ← eb, hab])
  · intro m hm
    obtain ⟨hmn, x, hx, hxs, hxc⟩ := chargingElsewhere_some hm
    refine rest _ (by simp [beginCoking]) ?_ ?_ rfl rfl rfl rfl rfl rfl rfl rfl rfl
    · exact upd1_forall (fun o ho => ⟨ho.1, ho.2.1, ho.2.2.1, ho.2.2.2.1, by simp⟩) m _ (upd1_forall hok n _ h.ot.2.1)
    have key : ∀ i a, nth1 ((s.updOven n fun o => { o with state := .charging, chargeEnd := none }).beginCoking m).ot i
        = some a → a.state = .charging → i ≠ m ∧ ∃ a', nth1 s.ot i = some a' ∧ a.sec = a'.sec ∧ (i ≠ n → a = a') := by
      intro i a hi hc
      simp only [beginCoking, updOven_ot, nth1_upd1] at hi
      split at hi
      · obtain ⟨a', -, rfl⟩ := Option.map_eq_some_iff.1 hi
        simp at hc
      · rename_i e
        refine ⟨fun e' => e e'.symm, ?_⟩
        split at hi
        · obtain ⟨a', ha, rfl⟩ := Option.map_eq_some_iff.1 hi
          exact ⟨a', ha, rfl, fun e => absurd (by assumption) e.symm⟩
        · exact ⟨a, hi, rfl, fun _ => rfl⟩
    intro i j a b hi hj ha hb hab
    obtain ⟨im, a', hi', ea, ca⟩ := key i a hi ha
    obtain ⟨jm, b', hj', eb, cb⟩ := key j b hj hb
    by_cases e1 : i = n <;> by_cases e2 : j = n
    · rw [e1, e2]
    · refine absurd (h.ot.2.2 j m b' x hj' hx (cb e2 ▸ hb) hxc ?_) jm
      rw [hxs, hsec a' (e1 ▸ hi'), ← ea, ← eb, hab]
    · refine absurd (h.ot.2.2 i m a' x hi' hx (ca e1 ▸ ha) hxc ?_) im
      rw [hxs, hsec b' (e2 ▸ hj'), ← ea, ← eb, hab]
    · exact h.ot.2.2 i j a' b' hi' hj' (ca e1 ▸ ha) (cb e2 ▸ hb) (by rw [← ea, ← eb, hab])

@[simp] theorem chargeFact_inv {s : State} (h : Inv s) (n : Nat) : Inv (s.chargeFact n) := by
  unfold chargeFact
  split
  · dsimp only
    split
    · rename_i m hm
      have h1 := (charging_inv h (n := n)).2 m hm
      refine ovenChanged_inv ?_ n
      have h := ovenChanged_inv (offerValve_inv (dropCharge_inv (raise_inv h1 (.chargeAssumedEnd m (s.updOven n fun o =>
        { o with state := .charging, chargeEnd := none }).now)) m) m .normal) m
      exact ⟨h.tb, h.ot, h.pln, h.ilk, h.dru, h.ofu, h.qnu, h.trm, h.lnk, h.cfg, h.tables⟩
    · rename_i hm
      have h1 := (charging_inv h (n := n)).1 hm
      refine ovenChanged_inv ?_ n
      exact ⟨h1.tb, h1.ot, h1.pln, h1.ilk, h1.dru, h1.ofu, h1.qnu, h1.trm, h1.lnk, h1.cfg, h1.tables⟩
  · exact h

@[simp] theorem chargeEndFact_inv {s : State} (h : Inv s) (n : Nat) : Inv (s.chargeEndFact n) := by
  unfold chargeEndFact
  try dsimp only
  (repeat' split) <;> simp +contextual (maxDischargeDepth := 40) [h, OvenRec.Ok, PushRec.Ok, Inspection.Ok, Planner.Ok]

@[simp] theorem feedForward_inv {s : State} (h : Inv s) (k : Nat) (old new : ValveState) :
    Inv (s.feedForward k old new) := by
  refine updSec_inv h k fun r hr => ?_
  split
  · exact ⟨hr.1, hr.2.1, by simp only [addFf, clampInt]; omega, hr.2.2.2⟩
  · exact hr

@[simp] theorem dropReachedOffer_inv {s : State} (h : Inv s) (n : Nat) (v : ValveState) :
    Inv (s.dropReachedOffer n v) := by
  exact ⟨h.tb, h.ot, h.pln, h.ilk, h.dru, h.ofu, h.qnu, h.trm, h.lnk, h.cfg, h.tables⟩

@[simp] theorem valveReport_inv {s : State} (h : Inv s) (n : Nat) (v : ValveState) : Inv (s.valveReport n v) := by
  have h1 : ∀ f : ValveRec → ValveRec, Inv { s with ofu := { s.ofu with valves := upd1 f n s.ofu.valves } } := fun f =>
    ⟨h.tb, h.ot, h.pln, h.ilk, h.dru, h.ofu, h.qnu, h.trm, h.lnk, h.cfg,
      ⟨h.tables.1, by simpa using h.tables.2.1, h.tables.2.2⟩⟩
  have h2 := dropReachedOffer_inv (h1 fun r => { r with state := v, lastReport := some s.now }) n v
  unfold valveReport
  dsimp only
  split
  · exact h2
  · exact retest_inv (feedForward_inv h2 _ _ _)

@[simp] theorem setPending_inv {s : State} (h : Inv s) (n : Nat) (d : Side) : Inv (s.setPending n d) := by
  unfold setPending
  try dsimp only
  (repeat' split) <;> simp +contextual (maxDischargeDepth := 40) [h, OvenRec.Ok, PushRec.Ok, Inspection.Ok, Planner.Ok]

/-- An entry of a queue returned to the head of its class in another form, its oven and kind kept. -/
theorem joinHead_without_ok {q : List TaskEntry} (h : QueueOk q) {e x : TaskEntry} (he : e ∈ q) (ho : x.oven = e.oven)
    (hk : x.kind = e.kind) : QueueOk (joinHead x (q.filter fun y => !(y.is e.oven e.kind))) := by
  refine QueueOk.joinHead (h.filter _) (Nat.lt_of_lt_of_le ?_ h.1) (by rw [ho, hk]; exact apart_without q e.oven e.kind)
  exact List.length_filter_lt_length_iff_exists.2 ⟨e, he, by simp [TaskEntry.is]⟩

theorem joinTask_inv {s : State} (h : Inv s) (d : Side) (n : Nat) (k : TaskKind) {q : List TaskEntry} (hq : QueueOk q)
    (hl : q.length < 16) (ha : Apart n k q) : Inv (s.joinTask d n k q) := by
  have h1 : Inv (s.setQueue d (joinLast ⟨n, k, s.now, false, none⟩ q)) := setQueue_inv h d (hq.joinLast hl ha)
  unfold joinTask
  dsimp only
  split
  · exact updDoor_inv h1 n d fun _ hr => hr
  · exact h1

theorem offerFull_inv {s : State} (h : Inv s) (d : Side) (n : Nat) (k : TaskKind) (ha : Apart n k (s.queue d)) :
    Inv (s.offerFull d n k) := by
  have hq : ∀ e : TaskEntry, newestInspect (s.queue d) = some e →
      Inv (s.joinTask d n k (s.without d e.oven .inspect)) := fun e he => by
    have hm : e ∈ s.queue d ∧ e.kind = .inspect := by
      have h1 := List.mem_of_find?_eq_some he
      have h2 := List.find?_some he
      exact ⟨List.mem_reverse.1 h1, by simp at h2; exact h2.1⟩
    refine joinTask_inv h d n k ((queue_ok h d).filter _) (Nat.lt_of_lt_of_le ?_ (queue_ok h d).1) (ha.filter _)
    exact List.length_filter_lt_length_iff_exists.2 ⟨e, hm.1, by simp [TaskEntry.is, hm.2]⟩
  unfold offerFull
  split
  · exact raise_inv h _
  · split
    · rename_i e he
      exact raise_inv (hq e he) _
    · split
      · exact setPending_inv h _ _
      · exact h

@[simp] theorem offerTask_inv {s : State} (h : Inv s) (d : Side) (n : Nat) (k : TaskKind) :
    Inv (s.offerTask d n k) := by
  unfold offerTask
  dsimp only
  split
  · exact h
  · rename_i hany
    have ha : Apart n k (s.queue d) := by simpa [Apart] using hany
    split
    · exact h
    · split
      · rename_i hr
        obtain ⟨e, he, hp⟩ := List.any_eq_true.1 hr.2
        refine joinTask_inv h d n k ((queue_ok h d).filter _) (Nat.lt_of_lt_of_le ?_ (queue_ok h d).1) (ha.filter _)
        refine List.length_filter_lt_length_iff_exists.2 ⟨e, he, ?_⟩
        simp only [Bool.and_eq_true] at hp
        simp [hp.1]
      · split
        · rename_i hl
          exact joinTask_inv h d n k (queue_ok h d) hl ha
        · exact offerFull_inv h _ _ _ ha

@[simp] theorem offerInRun_inv {s : State} (h : Inv s) (d : Side) (n : Nat) (k : TaskKind) :
    Inv (s.offerInRun d n k) := by
  unfold offerInRun
  try dsimp only
  (repeat' split) <;> simp +contextual (maxDischargeDepth := 40) [h, OvenRec.Ok, PushRec.Ok, Inspection.Ok, Planner.Ok]

@[simp] theorem offerChecked_inv {s : State} (h : Inv s) (d : Side) (n : Nat) (k : TaskKind) :
    Inv (s.offerChecked d n k) := by
  have h1 := offerInRun_inv h d n k
  unfold offerChecked
  dsimp only
  split
  · exact h1
  · exact dispatchDoor_inv h1 d

@[simp] theorem releaseOne_inv {s : State} (h : Inv s) (d : Side) (n : Nat) : Inv (s.releaseOne d n) := by
  unfold releaseOne
  split
  · rename_i hl
    split
    · exact updDoor_inv h n d fun _ hr => hr
    · rename_i ha
      exact joinTask_inv h d n .reseal (queue_ok h d) hl.1 (by simpa [Apart] using ha)
  · exact h

@[simp] theorem releaseFrom_inv {s : State} (h : Inv s) (d : Side) (l : List Nat) : Inv (releaseFrom d l s) := by
  induction l generalizing s with
  | nil => exact h
  | cons a l ih => exact ih (releaseOne_inv h d a)

@[simp] theorem pendingRelease_inv {s : State} (h : Inv s) (d : Side) : Inv (s.pendingRelease d) := by
  unfold pendingRelease
  try dsimp only
  (repeat' split) <;> simp +contextual (maxDischargeDepth := 40) [h, OvenRec.Ok, PushRec.Ok, Inspection.Ok, Planner.Ok]

@[simp] theorem dropSealWork_inv {s : State} (h : Inv s) (d : Side) (n : Nat) : Inv (s.dropSealWork d n) := by
  exact setQueue_inv h d ((queue_ok h d).filter _)

@[simp] theorem enterLeaking_inv {s : State} (h : Inv s) (n : Nat) (d : Side) : Inv (s.enterLeaking n d) := by
  unfold enterLeaking
  try dsimp only
  (repeat' split) <;> simp +contextual (maxDischargeDepth := 40) [h, OvenRec.Ok, PushRec.Ok, Inspection.Ok, Planner.Ok]

@[simp] theorem leakAt_inv {s : State} (h : Inv s) (n : Nat) (d : Side) : Inv (s.leakAt n d) := by
  unfold leakAt
  try dsimp only
  (repeat' split) <;> simp +contextual (maxDischargeDepth := 40) [h, OvenRec.Ok, PushRec.Ok, Inspection.Ok, Planner.Ok]

@[simp] theorem doorTight_inv {s : State} (h : Inv s) (n : Nat) (d : Side) : Inv (s.doorTight n d) := by
  unfold doorTight
  try dsimp only
  (repeat' split) <;> simp +contextual (maxDischargeDepth := 40) [h, OvenRec.Ok, PushRec.Ok, Inspection.Ok, Planner.Ok]

@[simp] theorem withdrawAt_inv {s : State} (h : Inv s) (n : Nat) (d : Side) : Inv (s.withdrawAt n d) := by
  have h1 : Inv (match (s.queue d).find? fun e => e.oven == n && e.service.isSome with
      | some (e : TaskEntry) =>
        (s.setQueue d (if e.kind = TaskKind.clean then joinHead { e with service := none, timedOut := false } (s.without d n e.kind)
          else s.without d n e.kind)).raise (.taskWithdrawn (Side.machine d) n (.door e.kind) false)
      | none => s) := by
    split
    · rename_i e he
      refine raise_inv (setQueue_inv h d ?_) _
      split
      · have ho : e.oven = n := by
          have := List.find?_some he
          simp at this
          exact this.1
        subst ho
        exact joinHead_without_ok (queue_ok h d) (List.mem_of_find?_eq_some he) rfl rfl
      · exact (queue_ok h d).filter _
    · exact h
  unfold withdrawAt
  dsimp only
  split
  · split
    · refine raise_inv (updRound_inv h1 d ?_ ?_) _ <;> exact fun _ hr => hr
    · exact h1
  · exact h1

@[simp] theorem doorGoesOff_inv {s : State} (h : Inv s) (n : Nat) (d : Side) : Inv (s.doorGoesOff n d) := by
  unfold doorGoesOff
  try dsimp only
  (repeat' split) <;> simp +contextual (maxDischargeDepth := 40) [h, OvenRec.Ok, PushRec.Ok, Inspection.Ok, Planner.Ok]

@[simp] theorem doorSequence_inv {s : State} (h : Inv s) (n : Nat) (d : Side) (rep : ReportName) :
    Inv (s.doorSequence n d rep) := by
  unfold doorSequence
  try dsimp only
  (repeat' split) <;> simp +contextual (maxDischargeDepth := 40) [h, OvenRec.Ok, PushRec.Ok, Inspection.Ok, Planner.Ok]

@[simp] theorem doorOnFact_inv {s : State} (h : Inv s) (n : Nat) (d : Side) : Inv (s.doorOnFact n d).1 := by
  unfold doorOnFact
  try dsimp only
  (repeat' split) <;> simp +contextual (maxDischargeDepth := 40) [h, OvenRec.Ok, PushRec.Ok, Inspection.Ok, Planner.Ok]

@[simp] theorem doorTightFact_inv {s : State} (h : Inv s) (n : Nat) (d : Side) : Inv (s.doorTightFact n d) := by
  unfold doorTightFact
  try dsimp only
  (repeat' split) <;> simp +contextual (maxDischargeDepth := 40) [h, OvenRec.Ok, PushRec.Ok, Inspection.Ok, Planner.Ok]

@[simp] theorem applyResult_inv {s : State} (h : Inv s) (d : Side) (n : Nat) (k : TaskKind) (r : TaskResult) :
    Inv (s.applyResult d n k r) := by
  unfold applyResult
  try dsimp only
  (repeat' split) <;> simp +contextual (maxDischargeDepth := 40) [h, OvenRec.Ok, PushRec.Ok, Inspection.Ok, Planner.Ok]

@[simp] theorem visitDone_inv {s : State} (h : Inv s) (d : Side) (n : Nat) : Inv (s.visitDone d n) := by
  refine retest_inv (updRound_inv h d (fun r hr => ?_) fun r hr => ?_)
  · obtain ⟨⟨a, b⟩, c⟩ := hr
    exact ⟨⟨by simp, by simp; omega⟩, c⟩
  · show (1 ≤ if n < s.nOv then n + 1 else 1) ∧ (if n < s.nOv then n + 1 else 1) ≤ max 1 s.nOv
    split <;> omega

@[simp] theorem taskDoneOp_inv {s : State} (h : Inv s) (d : Side) (n : Nat) (k : TaskKind) (r : TaskResult) :
    Inv (s.taskDoneOp d n k r) := by
  unfold taskDoneOp
  split
  · simp (maxDischargeDepth := 40) [h]
  · split
    · exact dispatchDoor_inv (pendingRelease_inv (applyResult_inv (setQueue_inv h d ((queue_ok h d).filter _)) _ _ _ _) _) _
    · exact raise_inv h _

theorem taskTimeout_inv {s : State} (h : Inv s) (d : Side) {e : TaskEntry} (he : e ∈ s.queue d) :
    Inv (s.taskTimeout d e) := by
  unfold taskTimeout
  dsimp only
  split
  · exact dispatchDoor_inv (pendingRelease_inv (raise_inv (setQueue_inv h d ((queue_ok h d).filter _)) _) _) _
  · refine dispatchDoor_inv (setQueue_inv h d (joinHead_without_ok (queue_ok h d) he ?_ ?_)) _ <;> rfl

@[simp] theorem visitTimeout_inv {s : State} (h : Inv s) (d : Side) (v : Visit) : Inv (s.visitTimeout d v) := by
  refine dispatchDoor_inv (raise_inv (updRound_inv h d ?_ ?_) _) _ <;> exact fun _ hr => hr

@[simp] theorem doorOffline_inv {s : State} (h : Inv s) (d : Side) : Inv (s.doorOffline d) := by
  unfold doorOffline
  dsimp only
  split
  · rename_i e he
    have h1 : Inv (s.setQueue d (joinHead { e with service := none } (s.without d e.oven e.kind))) := by
      refine setQueue_inv h d (joinHead_without_ok (queue_ok h d) (List.mem_of_find?_eq_some he) ?_ ?_) <;> rfl
    refine updRound_inv h1 d ?_ ?_ <;> exact fun _ hr => hr
  · refine updRound_inv h d ?_ ?_ <;> exact fun _ hr => hr

@[simp] theorem accrue_inv {s : State} (h : Inv s) (d : Side) : Inv (s.accrue d) := by
  have h1 : Inv (s.updRound d fun r => { r with elapsed := 0 }) := 
    updRound_inv h d (fun r hr => ⟨hr.1, by simp⟩) fun _ hr => hr
  unfold accrue
  dsimp only
  split
  · rename_i hlt
    refine retest_inv ?_
    have hb : -8 ≤ (s.dru.rounds.get d).debt ∧ (s.dru.rounds.get d).debt < 8 := ⟨(round_ok h d).1.1, hlt⟩
    obtain ⟨a, b, c, e, g⟩ := h1.dru
    have ht : TablesOk ((s.updRound d fun r => { r with elapsed := 0 }).updRound d fun r =>
        { r with debt := r.debt + 1 }) := by
      obtain ⟨t1, t2, t3, t4, t5, t6⟩ := h1.tables
      cases d
      · exact ⟨t1, t2, t3, t4, t5, t6⟩
      · exact ⟨t1, t2, t3, t4, t5, t6⟩
    refine ⟨h.tb, h.ot, h.pln, h.ilk, ⟨a, b, c, ?_⟩, h.ofu, h.qnu, h.trm, h.lnk, h.cfg, ht⟩
    cases d
    · exact ⟨⟨by simp [Pair.set, Pair.get] at hb ⊢; omega, e.2⟩, g⟩
    · exact ⟨e, ⟨by simp [Pair.set, Pair.get] at hb ⊢; omega, g.1.2⟩, g.2⟩
  · split
    · exact h1
    · refine raise_inv (updRound_inv h1 d ?_ ?_) _ <;> exact fun _ hr => hr

@[simp] theorem confirmExpire_inv {s : State} (h : Inv s) (n : Nat) (d : Side) : Inv (s.confirmExpire n d) := by
  unfold confirmExpire
  try dsimp only
  (repeat' split) <;> simp +contextual (maxDischargeDepth := 40) [h, OvenRec.Ok, PushRec.Ok, Inspection.Ok, Planner.Ok]

@[simp] theorem commitDoorsFrom_inv {s : State} (h : Inv s) (d : Side) (l : List Nat) : Inv (commitDoorsFrom d l s) := by
  induction l generalizing s with
  | nil => exact h
  | cons a l ih =>
    rw [commitDoorsFrom]
    split
    · exact ih (offerTask_inv h d a _)
    · exact ih h

@[simp] theorem commitDoors_inv {s : State} (h : Inv s) (d : Side) : Inv (s.commitDoors d) := by
  have h1 := commitDoorsFrom_inv h d (numbers 1 s.nOv)
  unfold commitDoors
  refine dispatchDoor_inv ?_ d
  refine ⟨h1.tb, h1.ot, h1.pln, h1.ilk, ⟨?_, h1.dru.2⟩, h1.ofu, h1.qnu, h1.trm, h1.lnk, h1.cfg,
    ⟨by simpa using h1.tables.1, h1.tables.2⟩⟩
  intro p hp
  obtain ⟨q, hq, rfl⟩ := List.mem_map.1 hp
  have := h1.dru.1 q hq
  by_cases hc : (Pair.get q d).state = .onUnconfirmed <;> cases d <;> simp_all [giveConfirm, Pair.get, Pair.set]

@[simp] theorem doorRestart_inv {s : State} (h : Inv s) : Inv (s.doorRestart) := by
  refine ⟨h.tb, h.ot, h.pln, h.ilk, ⟨?_, ⟨by simp [doorRestart], by simp [doorRestart]⟩, ⟨by simp [doorRestart], by simp [doorRestart]⟩, h.dru.2.2.2⟩, h.ofu, h.qnu, h.trm,
    h.lnk, h.cfg, ⟨by simpa [doorRestart] using h.tables.1, h.tables.2⟩⟩
  intro p hp
  obtain ⟨q, hq, rfl⟩ := List.mem_map.1 hp
  exact h.dru.1 q hq

end State

end Sys2Proof.Machine
end

