-- ==== Sys2Proof/Laws/InvD.lean ====
section
/-! SUPPORT. `Inv` under the push record, holds, stops and breaches. -/

set_option linter.all false

namespace Sys2Proof.Machine

open Sys2Proof

namespace State

@[simp] theorem holdTimer_inv {s : State} (h : Inv s) : Inv (s.holdTimer) := by
  refine updPush_inv h fun p hp => ?_
  split <;> exact hp

theorem sticker_inv {s : State} (h : Inv s) {p : PushRec} (hp : p.Ok) (hs : p.stage ≠ .armed) : Inv (s.sticker p) := by
  have hn : p.armedFrom = none := by
    have := hp.2
    cases hc : p.armedFrom <;> simp_all
  have h1 : Inv (s.setPush (some { p with stage := .sticker, timer := .absent, late := false })) :=
    setPush_inv h fun x hx => by
      obtain rfl := Option.some.inj hx
      exact ⟨hp.1, by simp [hn]⟩
  have h2 : Inv ((s.setPush (some { p with stage := .sticker, timer := .absent, late := false })).updOven p.oven fun o =>
      { o with stickers := min 3 (o.stickers + 1) }) :=
    updOven_inv h1 _ (fun o ho => ⟨ho.1, ho.2.1, Nat.min_le_left _ _, ho.2.2.2⟩) (fun _ => rfl) fun _ => id
  exact retest_inv (stickerCar_inv (raise_inv h2 _) _)

theorem pushLate_inv {s : State} (h : Inv s) {p : PushRec} (hp : p.Ok) : Inv (s.pushLate p) := by
  refine raise_inv (setPush_inv h fun x hx => ?_) _
  obtain rfl := Option.some.inj hx
  exact hp

theorem stageExpire_inv {s : State} (h : Inv s) {p : PushRec} (hp : p.Ok) : Inv (s.stageExpire p) := by
  unfold stageExpire
  split
  · exact sticker_inv h hp (by simp_all)
  · exact pushLate_inv h hp
  · exact pushLate_inv h hp
  · exact h

@[simp] theorem resumeTimer_inv {s : State} (h : Inv s) : Inv (s.resumeTimer) := by
  unfold resumeTimer
  split
  · exact h
  · split
    · rename_i p hp
      have ho := push_ok h hp
      split
      · split
        · exact stageExpire_inv h ho
        · refine setPush_inv h fun x hx => ?_
          obtain rfl := Option.some.inj hx
          exact ho
      · exact h
    · exact h

@[simp] theorem pushRemoved_inv {s : State} (h : Inv s) (n : Nat) : Inv (s.pushRemoved n) := by
  unfold pushRemoved
  try dsimp only
  (repeat' split) <;> simp +contextual (maxDischargeDepth := 40) [h, OvenRec.Ok, PushRec.Ok, Inspection.Ok, Planner.Ok]

@[simp] theorem pushComplete_inv {s : State} (h : Inv s) (p : PushRec) : Inv (s.pushComplete p) := by
  have h1 : Inv ((s.raise (s.pushDoneNotice p)).updOven p.oven (emptied p)) :=
    updOven_inv (raise_inv h _) _ (fun o ho => ⟨ho.1, ho.2.1, by simp [emptied], ho.2.2.2.1, by simp [emptied]⟩)
      (fun _ => rfl) (by simp [emptied])
  unfold pushComplete
  dsimp only
  refine pushRemoved_inv ?_ _
  split <;> simp (maxDischargeDepth := 40) [h1]

@[simp] theorem completionTest_inv {s : State} (h : Inv s) : Inv (s.completionTest) := by
  unfold completionTest
  try dsimp only
  (repeat' split) <;> simp +contextual (maxDischargeDepth := 40) [h, OvenRec.Ok, PushRec.Ok, Inspection.Ok, Planner.Ok]

@[simp] theorem followRam_inv {s : State} (h : Inv s) (n : Nat) : Inv (s.followRam n) := by
  refine ramStartCar_inv (updPush_inv h fun p hp => ?_) n
  exact ⟨hp.1, by simp⟩

theorem takeRamEnd_inv {s : State} (h : Inv s) {p : PushRec} (hp : p.Ok) (hs : p.stage ≠ .armed) (derived : Bool) :
    Inv (s.takeRamEnd p derived) := by
  refine retest_inv (ramEndCar_inv (setPush_inv h fun x hx => ?_) _ _)
  obtain rfl := Option.some.inj hx
  have := hp.2
  refine ⟨hp.1, ?_⟩
  cases hc : p.armedFrom <;> simp_all

theorem enterClosing_inv {s : State} (h : Inv s) {p : PushRec} (hp : p.Ok) (hs : p.stage ≠ .armed) (derived : Bool) :
    Inv (s.enterClosing p derived) := by
  refine retest_inv (setPush_inv h fun x hx => ?_)
  obtain rfl := Option.some.inj hx
  have := hp.2
  refine ⟨hp.1, ?_⟩
  cases hc : p.armedFrom <;> simp_all

@[simp] theorem pushLoses_inv {s : State} (h : Inv s) (m : MachineId) : Inv (s.pushLoses m) := by
  unfold pushLoses
  split
  · rename_i p hp
    have ho := push_ok h hp
    split
    · refine raise_inv (sendIfOnline_inv (holdTimer_inv (setPush_inv h fun x hx => ?_)) _ _) _
      obtain rfl := Option.some.inj hx
      exact ho
    · exact h
  · exact h

theorem rederiveStage_inv {s : State} (h : Inv s) {p : PushRec} (hp : p.Ok) : Inv (s.rederiveStage p) := by
  unfold rederiveStage
  split
  · exact takeRamEnd_inv h hp (by simp_all) _
  · refine enterClosing_inv (ramEndCar_inv (setPush_inv h fun x hx => ?_) _ _) ?_ (by simp_all) _
    · obtain rfl := Option.some.inj hx
      exact hp
    · exact hp
  · exact enterClosing_inv h hp (by simp_all) _
  · exact h

theorem rederive_inv {s : State} (h : Inv s) {p : PushRec} (hp : p.Ok) : Inv (s.rederive p) := by
  have h1 := completionTest_inv (rederiveStage_inv h hp)
  unfold rederive
  dsimp only
  split
  · exact h1
  · rename_i q hq
    have hqo := push_ok h1 hq
    have h2 : ∀ b, Inv (((s.rederiveStage p).completionTest.setPush (some { q with unconfirmed := false })).raise b) :=
      fun b => raise_inv (setPush_inv h1 fun x hx => by
        obtain rfl := Option.some.inj hx
        exact hqo) _
    have h3 := fun b => resumeTimer_inv (h2 b)
    split
    · exact h3 _
    · exact sendIfOnline_inv (h3 _) _ _

@[simp] theorem pushRegains_inv {s : State} (h : Inv s) (m : MachineId) (became : Bool) :
    Inv (s.pushRegains m became) := by
  unfold pushRegains
  split
  · rename_i p hp
    have ho := push_ok h hp
    split
    · have h1 : ∀ l, Inv (s.setPush (some { p with lost := l })) := fun l => setPush_inv h fun x hx => by
        obtain rfl := Option.some.inj hx
        exact ho
      dsimp only
      split
      · exact rederive_inv (h1 _) ho
      · split
        · exact send_inv (h1 _) _ _
        · exact h1 _
    · exact h
  · exact h

@[simp] theorem sendClears_inv {s : State} (h : Inv s) (c : HoldCause) : Inv (s.sendClears c) := by
  unfold sendClears
  try dsimp only
  (repeat' split) <;> simp +contextual (maxDischargeDepth := 40) [h, OvenRec.Ok, PushRec.Ok, Inspection.Ok, Planner.Ok]

@[simp] theorem workAfterHold_inv {s : State} (h : Inv s) : Inv (s.workAfterHold) := by
  unfold workAfterHold
  try dsimp only
  (repeat' split) <;> simp +contextual (maxDischargeDepth := 40) [h, OvenRec.Ok, PushRec.Ok, Inspection.Ok, Planner.Ok]

@[simp] theorem holdEnds_inv {s : State} (h : Inv s) (c : HoldCause) : Inv (s.holdEnds c) := by
  unfold holdEnds
  try dsimp only
  (repeat' split) <;> simp +contextual (maxDischargeDepth := 40) [h, OvenRec.Ok, PushRec.Ok, Inspection.Ok, Planner.Ok]

@[simp] theorem holdStarts_inv {s : State} (h : Inv s) (c : HoldCause) : Inv (s.holdStarts c) := by
  refine withdrawMove_inv (sendAllOnline_inv ?_ _)
  exact ⟨h.tb, h.ot, h.pln, h.ilk, h.dru, h.ofu, h.qnu, h.trm, h.lnk, h.cfg, h.tables⟩

@[simp] theorem stopSets_inv {s : State} (h : Inv s) : Inv (s.stopSets) := by
  have h1 : Inv (({ s with ilk.stop := true } : State).raise (.batteryStop true)) := raise_inv (by exact ⟨h.tb, h.ot, h.pln, h.ilk, h.dru, h.ofu, h.qnu, h.trm, h.lnk, h.cfg, h.tables⟩) _
  have h2 := holdTimer_inv (revokeAll_inv h1 .stopped)
  unfold stopSets
  dsimp only
  split
  · exact h2
  · exact holdStarts_inv h2 _

@[simp] theorem stopClears_inv {s : State} (h : Inv s) : Inv (s.stopClears) := by
  have h1 : Inv (({ s with ilk.stop := false } : State).raise (.batteryStop false)) := raise_inv (by exact ⟨h.tb, h.ot, h.pln, h.ilk, h.dru, h.ofu, h.qnu, h.trm, h.lnk, h.cfg, h.tables⟩) _
  exact holdEnds_inv (resumeTimer_inv h1) _

@[simp] theorem stopFollows_inv {s : State} (h : Inv s) (active : Bool) : Inv (s.stopFollows active) := by
  unfold stopFollows
  try dsimp only
  (repeat' split) <;> simp +contextual (maxDischargeDepth := 40) [h, OvenRec.Ok, PushRec.Ok, Inspection.Ok, Planner.Ok]

@[simp] theorem breachBegins_inv {s : State} (h : Inv s) (n : Nat) : Inv (s.breachBegins n) := by
  unfold breachBegins
  try dsimp only
  (repeat' split) <;> simp +contextual (maxDischargeDepth := 40) [h, OvenRec.Ok, PushRec.Ok, Inspection.Ok, Planner.Ok]

@[simp] theorem breachEnds_inv {s : State} (h : Inv s) (n : Nat) (m : MachineId) (rep : ReportName) (held : Option Permit) :
    Inv (s.breachEnds n m rep held) := by
  unfold breachEnds
  try dsimp only
  (repeat' split) <;> simp +contextual (maxDischargeDepth := 40) [h, OvenRec.Ok, PushRec.Ok, Inspection.Ok, Planner.Ok]

@[simp] theorem writeRam_inv {s : State} (h : Inv s) (r : Ram) : Inv (s.writeRam r) := by
  unfold writeRam
  try dsimp only
  (repeat' split) <;> simp +contextual (maxDischargeDepth := 40) [h, OvenRec.Ok, PushRec.Ok, Inspection.Ok, Planner.Ok]

@[simp] theorem ramStartFact_inv {s : State} (h : Inv s) (n : Nat) : Inv (s.ramStartFact n) := by
  have h := writeRam_inv h .forward
  exact ⟨h.tb, h.ot, h.pln, h.ilk, h.dru, h.ofu, h.qnu, h.trm, h.lnk, h.cfg, h.tables⟩

end State

end Sys2Proof.Machine
end

