-- ==== Sys2Proof/Laws/InvE.lean ====
section
/-! SUPPORT. `Inv` under the pressure loops, terminals, link ports, expiries and the end of an event. -/

set_option linter.all false

namespace Sys2Proof.Machine

open Sys2Proof

namespace State

theorem upd1_forall_at {α : Type} {P : α → Prop} {f : α → α} (n : Nat) (l : List α)
    (hf : ∀ a, nth1 l n = some a → P a → P (f a)) (hl : ∀ a ∈ l, P a) : ∀ a ∈ upd1 f n l, P a := by
  fun_induction upd1 f n l with
  | case1 l => exact hl
  | case2 n => exact hl
  | case3 a l =>
    intro x hx
    rcases List.mem_cons.1 hx with rfl | hx
    · exact hf a rfl (hl a (by simp))
    · exact hl x (by simp [hx])
  | case4 k a l ih =>
    intro x hx
    rcases List.mem_cons.1 hx with rfl | hx
    · exact hl x (by simp)
    · exact ih (fun b hb => hf b (by simpa [nth1] using hb)) (fun b hb => hl b (by simp [hb])) x hx

theorem updSec_inv_at {s : State} (h : Inv s) (k : Nat) {f : SecRec → SecRec}
    (hf : ∀ r, s.sec k = some r → r.Ok → (f r).Ok) : Inv (s.updSec k f) := by
  obtain ⟨h1, h2, h3, h4, h5, h6, h7, h8, h9, h10, h11⟩ := h
  exact ⟨h1, h2, h3, h4, h5, ⟨by simpa using h6.1, upd1_forall_at k _ hf h6.2.1, h6.2.2⟩, h7, h8, h9, h10, h11⟩

theorem sec_ok {s : State} (h : Inv s) {k : Nat} {r : SecRec} (hr : s.sec k = some r) : r.Ok :=
  h.ofu.2.1 r (nth1_mem hr)

@[simp] theorem endGate_inv {s : State} (h : Inv s) (k : Nat) : Inv (s.endGate k) := by
  unfold endGate
  try dsimp only
  (repeat' split) <;> simp +contextual (maxDischargeDepth := 40) [h, OvenRec.Ok, PushRec.Ok, Inspection.Ok, Planner.Ok]

@[simp] theorem faultReading_inv {s : State} (h : Inv s) (k n : Nat) : Inv (s.faultReading k n) := by
  unfold faultReading
  split
  · exact h
  · rename_i r hr
    have h1 : Inv (s.updSec k fun x => { x with goodRun := 0, sensorFault := true, live := r.live.map fun (v : SecLive) =>
        if v.mode = .auto then { v with mode := .hold .fault, transfer := none } else v }) := by
      refine updSec_inv_at h k fun x hx ho => ?_
      obtain rfl := Option.some.inj (hr.symm.trans hx)
      refine ⟨ho.1, ho.2.1, ho.2.2.1, by simp, ho.2.2.2.2.1, by simpa using ho.2.2.2.2.2.1, fun v hv => ?_⟩
      obtain ⟨w, hw, rfl⟩ := Option.map_eq_some_iff.1 hv
      have := ho.2.2.2.2.2.2 w hw
      split
      · exact ⟨by simp, this.2⟩
      · exact this
    dsimp only
    split
    · exact h1
    · exact raise_inv h1 _

/-- A good reading gives P in its range (R111). -/
theorem classify_range {n : Nat} {p : Int} (h : classify n = .good p) : -250 ≤ p ∧ p ≤ 750 := by
  unfold classify at h
  (repeat' split at h) <;> simp_all <;> omega

theorem reading_range {s : State} {k : Nat} {p : Int} (h : s.reading k = .good p) : -250 ≤ p ∧ p ≤ 750 := by
  unfold reading at h
  (repeat' split at h) <;> simp_all
  exact classify_range h

theorem goodReading_inv {s : State} (h : Inv s) (k : Nat) {p : Int} (hp : -250 ≤ p ∧ p ≤ 750) :
    Inv (s.goodReading k p) := by
  refine updSec_inv h k fun r hr => ⟨fun q hq => ?_, hr.2.1, hr.2.2.1, Nat.min_le_left _ _, hr.2.2.2.2⟩
  obtain rfl := Option.some.inj hq
  exact hp

@[simp] theorem recover_inv {s : State} (h : Inv s) (k : Nat) (p : Int) : Inv (s.recover k p) := by
  unfold recover
  try dsimp only
  (repeat' split) <;> simp +contextual (maxDischargeDepth := 40) [h, OvenRec.Ok, PushRec.Ok, Inspection.Ok, Planner.Ok]

@[simp] theorem chargeUnderPressure_inv {s : State} (h : Inv s) (k : Nat) (l : AlarmLevel) :
    Inv (s.chargeUnderPressure k l) := by
  unfold chargeUnderPressure
  try dsimp only
  (repeat' split) <;> simp +contextual (maxDischargeDepth := 40) [h, OvenRec.Ok, PushRec.Ok, Inspection.Ok, Planner.Ok]

theorem alarmStep_ok (par : PressureParams) (p : Int) {v : SecLive} (h : v.Ok) : (alarmStep par p v).Ok := by
  obtain ⟨ht, hu, hc⟩ := h
  unfold alarmStep
  dsimp only
  split
  · rename_i hl
    refine ⟨ht, hu, ?_⟩
    unfold nextLevel at hl
    unfold countAlarm at hl ⊢
    unfold countRun at hl ⊢
    cases hv : v.level <;> simp only [hv, AlarmLevel.back] at hl ⊢ <;> simp at hl ⊢ <;> (repeat' split) <;>
      (repeat' split at hl) <;> simp_all <;> omega
  · exact ⟨ht, hu, by simp [RunCounters.zero]⟩

@[simp] theorem alarmEval_inv {s : State} (h : Inv s) (k : Nat) (p : Int) : Inv (s.alarmEval k p) := by
  unfold alarmEval
  split
  · rename_i r hr
    split
    · rename_i v par hv hpar
      have h1 : Inv (s.updSec k fun x => { x with live := some (alarmStep par p v) }) := by
        refine updSec_inv_at h k fun x hx ho => ?_
        obtain rfl := Option.some.inj (hr.symm.trans hx)
        refine ⟨ho.1, ho.2.1, ho.2.2.1, ho.2.2.2.1, ho.2.2.2.2.1, fun _ => by simp [hpar], fun w hw => ?_⟩
        obtain rfl := Option.some.inj hw
        exact alarmStep_ok par p (ho.2.2.2.2.2.2 v hv)
      dsimp only
      split
      · exact h1
      · simp (maxDischargeDepth := 40) [h1]
    · exact h
  · exact h

theorem damperMove_range {par : PressureParams} (hp : pressureOk par = true) {u : Int} (hu : 0 ≤ u ∧ u ≤ 1000)
    (a p f : Int) : 0 ≤ damperMove par u a p f ∧ damperMove par u a p f ≤ 1000 := by
  simp only [pressureOk, withinInt, Bool.and_eq_true, decide_eq_true_eq] at hp
  unfold damperMove
  simp only [clampInt]
  generalize a / 256 + p + f = c
  omega

theorem decayF_range {d f : Int} (hf : -300 ≤ f ∧ f ≤ 300) (hd : 0 ≤ d) : -300 ≤ decayF d f ∧ decayF d f ≤ 300 := by
  unfold decayF
  split
  · omega
  · split <;> omega

theorem pressureOk_decay {par : PressureParams} (hp : pressureOk par = true) : 0 ≤ par.decay := by
  simp only [pressureOk, withinInt, Bool.and_eq_true, decide_eq_true_eq] at hp
  omega

theorem controlStep_ok {par : PressureParams} (hp : pressureOk par = true) (back : Bool) (rd : Reading) {r : SecRec}
    (hr : r.Ok) (hpar : r.params = some par) : (controlStep par back rd r).Ok := by
  have hd := pressureOk_decay hp
  have h1 : (holdStep par r).Ok := ⟨hr.1, hr.2.1, decayF_range hr.2.2.1 hd, hr.2.2.2⟩
  have h2 : ∀ v, r.live = some v → ∀ t p, (autoStep par t r v p).Ok := fun v hv t p => by
    refine ⟨hr.1, ?_, decayF_range hr.2.2.1 hd, hr.2.2.2.1, hr.2.2.2.2.1, fun _ => by simp [autoStep, hpar],
      fun w hw => ?_⟩
    · simp only [autoStep, clampA, clampInt]
      split <;> omega
    · obtain rfl := Option.some.inj hw
      have := hr.2.2.2.2.2.2 v hv
      exact ⟨by simp, damperMove_range hp this.2.1 _ _ _, this.2.2⟩
  unfold controlStep
  split
  · exact hr
  · rename_i v hv
    split
    · split
      · exact h2 v hv _ _
      · split
        · exact h2 v hv _ _
        · exact h1
    · exact h1

@[simp] theorem sectionStep_inv {s : State} (h : Inv s) (k : Nat) (back : Bool) (rd : Reading) :
    Inv (s.sectionStep k back rd) := by
  refine updSec_inv h k fun r hr => ?_
  split
  · rename_i par hpar
    exact controlStep_ok (hr.2.2.2.2.1 par hpar) back rd hr hpar
  · exact hr

@[simp] theorem endSection_inv {s : State} (h : Inv s) (k : Nat) : Inv (s.endSection k) := by
  unfold endSection
  split
  · rename_i p hp
    exact endGate_inv (sectionStep_inv (alarmEval_inv (recover_inv (goodReading_inv h k (reading_range hp)) k p) k p) k _ _) k
  · exact endGate_inv (sectionStep_inv (faultReading_inv h k _) k _ _) k
  · exact endGate_inv (sectionStep_inv h k _ _) k

@[simp] theorem endSections_inv {s : State} (h : Inv s) (l : List Nat) : Inv (endSections l s) := by
  induction l generalizing s with
  | nil => exact h
  | cons a l ih => exact ih (endSection_inv h a)

@[simp] theorem activateSections_inv {s : State} (h : Inv s) : Inv (s.activateSections) := by
  refine ⟨h.tb, h.ot, h.pln, h.ilk, h.dru, ⟨by simpa [activateSections] using h.ofu.1, ?_, h.ofu.2.2⟩, h.qnu,
    ⟨by simpa [activateSections] using h.trm.1, ?_⟩, h.lnk, h.cfg, h.tables⟩
  · intro r hr
    obtain ⟨x, hx, rfl⟩ := List.mem_map.1 hr
    have ho := h.ofu.2.1 x hx
    unfold activated
    split
    · exact ho
    · rename_i par hpar
      have hp := ho.2.2.2.2.1 par hpar
      have hu : 0 ≤ par.uStart ∧ par.uStart ≤ 1000 := by
        simp only [pressureOk, withinInt, Bool.and_eq_true, decide_eq_true_eq] at hp
        omega
      refine ⟨ho.1, ?_, ho.2.2.1, ho.2.2.2.1, ho.2.2.2.2.1, fun _ => by simp [hpar], fun v hv => ?_⟩
      · simp only [clampA, clampInt]
        omega
      · obtain rfl := Option.some.inj hv
        have ht : ((if x.sensorFault then (none : Option Bool) else some false).isSome ↔
            (if x.sensorFault then SecMode.hold .fault else .auto) = .auto) := by
          split <;> simp
        split
        · rename_i w hw
          exact ⟨ht, hu, (ho.2.2.2.2.2.2 w hw).2.2⟩
        · exact ⟨ht, hu, by simp [RunCounters.zero]⟩
  · have : (s.trm.map s.startDuty).map TermRec.fn = s.trm.map TermRec.fn := by
      simp only [List.map_map]
      refine List.map_congr_left fun r _ => ?_
      simp only [Function.comp, startDuty]
      (repeat' split) <;> rfl
    simpa [activateSections, this] using h.trm.2

@[simp] theorem holdSections_inv {s : State} (h : Inv s) : Inv (s.holdSections) := by
  refine ⟨h.tb, h.ot, h.pln, h.ilk, h.dru, ⟨by simpa [holdSections] using h.ofu.1, ?_, h.ofu.2.2⟩, h.qnu, h.trm, h.lnk,
    h.cfg, h.tables⟩
  intro r hr
  obtain ⟨x, hx, rfl⟩ := List.mem_map.1 hr
  have ho := h.ofu.2.1 x hx
  refine ⟨ho.1, ho.2.1, ho.2.2.1, ho.2.2.2.1, ho.2.2.2.2.1, by simpa [heldSection] using ho.2.2.2.2.2.1, fun v hv => ?_⟩
  obtain ⟨w, hw, rfl⟩ := Option.map_eq_some_iff.1 hv
  exact ⟨by simp, (ho.2.2.2.2.2.2 w hw).2⟩

@[simp] theorem offerWhere_inv {s : State} (h : Inv s) (pick : State → Nat → Bool) (a : ValveAction) (l : List Nat) :
    Inv (offerWhere pick a l s) := by
  induction l generalizing s with
  | nil => exact h
  | cons n l ih =>
    rw [offerWhere]
    split
    · exact ih (offerValve_inv h n a)
    · exact ih h

@[simp] theorem commitValves_inv {s : State} (h : Inv s) : Inv (s.commitValves) := by
  unfold commitValves
  try dsimp only
  (repeat' split) <;> simp +contextual (maxDischargeDepth := 40) [h, OvenRec.Ok, PushRec.Ok, Inspection.Ok, Planner.Ok]

@[simp] theorem valveRestart_inv {s : State} (h : Inv s) : Inv (s.valveRestart) := by
  exact ⟨h.tb, h.ot, h.pln, h.ilk, h.dru, ⟨h.ofu.1, h.ofu.2.1, h.ofu.2.2.1, by simp [valveRestart]⟩, h.qnu, h.trm, h.lnk,
    h.cfg, h.tables⟩

@[simp] theorem conveyorFollows_inv {s : State} (h : Inv s) (active : Bool) : Inv (s.conveyorFollows active) := by
  unfold conveyorFollows
  try dsimp only
  (repeat' split) <;> simp +contextual (maxDischargeDepth := 40) [h, OvenRec.Ok, PushRec.Ok, Inspection.Ok, Planner.Ok]

@[simp] theorem handLevel_inv {s : State} (h : Inv s) (fn : TermFn) (t : Nat) (e : Edge) (l : Bool) :
    Inv (s.handLevel fn t e l) := by
  unfold handLevel
  try dsimp only
  (repeat' split) <;> simp +contextual (maxDischargeDepth := 40) [h, OvenRec.Ok, PushRec.Ok, Inspection.Ok, Planner.Ok]

@[simp] theorem inputHolds_inv {s : State} (h : Inv s) (t : Nat) (energised : Bool) :
    Inv (s.inputHolds t energised) := by
  unfold inputHolds
  try dsimp only
  (repeat' split) <;> simp +contextual (maxDischargeDepth := 40) [h, OvenRec.Ok, PushRec.Ok, Inspection.Ok, Planner.Ok]

@[simp] theorem overload_inv {s : State} (h : Inv s) (t : Nat) : Inv (s.overload t) := by
  unfold overload
  try dsimp only
  (repeat' split) <;> simp +contextual (maxDischargeDepth := 40) [h, OvenRec.Ok, PushRec.Ok, Inspection.Ok, Planner.Ok]

@[simp] theorem pulseEdge_inv {s : State} (h : Inv s) (t : Nat) : Inv (s.pulseEdge t) := by
  unfold pulseEdge
  try dsimp only
  (repeat' split) <;> simp +contextual (maxDischargeDepth := 40) [h, OvenRec.Ok, PushRec.Ok, Inspection.Ok, Planner.Ok]

@[simp] theorem periodStart_inv {s : State} (h : Inv s) (t : Nat) : Inv (s.periodStart t) := by
  refine updTerm_inv h t fun r => ?_
  split <;> rfl

@[simp] theorem spoilGate_inv {s : State} (h : Inv s) (fn : TermFn) : Inv (s.spoilGate fn) := by
  unfold spoilGate
  try dsimp only
  (repeat' split) <;> simp +contextual (maxDischargeDepth := 40) [h, OvenRec.Ok, PushRec.Ok, Inspection.Ok, Planner.Ok]

@[simp] theorem functionLeaves_inv {s : State} (h : Inv s) (fn : TermFn) (level : Bool) :
    Inv (s.functionLeaves fn level) := by
  unfold functionLeaves
  try dsimp only
  (repeat' split) <;> simp +contextual (maxDischargeDepth := 40) [h, OvenRec.Ok, PushRec.Ok, Inspection.Ok, Planner.Ok]

@[simp] theorem functionArrives_inv {s : State} (h : Inv s) (fn : TermFn) (t : Nat) (e : Edge) (level : Bool) :
    Inv (s.functionArrives fn t e level) := by
  unfold functionArrives
  try dsimp only
  (repeat' split) <;> simp +contextual (maxDischargeDepth := 40) [h, OvenRec.Ok, PushRec.Ok, Inspection.Ok, Planner.Ok]

/-- A change of one function keeps every function but the shared ones on at most one terminal. -/
theorem nodup_filter_upd1 {p : TermFn → Bool} {fn : TermFn} (t : Nat) (l : List TermRec) (f : TermRec → TermRec)
    (hf : ∀ r, (f r).fn = fn) (hn : ((l.map TermRec.fn).filter p).Nodup)
    (hd : p fn = true → ∀ i r, l[i]? = some r → r.fn = fn → i = t) :
    (((upd1 f (t + 1) l).map TermRec.fn).filter p).Nodup := by
  induction l generalizing t with
  | nil => simpa [upd1] using hn
  | cons a l ih =>
    have hl : ((l.map TermRec.fn).filter p).Nodup := hn.sublist (List.Sublist.filter p (by simp))
    cases t with
    | zero =>
      simp only [upd1, List.map_cons, List.filter_cons, hf]
      split
      · rename_i hp
        refine List.nodup_cons.2 ⟨fun hm => ?_, hl⟩
        obtain ⟨r, hr, he⟩ := List.mem_map.1 (List.mem_filter.1 hm).1
        obtain ⟨i, hi⟩ := List.getElem?_of_mem hr
        have := hd hp (i + 1) r (by simpa using hi) he
        omega
      · exact hl
    | succ t =>
      have hrec := ih t hl fun hp i r hi he => by
        have := hd hp (i + 1) r (by simpa using hi) he
        omega
      simp only [upd1, List.map_cons, List.filter_cons]
      split
      · rename_i hp
        refine List.nodup_cons.2 ⟨fun hm => ?_, hrec⟩
        obtain ⟨r, hr, he⟩ := List.mem_map.1 (List.mem_filter.1 hm).1
        simp only [List.map_cons, List.filter_cons, hp, if_true, List.nodup_cons] at hn
        obtain ⟨i, hi⟩ := List.getElem?_of_mem hr
        have hi' : nth1 (upd1 f (t + 1) l) (i + 1) = some r := hi
        rw [nth1_upd1] at hi'
        split at hi'
        · obtain ⟨x, hx, rfl⟩ := Option.map_eq_some_iff.1 hi'
          rw [hf] at he
          have := hd (by rw [he]; exact hp) 0 a rfl he.symm
          omega
        · refine hn.1 (List.mem_filter.2 ⟨List.mem_map.2 ⟨r, List.mem_of_getElem? hi', he⟩, hp⟩)
      · exact hrec

theorem assignTerminal_inv {s : State} (h : Inv s) (t : Nat) {r : TermRec} (hr : s.term t = some r) {fn : TermFn}
    (hd : TermFn.shared fn = true ∨ s.standsElsewhere fn t = false) (invert : Bool) (drive : Drive) (edge : Edge) :
    Inv (s.assignTerminal t r fn invert drive edge) := by
  have h1 : ∀ l, Inv (s.updTerm t fun x => { x with invert := invert, drive := drive, edge := edge, level := l }) :=
    fun l => updTerm_inv h t fun _ => rfl
  have h2 : ∀ l, Inv (s.updTerm t fun x =>
      { x with fn := fn, invert := invert, drive := drive, edge := edge, out := false, level := l, fault := false,
               duty := none }) := fun l => by
    refine ⟨h.tb, h.ot, h.pln, h.ilk, h.dru, h.ofu, h.qnu, ⟨by simpa using h.trm.1, ?_⟩, h.lnk, h.cfg, h.tables⟩
    refine nodup_filter_upd1 t s.trm _ (fun _ => rfl) h.trm.2 fun hp i x hi he => ?_
    by_contra hne
    have hs : s.standsElsewhere fn t = false := by
      rcases hd with hd | hd
      · simp [hd] at hp
      · exact hd
    have : s.standsElsewhere fn t = true := by
      refine List.any_eq_true.2 ⟨(x, i), List.mk_mem_zipIdx_iff_getElem?.2 hi, by simp [he, hne]⟩
    simp [hs] at this
  unfold assignTerminal
  dsimp only
  split
  · split
    · exact startDischarge_inv (h1 _)
    · exact startDischarge_inv (handLevel_inv (h1 _) _ _ _ _)
  · exact startDischarge_inv (functionArrives_inv (functionLeaves_inv (h2 _) _ _) _ _ _ _)

@[simp] theorem handOffline_inv {s : State} (h : Inv s) (m : MachineId) : Inv (s.handOffline m) := by
  unfold handOffline
  try dsimp only
  (repeat' split) <;> simp +contextual (maxDischargeDepth := 40) [h, OvenRec.Ok, PushRec.Ok, Inspection.Ok, Planner.Ok]

@[simp] theorem goOffline_inv {s : State} (h : Inv s) (m : MachineId) (c : LinkCause) : Inv (s.goOffline m c) := by
  refine handOffline_inv (updMachine_inv (raise_inv (updPort_inv h _ ?_ ?_) _) _ _) m
  · exact fun hp => hp
  · exact fun _ _ => .inr (.inl rfl)

theorem goOnline_inv {s : State} (h : Inv s) (m : MachineId) (ht : (s.mlink m).test.active = false) : Inv (s.goOnline m) := by
  refine raise_inv (updPort_inv h _ ?_ ?_) _
  · exact fun hp => hp
  · intro k hk
    cases hk
    exact .inr (.inr ht)

@[simp] theorem invalidNotice_inv {s : State} (h : Inv s) (m : MachineId) (before : Bool) (spot : ReportedSpot) :
    Inv (s.invalidNotice m before spot) := by
  unfold invalidNotice
  try dsimp only
  (repeat' split) <;> simp +contextual (maxDischargeDepth := 40) [h, OvenRec.Ok, PushRec.Ok, Inspection.Ok, Planner.Ok]

@[simp] theorem handStatus_inv {s : State} (h : Inv s) (m : MachineId) (became : Bool) (oldMode : Option Mode) (stopped : Option CarSpot)
    (spot : ReportedSpot) : Inv (s.handStatus m became oldMode stopped spot) := by
  unfold handStatus
  try dsimp only
  (repeat' split) <;> simp +contextual (maxDischargeDepth := 40) [h, OvenRec.Ok, PushRec.Ok, Inspection.Ok, Planner.Ok]

theorem takeStatus_inv {s : State} (h : Inv s) (sender : StatusFrom) (mode : Mode) (motion : Motion) (spot : ReportedSpot)
    (ht : (s.mlink sender.machine).test.active = false) : Inv (s.takeStatus sender mode motion spot) := by
  have h1 := goOnline_inv h sender.machine ht
  unfold takeStatus
  dsimp only
  refine handStatus_inv ?_ _ _ _ _ _
  split <;> split <;> simp (maxDischargeDepth := 40) [h, h1]

@[simp] theorem supervisorHeard_inv {s : State} (h : Inv s) : Inv (s.supervisorHeard) := by
  have h1 : Inv (s.updPort .sup fun p => { p with up := true, silence := true }) :=
    updPort_inv h .sup (fun hp => hp) (fun m hm => by cases hm)
  unfold supervisorHeard
  dsimp only
  split
  · exact h1
  · exact planReturn_inv h1

theorem updTest_inv {s : State} (h : Inv s) (m : MachineId) {f : LinkTest → LinkTest}
    (hi : (s.mlink m).test.internalErrors ≤ 65535 → (f (s.mlink m).test).internalErrors ≤ 65535)
    (hr : (s.mlink m).test.received ≤ 4294967295 → (f (s.mlink m).test).received ≤ 4294967295)
    (ha : (f (s.mlink m).test).active = true → (s.mlink m).test.active = true) : Inv (s.updTest m f) := by
  obtain ⟨a, b, c, d, e⟩ := link_ok h m
  exact updLink_inv h m ⟨a, b, hi c, hr d, fun x => e (ha x)⟩

@[simp] theorem startTest_inv {s : State} (h : Inv s) (m : MachineId) : Inv (s.startTest m) := by
  obtain ⟨a, b, c, d, e⟩ := link_ok h m
  unfold startTest
  dsimp only
  have h1 : ∀ up, up = false → Inv (s.updLink m fun k => { k with
      queue := [], sending := none, line := [], port := { k.port with rx := .hunting, silence := false, up := up },
      test := { k.test with active := true, internalErrors := 0, reported := 0, received := 0, seeded := 0, generator := 0x7FFF#15 } }) :=
    fun up hup => updLink_inv h m ⟨by simp, b, by simp, by simp, fun _ => ⟨hup, rfl, rfl⟩⟩
  split
  · unfold goOffline
    dsimp only
    refine handOffline_inv (updMachine_inv (raise_inv ?_ _) _ _) m
    have := h1 false rfl
    cases m <;> exact this
  · rename_i hup
    have hup : (s.lnk.mach.get m).port.up = false := by
      cases m <;> simpa [online, mlink, updTest, updLink, Quad.get, Quad.set] using hup
    have := h1 _ hup
    cases m <;> exact this

@[simp] theorem linkTestOp_inv {s : State} (h : Inv s) (m : MachineId) : Inv (s.linkTestOp m).1 := by
  unfold linkTestOp
  try dsimp only
  (repeat' split) <;> simp +contextual (maxDischargeDepth := 40) [h, OvenRec.Ok, PushRec.Ok, Inspection.Ok, Planner.Ok]

@[simp] theorem testReadOp_inv {s : State} (h : Inv s) (m : MachineId) : Inv (s.testReadOp m).1 := by
  refine updTest_inv h m ?_ ?_ ?_ <;> simp only [copyCount] <;> split <;> simp_all

@[simp] theorem testEndOp_inv {s : State} (h : Inv s) (m : MachineId) : Inv (s.testEndOp m).1 := by
  have h1 : Inv (s.updTest m fun t => { t with active := false, seeded := 0 }) :=
    updTest_inv h m (fun x => x) (fun x => x) (by simp)
  unfold testEndOp
  split
  · dsimp only
    refine updPort_inv h1 _ ?_ ?_
    · exact fun x => x
    · exact fun _ _ => .inl rfl
  · exact h

@[simp] theorem readyExpire_inv {s : State} (h : Inv s) (n : Nat) : Inv (s.readyExpire n) := by
  unfold readyExpire
  try dsimp only
  (repeat' split) <;> simp +contextual (maxDischargeDepth := 40) [h, OvenRec.Ok, PushRec.Ok, Inspection.Ok, Planner.Ok]

@[simp] theorem dueExpire_inv {s : State} (h : Inv s) : Inv (s.dueExpire) := by
  unfold dueExpire
  try dsimp only
  (repeat' split) <;> simp +contextual (maxDischargeDepth := 40) [h, OvenRec.Ok, PushRec.Ok, Inspection.Ok, Planner.Ok]

@[simp] theorem holdOverExpire_inv {s : State} (h : Inv s) : Inv (s.holdOverExpire) := by
  unfold holdOverExpire
  try dsimp only
  (repeat' split) <;> simp +contextual (maxDischargeDepth := 40) [h, OvenRec.Ok, PushRec.Ok, Inspection.Ok, Planner.Ok]

@[simp] theorem deadlineExpire_inv {s : State} (h : Inv s) (m : MachineId) : Inv (s.deadlineExpire m) := by
  unfold deadlineExpire
  try dsimp only
  (repeat' split) <;> simp +contextual (maxDischargeDepth := 40) [h, OvenRec.Ok, PushRec.Ok, Inspection.Ok, Planner.Ok]

@[simp] theorem ramTimerExpire_inv {s : State} (h : Inv s) : Inv (s.ramTimerExpire) := by
  unfold ramTimerExpire
  split
  · rename_i p hp
    split
    · exact stageExpire_inv h (push_ok h hp)
    · exact h
  · exact h

@[simp] theorem lateTimerExpire_inv {s : State} (h : Inv s) : Inv (s.lateTimerExpire) := by
  unfold lateTimerExpire
  split
  · rename_i p hp
    split
    · exact stageExpire_inv h (push_ok h hp)
    · exact h
  · exact h

@[simp] theorem confirmTimerExpire_inv {s : State} (h : Inv s) (n : Nat) (d : Side) :
    Inv (s.confirmTimerExpire n d) := by
  unfold confirmTimerExpire
  try dsimp only
  (repeat' split) <;> simp +contextual (maxDischargeDepth := 40) [h, OvenRec.Ok, PushRec.Ok, Inspection.Ok, Planner.Ok]

@[simp] theorem taskTimerExpire_inv {s : State} (h : Inv s) (d : Side) : Inv (s.taskTimerExpire d) := by
  unfold taskTimerExpire
  split
  · rename_i e he
    exact taskTimeout_inv h d (List.mem_of_find?_eq_some he)
  · exact h

@[simp] theorem visitTimerExpire_inv {s : State} (h : Inv s) (d : Side) : Inv (s.visitTimerExpire d) := by
  unfold visitTimerExpire
  try dsimp only
  (repeat' split) <;> simp +contextual (maxDischargeDepth := 40) [h, OvenRec.Ok, PushRec.Ok, Inspection.Ok, Planner.Ok]

@[simp] theorem isolateExpire_inv {s : State} (h : Inv s) : Inv (s.isolateExpire) := by
  unfold isolateExpire
  split
  · split
    · refine offerValve_inv ?_ _ _
      exact ⟨h.tb, h.ot, h.pln, h.ilk, h.dru, h.ofu, h.qnu, h.trm, h.lnk, h.cfg, h.tables⟩
    · exact h
  · exact h

@[simp] theorem valveTimerExpire_inv {s : State} (h : Inv s) : Inv (s.valveTimerExpire) := by
  unfold valveTimerExpire
  split
  · rename_i e he
    exact valveTimeout_inv h (List.mem_of_find?_eq_some he)
  · exact h

@[simp] theorem chargeTimerExpire_inv {s : State} (h : Inv s) (n : Nat) : Inv (s.chargeTimerExpire n) := by
  unfold chargeTimerExpire
  split
  · split
    · refine raise_inv ?_ _
      exact ⟨h.tb, h.ot, h.pln, h.ilk, h.dru, h.ofu, h.qnu, h.trm, h.lnk, h.cfg, h.tables⟩
    · exact h
  · exact h

@[simp] theorem moveTimerExpire_inv {s : State} (h : Inv s) : Inv (s.moveTimerExpire) := by
  unfold moveTimerExpire
  try dsimp only
  (repeat' split) <;> simp +contextual (maxDischargeDepth := 40) [h, OvenRec.Ok, PushRec.Ok, Inspection.Ok, Planner.Ok]

@[simp] theorem hotTimerExpire_inv {s : State} (h : Inv s) : Inv (s.hotTimerExpire) := by
  unfold hotTimerExpire
  try dsimp only
  (repeat' split) <;> simp +contextual (maxDischargeDepth := 40) [h, OvenRec.Ok, PushRec.Ok, Inspection.Ok, Planner.Ok]

@[simp] theorem sprayExpire_inv {s : State} (h : Inv s) : Inv (s.sprayExpire) := by
  unfold sprayExpire
  try dsimp only
  (repeat' split) <;> simp +contextual (maxDischargeDepth := 40) [h, OvenRec.Ok, PushRec.Ok, Inspection.Ok, Planner.Ok]

@[simp] theorem drainExpire_inv {s : State} (h : Inv s) : Inv (s.drainExpire) := by
  unfold drainExpire
  try dsimp only
  (repeat' split) <;> simp +contextual (maxDischargeDepth := 40) [h, OvenRec.Ok, PushRec.Ok, Inspection.Ok, Planner.Ok]

@[simp] theorem coolExpire_inv {s : State} (h : Inv s) (b : Nat) : Inv (s.coolExpire b) := by
  unfold coolExpire
  split
  · split
    · refine startDischarge_inv ?_
      rename_i o dump t hb _
      have h := setBay_inv h b (r := .cooled o dump s.now) hb (by simp) (by simp)
      exact ⟨h.tb, h.ot, h.pln, h.ilk, h.dru, h.ofu, h.qnu, h.trm, h.lnk, h.cfg, h.tables⟩
    · exact h
  · exact h

@[simp] theorem gateExpire_inv {s : State} (h : Inv s) : Inv (s.gateExpire) := by
  unfold gateExpire
  (repeat' split) <;> try exact h
  rename_i hb _
  exact gateEnd_inv h hb

theorem forEach_inv {s : State} (h : Inv s) {f : State → Nat → State} (hf : ∀ {t}, Inv t → ∀ n, Inv (f t n)) (l : List Nat) :
    Inv (forEach f l s) := by
  induction l generalizing s with
  | nil => exact h
  | cons a l ih => exact ih (hf h a)

@[simp] theorem sweepOnce_inv {s : State} (h : Inv s) : Inv (s.sweepOnce) := by
  have h1 : ∀ l, Inv (forEach overdueCheck l (forEach readyExpire l s)) := fun l =>
    forEach_inv (forEach_inv h (fun ht n => readyExpire_inv ht n) l) (fun ht n => overdueCheck_inv ht n) l
  unfold sweepOnce
  dsimp only
  refine gateExpire_inv (forEach_inv (drainExpire_inv (sprayExpire_inv (hotTimerExpire_inv (moveTimerExpire_inv
    (forEach_inv (valveTimerExpire_inv (isolateExpire_inv (visitTimerExpire_inv (visitTimerExpire_inv
      (taskTimerExpire_inv (taskTimerExpire_inv
      (forEach_inv ?_ (fun ht n => confirmTimerExpire_inv (confirmTimerExpire_inv ht n .ps) n .cs) _) _) _) _) _)))
    (fun ht n => chargeTimerExpire_inv ht n) _)))))
    (fun ht n => coolExpire_inv ht n) _)
  simp (maxDischargeDepth := 40) [h1]

@[simp] theorem sweeps_inv {s : State} (h : Inv s) (k : Nat) : Inv (sweeps k s) :=
  sweeps_keeps (P := Inv) sweepOnce_inv k h

@[simp] theorem heldSweep_inv {s : State} (h : Inv s) : Inv (s.heldSweep) := by
  unfold heldSweep
  split
  · exact h
  · exact sweeps_inv h _

@[simp] theorem kick_inv {s : State} (h : Inv s) : Inv s.kick := by
  have hk : ∀ k : MLink, k.Ok → (kickLink k).Ok := fun k ⟨a, b, c, d, e⟩ => by
    unfold kickLink
    dsimp only
    split
    · rename_i ht
      simp only [Bool.and_eq_true, Bool.not_eq_true'] at ht
      split
      · rename_i f rest hq
        rw [hq] at a
        split <;> exact ⟨by simp at a ⊢; omega, b, c, d, fun x => absurd (show k.test.active = true from x) (by simp [ht.2])⟩
      · split <;> exact ⟨a, b, c, d, e⟩
    · split <;> exact ⟨a, b, c, d, e⟩
  have h1 : Inv s.kickSup := by
    obtain ⟨x, y, z, w⟩ := h.lnk
    unfold kickSup
    split
    · exact h
    · split
      · rename_i a rest ha
        rw [ha] at y
        refine ⟨h.tb, h.ot, h.pln, h.ilk, h.dru, h.ofu, h.qnu, h.trm, ⟨x, ?_, z, w⟩, h.cfg, h.tables⟩
        dsimp only
        split
        · simp at y ⊢; omega
        · simpa using y
      · split
        · split
          · rename_i n rest hn
            rw [hn] at z
            exact ⟨h.tb, h.ot, h.pln, h.ilk, h.dru, h.ofu, h.qnu, h.trm, ⟨x, y, by simp at z ⊢; omega, w⟩, h.cfg, h.tables⟩
          · exact h
        · exact h
  obtain ⟨x, y, z, a, b, c, d⟩ := h1.lnk
  exact ⟨h1.tb, h1.ot, h1.pln, h1.ilk, h1.dru, h1.ofu, h1.qnu, h1.trm, ⟨x, y, z, hk _ a, hk _ b, hk _ c, hk _ d⟩, h1.cfg,
    h1.tables⟩

@[simp] theorem settle_inv {s : State} (h : Inv s) : Inv s.settle := kick_inv (heldSweep_inv h)

@[simp] theorem idle_inv {s : State} (h : Inv s) : Inv s.idle := by
  have hk : ∀ k : MLink, k.Ok → (sendTestChar k).Ok := fun k hk => by
    unfold sendTestChar
    split
    · exact hk
    · exact hk
  obtain ⟨x, y, z, a, b, c, d⟩ := h.lnk
  exact ⟨h.tb, h.ot, h.pln, h.ilk, h.dru, h.ofu, h.qnu, h.trm, ⟨x, y, z, hk _ a, hk _ b, hk _ c, hk _ d⟩, h.cfg,
    h.tables⟩

theorem machineFrame_inv {s : State} (h : Inv s) (m : MachineId) {body : State → State}
    (hb : ∀ {t}, Inv t → (t.mlink m).test.active = false → Inv (body t)) : Inv (machineFrame m body s) := by
  unfold machineFrame
  split
  · exact h
  · rename_i ht
    refine hb (updPort_inv h _ ?_ ?_) ?_
    · exact fun x => x
    · exact fun _ _ => .inl rfl
    · simpa [mlink] using ht

theorem request_inv {s : State} (h : Inv s) (tag : Byte) {body : State → State × Reply}
    (hb : ∀ {t}, Inv t → Inv (body t).1) (ha : ∀ t, (body t).1.lnk.sup.answers = t.lnk.sup.answers) :
    Inv (request tag body s) := by
  unfold request
  split
  · exact discard_inv h _ _
  · rename_i hl
    have h1 := hb (supervisorHeard_inv h)
    have h2 := ha s.supervisorHeard
    simp at h2
    obtain ⟨x, y, z⟩ := h1.lnk
    refine ⟨h1.tb, h1.ot, h1.pln, h1.ilk, h1.dru, h1.ofu, h1.qnu, h1.trm, ⟨x, ?_, z⟩, h1.cfg, h1.tables⟩
    simp [pushAnswer, h2]
    omega

end State

end Sys2Proof.Machine
end

