-- ==== Sys2Proof/Laws/InvF.lean ====
section
/-! SUPPORT. `Inv` under the operations of the reports, setup blocks, commands and queries. -/

set_option linter.all false

namespace Sys2Proof.Machine

open Sys2Proof

namespace State

@[simp] theorem reject_inv {s : State} (h : Inv s) (m : MachineId) (rep : ReportName) (oven : Option Nat) :
    Inv (s.reject m rep oven) := by
  unfold reject
  try dsimp only
  (repeat' split) <;> simp +contextual (maxDischargeDepth := 40) [h, OvenRec.Ok, PushRec.Ok, Inspection.Ok, Planner.Ok]

theorem updOven_inv_at {s : State} (h : Inv s) (n : Nat) {f : OvenRec → OvenRec}
    (hf : ∀ o, s.oven n = some o → o.Ok → (f o).Ok) (hs : ∀ o, (f o).sec = o.sec)
    (hc : ∀ o, (f o).state = .charging → o.state = .charging) : Inv (s.updOven n f) := by
  refine ⟨h.tb, ⟨by simpa using h.ot.1, upd1_forall_at n _ hf h.ot.2.1, OneCharging.upd1 h.ot.2.2 n hs hc⟩, h.pln, h.ilk,
    h.dru, h.ofu, h.qnu, h.trm, h.lnk, h.cfg, ?_⟩
  obtain ⟨t1, t2, t3, t4, t5, t6⟩ := h.tables
  refine ⟨by simpa using t1, by simpa using t2, t3, by simpa using t4, by simpa using t5, fun hb => ?_⟩
  have := t6 hb
  simp only [updOven, this]
  cases n <;> rfl

@[simp] theorem doorOffCovered_inv {s : State} (h : Inv s) (m : MachineId) (d : Side) (n : Nat) :
    Inv (s.doorOffCovered m d n) := by
  have h0 := usePermit_inv h m
  unfold doorOffCovered
  dsimp only
  refine dispatchDoor_inv (retest_inv ?_) _
  split
  · rename_i hr
    refine ovenChanged_inv (planPushBegins_inv (doorGoesOff_inv (setPush_inv (updOven_inv_at h0 n ?_ ?_ ?_) ?_) n d) n) n
    · intro o hn ho
      have hr : o.state = .ready := by simpa [ovenIs, State.ovenState, hn] using hr
      exact ⟨ho.1, ho.2.1, ho.2.2.1, ho.2.2.2.1, by simp [ho.2.2.2.2.2 (.inr (.inl hr))]⟩
    · exact fun _ => rfl
    · simp
    · intro x hx
      obtain rfl := Option.some.inj hx
      exact ⟨by simp [opening], by simp [opening]⟩
  · exact doorGoesOff_inv h0 n d

@[simp] theorem doorOffBreach_inv {s : State} (h : Inv s) (m : MachineId) (d : Side) (n : Nat) :
    Inv (s.doorOffBreach m d n) := by
  unfold doorOffBreach
  try dsimp only
  (repeat' split) <;> simp +contextual (maxDischargeDepth := 40) [h, OvenRec.Ok, PushRec.Ok, Inspection.Ok, Planner.Ok]

@[simp] theorem takeDoorOff_inv {s : State} (h : Inv s) (m : MachineId) (d : Side) (n : Nat) :
    Inv (s.takeDoorOff m d n) := by
  unfold takeDoorOff
  try dsimp only
  (repeat' split) <;> simp +contextual (maxDischargeDepth := 40) [h, OvenRec.Ok, PushRec.Ok, Inspection.Ok, Planner.Ok]

@[simp] theorem takeDoorOn_inv {s : State} (h : Inv s) (d : Side) (n : Nat) : Inv (s.takeDoorOn d n) := by
  have h1 := doorOnFact_inv h n d
  unfold takeDoorOn
  split
  · rename_i t ht
    rw [ht] at h1
    exact dispatchDoor_inv (completionTest_inv h1) _
  · rename_i t ht
    rw [ht] at h1
    exact h1

@[simp] theorem ramStartCovered_inv {s : State} (h : Inv s) (n : Nat) : Inv (s.ramStartCovered n) := by
  unfold ramStartCovered
  try dsimp only
  (repeat' split) <;> simp +contextual (maxDischargeDepth := 40) [h, OvenRec.Ok, PushRec.Ok, Inspection.Ok, Planner.Ok]

@[simp] theorem ramStartBreach_inv {s : State} (h : Inv s) (n : Nat) : Inv (s.ramStartBreach n) := by
  unfold ramStartBreach
  try dsimp only
  (repeat' split) <;> simp +contextual (maxDischargeDepth := 40) [h, OvenRec.Ok, PushRec.Ok, Inspection.Ok, Planner.Ok]

@[simp] theorem takeRamStart_inv {s : State} (h : Inv s) (n : Nat) : Inv (s.takeRamStart n) := by
  unfold takeRamStart
  try dsimp only
  (repeat' split) <;> simp +contextual (maxDischargeDepth := 40) [h, OvenRec.Ok, PushRec.Ok, Inspection.Ok, Planner.Ok]

@[simp] theorem ramSequence_inv {s : State} (h : Inv s) (n : Nat) (rep : ReportName) :
    Inv (s.ramSequence n rep) := by
  unfold ramSequence
  try dsimp only
  (repeat' split) <;> simp +contextual (maxDischargeDepth := 40) [h, OvenRec.Ok, PushRec.Ok, Inspection.Ok, Planner.Ok]

@[simp] theorem takeRamAtEnd_inv {s : State} (h : Inv s) (n : Nat) : Inv (s.takeRamAtEnd n) := by
  have h1 := writeRam_inv h .atEnd
  unfold takeRamAtEnd
  dsimp only
  split
  · rename_i p hp
    split
    · rename_i hc
      refine takeRamEnd_inv h1 (push_ok h1 hp) ?_ false
      rintro hs
      simp [hs] at hc
    · exact retest_inv (raise_inv h1 _)
  · exact retest_inv (raise_inv h1 _)

@[simp] theorem takeRamHome_inv {s : State} (h : Inv s) (n : Nat) : Inv (s.takeRamHome n) := by
  have h1 := writeRam_inv h .home
  unfold takeRamHome
  dsimp only
  split
  · rename_i p hp
    split
    · rename_i hc
      refine completionTest_inv (enterClosing_inv h1 (push_ok h1 hp) ?_ false)
      rintro hs
      simp [hs] at hc
    · split
      · exact retest_inv h1
      · exact retest_inv (raise_inv h1 _)
  · exact retest_inv (raise_inv h1 _)

@[simp] theorem takeChargeStart_inv {s : State} (h : Inv s) (n : Nat) : Inv (s.takeChargeStart n) := by
  unfold takeChargeStart
  try dsimp only
  (repeat' split) <;> simp +contextual (maxDischargeDepth := 40) [h, OvenRec.Ok, PushRec.Ok, Inspection.Ok, Planner.Ok]

/-- The ASSIGNED bay takes its load: it is COOLING, and the load record goes (R153). -/
theorem fillBay_inv {s : State} (h : Inv s) {b o : Nat} {r : BayRec} (hb : s.bay b = some (.assigned o))
    (hr : ∀ t, r ≠ .free t) : Inv { s.setBay b r with qnu.load := none } := by
  obtain ⟨h1, h2, h3, h4, h5, h6, ⟨q1, q2, q3, q4, q5⟩, h8, h9, h10, h11⟩ := h
  refine ⟨h1, h2, h3, h4, h5, h6, ⟨q1, by simpa using q2, q3, fun c => ?_, fun l c hl => by cases hl⟩, h8, h9, h10, h11⟩
  show c ∈ s.qnu.free ↔ _
  rw [q4 c]
  simp only [QuenchUnit.isFree, setBay_bays, nth1_upd1]
  split
  · rename_i e
    subst e
    simp only [show nth1 s.qnu.bays b = some (.assigned o) from hb, Option.map_some, Option.some.injEq]
    exact ⟨fun ⟨t, ht⟩ => absurd ht (by simp), fun ⟨t, ht⟩ => absurd ht (hr t)⟩
  · exact Iff.rfl

theorem raise_noLoad (s : State) (b : NoticeBody) :
    { s.raise b with qnu.load := none } = ({ s with qnu.load := none } : State).raise b := by
  unfold raise
  dsimp only
  split <;> rfl

@[simp] theorem takeDumpDone_inv {s : State} (h : Inv s) (b : Nat) : Inv (s.takeDumpDone b) := by
  unfold takeDumpDone
  split
  · rename_i l hl
    split
    · rename_i hc
      dsimp only
      refine sendOnward_inv (updCar_inv ?_ _)
      obtain ⟨o, ho⟩ := h.qnu.2.2.2.2 l b hl hc.2
      rw [raise_noLoad]
      exact raise_inv (fillBay_inv h ho (by simp)) _
    · exact raise_inv h _
  · exact raise_inv h _

theorem fixedOk_iff {mode : SlotMode} {fixedPush : Option Time32} :
    fixedOk mode fixedPush = true ↔ (mode = .fixed ↔ (fixedPush.map BitVec.toNat).isSome) := by
  unfold fixedOk
  cases mode <;> cases fixedPush <;> simp <;> decide

theorem numbers_length (n : Nat) : (numbers 1 n).length = n := by simp [numbers]

/-- A section number counts from the first and stays within the sections the battery has (R8). -/
theorem sectionFrom_range {n last : Nat} (hn : n ≤ last) (l : List Nat) (hl : l.getLast? = some last) (c : Nat) :
    c ≤ sectionFrom c n l ∧ sectionFrom c n l + 1 ≤ c + l.length := by
  induction l generalizing c with
  | nil => cases hl
  | cons a l ih =>
    rw [sectionFrom]
    split
    · simp
    · cases l with
      | nil =>
        simp at hl
        omega
      | cons b l =>
        have := ih (by simpa using hl) (c + 1)
        simp only [List.length_cons] at this ⊢
        omega

theorem newTables_inv {s : State} (h : Inv s) {nOv k : Nat} {lasts : List Nat} (hv : batteryOk nOv k lasts = true)
    (hb : s.cfg.loaded.battery = true) (hp : s.dru.rounds.ps.pointer = 1 ∧ s.dru.rounds.cs.pointer = 1) :
    Inv (newTables nOv k lasts s) := by
  simp only [batteryOk, within, Bool.and_eq_true, decide_eq_true_eq, beq_iff_eq] at hv
  obtain ⟨⟨⟨⟨⟨-, hn⟩, -, hk⟩, hlen⟩, -⟩, hlast⟩ := hv
  have hot : ∀ o ∈ (newTables nOv k lasts s).ot, o.Ok ∧ o.state = .out := by
    intro o ho
    obtain ⟨i, hi, rfl⟩ := List.mem_map.1 ho
    have := sectionFrom_range (mem_numbers.1 hi).2 lasts hlast 1
    exact ⟨⟨by simp only [OvenRec.fresh]; omega, by simp [OvenRec.fresh]⟩, rfl⟩
  refine ⟨h.tb, ⟨?_, fun o ho => (hot o ho).1, ?_⟩, h.pln, h.ilk, ⟨?_, h.dru.2⟩, ⟨?_, ?_, h.ofu.2.2⟩, h.qnu, h.trm, h.lnk,
    h.cfg, ?_⟩
  · simpa [newTables, numbers_length, updCar] using hn
  · intro i j a b ha _ hca
    rw [(hot a (nth1_mem ha)).2] at hca
    cases hca
  · intro p hp
    obtain ⟨-, rfl⟩ := List.mem_replicate.1 hp
    simp [DoorRec.fresh]
  · simpa [newTables, updCar] using hk
  · intro r hr
    obtain ⟨-, rfl⟩ := List.mem_replicate.1 hr
    simp [SecRec.Ok, SecRec.fresh]
  · refine ⟨?_, ?_, h.tables.2.2.1, ?_, ?_, fun hf => absurd (hf.symm.trans hb) (by decide)⟩ <;>
      simp [newTables, numbers_length, updCar, PointerOk, hp] <;> omega

theorem numbers_nodup (n : Nat) : (numbers 1 n).Nodup := by
  refine List.Nodup.map (fun a b hab => ?_) List.nodup_range
  omega

/-- Every bay of a wharf of FREE bays is FREE. -/
theorem isFree_replicate {b n t : Nat} :
    (∃ x, nth1 (List.replicate n (BayRec.free t)) b = some (.free x)) ↔ 1 ≤ b ∧ b ≤ n := by
  cases b with
  | zero => simp [nth1]
  | succ b => simp [nth1, List.getElem?_replicate]

/-- A wharf whose bays are all FREE, and no load. -/
theorem freshBays_ok {q : QuenchUnit} {t : Nat} (hv : wharfOk q.vals = true)
    (hq : q.bays = List.replicate q.vals.bays (.free t) ∧ q.free = numbers 1 q.vals.bays ∧ q.load = none) : q.Ok := by
  obtain ⟨h1, h2, h3⟩ := hq
  refine ⟨hv, by simp [h1], h2 ▸ numbers_nodup _, fun b => ?_, fun l b hl => by simp [h3] at hl⟩
  rw [h2, QuenchUnit.isFree, h1]
  exact mem_numbers.trans isFree_replicate.symm

/-- What a repeated BATTERY discards; the block is taken again in the same event. -/
theorem reload_inv {s : State} (h : Inv s) : Inv (s.reload.load fun l => { l with battery := true }) := by
  obtain ⟨⟨a1, a2⟩, b, ⟨c1, c2, c3, c4, c5, c6, c7, c8⟩, ⟨d1, d2⟩, ⟨e1, e2, e3, e4, e5, e6⟩, f, g, i, j, k, l⟩ := h
  refine ⟨⟨a1, a2⟩, b, ⟨c1, c2, c3, (by decide : seriesOk seriesDefaults = true), (by decide : seriesOk seriesDefaults = true), c6, c7, c8⟩, ⟨d1, d2⟩,
    ⟨e1, e2, e3, ?_, ?_, (by decide : doorsOk doorDefaults = true)⟩, f, ?_, i, j, ?_, ?_⟩
  · simp [Inspection.Ok, reload, reloadRound, State.load]
  · simp [Inspection.Ok, reload, reloadRound, State.load]
  · exact freshBays_ok (show wharfOk wharfDefaults = true by decide)
      ⟨rfl, show [1, 2, 3, 4, 5, 6] = numbers 1 wharfDefaults.bays by decide, rfl⟩
  · show timingOk timingDefaults = true
    decide
  · refine ⟨l.1, l.2.1, l.2.2.1, ?_, ?_, by simp [State.load]⟩ <;>
      simp [PointerOk, reload, reloadRound, State.load] <;> omega

theorem takeBattery_inv {s : State} (h : Inv s) {nOv k : Nat} {lasts : List Nat} (hv : batteryOk nOv k lasts = true) :
    Inv (takeBattery nOv k lasts s) := by
  unfold takeBattery
  dsimp only
  split
  · exact newTables_inv (s := s.reload.load fun l => { l with battery := true }) (reload_inv h) hv rfl ⟨rfl, rfl⟩
  · rename_i hb
    have ht := h.tables
    have h0 := ht.2.2.2.2.2 (by simpa using hb)
    have hp : s.dru.rounds.ps.pointer = 1 ∧ s.dru.rounds.cs.pointer = 1 := by
      have h1 := ht.2.2.2.1
      have h2 := ht.2.2.2.2.1
      simp only [h0, PointerOk, List.length_nil] at h1 h2
      omega
    exact newTables_inv (s := s.load fun l => { l with battery := true }) (load_inv h (by simp)) hv rfl hp

theorem takeSeries_inv {s : State} (h : Inv s) {p : SeriesParams} (hp : seriesOk p = true) (start : Option Time32) :
    Inv (takeSeries p start s) := by
  unfold takeSeries
  refine load_inv (updPlan_inv h fun ho => ?_) id
  obtain ⟨c1, c2, c3, c4, c5, c6, c7, c8⟩ := ho
  refine ⟨c1, c2, c3, ?_, hp, c6, c7, c8⟩
  dsimp only
  split
  · exact c4
  · exact hp

theorem takeTiming_inv {s : State} (h : Inv s) {v : Timing} (hv : timingOk v = true) : Inv (takeTiming v s) := by
  have h1 : Inv (({ s with cfg.timing := v } : State).load fun l => { l with timing := true }) :=
    load_inv (s := { s with cfg.timing := v })
      ⟨h.tb, h.ot, h.pln, h.ilk, h.dru, h.ofu, h.qnu, h.trm, h.lnk, hv, h.tables⟩ id
  unfold takeTiming
  dsimp only
  split
  · refine retest_inv ?_
    have h2 : Inv (if s.cfg.timing.w = v.w ∧ s.cfg.timing.l = v.l then
        (({ s with cfg.timing := v } : State).load fun l => { l with timing := true }) else
        (({ s with cfg.timing := v } : State).load fun l => { l with timing := true }).readySweep) := by
      split
      · exact h1
      · exact readySweep_inv h1
    split
    · split
      · exact h2
      · exact setIsolate_inv h2 _ _
    · exact h2
  · exact h1

theorem takePressure_inv {s : State} (h : Inv s) (k : Nat) {p : PressureParams} (hp : pressureOk p = true) : Inv (takePressure k p s) := by
  unfold takePressure
  refine load_inv (updSec_inv h k fun r hr => ?_) id
  refine ⟨hr.1, hr.2.1, hr.2.2.1, hr.2.2.2.1, ?_, ?_, ?_⟩
  · intro x hx
    obtain rfl := Option.some.inj hx
    exact hp
  · simp
  · intro v hv
    obtain ⟨w, hw, rfl⟩ := Option.map_eq_some_iff.1 hv
    have hw := hr.2.2.2.2.2.2 w hw
    exact ⟨hw.1, hw.2.1, by simp [RunCounters.zero]⟩

theorem takeWharf_inv {s : State} (h : Inv s) {v : WharfVals} (hv : wharfOk v = true) : Inv (takeWharf v s).1 := by
  unfold takeWharf
  dsimp only
  split
  · rename_i hb
    rw [ok_fst]
    exact load_inv (s := { s with qnu := { s.qnu with vals := v } })
      ⟨h.tb, h.ot, h.pln, h.ilk, h.dru, h.ofu, ⟨hv, hb.symm, h.qnu.2.2⟩, h.trm, h.lnk, h.cfg, h.tables⟩ id
  · split
    · rename_i ha
      rw [ok_fst]
      refine load_inv (s := { s with qnu := { s.qnu with
        vals := v, bays := List.replicate v.bays (.free s.now), free := numbers 1 v.bays, discharge := [] } })
        ⟨h.tb, h.ot, h.pln, h.ilk, h.dru, h.ofu, ?_, h.trm, h.lnk, h.cfg, h.tables⟩ id
      refine ⟨hv, by simp, numbers_nodup _, fun b => mem_numbers.trans isFree_replicate.symm, fun l b hl hb => ?_⟩
      obtain ⟨o, ho⟩ := h.qnu.2.2.2.2 l b hl hb
      have := List.all_eq_true.1 ha _ (nth1_mem ho)
      cases this
    · exact h

theorem takeDoors_inv {s : State} (h : Inv s) {v : DoorVals} (hv : doorsOk v = true) : Inv (takeDoors v s) := by
  unfold takeDoors
  refine load_inv (s := { s with dru.vals := v }) ?_ id
  obtain ⟨e1, e2, e3, e4, e5, e6⟩ := h.dru
  exact ⟨h.tb, h.ot, h.pln, h.ilk, ⟨e1, e2, e3, e4, e5, hv⟩, h.ofu, h.qnu, h.trm, h.lnk, h.cfg, h.tables⟩

@[simp] theorem takeTerminal_inv {s : State} (h : Inv s) (t : Nat) (fn : TermFn) (invert : Bool) (drive : Drive) (edge : Edge) :
    Inv (takeTerminal t fn invert drive edge s).1 := by
  unfold takeTerminal
  split
  · exact h
  · rename_i hc
    split
    · exact h
    · rename_i r hr
      rw [ok_fst]
      refine load_inv (assignTerminal_inv h t hr ?_ invert drive edge) id
      cases h1 : TermFn.shared fn
      · right
        simpa [h1] using hc
      · left; rfl

@[simp] theorem takeLink_inv {s : State} (h : Inv s) (l : LinkId) (v : LineSettings) : Inv (takeLink l v s).1 := by
  unfold takeLink
  dsimp only
  split
  · dsimp only
    exact load_inv h id
  · rename_i m
    split
    · exact h
    · rw [ok_fst]
      refine load_inv (updLink_inv h m ?_) id
      obtain ⟨a, b, c, d, e⟩ := link_ok h m
      exact ⟨a, b, c, d, fun x => ⟨(e x).1, (e x).2.1, rfl⟩⟩

@[simp] theorem loadNotice_inv {s : State} (h : Inv s) (n : Nat) (d : Side) : Inv (s.loadNotice n d) := by
  unfold loadNotice
  try dsimp only
  (repeat' split) <;> simp +contextual (maxDischargeDepth := 40) [h, OvenRec.Ok, PushRec.Ok, Inspection.Ok, Planner.Ok]

theorem takeOvenLoad_inv {s : State} (h : Inv s) {v : OvenLoad} (hv : ovenLoadOk s v = true) : Inv (takeOvenLoad v s) := by
  simp only [ovenLoadOk, Bool.and_eq_true, Bool.not_eq_true'] at hv
  obtain ⟨⟨⟨⟨⟨-, hst⟩, hg⟩, hf⟩, -⟩, -⟩ := hv
  have h1 := updOven_inv (f := fun (o : OvenRec) => { o with
    state := v.state, chargeEnd := v.chargeEnd.map BitVec.toNat, target := v.target, mode := v.mode,
    fixedPush := v.fixedPush.map BitVec.toNat, breach := false, overdue := false, stickers := 0 }) h v.oven
    (fun o ho => by
      refine ⟨ho.1, by simpa [within] using hg, by simp, fixedOk_iff.1 hf, ?_⟩
      cases hs : v.state <;> cases hc : v.chargeEnd <;> simp_all)
    (fun _ => rfl) fun o hs => by
      have hs : v.state = .charging := hs
      simp [hs] at hst
  have hl : ∀ (th : Nat) (st : Option DoorState), (loadedDoor th st).leaks ≤ 15 := fun th st => by
    simp only [loadedDoor]; split <;> omega
  unfold takeOvenLoad
  dsimp only
  refine load_inv (loadNotice_inv (loadNotice_inv ?_ _ _) _ _) id
  have h2 := updDoor_inv (updDoor_inv h1 v.oven .ps (f := fun _ => loadedDoor s.dru.vals.cleanThreshold v.doorPs) ?_)
    v.oven .cs (f := fun _ => loadedDoor s.dru.vals.cleanThreshold v.doorCs) ?_
  · exact ⟨h2.tb, h2.ot, h2.pln, h2.ilk, h2.dru, h2.ofu, h2.qnu, h2.trm, h2.lnk, h2.cfg, h2.tables.1,
      by simpa using h2.tables.2.1, h2.tables.2.2⟩
  · exact fun _ _ => hl _ _
  · exact fun _ _ => hl _ _

@[simp] theorem setTimeOp_inv {s : State} (h : Inv s) (t : Time32) : Inv (setTimeOp t s).1 := by
  unfold setTimeOp
  split
  · rename_i hc
    have h1 : Inv { s with tb.time := t.toNat } := by
      refine ⟨⟨?_, h.tb.2⟩, h.ot, h.pln, h.ilk, h.dru, h.ofu, h.qnu, h.trm, h.lnk, h.cfg, h.tables⟩
      have := t.isLt
      simp only [tMax]
      omega
    dsimp only
    split
    · exact raise_inv h1 _
    · exact h1
  · exact h

theorem moveOven_inv {s : State} (h : Inv s) (n : Nat) {st old : OvenState} (hs : s.ovenIs n old = true)
    (ho : old = .out ∨ old = .empty) (hst : st = .out ∨ st = .empty) : Inv (s.moveOven n st) := by
  unfold moveOven
  refine ovenChanged_inv (updOven_inv_at h n (fun o hn hok => ?_) ?_ ?_) n
  · refine ⟨hok.1, hok.2.1, hok.2.2.1, hok.2.2.2.1, ?_⟩
    have hs : o.state = old := by simpa [ovenIs, State.ovenState, hn] using hs
    have := hok.2.2.2.2
    rcases ho with rfl | rfl <;> rcases hst with rfl | rfl <;> simp_all
  · exact fun _ => rfl
  · rcases hst with rfl | rfl <;> simp

@[simp] theorem ovenServiceOp_inv {s : State} (h : Inv s) (n : Nat) (dir : ServiceDir) :
    Inv (ovenServiceOp n dir s).1 := by
  unfold ovenServiceOp
  cases dir <;> dsimp only <;> split
  · rename_i hs
    exact moveOven_inv h n hs (.inl rfl) (.inr rfl)
  · exact h
  · rename_i hs
    exact moveOven_inv h n hs (.inr rfl) (.inl rfl)
  · exact h

@[simp] theorem setTargetOp_inv {s : State} (h : Inv s) (n target : Nat) : Inv (setTargetOp n target s).1 := by
  have h1 : Inv (s.updOven n fun o => { o with target := clampNat 600 2400 target }) :=
    updOven_inv h n (fun o ho => ⟨ho.1, by simp only [clampNat]; omega, ho.2.2⟩) (fun _ => rfl) fun _ ho => ho
  unfold setTargetOp
  dsimp only
  split
  · exact overdueCheck_inv (evalReady_inv h1 n) n
  · exact h1

@[simp] theorem makeupOp_inv {s : State} (h : Inv s) (n : Nat) : Inv (makeupOp n s).1 := by
  unfold makeupOp
  split
  · exact h
  · rename_i hd
    split
    · exact h
    · split
      · exact h
      · rename_i hl
        refine planReport_inv (makeupCheck_inv (updPlan_inv h fun ho => ?_))
        obtain ⟨c1, c2, c3, c4⟩ := ho
        refine ⟨c1, ?_, ?_, c4⟩
        · simp; omega
        · simp only [List.map_append, List.map_cons, List.map_nil]
          refine List.nodup_append.2 ⟨c3, by simp, fun a ha b hb => ?_⟩
          obtain rfl := List.mem_singleton.1 hb
          rintro rfl
          obtain ⟨e, he, hee⟩ := List.mem_map.1 ha
          exact hd (List.any_eq_true.2 ⟨e, he, by simpa using hee⟩)

@[simp] theorem cancelMakeupOp_inv {s : State} (h : Inv s) (n : Nat) : Inv (cancelMakeupOp n s).1 := by
  unfold cancelMakeupOp
  try dsimp only
  (repeat' split) <;> simp +contextual (maxDischargeDepth := 40) [h, OvenRec.Ok, PushRec.Ok, Inspection.Ok, Planner.Ok]

@[simp] theorem planStartOp_inv {s : State} (h : Inv s) (start : Option Time32) : Inv (planStartOp start s).1 := by
  unfold planStartOp
  split
  · dsimp only
    refine planUpdate_inv (build_inv (updPlan_inv h fun ho => ?_) h.pln.2.2.2.1 _ (by omega) _ (by simp))
    obtain ⟨c1, c2⟩ := ho
    exact ⟨by simp, c2⟩
  · exact h

@[simp] theorem planHaltOp_inv {s : State} (h : Inv s) : Inv (s.planHaltOp).1 := by
  unfold planHaltOp
  try dsimp only
  (repeat' split) <;> simp +contextual (maxDischargeDepth := 40) [h, OvenRec.Ok, PushRec.Ok, Inspection.Ok, Planner.Ok]

@[simp] theorem planResumeReq_inv {s : State} (h : Inv s) : Inv (s.planResumeReq).1 := by
  unfold planResumeReq
  split
  · rename_i hs
    exact planResumeOp_inv h
  · exact h

@[simp] theorem planStageOp_inv {s : State} (h : Inv s) : Inv (s.planStageOp).1 := by
  unfold planStageOp
  try dsimp only
  (repeat' split) <;> simp +contextual (maxDischargeDepth := 40) [h, OvenRec.Ok, PushRec.Ok, Inspection.Ok, Planner.Ok]

@[simp] theorem setModeOp_inv {s : State} (h : Inv s) (n : Nat) (mode : SlotMode) (fixedPush : Option Time32) :
    Inv (setModeOp n mode fixedPush s).1 := by
  unfold setModeOp
  split
  · exact h
  · split
    · exact h
    · rename_i hf _
      rw [ok_fst]
      refine writeMode_inv h n ?_
      exact fixedOk_iff.1 (by simpa using hf)

@[simp] theorem setModeRangeOp_inv {s : State} (h : Inv s) (first last : Nat) (mode : Option SlotMode) (fixedPush : Option Time32) :
    Inv (setModeRangeOp first last mode fixedPush s).1 := by
  unfold setModeRangeOp
  split
  · exact h
  · split
    · exact h
    · split
      · exact h
      · rename_i hc _
        dsimp only
        refine updPlan_inv h fun ho => ?_
        obtain ⟨c1, c2, c3, c4, c5, c6, c7, c8⟩ := ho
        refine ⟨c1, c2, c3, c4, c5, c6, c7, fun x hx => ?_⟩
        obtain rfl := Option.some.inj hx
        simp only [Bool.or_eq_true, not_or, Bool.not_eq_true', Bool.not_eq_false] at hc
        have := hc.2
        exact fixedOk_iff.1 this

@[simp] theorem rangeAbortOp_inv {s : State} (h : Inv s) : Inv (s.rangeAbortOp).1 := by
  unfold rangeAbortOp
  split
  · rename_i r hr
    rw [ok_fst]
    refine updPlan_inv h fun ho => ?_
    obtain ⟨c1, c2, c3, c4, c5, c6, c7, c8⟩ := ho
    refine ⟨c1, c2, c3, c4, c5, c6, c7, fun x hx => ?_⟩
    obtain rfl := Option.some.inj hx
    exact c8 r hr
  · exact h

@[simp] theorem clearBreachOp_inv {s : State} (h : Inv s) (n : Nat) : Inv (clearBreachOp n s).1 := by
  unfold clearBreachOp
  try dsimp only
  (repeat' split) <;> simp +contextual (maxDischargeDepth := 40) [h, OvenRec.Ok, PushRec.Ok, Inspection.Ok, Planner.Ok]

@[simp] theorem pushRetryOp_inv {s : State} (h : Inv s) (n : Nat) : Inv (pushRetryOp n s).1 := by
  unfold pushRetryOp
  split
  · exact h
  · rename_i p hp
    split
    · exact h
    split
    · exact h
    split
    · exact h
    split
    · exact h
    refine retest_inv (setPush_inv h fun x hx => ?_)
    obtain rfl := Option.some.inj hx
    have := push_ok h hp
    exact ⟨⟨by dsimp only; omega, by have := this.1.2; dsimp only; omega⟩, this.2⟩

/-- The oven of an abandoned push is READY again (R16). -/
@[simp] theorem backToReady_inv {s : State} (h : Inv s) (n : Nat) : Inv (s.updOven n backToReady) := by
  refine updOven_inv h n (fun o ho => ?_) (fun o => ?_) fun o => ?_ <;> unfold backToReady <;> split
  · rename_i hs
    exact ⟨ho.1, ho.2.1, ho.2.2.1, ho.2.2.2.1, by simp [ho.2.2.2.2, hs]⟩
  · exact ho
  · rfl
  · rfl
  · simp
  · exact id

@[simp] theorem abandonPush_inv {s : State} (h : Inv s) (p : PushRec) : Inv (s.abandonPush p) := by
  unfold abandonPush
  try dsimp only
  (repeat' split) <;> simp +contextual (maxDischargeDepth := 40) [h, OvenRec.Ok, PushRec.Ok, Inspection.Ok, Planner.Ok]

@[simp] theorem abandonOp_inv {s : State} (h : Inv s) (n : Nat) : Inv (abandonOp n s).1 := by
  unfold abandonOp
  try dsimp only
  (repeat' split) <;> simp +contextual (maxDischargeDepth := 40) [h, OvenRec.Ok, PushRec.Ok, Inspection.Ok, Planner.Ok]

@[simp] theorem leakReportOp_inv {s : State} (h : Inv s) (n : Nat) (side : Option Side) :
    Inv (leakReportOp n side s).1 := by
  unfold leakReportOp
  try dsimp only
  (repeat' split) <;> simp +contextual (maxDischargeDepth := 40) [h, OvenRec.Ok, PushRec.Ok, Inspection.Ok, Planner.Ok]

@[simp] theorem setDamperOp_inv {s : State} (h : Inv s) (k value : Nat) : Inv (setDamperOp k value s).1 := by
  unfold setDamperOp
  split
  · exact h
  · rename_i v hv
    obtain ⟨r, hr, hv⟩ := Option.bind_eq_some_iff.1 hv
    have hro := sec_ok h hr
    refine updSec_inv_at h k fun x hx ho => ?_
    obtain rfl := Option.some.inj (hr.symm.trans hx)
    refine ⟨ho.1, ho.2.1, ho.2.2.1, ho.2.2.2.1, ho.2.2.2.2.1, fun _ => ho.2.2.2.2.2.1 (by simp [hv]), fun w hw => ?_⟩
    obtain rfl := Option.some.inj hw
    exact ⟨by simp, by dsimp only; omega, (hro.2.2.2.2.2.2 v hv).2.2⟩

@[simp] theorem setAutoOp_inv {s : State} (h : Inv s) (k : Nat) : Inv (setAutoOp k s).1 := by
  unfold setAutoOp
  split
  · exact h
  · split
    · exact h
    · rename_i r hr
      split
      · exact h
      · rename_i v hv
        refine updSec_inv_at h k fun x hx ho => ?_
        obtain rfl := Option.some.inj (hr.symm.trans hx)
        refine ⟨ho.1, ho.2.1, ho.2.2.1, ho.2.2.2.1, ho.2.2.2.2.1, fun _ => ho.2.2.2.2.2.1 (by simp [hv]), fun w hw => ?_⟩
        obtain rfl := Option.some.inj hw
        have := ho.2.2.2.2.2.2 v hv
        unfold autoMode
        split
        · rename_i hm
          split
          · have ht := this.1
            simp only [hm] at ht
            exact ⟨by simpa using ht, this.2⟩
          · exact ⟨by simp, this.2⟩
        · exact this

@[simp] theorem setSetpointOp_inv {s : State} (h : Inv s) (k : Nat) (value : Int) :
    Inv (setSetpointOp k value s).1 := by
  unfold setSetpointOp
  split
  · exact h
  · rename_i p hp
    obtain ⟨r, hr, hp⟩ := Option.bind_eq_some_iff.1 hp
    refine updSec_inv_at h k fun x hx ho => ?_
    obtain rfl := Option.some.inj (hr.symm.trans hx)
    refine ⟨ho.1, ho.2.1, ho.2.2.1, ho.2.2.2.1, fun q hq => ?_, by simp, ho.2.2.2.2.2.2⟩
    obtain rfl := Option.some.inj hq
    have := ho.2.2.2.2.1 p hp
    simp only [pressureOk, withinInt, clampSetpoint, clampInt, Bool.and_eq_true, decide_eq_true_eq] at this ⊢
    refine ⟨⟨⟨⟨⟨⟨⟨⟨⟨⟨⟨⟨⟨⟨⟨⟨⟨⟨⟨?_, ?_⟩, ?_⟩, ?_⟩, ?_⟩, ?_⟩, ?_⟩, ?_⟩, ?_⟩, ?_⟩, ?_⟩, ?_⟩, ?_⟩, ?_⟩, ?_⟩, ?_⟩, ?_⟩, ?_⟩, ?_⟩, ?_⟩ <;> first
      | omega
      | exact decide_eq_true (by omega)
      | exact ⟨decide_eq_true (by omega), decide_eq_true (by omega)⟩

@[simp] theorem blockedInMotion_inv {s : State} (h : Inv s) (run : List TrackSpot) :
    Inv (s.blockedInMotion run) := by
  unfold blockedInMotion
  try dsimp only
  (repeat' split) <;> simp +contextual (maxDischargeDepth := 40) [h, OvenRec.Ok, PushRec.Ok, Inspection.Ok, Planner.Ok]

@[simp] theorem trackBlockOp_inv {s : State} (h : Inv s) (first last : Option TrackSpot) :
    Inv (trackBlockOp first last s).1 := by
  unfold trackBlockOp
  split
  · exact h
  · dsimp only
    refine blockedInMotion_inv ?_ _
    exact ⟨h.tb, h.ot, h.pln, h.ilk, h.dru, h.ofu, h.qnu, h.trm, h.lnk, h.cfg, h.tables⟩

@[simp] theorem trackFreeOp_inv {s : State} (h : Inv s) (first last : Option TrackSpot) :
    Inv (trackFreeOp first last s).1 := by
  unfold trackFreeOp
  split
  · exact h
  · refine testMove_inv ?_
    exact ⟨h.tb, h.ot, h.pln, h.ilk, h.dru, h.ofu, h.qnu, h.trm, h.lnk, h.cfg, h.tables⟩

@[simp] theorem writeOutput_inv {s : State} (h : Inv s) (t : Nat) (f : Bool → Bool) :
    Inv (writeOutput t f s).1 := by
  unfold writeOutput
  try dsimp only
  (repeat' split) <;> simp +contextual (maxDischargeDepth := 40) [h, OvenRec.Ok, PushRec.Ok, Inspection.Ok, Planner.Ok]

@[simp] theorem setOutputOp_inv {s : State} (h : Inv s) (t : Nat) (level : Option Bool) :
    Inv (setOutputOp t level s).1 := by
  unfold setOutputOp
  try dsimp only
  (repeat' split) <;> simp +contextual (maxDischargeDepth := 40) [h, OvenRec.Ok, PushRec.Ok, Inspection.Ok, Planner.Ok]

@[simp] theorem clearTerminalOp_inv {s : State} (h : Inv s) (t : Nat) : Inv (clearTerminalOp t s).1 := by
  unfold clearTerminalOp
  try dsimp only
  (repeat' split) <;> simp +contextual (maxDischargeDepth := 40) [h, OvenRec.Ok, PushRec.Ok, Inspection.Ok, Planner.Ok]

@[simp] theorem linkClearOp_inv {s : State} (h : Inv s) (l : Option LinkId) : Inv (linkClearOp l s).1 := by
  unfold linkClearOp
  split
  · exact h
  · rw [ok_fst]
    refine updPort_inv h _ ?_ ?_
    · exact fun _ => by simp
    · exact fun _ _ => .inl rfl

@[simp] theorem enterRun_inv {s : State} (h : Inv s) : Inv (s.enterRun) := by
  have h1 : Inv (({ ({ s with cfg.part := .run } : State).raise (.partState .run .commit) with tb.timeOpen := false } : State)) := by
    have h2 : Inv (({ ({ s with cfg.part := .run } : State) with tb.timeOpen := false } : State).raise (.partState .run .commit)) :=
      raise_inv (s := { ({ s with cfg.part := .run } : State) with tb.timeOpen := false }) ⟨h.tb, h.ot, h.pln, h.ilk, h.dru, h.ofu, h.qnu, h.trm, h.lnk, h.cfg, h.tables.1, h.tables.2.1, fun _ => rfl, h.tables.2.2.2⟩ _
    have he : ({ ({ s with cfg.part := .run } : State).raise (.partState .run .commit) with tb.timeOpen := false } : State)
        = (({ ({ s with cfg.part := .run } : State) with tb.timeOpen := false } : State).raise (.partState .run .commit)) := by
      unfold raise
      dsimp only [now]
      split <;> rfl
    rw [he]
    exact h2
  have h2 := readySweep_inv h1
  unfold enterRun
  dsimp only
  refine testDump_inv (testMove_inv (leaveUnknown_inv (commitValves_inv (retest_inv (activateSections_inv
    (commitDoors_inv (commitDoors_inv ?_ _) _))))))
  split
  · exact h2
  · exact sendClears_inv h2 _

@[simp] theorem commitOp_inv {s : State} (h : Inv s) : Inv (s.commitOp).1 := by
  unfold commitOp
  try dsimp only
  (repeat' split) <;> simp +contextual (maxDischargeDepth := 40) [h, OvenRec.Ok, PushRec.Ok, Inspection.Ok, Planner.Ok]

@[simp] theorem enterConfig_inv {s : State} (h : Inv s) : Inv (s.enterConfig) := by
  have h1 : Inv (({ s with cfg.part := .config } : State).raise (.partState .config .restart)) :=
    raise_inv (s := { s with cfg.part := .config }) ⟨h.tb, h.ot, h.pln, h.ilk, h.dru, h.ofu, h.qnu, h.trm, h.lnk, h.cfg, h.tables.1, h.tables.2.1, by simp [inRun], h.tables.2.2.2⟩ _
  unfold enterConfig
  dsimp only
  exact valveRestart_inv (holdSections_inv (doorRestart_inv (holdStarts_inv (revokeAll_inv (planRestart_inv h1) _) _)))

@[simp] theorem restartOp_inv {s : State} (h : Inv s) : Inv (s.restartOp).1 := by
  unfold restartOp
  try dsimp only
  (repeat' split) <;> simp +contextual (maxDischargeDepth := 40) [h, OvenRec.Ok, PushRec.Ok, Inspection.Ok, Planner.Ok]

@[simp] theorem statusAnswer_inv {s : State} (h : Inv s) : Inv (s.statusAnswer).1 := by
  exact ⟨h.tb, h.ot, h.pln, h.ilk, h.dru, h.ofu, h.qnu, h.trm, h.lnk, h.cfg, h.tables⟩

@[simp] theorem timeAnswer_inv {s : State} (h : Inv s) : Inv (s.timeAnswer).1 := by
  unfold timeAnswer
  try dsimp only
  (repeat' split) <;> simp +contextual (maxDischargeDepth := 40) [h, OvenRec.Ok, PushRec.Ok, Inspection.Ok, Planner.Ok]

@[simp] theorem ovenAnswer_inv {s : State} (h : Inv s) (n : Nat) : Inv (ovenAnswer n s).1 := by
  unfold ovenAnswer
  try dsimp only
  (repeat' split) <;> simp +contextual (maxDischargeDepth := 40) [h, OvenRec.Ok, PushRec.Ok, Inspection.Ok, Planner.Ok]

@[simp] theorem planAnswer_inv {s : State} (h : Inv s) : Inv (s.planAnswer).1 := by
  unfold planAnswer
  try dsimp only
  (repeat' split) <;> simp +contextual (maxDischargeDepth := 40) [h, OvenRec.Ok, PushRec.Ok, Inspection.Ok, Planner.Ok]

@[simp] theorem slotAnswer_inv {s : State} (h : Inv s) (i : Nat) : Inv (slotAnswer i s).1 := by
  unfold slotAnswer
  try dsimp only
  (repeat' split) <;> simp +contextual (maxDischargeDepth := 40) [h, OvenRec.Ok, PushRec.Ok, Inspection.Ok, Planner.Ok]

@[simp] theorem machinesAnswer_inv {s : State} (h : Inv s) : Inv (s.machinesAnswer).1 := by
  unfold machinesAnswer
  try dsimp only
  (repeat' split) <;> simp +contextual (maxDischargeDepth := 40) [h, OvenRec.Ok, PushRec.Ok, Inspection.Ok, Planner.Ok]

@[simp] theorem pushAnswerOf_inv {s : State} (h : Inv s) : Inv (s.pushAnswerOf).1 := by
  unfold pushAnswerOf
  try dsimp only
  (repeat' split) <;> simp +contextual (maxDischargeDepth := 40) [h, OvenRec.Ok, PushRec.Ok, Inspection.Ok, Planner.Ok]

@[simp] theorem doorAnswer_inv {s : State} (h : Inv s) (n : Nat) : Inv (doorAnswer n s).1 := by
  unfold doorAnswer
  try dsimp only
  (repeat' split) <;> simp +contextual (maxDischargeDepth := 40) [h, OvenRec.Ok, PushRec.Ok, Inspection.Ok, Planner.Ok]

@[simp] theorem tasksAnswer_inv {s : State} (h : Inv s) (d : Side) : Inv (tasksAnswer d s).1 := by
  unfold tasksAnswer
  try dsimp only
  (repeat' split) <;> simp +contextual (maxDischargeDepth := 40) [h, OvenRec.Ok, PushRec.Ok, Inspection.Ok, Planner.Ok]

@[simp] theorem sectionAnswer_inv {s : State} (h : Inv s) (k : Nat) : Inv (sectionAnswer k s).1 := by
  unfold sectionAnswer
  try dsimp only
  (repeat' split) <;> simp +contextual (maxDischargeDepth := 40) [h, OvenRec.Ok, PushRec.Ok, Inspection.Ok, Planner.Ok]

@[simp] theorem valvesAnswer_inv {s : State} (h : Inv s) (n : Option Nat) : Inv (valvesAnswer n s).1 := by
  unfold valvesAnswer
  try dsimp only
  (repeat' split) <;> simp +contextual (maxDischargeDepth := 40) [h, OvenRec.Ok, PushRec.Ok, Inspection.Ok, Planner.Ok]

@[simp] theorem quenchAnswer_inv {s : State} (h : Inv s) : Inv (s.quenchAnswer).1 := by
  unfold quenchAnswer
  try dsimp only
  (repeat' split) <;> simp +contextual (maxDischargeDepth := 40) [h, OvenRec.Ok, PushRec.Ok, Inspection.Ok, Planner.Ok]

@[simp] theorem terminalsAnswer_inv {s : State} (h : Inv s) (t : Option Nat) : Inv (terminalsAnswer t s).1 := by
  unfold terminalsAnswer
  try dsimp only
  (repeat' split) <;> simp +contextual (maxDischargeDepth := 40) [h, OvenRec.Ok, PushRec.Ok, Inspection.Ok, Planner.Ok]

end State

end Sys2Proof.Machine
end

