-- ==== Sys2Proof/Laws/InvG.lean ====
section
/-! SUPPORT. `Inv` under the body of every command; a step's end is `settle_inv`, `kick_inv` or `idle_inv`. -/

set_option linter.all false

namespace Sys2Proof.Machine

open Sys2Proof

namespace State

theorem runOnly_inv {s : State} (h : Inv s) {take : State → State × Reply} (ht : Inv (take s).1) : Inv (runOnly take s).1 := by
  unfold runOnly
  split
  · exact ht
  · exact h

theorem forOven_inv {s : State} (h : Inv s) (n : Nat) {take : State → State × Reply} (ht : Inv (take s).1) :
    Inv (forOven n take s).1 := by
  unfold forOven
  split
  · exact ht
  · exact h

theorem forSection_inv {s : State} (h : Inv s) (k : Nat) {take : State → State × Reply} (ht : Inv (take s).1) :
    Inv (forSection k take s).1 := by
  unfold forSection
  split
  · exact ht
  · exact h

theorem forMLink_inv {s : State} (h : Inv s) (l : Option LinkId) {take : MachineId → State → State × Reply}
    (ht : ∀ m, Inv (take m s).1) : Inv (forMLink l take s).1 := by
  unfold forMLink
  split
  · exact ht _
  · exact h

theorem setup_inv {s : State} (h : Inv s) (configOnly rangeOk : Bool) {take : State → State × Reply}
    (ht : rangeOk = true → Inv (take s).1) : Inv (setup configOnly rangeOk take s).1 := by
  unfold setup
  split
  · exact h
  · split
    · rename_i hr
      exact ht hr
    · exact h

theorem runOnly_answers {take : State → State × Reply} {s : State}
    (ht : (take s).1.lnk.sup.answers = s.lnk.sup.answers) :
    (runOnly take s).1.lnk.sup.answers = s.lnk.sup.answers := by
  unfold runOnly
  split
  · exact ht
  · rfl

theorem forOven_answers {n : Nat} {take : State → State × Reply} {s : State}
    (ht : (take s).1.lnk.sup.answers = s.lnk.sup.answers) :
    (forOven n take s).1.lnk.sup.answers = s.lnk.sup.answers := by
  unfold forOven
  split
  · exact ht
  · rfl

theorem forSection_answers {k : Nat} {take : State → State × Reply} {s : State}
    (ht : (take s).1.lnk.sup.answers = s.lnk.sup.answers) :
    (forSection k take s).1.lnk.sup.answers = s.lnk.sup.answers := by
  unfold forSection
  split
  · exact ht
  · rfl

theorem forMLink_answers {l : Option LinkId} {take : MachineId → State → State × Reply} {s : State}
    (ht : ∀ m, (take m s).1.lnk.sup.answers = s.lnk.sup.answers) :
    (forMLink l take s).1.lnk.sup.answers = s.lnk.sup.answers := by
  unfold forMLink
  split
  · exact ht _
  · rfl

theorem setup_answers {configOnly rangeOk : Bool} {take : State → State × Reply} {s : State}
    (ht : (take s).1.lnk.sup.answers = s.lnk.sup.answers) :
    (setup configOnly rangeOk take s).1.lnk.sup.answers = s.lnk.sup.answers := by
  unfold setup
  split
  · rfl
  · split
    · exact ht
    · rfl

end State

open State

theorem doHardReset_inv {s : State} (h : Inv s) : Inv (doHardReset s) := by
  have hr : Inv State.reset := by
    refine ⟨by decide, ⟨by decide, by decide, fun i j a b ha => ?_⟩, ?_, ?_, by decide, by decide,
      freshBays_ok (by decide) (t := 0) (by decide), by decide, ?_, by decide, by decide⟩
    · have := nth1_mem ha
      cases this
    · refine ⟨by decide, by decide, by decide, by decide, by decide, rfl, fun _ => rfl, fun x hx => by cases hx⟩
    · refine ⟨fun m p hp => ?_, fun p hp => by cases hp⟩
      cases m <;> cases hp
    · refine ⟨by decide, by decide, by decide, ?_⟩
      simp [MLink.Ok, State.reset, Links.fresh, MLink.fresh, Port.fresh, LinkTest.fresh]
  exact ⟨hr.tb, hr.ot, hr.pln, hr.ilk, hr.dru, hr.ofu, hr.qnu, hr.trm, hr.lnk, hr.cfg, hr.tables⟩

theorem doControlTick_inv {s : State} (h : Inv s) : Inv (doControlTick s) := by
  refine endSections_inv ?_ _
  exact ⟨⟨h.tb.1, Nat.mod_lt _ (by decide)⟩, h.ot, h.pln, h.ilk, h.dru, h.ofu, h.qnu, h.trm, h.lnk, h.cfg, h.tables⟩

theorem countSecond_inv {s : State} (h : Inv s) : Inv (countSecond s) := by
  unfold countSecond
  split
  · rename_i hn
    have h1 : Inv { s with tb.time := s.now + 1 } :=
      ⟨⟨hn, h.tb.2⟩, h.ot, h.pln, h.ilk, h.dru, h.ofu, h.qnu, h.trm, h.lnk, h.cfg, h.tables⟩
    dsimp only
    split
    · exact raise_inv h1 _
    · exact h1
  · exact h

theorem tickRounds_inv {s : State} (h : Inv s) : Inv (tickRounds s) := by
  obtain ⟨a, b, c, d, e, f⟩ := h.dru
  refine ⟨h.tb, h.ot, h.pln, h.ilk, ⟨a, b, c, ?_, ?_, f⟩, h.ofu, h.qnu, h.trm, h.lnk, h.cfg, h.tables⟩
  · exact ⟨d.1, Nat.min_le_left _ _⟩
  · exact ⟨e.1, Nat.min_le_left _ _⟩

theorem doOneSecondTick_inv {s : State} (h : Inv s) : Inv (doOneSecondTick s) := by
  have h1 := countSecond_inv h
  unfold doOneSecondTick
  dsimp only
  split
  · exact retryHeld_inv (tickRounds_inv h1) _
  · exact h1

theorem doInspectionAccrual_inv {s : State} (h : Inv s) (d : Side) : Inv (doInspectionAccrual d s) := by
  unfold doInspectionAccrual
  try dsimp only
  (repeat' split) <;> simp (maxDischargeDepth := 40) [h]


theorem doReadyExpiry_inv {s : State} (h : Inv s) (n : Nat) : Inv (doReadyExpiry n s) := by
  exact readyExpire_inv h n

theorem doOverdueExpiry_inv {s : State} (h : Inv s) (n : Nat) : Inv (doOverdueExpiry n s) := by
  exact overdueCheck_inv h n

theorem doDueExpiry_inv {s : State} (h : Inv s) : Inv (doDueExpiry s) := by
  exact dueExpire_inv h

theorem doHoldOverExpiry_inv {s : State} (h : Inv s) : Inv (doHoldOverExpiry s) := by
  exact holdOverExpire_inv h

theorem doRangeStepEnd_inv {s : State} (h : Inv s) : Inv (doRangeStepEnd s) := by
  unfold doRangeStepEnd
  split
  · rename_i r hr
    exact rangeStep_inv h (h.pln.2.2.2.2.2.2.2 r hr)
  · exact h

theorem doUseDeadlineExpiry_inv {s : State} (h : Inv s) (m : MachineId) : Inv (doUseDeadlineExpiry m s) := by
  exact deadlineExpire_inv h m

theorem doTRamExpiry_inv {s : State} (h : Inv s) : Inv (doTRamExpiry s) := by
  exact ramTimerExpire_inv h

theorem doStageTimerExpiry_inv {s : State} (h : Inv s) : Inv (doStageTimerExpiry s) := by
  exact lateTimerExpire_inv h

theorem doConfirmExpiry_inv {s : State} (h : Inv s) (n : Nat) (d : Side) : Inv (doConfirmExpiry n d s) := by
  exact confirmTimerExpire_inv h n d

theorem doTaskTimerExpiry_inv {s : State} (h : Inv s) (d : Side) : Inv (doTaskTimerExpiry d s) := by
  exact taskTimerExpire_inv h d

theorem doRoundVisitTimerExpiry_inv {s : State} (h : Inv s) (d : Side) : Inv (doRoundVisitTimerExpiry d s) := by
  exact visitTimerExpire_inv h d

theorem doIsolateTimerExpiry_inv {s : State} (h : Inv s) : Inv (doIsolateTimerExpiry s) := by
  exact isolateExpire_inv h

theorem doValveTaskTimerExpiry_inv {s : State} (h : Inv s) : Inv (doValveTaskTimerExpiry s) := by
  exact valveTimerExpire_inv h

theorem doChargeTimerExpiry_inv {s : State} (h : Inv s) (n : Nat) : Inv (doChargeTimerExpiry n s) := by
  exact chargeTimerExpire_inv h n

theorem doMoveTimerExpiry_inv {s : State} (h : Inv s) : Inv (doMoveTimerExpiry s) := by
  exact moveTimerExpire_inv h

theorem doHotTimerExpiry_inv {s : State} (h : Inv s) : Inv (doHotTimerExpiry s) := by
  exact hotTimerExpire_inv h

theorem doSprayTimerExpiry_inv {s : State} (h : Inv s) : Inv (doSprayTimerExpiry s) := by
  exact sprayExpire_inv h

theorem doDrainTimerExpiry_inv {s : State} (h : Inv s) : Inv (doDrainTimerExpiry s) := by
  exact drainExpire_inv h

theorem doCoolTimerExpiry_inv {s : State} (h : Inv s) (b : Nat) : Inv (doCoolTimerExpiry b s) := by
  exact coolExpire_inv h b

theorem doGateTimerExpiry_inv {s : State} (h : Inv s) : Inv (doGateTimerExpiry s) := by
  exact gateExpire_inv h

theorem doMLinkSilenceExpiry_inv {s : State} (h : Inv s) (m : MachineId) : Inv (doMLinkSilenceExpiry m s) := by
  unfold doMLinkSilenceExpiry
  split
  · split
    · exact goOffline_inv h m _
    · refine updPort_inv h _ ?_ ?_
      · exact fun x => x
      · exact fun _ _ => .inl rfl
  · exact h

theorem doSLinkSilenceExpiry_inv {s : State} (h : Inv s) : Inv (doSLinkSilenceExpiry s) := by
  have h1 : Inv (s.updPort .sup fun p => { p with up := false, silence := false }) :=
    updPort_inv h .sup (fun x => x) (fun _ hm => by cases hm)
  unfold doSLinkSilenceExpiry
  split
  · dsimp only
    split
    · exact raise_inv h1 _
    · exact h1
  · exact h

theorem doCharacterGapExpiry_inv {s : State} (h : Inv s) (l : LinkId) : Inv (doCharacterGapExpiry l s) := by
  unfold doCharacterGapExpiry
  split
  · exact h
  · refine updPort_inv (discard_inv h l _) l ?_ ?_
    · exact fun x => x
    · exact fun _ _ => .inl rfl

theorem doTestCharacter_inv {s : State} (h : Inv s) (m : MachineId) (wave : LineWave) :
    Inv (doTestCharacter m wave s) := by
  unfold doTestCharacter
  split
  · split
    · refine updTest_inv h m ?_ ?_ ?_
      · intro hi
        simp only [judge]
        repeat' split
        all_goals omega
      · intro _
        exact Nat.min_le_left _ _
      · exact fun ha => ha
    · exact h
  · exact h

theorem doSLinkFrameSent_inv {s : State} (h : Inv s) : Inv (doSLinkFrameSent s) := by
  have h1 : Inv { s with lnk.sup.sending := none, lnk.sup.line := [] } :=
    ⟨h.tb, h.ot, h.pln, h.ilk, h.dru, h.ofu, h.qnu, h.trm, h.lnk, h.cfg, h.tables⟩
  unfold doSLinkFrameSent
  split
  · exact h
  · dsimp only
    split
    · split
      · refine updPort_inv h1 _ ?_ ?_
        · exact fun x => x
        · exact fun _ hm => by cases hm
      · exact h1
    · exact h1

theorem doMLinkFrameSent_inv {s : State} (h : Inv s) (m : MachineId) : Inv (doMLinkFrameSent m s) := by
  obtain ⟨a, b, c, d, e⟩ := link_ok h m
  refine updLink_inv h m ?_
  unfold endFrame
  split
  · exact ⟨a, b, c, d, e⟩
  · exact ⟨a, b, c, d, fun x => ⟨(e x).1, (e x).2.1, rfl⟩⟩

theorem doInputLevelChange_inv {s : State} (h : Inv s) (t : Nat) (energised : Bool) :
    Inv (doInputLevelChange t energised s) := by
  exact inputHolds_inv h t energised

theorem doTerminalOverload_inv {s : State} (h : Inv s) (t : Nat) : Inv (doTerminalOverload t s) := by
  exact overload_inv h t

theorem doPressInPulseEdge_inv {s : State} (h : Inv s) (t : Nat) : Inv (doPressInPulseEdge t s) := by
  exact pulseEdge_inv h t

theorem doDamperPwmPeriodStart_inv {s : State} (h : Inv s) (t : Nat) : Inv (doDamperPwmPeriodStart t s) := by
  exact periodStart_inv h t

theorem doStatus_inv {s : State} (h : Inv s) (sender : StatusFrom) (mode : Mode) (motion : Motion) (spot : ReportedSpot) :
    Inv (doStatus sender mode motion spot s) := by
  refine machineFrame_inv h _ fun ht hn => ?_
  exact takeStatus_inv ht sender mode motion spot hn

theorem doRequest_inv {s : State} (h : Inv s) (m : MachineId) (k : ReqKind) (n : Nat) :
    Inv (doRequest m k n s) := by
  refine machineFrame_inv h _ fun ht _ => ?_
  try dsimp only
  (repeat' split) <;> simp (maxDischargeDepth := 40) [ht]

theorem doDoorOff_inv {s : State} (h : Inv s) (m : MachineId) (n : Nat) (side : Option Side) :
    Inv (doDoorOff m n side s) := by
  refine machineFrame_inv h _ fun ht _ => ?_
  try dsimp only
  (repeat' split) <;> simp (maxDischargeDepth := 40) [ht]

theorem doDoorOn_inv {s : State} (h : Inv s) (m : MachineId) (n : Nat) (side : Option Side) :
    Inv (doDoorOn m n side s) := by
  refine machineFrame_inv h _ fun ht _ => ?_
  try dsimp only
  (repeat' split) <;> simp (maxDischargeDepth := 40) [ht]

theorem doDoorTight_inv {s : State} (h : Inv s) (m : MachineId) (n : Nat) (side : Option Side) :
    Inv (doDoorTight m n side s) := by
  refine machineFrame_inv h _ fun ht _ => ?_
  try dsimp only
  (repeat' split) <;> simp (maxDischargeDepth := 40) [ht]

theorem doRamStart_inv {s : State} (h : Inv s) (m : MachineId) (n : Nat) : Inv (doRamStart m n s) := by
  refine machineFrame_inv h _ fun ht _ => ?_
  try dsimp only
  (repeat' split) <;> simp (maxDischargeDepth := 40) [ht]

theorem doRamAtEnd_inv {s : State} (h : Inv s) (m : MachineId) (n : Nat) : Inv (doRamAtEnd m n s) := by
  refine machineFrame_inv h _ fun ht _ => ?_
  try dsimp only
  (repeat' split) <;> simp (maxDischargeDepth := 40) [ht]

theorem doRamHome_inv {s : State} (h : Inv s) (m : MachineId) (n : Nat) : Inv (doRamHome m n s) := by
  refine machineFrame_inv h _ fun ht _ => ?_
  try dsimp only
  (repeat' split) <;> simp (maxDischargeDepth := 40) [ht]

theorem doChargeStart_inv {s : State} (h : Inv s) (m : MachineId) (n : Nat) : Inv (doChargeStart m n s) := by
  refine machineFrame_inv h _ fun ht _ => ?_
  try dsimp only
  (repeat' split) <;> simp (maxDischargeDepth := 40) [ht]

theorem doChargeEnd_inv {s : State} (h : Inv s) (m : MachineId) (n : Nat) : Inv (doChargeEnd m n s) := by
  refine machineFrame_inv h _ fun ht _ => ?_
  try dsimp only
  (repeat' split) <;> simp (maxDischargeDepth := 40) [ht]

theorem doValve_inv {s : State} (h : Inv s) (m : MachineId) (n : Nat) (v : Option ValveState) :
    Inv (doValve m n v s) := by
  refine machineFrame_inv h _ fun ht _ => ?_
  try dsimp only
  (repeat' split) <;> simp (maxDischargeDepth := 40) [ht]

theorem doLeakSeen_inv {s : State} (h : Inv s) (m : MachineId) (n : Nat) (side : Option Side) :
    Inv (doLeakSeen m n side s) := by
  refine machineFrame_inv h _ fun ht _ => ?_
  try dsimp only
  (repeat' split) <;> simp (maxDischargeDepth := 40) [ht]

theorem doTaskDone_inv {s : State} (h : Inv s) (m : TaskSender) (n : Nat) (k : TaskKind) (r : TaskResult) :
    Inv (doTaskDone m n k r s) := by
  refine machineFrame_inv h _ fun ht _ => ?_
  try dsimp only
  (repeat' split) <;> simp (maxDischargeDepth := 40) [ht]

theorem doCcTaskDone_inv {s : State} (h : Inv s) (n : Nat) (a : ValveAction) (r : ValveResult) :
    Inv (doCcTaskDone n a r s) := by
  refine machineFrame_inv h _ fun ht _ => ?_
  try dsimp only
  (repeat' split) <;> simp (maxDischargeDepth := 40) [ht]

theorem doDumpDone_inv {s : State} (h : Inv s) (m : MachineId) (b : Nat) : Inv (doDumpDone m b s) := by
  refine machineFrame_inv h _ fun ht _ => ?_
  try dsimp only
  (repeat' split) <;> simp (maxDischargeDepth := 40) [ht]

theorem doBattery_inv {s : State} (h : Inv s) (tag : Byte) (nOv k : Nat) (lasts : List Nat) :
    Inv (doBattery tag nOv k lasts s) := by
  refine request_inv h tag (fun ht => ?_) fun t => ?_
  · split
    · exact ht
    · split
      · rename_i hb
        rw [ok_fst]
        exact takeBattery_inv ht hb
      · exact ht
  · split
    · rfl
    · split <;> simp

theorem doSeries_inv {s : State} (h : Inv s) (tag : Byte) (p : SeriesParams) (start : Option Time32) :
    Inv (doSeries tag p start s) := by
  exact request_inv h tag (fun ht => setup_inv ht _ _ fun hr => takeSeries_inv ht hr start) fun t => setup_answers (by simp)

theorem doTiming_inv {s : State} (h : Inv s) (tag : Byte) (v : Timing) : Inv (doTiming tag v s) := by
  exact request_inv h tag (fun ht => setup_inv ht _ _ fun hr => takeTiming_inv ht hr) fun t => setup_answers (by simp)

theorem doPressure_inv {s : State} (h : Inv s) (tag : Byte) (k : Nat) (p : PressureParams) :
    Inv (doPressure tag k p s) := by
  refine request_inv h tag (fun ht => setup_inv ht _ _ fun hr => ?_) fun t => setup_answers ?_
  · split
    · exact takePressure_inv ht k hr
    · exact ht
  · split <;> simp

theorem doWharf_inv {s : State} (h : Inv s) (tag : Byte) (v : WharfVals) : Inv (doWharf tag v s) := by
  exact request_inv h tag (fun ht => setup_inv ht _ _ fun hr => takeWharf_inv ht hr) fun t => setup_answers (by simp)

theorem doDoors_inv {s : State} (h : Inv s) (tag : Byte) (v : DoorVals) : Inv (doDoors tag v s) := by
  exact request_inv h tag (fun ht => setup_inv ht _ _ fun hr => takeDoors_inv ht hr) fun t => setup_answers (by simp)

theorem doTerminal_inv {s : State} (h : Inv s) (tag : Byte) (t : Nat) (fn : TermFn) (invert : Bool) (drive : Drive) (edge : Edge) :
    Inv (doTerminal tag t fn invert drive edge s) := by
  exact request_inv h tag (fun ht => setup_inv ht _ _ fun _ => takeTerminal_inv ht t fn invert drive edge)
    fun t => setup_answers (by simp)

theorem doLink_inv {s : State} (h : Inv s) (tag : Byte) (l : LinkId) (v : LineSettings) :
    Inv (doLink tag l v s) := by
  exact request_inv h tag (fun ht => setup_inv ht _ _ fun _ => takeLink_inv ht l v) fun t => setup_answers (by simp)

theorem doOvenLoad_inv {s : State} (h : Inv s) (tag : Byte) (v : OvenLoad) : Inv (doOvenLoad tag v s) := by
  refine request_inv h tag (fun ht => setup_inv ht _ _ fun _ => ?_) fun t => setup_answers ?_
  · split
    · rename_i hv
      exact takeOvenLoad_inv ht hv
    · exact ht
  · split <;> simp

theorem doSetTime_inv {s : State} (h : Inv s) (tag : Byte) (t : Time32) : Inv (doSetTime tag t s) := by
  exact request_inv h tag (fun ht => setTimeOp_inv ht t) fun t => by simp


theorem doOvenService_inv {s : State} (h : Inv s) (tag : Byte) (n : Nat) (dir : ServiceDir) :
    Inv (doOvenService tag n dir s) := by
  exact request_inv h tag (fun ht => forOven_inv ht n (ovenServiceOp_inv ht n dir)) fun t => forOven_answers (by simp)


theorem doSetTarget_inv {s : State} (h : Inv s) (tag : Byte) (n target : Nat) :
    Inv (doSetTarget tag n target s) := by
  exact request_inv h tag (fun ht => forOven_inv ht n (setTargetOp_inv ht n target)) fun t => forOven_answers (by simp)


theorem doMakeup_inv {s : State} (h : Inv s) (tag : Byte) (n : Nat) : Inv (doMakeup tag n s) := by
  exact request_inv h tag (fun ht => runOnly_inv ht (forOven_inv ht n (makeupOp_inv ht n))) fun t => runOnly_answers (forOven_answers (by simp))


theorem doCancelMakeup_inv {s : State} (h : Inv s) (tag : Byte) (n : Nat) : Inv (doCancelMakeup tag n s) := by
  exact request_inv h tag (fun ht => runOnly_inv ht (cancelMakeupOp_inv ht n)) fun t => runOnly_answers (by simp)


theorem doPlanStart_inv {s : State} (h : Inv s) (tag : Byte) (start : Option Time32) :
    Inv (doPlanStart tag start s) := by
  exact request_inv h tag (fun ht => runOnly_inv ht (planStartOp_inv ht start)) fun t => runOnly_answers (by simp)


theorem doPlanHalt_inv {s : State} (h : Inv s) (tag : Byte) : Inv (doPlanHalt tag s) := by
  exact request_inv h tag (fun ht => runOnly_inv ht (planHaltOp_inv ht)) fun t => runOnly_answers (by simp)


theorem doPlanResume_inv {s : State} (h : Inv s) (tag : Byte) : Inv (doPlanResume tag s) := by
  exact request_inv h tag (fun ht => runOnly_inv ht (planResumeReq_inv ht)) fun t => runOnly_answers (by simp)


theorem doPlanStage_inv {s : State} (h : Inv s) (tag : Byte) : Inv (doPlanStage tag s) := by
  exact request_inv h tag (fun ht => runOnly_inv ht (planStageOp_inv ht)) fun t => runOnly_answers (by simp)


theorem doSetMode_inv {s : State} (h : Inv s) (tag : Byte) (n : Nat) (mode : SlotMode) (fixedPush : Option Time32) :
    Inv (doSetMode tag n mode fixedPush s) := by
  exact request_inv h tag (fun ht => forOven_inv ht n (setModeOp_inv ht n mode fixedPush)) fun t => forOven_answers (by simp)


theorem doSetModeRange_inv {s : State} (h : Inv s) (tag : Byte) (first last : Nat) (mode : Option SlotMode) (fixedPush : Option Time32) :
    Inv (doSetModeRange tag first last mode fixedPush s) := by
  exact request_inv h tag (fun ht => runOnly_inv ht (setModeRangeOp_inv ht first last mode fixedPush)) fun t => runOnly_answers (by simp)


theorem doRangeAbort_inv {s : State} (h : Inv s) (tag : Byte) : Inv (doRangeAbort tag s) := by
  exact request_inv h tag (fun ht => runOnly_inv ht (rangeAbortOp_inv ht)) fun t => runOnly_answers (by simp)


theorem doClearBreach_inv {s : State} (h : Inv s) (tag : Byte) (n : Nat) : Inv (doClearBreach tag n s) := by
  exact request_inv h tag (fun ht => forOven_inv ht n (clearBreachOp_inv ht n)) fun t => forOven_answers (by simp)


theorem doPushRetry_inv {s : State} (h : Inv s) (tag : Byte) (n : Nat) : Inv (doPushRetry tag n s) := by
  exact request_inv h tag (fun ht => runOnly_inv ht (pushRetryOp_inv ht n)) fun t => runOnly_answers (by simp)


theorem doAbandon_inv {s : State} (h : Inv s) (tag : Byte) (n : Nat) : Inv (doAbandon tag n s) := by
  exact request_inv h tag (fun ht => runOnly_inv ht (abandonOp_inv ht n)) fun t => runOnly_answers (by simp)


theorem doLeakReport_inv {s : State} (h : Inv s) (tag : Byte) (n : Nat) (side : Option Side) :
    Inv (doLeakReport tag n side s) := by
  exact request_inv h tag (fun ht => runOnly_inv ht (leakReportOp_inv ht n side)) fun t => runOnly_answers (by simp)


theorem doSetDamper_inv {s : State} (h : Inv s) (tag : Byte) (k value : Nat) : Inv (doSetDamper tag k value s) := by
  exact request_inv h tag (fun ht => forSection_inv ht k (setDamperOp_inv ht k value)) fun t => forSection_answers (by simp)


theorem doSetAuto_inv {s : State} (h : Inv s) (tag : Byte) (k : Nat) : Inv (doSetAuto tag k s) := by
  exact request_inv h tag (fun ht => forSection_inv ht k (setAutoOp_inv ht k)) fun t => forSection_answers (by simp)


theorem doSetSetpoint_inv {s : State} (h : Inv s) (tag : Byte) (k : Nat) (value : Int) :
    Inv (doSetSetpoint tag k value s) := by
  exact request_inv h tag (fun ht => forSection_inv ht k (setSetpointOp_inv ht k value)) fun t => forSection_answers (by simp)


theorem doTrackBlock_inv {s : State} (h : Inv s) (tag : Byte) (first last : Option TrackSpot) :
    Inv (doTrackBlock tag first last s) := by
  exact request_inv h tag (fun ht => trackBlockOp_inv ht first last) fun t => by simp


theorem doTrackFree_inv {s : State} (h : Inv s) (tag : Byte) (first last : Option TrackSpot) :
    Inv (doTrackFree tag first last s) := by
  exact request_inv h tag (fun ht => trackFreeOp_inv ht first last) fun t => by simp


theorem doSetOutput_inv {s : State} (h : Inv s) (tag : Byte) (t : Nat) (level : Option Bool) :
    Inv (doSetOutput tag t level s) := by
  exact request_inv h tag (fun ht => setOutputOp_inv ht t level) fun t => by simp


theorem doToggle_inv {s : State} (h : Inv s) (tag : Byte) (t : Nat) : Inv (doToggle tag t s) := by
  exact request_inv h tag (fun ht => writeOutput_inv ht t _) fun t => by simp


theorem doClearTerminal_inv {s : State} (h : Inv s) (tag : Byte) (t : Nat) : Inv (doClearTerminal tag t s) := by
  exact request_inv h tag (fun ht => clearTerminalOp_inv ht t) fun t => by simp


theorem doLinkClear_inv {s : State} (h : Inv s) (tag : Byte) (l : Option LinkId) : Inv (doLinkClear tag l s) := by
  exact request_inv h tag (fun ht => linkClearOp_inv ht l) fun t => by simp


theorem doLinkTest_inv {s : State} (h : Inv s) (tag : Byte) (l : Option LinkId) : Inv (doLinkTest tag l s) := by
  exact request_inv h tag (fun ht => forMLink_inv ht l fun m => linkTestOp_inv ht m) fun t => forMLink_answers fun m => by simp


theorem doTestRead_inv {s : State} (h : Inv s) (tag : Byte) (l : Option LinkId) : Inv (doTestRead tag l s) := by
  exact request_inv h tag (fun ht => forMLink_inv ht l fun m => testReadOp_inv ht m) fun t => forMLink_answers fun m => by simp


theorem doTestEnd_inv {s : State} (h : Inv s) (tag : Byte) (l : Option LinkId) : Inv (doTestEnd tag l s) := by
  exact request_inv h tag (fun ht => forMLink_inv ht l fun m => testEndOp_inv ht m) fun t => forMLink_answers fun m => by simp


theorem doCommit_inv {s : State} (h : Inv s) (tag : Byte) : Inv (doCommit tag s) := by
  exact request_inv h tag (fun ht => commitOp_inv ht) fun t => by simp


theorem doRestart_inv {s : State} (h : Inv s) (tag : Byte) : Inv (doRestart tag s) := by
  exact request_inv h tag (fun ht => restartOp_inv ht) fun t => by simp


theorem doUnknownRequest_inv {s : State} (h : Inv s) (tag : Byte) : Inv (doUnknownRequest tag s) := by
  exact request_inv h tag (fun ht => ht) fun t => rfl


theorem doStatusQuery_inv {s : State} (h : Inv s) (tag : Byte) : Inv (doStatusQuery tag s) := by
  refine request_inv h tag (fun ht => statusAnswer_inv ht) fun t => ?_
  unfold statusAnswer
  (repeat' split) <;> rfl

theorem doTimeQuery_inv {s : State} (h : Inv s) (tag : Byte) : Inv (doTimeQuery tag s) := by
  refine request_inv h tag (fun ht => timeAnswer_inv ht) fun t => ?_
  unfold timeAnswer
  (repeat' split) <;> rfl

theorem doOvenQuery_inv {s : State} (h : Inv s) (tag : Byte) (n : Nat) : Inv (doOvenQuery tag n s) := by
  refine request_inv h tag (fun ht => ovenAnswer_inv ht n) fun t => ?_
  unfold ovenAnswer
  (repeat' split) <;> rfl

theorem doPlanQuery_inv {s : State} (h : Inv s) (tag : Byte) : Inv (doPlanQuery tag s) := by
  refine request_inv h tag (fun ht => planAnswer_inv ht) fun t => ?_
  unfold planAnswer
  (repeat' split) <;> rfl

theorem doSlotQuery_inv {s : State} (h : Inv s) (tag : Byte) (i : Nat) : Inv (doSlotQuery tag i s) := by
  refine request_inv h tag (fun ht => slotAnswer_inv ht i) fun t => ?_
  unfold slotAnswer
  (repeat' split) <;> rfl

theorem doMachinesQuery_inv {s : State} (h : Inv s) (tag : Byte) : Inv (doMachinesQuery tag s) := by
  refine request_inv h tag (fun ht => machinesAnswer_inv ht) fun t => ?_
  unfold machinesAnswer
  (repeat' split) <;> rfl

theorem doPushQuery_inv {s : State} (h : Inv s) (tag : Byte) : Inv (doPushQuery tag s) := by
  refine request_inv h tag (fun ht => pushAnswerOf_inv ht) fun t => ?_
  unfold pushAnswerOf
  (repeat' split) <;> rfl

theorem doDoorQuery_inv {s : State} (h : Inv s) (tag : Byte) (n : Nat) : Inv (doDoorQuery tag n s) := by
  refine request_inv h tag (fun ht => doorAnswer_inv ht n) fun t => ?_
  unfold doorAnswer
  (repeat' split) <;> rfl

theorem doTasksQuery_inv {s : State} (h : Inv s) (tag : Byte) (d : Side) : Inv (doTasksQuery tag d s) := by
  refine request_inv h tag (fun ht => tasksAnswer_inv ht d) fun t => ?_
  unfold tasksAnswer
  (repeat' split) <;> rfl

theorem doSectionQuery_inv {s : State} (h : Inv s) (tag : Byte) (k : Nat) : Inv (doSectionQuery tag k s) := by
  refine request_inv h tag (fun ht => sectionAnswer_inv ht k) fun t => ?_
  unfold sectionAnswer
  (repeat' split) <;> rfl

theorem doValvesQuery_inv {s : State} (h : Inv s) (tag : Byte) (n : Option Nat) : Inv (doValvesQuery tag n s) := by
  refine request_inv h tag (fun ht => valvesAnswer_inv ht n) fun t => ?_
  unfold valvesAnswer
  (repeat' split) <;> rfl

theorem doQuenchQuery_inv {s : State} (h : Inv s) (tag : Byte) : Inv (doQuenchQuery tag s) := by
  refine request_inv h tag (fun ht => quenchAnswer_inv ht) fun t => ?_
  unfold quenchAnswer
  (repeat' split) <;> rfl

theorem doTerminalsQuery_inv {s : State} (h : Inv s) (tag : Byte) (t : Option Nat) :
    Inv (doTerminalsQuery tag t s) := by
  refine request_inv h tag (fun ht => terminalsAnswer_inv ht t) fun t => ?_
  unfold terminalsAnswer
  (repeat' split) <;> rfl

theorem runFrame_inv {s : State} (h : Inv s) (i : Instr) : Inv (runFrame i s) := by
  unfold runFrame
  split
  · exact doStatus_inv h _ _ _ _
  · exact doRequest_inv h _ _ _
  · exact doRequest_inv h _ _ _
  · exact doRequest_inv h _ _ _
  · exact doRequest_inv h _ _ _
  · exact doDoorOff_inv h _ _ _
  · exact doDoorOn_inv h _ _ _
  · exact doDoorTight_inv h _ _ _
  · exact doRamStart_inv h _ _
  · exact doRamAtEnd_inv h _ _
  · exact doRamHome_inv h _ _
  · exact doChargeStart_inv h _ _
  · exact doChargeEnd_inv h _ _
  · exact doValve_inv h _ _ _
  · exact doLeakSeen_inv h _ _ _
  · exact doTaskDone_inv h _ _ _ _
  · exact doCcTaskDone_inv h _ _ _
  · exact doDumpDone_inv h _ _
  · exact doBattery_inv h _ _ _ _
  · exact doSeries_inv h _ _ _
  · exact doTiming_inv h _ _
  · exact doPressure_inv h _ _ _
  · exact doWharf_inv h _ _
  · exact doDoors_inv h _ _
  · exact doTerminal_inv h _ _ _ _ _ _
  · exact doLink_inv h _ _ _
  · exact doOvenLoad_inv h _ _
  · exact doSetTime_inv h _ _
  · exact doOvenService_inv h _ _ _
  · exact doSetTarget_inv h _ _ _
  · exact doMakeup_inv h _ _
  · exact doCancelMakeup_inv h _ _
  · exact doPlanStart_inv h _ _
  · exact doPlanHalt_inv h _
  · exact doPlanResume_inv h _
  · exact doPlanStage_inv h _
  · exact doSetMode_inv h _ _ _ _
  · exact doSetModeRange_inv h _ _ _ _ _
  · exact doRangeAbort_inv h _
  · exact doClearBreach_inv h _ _
  · exact doPushRetry_inv h _ _
  · exact doAbandon_inv h _ _
  · exact doLeakReport_inv h _ _ _
  · exact doSetDamper_inv h _ _ _
  · exact doSetAuto_inv h _ _
  · exact doSetSetpoint_inv h _ _ _
  · exact doTrackBlock_inv h _ _ _
  · exact doTrackFree_inv h _ _ _
  · exact doSetOutput_inv h _ _ _
  · exact doToggle_inv h _ _
  · exact doClearTerminal_inv h _ _
  · exact doLinkClear_inv h _ _
  · exact doLinkTest_inv h _ _
  · exact doTestRead_inv h _ _
  · exact doTestEnd_inv h _ _
  · exact doCommit_inv h _
  · exact doRestart_inv h _
  · exact doUnknownRequest_inv h _
  · exact doStatusQuery_inv h _
  · exact doTimeQuery_inv h _
  · exact doOvenQuery_inv h _ _
  · exact doPlanQuery_inv h _
  · exact doSlotQuery_inv h _ _
  · exact doMachinesQuery_inv h _
  · exact doPushQuery_inv h _
  · exact doDoorQuery_inv h _ _
  · exact doTasksQuery_inv h _ _
  · exact doSectionQuery_inv h _ _
  · exact doValvesQuery_inv h _ _
  · exact doQuenchQuery_inv h _
  · exact doTerminalsQuery_inv h _ _
  · exact h

theorem takeFrame_inv {s : State} (h : Inv s) (l : LinkId) (t : Taken) : Inv (takeFrame l t s) := by
  unfold takeFrame
  split
  · exact runFrame_inv h _
  · exact doRequest_inv h _ _ _
  · exact doUnknownRequest_inv h _
  · exact discard_inv h _ _

theorem completeFrame_inv {s : State} (h : Inv s) (l : LinkId) (len : Nat) (chars : List Byte) :
    Inv (completeFrame l len chars s) := by
  unfold completeFrame
  dsimp only
  split
  · split
    · exact takeFrame_inv h _ _
    · exact discard_inv h _ _
  · exact discard_inv h _ _

theorem State.setRx_inv {s : State} (h : Inv s) (l : LinkId) (rx : RxAssembly) : Inv (s.setRx l rx) := by
  refine updPort_inv h l ?_ ?_
  · exact fun x => x
  · exact fun _ _ => .inl rfl

theorem assemble_inv {s : State} (h : Inv s) (l : LinkId) (b : Byte) : Inv (assemble l b s) := by
  unfold assemble
  dsimp only
  split
  · split
    · exact setRx_inv h _ _
    · exact h
  · split
    · exact setRx_inv h _ _
    · exact discard_inv (setRx_inv h _ _) _ _
  · exact setRx_inv h _ _
  · split
    · exact setRx_inv h _ _
    · exact completeFrame_inv (setRx_inv h _ _) _ _ _

theorem takeChar_inv {s : State} (h : Inv s) (l : LinkId) (c : RxChar) : Inv (takeChar l c s) := by
  unfold takeChar
  split
  · exact assemble_inv h _ _
  · exact discard_inv (setRx_inv h _ _) _ _
  · exact discard_inv (setRx_inv h _ _) _ _

theorem toChecker_inv {s : State} (h : Inv s) (l : LinkId) (wave : LineWave) : Inv (toChecker l wave s) := by
  unfold toChecker
  split
  · exact doTestCharacter_inv h _ _
  · exact h

theorem doCharacterReceived_inv {s : State} (h : Inv s) (l : LinkId) (wave : LineWave) :
    Inv (doCharacterReceived l wave s) := by
  unfold doCharacterReceived
  split
  · exact toChecker_inv h _ _
  · split
    · exact takeChar_inv h _ _
    · exact h

end Sys2Proof.Machine
end

