-- ==== Sys2Proof/Laws/HoldA.lean ====
section
/-! SUPPORT. `HoldSafe` under every operation: only a grant puts a permit in force, and what starts the machine hold revokes
them all. -/

set_option linter.all false

namespace Sys2Proof.Machine

open Sys2Proof

namespace State

theorem any_upd1 {α : Type} {p : α → Bool} {f : α → α} (hf : ∀ a, p (f a) = true → p a = true) (n : Nat) (l : List α)
    (h : (upd1 f n l).any p = true) : l.any p = true := by
  fun_induction upd1 f n l with
  | case1 l => exact h
  | case2 n => exact h
  | case3 a l =>
    simp only [List.any_cons, Bool.or_eq_true] at h ⊢
    exact h.imp (hf a) id
  | case4 k a l ih =>
    simp only [List.any_cons, Bool.or_eq_true] at h ⊢
    exact h.imp id ih

@[simp] theorem updOven_hold {s : State} (h : HoldSafe s) (n : Nat) {f : OvenRec → OvenRec}
    (hf : ∀ o, (f o).breach = true → o.breach = true) : HoldSafe (s.updOven n f) := by
  refine ⟨h.1, fun hh => h.2 ?_⟩
  simp only [hold, inRun, Bool.or_eq_true] at hh ⊢
  exact hh.imp id (any_upd1 hf n s.ot)

/-- The same permits under a weaker hold. -/
theorem hold_weaker {s t : State} (h : HoldSafe s) (hp : t.ilk.permits = s.ilk.permits) (hh : t.hold = true → s.hold = true) :
    HoldSafe t :=
  ⟨by simpa [permit, hp] using h.1, fun ht m => by simpa [permit, hp] using h.2 (hh ht) m⟩

theorem hold_raw {s t : State} (h : HoldSafe s) (hi : t.ilk = s.ilk) (ho : t.ot = s.ot) (hc : t.cfg.part = s.cfg.part) :
    HoldSafe t := hold_weaker h (by rw [hi]) fun hh => by simpa [hold, inRun, hi, ho, hc] using hh

/-- No permit at all. -/
theorem hold_of_none {s : State} (h : ∀ m, s.permit m = none) : HoldSafe s := ⟨h .qc, fun _ => h⟩

/-- Every permit gone, whatever the hold. -/
theorem revokeAll_none {s : State} (h : s.permit .qc = none) (r : Reason) (m : MachineId) : (s.revokeAll r).permit m = none := by
  have h1 : ∀ (s : State) (k : MachineId), (s.revoke k r).permit k = none := fun s k => by
    unfold revoke
    split
    · assumption
    · dsimp only
      split <;> simp [permit]
  have h2 : ∀ (s : State) (k j : MachineId), s.permit j = none → (s.revoke k r).permit j = none := fun s k j hj => by
    by_cases e : k = j
    · subst e; exact h1 s k
    · have hj' : (s.setPermit k none).permit j = none := by
        simp only [permit, setPermit_permits, Quad.get_set]
        split
        · rfl
        · exact hj
      unfold revoke
      split
      · exact hj
      · dsimp only
        split <;> simpa [permit] using hj'
  cases m
  · exact h2 _ _ _ (h2 _ _ _ (h1 _ _))
  · exact h2 _ _ _ (h1 _ _)
  · exact h1 _ _
  · exact h2 _ _ _ (h2 _ _ _ (h2 _ _ _ h))

@[simp] theorem updDoor_hold {s : State} (h : HoldSafe s) (n : Nat) (d : Side) (f : DoorRec → DoorRec) :
    HoldSafe (s.updDoor n d f) := by
  unfold HoldSafe at *
  simpa [hold, inRun, permit] using h

@[simp] theorem setQueue_hold {s : State} (h : HoldSafe s) (d : Side) (q : List TaskEntry) :
    HoldSafe (s.setQueue d q) := by
  unfold HoldSafe at *
  simpa [hold, inRun, permit] using h

@[simp] theorem updRound_hold {s : State} (h : HoldSafe s) (d : Side) (f : Inspection → Inspection) :
    HoldSafe (s.updRound d f) := by
  unfold HoldSafe at *
  simpa [hold, inRun, permit] using h

@[simp] theorem updSec_hold {s : State} (h : HoldSafe s) (k : Nat) (f : SecRec → SecRec) :
    HoldSafe (s.updSec k f) := by
  unfold HoldSafe at *
  simpa [hold, inRun, permit] using h

@[simp] theorem setBay_hold {s : State} (h : HoldSafe s) (b : Nat) (r : BayRec) : HoldSafe (s.setBay b r) := by
  unfold HoldSafe at *
  simpa [hold, inRun, permit] using h

@[simp] theorem updTerm_hold {s : State} (h : HoldSafe s) (t : Nat) (f : TermRec → TermRec) :
    HoldSafe (s.updTerm t f) := by
  unfold HoldSafe at *
  simpa [hold, inRun, permit] using h

@[simp] theorem updPort_hold {s : State} (h : HoldSafe s) (l : LinkId) (f : Port → Port) :
    HoldSafe (s.updPort l f) := by
  unfold HoldSafe at *
  simpa [hold, inRun, permit] using h

@[simp] theorem updMachine_hold {s : State} (h : HoldSafe s) (m : MachineId) (f : MachineRec → MachineRec) :
    HoldSafe (s.updMachine m f) := by
  unfold HoldSafe at *
  simpa [hold, inRun, permit] using h

@[simp] theorem setPermit_none_hold {s : State} (h : HoldSafe s) (m : MachineId) : HoldSafe (s.setPermit m none) := by
  have h0 : ∀ k, s.permit k = none → (s.setPermit m none).permit k = none := fun k hk => by
    simp only [permit, setPermit_permits, Quad.get_set] at hk ⊢
    split
    · rfl
    · exact hk
  exact ⟨h0 _ h.1, fun hh k => h0 k (h.2 (by simpa [hold, inRun] using hh) k)⟩

@[simp] theorem setPush_hold {s : State} (h : HoldSafe s) (p : Option PushRec) : HoldSafe (s.setPush p) := by
  unfold HoldSafe at *
  simpa [hold, inRun, permit] using h

@[simp] theorem raise_hold {s : State} (h : HoldSafe s) (b : NoticeBody) : HoldSafe (s.raise b) := by
  unfold HoldSafe at *
  simpa [hold, inRun, permit] using h

@[simp] theorem send_hold {s : State} (h : HoldSafe s) (m : MachineId) (f : MFrame) : HoldSafe (s.send m f) := by
  unfold HoldSafe at *
  simpa [hold, inRun, permit] using h

@[simp] theorem sendIfOnline_hold {s : State} (h : HoldSafe s) (m : MachineId) (f : MFrame) :
    HoldSafe (s.sendIfOnline m f) := by
  unfold HoldSafe at *
  simpa [hold, inRun, permit] using h

@[simp] theorem sendAllOnline_hold {s : State} (h : HoldSafe s) (f : MFrame) : HoldSafe (s.sendAllOnline f) := by
  unfold HoldSafe at *
  simpa [hold, inRun, permit] using h

@[simp] theorem discard_hold {s : State} (h : HoldSafe s) (l : LinkId) (c : DiscardCause) :
    HoldSafe (s.discard l c) := by
  unfold HoldSafe at *
  simpa [hold, inRun, permit] using h

@[simp] theorem roundVisitCheck_hold {s : State} (h : HoldSafe s) (d : Side) : HoldSafe (s.roundVisitCheck d) := by
  unfold HoldSafe at *
  simpa [hold, inRun, permit] using h

@[simp] theorem dispatchDoor_hold {s : State} (h : HoldSafe s) (d : Side) : HoldSafe (s.dispatchDoor d) := by
  unfold HoldSafe at *
  simpa [hold, inRun, permit] using h

@[simp] theorem dispatchValve_hold {s : State} (h : HoldSafe s) : HoldSafe (s.dispatchValve) := by
  unfold HoldSafe at *
  simpa [hold, inRun, permit] using h

@[simp] theorem dispatchFor_hold {s : State} (h : HoldSafe s) (x0 : MachineId) : HoldSafe (s.dispatchFor x0) := by
  unfold HoldSafe at *
  simpa [hold, inRun, permit] using h

@[simp] theorem disarm_hold {s : State} (h : HoldSafe s) : HoldSafe (s.disarm) := by
  unfold HoldSafe at *
  simpa [hold, inRun, permit] using h

@[simp] theorem revoke_hold {s : State} (h : HoldSafe s) (m : MachineId) (r : Reason) :
    HoldSafe (s.revoke m r) := by
  unfold revoke
  split
  · exact h
  · have h1 := setPermit_none_hold h m
    dsimp only
    refine dispatchFor_hold ?_ _
    split
    · exact disarm_hold (send_hold h1 _ _)
    · exact send_hold h1 _ _

@[simp] theorem revokeAll_hold {s : State} (h : HoldSafe s) (r : Reason) : HoldSafe (s.revokeAll r) := by
  unfold revokeAll
  try dsimp only
  (repeat' split) <;> simp +contextual (maxDischargeDepth := 40) [h]

@[simp] theorem retestOne_hold {s : State} (h : HoldSafe s) (m : MachineId) : HoldSafe (s.retestOne m) := by
  unfold retestOne
  try dsimp only
  (repeat' split) <;> simp +contextual (maxDischargeDepth := 40) [h]

@[simp] theorem retest_hold {s : State} (h : HoldSafe s) : HoldSafe (s.retest) := by
  unfold retest
  try dsimp only
  (repeat' split) <;> simp +contextual (maxDischargeDepth := 40) [h]

theorem grant_hold {s : State} (h : HoldSafe s) (hh : s.hold = false) {m : MachineId} (hm : m ≠ .qc) (k : PermitKind) (n : Nat) :
    HoldSafe (s.grant m k n) := by
  have h1 : HoldSafe (s.setPermit m (some ⟨k, n, s.now, timeAdd s.now s.cfg.timing.tUse⟩)) := by
    refine ⟨?_, fun ht => ?_⟩
    · have := h.1
      simp only [permit, setPermit_permits, Quad.get_set] at this ⊢
      simpa [hm] using this
    · have : s.hold = true := by simpa [hold, inRun] using ht
      simp [hh] at this
  have h2 := send_hold h1 m (.grant k n (timeAdd s.now s.cfg.timing.tUse))
  unfold grant
  dsimp only
  split
  · exact setPush_hold h2 _
  · exact h2

@[simp] theorem decideRequest_hold {s : State} (h : HoldSafe s) (m : MachineId) (k : ReqKind) (n : Nat) :
    HoldSafe (s.decideRequest m k n) := by
  unfold decideRequest
  split
  · exact send_hold h _ _
  · exact send_hold h _ _
  · rename_i hf
    split
    · rename_i k
      simp only [requestFail] at hf
      split at hf
      · simp at hf
      · rename_i hg
        have hg : s.inRun = true ∧ PermitKind.machine k = m ∧ s.ilk.stop = false ∧ (s.ot.any OvenRec.breach) = false := by
          simp only [firstFail] at hg
          repeat' split at hg
          all_goals simp_all
        refine grant_hold h ?_ ?_ k n
        · simp [hold, hg]
        · rintro rfl
          cases k <;> simp [PermitKind.machine] at hg
    · exact send_hold h _ _

@[simp] theorem usePermit_hold {s : State} (h : HoldSafe s) (m : MachineId) : HoldSafe (s.usePermit m) := by
  unfold usePermit
  try dsimp only
  (repeat' split) <;> simp +contextual (maxDischargeDepth := 40) [h]

@[simp] theorem updCar_hold {s : State} (h : HoldSafe s) (f : CarRec → CarRec) : HoldSafe (s.updCar f) := by
  unfold HoldSafe at *
  simpa [hold, inRun, permit] using h

@[simp] theorem setCar_hold {s : State} (h : HoldSafe s) (c : CarState) : HoldSafe (s.setCar c) := by
  unfold HoldSafe at *
  simpa [hold, inRun, permit] using h

@[simp] theorem issueMove_hold {s : State} (h : HoldSafe s) (dest : MoveDest) : HoldSafe (s.issueMove dest) := by
  unfold HoldSafe at *
  simpa [hold, inRun, permit] using h

@[simp] theorem testMove_hold {s : State} (h : HoldSafe s) : HoldSafe (s.testMove) := by
  unfold HoldSafe at *
  simpa [hold, inRun, permit] using h

@[simp] theorem requestMove_hold {s : State} (h : HoldSafe s) : HoldSafe (s.requestMove) := by
  unfold HoldSafe at *
  simpa [hold, inRun, permit] using h

@[simp] theorem sendCar_hold {s : State} (h : HoldSafe s) (c : CarState) : HoldSafe (s.sendCar c) := by
  unfold sendCar
  try dsimp only
  (repeat' split) <;> simp +contextual (maxDischargeDepth := 40) [h]

@[simp] theorem settleCar_hold {s : State} (h : HoldSafe s) (c : CarState) : HoldSafe (s.settleCar c) := by
  unfold settleCar
  try dsimp only
  (repeat' split) <;> simp +contextual (maxDischargeDepth := 40) [h]

@[simp] theorem withdrawMove_hold {s : State} (h : HoldSafe s) : HoldSafe (s.withdrawMove) := by
  unfold HoldSafe at *
  simpa [hold, inRun, permit] using h

@[simp] theorem requestDump_hold {s : State} (h : HoldSafe s) : HoldSafe (s.requestDump) := by
  unfold HoldSafe at *
  simpa [hold, inRun, permit] using h

@[simp] theorem testDump_hold {s : State} (h : HoldSafe s) : HoldSafe (s.testDump) := by
  unfold HoldSafe at *
  simpa [hold, inRun, permit] using h

@[simp] theorem sendOnward_hold {s : State} (h : HoldSafe s) : HoldSafe (s.sendOnward) := by
  unfold sendOnward
  try dsimp only
  (repeat' split) <;> simp +contextual (maxDischargeDepth := 40) [h]

@[simp] theorem reconsiderCar_hold {s : State} (h : HoldSafe s) (b : Nat) : HoldSafe (s.reconsiderCar b) := by
  unfold reconsiderCar
  try dsimp only
  (repeat' split) <;> simp +contextual (maxDischargeDepth := 40) [h]

@[simp] theorem reconsiderNext_hold {s : State} (h : HoldSafe s) : HoldSafe (s.reconsiderNext) := by
  unfold reconsiderNext
  try dsimp only
  (repeat' split) <;> simp +contextual (maxDischargeDepth := 40) [h]

@[simp] theorem leaveUnknown_hold {s : State} (h : HoldSafe s) : HoldSafe (s.leaveUnknown) := by
  unfold leaveUnknown
  try dsimp only
  (repeat' split) <;> simp +contextual (maxDischargeDepth := 40) [h]

@[simp] theorem chooseBay_hold {s : State} (h : HoldSafe s) : HoldSafe (s.chooseBay) := by
  unfold chooseBay
  split
  · exact h
  · split
    · refine sendCar_hold (setBay_hold ?_ _ _) _
      exact hold_raw h rfl rfl rfl
    · split
      · exact h
      · simp (maxDischargeDepth := 40) [h]

@[simp] theorem startDischarge_hold {s : State} (h : HoldSafe s) : HoldSafe (s.startDischarge) := by
  unfold HoldSafe at *
  simpa [hold, inRun, permit] using h

@[simp] theorem interruptDischarge_hold {s : State} (h : HoldSafe s) (b : Nat) :
    HoldSafe (s.interruptDischarge b) := by
  unfold HoldSafe at *
  simpa [hold, inRun, permit] using h

@[simp] theorem conveyorLost_hold {s : State} (h : HoldSafe s) : HoldSafe (s.conveyorLost) := by
  unfold HoldSafe at *
  simpa [hold, inRun, permit] using h

@[simp] theorem gateEnd_hold {s : State} (h : HoldSafe s) (b : Nat) : HoldSafe (s.gateEnd b) := by
  have h0 := setBay_hold h b (.free s.now)
  have h1 : HoldSafe ({ s.setBay b (.free s.now) with
      qnu.discharge := (s.setBay b (.free s.now)).qnu.discharge.filter (· != b)
      qnu.free := insertFree (s.setBay b (.free s.now)).freeSince b (s.setBay b (.free s.now)).now
        (s.setBay b (.free s.now)).qnu.free } : State) := h0
  unfold gateEnd
  dsimp only
  split
  · exact startDischarge_hold (chooseBay_hold h1)
  · exact startDischarge_hold h1

@[simp] theorem ramStartCar_hold {s : State} (h : HoldSafe s) (n : Nat) : HoldSafe (s.ramStartCar n) := by
  unfold ramStartCar
  try dsimp only
  (repeat' split) <;> simp +contextual (maxDischargeDepth := 40) [h]

@[simp] theorem stickerCar_hold {s : State} (h : HoldSafe s) (n : Nat) : HoldSafe (s.stickerCar n) := by
  unfold stickerCar
  try dsimp only
  (repeat' split) <;> simp +contextual (maxDischargeDepth := 40) [h]

@[simp] theorem ramEndCar_hold {s : State} (h : HoldSafe s) (n t : Nat) : HoldSafe (s.ramEndCar n t) := by
  unfold ramEndCar
  split
  · refine sendCar_hold ?_ _
    exact hold_raw h rfl rfl rfl
  · exact raise_hold h _

@[simp] theorem arrive_hold {s : State} (h : HoldSafe s) : HoldSafe (s.arrive) := by
  unfold arrive
  split
  · exact settleCar_hold h _
  · refine settleCar_hold ?_ _
    exact hold_raw h rfl rfl rfl
  · exact requestDump_hold (settleCar_hold h _)
  · exact h

@[simp] theorem checkLoadedPlace_hold {s : State} (h : HoldSafe s) (spot : Option ReportedSpot) :
    HoldSafe (s.checkLoadedPlace spot) := by
  unfold HoldSafe at *
  simpa [hold, inRun, permit] using h

@[simp] theorem checkEmptyPlace_hold {s : State} (h : HoldSafe s) (spot : Option ReportedSpot) :
    HoldSafe (s.checkEmptyPlace spot) := by
  unfold checkEmptyPlace
  try dsimp only
  (repeat' split) <;> simp +contextual (maxDischargeDepth := 40) [h]

@[simp] theorem followLocal_hold {s : State} (h : HoldSafe s) (stopped : Option CarSpot) :
    HoldSafe (s.followLocal stopped) := by
  unfold followLocal
  try dsimp only
  (repeat' split) <;> simp +contextual (maxDischargeDepth := 40) [h]

@[simp] theorem qcStatus_hold {s : State} (h : HoldSafe s) (oldMode : Option Mode) (stopped : Option CarSpot)
    (spot : ReportedSpot) : HoldSafe (s.qcStatus oldMode stopped spot) := by
  unfold qcStatus
  try dsimp only
  (repeat' split) <;> simp +contextual (maxDischargeDepth := 40) [h]

@[simp] theorem qcOffline_hold {s : State} (h : HoldSafe s) : HoldSafe (s.qcOffline) := by
  unfold qcOffline
  try dsimp only
  (repeat' split) <;> simp +contextual (maxDischargeDepth := 40) [h]

@[simp] theorem setValves_hold {s : State} (h : HoldSafe s) (q : List ValveEntry) : HoldSafe (s.setValves q) := by
  unfold HoldSafe at *
  simpa [hold, inRun, permit] using h

@[simp] theorem withdrawNotice_hold {s : State} (h : HoldSafe s) (e : ValveEntry) :
    HoldSafe (s.withdrawNotice e) := by
  unfold HoldSafe at *
  simpa [hold, inRun, permit] using h

@[simp] theorem clearValveWork_hold {s : State} (h : HoldSafe s) (o : Nat) : HoldSafe (s.clearValveWork o) := by
  unfold HoldSafe at *
  simpa [hold, inRun, permit] using h

@[simp] theorem replaceAction_hold {s : State} (h : HoldSafe s) (e : ValveEntry) (a : ValveAction) :
    HoldSafe (s.replaceAction e a) := by
  unfold HoldSafe at *
  simpa [hold, inRun, permit] using h

@[simp] theorem holdBack_hold {s : State} (h : HoldSafe s) (o : Nat) (a : ValveAction) :
    HoldSafe (s.holdBack o a) := by
  unfold HoldSafe at *
  simpa [hold, inRun, permit] using h

@[simp] theorem decideOffer_hold {s : State} (h : HoldSafe s) (o : Nat) (a : ValveAction) :
    HoldSafe (s.decideOffer o a) := by
  unfold HoldSafe at *
  simpa [hold, inRun, permit] using h

@[simp] theorem offerValve_hold {s : State} (h : HoldSafe s) (o : Nat) (a : ValveAction) :
    HoldSafe (s.offerValve o a) := by
  unfold HoldSafe at *
  simpa [hold, inRun, permit] using h

@[simp] theorem valveTimeout_hold {s : State} (h : HoldSafe s) (e : ValveEntry) : HoldSafe (s.valveTimeout e) := by
  unfold HoldSafe at *
  simpa [hold, inRun, permit] using h

@[simp] theorem valveOffline_hold {s : State} (h : HoldSafe s) : HoldSafe (s.valveOffline) := by
  unfold HoldSafe at *
  simpa [hold, inRun, permit] using h

@[simp] theorem ccDone_hold {s : State} (h : HoldSafe s) (o : Nat) (a : ValveAction) (r : ValveResult) :
    HoldSafe (s.ccDone o a r) := by
  unfold HoldSafe at *
  simpa [hold, inRun, permit] using h

@[simp] theorem setIsolate_hold {s : State} (h : HoldSafe s) (o expiry : Nat) :
    HoldSafe (s.setIsolate o expiry) := by
  unfold HoldSafe at *
  simpa [hold, inRun, permit] using h

@[simp] theorem normalCheck_hold {s : State} (h : HoldSafe s) (o : Nat) : HoldSafe (s.normalCheck o) := by
  unfold HoldSafe at *
  simpa [hold, inRun, permit] using h

@[simp] theorem nextForValves_hold {s : State} (h : HoldSafe s) (old new : Option (Nat × Nat)) :
    HoldSafe (s.nextForValves old new) := by
  unfold HoldSafe at *
  simpa [hold, inRun, permit] using h

@[simp] theorem updPlan_hold {s : State} (h : HoldSafe s) (f : Planner → Planner) : HoldSafe (s.updPlan f) := by
  unfold HoldSafe at *
  simpa [hold, inRun, permit] using h

@[simp] theorem updCursor_hold {s : State} (h : HoldSafe s) (f : Slot → Slot) : HoldSafe (s.updCursor f) := by
  unfold HoldSafe at *
  simpa [hold, inRun, permit] using h

@[simp] theorem idleServing_hold {s : State} (h : HoldSafe s) : HoldSafe (s.idleServing) := by
  unfold HoldSafe at *
  simpa [hold, inRun, permit] using h

@[simp] theorem build_hold {s : State} (h : HoldSafe s) (p : SeriesParams) (start number : Nat) (stagedUsed : Bool) (st : PlanState) :
    HoldSafe (s.build p start number stagedUsed st) := by
  unfold HoldSafe at *
  simpa [hold, inRun, permit] using h

@[simp] theorem buildNext_hold {s : State} (h : HoldSafe s) : HoldSafe (s.buildNext) := by
  unfold HoldSafe at *
  simpa [hold, inRun, permit] using h

@[simp] theorem boundary_hold {s : State} (h : HoldSafe s) : HoldSafe (s.boundary) := by
  unfold HoldSafe at *
  simpa [hold, inRun, permit] using h

@[simp] theorem advance_hold {s : State} (h : HoldSafe s) : HoldSafe (s.advance) := by
  unfold HoldSafe at *
  simpa [hold, inRun, permit] using h

@[simp] theorem passSlot_hold {s : State} (h : HoldSafe s) (reason : PassReason) :
    HoldSafe (s.passSlot reason) := by
  unfold HoldSafe at *
  simpa [hold, inRun, permit] using h

@[simp] theorem checkOnce_hold {s : State} (h : HoldSafe s) : HoldSafe (s.checkOnce).1 := by
  unfold HoldSafe at *
  simpa [hold, inRun, permit] using h

@[simp] theorem makeupCheck_hold {s : State} (h : HoldSafe s) : HoldSafe (s.makeupCheck) := by
  unfold HoldSafe at *
  simpa [hold, inRun, permit] using h

@[simp] theorem planSettle_hold {s : State} (h : HoldSafe s) : HoldSafe (s.planSettle) := by
  unfold HoldSafe at *
  simpa [hold, inRun, permit] using h

@[simp] theorem planReport_hold {s : State} (h : HoldSafe s) : HoldSafe (s.planReport) := by
  unfold planReport
  try dsimp only
  (repeat' split) <;> simp +contextual (maxDischargeDepth := 40) [h]

@[simp] theorem planUpdate_hold {s : State} (h : HoldSafe s) : HoldSafe (s.planUpdate) := by
  unfold planUpdate
  try dsimp only
  (repeat' split) <;> simp +contextual (maxDischargeDepth := 40) [h]

@[simp] theorem releaseServing_hold {s : State} (h : HoldSafe s) : HoldSafe (s.releaseServing) := by
  unfold HoldSafe at *
  simpa [hold, inRun, permit] using h

@[simp] theorem planOvenChanged_hold {s : State} (h : HoldSafe s) (n : Nat) : HoldSafe (s.planOvenChanged n) := by
  unfold planOvenChanged
  try dsimp only
  (repeat' split) <;> simp +contextual (maxDischargeDepth := 40) [h]

@[simp] theorem writeMode_hold {s : State} (h : HoldSafe s) (n : Nat) (mode : SlotMode) (fixedPush : Option Nat) :
    HoldSafe (s.writeMode n mode fixedPush) := by
  unfold writeMode
  try dsimp only
  (repeat' split) <;> simp +contextual (maxDischargeDepth := 40) [h]

@[simp] theorem planHalt_hold {s : State} (h : HoldSafe s) : HoldSafe (s.planHalt) := by
  unfold planHalt
  try dsimp only
  (repeat' split) <;> simp +contextual (maxDischargeDepth := 40) [h]

@[simp] theorem planPushBegins_hold {s : State} (h : HoldSafe s) (n : Nat) : HoldSafe (s.planPushBegins n) := by
  unfold planPushBegins
  try dsimp only
  (repeat' split) <;> simp +contextual (maxDischargeDepth := 40) [h]

@[simp] theorem planRamStart_hold {s : State} (h : HoldSafe s) (n : Nat) : HoldSafe (s.planRamStart n) := by
  unfold planRamStart
  try dsimp only
  (repeat' split) <;> simp +contextual (maxDischargeDepth := 40) [h]

@[simp] theorem dropMakeup_hold {s : State} (h : HoldSafe s) (n : Nat) : HoldSafe (s.dropMakeup n) := by
  unfold HoldSafe at *
  simpa [hold, inRun, permit] using h

@[simp] theorem advanceIfRunning_hold {s : State} (h : HoldSafe s) : HoldSafe (s.advanceIfRunning) := by
  unfold HoldSafe at *
  simpa [hold, inRun, permit] using h

@[simp] theorem planPushComplete_hold {s : State} (h : HoldSafe s) (n : Nat) : HoldSafe (s.planPushComplete n) := by
  unfold planPushComplete
  try dsimp only
  (repeat' split) <;> simp +contextual (maxDischargeDepth := 40) [h]

@[simp] theorem planAbandon_hold {s : State} (h : HoldSafe s) (n : Nat) : HoldSafe (s.planAbandon n) := by
  unfold planAbandon
  try dsimp only
  (repeat' split) <;> simp +contextual (maxDischargeDepth := 40) [h]

@[simp] theorem planReturn_hold {s : State} (h : HoldSafe s) : HoldSafe (s.planReturn) := by
  unfold planReturn
  try dsimp only
  (repeat' split) <;> simp +contextual (maxDischargeDepth := 40) [h]

@[simp] theorem planResumeOp_hold {s : State} (h : HoldSafe s) : HoldSafe (s.planResumeOp) := by
  unfold planResumeOp
  try dsimp only
  (repeat' split) <;> simp +contextual (maxDischargeDepth := 40) [h]

@[simp] theorem rangeEnd_hold {s : State} (h : HoldSafe s) (r : RangeOp) (aborted : Bool) :
    HoldSafe (s.rangeEnd r aborted) := by
  unfold HoldSafe at *
  simpa [hold, inRun, permit] using h

@[simp] theorem rangeStep_hold {s : State} (h : HoldSafe s) (r : RangeOp) : HoldSafe (s.rangeStep r) := by
  unfold rangeStep
  try dsimp only
  (repeat' split) <;> simp +contextual (maxDischargeDepth := 40) [h]

@[simp] theorem planRestart_hold {s : State} (h : HoldSafe s) : HoldSafe (s.planRestart) := by
  unfold HoldSafe at *
  simpa [hold, inRun, permit] using h

@[simp] theorem ovenChanged_hold {s : State} (h : HoldSafe s) (n : Nat) : HoldSafe (s.ovenChanged n) := by
  unfold ovenChanged
  try dsimp only
  (repeat' split) <;> simp +contextual (maxDischargeDepth := 40) [h]

@[simp] theorem evalReadyRaw_hold {s : State} (h : HoldSafe s) (n : Nat) : HoldSafe (s.evalReadyRaw n) := by
  unfold evalReadyRaw
  try dsimp only
  (repeat' split) <;> simp +contextual (maxDischargeDepth := 40) [h]

@[simp] theorem evalReady_hold {s : State} (h : HoldSafe s) (n : Nat) : HoldSafe (s.evalReady n) := by
  unfold evalReady
  try dsimp only
  (repeat' split) <;> simp +contextual (maxDischargeDepth := 40) [h]

@[simp] theorem overdueCheck_hold {s : State} (h : HoldSafe s) (n : Nat) : HoldSafe (s.overdueCheck n) := by
  unfold overdueCheck
  try dsimp only
  (repeat' split) <;> simp +contextual (maxDischargeDepth := 40) [h]

@[simp] theorem sweepOvens_hold {s : State} (h : HoldSafe s) (l : List Nat) : HoldSafe (sweepOvens l s) := by
  induction l generalizing s with
  | nil => exact h
  | cons a l ih => exact ih (overdueCheck_hold (evalReady_hold h a) a)

@[simp] theorem readySweep_hold {s : State} (h : HoldSafe s) : HoldSafe (s.readySweep) := by
  unfold readySweep
  try dsimp only
  (repeat' split) <;> simp +contextual (maxDischargeDepth := 40) [h]

@[simp] theorem dropCharge_hold {s : State} (h : HoldSafe s) (n : Nat) : HoldSafe (s.dropCharge n) := by
  unfold HoldSafe at *
  simpa [hold, inRun, permit] using h

@[simp] theorem beginCoking_hold {s : State} (h : HoldSafe s) (n : Nat) : HoldSafe (s.beginCoking n) := by
  unfold beginCoking
  try dsimp only
  (repeat' split) <;> simp +contextual (maxDischargeDepth := 40) [h]

@[simp] theorem assumeEnd_hold {s : State} (h : HoldSafe s) (m : Nat) : HoldSafe (s.assumeEnd m) := by
  unfold assumeEnd
  try dsimp only
  (repeat' split) <;> simp +contextual (maxDischargeDepth := 40) [h]

@[simp] theorem chargeFact_hold {s : State} (h : HoldSafe s) (n : Nat) : HoldSafe (s.chargeFact n) := by
  unfold chargeFact
  split
  · have h1 := updOven_hold (f := fun (o : OvenRec) => { o with state := .charging, chargeEnd := none }) h n fun o ho => ho
    dsimp only
    split
    · refine ovenChanged_hold ?_ n
      exact hold_raw (assumeEnd_hold h1 _) rfl rfl rfl
    · refine ovenChanged_hold ?_ n
      exact hold_raw h1 rfl rfl rfl
  · exact h

@[simp] theorem chargeEndFact_hold {s : State} (h : HoldSafe s) (n : Nat) : HoldSafe (s.chargeEndFact n) := by
  unfold chargeEndFact
  try dsimp only
  (repeat' split) <;> simp +contextual (maxDischargeDepth := 40) [h]

@[simp] theorem feedForward_hold {s : State} (h : HoldSafe s) (k : Nat) (old new : ValveState) :
    HoldSafe (s.feedForward k old new) := by
  unfold HoldSafe at *
  simpa [hold, inRun, permit] using h

@[simp] theorem dropReachedOffer_hold {s : State} (h : HoldSafe s) (n : Nat) (v : ValveState) :
    HoldSafe (s.dropReachedOffer n v) := by
  unfold HoldSafe at *
  simpa [hold, inRun, permit] using h

@[simp] theorem valveReport_hold {s : State} (h : HoldSafe s) (n : Nat) (v : ValveState) :
    HoldSafe (s.valveReport n v) := by
  unfold valveReport
  dsimp only
  split
  · refine dropReachedOffer_hold ?_ n v
    exact hold_raw h rfl rfl rfl
  · refine retest_hold (feedForward_hold (dropReachedOffer_hold ?_ n v) _ _ _)
    exact hold_raw h rfl rfl rfl

@[simp] theorem setPending_hold {s : State} (h : HoldSafe s) (n : Nat) (d : Side) :
    HoldSafe (s.setPending n d) := by
  unfold HoldSafe at *
  simpa [hold, inRun, permit] using h

@[simp] theorem offerFull_hold {s : State} (h : HoldSafe s) (d : Side) (n : Nat) (k : TaskKind) :
    HoldSafe (s.offerFull d n k) := by
  unfold HoldSafe at *
  simpa [hold, inRun, permit] using h

@[simp] theorem offerTask_hold {s : State} (h : HoldSafe s) (d : Side) (n : Nat) (k : TaskKind) :
    HoldSafe (s.offerTask d n k) := by
  unfold HoldSafe at *
  simpa [hold, inRun, permit] using h

@[simp] theorem offerInRun_hold {s : State} (h : HoldSafe s) (d : Side) (n : Nat) (k : TaskKind) :
    HoldSafe (s.offerInRun d n k) := by
  unfold HoldSafe at *
  simpa [hold, inRun, permit] using h

@[simp] theorem pendingRelease_hold {s : State} (h : HoldSafe s) (d : Side) : HoldSafe (s.pendingRelease d) := by
  unfold HoldSafe at *
  simpa [hold, inRun, permit] using h

@[simp] theorem dropSealWork_hold {s : State} (h : HoldSafe s) (d : Side) (n : Nat) :
    HoldSafe (s.dropSealWork d n) := by
  unfold HoldSafe at *
  simpa [hold, inRun, permit] using h

@[simp] theorem offerChecked_hold {s : State} (h : HoldSafe s) (d : Side) (n : Nat) (k : TaskKind) :
    HoldSafe (s.offerChecked d n k) := by
  have h1 := offerInRun_hold h d n k
  unfold offerChecked
  dsimp only
  split
  · exact h1
  · exact dispatchDoor_hold h1 d

@[simp] theorem enterLeaking_hold {s : State} (h : HoldSafe s) (n : Nat) (d : Side) :
    HoldSafe (s.enterLeaking n d) := by
  unfold enterLeaking
  try dsimp only
  (repeat' split) <;> simp +contextual (maxDischargeDepth := 40) [h]

@[simp] theorem leakAt_hold {s : State} (h : HoldSafe s) (n : Nat) (d : Side) : HoldSafe (s.leakAt n d) := by
  unfold leakAt
  try dsimp only
  (repeat' split) <;> simp +contextual (maxDischargeDepth := 40) [h]

@[simp] theorem doorTight_hold {s : State} (h : HoldSafe s) (n : Nat) (d : Side) : HoldSafe (s.doorTight n d) := by
  unfold doorTight
  try dsimp only
  (repeat' split) <;> simp +contextual (maxDischargeDepth := 40) [h]

@[simp] theorem withdrawAt_hold {s : State} (h : HoldSafe s) (n : Nat) (d : Side) :
    HoldSafe (s.withdrawAt n d) := by
  unfold HoldSafe at *
  simpa [hold, inRun, permit] using h

@[simp] theorem doorGoesOff_hold {s : State} (h : HoldSafe s) (n : Nat) (d : Side) :
    HoldSafe (s.doorGoesOff n d) := by
  unfold doorGoesOff
  try dsimp only
  (repeat' split) <;> simp +contextual (maxDischargeDepth := 40) [h]

@[simp] theorem doorSequence_hold {s : State} (h : HoldSafe s) (n : Nat) (d : Side) (rep : ReportName) :
    HoldSafe (s.doorSequence n d rep) := by
  unfold HoldSafe at *
  simpa [hold, inRun, permit] using h

@[simp] theorem doorOnFact_hold {s : State} (h : HoldSafe s) (n : Nat) (d : Side) :
    HoldSafe (s.doorOnFact n d).1 := by
  unfold doorOnFact
  try dsimp only
  (repeat' split) <;> simp +contextual (maxDischargeDepth := 40) [h]

@[simp] theorem doorTightFact_hold {s : State} (h : HoldSafe s) (n : Nat) (d : Side) :
    HoldSafe (s.doorTightFact n d) := by
  unfold doorTightFact
  try dsimp only
  (repeat' split) <;> simp +contextual (maxDischargeDepth := 40) [h]

@[simp] theorem applyResult_hold {s : State} (h : HoldSafe s) (d : Side) (n : Nat) (k : TaskKind) (r : TaskResult) :
    HoldSafe (s.applyResult d n k r) := by
  unfold applyResult
  try dsimp only
  (repeat' split) <;> simp +contextual (maxDischargeDepth := 40) [h]

@[simp] theorem visitDone_hold {s : State} (h : HoldSafe s) (d : Side) (n : Nat) : HoldSafe (s.visitDone d n) := by
  unfold visitDone
  try dsimp only
  (repeat' split) <;> simp +contextual (maxDischargeDepth := 40) [h]

@[simp] theorem taskDoneOp_hold {s : State} (h : HoldSafe s) (d : Side) (n : Nat) (k : TaskKind) (r : TaskResult) :
    HoldSafe (s.taskDoneOp d n k r) := by
  unfold taskDoneOp
  try dsimp only
  (repeat' split) <;> simp +contextual (maxDischargeDepth := 40) [h]

@[simp] theorem taskTimeout_hold {s : State} (h : HoldSafe s) (d : Side) (e : TaskEntry) :
    HoldSafe (s.taskTimeout d e) := by
  unfold HoldSafe at *
  simpa [hold, inRun, permit] using h

@[simp] theorem visitTimeout_hold {s : State} (h : HoldSafe s) (d : Side) (v : Visit) :
    HoldSafe (s.visitTimeout d v) := by
  unfold HoldSafe at *
  simpa [hold, inRun, permit] using h

@[simp] theorem doorOffline_hold {s : State} (h : HoldSafe s) (d : Side) : HoldSafe (s.doorOffline d) := by
  unfold HoldSafe at *
  simpa [hold, inRun, permit] using h

@[simp] theorem accrue_hold {s : State} (h : HoldSafe s) (d : Side) : HoldSafe (s.accrue d) := by
  unfold accrue
  try dsimp only
  (repeat' split) <;> simp +contextual (maxDischargeDepth := 40) [h]

@[simp] theorem confirmExpire_hold {s : State} (h : HoldSafe s) (n : Nat) (d : Side) :
    HoldSafe (s.confirmExpire n d) := by
  unfold HoldSafe at *
  simpa [hold, inRun, permit] using h

@[simp] theorem commitDoors_hold {s : State} (h : HoldSafe s) (d : Side) : HoldSafe (s.commitDoors d) := by
  unfold HoldSafe at *
  simpa [hold, inRun, permit] using h

@[simp] theorem doorRestart_hold {s : State} (h : HoldSafe s) : HoldSafe (s.doorRestart) := by
  unfold HoldSafe at *
  simpa [hold, inRun, permit] using h

@[simp] theorem updPush_hold {s : State} (h : HoldSafe s) (f : PushRec → PushRec) : HoldSafe (s.updPush f) := by
  unfold HoldSafe at *
  simpa [hold, inRun, permit] using h

@[simp] theorem holdTimer_hold {s : State} (h : HoldSafe s) : HoldSafe (s.holdTimer) := by
  unfold HoldSafe at *
  simpa [hold, inRun, permit] using h

@[simp] theorem sticker_hold {s : State} (h : HoldSafe s) (p : PushRec) : HoldSafe (s.sticker p) := by
  unfold sticker
  try dsimp only
  (repeat' split) <;> simp +contextual (maxDischargeDepth := 40) [h]

@[simp] theorem pushLate_hold {s : State} (h : HoldSafe s) (p : PushRec) : HoldSafe (s.pushLate p) := by
  unfold HoldSafe at *
  simpa [hold, inRun, permit] using h

@[simp] theorem stageExpire_hold {s : State} (h : HoldSafe s) (p : PushRec) : HoldSafe (s.stageExpire p) := by
  unfold stageExpire
  try dsimp only
  (repeat' split) <;> simp +contextual (maxDischargeDepth := 40) [h]

@[simp] theorem resumeTimer_hold {s : State} (h : HoldSafe s) : HoldSafe (s.resumeTimer) := by
  unfold resumeTimer
  try dsimp only
  (repeat' split) <;> simp +contextual (maxDischargeDepth := 40) [h]

@[simp] theorem pushRemoved_hold {s : State} (h : HoldSafe s) (n : Nat) : HoldSafe (s.pushRemoved n) := by
  unfold pushRemoved
  try dsimp only
  (repeat' split) <;> simp +contextual (maxDischargeDepth := 40) [h]

@[simp] theorem pushComplete_hold {s : State} (h : HoldSafe s) (p : PushRec) : HoldSafe (s.pushComplete p) := by
  have h1 : HoldSafe ((s.raise (s.pushDoneNotice p)).updOven p.oven (emptied p)) :=
    updOven_hold (raise_hold h _) _ fun o ho => ho
  have h2 := offerValve_hold (planPushComplete_hold h1 p.oven) p.oven .aspirate
  unfold pushComplete
  dsimp only
  split
  · exact pushRemoved_hold (sendIfOnline_hold h2 _ _) _
  · exact pushRemoved_hold h2 _

@[simp] theorem completionTest_hold {s : State} (h : HoldSafe s) : HoldSafe (s.completionTest) := by
  unfold completionTest
  try dsimp only
  (repeat' split) <;> simp +contextual (maxDischargeDepth := 40) [h]

@[simp] theorem followRam_hold {s : State} (h : HoldSafe s) (n : Nat) : HoldSafe (s.followRam n) := by
  unfold followRam
  try dsimp only
  (repeat' split) <;> simp +contextual (maxDischargeDepth := 40) [h]

@[simp] theorem takeRamEnd_hold {s : State} (h : HoldSafe s) (p : PushRec) (derived : Bool) :
    HoldSafe (s.takeRamEnd p derived) := by
  unfold takeRamEnd
  try dsimp only
  (repeat' split) <;> simp +contextual (maxDischargeDepth := 40) [h]

@[simp] theorem enterClosing_hold {s : State} (h : HoldSafe s) (p : PushRec) (derived : Bool) :
    HoldSafe (s.enterClosing p derived) := by
  unfold enterClosing
  try dsimp only
  (repeat' split) <;> simp +contextual (maxDischargeDepth := 40) [h]

@[simp] theorem pushLoses_hold {s : State} (h : HoldSafe s) (m : MachineId) : HoldSafe (s.pushLoses m) := by
  unfold HoldSafe at *
  simpa [hold, inRun, permit] using h

@[simp] theorem rederiveStage_hold {s : State} (h : HoldSafe s) (p : PushRec) : HoldSafe (s.rederiveStage p) := by
  unfold rederiveStage
  try dsimp only
  (repeat' split) <;> simp +contextual (maxDischargeDepth := 40) [h]

@[simp] theorem rederive_hold {s : State} (h : HoldSafe s) (p : PushRec) : HoldSafe (s.rederive p) := by
  have h1 := completionTest_hold (rederiveStage_hold h p)
  unfold rederive
  dsimp only
  split
  · exact h1
  · have h2 := fun q b => resumeTimer_hold (raise_hold (setPush_hold h1 q) b)
    split
    · exact h2 _ _
    · exact sendIfOnline_hold (h2 _ _) _ _

@[simp] theorem pushRegains_hold {s : State} (h : HoldSafe s) (m : MachineId) (became : Bool) :
    HoldSafe (s.pushRegains m became) := by
  unfold pushRegains
  split
  · split
    · dsimp only
      split
      · exact rederive_hold (setPush_hold h _) _
      · split
        · exact send_hold (setPush_hold h _) _ _
        · exact setPush_hold h _
    · exact h
  · exact h

@[simp] theorem sendClears_hold {s : State} (h : HoldSafe s) (c : HoldCause) : HoldSafe (s.sendClears c) := by
  unfold HoldSafe at *
  simpa [hold, inRun, permit] using h

@[simp] theorem workAfterHold_hold {s : State} (h : HoldSafe s) : HoldSafe (s.workAfterHold) := by
  unfold HoldSafe at *
  simpa [hold, inRun, permit] using h

@[simp] theorem holdEnds_hold {s : State} (h : HoldSafe s) (c : HoldCause) : HoldSafe (s.holdEnds c) := by
  unfold HoldSafe at *
  simpa [hold, inRun, permit] using h

@[simp] theorem holdStarts_hold {s : State} (h : HoldSafe s) (c : HoldCause) : HoldSafe (s.holdStarts c) := by
  unfold HoldSafe at *
  simpa [hold, inRun, permit] using h

@[simp] theorem stopSets_hold {s : State} (h : HoldSafe s) : HoldSafe (s.stopSets) := by
  have h1 : HoldSafe ((({ s with ilk.stop := true } : State).raise (.batteryStop true)).revokeAll .stopped) :=
    hold_of_none (revokeAll_none (by simpa [permit] using h.1) _)
  unfold stopSets
  dsimp only
  split
  · exact holdTimer_hold h1
  · exact holdStarts_hold (holdTimer_hold h1) _

@[simp] theorem stopClears_hold {s : State} (h : HoldSafe s) : HoldSafe (s.stopClears) := by
  have h1 : HoldSafe ({ s with ilk.stop := false } : State) := hold_weaker h rfl fun hh => by
    simp only [hold, Bool.or_eq_true] at hh ⊢
    exact hh.imp (fun hh => .inl (by simpa [inRun] using hh)) id
  unfold stopClears
  exact holdEnds_hold (resumeTimer_hold (raise_hold h1 _)) _

@[simp] theorem stopFollows_hold {s : State} (h : HoldSafe s) (active : Bool) :
    HoldSafe (s.stopFollows active) := by
  unfold stopFollows
  try dsimp only
  (repeat' split) <;> simp +contextual (maxDischargeDepth := 40) [h]

@[simp] theorem breachBegins_hold {s : State} (h : HoldSafe s) (n : Nat) : HoldSafe (s.breachBegins n) := by
  exact hold_of_none (revokeAll_none (by simpa [permit] using h.1) _)

@[simp] theorem breachEnds_hold {s : State} (h : HoldSafe s) (n : Nat) (m : MachineId) (rep : ReportName) (held : Option Permit) :
    HoldSafe (s.breachEnds n m rep held) := by
  unfold breachEnds
  try dsimp only
  (repeat' split) <;> simp +contextual (maxDischargeDepth := 40) [h]

@[simp] theorem writeRam_hold {s : State} (h : HoldSafe s) (r : Ram) : HoldSafe (s.writeRam r) := by
  unfold HoldSafe at *
  simpa [hold, inRun, permit] using h

@[simp] theorem ramStartFact_hold {s : State} (h : HoldSafe s) (n : Nat) : HoldSafe (s.ramStartFact n) := by
  unfold HoldSafe at *
  simpa [hold, inRun, permit] using h

@[simp] theorem updGate_hold {s : State} (h : HoldSafe s) (k : Nat) (f : Gate → Gate) :
    HoldSafe (s.updGate k f) := by
  unfold HoldSafe at *
  simpa [hold, inRun, permit] using h

@[simp] theorem endGate_hold {s : State} (h : HoldSafe s) (k : Nat) : HoldSafe (s.endGate k) := by
  unfold HoldSafe at *
  simpa [hold, inRun, permit] using h

@[simp] theorem faultReading_hold {s : State} (h : HoldSafe s) (k n : Nat) : HoldSafe (s.faultReading k n) := by
  unfold HoldSafe at *
  simpa [hold, inRun, permit] using h

@[simp] theorem goodReading_hold {s : State} (h : HoldSafe s) (k : Nat) (p : Int) :
    HoldSafe (s.goodReading k p) := by
  unfold HoldSafe at *
  simpa [hold, inRun, permit] using h

@[simp] theorem recover_hold {s : State} (h : HoldSafe s) (k : Nat) (p : Int) : HoldSafe (s.recover k p) := by
  unfold HoldSafe at *
  simpa [hold, inRun, permit] using h

@[simp] theorem chargeUnderPressure_hold {s : State} (h : HoldSafe s) (k : Nat) (l : AlarmLevel) :
    HoldSafe (s.chargeUnderPressure k l) := by
  unfold HoldSafe at *
  simpa [hold, inRun, permit] using h

@[simp] theorem alarmEval_hold {s : State} (h : HoldSafe s) (k : Nat) (p : Int) : HoldSafe (s.alarmEval k p) := by
  unfold alarmEval
  try dsimp only
  (repeat' split) <;> simp +contextual (maxDischargeDepth := 40) [h]

@[simp] theorem sectionStep_hold {s : State} (h : HoldSafe s) (k : Nat) (back : Bool) (rd : Reading) :
    HoldSafe (s.sectionStep k back rd) := by
  unfold HoldSafe at *
  simpa [hold, inRun, permit] using h

@[simp] theorem endSection_hold {s : State} (h : HoldSafe s) (k : Nat) : HoldSafe (s.endSection k) := by
  unfold endSection
  try dsimp only
  (repeat' split) <;> simp +contextual (maxDischargeDepth := 40) [h]

@[simp] theorem endSections_hold {s : State} (h : HoldSafe s) (l : List Nat) : HoldSafe (endSections l s) := by
  induction l generalizing s with
  | nil => exact h
  | cons a l ih => exact ih (endSection_hold h a)

@[simp] theorem activateSections_hold {s : State} (h : HoldSafe s) : HoldSafe (s.activateSections) := by
  unfold HoldSafe at *
  simpa [hold, inRun, permit] using h

@[simp] theorem holdSections_hold {s : State} (h : HoldSafe s) : HoldSafe (s.holdSections) := by
  unfold HoldSafe at *
  simpa [hold, inRun, permit] using h

@[simp] theorem commitValves_hold {s : State} (h : HoldSafe s) : HoldSafe (s.commitValves) := by
  unfold HoldSafe at *
  simpa [hold, inRun, permit] using h

@[simp] theorem valveRestart_hold {s : State} (h : HoldSafe s) : HoldSafe (s.valveRestart) := by
  unfold HoldSafe at *
  simpa [hold, inRun, permit] using h

@[simp] theorem conveyorFollows_hold {s : State} (h : HoldSafe s) (active : Bool) :
    HoldSafe (s.conveyorFollows active) := by
  unfold HoldSafe at *
  simpa [hold, inRun, permit] using h

@[simp] theorem handLevel_hold {s : State} (h : HoldSafe s) (fn : TermFn) (t : Nat) (e : Edge) (l : Bool) :
    HoldSafe (s.handLevel fn t e l) := by
  unfold handLevel
  try dsimp only
  (repeat' split) <;> simp +contextual (maxDischargeDepth := 40) [h]

@[simp] theorem inputHolds_hold {s : State} (h : HoldSafe s) (t : Nat) (energised : Bool) :
    HoldSafe (s.inputHolds t energised) := by
  unfold inputHolds
  try dsimp only
  (repeat' split) <;> simp +contextual (maxDischargeDepth := 40) [h]

@[simp] theorem overload_hold {s : State} (h : HoldSafe s) (t : Nat) : HoldSafe (s.overload t) := by
  unfold HoldSafe at *
  simpa [hold, inRun, permit] using h

@[simp] theorem pulseEdge_hold {s : State} (h : HoldSafe s) (t : Nat) : HoldSafe (s.pulseEdge t) := by
  unfold HoldSafe at *
  simpa [hold, inRun, permit] using h

@[simp] theorem periodStart_hold {s : State} (h : HoldSafe s) (t : Nat) : HoldSafe (s.periodStart t) := by
  unfold HoldSafe at *
  simpa [hold, inRun, permit] using h

@[simp] theorem spoilGate_hold {s : State} (h : HoldSafe s) (fn : TermFn) : HoldSafe (s.spoilGate fn) := by
  unfold HoldSafe at *
  simpa [hold, inRun, permit] using h

@[simp] theorem functionLeaves_hold {s : State} (h : HoldSafe s) (fn : TermFn) (level : Bool) :
    HoldSafe (s.functionLeaves fn level) := by
  unfold functionLeaves
  try dsimp only
  (repeat' split) <;> simp +contextual (maxDischargeDepth := 40) [h]

@[simp] theorem functionArrives_hold {s : State} (h : HoldSafe s) (fn : TermFn) (t : Nat) (e : Edge) (level : Bool) :
    HoldSafe (s.functionArrives fn t e level) := by
  unfold functionArrives
  try dsimp only
  (repeat' split) <;> simp +contextual (maxDischargeDepth := 40) [h]

@[simp] theorem assignTerminal_hold {s : State} (h : HoldSafe s) (t : Nat) (r : TermRec) (fn : TermFn) (invert : Bool) (drive : Drive) (edge : Edge) :
    HoldSafe (s.assignTerminal t r fn invert drive edge) := by
  unfold assignTerminal
  try dsimp only
  (repeat' split) <;> simp +contextual (maxDischargeDepth := 40) [h]

@[simp] theorem handOffline_hold {s : State} (h : HoldSafe s) (m : MachineId) : HoldSafe (s.handOffline m) := by
  unfold handOffline
  try dsimp only
  (repeat' split) <;> simp +contextual (maxDischargeDepth := 40) [h]

@[simp] theorem goOffline_hold {s : State} (h : HoldSafe s) (m : MachineId) (c : LinkCause) :
    HoldSafe (s.goOffline m c) := by
  unfold goOffline
  try dsimp only
  (repeat' split) <;> simp +contextual (maxDischargeDepth := 40) [h]

@[simp] theorem goOnline_hold {s : State} (h : HoldSafe s) (m : MachineId) : HoldSafe (s.goOnline m) := by
  unfold HoldSafe at *
  simpa [hold, inRun, permit] using h

@[simp] theorem invalidNotice_hold {s : State} (h : HoldSafe s) (m : MachineId) (before : Bool) (spot : ReportedSpot) :
    HoldSafe (s.invalidNotice m before spot) := by
  unfold HoldSafe at *
  simpa [hold, inRun, permit] using h

@[simp] theorem handStatus_hold {s : State} (h : HoldSafe s) (m : MachineId) (became : Bool) (oldMode : Option Mode) (stopped : Option CarSpot)
    (spot : ReportedSpot) : HoldSafe (s.handStatus m became oldMode stopped spot) := by
  unfold handStatus
  try dsimp only
  (repeat' split) <;> simp +contextual (maxDischargeDepth := 40) [h]

@[simp] theorem takeStatus_hold {s : State} (h : HoldSafe s) (sender : StatusFrom) (mode : Mode) (motion : Motion) (spot : ReportedSpot) :
    HoldSafe (s.takeStatus sender mode motion spot) := by
  have h1 := goOnline_hold h sender.machine
  unfold takeStatus
  dsimp only
  refine handStatus_hold ?_ _ _ _ _ _
  split <;> split <;> simp (maxDischargeDepth := 40) [h, h1]

@[simp] theorem supervisorHeard_hold {s : State} (h : HoldSafe s) : HoldSafe (s.supervisorHeard) := by
  unfold supervisorHeard
  try dsimp only
  (repeat' split) <;> simp +contextual (maxDischargeDepth := 40) [h]

@[simp] theorem updTest_hold {s : State} (h : HoldSafe s) (m : MachineId) (f : LinkTest → LinkTest) :
    HoldSafe (s.updTest m f) := by
  unfold HoldSafe at *
  simpa [hold, inRun, permit] using h

@[simp] theorem startTest_hold {s : State} (h : HoldSafe s) (m : MachineId) : HoldSafe (s.startTest m) := by
  unfold startTest
  dsimp only
  split
  · refine goOffline_hold ?_ m _
    exact hold_raw h (by simp) (by simp) (by simp)
  · exact hold_raw h (by simp) (by simp) (by simp)

@[simp] theorem linkTestOp_hold {s : State} (h : HoldSafe s) (m : MachineId) : HoldSafe (s.linkTestOp m).1 := by
  unfold linkTestOp
  try dsimp only
  (repeat' split) <;> simp +contextual (maxDischargeDepth := 40) [h]

@[simp] theorem testReadOp_hold {s : State} (h : HoldSafe s) (m : MachineId) : HoldSafe (s.testReadOp m).1 := by
  unfold HoldSafe at *
  simpa [hold, inRun, permit] using h

@[simp] theorem testEndOp_hold {s : State} (h : HoldSafe s) (m : MachineId) : HoldSafe (s.testEndOp m).1 := by
  unfold HoldSafe at *
  simpa [hold, inRun, permit] using h

@[simp] theorem readyExpire_hold {s : State} (h : HoldSafe s) (n : Nat) : HoldSafe (s.readyExpire n) := by
  unfold readyExpire
  try dsimp only
  (repeat' split) <;> simp +contextual (maxDischargeDepth := 40) [h]

@[simp] theorem dueExpire_hold {s : State} (h : HoldSafe s) : HoldSafe (s.dueExpire) := by
  unfold dueExpire
  try dsimp only
  (repeat' split) <;> simp +contextual (maxDischargeDepth := 40) [h]

@[simp] theorem holdOverExpire_hold {s : State} (h : HoldSafe s) : HoldSafe (s.holdOverExpire) := by
  unfold holdOverExpire
  try dsimp only
  (repeat' split) <;> simp +contextual (maxDischargeDepth := 40) [h]

@[simp] theorem deadlineExpire_hold {s : State} (h : HoldSafe s) (m : MachineId) :
    HoldSafe (s.deadlineExpire m) := by
  unfold deadlineExpire
  try dsimp only
  (repeat' split) <;> simp +contextual (maxDischargeDepth := 40) [h]

@[simp] theorem ramTimerExpire_hold {s : State} (h : HoldSafe s) : HoldSafe (s.ramTimerExpire) := by
  unfold ramTimerExpire
  try dsimp only
  (repeat' split) <;> simp +contextual (maxDischargeDepth := 40) [h]

@[simp] theorem lateTimerExpire_hold {s : State} (h : HoldSafe s) : HoldSafe (s.lateTimerExpire) := by
  unfold lateTimerExpire
  try dsimp only
  (repeat' split) <;> simp +contextual (maxDischargeDepth := 40) [h]

@[simp] theorem confirmTimerExpire_hold {s : State} (h : HoldSafe s) (n : Nat) (d : Side) :
    HoldSafe (s.confirmTimerExpire n d) := by
  unfold HoldSafe at *
  simpa [hold, inRun, permit] using h

@[simp] theorem taskTimerExpire_hold {s : State} (h : HoldSafe s) (d : Side) : HoldSafe (s.taskTimerExpire d) := by
  unfold HoldSafe at *
  simpa [hold, inRun, permit] using h

@[simp] theorem visitTimerExpire_hold {s : State} (h : HoldSafe s) (d : Side) :
    HoldSafe (s.visitTimerExpire d) := by
  unfold HoldSafe at *
  simpa [hold, inRun, permit] using h

@[simp] theorem isolateExpire_hold {s : State} (h : HoldSafe s) : HoldSafe (s.isolateExpire) := by
  unfold HoldSafe at *
  simpa [hold, inRun, permit] using h

@[simp] theorem valveTimerExpire_hold {s : State} (h : HoldSafe s) : HoldSafe (s.valveTimerExpire) := by
  unfold HoldSafe at *
  simpa [hold, inRun, permit] using h

@[simp] theorem chargeTimerExpire_hold {s : State} (h : HoldSafe s) (n : Nat) :
    HoldSafe (s.chargeTimerExpire n) := by
  unfold HoldSafe at *
  simpa [hold, inRun, permit] using h

@[simp] theorem moveTimerExpire_hold {s : State} (h : HoldSafe s) : HoldSafe (s.moveTimerExpire) := by
  unfold HoldSafe at *
  simpa [hold, inRun, permit] using h

@[simp] theorem updLoad_hold {s : State} (h : HoldSafe s) (f : LoadRec → LoadRec) : HoldSafe (s.updLoad f) := by
  unfold HoldSafe at *
  simpa [hold, inRun, permit] using h

@[simp] theorem hotTimerExpire_hold {s : State} (h : HoldSafe s) : HoldSafe (s.hotTimerExpire) := by
  unfold HoldSafe at *
  simpa [hold, inRun, permit] using h

@[simp] theorem setPhase_hold {s : State} (h : HoldSafe s) (t : Option Nat) : HoldSafe (s.setPhase t) := by
  unfold HoldSafe at *
  simpa [hold, inRun, permit] using h

@[simp] theorem sprayExpire_hold {s : State} (h : HoldSafe s) : HoldSafe (s.sprayExpire) := by
  unfold sprayExpire
  try dsimp only
  (repeat' split) <;> simp +contextual (maxDischargeDepth := 40) [h]

@[simp] theorem drainExpire_hold {s : State} (h : HoldSafe s) : HoldSafe (s.drainExpire) := by
  unfold drainExpire
  try dsimp only
  (repeat' split) <;> simp +contextual (maxDischargeDepth := 40) [h]

@[simp] theorem coolExpire_hold {s : State} (h : HoldSafe s) (b : Nat) : HoldSafe (s.coolExpire b) := by
  unfold HoldSafe at *
  simpa [hold, inRun, permit] using h

@[simp] theorem gateExpire_hold {s : State} (h : HoldSafe s) : HoldSafe (s.gateExpire) := by
  unfold gateExpire
  try dsimp only
  (repeat' split) <;> simp +contextual (maxDischargeDepth := 40) [h]

theorem forEach_hold {s : State} (h : HoldSafe s) {f : State → Nat → State} (hf : ∀ {t}, HoldSafe t → ∀ n, HoldSafe (f t n))
    (l : List Nat) : HoldSafe (forEach f l s) := by
  induction l generalizing s with
  | nil => exact h
  | cons a l ih => exact ih (hf h a)

@[simp] theorem sweepOnce_hold {s : State} (h : HoldSafe s) : HoldSafe s.sweepOnce := by
  have h1 : ∀ l, HoldSafe (forEach overdueCheck l (forEach readyExpire l s)) := fun l =>
    forEach_hold (forEach_hold h (fun ht n => readyExpire_hold ht n) l) (fun ht n => overdueCheck_hold ht n) l
  unfold sweepOnce
  dsimp only
  refine gateExpire_hold (forEach_hold (drainExpire_hold (sprayExpire_hold (hotTimerExpire_hold (moveTimerExpire_hold
    (forEach_hold (valveTimerExpire_hold (isolateExpire_hold (visitTimerExpire_hold (visitTimerExpire_hold
      (taskTimerExpire_hold (taskTimerExpire_hold
      (forEach_hold ?_ (fun ht n => confirmTimerExpire_hold (confirmTimerExpire_hold ht n .ps) n .cs) _) _) _) _) _)))
    (fun ht n => chargeTimerExpire_hold ht n) _)))))
    (fun ht n => coolExpire_hold ht n) _)
  simp (maxDischargeDepth := 40) [h1]

@[simp] theorem sweeps_hold {s : State} (h : HoldSafe s) (k : Nat) : HoldSafe (sweeps k s) :=
  sweeps_keeps (P := HoldSafe) sweepOnce_hold k h

@[simp] theorem heldSweep_hold {s : State} (h : HoldSafe s) : HoldSafe s.heldSweep := by
  unfold heldSweep
  split
  · exact h
  · exact sweeps_hold h _

@[simp] theorem reject_hold {s : State} (h : HoldSafe s) (m : MachineId) (rep : ReportName) (oven : Option Nat) :
    HoldSafe (s.reject m rep oven) := by
  unfold HoldSafe at *
  simpa [hold, inRun, permit] using h

@[simp] theorem doorOffCovered_hold {s : State} (h : HoldSafe s) (m : MachineId) (d : Side) (n : Nat) :
    HoldSafe (s.doorOffCovered m d n) := by
  unfold doorOffCovered
  try dsimp only
  (repeat' split) <;> simp +contextual (maxDischargeDepth := 40) [h]

@[simp] theorem doorOffBreach_hold {s : State} (h : HoldSafe s) (m : MachineId) (d : Side) (n : Nat) :
    HoldSafe (s.doorOffBreach m d n) := by
  unfold doorOffBreach
  try dsimp only
  (repeat' split) <;> simp +contextual (maxDischargeDepth := 40) [h]

@[simp] theorem takeDoorOff_hold {s : State} (h : HoldSafe s) (m : MachineId) (d : Side) (n : Nat) :
    HoldSafe (s.takeDoorOff m d n) := by
  unfold takeDoorOff
  try dsimp only
  (repeat' split) <;> simp +contextual (maxDischargeDepth := 40) [h]

@[simp] theorem takeDoorOn_hold {s : State} (h : HoldSafe s) (d : Side) (n : Nat) :
    HoldSafe (s.takeDoorOn d n) := by
  have h1 := doorOnFact_hold h n d
  unfold takeDoorOn
  split
  · rename_i t ht
    rw [ht] at h1
    exact dispatchDoor_hold (completionTest_hold h1) _
  · rename_i t ht
    rw [ht] at h1
    exact h1

@[simp] theorem ramStartCovered_hold {s : State} (h : HoldSafe s) (n : Nat) : HoldSafe (s.ramStartCovered n) := by
  unfold ramStartCovered
  try dsimp only
  (repeat' split) <;> simp +contextual (maxDischargeDepth := 40) [h]

@[simp] theorem ramStartBreach_hold {s : State} (h : HoldSafe s) (n : Nat) : HoldSafe (s.ramStartBreach n) := by
  unfold ramStartBreach
  try dsimp only
  (repeat' split) <;> simp +contextual (maxDischargeDepth := 40) [h]

@[simp] theorem takeRamStart_hold {s : State} (h : HoldSafe s) (n : Nat) : HoldSafe (s.takeRamStart n) := by
  unfold takeRamStart
  try dsimp only
  (repeat' split) <;> simp +contextual (maxDischargeDepth := 40) [h]

@[simp] theorem ramSequence_hold {s : State} (h : HoldSafe s) (n : Nat) (rep : ReportName) :
    HoldSafe (s.ramSequence n rep) := by
  unfold HoldSafe at *
  simpa [hold, inRun, permit] using h

@[simp] theorem takeRamAtEnd_hold {s : State} (h : HoldSafe s) (n : Nat) : HoldSafe (s.takeRamAtEnd n) := by
  unfold takeRamAtEnd
  try dsimp only
  (repeat' split) <;> simp +contextual (maxDischargeDepth := 40) [h]

@[simp] theorem takeRamHome_hold {s : State} (h : HoldSafe s) (n : Nat) : HoldSafe (s.takeRamHome n) := by
  unfold takeRamHome
  try dsimp only
  (repeat' split) <;> simp +contextual (maxDischargeDepth := 40) [h]

@[simp] theorem takeChargeStart_hold {s : State} (h : HoldSafe s) (n : Nat) : HoldSafe (s.takeChargeStart n) := by
  unfold takeChargeStart
  try dsimp only
  (repeat' split) <;> simp +contextual (maxDischargeDepth := 40) [h]

@[simp] theorem takeDumpDone_hold {s : State} (h : HoldSafe s) (b : Nat) : HoldSafe (s.takeDumpDone b) := by
  unfold takeDumpDone
  split
  · rename_i l hl
    split
    · dsimp only
      have h := raise_hold (setBay_hold h b (.cooling l.oven s.now (timeAdd s.now s.qnu.vals.tCool))) (.loadDumped l)
      exact sendOnward_hold (updCar_hold (s := { State.raise _ _ with qnu.load := none }) h _)
    · exact raise_hold h _
  · exact raise_hold h _

@[simp] theorem load_hold {s : State} (h : HoldSafe s) (f : Loaded → Loaded) : HoldSafe (s.load f) := by
  unfold HoldSafe at *
  simpa [hold, inRun, permit] using h

@[simp] theorem newTables_hold {s : State} (h : HoldSafe s) (nOv k : Nat) (lasts : List Nat) :
    HoldSafe (newTables nOv k lasts s) := by
  refine hold_weaker h rfl fun hh => ?_
  simp only [hold, Bool.or_eq_true] at hh ⊢
  refine hh.imp id fun hh => ?_
  obtain ⟨o, ho, hb⟩ := List.any_eq_true.1 hh
  obtain ⟨n, -, rfl⟩ := List.mem_map.1 ho
  cases hb

@[simp] theorem reload_hold {s : State} (h : HoldSafe s) : HoldSafe (s.reload) := by
  unfold HoldSafe at *
  simpa [hold, inRun, permit] using h

@[simp] theorem takeBattery_hold {s : State} (h : HoldSafe s) (nOv k : Nat) (lasts : List Nat) :
    HoldSafe (takeBattery nOv k lasts s) := by
  unfold takeBattery
  try dsimp only
  (repeat' split) <;> simp +contextual (maxDischargeDepth := 40) [h]

@[simp] theorem takeSeries_hold {s : State} (h : HoldSafe s) (p : SeriesParams) (start : Option Time32) :
    HoldSafe (takeSeries p start s) := by
  unfold HoldSafe at *
  simpa [hold, inRun, permit] using h

@[simp] theorem takeTiming_hold {s : State} (h : HoldSafe s) (v : Timing) : HoldSafe (takeTiming v s) := by
  have h1 : HoldSafe (({ s with cfg.timing := v } : State).load fun l => { l with timing := true }) := h
  unfold takeTiming
  dsimp only
  split
  · refine retest_hold ?_
    have h2 : HoldSafe (if s.cfg.timing.w = v.w ∧ s.cfg.timing.l = v.l then
        (({ s with cfg.timing := v } : State).load fun l => { l with timing := true }) else
        (({ s with cfg.timing := v } : State).load fun l => { l with timing := true }).readySweep) := by
      split
      · exact h1
      · exact readySweep_hold h1
    split
    · split
      · exact h2
      · exact setIsolate_hold h2 _ _
    · exact h2
  · exact h1

@[simp] theorem takePressure_hold {s : State} (h : HoldSafe s) (k : Nat) (p : PressureParams) :
    HoldSafe (takePressure k p s) := by
  unfold HoldSafe at *
  simpa [hold, inRun, permit] using h

@[simp] theorem takeWharf_hold {s : State} (h : HoldSafe s) (v : WharfVals) : HoldSafe (takeWharf v s).1 := by
  unfold HoldSafe at *
  simpa [hold, inRun, permit] using h

@[simp] theorem takeDoors_hold {s : State} (h : HoldSafe s) (v : DoorVals) : HoldSafe (takeDoors v s) := by
  unfold HoldSafe at *
  simpa [hold, inRun, permit] using h

@[simp] theorem takeTerminal_hold {s : State} (h : HoldSafe s) (t : Nat) (fn : TermFn) (invert : Bool) (drive : Drive) (edge : Edge) :
    HoldSafe (takeTerminal t fn invert drive edge s).1 := by
  unfold takeTerminal
  try dsimp only
  (repeat' split) <;> simp +contextual (maxDischargeDepth := 40) [h]

@[simp] theorem takeLink_hold {s : State} (h : HoldSafe s) (l : LinkId) (v : LineSettings) :
    HoldSafe (takeLink l v s).1 := by
  unfold HoldSafe at *
  simpa [hold, inRun, permit] using h

@[simp] theorem loadNotice_hold {s : State} (h : HoldSafe s) (n : Nat) (d : Side) :
    HoldSafe (s.loadNotice n d) := by
  unfold HoldSafe at *
  simpa [hold, inRun, permit] using h

@[simp] theorem takeOvenLoad_hold {s : State} (h : HoldSafe s) (v : OvenLoad) : HoldSafe (takeOvenLoad v s) := by
  have h1 := updOven_hold (f := fun (o : OvenRec) => { o with
    state := v.state, chargeEnd := v.chargeEnd.map BitVec.toNat, target := v.target, mode := v.mode,
    fixedPush := v.fixedPush.map BitVec.toNat, breach := false, overdue := false, stickers := 0 }) h v.oven
    fun o ho => by simp at ho
  have h2 := updDoor_hold (updDoor_hold h1 v.oven .ps fun _ => loadedDoor s.dru.vals.cleanThreshold v.doorPs)
    v.oven .cs fun _ => loadedDoor s.dru.vals.cleanThreshold v.doorCs
  unfold takeOvenLoad
  dsimp only
  refine load_hold (loadNotice_hold (loadNotice_hold ?_ _ _) _ _) _
  exact hold_raw h2 rfl rfl rfl

@[simp] theorem setTimeOp_hold {s : State} (h : HoldSafe s) (t : Time32) : HoldSafe (setTimeOp t s).1 := by
  unfold HoldSafe at *
  simpa [hold, inRun, permit] using h

@[simp] theorem moveOven_hold {s : State} (h : HoldSafe s) (n : Nat) (st : OvenState) :
    HoldSafe (s.moveOven n st) := by
  unfold moveOven
  try dsimp only
  (repeat' split) <;> simp +contextual (maxDischargeDepth := 40) [h]

@[simp] theorem ovenServiceOp_hold {s : State} (h : HoldSafe s) (n : Nat) (dir : ServiceDir) :
    HoldSafe (ovenServiceOp n dir s).1 := by
  unfold ovenServiceOp
  try dsimp only
  (repeat' split) <;> simp +contextual (maxDischargeDepth := 40) [h]

@[simp] theorem setTargetOp_hold {s : State} (h : HoldSafe s) (n target : Nat) :
    HoldSafe (setTargetOp n target s).1 := by
  unfold setTargetOp
  try dsimp only
  (repeat' split) <;> simp +contextual (maxDischargeDepth := 40) [h]

@[simp] theorem makeupOp_hold {s : State} (h : HoldSafe s) (n : Nat) : HoldSafe (makeupOp n s).1 := by
  unfold makeupOp
  try dsimp only
  (repeat' split) <;> simp +contextual (maxDischargeDepth := 40) [h]

@[simp] theorem cancelMakeupOp_hold {s : State} (h : HoldSafe s) (n : Nat) : HoldSafe (cancelMakeupOp n s).1 := by
  unfold cancelMakeupOp
  try dsimp only
  (repeat' split) <;> simp +contextual (maxDischargeDepth := 40) [h]

@[simp] theorem planStartOp_hold {s : State} (h : HoldSafe s) (start : Option Time32) :
    HoldSafe (planStartOp start s).1 := by
  unfold planStartOp
  try dsimp only
  (repeat' split) <;> simp +contextual (maxDischargeDepth := 40) [h]

@[simp] theorem planHaltOp_hold {s : State} (h : HoldSafe s) : HoldSafe (s.planHaltOp).1 := by
  unfold planHaltOp
  try dsimp only
  (repeat' split) <;> simp +contextual (maxDischargeDepth := 40) [h]

@[simp] theorem planResumeReq_hold {s : State} (h : HoldSafe s) : HoldSafe (s.planResumeReq).1 := by
  unfold planResumeReq
  try dsimp only
  (repeat' split) <;> simp +contextual (maxDischargeDepth := 40) [h]

@[simp] theorem planStageOp_hold {s : State} (h : HoldSafe s) : HoldSafe (s.planStageOp).1 := by
  unfold HoldSafe at *
  simpa [hold, inRun, permit] using h

@[simp] theorem setModeOp_hold {s : State} (h : HoldSafe s) (n : Nat) (mode : SlotMode) (fixedPush : Option Time32) :
    HoldSafe (setModeOp n mode fixedPush s).1 := by
  unfold setModeOp
  try dsimp only
  (repeat' split) <;> simp +contextual (maxDischargeDepth := 40) [h]

@[simp] theorem setModeRangeOp_hold {s : State} (h : HoldSafe s) (first last : Nat) (mode : Option SlotMode) (fixedPush : Option Time32) :
    HoldSafe (setModeRangeOp first last mode fixedPush s).1 := by
  unfold HoldSafe at *
  simpa [hold, inRun, permit] using h

@[simp] theorem rangeAbortOp_hold {s : State} (h : HoldSafe s) : HoldSafe (s.rangeAbortOp).1 := by
  unfold HoldSafe at *
  simpa [hold, inRun, permit] using h

@[simp] theorem clearBreachOp_hold {s : State} (h : HoldSafe s) (n : Nat) : HoldSafe (clearBreachOp n s).1 := by
  unfold clearBreachOp
  try dsimp only
  (repeat' split) <;> simp +contextual (maxDischargeDepth := 40) [h]

@[simp] theorem pushRetryOp_hold {s : State} (h : HoldSafe s) (n : Nat) : HoldSafe (pushRetryOp n s).1 := by
  unfold pushRetryOp
  try dsimp only
  (repeat' split) <;> simp +contextual (maxDischargeDepth := 40) [h]

/-- The oven of an abandoned push keeps its breach flag (R16). -/
@[simp] theorem backToReady_hold {s : State} (h : HoldSafe s) (n : Nat) : HoldSafe (s.updOven n backToReady) := by
  refine updOven_hold h n fun o => ?_
  unfold backToReady
  split <;> exact id

@[simp] theorem abandonPush_hold {s : State} (h : HoldSafe s) (p : PushRec) : HoldSafe (s.abandonPush p) := by
  unfold abandonPush
  try dsimp only
  (repeat' split) <;> simp +contextual (maxDischargeDepth := 40) [h]

@[simp] theorem abandonOp_hold {s : State} (h : HoldSafe s) (n : Nat) : HoldSafe (abandonOp n s).1 := by
  unfold abandonOp
  try dsimp only
  (repeat' split) <;> simp +contextual (maxDischargeDepth := 40) [h]

@[simp] theorem leakReportOp_hold {s : State} (h : HoldSafe s) (n : Nat) (side : Option Side) :
    HoldSafe (leakReportOp n side s).1 := by
  unfold leakReportOp
  try dsimp only
  (repeat' split) <;> simp +contextual (maxDischargeDepth := 40) [h]

@[simp] theorem setDamperOp_hold {s : State} (h : HoldSafe s) (k value : Nat) :
    HoldSafe (setDamperOp k value s).1 := by
  unfold HoldSafe at *
  simpa [hold, inRun, permit] using h

@[simp] theorem setAutoOp_hold {s : State} (h : HoldSafe s) (k : Nat) : HoldSafe (setAutoOp k s).1 := by
  unfold HoldSafe at *
  simpa [hold, inRun, permit] using h

@[simp] theorem setSetpointOp_hold {s : State} (h : HoldSafe s) (k : Nat) (value : Int) :
    HoldSafe (setSetpointOp k value s).1 := by
  unfold HoldSafe at *
  simpa [hold, inRun, permit] using h

@[simp] theorem blockedInMotion_hold {s : State} (h : HoldSafe s) (run : List TrackSpot) :
    HoldSafe (s.blockedInMotion run) := by
  unfold HoldSafe at *
  simpa [hold, inRun, permit] using h

@[simp] theorem trackBlockOp_hold {s : State} (h : HoldSafe s) (first last : Option TrackSpot) :
    HoldSafe (trackBlockOp first last s).1 := by
  unfold HoldSafe at *
  simpa [hold, inRun, permit] using h

@[simp] theorem trackFreeOp_hold {s : State} (h : HoldSafe s) (first last : Option TrackSpot) :
    HoldSafe (trackFreeOp first last s).1 := by
  unfold HoldSafe at *
  simpa [hold, inRun, permit] using h

@[simp] theorem writeOutput_hold {s : State} (h : HoldSafe s) (t : Nat) (f : Bool → Bool) :
    HoldSafe (writeOutput t f s).1 := by
  unfold HoldSafe at *
  simpa [hold, inRun, permit] using h

@[simp] theorem setOutputOp_hold {s : State} (h : HoldSafe s) (t : Nat) (level : Option Bool) :
    HoldSafe (setOutputOp t level s).1 := by
  unfold HoldSafe at *
  simpa [hold, inRun, permit] using h

@[simp] theorem clearTerminalOp_hold {s : State} (h : HoldSafe s) (t : Nat) : HoldSafe (clearTerminalOp t s).1 := by
  unfold HoldSafe at *
  simpa [hold, inRun, permit] using h

@[simp] theorem linkClearOp_hold {s : State} (h : HoldSafe s) (l : Option LinkId) :
    HoldSafe (linkClearOp l s).1 := by
  unfold HoldSafe at *
  simpa [hold, inRun, permit] using h

@[simp] theorem enterRun_hold {s : State} (h : HoldSafe s) : HoldSafe (s.enterRun) := by
  have h1 : HoldSafe (({ ({ s with cfg.part := .run } : State).raise (.partState .run .commit) with tb.timeOpen := false } : State)) := by
    have h2 : HoldSafe ({ s with cfg.part := .run } : State) := hold_weaker h rfl fun hh => by
      simp only [hold, Bool.or_eq_true] at hh ⊢
      exact hh.imp (fun hh => .inr (by simpa [inRun] using hh)) id
    exact raise_hold h2 (.partState .run .commit)
  have h2 := readySweep_hold h1
  unfold enterRun
  dsimp only
  refine testDump_hold (testMove_hold (leaveUnknown_hold (commitValves_hold (retest_hold (activateSections_hold
    (commitDoors_hold (commitDoors_hold ?_ _) _))))))
  split
  · exact h2
  · exact sendClears_hold h2 _

@[simp] theorem commitOp_hold {s : State} (h : HoldSafe s) : HoldSafe (s.commitOp).1 := by
  unfold commitOp
  try dsimp only
  (repeat' split) <;> simp +contextual (maxDischargeDepth := 40) [h]

@[simp] theorem enterConfig_hold {s : State} (h : HoldSafe s) : HoldSafe (s.enterConfig) := by
  have h1 : (({ s with cfg.part := .config } : State).raise (.partState .config .restart)).planRestart.permit .qc = none := by
    simpa [permit] using h.1
  unfold enterConfig
  dsimp only
  exact valveRestart_hold (holdSections_hold (doorRestart_hold (holdStarts_hold (hold_of_none (revokeAll_none h1 _)) _)))

@[simp] theorem restartOp_hold {s : State} (h : HoldSafe s) : HoldSafe (s.restartOp).1 := by
  unfold restartOp
  try dsimp only
  (repeat' split) <;> simp +contextual (maxDischargeDepth := 40) [h]

@[simp] theorem answer_hold {s : State} (h : HoldSafe s) (d : AnswerData) : HoldSafe (s.answer d).1 := by
  unfold answer
  (repeat' split) <;> exact h

@[simp] theorem statusAnswer_hold {s : State} (h : HoldSafe s) : HoldSafe (s.statusAnswer).1 := by
  unfold statusAnswer
  (repeat' split) <;> exact h

@[simp] theorem timeAnswer_hold {s : State} (h : HoldSafe s) : HoldSafe (s.timeAnswer).1 := by
  unfold timeAnswer
  (repeat' split) <;> exact h

@[simp] theorem ovenAnswer_hold {s : State} (h : HoldSafe s) (n : Nat) : HoldSafe (ovenAnswer n s).1 := by
  unfold ovenAnswer
  (repeat' split) <;> exact h

@[simp] theorem planAnswer_hold {s : State} (h : HoldSafe s) : HoldSafe (s.planAnswer).1 := by
  unfold planAnswer
  (repeat' split) <;> exact h

@[simp] theorem slotAnswer_hold {s : State} (h : HoldSafe s) (i : Nat) : HoldSafe (slotAnswer i s).1 := by
  unfold slotAnswer
  (repeat' split) <;> exact h

@[simp] theorem machinesAnswer_hold {s : State} (h : HoldSafe s) : HoldSafe (s.machinesAnswer).1 := by
  unfold machinesAnswer
  (repeat' split) <;> exact h

@[simp] theorem pushAnswerOf_hold {s : State} (h : HoldSafe s) : HoldSafe (s.pushAnswerOf).1 := by
  unfold pushAnswerOf
  (repeat' split) <;> exact h

@[simp] theorem doorAnswer_hold {s : State} (h : HoldSafe s) (n : Nat) : HoldSafe (doorAnswer n s).1 := by
  unfold doorAnswer
  (repeat' split) <;> exact h

@[simp] theorem tasksAnswer_hold {s : State} (h : HoldSafe s) (d : Side) : HoldSafe (tasksAnswer d s).1 := by
  unfold tasksAnswer
  (repeat' split) <;> exact h

@[simp] theorem sectionAnswer_hold {s : State} (h : HoldSafe s) (k : Nat) : HoldSafe (sectionAnswer k s).1 := by
  unfold sectionAnswer
  (repeat' split) <;> exact h

@[simp] theorem valvesAnswer_hold {s : State} (h : HoldSafe s) (n : Option Nat) :
    HoldSafe (valvesAnswer n s).1 := by
  unfold valvesAnswer
  (repeat' split) <;> exact h

@[simp] theorem quenchAnswer_hold {s : State} (h : HoldSafe s) : HoldSafe (s.quenchAnswer).1 := by
  unfold quenchAnswer
  (repeat' split) <;> exact h

@[simp] theorem terminalsAnswer_hold {s : State} (h : HoldSafe s) (t : Option Nat) :
    HoldSafe (terminalsAnswer t s).1 := by
  unfold terminalsAnswer
  (repeat' split) <;> exact h

end State

end Sys2Proof.Machine
end

