-- ==== Sys2Proof/Laws/HoldB.lean ====
section
/-! SUPPORT. `HoldSafe` under the body of every command and under a step's end. -/

set_option linter.all false

namespace Sys2Proof.Machine

open Sys2Proof

namespace State

theorem runOnly_hold {s : State} (h : HoldSafe s) {take : State → State × Reply} (ht : HoldSafe (take s).1) : HoldSafe (runOnly take s).1 := by
  unfold runOnly
  split
  · exact ht
  · exact h

theorem forOven_hold {s : State} (h : HoldSafe s) (n : Nat) {take : State → State × Reply} (ht : HoldSafe (take s).1) :
    HoldSafe (forOven n take s).1 := by
  unfold forOven
  split
  · exact ht
  · exact h

theorem forSection_hold {s : State} (h : HoldSafe s) (k : Nat) {take : State → State × Reply} (ht : HoldSafe (take s).1) :
    HoldSafe (forSection k take s).1 := by
  unfold forSection
  split
  · exact ht
  · exact h

theorem forMLink_hold {s : State} (h : HoldSafe s) (l : Option LinkId) {take : MachineId → State → State × Reply}
    (ht : ∀ m, HoldSafe (take m s).1) : HoldSafe (forMLink l take s).1 := by
  unfold forMLink
  split
  · exact ht _
  · exact h

theorem setup_hold {s : State} (h : HoldSafe s) (configOnly rangeOk : Bool) {take : State → State × Reply}
    (ht : rangeOk = true → HoldSafe (take s).1) : HoldSafe (setup configOnly rangeOk take s).1 := by
  unfold setup
  split
  · exact h
  · split
    · rename_i hr
      exact ht hr
    · exact h

@[simp] theorem kick_hold {s : State} (h : HoldSafe s) : HoldSafe s.kick := by
  exact hold_raw h (by simp) (by simp) (by simp)

@[simp] theorem settle_hold {s : State} (h : HoldSafe s) : HoldSafe s.settle := kick_hold (heldSweep_hold h)

@[simp] theorem idle_hold {s : State} (h : HoldSafe s) : HoldSafe s.idle := h

theorem machineFrame_hold {s : State} (h : HoldSafe s) (m : MachineId) {body : State → State}
    (hb : ∀ {t}, HoldSafe t → HoldSafe (body t)) : HoldSafe (machineFrame m body s) := by
  unfold machineFrame
  split
  · exact h
  · exact hb (updPort_hold h _ _)

@[simp] theorem retryHeld_hold {s : State} (h : HoldSafe s) (l : List HeldOffer) : HoldSafe (retryHeld l s) := by
  induction l generalizing s with
  | nil => exact h
  | cons a l ih =>
    rw [retryHeld]
    split
    · exact h
    · refine ih (offerValve_hold ?_ _ _)
      exact hold_raw h rfl rfl rfl

theorem request_hold {s : State} (h : HoldSafe s) (tag : Byte) {body : State → State × Reply}
    (hb : ∀ {t}, HoldSafe t → HoldSafe (body t).1) : HoldSafe (request tag body s) := by
  unfold request
  split
  · exact discard_hold h _ _
  · exact hold_raw (hb (supervisorHeard_hold h)) rfl rfl rfl

end State

open State

theorem doHardReset_hold {s : State} (h : HoldSafe s) : HoldSafe (doHardReset s) := by
  exact hold_of_none fun m => by cases m <;> rfl

theorem doControlTick_hold {s : State} (h : HoldSafe s) : HoldSafe (doControlTick s) := by
  exact endSections_hold (s := { s with tb.phase := (s.tb.phase + 1) % 4 }) h _

theorem countSecond_hold {s : State} (h : HoldSafe s) : HoldSafe (countSecond s) := by
  have h1 : HoldSafe ({ s with tb.time := s.now + 1 } : State) := hold_raw h rfl rfl rfl
  unfold countSecond
  split
  · dsimp only
    split
    · exact raise_hold h1 _
    · exact h1
  · exact h

theorem tickRounds_hold {s : State} (h : HoldSafe s) : HoldSafe (tickRounds s) := by
  exact hold_raw h rfl rfl rfl

theorem doOneSecondTick_hold {s : State} (h : HoldSafe s) : HoldSafe (doOneSecondTick s) := by
  have h1 := countSecond_hold h
  unfold doOneSecondTick
  dsimp only
  split
  · exact retryHeld_hold (tickRounds_hold h1) _
  · exact h1

theorem doInspectionAccrual_hold {s : State} (h : HoldSafe s) (d : Side) : HoldSafe (doInspectionAccrual d s) := by
  unfold doInspectionAccrual
  try dsimp only
  (repeat' split) <;> simp (maxDischargeDepth := 40) [h]


theorem doReadyExpiry_hold {s : State} (h : HoldSafe s) (n : Nat) : HoldSafe (doReadyExpiry n s) := by
  exact readyExpire_hold h n

theorem doOverdueExpiry_hold {s : State} (h : HoldSafe s) (n : Nat) : HoldSafe (doOverdueExpiry n s) := by
  exact overdueCheck_hold h n

theorem doDueExpiry_hold {s : State} (h : HoldSafe s) : HoldSafe (doDueExpiry s) := by
  exact dueExpire_hold h

theorem doHoldOverExpiry_hold {s : State} (h : HoldSafe s) : HoldSafe (doHoldOverExpiry s) := by
  exact holdOverExpire_hold h

theorem doRangeStepEnd_hold {s : State} (h : HoldSafe s) : HoldSafe (doRangeStepEnd s) := by
  unfold doRangeStepEnd
  split
  · exact rangeStep_hold h _
  · exact h

theorem doUseDeadlineExpiry_hold {s : State} (h : HoldSafe s) (m : MachineId) :
    HoldSafe (doUseDeadlineExpiry m s) := by
  exact deadlineExpire_hold h m

theorem doTRamExpiry_hold {s : State} (h : HoldSafe s) : HoldSafe (doTRamExpiry s) := by
  exact ramTimerExpire_hold h

theorem doStageTimerExpiry_hold {s : State} (h : HoldSafe s) : HoldSafe (doStageTimerExpiry s) := by
  exact lateTimerExpire_hold h

theorem doConfirmExpiry_hold {s : State} (h : HoldSafe s) (n : Nat) (d : Side) :
    HoldSafe (doConfirmExpiry n d s) := by
  exact confirmTimerExpire_hold h n d

theorem doTaskTimerExpiry_hold {s : State} (h : HoldSafe s) (d : Side) : HoldSafe (doTaskTimerExpiry d s) := by
  exact taskTimerExpire_hold h d

theorem doRoundVisitTimerExpiry_hold {s : State} (h : HoldSafe s) (d : Side) :
    HoldSafe (doRoundVisitTimerExpiry d s) := by
  exact visitTimerExpire_hold h d

theorem doIsolateTimerExpiry_hold {s : State} (h : HoldSafe s) : HoldSafe (doIsolateTimerExpiry s) := by
  exact isolateExpire_hold h

theorem doValveTaskTimerExpiry_hold {s : State} (h : HoldSafe s) : HoldSafe (doValveTaskTimerExpiry s) := by
  exact valveTimerExpire_hold h

theorem doChargeTimerExpiry_hold {s : State} (h : HoldSafe s) (n : Nat) : HoldSafe (doChargeTimerExpiry n s) := by
  exact chargeTimerExpire_hold h n

theorem doMoveTimerExpiry_hold {s : State} (h : HoldSafe s) : HoldSafe (doMoveTimerExpiry s) := by
  exact moveTimerExpire_hold h

theorem doHotTimerExpiry_hold {s : State} (h : HoldSafe s) : HoldSafe (doHotTimerExpiry s) := by
  exact hotTimerExpire_hold h

theorem doSprayTimerExpiry_hold {s : State} (h : HoldSafe s) : HoldSafe (doSprayTimerExpiry s) := by
  exact sprayExpire_hold h

theorem doDrainTimerExpiry_hold {s : State} (h : HoldSafe s) : HoldSafe (doDrainTimerExpiry s) := by
  exact drainExpire_hold h

theorem doCoolTimerExpiry_hold {s : State} (h : HoldSafe s) (b : Nat) : HoldSafe (doCoolTimerExpiry b s) := by
  exact coolExpire_hold h b

theorem doGateTimerExpiry_hold {s : State} (h : HoldSafe s) : HoldSafe (doGateTimerExpiry s) := by
  exact gateExpire_hold h

theorem doMLinkSilenceExpiry_hold {s : State} (h : HoldSafe s) (m : MachineId) :
    HoldSafe (doMLinkSilenceExpiry m s) := by
  unfold doMLinkSilenceExpiry
  split
  · split
    · exact goOffline_hold h m _
    · exact updPort_hold h _ _
  · exact h

theorem doSLinkSilenceExpiry_hold {s : State} (h : HoldSafe s) : HoldSafe (doSLinkSilenceExpiry s) := by
  unfold doSLinkSilenceExpiry
  split
  · dsimp only
    split
    · exact raise_hold (updPort_hold h _ _) _
    · exact updPort_hold h _ _
  · exact h

theorem doCharacterGapExpiry_hold {s : State} (h : HoldSafe s) (l : LinkId) :
    HoldSafe (doCharacterGapExpiry l s) := by
  unfold doCharacterGapExpiry
  split
  · exact h
  · exact updPort_hold (discard_hold h l _) l _

theorem doTestCharacter_hold {s : State} (h : HoldSafe s) (m : MachineId) (wave : LineWave) :
    HoldSafe (doTestCharacter m wave s) := by
  unfold doTestCharacter
  (repeat' split) <;> first | exact h | exact updTest_hold h m _

theorem doSLinkFrameSent_hold {s : State} (h : HoldSafe s) : HoldSafe (doSLinkFrameSent s) := by
  unfold doSLinkFrameSent
  split
  · exact h
  · dsimp only
    split
    · split
      · exact updPort_hold (s := { s with lnk.sup.sending := none, lnk.sup.line := [] }) h _ _
      · exact h
    · exact h

theorem doMLinkFrameSent_hold {s : State} (h : HoldSafe s) (m : MachineId) : HoldSafe (doMLinkFrameSent m s) := by
  exact hold_raw h rfl rfl rfl

theorem doInputLevelChange_hold {s : State} (h : HoldSafe s) (t : Nat) (energised : Bool) :
    HoldSafe (doInputLevelChange t energised s) := by
  exact inputHolds_hold h t energised

theorem doTerminalOverload_hold {s : State} (h : HoldSafe s) (t : Nat) : HoldSafe (doTerminalOverload t s) := by
  exact overload_hold h t

theorem doPressInPulseEdge_hold {s : State} (h : HoldSafe s) (t : Nat) : HoldSafe (doPressInPulseEdge t s) := by
  exact pulseEdge_hold h t

theorem doDamperPwmPeriodStart_hold {s : State} (h : HoldSafe s) (t : Nat) :
    HoldSafe (doDamperPwmPeriodStart t s) := by
  exact periodStart_hold h t

theorem doStatus_hold {s : State} (h : HoldSafe s) (sender : StatusFrom) (mode : Mode) (motion : Motion) (spot : ReportedSpot) :
    HoldSafe (doStatus sender mode motion spot s) := by
  refine machineFrame_hold h _ fun ht => ?_
  exact takeStatus_hold ht sender mode motion spot

theorem doRequest_hold {s : State} (h : HoldSafe s) (m : MachineId) (k : ReqKind) (n : Nat) :
    HoldSafe (doRequest m k n s) := by
  refine machineFrame_hold h _ fun ht => ?_
  try dsimp only
  (repeat' split) <;> simp (maxDischargeDepth := 40) [ht]

theorem doDoorOff_hold {s : State} (h : HoldSafe s) (m : MachineId) (n : Nat) (side : Option Side) :
    HoldSafe (doDoorOff m n side s) := by
  refine machineFrame_hold h _ fun ht => ?_
  try dsimp only
  (repeat' split) <;> simp (maxDischargeDepth := 40) [ht]

theorem doDoorOn_hold {s : State} (h : HoldSafe s) (m : MachineId) (n : Nat) (side : Option Side) :
    HoldSafe (doDoorOn m n side s) := by
  refine machineFrame_hold h _ fun ht => ?_
  try dsimp only
  (repeat' split) <;> simp (maxDischargeDepth := 40) [ht]

theorem doDoorTight_hold {s : State} (h : HoldSafe s) (m : MachineId) (n : Nat) (side : Option Side) :
    HoldSafe (doDoorTight m n side s) := by
  refine machineFrame_hold h _ fun ht => ?_
  try dsimp only
  (repeat' split) <;> simp (maxDischargeDepth := 40) [ht]

theorem doRamStart_hold {s : State} (h : HoldSafe s) (m : MachineId) (n : Nat) : HoldSafe (doRamStart m n s) := by
  refine machineFrame_hold h _ fun ht => ?_
  try dsimp only
  (repeat' split) <;> simp (maxDischargeDepth := 40) [ht]

theorem doRamAtEnd_hold {s : State} (h : HoldSafe s) (m : MachineId) (n : Nat) : HoldSafe (doRamAtEnd m n s) := by
  refine machineFrame_hold h _ fun ht => ?_
  try dsimp only
  (repeat' split) <;> simp (maxDischargeDepth := 40) [ht]

theorem doRamHome_hold {s : State} (h : HoldSafe s) (m : MachineId) (n : Nat) : HoldSafe (doRamHome m n s) := by
  refine machineFrame_hold h _ fun ht => ?_
  try dsimp only
  (repeat' split) <;> simp (maxDischargeDepth := 40) [ht]

theorem doChargeStart_hold {s : State} (h : HoldSafe s) (m : MachineId) (n : Nat) :
    HoldSafe (doChargeStart m n s) := by
  refine machineFrame_hold h _ fun ht => ?_
  try dsimp only
  (repeat' split) <;> simp (maxDischargeDepth := 40) [ht]

theorem doChargeEnd_hold {s : State} (h : HoldSafe s) (m : MachineId) (n : Nat) : HoldSafe (doChargeEnd m n s) := by
  refine machineFrame_hold h _ fun ht => ?_
  try dsimp only
  (repeat' split) <;> simp (maxDischargeDepth := 40) [ht]

theorem doValve_hold {s : State} (h : HoldSafe s) (m : MachineId) (n : Nat) (v : Option ValveState) :
    HoldSafe (doValve m n v s) := by
  refine machineFrame_hold h _ fun ht => ?_
  try dsimp only
  (repeat' split) <;> simp (maxDischargeDepth := 40) [ht]

theorem doLeakSeen_hold {s : State} (h : HoldSafe s) (m : MachineId) (n : Nat) (side : Option Side) :
    HoldSafe (doLeakSeen m n side s) := by
  refine machineFrame_hold h _ fun ht => ?_
  try dsimp only
  (repeat' split) <;> simp (maxDischargeDepth := 40) [ht]

theorem doTaskDone_hold {s : State} (h : HoldSafe s) (m : TaskSender) (n : Nat) (k : TaskKind) (r : TaskResult) :
    HoldSafe (doTaskDone m n k r s) := by
  refine machineFrame_hold h _ fun ht => ?_
  try dsimp only
  (repeat' split) <;> simp (maxDischargeDepth := 40) [ht]

theorem doCcTaskDone_hold {s : State} (h : HoldSafe s) (n : Nat) (a : ValveAction) (r : ValveResult) :
    HoldSafe (doCcTaskDone n a r s) := by
  refine machineFrame_hold h _ fun ht => ?_
  try dsimp only
  (repeat' split) <;> simp (maxDischargeDepth := 40) [ht]

theorem doDumpDone_hold {s : State} (h : HoldSafe s) (m : MachineId) (b : Nat) : HoldSafe (doDumpDone m b s) := by
  refine machineFrame_hold h _ fun ht => ?_
  try dsimp only
  (repeat' split) <;> simp (maxDischargeDepth := 40) [ht]

theorem doBattery_hold {s : State} (h : HoldSafe s) (tag : Byte) (nOv k : Nat) (lasts : List Nat) :
    HoldSafe (doBattery tag nOv k lasts s) := by
  refine request_hold h tag (fun ht => ?_)
  split
  · exact ht
  · split
    · exact takeBattery_hold ht nOv k lasts
    · exact ht

theorem doSeries_hold {s : State} (h : HoldSafe s) (tag : Byte) (p : SeriesParams) (start : Option Time32) :
    HoldSafe (doSeries tag p start s) := by
  exact request_hold h tag fun ht => setup_hold ht _ _ fun _ => takeSeries_hold ht p start

theorem doTiming_hold {s : State} (h : HoldSafe s) (tag : Byte) (v : Timing) : HoldSafe (doTiming tag v s) := by
  exact request_hold h tag fun ht => setup_hold ht _ _ fun _ => takeTiming_hold ht v

theorem doPressure_hold {s : State} (h : HoldSafe s) (tag : Byte) (k : Nat) (p : PressureParams) :
    HoldSafe (doPressure tag k p s) := by
  refine request_hold h tag (fun ht => setup_hold ht _ _ fun hr => ?_)
  split
  · exact takePressure_hold ht k p
  · exact ht

theorem doWharf_hold {s : State} (h : HoldSafe s) (tag : Byte) (v : WharfVals) : HoldSafe (doWharf tag v s) := by
  exact request_hold h tag fun ht => setup_hold ht _ _ fun _ => takeWharf_hold ht v

theorem doDoors_hold {s : State} (h : HoldSafe s) (tag : Byte) (v : DoorVals) : HoldSafe (doDoors tag v s) := by
  exact request_hold h tag fun ht => setup_hold ht _ _ fun _ => takeDoors_hold ht v

theorem doTerminal_hold {s : State} (h : HoldSafe s) (tag : Byte) (t : Nat) (fn : TermFn) (invert : Bool) (drive : Drive) (edge : Edge) :
    HoldSafe (doTerminal tag t fn invert drive edge s) := by
  exact request_hold h tag fun ht => setup_hold ht _ _ fun _ => takeTerminal_hold ht t fn invert drive edge

theorem doLink_hold {s : State} (h : HoldSafe s) (tag : Byte) (l : LinkId) (v : LineSettings) :
    HoldSafe (doLink tag l v s) := by
  exact request_hold h tag fun ht => setup_hold ht _ _ fun _ => takeLink_hold ht l v

theorem doOvenLoad_hold {s : State} (h : HoldSafe s) (tag : Byte) (v : OvenLoad) :
    HoldSafe (doOvenLoad tag v s) := by
  refine request_hold h tag (fun ht => setup_hold ht _ _ fun _ => ?_)
  split
  · exact takeOvenLoad_hold ht v
  · exact ht

theorem doSetTime_hold {s : State} (h : HoldSafe s) (tag : Byte) (t : Time32) : HoldSafe (doSetTime tag t s) := by
  exact request_hold h tag (fun ht => setTimeOp_hold ht t) 


theorem doOvenService_hold {s : State} (h : HoldSafe s) (tag : Byte) (n : Nat) (dir : ServiceDir) :
    HoldSafe (doOvenService tag n dir s) := by
  exact request_hold h tag (fun ht => forOven_hold ht n (ovenServiceOp_hold ht n dir)) 


theorem doSetTarget_hold {s : State} (h : HoldSafe s) (tag : Byte) (n target : Nat) :
    HoldSafe (doSetTarget tag n target s) := by
  exact request_hold h tag (fun ht => forOven_hold ht n (setTargetOp_hold ht n target)) 


theorem doMakeup_hold {s : State} (h : HoldSafe s) (tag : Byte) (n : Nat) : HoldSafe (doMakeup tag n s) := by
  exact request_hold h tag (fun ht => runOnly_hold ht (forOven_hold ht n (makeupOp_hold ht n))) 


theorem doCancelMakeup_hold {s : State} (h : HoldSafe s) (tag : Byte) (n : Nat) :
    HoldSafe (doCancelMakeup tag n s) := by
  exact request_hold h tag (fun ht => runOnly_hold ht (cancelMakeupOp_hold ht n)) 


theorem doPlanStart_hold {s : State} (h : HoldSafe s) (tag : Byte) (start : Option Time32) :
    HoldSafe (doPlanStart tag start s) := by
  exact request_hold h tag (fun ht => runOnly_hold ht (planStartOp_hold ht start)) 


theorem doPlanHalt_hold {s : State} (h : HoldSafe s) (tag : Byte) : HoldSafe (doPlanHalt tag s) := by
  exact request_hold h tag (fun ht => runOnly_hold ht (planHaltOp_hold ht)) 


theorem doPlanResume_hold {s : State} (h : HoldSafe s) (tag : Byte) : HoldSafe (doPlanResume tag s) := by
  exact request_hold h tag (fun ht => runOnly_hold ht (planResumeReq_hold ht)) 


theorem doPlanStage_hold {s : State} (h : HoldSafe s) (tag : Byte) : HoldSafe (doPlanStage tag s) := by
  exact request_hold h tag (fun ht => runOnly_hold ht (planStageOp_hold ht)) 


theorem doSetMode_hold {s : State} (h : HoldSafe s) (tag : Byte) (n : Nat) (mode : SlotMode) (fixedPush : Option Time32) :
    HoldSafe (doSetMode tag n mode fixedPush s) := by
  exact request_hold h tag (fun ht => forOven_hold ht n (setModeOp_hold ht n mode fixedPush)) 


theorem doSetModeRange_hold {s : State} (h : HoldSafe s) (tag : Byte) (first last : Nat) (mode : Option SlotMode) (fixedPush : Option Time32) :
    HoldSafe (doSetModeRange tag first last mode fixedPush s) := by
  exact request_hold h tag (fun ht => runOnly_hold ht (setModeRangeOp_hold ht first last mode fixedPush)) 


theorem doRangeAbort_hold {s : State} (h : HoldSafe s) (tag : Byte) : HoldSafe (doRangeAbort tag s) := by
  exact request_hold h tag (fun ht => runOnly_hold ht (rangeAbortOp_hold ht)) 


theorem doClearBreach_hold {s : State} (h : HoldSafe s) (tag : Byte) (n : Nat) :
    HoldSafe (doClearBreach tag n s) := by
  exact request_hold h tag (fun ht => forOven_hold ht n (clearBreachOp_hold ht n)) 


theorem doPushRetry_hold {s : State} (h : HoldSafe s) (tag : Byte) (n : Nat) : HoldSafe (doPushRetry tag n s) := by
  exact request_hold h tag (fun ht => runOnly_hold ht (pushRetryOp_hold ht n)) 


theorem doAbandon_hold {s : State} (h : HoldSafe s) (tag : Byte) (n : Nat) : HoldSafe (doAbandon tag n s) := by
  exact request_hold h tag (fun ht => runOnly_hold ht (abandonOp_hold ht n)) 


theorem doLeakReport_hold {s : State} (h : HoldSafe s) (tag : Byte) (n : Nat) (side : Option Side) :
    HoldSafe (doLeakReport tag n side s) := by
  exact request_hold h tag (fun ht => runOnly_hold ht (leakReportOp_hold ht n side)) 


theorem doSetDamper_hold {s : State} (h : HoldSafe s) (tag : Byte) (k value : Nat) :
    HoldSafe (doSetDamper tag k value s) := by
  exact request_hold h tag (fun ht => forSection_hold ht k (setDamperOp_hold ht k value)) 


theorem doSetAuto_hold {s : State} (h : HoldSafe s) (tag : Byte) (k : Nat) : HoldSafe (doSetAuto tag k s) := by
  exact request_hold h tag (fun ht => forSection_hold ht k (setAutoOp_hold ht k)) 


theorem doSetSetpoint_hold {s : State} (h : HoldSafe s) (tag : Byte) (k : Nat) (value : Int) :
    HoldSafe (doSetSetpoint tag k value s) := by
  exact request_hold h tag (fun ht => forSection_hold ht k (setSetpointOp_hold ht k value)) 


theorem doTrackBlock_hold {s : State} (h : HoldSafe s) (tag : Byte) (first last : Option TrackSpot) :
    HoldSafe (doTrackBlock tag first last s) := by
  exact request_hold h tag (fun ht => trackBlockOp_hold ht first last) 


theorem doTrackFree_hold {s : State} (h : HoldSafe s) (tag : Byte) (first last : Option TrackSpot) :
    HoldSafe (doTrackFree tag first last s) := by
  exact request_hold h tag (fun ht => trackFreeOp_hold ht first last) 


theorem doSetOutput_hold {s : State} (h : HoldSafe s) (tag : Byte) (t : Nat) (level : Option Bool) :
    HoldSafe (doSetOutput tag t level s) := by
  exact request_hold h tag (fun ht => setOutputOp_hold ht t level) 


theorem doToggle_hold {s : State} (h : HoldSafe s) (tag : Byte) (t : Nat) : HoldSafe (doToggle tag t s) := by
  exact request_hold h tag (fun ht => writeOutput_hold ht t _) 


theorem doClearTerminal_hold {s : State} (h : HoldSafe s) (tag : Byte) (t : Nat) :
    HoldSafe (doClearTerminal tag t s) := by
  exact request_hold h tag (fun ht => clearTerminalOp_hold ht t) 


theorem doLinkClear_hold {s : State} (h : HoldSafe s) (tag : Byte) (l : Option LinkId) :
    HoldSafe (doLinkClear tag l s) := by
  exact request_hold h tag (fun ht => linkClearOp_hold ht l) 


theorem doLinkTest_hold {s : State} (h : HoldSafe s) (tag : Byte) (l : Option LinkId) :
    HoldSafe (doLinkTest tag l s) := by
  exact request_hold h tag (fun ht => forMLink_hold ht l fun m => linkTestOp_hold ht m) 


theorem doTestRead_hold {s : State} (h : HoldSafe s) (tag : Byte) (l : Option LinkId) :
    HoldSafe (doTestRead tag l s) := by
  exact request_hold h tag (fun ht => forMLink_hold ht l fun m => testReadOp_hold ht m) 


theorem doTestEnd_hold {s : State} (h : HoldSafe s) (tag : Byte) (l : Option LinkId) :
    HoldSafe (doTestEnd tag l s) := by
  exact request_hold h tag (fun ht => forMLink_hold ht l fun m => testEndOp_hold ht m) 


theorem doCommit_hold {s : State} (h : HoldSafe s) (tag : Byte) : HoldSafe (doCommit tag s) := by
  exact request_hold h tag (fun ht => commitOp_hold ht) 


theorem doRestart_hold {s : State} (h : HoldSafe s) (tag : Byte) : HoldSafe (doRestart tag s) := by
  exact request_hold h tag (fun ht => restartOp_hold ht) 


theorem doUnknownRequest_hold {s : State} (h : HoldSafe s) (tag : Byte) : HoldSafe (doUnknownRequest tag s) := by
  exact request_hold h tag (fun ht => ht) 


theorem doStatusQuery_hold {s : State} (h : HoldSafe s) (tag : Byte) : HoldSafe (doStatusQuery tag s) := by
  exact request_hold h tag fun ht => statusAnswer_hold ht

theorem doTimeQuery_hold {s : State} (h : HoldSafe s) (tag : Byte) : HoldSafe (doTimeQuery tag s) := by
  exact request_hold h tag fun ht => timeAnswer_hold ht

theorem doOvenQuery_hold {s : State} (h : HoldSafe s) (tag : Byte) (n : Nat) : HoldSafe (doOvenQuery tag n s) := by
  exact request_hold h tag fun ht => ovenAnswer_hold ht n

theorem doPlanQuery_hold {s : State} (h : HoldSafe s) (tag : Byte) : HoldSafe (doPlanQuery tag s) := by
  exact request_hold h tag fun ht => planAnswer_hold ht

theorem doSlotQuery_hold {s : State} (h : HoldSafe s) (tag : Byte) (i : Nat) : HoldSafe (doSlotQuery tag i s) := by
  exact request_hold h tag fun ht => slotAnswer_hold ht i

theorem doMachinesQuery_hold {s : State} (h : HoldSafe s) (tag : Byte) : HoldSafe (doMachinesQuery tag s) := by
  exact request_hold h tag fun ht => machinesAnswer_hold ht

theorem doPushQuery_hold {s : State} (h : HoldSafe s) (tag : Byte) : HoldSafe (doPushQuery tag s) := by
  exact request_hold h tag fun ht => pushAnswerOf_hold ht

theorem doDoorQuery_hold {s : State} (h : HoldSafe s) (tag : Byte) (n : Nat) : HoldSafe (doDoorQuery tag n s) := by
  exact request_hold h tag fun ht => doorAnswer_hold ht n

theorem doTasksQuery_hold {s : State} (h : HoldSafe s) (tag : Byte) (d : Side) :
    HoldSafe (doTasksQuery tag d s) := by
  exact request_hold h tag fun ht => tasksAnswer_hold ht d

theorem doSectionQuery_hold {s : State} (h : HoldSafe s) (tag : Byte) (k : Nat) :
    HoldSafe (doSectionQuery tag k s) := by
  exact request_hold h tag fun ht => sectionAnswer_hold ht k

theorem doValvesQuery_hold {s : State} (h : HoldSafe s) (tag : Byte) (n : Option Nat) :
    HoldSafe (doValvesQuery tag n s) := by
  exact request_hold h tag fun ht => valvesAnswer_hold ht n

theorem doQuenchQuery_hold {s : State} (h : HoldSafe s) (tag : Byte) : HoldSafe (doQuenchQuery tag s) := by
  exact request_hold h tag fun ht => quenchAnswer_hold ht

theorem doTerminalsQuery_hold {s : State} (h : HoldSafe s) (tag : Byte) (t : Option Nat) :
    HoldSafe (doTerminalsQuery tag t s) := by
  exact request_hold h tag fun ht => terminalsAnswer_hold ht t

theorem runFrame_hold {s : State} (h : HoldSafe s) (i : Instr) : HoldSafe (runFrame i s) := by
  unfold runFrame
  split
  · exact doStatus_hold h _ _ _ _
  · exact doRequest_hold h _ _ _
  · exact doRequest_hold h _ _ _
  · exact doRequest_hold h _ _ _
  · exact doRequest_hold h _ _ _
  · exact doDoorOff_hold h _ _ _
  · exact doDoorOn_hold h _ _ _
  · exact doDoorTight_hold h _ _ _
  · exact doRamStart_hold h _ _
  · exact doRamAtEnd_hold h _ _
  · exact doRamHome_hold h _ _
  · exact doChargeStart_hold h _ _
  · exact doChargeEnd_hold h _ _
  · exact doValve_hold h _ _ _
  · exact doLeakSeen_hold h _ _ _
  · exact doTaskDone_hold h _ _ _ _
  · exact doCcTaskDone_hold h _ _ _
  · exact doDumpDone_hold h _ _
  · exact doBattery_hold h _ _ _ _
  · exact doSeries_hold h _ _ _
  · exact doTiming_hold h _ _
  · exact doPressure_hold h _ _ _
  · exact doWharf_hold h _ _
  · exact doDoors_hold h _ _
  · exact doTerminal_hold h _ _ _ _ _ _
  · exact doLink_hold h _ _ _
  · exact doOvenLoad_hold h _ _
  · exact doSetTime_hold h _ _
  · exact doOvenService_hold h _ _ _
  · exact doSetTarget_hold h _ _ _
  · exact doMakeup_hold h _ _
  · exact doCancelMakeup_hold h _ _
  · exact doPlanStart_hold h _ _
  · exact doPlanHalt_hold h _
  · exact doPlanResume_hold h _
  · exact doPlanStage_hold h _
  · exact doSetMode_hold h _ _ _ _
  · exact doSetModeRange_hold h _ _ _ _ _
  · exact doRangeAbort_hold h _
  · exact doClearBreach_hold h _ _
  · exact doPushRetry_hold h _ _
  · exact doAbandon_hold h _ _
  · exact doLeakReport_hold h _ _ _
  · exact doSetDamper_hold h _ _ _
  · exact doSetAuto_hold h _ _
  · exact doSetSetpoint_hold h _ _ _
  · exact doTrackBlock_hold h _ _ _
  · exact doTrackFree_hold h _ _ _
  · exact doSetOutput_hold h _ _ _
  · exact doToggle_hold h _ _
  · exact doClearTerminal_hold h _ _
  · exact doLinkClear_hold h _ _
  · exact doLinkTest_hold h _ _
  · exact doTestRead_hold h _ _
  · exact doTestEnd_hold h _ _
  · exact doCommit_hold h _
  · exact doRestart_hold h _
  · exact doUnknownRequest_hold h _
  · exact doStatusQuery_hold h _
  · exact doTimeQuery_hold h _
  · exact doOvenQuery_hold h _ _
  · exact doPlanQuery_hold h _
  · exact doSlotQuery_hold h _ _
  · exact doMachinesQuery_hold h _
  · exact doPushQuery_hold h _
  · exact doDoorQuery_hold h _ _
  · exact doTasksQuery_hold h _ _
  · exact doSectionQuery_hold h _ _
  · exact doValvesQuery_hold h _ _
  · exact doQuenchQuery_hold h _
  · exact doTerminalsQuery_hold h _ _
  · exact h

theorem takeFrame_hold {s : State} (h : HoldSafe s) (l : LinkId) (t : Taken) : HoldSafe (takeFrame l t s) := by
  unfold takeFrame
  split
  · exact runFrame_hold h _
  · exact doRequest_hold h _ _ _
  · exact doUnknownRequest_hold h _
  · exact discard_hold h _ _

theorem completeFrame_hold {s : State} (h : HoldSafe s) (l : LinkId) (len : Nat) (chars : List Byte) :
    HoldSafe (completeFrame l len chars s) := by
  unfold completeFrame
  dsimp only
  split
  · split
    · exact takeFrame_hold h _ _
    · exact discard_hold h _ _
  · exact discard_hold h _ _

theorem State.setRx_hold {s : State} (h : HoldSafe s) (l : LinkId) (rx : RxAssembly) : HoldSafe (s.setRx l rx) :=
  updPort_hold h l _

theorem assemble_hold {s : State} (h : HoldSafe s) (l : LinkId) (b : Byte) : HoldSafe (assemble l b s) := by
  unfold assemble
  dsimp only
  split
  · split
    · exact setRx_hold h _ _
    · exact h
  · split
    · exact setRx_hold h _ _
    · exact discard_hold (setRx_hold h _ _) _ _
  · exact setRx_hold h _ _
  · split
    · exact setRx_hold h _ _
    · exact completeFrame_hold (setRx_hold h _ _) _ _ _

theorem takeChar_hold {s : State} (h : HoldSafe s) (l : LinkId) (c : RxChar) : HoldSafe (takeChar l c s) := by
  unfold takeChar
  split
  · exact assemble_hold h _ _
  · exact discard_hold (setRx_hold h _ _) _ _
  · exact discard_hold (setRx_hold h _ _) _ _

theorem toChecker_hold {s : State} (h : HoldSafe s) (l : LinkId) (wave : LineWave) :
    HoldSafe (toChecker l wave s) := by
  unfold toChecker
  split
  · exact doTestCharacter_hold h _ _
  · exact h

theorem doCharacterReceived_hold {s : State} (h : HoldSafe s) (l : LinkId) (wave : LineWave) :
    HoldSafe (doCharacterReceived l wave s) := by
  unfold doCharacterReceived
  split
  · exact toChecker_hold h _ _
  · split
    · exact takeChar_hold h _ _
    · exact h

end Sys2Proof.Machine
end

