-- ==== Sys2Proof/Laws/Line.lean ====
section
/-! SUPPORT. What the receiver reads from a line, bit by bit (R170), the check and the numbers of what it sends (R171, R173),
and how result data are cut into frames (R176): one lemma for everything each of these functions can answer. -/

set_option linter.all false

namespace Sys2Proof.Machine

open Sys2Proof

/-- Bit i of the character read is the bit i of the function. -/
@[simp] theorem byteOf_getLsbD (f : Nat → Bool) {i : Nat} (h : i < 8) : (byteOf f).getLsbD i = f i := by
  simp only [byteOf, BitVec.getLsbD_append, BitVec.getLsbD_ofBool]
  match i, h with
  | 0, _ | 1, _ | 2, _ | 3, _ | 4, _ | 5, _ | 6, _ | 7, _ => simp

/-- A thirty-second is low after receive invert. -/
theorem lowAt_iff {invert : Bool} {w : LineWave} {i : Nat} :
    lowAt invert w i = true ↔ i < 352 ∧ w.getLsbD i = invert := by simp [lowAt]

/-- A low pulse of a sixteenth or more begins at a thirty-second. -/
theorem pulseBegins_iff {invert : Bool} {w : LineWave} {i : Nat} :
    pulseBegins invert w i = true ↔
      lowAt invert w i = true ∧ lowAt invert w (i + 1) = true ∧ (i = 0 ∨ ¬ lowAt invert w (i - 1) = true) := by
  cases i <;> simp [pulseBegins, and_assoc]

/-- A cell reads one unless the middle is low, in NRZ, or a pulse begins in it, in OPTICAL. -/
theorem bitRead_iff {v : LineSettings} {w : LineWave} {c : Nat} :
    bitRead v w c = true ↔ ¬ match v.code with
      | .nrz => lowAt v.rxInvert w (32 * c + 16) = true
      | .optical => ∃ i, 32 * c ≤ i ∧ i < 32 * c + 32 ∧ pulseBegins v.rxInvert w i = true := by
  unfold bitRead
  cases v.code
  · simp
  · have h : ∀ i, i ∈ numbers (32 * c) (32 * c + 31) ↔ 32 * c ≤ i ∧ i < 32 * c + 32 := by
      intro i
      rw [State.mem_numbers]
      omega
    simp [h]

/-- A fall starts a character. -/
theorem charStarts_iff {v : LineSettings} {w : LineWave} :
    charStarts v w = true ↔ lowAt v.rxInvert w 0 = true ∧ match v.code with
      | .nrz => lowAt v.rxInvert w 16 = true
      | .optical => lowAt v.rxInvert w 1 = true := by
  unfold charStarts
  cases v.code <;> simp

/-- Nothing of the data is lost or moved by the cutting. -/
theorem cutPieces_flatten (fuel : Nat) (l : List Byte) : (cutPieces fuel l).flatten = l := by
  induction fuel generalizing l with
  | zero => simp [cutPieces]
  | succ k ih =>
    unfold cutPieces
    split <;> simp [ih]

/-- No frame takes more than 55 characters. -/
theorem cutPieces_length {fuel : Nat} {l : List Byte} (h : l.length ≤ fuel) : ∀ p ∈ cutPieces fuel l, p.length ≤ 55 := by
  induction fuel generalizing l with
  | zero =>
    intro p hp
    simp only [cutPieces, List.mem_singleton] at hp
    subst hp
    omega
  | succ k ih =>
    unfold cutPieces
    split
    · simpa
    · intro p hp
      rcases List.mem_cons.1 hp with hp | hp
      · subst hp
        simp
      · refine ih ?_ p hp
        simp
        omega

/-- Data that fit one frame go in one. -/
theorem cutPieces_short {fuel : Nat} {l : List Byte} (h : l.length ≤ 55) : cutPieces fuel l = [l] := by
  cases fuel <;> simp [cutPieces, h]

/-- The shares of an answer's frames: together the result data, each at most 55 characters, one share when all fits. -/
theorem AnswerData.pieces_spec (d : AnswerData) :
    d.pieces.flatten = d.chars ∧ (∀ p ∈ d.pieces, p.length ≤ 55) ∧ (d.chars.length ≤ 55 → d.pieces = [d.chars]) :=
  ⟨cutPieces_flatten _ _, cutPieces_length le_rfl, cutPieces_short⟩

/-! ## What is sent (R171, R173) -/

/-- The check of one more character goes on from the check so far. -/
theorem crc16_append (sent : List Byte) (b : Byte) : crc16 (sent ++ [b]) = crcByte (crc16 sent) b := by
  simp [crc16, List.foldl_append]

/-- Of a body only the first 59 characters are sent (log 92). -/
theorem frameChars_take (kind : Byte) (body : List Byte) : frameChars kind (body.take 59) = frameChars kind body := by
  simp [frameChars, List.take_take]

/-- The four characters of a number. -/
theorem num4_eq (n : Nat) : num4 n =
    [BitVec.ofNat 8 (n / 16777216), BitVec.ofNat 8 (n / 65536), BitVec.ofNat 8 (n / 256), BitVec.ofNat 8 n] := by
  simp [num4, num2, num1, Nat.div_div_eq_div_mul]

/-- The two characters of a signed value, two's complement. -/
theorem int2_eq (v : Int) :
    int2 v = [(BitVec.ofInt 16 v).extractLsb' 8 8, (BitVec.ofInt 16 v).extractLsb' 0 8] := by
  simp only [int2, num2, num1, List.cons_append, List.nil_append]
  congr 1
  apply BitVec.eq_of_toNat_eq
  simp [BitVec.extractLsb'_toNat, Nat.shiftRight_eq_div_pow]

end Sys2Proof.Machine
end

