-- ==== Sys2Proof/Laws/Readers.lean ====
section
/-! SUPPORT. What the readers of frame bodies can do: a part of a body is read the same whatever follows it and a shortened
one is LEN (`Fixed`), and a whole body takes neither more nor fewer characters (`Whole`). One lemma per reader, so that a
proof about a frame's length unfolds none of them. -/

namespace Sys2Proof.Machine.Reader
open Sys2Proof Sys2Proof.Config

/-- A reader that takes characters of its own, whatever follows them, and finds a shortened part LEN. -/
abbrev Fixed {α : Type} (r : Reader α) : Prop :=
  ∀ bs x rest, r bs = .ok (x, rest) → ∃ used, bs = used ++ rest ∧ (∀ more, r (used ++ more) = .ok (x, more))
    ∧ ∀ k, k < used.length → r (used.take k) = .error .len

/-- A reader that takes a whole body: with more characters, or with fewer, it is LEN. -/
abbrev Whole {α : Type} (r : Reader α) : Prop :=
  ∀ bs x rest, r bs = .ok (x, rest) → (∀ more, more ≠ [] → r (bs ++ more) = .error .len)
    ∧ ∀ k, k < bs.length → r (bs.take k) = .error .len

/-- Reading one part after another. -/
theorem bind_apply {α β : Type} (r : Reader α) (f : α → Reader β) (bs : List Byte) :
    (r >>= f) bs = match r bs with
      | .ok (x, rest) => f x rest
      | .error e => .error e := by
  show (r bs >>= fun p => f p.1 p.2) = _
  cases r bs <;> rfl

theorem fixed_pure {α : Type} (a : α) : Fixed (pure a : Reader α) := by
  intro bs x rest h
  cases h
  exact ⟨[], rfl, fun _ => rfl, fun k hk => by simp at hk⟩

theorem fixed_orKind {α : Type} (o : Option α) : Fixed (orKind o) := by
  cases o with
  | some a => exact fixed_pure a
  | none => intro bs x rest h; cases h

theorem fixed_throw {α : Type} (e : BodyFault) : Fixed (throw e : Reader α) := by
  intro bs x rest h; cases h

theorem fixed_byte : Fixed byte := by
  intro bs x rest h
  cases bs with
  | nil => cases h
  | cons b bs =>
    cases h
    refine ⟨[x], rfl, fun _ => rfl, fun k hk => ?_⟩
    have : k = 0 := by simpa using hk
    subst this; rfl

theorem fixed_bind {α β : Type} {r : Reader α} {f : α → Reader β} (hr : Fixed r) (hf : ∀ a, Fixed (f a)) :
    Fixed (r >>= f) := by
  intro bs y rest h
  rw [bind_apply] at h
  cases h1 : r bs with
  | error e => rw [h1] at h; cases h
  | ok p =>
    obtain ⟨a, mid⟩ := p
    rw [h1] at h
    obtain ⟨u1, e1, m1, p1⟩ := hr _ _ _ h1
    obtain ⟨u2, e2, m2, p2⟩ := hf a _ _ _ h
    refine ⟨u1 ++ u2, by rw [e1, e2, List.append_assoc], fun more => ?_, fun k hk => ?_⟩
    · rw [bind_apply, List.append_assoc, m1]; exact m2 more
    · rw [bind_apply, List.take_append]
      by_cases hlt : k < u1.length
      · rw [show k - u1.length = 0 by omega, List.take_zero, List.append_nil, p1 k hlt]
      · rw [List.take_of_length_le (by omega), m1]
        exact p2 _ (by simp at hk; omega)

theorem whole_bind {α β : Type} {r : Reader α} {f : α → Reader β} (hr : Fixed r) (hf : ∀ a, Whole (f a)) :
    Whole (r >>= f) := by
  intro bs y rest h
  rw [bind_apply] at h
  cases h1 : r bs with
  | error e => rw [h1] at h; cases h
  | ok p =>
    obtain ⟨a, mid⟩ := p
    rw [h1] at h
    obtain ⟨u1, e1, m1, p1⟩ := hr _ _ _ h1
    obtain ⟨m2, p2⟩ := hf a _ _ _ h
    subst e1
    refine ⟨fun more hm => ?_, fun k hk => ?_⟩
    · rw [bind_apply, List.append_assoc, m1]; exact m2 more hm
    · rw [bind_apply, List.take_append]
      by_cases hlt : k < u1.length
      · rw [show k - u1.length = 0 by omega, List.take_zero, List.append_nil, p1 k hlt]
      · rw [List.take_of_length_le (by omega), m1]
        exact p2 _ (by simp at hk; omega)

theorem whole_finish (i : Option Instr) : Whole (finish i) := by
  intro bs x rest h
  cases bs with
  | nil =>
    refine ⟨fun more hm => ?_, fun k hk => by simp at hk⟩
    cases more with
    | nil => exact absurd rfl hm
    | cons _ _ => rfl
  | cons b bs => cases h

theorem whole_battery (tag : Byte) : Whole (battery tag) := by
  intro bs x rest h
  match bs with
  | [] => cases h
  | [n] => cases h
  | n :: k :: l =>
    have e (l : List Byte) : battery tag (n :: k :: l) = if l.length = k.toNat then
      .ok (some (.battery tag n.toNat k.toNat (l.map BitVec.toNat)), []) else .error .len := by
      show (if l.length = k.toNat then pure _ else throw .len : Reader (Option Instr)) [] = _
      split <;> rfl
    rw [e] at h
    split at h
    · rename_i hl
      refine ⟨fun more hm => ?_, fun j hj => ?_⟩
      · rw [List.cons_append, List.cons_append, e, if_neg]
        have := List.length_pos_iff.2 hm
        simp; omega
      · match j with
        | 0 => rfl
        | 1 => rfl
        | j + 2 =>
          rw [List.take_succ_cons, List.take_succ_cons, e, if_neg]
          simp at hj ⊢; omega
    · cases h

theorem fixed_name {α : Type} (f : Byte → Option α) : Fixed (name f) := fixed_bind fixed_byte fun _ => fixed_pure _
theorem fixed_num : Fixed num := fixed_bind fixed_byte fun _ => fixed_pure _
theorem fixed_num2 : Fixed num2 := fixed_bind fixed_byte fun _ => fixed_bind fixed_byte fun _ => fixed_pure _
theorem fixed_signed2 : Fixed signed2 := fixed_bind fixed_byte fun _ => fixed_bind fixed_byte fun _ => fixed_pure _
theorem fixed_time : Fixed time := fixed_bind fixed_byte fun _ => fixed_bind fixed_byte fun _ =>
  fixed_bind fixed_byte fun _ => fixed_bind fixed_byte fun _ => fixed_pure _
theorem fixed_need {α : Type} (f : Byte → Option α) : Fixed (need f) := fixed_bind fixed_byte fun _ => fixed_orKind _
theorem fixed_twoSides : Fixed twoSides := fixed_bind (fixed_name _) fun _ => fixed_pure _
theorem fixed_trackSpot : Fixed trackSpot := fixed_bind (fixed_name _) fun _ => fixed_bind fixed_num fun _ => fixed_pure _
/-- A terminal's function, with the section or bay number of those that have one. -/
theorem fixed_termFn : Fixed termFn := by
  refine fixed_bind (fixed_name _) fun a => ?_
  match a with
  | none => exact fixed_throw _
  | some .unassigned => exact fixed_pure _
  | some .input => exact fixed_pure _
  | some .output => exact fixed_pure _
  | some .sprayOut => exact fixed_pure _
  | some .conveyorRunIn => exact fixed_pure _
  | some .batteryStopIn => exact fixed_pure _
  | some .pressIn => exact fixed_bind fixed_num fun _ => fixed_pure _
  | some .damperPwm => exact fixed_bind fixed_num fun _ => fixed_pure _
  | some .flareOut => exact fixed_bind fixed_num fun _ => fixed_pure _
  | some .lowAlarm => exact fixed_bind fixed_num fun _ => fixed_pure _
  | some .gateOut => exact fixed_bind fixed_num fun _ => fixed_pure _

theorem whole_status (m : MachineId) : Whole (status m) :=
  whole_bind (fixed_need _) fun _ => whole_bind (fixed_need _) fun _ => whole_bind (fixed_need _) fun _ =>
  whole_bind fixed_num fun _ => whole_bind fixed_byte fun _ => whole_bind (fixed_orKind _) fun _ =>
  whole_bind fixed_byte fun _ => whole_bind (fixed_orKind _) fun _ => whole_finish _

theorem whole_ovenOnly (f : Nat → Instr) : Whole (ovenOnly f) := whole_bind fixed_num fun _ => whole_finish _
theorem whole_ovenSide (f : Nat → Option Side → Instr) : Whole (ovenSide f) :=
  whole_bind fixed_num fun _ => whole_bind (fixed_name _) fun _ => whole_finish _
theorem whole_doorTaskDone (m : TaskSender) : Whole (doorTaskDone m) :=
  whole_bind fixed_num fun _ => whole_bind (fixed_need _) fun _ => whole_bind (fixed_need _) fun _ => whole_finish _
theorem whole_taskDone (m : MachineId) : Whole (taskDone m) := by
  cases m with
  | cc =>
    exact whole_bind fixed_num fun _ => whole_bind (fixed_need _) fun _ => whole_bind (fixed_need _) fun _ =>
      whole_finish _
  | _ => exact whole_doorTaskDone _

theorem whole_report (m : MachineId) (r : ReportName) : Whole (report m r) := by
  cases r
  case doorOff => exact whole_ovenSide _
  case doorOn => exact whole_ovenSide _
  case doorTight => exact whole_ovenSide _
  case leakSeen => exact whole_ovenSide _
  case valve => exact whole_bind fixed_num fun _ => whole_bind (fixed_name _) fun _ => whole_finish _
  case taskDone => exact whole_taskDone m
  all_goals exact whole_ovenOnly _

/-- Reading an optional battery time is reading `optionalTime`: four characters, high first, when it is there (R173). -/
theorem optTime_eq (bs : List Byte) : optTime bs = match optionalTime bs with
    | some r => .ok r
    | none => .error .len := by
  unfold optTime optional optionalTime
  rcases optionalMark 4 bs with ⟨_ | _, n⟩
  · dsimp only; split <;> rfl
  · dsimp only
    rcases bs.drop n with _ | ⟨a, _ | ⟨b, _ | ⟨c, _ | ⟨d, rest⟩⟩⟩⟩ <;> rfl

/-- Reading an optional character is reading `optionalByte` (R173). -/
theorem optByte_eq (bs : List Byte) : optByte bs = match optionalByte bs with
    | some r => .ok r
    | none => .error .len := by
  unfold optByte optional optionalByte
  rcases optionalMark 1 bs with ⟨_ | _, n⟩
  · dsimp only; split <;> rfl
  · dsimp only
    rcases bs.drop n with _ | ⟨b, rest⟩ <;> rfl

/-- The requests with a field that may be absent, whose form on the wire is free (log 12). -/
def optionalForm : Instr → Bool
  | .series .. | .ovenLoad .. | .planStart .. | .setMode .. | .setModeRange .. | .valvesQuery .. | .terminalsQuery .. => true
  | _ => false

/-- A reader of a whole body, or of a request with a field that may be absent. -/
abbrev WholeOr (r : Reader (Option Instr)) : Prop :=
  Whole r ∨ ∀ bs c rest, r bs = .ok (some c, rest) → optionalForm c = true

/-- A reader whose every request has a field that may be absent. -/
abbrev Only (r : Reader (Option Instr)) : Prop := ∀ bs c rest, r bs = .ok (some c, rest) → optionalForm c = true
theorem only_bind {α : Type} {r : Reader α} {f : α → Reader (Option Instr)} (hf : ∀ a, Only (f a)) : Only (r >>= f) := by
  intro bs c rest h
  rw [bind_apply] at h
  cases h1 : r bs with
  | error e => rw [h1] at h; cases h
  | ok p => rw [h1] at h; exact hf _ _ _ _ h
theorem only_finish {i : Option Instr} (hi : ∀ c, i = some c → optionalForm c = true) : Only (finish i) := by
  intro bs c rest h
  cases bs with
  | nil => cases h; exact hi _ rfl
  | cons _ _ => cases h

theorem setup_form (tag : Byte) (b : BlockName) : WholeOr (setup tag b) := by
  cases b
  case battery => exact .inl (whole_battery tag)
  case series =>
    right
    repeat' first | refine only_finish ?_ | refine only_bind fun _ => ?_
    exact fun c hc => by cases hc; rfl
  case ovenLoad =>
    right
    repeat' first | refine only_finish ?_ | refine only_bind fun _ => ?_
    intro c hc
    simp only [Option.bind_eq_bind, Option.pure_def, Option.bind_eq_some_iff, Option.some.injEq] at hc
    obtain ⟨_, _, _, _, _, _, _, _, _, _, rfl⟩ := hc
    rfl
  case timing =>
    left
    repeat' first | exact whole_finish _ | refine whole_bind fixed_num2 fun _ => ?_
  case pressure =>
    left
    repeat' first | exact whole_finish _ | refine whole_bind fixed_num fun _ => ?_ | refine whole_bind fixed_signed2 fun _ => ?_
  case wharf =>
    left
    repeat' first | exact whole_finish _ | refine whole_bind fixed_num fun _ => ?_ | refine whole_bind fixed_num2 fun _ => ?_
  case doors =>
    left
    repeat' first | exact whole_finish _ | refine whole_bind fixed_num fun _ => ?_ | refine whole_bind fixed_num2 fun _ => ?_
  case terminal =>
    exact .inl (whole_bind fixed_num fun _ => whole_bind fixed_termFn fun _ => whole_bind (fixed_name _) fun _ =>
      whole_bind (fixed_name _) fun _ => whole_bind (fixed_name _) fun _ => whole_finish _)
  case link =>
    exact .inl (whole_bind (fixed_name _) fun _ => whole_bind fixed_num fun _ => whole_bind (fixed_name _) fun _ =>
      whole_bind (fixed_name _) fun _ => whole_bind (fixed_name _) fun _ => whole_finish _)

theorem command_form (tag : Byte) (b : CommandName) : WholeOr (command tag b) := by
  cases b
  case planStart => exact .inr (only_bind fun _ => only_finish fun c hc => by cases hc; rfl)
  case setMode =>
    right
    repeat' first | refine only_finish ?_ | refine only_bind fun _ => ?_
    intro c hc
    simp only [Option.bind_eq_bind, Option.pure_def, Option.bind_eq_some_iff, Option.some.injEq] at hc
    obtain ⟨_, _, rfl⟩ := hc
    rfl
  case setModeRange =>
    right
    repeat' first | refine only_finish ?_ | refine only_bind fun _ => ?_
    exact fun c hc => by cases hc; rfl
  all_goals
    left
    repeat' first
      | exact whole_finish _
      | exact whole_ovenOnly _
      | exact whole_ovenSide _
      | refine whole_bind fixed_num fun _ => ?_
      | refine whole_bind fixed_num2 fun _ => ?_
      | refine whole_bind fixed_signed2 fun _ => ?_
      | refine whole_bind fixed_time fun _ => ?_
      | refine whole_bind fixed_trackSpot fun _ => ?_
      | refine whole_bind (fixed_name _) fun _ => ?_

theorem query_form (tag : Byte) (b : Subject) : WholeOr (query tag b) := by
  cases b
  case valves => exact .inr (only_bind fun _ => only_finish fun c hc => by cases hc; rfl)
  case terminals => exact .inr (only_bind fun _ => only_finish fun c hc => by cases hc; rfl)
  case tasks => exact .inl (whole_bind fixed_twoSides fun _ => whole_finish _)
  all_goals
    left
    first
      | exact whole_finish _
      | exact whole_ovenOnly _

end Sys2Proof.Machine.Reader
end

