-- ==== Sys2Proof/Laws/Terminals.lean ====
section
/-! SUPPORT. The levels of the output terminals: a pulse train at its ends of duty, and the level of an energised terminal. -/

namespace Sys2Proof.Machine.State

open Sys2Proof

/-- A pulse train of duty 0 is off (R115). -/
theorem pulseLevel_off {s : State} {r : TermRec} (h : r.duty = some 0) : s.pulseLevel r = false := by
  simp [pulseLevel, h]

/-- A pulse train of duty 1000 is on (R115). -/
theorem pulseLevel_full {s : State} {r : TermRec} (h : r.duty = some 1000) : s.pulseLevel r = true := by
  simp [pulseLevel, h]

/-- An energised terminal has its level on, or off with invert set (R164): what TERMINAL_FAULT carries (R166). -/
theorem outputLevel_of_energised {s : State} {r : TermRec} (h : s.termState r = some .energised) :
    s.outputLevel r = some (!r.invert) := by
  have key : ∀ on, s.outputLevel r = some on → (if r.fault || !s.driven r.fn then TermState.released
      else if on != r.invert then .energised else .deEnergised) = .energised → s.outputLevel r = some (!r.invert) := by
    intro on ho he
    rw [ho]
    split at he
    · cases he
    · split at he
      · rename_i hne
        revert hne
        cases on <;> cases r.invert <;> simp
      · cases he
  unfold termState at h
  split at h
  · rw [Option.some.injEq] at h
    split at h <;> cases h
  · cases ho : s.outputLevel r with
    | none => rw [ho] at h; cases h
    | some on =>
      rw [ho] at h
      rw [← ho]
      exact key on ho (Option.some.inj h)

end Sys2Proof.Machine.State
end

