-- ==== Sys2Proof/WellFormed.lean ====
section
/-! DEFINITION. Well-formed commands: operands that the fields of a frame can carry (R173), and objects that the part can
have (00 section 5.2). `exec` decides every command, well-formed or not (log 37). -/

namespace Sys2Proof

/-- A number of one character (R173). -/
def fits1 (n : Nat) : Bool := n ≤ 255

/-- A number of two characters, unsigned (R173). -/
def fits2 (n : Nat) : Bool := n ≤ 65535

/-- A number of two characters, two's complement (R173). -/
def fitsSigned (v : Int) : Bool := -32768 ≤ v && v ≤ 32767

/-- An oven number the battery can have (R7). -/
def ovenNo (n : Nat) : Bool := 1 ≤ n && n ≤ 96

/-- A terminal number (R159). -/
def terminalNo (t : Nat) : Bool := t ≤ 31

/-- A bay number (R156). -/
def bayNo (b : Nat) : Bool := 1 ≤ b && b ≤ 12

/-- A machine that permits are granted to (R51). -/
def holdsPermits (m : MachineId) : Bool := m != .qc

/-- The spot of a STATUS in its fields (R173). -/
def ReportedSpot.wf : ReportedSpot → Bool
  | .oven n _ => fits1 n
  | .wharf b => fits1 b
  | _ => true

/-- A spot of the track row in its fields (R142). -/
def TrackSpot.wf : TrackSpot → Bool
  | .oven n => fits1 n
  | _ => true

/-- An optional spot. -/
def spotWf (p : Option TrackSpot) : Bool := (p.map TrackSpot.wf).getD true

/-- The number a function names (R160). -/
def TermFn.wf : TermFn → Bool
  | .pressIn k | .damperPwm k | .flareOut k | .lowAlarm k | .gateOut k => fits1 k
  | _ => true

/-- The fields of a SERIES block. -/
def SeriesParams.wf (p : SeriesParams) : Bool := fits1 p.s && fits1 p.d && fits2 p.pi && fits2 p.c && fits2 p.h

/-- The fields of a TIMING block. -/
def Timing.wf (v : Timing) : Bool :=
  fits2 v.w && fits2 v.l && fits2 v.tUse && fits2 v.tSs && fits2 v.tSd && fits2 v.tAdj && fits2 v.tRam
    && fits2 v.tReturn && fits2 v.tDoors && fits2 v.tCharge && fits2 v.lIso

/-- The fields of a PRESSURE block. -/
def PressureParams.wf (p : PressureParams) : Bool :=
  fitsSigned p.setpoint && fitsSigned p.deadband && (0 ≤ p.kp && p.kp ≤ 255) && (0 ≤ p.ki && p.ki ≤ 255)
    && fitsSigned p.uMin && fitsSigned p.uMax && fitsSigned p.rate && fitsSigned p.uStart && fitsSigned p.decay
    && fitsSigned p.ffIso && fitsSigned p.ffChg && fitsSigned p.ffEnd && fitsSigned p.pLow && fitsSigned p.pHigh
    && fitsSigned p.pFlare && fitsSigned p.hysteresis

/-- The fields of a WHARF block. -/
def WharfVals.wf (v : WharfVals) : Bool :=
  fits1 v.bays && fits2 v.tHot && fits2 v.tSpray && fits2 v.tDrain && fits2 v.tCool && fits2 v.tGate && fits2 v.tMove

/-- The fields of a DOORS block. -/
def DoorVals.wf (v : DoorVals) : Bool := fits1 v.cleanThreshold && fits2 v.tConfirm && fits2 v.tTask && fits2 v.iBase

/-- A command is well-formed. -/
def Instr.wf : Instr → Bool
  | .readyExpiry n | .overdueExpiry n | .chargeTimerExpiry n | .confirmExpiry n _ => ovenNo n
  | .useDeadlineExpiry m => holdsPermits m
  | .coolTimerExpiry b => bayNo b
  | .inputLevelChange t _ | .terminalOverload t | .pressInPulseEdge t | .damperPwmPeriodStart t => terminalNo t
  | .status _ _ _ spot => ReportedSpot.wf spot
  | .requestDoorOffPs _ n | .requestDoorOffCs _ n | .requestPush _ n | .requestCharge _ n => fits1 n
  | .doorOff _ n _ | .doorOn _ n _ | .doorTight _ n _ | .leakSeen _ n _ | .valve _ n _ => fits1 n
  | .ramStart _ n | .ramAtEnd _ n | .ramHome _ n | .chargeStart _ n | .chargeEnd _ n => fits1 n
  | .taskDone _ n _ _ | .ccTaskDone n _ _ | .dumpDone _ n => fits1 n
  | .battery _ n k lasts => fits1 n && fits1 k && lasts.length == k && lasts.all fits1
  | .series _ p _ => p.wf
  | .timing _ v => v.wf
  | .pressure _ k p => fits1 k && p.wf
  | .wharf _ v => v.wf
  | .doors _ v => v.wf
  | .terminal _ t fn _ _ _ => fits1 t && TermFn.wf fn
  | .link _ _ v => fits1 v.dv
  | .ovenLoad _ v => fits1 v.oven && fits2 v.target
  | .setTarget _ n g => fits1 n && fits2 g
  | .ovenService _ n _ | .makeup _ n | .cancelMakeup _ n | .setMode _ n _ _ | .clearBreach _ n => fits1 n
  | .pushRetry _ n | .abandon _ n | .leakReport _ n _ | .setAuto _ n | .setOutput _ n _ | .toggle _ n => fits1 n
  | .clearTerminal _ n | .ovenQuery _ n | .slotQuery _ n | .doorQuery _ n | .sectionQuery _ n => fits1 n
  | .setModeRange _ a b _ _ => fits1 a && fits1 b
  | .setDamper _ k v => fits1 k && fits2 v
  | .setSetpoint _ k v => fits1 k && fitsSigned v
  | .trackBlock _ a b | .trackFree _ a b => spotWf a && spotWf b
  | .valvesQuery _ n | .terminalsQuery _ n => (n.map fits1).getD true
  | _ => true

end Sys2Proof
end

