-- ==== Sys2Proof/Tests/Slice0.lean ====
section
/-! SUPPORT. Tests: ill-formed commands that the check of WellFormed.lean refuses, worked figures of the spec, and for each
obligation with hypotheses concrete states and operands that meet them (`witness_<Name>`), clause by clause. -/

set_option linter.all false
set_option Elab.async false

namespace Sys2Proof.Tests

open Sys2Proof Sys2Proof.Machine

/-! ## A small battery: ten ovens, two sections, in RUN, at battery time 100,000 -/

/-- The parameters of section 2 in 6.4.1. -/
def par : PressureParams := ⟨120, 4, 24, 40, 50, 950, 10, 400, 20, -80, 60, 40, 20, 250, 400, 30⟩

/-- An oven of a section in a state. -/
def ovenOf (sec : Nat) (st : OvenState) (tc : Option Nat) : OvenRec := { OvenRec.fresh sec with state := st, chargeEnd := tc }

/-- Oven 1 READY, 2 OUT, 3 COKING, 4 EMPTY, 5 PUSHING, 6 CHARGING, 7 READY and overdue since, 8 COKING with its ready time
past, 9 EMPTY with the breach flag, 10 READY. -/
def ovens : List OvenRec :=
  [ovenOf 1 .ready (some 20000), ovenOf 1 .out none, ovenOf 1 .coking (some 90000), ovenOf 1 .empty none,
    ovenOf 1 .pushing (some 20000), ovenOf 2 .charging none, ovenOf 2 .ready (some 20000), ovenOf 2 .coking (some 20000),
    { ovenOf 2 .empty none with breach := true }, ovenOf 2 .ready (some 20000)]

def door (st : DoorState) : DoorRec := { DoorRec.fresh with state := st }

def doors : List (Pair DoorRec) :=
  [⟨.fresh, .fresh⟩, ⟨door .leaking, .fresh⟩, ⟨door .onUnconfirmed, .fresh⟩, ⟨.fresh, .fresh⟩, ⟨door .off, door .off⟩,
    ⟨.fresh, .fresh⟩, ⟨.fresh, .fresh⟩, ⟨.fresh, .fresh⟩, ⟨.fresh, .fresh⟩, ⟨.fresh, .fresh⟩]

def valves : List ValveRec :=
  [⟨.closed, none⟩, ⟨.unknown, none⟩, ⟨.opened, none⟩, ⟨.aspirating, none⟩, ⟨.closed, none⟩, ⟨.aspirating, none⟩,
    ⟨.closed, none⟩, ⟨.opened, none⟩, ⟨.aspirating, none⟩, ⟨.closed, none⟩]

/-- A section in AUTO, as 6.4.1 has it before its step. -/
def live : SecLive := ⟨.auto, some false, 380, .normal, .zero⟩

def section2 : SecRec := ⟨some par, some live, none, 8, false, 102400, -60⟩

def term (fn : TermFn) : TermRec := { TermRec.fresh with fn := fn }

def terms : List TermRec :=
  [.freshT0, term (.pressIn 1), term (.pressIn 2), term (.damperPwm 1), term (.damperPwm 2), term .input, term .output,
    term .conveyorRunIn, term (.gateOut 1), term .sprayOut] ++ List.replicate 22 .fresh

def onLink (m : MLink) : MLink := { m with port := { m.port with up := true, silence := true } }

def onM : MLink := onLink .fresh

/-- A machine in AUTO that stands at a position. -/
def machineAt (p : Position) (st : Option MachineStatus) : MachineRec := ⟨some .auto, some p, st, some 99999, false⟩

/-- The battery in RUN with no stop condition: PM and GC at oven 1, CC at oven 4, QC at PARK, every link up. -/
def base : State where
  tb := ⟨100000, false, 0⟩
  ot := ovens.map fun o => { o with breach := false }
  pln := { Planner.fresh with state := .running }
  ilk := { Interlock.fresh with
    stop := false
    machines := ⟨machineAt (.oven 1 .ps) (some (.ram .home)), machineAt (.oven 1 .cs) (some (.guide .locked)),
      machineAt (.oven 4 .top) none, machineAt .park (some (.carLoad .empty))⟩ }
  dru := { DoorUnit.fresh with doors := doors }
  ofu := { Offtake.fresh with
    sections := [section2, section2]
    gates := [⟨652, true, none, false⟩, ⟨652, true, none, false⟩, .fresh, .fresh]
    valves := valves }
  qnu := .fresh
  trm := terms
  lnk := { sup := { SLink.fresh with port := { Port.fresh with up := true, silence := true } }, mach := ⟨onM, onM, onM, onM⟩ }
  cfg := ⟨.run, { Loaded.empty with battery := true, pressure := [1, 2] }, timingDefaults⟩
  pending := []

/-- The same battery in CONFIG. -/
def inCfg : State := { base with cfg.part := .config }

/-- The state a command leaves. -/
def run (c : Instr) (s : State) : State :=
  match exec c s with
  | .next t => t
  | _ => s

/-- The result code of the answer to a request from a part whose S-link is idle. -/
def codeOf (c : Instr) (s : State) : Option ResultCode :=
  match (run c s).lnk.sup.sending with
  | some (.answer _ r _ _) => some r.result
  | _ => none

/-- The push record of oven 5 in a stage, its stage timer expired. -/
def pushIn (st : PushStage) : PushRec :=
  ⟨5, st, if st = .armed then some .opening else none, false, 1, 99000, some 99500, none, none, false, false,
    .running 99999, false, false, []⟩

/-- The battery with a push record. -/
def pushing (st : PushStage) : State := { base with ilk.push := some (pushIn st) }

theorem none_only {α : Type} {P : α → Prop} {o : Option α} (h : o = none) : ∀ p, o = some p → P p := by
  intro p hp; rw [h] at hp; cases hp

theorem some_only {α : Type} {P : α → Prop} {o : Option α} {a : α} (h : o = some a) (ha : P a) :
    ∀ p, o = some p → P p := by
  intro p hp; rw [h] at hp; cases hp; exact ha

/-! ## Well-formed commands -/

theorem test_wf_oven_numbers : Instr.wf (.readyExpiry 0) = false ∧ Instr.wf (.confirmExpiry 97 .ps) = false
    ∧ Instr.wf (.overdueExpiry 96) = true ∧ Instr.wf (.doorOff .pm 256 (some .ps)) = false
    ∧ Instr.wf (.requestPush .pm 255) = true := by decide

theorem test_wf_machines_bays_terminals : Instr.wf (.useDeadlineExpiry .qc) = false ∧ Instr.wf (.coolTimerExpiry 13) = false
    ∧ Instr.wf (.coolTimerExpiry 0) = false ∧ Instr.wf (.pressInPulseEdge 32) = false
    ∧ Instr.wf (.inputLevelChange 31 true) = true := by decide

theorem test_wf_spots : Instr.wf (.status (.qc .empty) .auto .stopped (.oven 256 .track)) = false
    ∧ Instr.wf (.status (.qc .empty) .auto .stopped (.wharf 256)) = false
    ∧ Instr.wf (.trackBlock 0 (some (.oven 256)) (some .wharf)) = false := by decide

theorem test_wf_blocks : Instr.wf (.battery 0 10 2 [5]) = false ∧ Instr.wf (.battery 0 300 1 [300]) = false
    ∧ Instr.wf (.series 0 ⟨256, 2, 720, 60, 900⟩ none) = false ∧ Instr.wf (.series 0 ⟨5, 2, 65536, 60, 900⟩ none) = false
    ∧ Instr.wf (.timing 0 { timingDefaults with w := 65536 }) = false
    ∧ Instr.wf (.pressure 0 1 { par with kp := 256 }) = false
    ∧ Instr.wf (.pressure 0 1 { par with setpoint := -32769 }) = false
    ∧ Instr.wf (.wharf 0 { wharfDefaults with bays := 256 }) = false
    ∧ Instr.wf (.doors 0 { doorDefaults with cleanThreshold := 256 }) = false
    ∧ Instr.wf (.terminal 0 3 (.gateOut 256) false .normal .both) = false
    ∧ Instr.wf (.link 0 .sup { lineDefaults with dv := 256 }) = false := by decide

theorem test_wf_commands : Instr.wf (.setTarget 0 1 65536) = false ∧ Instr.wf (.setModeRange 0 1 256 none none) = false
    ∧ Instr.wf (.setDamper 0 1 65536) = false ∧ Instr.wf (.setSetpoint 0 1 32768) = false
    ∧ Instr.wf (.valvesQuery 0 (some 256)) = false ∧ Instr.wf (.terminalsQuery 0 none) = true := by decide

/-! ## Figures that the spec works out -/

theorem test_series_order_of_2_11 : seriesOrder 10 5 2 = [1, 6, 3, 8, 5, 10, 2, 7, 4, 9] := by decide

theorem test_crc_of_123456789 : crc16 [0x31, 0x32, 0x33, 0x34, 0x35, 0x36, 0x37, 0x38, 0x39] = 0x29B1#16 := by
  decide +kernel

theorem test_control_step_of_6_4_1 : ((run .controlTick base).sec 2).map
    (fun r => (r.pressure, r.integ, r.ff, r.live.map SecLive.uOut)) = some (some 152, 103680, -40, some 390) := by
  decide +kernel

theorem test_setpoints_of_6_8 : [300, -50, 150].map (fun v =>
    (((run (.setSetpoint 0 2 v) base).sec 2).bind SecRec.params).map PressureParams.setpoint)
      = [some 249, some 21, some 150] := by decide +kernel

theorem test_no_word_decodes (n w : Nat) : decodeTableWord n w = none ∧ State.withFetchWord base n w = base := ⟨rfl, rfl⟩

theorem test_codes : codeOf (.ovenQuery 1 0) base = some .range ∧ codeOf (.ovenQuery 1 1) base = some .ok
    ∧ codeOf (.planStart 1 none) base = some .planState ∧ codeOf (.series 1 seriesDefaults none) State.reset = some .order
    ∧ codeOf (.commit 1) State.reset = some .missing ∧ codeOf (.commit 1) base = some .state
    ∧ codeOf (.restart 1) base = some .busy ∧ codeOf (.setDamper 1 3 0) base = some .range := by decide +kernel

theorem test_timer_without_battery : (run (.readyExpiry 1) State.reset) = State.reset := by decide +kernel

/-! ## Witnesses: the step, the queue, the end of an event -/

theorem witness_StepRunsTheFrontCommand :
    ({ base with pending := [.controlTick, .dueExpiry] } : State).pending = .controlTick :: [.dueExpiry] := rfl

/-- A link in test, with three frames' worth of stream behind it. -/
def tested (m : MLink) : MLink := { m with
  port := { m.port with up := false, silence := false }
  test := { LinkTest.fresh with active := true, seeded := 2, generator := 0x7FFF#15 } }

def inTest : State := { base with lnk.mach.gc := tested onM }

theorem witness_EmptyQueueIdles : base.pending = [] ∧ inTest.pending = [] ∧ (inTest.mlink .gc).test.active = true
    ∧ (inTest.mlink .pm).test.active = false := by decide

def answerOf (d : AnswerData) : Answer := ⟨7, ⟨.ok, d, none⟩, 0⟩

def withAnswers (n : Nat) : State := { base with lnk.sup.answers := List.replicate n (answerOf .nothing) }

def withNotice : State := { base with lnk.sup.notices := [⟨99999, .timeHeld⟩] }

/-- The output queue to PM holds 16 frames, with the suppression as given. -/
def crowded (suppressed : Bool) : State :=
  { base with lnk.mach.pm := { onM with queue := List.replicate 16 (.clear .config), suppressed := suppressed } }

/-- The notice queue holds 32 notices. -/
def crammed : State := { base with lnk.sup.notices := List.replicate 32 ⟨99999, .timeHeld⟩ }

theorem witness_TransmittersTakeTheNextFrame :
    base.now < tMax ∧ base.lnk.sup.sending = none ∧ (withAnswers 1).lnk.sup.answers = answerOf .nothing :: []
    ∧ withNotice.lnk.sup.answers = [] ∧ withNotice.present = true ∧ withNotice.lnk.sup.notices = ⟨99999, .timeHeld⟩ :: []
    ∧ State.reset.present = false ∧ base.lnk.sup.notices = []
    ∧ ({ base with lnk.sup.sending := some (.notice ⟨0, .timeHeld⟩) } : State).lnk.sup.sending = some (.notice ⟨0, .timeHeld⟩)
    ∧ ({ base with lnk.sup.sending := some (.answer 7 (.code .ok) 1 true) } : State).lnk.sup.sending
        = some (.answer 7 (.code .ok) 1 true) := by decide

theorem witness_QueuesAndTheirLimits :
    base.lnk.sup.notices.length < 32 ∧ 32 ≤ crammed.lnk.sup.notices.length ∧ (base.mlink .pm).queue.length < 16
    ∧ (base.mlink .pm).test.active = false ∧ 16 ≤ ((crowded true).mlink .pm).queue.length
    ∧ ((crowded true).mlink .pm).suppressed = true ∧ ((crowded false).mlink .pm).suppressed = false
    ∧ (inTest.mlink .gc).test.active = true ∧ (crammed.raise .timeHeld).lnk.sup.noticesLost = true
    ∧ (((crowded false).send .pm (.stop .breach)).lnk.sup.notices).map Notice.body = [.outputOverrun .pm .stop] := by
  decide +kernel

/-- At the greatest battery time an event ends with the expiries that are due: a permit goes with an event that is not its
own. -/
theorem witness_ExpiriesOfHeldTime :
    let s : State := { State.reset with tb.time := tMax, ilk.permits.pm := some ⟨.push, 5, 0, tMax⟩ }
    ¬ s.now < tMax ∧ s.sweepOnce ≠ s ∧ (run .moveTimerExpiry s).permit .pm = none := by decide +kernel

theorem witness_FramesAndWhatTheyCarry : requestTag (.planHalt 3) = some 3 ∧ 4 ≤ (withAnswers 4).lnk.sup.answers.length
    ∧ senderOf (.doorOff .gc 1 (some .cs)) = some .gc ∧ (inTest.mlink .gc).test.active = true
    ∧ frameOf (.mach .gc) 0x41#8 [] = .discard .kind ∧ frameOf .sup 0x01#8 [1, 2] = .discard .kind
    ∧ frameOf .sup 0x82#8 [7] = .discard .len ∧ frameOf (.mach .gc) 0x02#8 [1] = .discard .len
    ∧ frameOf (.mach .gc) 0x03#8 [] = .discard .len := by decide +kernel

/-- A name is read by the first code that a character is: some name of each kind is read whatever the free codes are. -/
theorem witness_NamesAreRead : Config.blockOf (Config.blockCode .battery) = some .battery
    ∧ Config.commandOf (Config.commandCode .setTime) = some .setTime
    ∧ Config.subjectOf (Config.subjectCode .status) = some .status
    ∧ Config.reportOf (Config.reportCode .doorOff) = some .doorOff
    ∧ Config.fnNameOf (Config.fnNameCode .unassigned) = some .unassigned
    ∧ frameOf .sup 0x82#8 [9, Config.commandCode .setTime, 0, 0, 1, 2] = .message (.setTime 9 258#32)
    ∧ frameOf .sup 0x83#8 [9, Config.subjectCode .status, 0] = .discard .len := by
  have h1 : Config.commandOf (Config.commandCode .setTime) = some .setTime := by simp [Config.commandOf, Config.readName]
  have h2 : Config.subjectOf (Config.subjectCode .status) = some .status := by simp [Config.subjectOf, Config.readName]
  refine ⟨by simp [Config.blockOf, Config.readName], h1, h2, by simp [Config.reportOf, Config.readName],
    by simp [Config.fnNameOf, Config.readName], ?_, ?_⟩
  · simp only [frameOf, namedBody, h1]
    rfl
  · simp only [frameOf, namedBody, h2]
    rfl

theorem witness_RunOnlyCommandsInConfig : inCfg.room ∧ inCfg.inRun = false ∧ (withAnswers 3).room := by decide

theorem witness_MisplacedReportsAreRejected : base.untested .pm ∧ base.untested .qc ∧ base.untested .cc
    ∧ (∀ d, some Side.cs = some d → Side.machine d ≠ .pm) ∧ base.ovenOk 0 = false ∧ base.ovenOk 11 = false
    ∧ base.ovenOk 1 = true ∧ base.ovenOk 10 = true ∧ MachineId.cc ≠ .pm ∧ MachineId.pm ≠ .cc ∧ MachineId.pm ≠ .qc := by
  refine ⟨by decide, by decide, by decide, ?_, by decide⟩
  intro d h; cases h; decide

/-! ## Witnesses: what every step keeps -/

/-- A fresh part in RUN without a battery, with a command waiting. -/
def small (c : Instr) : State := { State.reset with cfg.part := .run, tb := ⟨5, false, 0⟩, pending := [c] }

theorem witness_InvKept : Inv (small (.planStage 1)) ∧ ∃ t, step (small (.planStage 1)) = .next t := by
  refine ⟨⟨by decide, ⟨by decide, by decide, ?_⟩, ?_, ?_, by decide, by decide, ⟨by decide, by decide, by decide, ?_, ?_⟩,
    by decide +kernel, by decide, by decide, by decide⟩, _, rfl⟩
  · intro i j a b h
    cases i <;> cases h
  · exact ⟨by decide, by decide, by decide, by decide, by decide, rfl, fun _ => rfl, fun x h => by cases h⟩
  · constructor
    · intro m p h
      cases m <;> cases h
    · intro p h
      cases h
  · intro b
    match b with
    | 0 => exact iff_of_false (by decide) fun ⟨_, h⟩ => by cases h
    | 1 | 2 | 3 | 4 | 5 | 6 => exact iff_of_true (by decide) ⟨0, rfl⟩
    | k + 7 =>
      refine iff_of_false (fun h => ?_) fun ⟨_, h⟩ => by cases h
      have h : k + 7 ∈ [1, 2, 3, 4, 5, 6] := h
      simp at h
  · intro l b h
    cases h

theorem witness_NoPermitUnderHoldKept :
    HoldSafe (small .dueExpiry) ∧ ∃ t, step (small .dueExpiry) = .next t := by
  refine ⟨⟨rfl, fun _ m => by cases m <;> rfl⟩, _, rfl⟩

theorem witness_LoadFollowsCarKept :
    CarSafe (small .hotTimerExpiry) ∧ ∃ t, step (small .hotTimerExpiry) = .next t := ⟨⟨rfl, rfl⟩, _, rfl⟩

/-- The battery with a permit in force. -/
def withPermit (m : MachineId) (k : PermitKind) (n : Nat) : State :=
  { base with ilk.permits := base.ilk.permits.set m (some ⟨k, n, 99990, 100000⟩) }

theorem witness_RetestLeavesOnlyGoodPermits : PermitsOk (withPermit .pm .doorOffPs 1).ilk.permits := by
  intro m p h; cases m <;> cases h; rfl

theorem witness_PermitsComeFromRequests : (∃ t, exec (.doorOn .pm 1 (some .ps)) base = .next t)
    ∧ (∀ m n, Instr.doorOn .pm 1 (some .ps) ≠ .requestDoorOffPs m n)
    ∧ ∀ l x, Instr.doorOn .pm 1 (some .ps) ≠ .characterReceived l x :=
  ⟨⟨_, rfl⟩, fun _ _ h => (nomatch h), fun _ _ h => (nomatch h)⟩

theorem witness_TimeConfigurationAndTerminalFrame : (∃ t, exec (.makeup 1 1) base = .next t)
    ∧ Instr.makeup 1 1 ≠ .hardReset ∧ ∀ l x, Instr.makeup 1 1 ≠ .characterReceived l x :=
  ⟨⟨_, rfl⟩, by decide, fun _ _ h => (nomatch h)⟩

/-! ## Witnesses: battery time and the oven table -/

def atTime (s : State) (t : Nat) : State := { s with tb.time := t }

theorem witness_BatteryTimeCounts : base.now + 1 < tMax ∧ (atTime base 4294967293).now + 1 < tMax
    ∧ (atTime base 4294967294).now + 1 = tMax ∧ tMax ≤ (atTime base 4294967295).now
    ∧ (atTime base 4294967295).now ≤ tMax ∧ (run .oneSecondTick (atTime inCfg 7)).now = 8
    ∧ (run .oneSecondTick (atTime State.reset 4294967295)).now = 4294967295 := by decide +kernel

theorem witness_SetTimeByTheTimeOpenFlag : State.reset.room ∧ State.reset.inRun = false ∧ State.reset.tb.timeOpen = true
    ∧ (5#32).toNat ≠ tMax ∧ (4294967295#32).toNat = tMax ∧ base.inRun = true ∧ inCfg.tb.timeOpen = false
    ∧ (∃ t, exec (.setTime 1 5#32) State.reset = .next t) :=
  ⟨by decide, by decide, by decide, by decide, by decide, by decide, by decide, _, rfl⟩

/-- A battery of one section, whole, in CONFIG: COMMIT finds nothing missing. -/
def whole : State := { State.reset with
  ot := List.replicate 10 (.fresh 1)
  dru.doors := List.replicate 10 ⟨.fresh, .fresh⟩
  ofu.sections := [{ SecRec.fresh with params := some par }]
  ofu.valves := List.replicate 10 .fresh
  qnu := { QuenchUnit.fresh with bays := [.free 0, .free 0], free := [1, 2], vals := { wharfDefaults with bays := 2 } }
  trm := [.freshT0, term (.pressIn 1), term (.damperPwm 1), term .sprayOut, term (.gateOut 1), term (.gateOut 2),
    term .conveyorRunIn] ++ List.replicate 25 .fresh
  cfg.loaded := { Loaded.empty with battery := true, pressure := [1] } }

theorem witness_CommitClearsTimeOpen : whole.room ∧ whole.inRun = false ∧ whole.missingBlocks = [] ∧ whole.missingFns = []
    ∧ (∃ t, exec (.commit 1) whole = .next t) ∧ (run (.commit 1) whole).tb.timeOpen = false
    ∧ (run (.commit 1) whole).inRun = true :=
  ⟨by decide, by decide, by decide +kernel, by decide +kernel, ⟨_, rfl⟩, by decide +kernel, by decide +kernel⟩

theorem witness_TimeAndOvenQueries : base.room ∧ base.supervisorHeard.oven 0 = none ∧ base.supervisorHeard.oven 11 = none
    ∧ (base.supervisorHeard.oven 1).isSome = true ∧ (base.supervisorHeard.oven 10).isSome = true := by decide

theorem witness_BatteryCreatesTheTables : State.reset.room ∧ State.reset.cfg.loaded.battery = false
    ∧ State.reset.inRun = false ∧ inCfg.cfg.loaded.battery = true ∧ inCfg.inRun = false ∧ base.inRun = true
    ∧ codeOf (.battery 1 10 1 [10]) State.reset = some .ok ∧ codeOf (.battery 1 96 4 [1, 2, 3, 96]) State.reset = some .ok
    ∧ codeOf (.battery 1 9 1 [9]) State.reset = some .range ∧ codeOf (.battery 1 97 1 [97]) State.reset = some .range
    ∧ codeOf (.battery 1 10 2 [10, 10]) State.reset = some .range
    ∧ codeOf (.battery 1 10 2 [0, 10]) State.reset = some .range := by decide +kernel

def load (n : Nat) (st : OvenState) (tc : Option Time32) : OvenLoad := ⟨n, st, tc, 600, .auto, none, none, none, none⟩

theorem witness_OvenLoadSetsTheRecords : inCfg.room ∧ inCfg.cfg.loaded.battery = true ∧ inCfg.inRun = false
    ∧ base.inRun = true ∧ State.reset.cfg.loaded.battery = false
    ∧ codeOf (.ovenLoad 1 (load 10 .coking (some 100000#32))) inCfg = some .ok
    ∧ codeOf (.ovenLoad 1 (load 10 .coking (some 100001#32))) inCfg = some .range
    ∧ codeOf (.ovenLoad 1 (load 11 .out none)) inCfg = some .range
    ∧ codeOf (.ovenLoad 1 (load 1 .out (some 1#32))) inCfg = some .range
    ∧ codeOf (.ovenLoad 1 { load 1 .out none with target := 2400, doorPs := some .leaking }) inCfg = some .ok
    ∧ codeOf (.ovenLoad 1 { load 1 .out none with doorCs := some .off }) inCfg = some .range := by decide +kernel

theorem witness_OvenServiceAndTarget : base.room ∧ base.supervisorHeard.oven 0 = none
    ∧ (base.supervisorHeard.oven 2).map OvenRec.state = some .out
    ∧ (base.supervisorHeard.oven 4).map OvenRec.state = some .empty
    ∧ ([0, 600, 2400, 65535].map fun g => ((run (.setTarget 1 1 g) base).oven 1).map OvenRec.target)
        = [some 600, some 600, some 2400, some 2400] := by decide +kernel

theorem witness_ReadyAndOverdueExpiries : base.inRun = true ∧ base.ovenState 8 = some .coking
    ∧ (base.oven 8).bind OvenRec.chargeEnd = some 20000
    ∧ min tMax (20000 + (1080 - base.cfg.timing.w) * 60) ≤ base.now
    ∧ base.ovenState 7 = some .ready ∧ (base.oven 7).map OvenRec.overdue = some false
    ∧ min tMax (20000 + (1080 + base.cfg.timing.l) * 60) ≤ base.now
    ∧ (base.evalReadyRaw 8).ovenState 8 ≠ base.ovenState 8 ∧ (base.evalReadyRaw 7).ovenState 7 = base.ovenState 7
    ∧ ((atTime base 81199).evalReadyRaw 8).ovenState 8 = (atTime base 81199).ovenState 8
    ∧ (run (.readyExpiry 8) (atTime base 81200)).ovenState 8 = some .ready
    ∧ (run (.readyExpiry 8) (atTime base 81199)).ovenState 8 = some .coking
    ∧ ((run (.overdueExpiry 7) (atTime base 92000)).oven 7).map OvenRec.overdue = some true
    ∧ ((run (.overdueExpiry 7) (atTime base 91999)).oven 7).map OvenRec.overdue = some false := by decide +kernel

theorem witness_CoveredChargeStart : (withPermit .cc .charge 4).untested .cc ∧ (withPermit .cc .charge 4).now < tMax
    ∧ (withPermit .cc .charge 4).inRun = true ∧ (withPermit .cc .charge 4).ovenIs 4 .empty = true
    ∧ (withPermit .cc .charge 4).permit .cc = some ⟨.charge, 4, 99990, 100000⟩
    ∧ (withPermit .cc .charge 9).ovenIs 9 .empty = true
    ∧ (withPermit .cc .charge 9).chargingElsewhere 9 ((withPermit .cc .charge 9).secOf 9) = some 6
    ∧ (run (.chargeStart .cc 9) (withPermit .cc .charge 9)).ovenState 6 = some .coking := by decide +kernel

theorem witness_ChargeEndBeginsCoking : base.untested .cc ∧ (base.oven 6).map OvenRec.state = some .charging
    ∧ base.inRun = true ∧ inCfg.inRun = false ∧ (base.oven 7).map OvenRec.state = some .ready
    ∧ ((run (.chargeEnd .cc 6) base).oven 6).bind OvenRec.chargeEnd = some 100000 := by decide +kernel

/-! ## Witnesses: series and the push plan -/

theorem witness_SeriesOrderListsEveryOvenOnce : (1 ≤ 2 ∧ Nat.gcd 1 2 = 1) ∧ (1 ≤ 10 ∧ Nat.gcd 9 10 = 1)
    ∧ 3 ∈ subRound 10 5 3 ∧ 8 ∈ subRound 10 5 3 ∧ seriesOrder 96 10 9 = seriesOrder 96 10 9 := by decide

theorem witness_StagedSeriesAndItsMark : base.room ∧ State.reset.cfg.loaded.battery = false
    ∧ codeOf (.series 1 ⟨2, 1, 300, 150, 3600⟩ none) base = some .ok
    ∧ codeOf (.series 1 ⟨10, 9, 3600, 1800, 0⟩ (some 5#32)) inCfg = some .ok
    ∧ codeOf (.series 1 ⟨2, 1, 300, 151, 0⟩ none) base = some .range
    ∧ codeOf (.series 1 ⟨10, 5, 300, 0, 0⟩ none) base = some .range
    ∧ codeOf (.series 1 ⟨11, 1, 300, 0, 0⟩ none) base = some .range
    ∧ codeOf (.series 1 ⟨5, 2, 720, 60, 3601⟩ none) base = some .range := by decide +kernel

/-- Round 3 with its cursor at the slot of an oven. -/
def withSlot (n : Nat) (st : SlotStatus) : State := { base with
  pln.round := some ⟨3, 90000, [⟨n, 99000, st, none⟩, ⟨7, 99720, .waiting, none⟩]⟩
  pln.cursor := some 0 }

theorem witness_StagedSeriesRound : (withSlot 1 .done).pln.round.isSome = true ∧ (withSlot 1 .done).pln.mark = false
    ∧ ({ withSlot 1 .done with pln.mark := true } : State).pln.mark = true := by decide

def idlePlan : State := { base with pln.state := .idle }

theorem witness_PlanStartBuildsRoundZero : idlePlan.room ∧ idlePlan.inRun = true
    ∧ idlePlan.supervisorHeard.pln.state = .idle ∧ base.supervisorHeard.pln.state ≠ .idle
    ∧ idlePlan.pln.serving = none
    ∧ ((run (.planStart 1 none) idlePlan).pln.round.map fun r => r.slots.map fun x => (x.oven, x.planned))
        = some [(1, 100000), (6, 100720), (3, 101440), (8, 102160), (5, 102880), (10, 103600), (7, 104320), (4, 105040),
            (9, 105760)]
    ∧ codeOf (.planStart 1 none) { idlePlan with ot := [] } = some .ok
    ∧ (run (.planStart 1 none) { idlePlan with ot := [] }).pln.state = .idle := by decide +kernel

def halted : State := { withSlot 1 .waiting with pln.state := .halted }

theorem witness_PlanHaltAndResume : base.room ∧ base.inRun = true ∧ base.supervisorHeard.pln.state = .running
    ∧ idlePlan.supervisorHeard.pln.state ≠ .running ∧ halted.supervisorHeard.pln.state = .halted
    ∧ base.supervisorHeard.pln.state ≠ .halted := by decide

theorem witness_SetModeWritesTheOven : base.room ∧ (base.supervisorHeard.oven 1).isSome = true
    ∧ base.supervisorHeard.ovenIs 5 .pushing = true ∧ base.supervisorHeard.cursorAt 1 = false
    ∧ (withSlot 1 .waiting).supervisorHeard.cursorAt 1 = true
    ∧ (withSlot 1 .waiting).supervisorHeard.cursorStatus = some .waiting
    ∧ (withSlot 1 .due).supervisorHeard.cursorStatus = some .due
    ∧ (withSlot 1 .inPush).supervisorHeard.cursorStatus = some .inPush
    ∧ codeOf (.setMode 1 1 .fixed none) base = some .range ∧ codeOf (.setMode 1 1 .auto (some 5#32)) base = some .range
    ∧ codeOf (.setMode 1 1 .fixed (some 5#32)) base = some .ok := by decide +kernel

def withRange (left : Nat) (ab : Bool) : State :=
  { base with pln.range := some ⟨4, 5, .hold, none, 5, left, 1, 0, ab⟩ }

theorem witness_RangeOperation : base.room ∧ base.inRun = true ∧ base.supervisorHeard.pln.range = none
    ∧ (withRange 1 false).supervisorHeard.pln.range.isSome = true
    ∧ codeOf (.setModeRange 1 1 10 (some .hold) none) base = some .ok
    ∧ codeOf (.setModeRange 1 10 1 (some .hold) none) base = some .ok
    ∧ codeOf (.setModeRange 1 0 1 (some .hold) none) base = some .range
    ∧ codeOf (.setModeRange 1 1 2 none none) base = some .range
    ∧ (run (.setModeRange 1 9 2 (some .hold) none) base).pln.range.map RangeOp.left = some 4
    ∧ (run .rangeStepEnd (withRange 1 false)).pln.range = none
    ∧ (run .rangeStepEnd (withRange 2 true)).pln.range = none := by decide +kernel

def withMakeup (n : Nat) (serves : Bool) : State := { base with
  pln.makeup := [⟨n, 99000⟩]
  pln.serving := if serves then some (.makeup n 99500) else none }

theorem witness_MakeupList : base.room ∧ base.inRun = true ∧ base.supervisorHeard.oven 0 = none
    ∧ codeOf (.makeup 1 1) base = some .ok ∧ codeOf (.makeup 1 3) base = some .ok
    ∧ codeOf (.makeup 1 4) base = some .ovenState ∧ codeOf (.makeup 1 1) (withMakeup 1 false) = some .duplicate
    ∧ codeOf (.makeup 1 1) { base with pln.makeup := List.replicate 8 ⟨7, 0⟩ } = some .full
    ∧ codeOf (.cancelMakeup 1 1) base = some .notFound ∧ codeOf (.cancelMakeup 1 1) (withMakeup 1 false) = some .ok
    ∧ codeOf (.cancelMakeup 1 1) (withMakeup 1 true) = some .ok
    ∧ codeOf (.cancelMakeup 1 5) (withMakeup 5 true) = some .busy := by decide +kernel

theorem witness_SlotCheckAndItsTimers :
    (withSlot 1 .waiting).cursorSlot = some ⟨1, 99000, .waiting, none⟩ ∧ (withSlot 1 .waiting).pln.state = .running
    ∧ (atTime (withSlot 1 .waiting) 98999).now < 99000 ∧ 99000 ≤ (atTime (withSlot 1 .waiting) 99000).now
    ∧ (withSlot 1 .waiting).ovenState 1 = some .ready ∧ (withSlot 1 .waiting).pln.serving = none
    ∧ (withSlot 3 .waiting).ovenState 3 ≠ some .ready
    ∧ ({ withSlot 1 .waiting with pln.serving := some (.makeup 7 5) } : State).pln.serving.isSome = true
    ∧ ({ withSlot 3 .waiting with pln.holdOver := some 100000 } : State).pln.holdOver = some 100000
    ∧ ({ withSlot 1 .waiting with pln.dueTimer := some 100000 } : State).pln.dueTimer = some 100000
    ∧ (run .dueExpiry { withSlot 1 .waiting with pln.dueTimer := some 100000 }).pln.serving = some .slot
    ∧ ((run .holdOverExpiry { withSlot 3 .waiting with pln.holdOver := some 100000 }).slot 0).map Slot.status
        = some .passed
    ∧ (withSlot 1 .waiting).cursorStatus = some .waiting ∧ halted.pln.state ≠ .running
    ∧ (withSlot 1 .waiting).pln.cursor = some 0 ∧ base.cursorStatus ≠ some .waiting
    ∧ (withSlot 1 .done).cursorStatus ≠ some .waiting ∧ (withSlot 1 .waiting).checkOnce.1.cursorStatus = some .due := by
  decide +kernel

theorem witness_PlanAndSlotQueries : base.room ∧ base.supervisorHeard.pln.round = none
    ∧ (withSlot 1 .due).supervisorHeard.pln.round.isSome = true
    ∧ (withMakeup 1 true).supervisorHeard.pln.serving = some (.makeup 1 99500)
    ∧ ({ withSlot 1 .due with pln.serving := some .slot } : State).supervisorHeard.slot 0
        = some ⟨1, 99000, .due, none⟩
    ∧ codeOf (.slotQuery 1 1) (withSlot 1 .due) = some .ok
    ∧ codeOf (.slotQuery 1 2) (withSlot 1 .due) = some .range := by decide +kernel

/-! ## Witnesses: machines, permits, the push -/

theorem witness_StatusWritesTheMachineRecord : base.untested .pm ∧ base.now < tMax
    ∧ (run (.status (.pm .home) .auto .stopped (.oven 10 .ps)) base).machine .pm
        = { machineAt (.oven 10 .ps) (some (.ram .home)) with lastStatus := some 100000 }
    ∧ ((run (.status (.pm .home) .auto .stopped (.oven 11 .ps)) base).machine .pm).invalidPos = true
    ∧ ((run (.status (.pm .home) .auto .stopped (.oven 10 .cs)) base).machine .pm).invalidPos = true
    ∧ ((run (.status (.qc .empty) .auto .stopped (.wharf 6)) base).machine .qc).position = some (.wharf 6)
    ∧ ((run (.status (.qc .empty) .auto .stopped (.wharf 7)) base).machine .qc).position = some .travel
    ∧ ((run (.status .cc .auto .stopped .bunker) base).machine .cc).position = some .bunker
    ∧ ((run (.status (.gc .free) .auto .moving .park) base).machine .gc).position = some .travel := by decide +kernel

/-- The battery with oven 1 serving. -/
def serving1 : State := { withSlot 1 .due with pln.serving := some .slot }

/-- What a REQUEST puts on its M-link. -/
def reply (m : MachineId) (c : Instr) (s : State) : Option MFrame := ((run c s).mlink m).sending

/-- A PUSH request that passes every test: oven 5 serving, machines at it, the car SPOTTED there. -/
def pushReady : State := { withSlot 5 .inPush with
  pln.serving := some .slot
  ilk := { base.ilk with
    push := some { pushIn .opening with timer := .absent }
    machines := ⟨machineAt (.oven 5 .ps) (some (.ram .home)), machineAt (.oven 5 .cs) (some (.guide .locked)),
      machineAt .park none, machineAt (.oven 5 .track) (some (.carLoad .empty))⟩ }
  qnu.car := { CarRec.fresh with state := .spotted 5 } }

theorem witness_RequestsAreDecidedInOrder : serving1.untested .pm ∧ pushReady.untested .pm ∧ base.untested .cc
    ∧ reply .pm (.requestDoorOffPs .pm 1) serving1 = some (.grant .doorOffPs 1 100120)
    ∧ reply .pm (.requestDoorOffPs .pm 1) base = some (.refuse (.known .doorOffPs) 1 .notServing none)
    ∧ reply .pm (.requestDoorOffPs .pm 0) base = some (.refuse (.known .doorOffPs) 0 .range none)
    ∧ reply .pm (.requestDoorOffPs .pm 1) inCfg = some (.refuse (.known .doorOffPs) 1 .state none)
    ∧ reply .qc (.requestPush .qc 5) base = some (.refuse (.known .push) 5 .kind none)
    ∧ reply .pm (.requestPush .pm 5) pushReady = some (.grant .push 5 100120)
    ∧ (run (.requestPush .pm 5) pushReady).ilk.push.map PushRec.stage = some .armed
    ∧ reply .cc (.requestCharge .cc 4) { base with ofu.sections := [section2, section2] } = some (.grant .charge 4 100120)
    ∧ reply .gc (.requestDoorOffCs .gc 1) { serving1 with ilk.lastRam := some (99101, 1) }
        = some (.refuse (.known .doorOffCs) 1 .spacing none)
    ∧ ((takeFrame (.mach .pm) (.unknownPermit .pm 9 1) base).mlink .pm).queue = [.refuse (.unknown 9) 1 .kind none]
    ∧ ((takeFrame (.mach .pm) (.unknownPermit .pm 9 0) base).mlink .pm).queue = [.refuse (.unknown 9) 0 .range none]
    ∧ ((takeFrame (.mach .pm) (.unknownPermit .pm 9 1) inCfg).mlink .pm).queue = [.refuse (.unknown 9) 1 .state none]
    ∧ reply .gc (.requestDoorOffCs .gc 1) { serving1 with ilk.lastRam := some (99100, 1) }
        = some (.grant .doorOffCs 1 100120) := by decide +kernel

theorem witness_PermitExpiresAtItsDeadline : (∀ p, base.permit .pm = some p → base.now < p.deadline)
    ∧ (withPermit .pm .doorOffPs 1).permit .pm = some ⟨.doorOffPs, 1, 99990, 100000⟩
    ∧ 100000 ≤ (withPermit .pm .doorOffPs 1).now ∧ (atTime (withPermit .pm .doorOffPs 1) 99999).now < 100000
    ∧ (run (.useDeadlineExpiry .pm) (withPermit .pm .doorOffPs 1)).permit .pm = none
    ∧ (run (.useDeadlineExpiry .pm) { withPermit .pm .push 5 with ilk.push := some (pushIn .armed) }).ilk.push.map
        PushRec.stage = some .opening :=
  ⟨none_only (by decide), by decide +kernel⟩

/-- The breach flag of oven 9 set: the one cause of the machine hold. -/
def breached : State := { base with ot := ovens, ilk.holdCause := .breach }

theorem witness_ClearBreachEndsTheHold : breached.room ∧ breached.supervisorHeard.oven 0 = none
    ∧ (breached.supervisorHeard.oven 1).map OvenRec.breach = some false
    ∧ (breached.supervisorHeard.oven 9).map OvenRec.breach = some true ∧ breached.hold = true
    ∧ (run (.clearBreach 1 9) breached).hold = false
    ∧ (run (.clearBreach 1 9) { breached with ilk.stop := true }).hold = true
    ∧ codeOf (.clearBreach 1 9) { breached with dru.doors := List.replicate 10 ⟨.fresh, door .off⟩ } = some .doors
    ∧ (∃ t, exec (.clearBreach 1 9) breached = .next t) :=
  ⟨by decide, by decide, by decide, by decide, by decide, by decide +kernel, by decide +kernel, by decide +kernel, _, rfl⟩

theorem witness_UncoveredReportsAreBreaches : base.untested .gc ∧ (base.oven 1).isSome = true
    ∧ (∀ p, base.permit .gc = some p → ¬ (p.kind = .doorOffCs ∧ p.oven = 1))
    ∧ (∀ p, (withPermit .pm .doorOffPs 1).permit .pm = some p → ¬ (p.kind = .push ∧ p.oven = 1))
    ∧ base.inRun = true ∧ base.ovenIs 4 .empty = true ∧ base.ovenIs 1 .empty = false ∧ inCfg.inRun = false
    ∧ (run (.doorOff .gc 1 (some .cs)) base).hold = true
    ∧ (pushing .sticker).ilk.push = some (pushIn .sticker) ∧ (pushIn .sticker).armedFrom = none := by
  refine ⟨by decide, by decide, none_only (by decide), ?_, by decide +kernel⟩
  exact some_only (a := ⟨.doorOffPs, 1, 99990, 100000⟩) (by decide) (by decide)

theorem witness_CoveredReportsOpenAndPush : base.now < tMax ∧ (withPermit .pm .doorOffPs 1).untested .pm
    ∧ (withPermit .pm .doorOffPs 1).permit .pm = some ⟨.doorOffPs, 1, 99990, 100000⟩
    ∧ ((withPermit .pm .doorOffPs 1).door 1 .ps).isSome = true
    ∧ (withPermit .pm .doorOffPs 1).ovenState 1 = some .ready
    ∧ (withPermit .gc .doorOffCs 5).ovenState 5 ≠ some .ready
    ∧ ({ withPermit .pm .push 5 with ilk.push := some (pushIn .armed) } : State).ilk.push = some (pushIn .armed)
    ∧ (pushIn .armed).stage = .armed
    ∧ (run (.doorOff .pm 1 (some .ps)) (withPermit .pm .doorOffPs 1)).ovenState 1 = some .pushing := by decide +kernel

theorem witness_RamReportsMoveThePush : base.untested .pm ∧ (base.oven 5).isSome = true
    ∧ (pushing .ramForward).ilk.push = some (pushIn .ramForward) ∧ (pushing .ramReturn).ilk.push = some (pushIn .ramReturn)
    ∧ (pushing .sticker).ilk.push = some (pushIn .sticker) ∧ base.ilk.push = none
    ∧ (run (.ramAtEnd .pm 5) (pushing .ramForward)).ilk.push.map PushRec.stage = some .ramReturn
    ∧ (run (.ramHome .pm 5) (pushing .ramReturn)).ilk.push.map PushRec.stage = some .closing
    ∧ (run (.ramHome .pm 5) { pushing .ramReturn with dru.doors := List.replicate 10 ⟨.fresh, .fresh⟩ }).ilk.push = none
    ∧ (pushing .ramReturn).anyDoorOff 5 = true := by decide +kernel

theorem witness_StickersAndLatePushes : (pushing .ramForward).ilk.push = some (pushIn .ramForward)
    ∧ (pushIn .ramForward).timer = .running 99999 ∧ 99999 ≤ (pushing .ramForward).now
    ∧ (atTime (pushing .ramForward) 99998).now < 99999 ∧ 99999 ≤ (atTime (pushing .ramForward) 99999).now
    ∧ ((run .tRamExpiry (pushing .ramForward)).oven 5).map OvenRec.stickers = some 1
    ∧ (run .stageTimerExpiry (pushing .closing)).ilk.push.map PushRec.late = some true := by decide +kernel

theorem witness_RetryAndAbandon : base.room ∧ base.inRun = true
    ∧ (∀ q, base.supervisorHeard.ilk.push = some q → q.oven ≠ 5)
    ∧ codeOf (.pushRetry 1 5) (pushing .sticker) = some .ok
    ∧ codeOf (.pushRetry 1 5) (pushing .closing) = some .ovenState
    ∧ codeOf (.pushRetry 1 5) { base with ilk.push := some { pushIn .sticker with attempts := 3 } } = some .attempts
    ∧ codeOf (.pushRetry 1 5) { pushing .sticker with lnk.mach.pm := .fresh } = some .ramNotHome
    ∧ codeOf (.abandon 1 5) (pushing .sticker) = some .doors
    ∧ codeOf (.abandon 1 5) { pushing .sticker with dru.doors := List.replicate 10 ⟨.fresh, .fresh⟩ } = some .ok :=
  ⟨by decide, by decide, none_only (by decide), by decide +kernel⟩

/-! ## Witnesses: doors, door work and inspection rounds -/

theorem witness_DoorsPutOnAndTight : base.untested .pm ∧ (base.oven 5).isSome = true ∧ base.now < tMax
    ∧ base.door 5 .ps = some (door .off) ∧ base.door 1 .ps = some .fresh ∧ base.door 2 .ps = some (door .leaking)
    ∧ base.door 3 .ps = some (door .onUnconfirmed)
    ∧ (run (.doorOn .pm 5 (some .ps)) base).doorState 5 .ps = some .onUnconfirmed
    ∧ (pushing .closing).ilk.push = some (pushIn .closing) ∧ (pushing .closing).doorState 5 .cs = some .off
    ∧ (run (.doorOn .gc 5 (some .cs)) (run (.doorOn .pm 5 (some .ps)) (pushing .closing))).ovenState 5 = some .empty := by
  decide +kernel

theorem witness_LeaksAtDoors : base.untested .pm ∧ (base.oven 10).isSome = true ∧ base.room ∧ base.inRun = true
    ∧ base.supervisorHeard.oven 11 = none ∧ base.supervisorHeard.doorState 5 .ps = some .off
    ∧ base.door 5 .cs = some (door .off) ∧ base.door 2 .ps = some (door .leaking) ∧ base.door 1 .ps = some .fresh
    ∧ ((run (.leakSeen .pm 1 (some .ps)) base).door 1 .ps).map DoorRec.leaks = some 1
    ∧ ((run (.leakSeen .pm 1 (some .ps)) { base with
        dru.doors := List.replicate 10 ⟨{ DoorRec.fresh with leaks := 15 }, .fresh⟩ }).door 1 .ps).map DoorRec.leaks
        = some 15 := by decide +kernel

def entry (n : Nat) (k : TaskKind) : TaskEntry := ⟨n, k, 5, false, none⟩

/-- A PS queue of n INSPECT entries. -/
def inspects (n : Nat) : State :=
  base.setQueue .ps ((List.range n).map fun i => entry (i + 20) .inspect)

theorem witness_OffersToAFullQueue : ((inspects 15).queue .ps).length < 16
    ∧ 16 ≤ ((inspects 16).queue .ps).length
    ∧ ((inspects 16).queue .ps).reverse.find? (fun e => e.kind == .inspect && e.service.isNone) = some (entry 35 .inspect)
    ∧ (((inspects 16).offerTask .ps 1 .reseal).queue .ps).map TaskEntry.oven
        = 1 :: (List.range 15).map (· + 20)
    ∧ ((((inspects 16).offerTask .ps 21 .reseal).queue .ps)).length = 16
    ∧ (inspects 3).offerTask .ps 20 .inspect = inspects 3
    ∧ (∀ e ∈ List.replicate 16 (entry 1 .reseal), ¬ (e.kind = .inspect ∧ e.service = none))
    ∧ [entry 1 .reseal, entry 2 .clean, entry 3 .inspect].Pairwise
        (fun a b => TaskKind.rank a.kind ≤ TaskKind.rank b.kind) := by decide +kernel

def visiting : State := base.updRound .ps fun r => { r with visit := some ⟨10, 100000⟩, debt := 8, saturated := true }

theorem witness_DoorTasksAreCompleted : base.untested .pm
    ∧ (visiting.supervisorHeard.round .ps).visit.map Visit.oven = some 10
    ∧ ((run (.taskDone .pm 10 .inspect .tight) visiting).round .ps).pointer = 1
    ∧ ((run (.taskDone .pm 10 .inspect .tight) visiting).round .ps).debt = 7
    ∧ entry 20 .inspect ∈ (inspects 1).queue .ps
    ∧ ((run (.taskDone .pm 20 .inspect .tight) (inspects 1)).queue .ps) = []
    ∧ base.door 5 .ps = some (door .off) ∧ base.door 2 .ps = some (door .leaking) ∧ base.door 1 .ps = some .fresh
    ∧ ((base.applyResult .ps 1 .inspect .leak).door 1 .ps).map DoorRec.leaks = some 1
    ∧ ((base.applyResult .ps 1 .inspect .leak).queue .ps).map TaskEntry.kind = [.reseal]
    ∧ base.applyResult .ps 2 .inspect .leak = base := by decide +kernel

theorem witness_DoorUnitTimers : base.inRun = true ∧ inCfg.inRun = false
    ∧ ((base.updDoor 3 .ps fun r => { r with confirm := some 100000 }).door 3 .ps).bind DoorRec.confirm = some 100000
    ∧ ((run (.confirmExpiry 3 .ps) (base.updDoor 3 .ps fun r => { r with confirm := some 100000 })).queue .ps).length = 1
    ∧ ((base.setQueue .ps [{ entry 1 .reseal with service := some 100000 }]).queue .ps).find?
        (fun e => e.service.any fun t => decide (t ≤ base.now)) = some { entry 1 .reseal with service := some 100000 }
    ∧ (visiting.round .ps).visit = some ⟨10, 100000⟩
    ∧ (run (.roundVisitTimerExpiry .ps) { visiting with lnk.mach.pm := .fresh }).round .ps
        = { visiting.round .ps with visit := none }
    ∧ ((base.updRound .cs fun r => { r with elapsed := 600 }).round .cs).interval ≤ 600
    ∧ ((run (.inspectionAccrual .cs) (base.updRound .cs fun r => { r with elapsed := 600 })).round .cs).debt = 1
    ∧ ((run (.inspectionAccrual .cs) (base.updRound .cs fun r => { r with elapsed := 599 })).round .cs).debt = 0 := by
  decide +kernel

/-! ## Witnesses: collecting main pressure, valves, quench, terminals -/

def gateAt (n : Nat) : State := { base with ofu.gates := [.fresh, ⟨n, true, none, false⟩, .fresh, .fresh] }

theorem witness_GatesCountAndEnd : base.now < tMax ∧ (base.term 1).map TermRec.fn = some (.pressIn 1)
    ∧ (base.term 4).map TermRec.fn = some (.damperPwm 2) ∧ (base.term 31).map TermRec.fn = some .unassigned
    ∧ base.term 32 = none ∧ base.gate 4 = some .fresh ∧ base.gate 1 = some ⟨652, true, none, false⟩
    ∧ ((run (.pressInPulseEdge 1) base).gate 1).map Gate.count = some 653
    ∧ ([199, 200, 249, 250, 1250, 1251, 1300, 1301].map fun n =>
        ((run .controlTick (gateAt n)).sec 2).map fun r => (r.pressure, r.sensorFault))
      = [some (none, true), some (some (-250), false), some (some (-250), false), some (some (-250), false),
          some (some 750, false), some (some 750, false), some (some 750, false), some (none, true)] := by decide +kernel

theorem witness_TheControlStepOnAGoodReading : (gateAt 200).gate 2 = some ⟨200, true, none, false⟩
    ∧ (gateAt 1300).gate 2 = some ⟨1300, true, none, false⟩ ∧ base.assigned (.pressIn 2) = true ∧ base.sec 2 = some section2
    ∧ section2.params = some par ∧ section2.live = some live ∧ section2.sensorFault = false ∧ live.mode = .auto
    ∧ ((run .controlTick { base with ofu.sections := [section2, { section2 with
        live := some { live with transfer := some true } }] }).sec 2).map SecRec.integ = some ((380 - 48 + 60) * 256) := by
  decide +kernel

theorem witness_DamperAndSetpointCommands : base.room ∧ base.supervisorHeard.sec 0 = none
    ∧ base.supervisorHeard.sec 3 = none ∧ base.supervisorHeard.sec 2 = some section2
    ∧ ({ base with ofu.sections := [.fresh] } : State).supervisorHeard.sec 1 = some .fresh
    ∧ codeOf (.setSetpoint 1 1 0) { base with ofu.sections := [.fresh] } = some .notFound
    ∧ codeOf (.setDamper 1 1 0) { base with ofu.sections := [.fresh] } = some .state
    ∧ ([0, 1000, 1001].map fun v => (((run (.setDamper 1 2 v) base).sec 2).bind SecRec.live).map SecLive.uOut)
        = [some 0, some 1000, some 1000] := by decide +kernel

def valveTask (a : ValveAction) (b : Bool) : State :=
  { base with ofu.queue := [⟨1, a, 5, b, some 100000⟩], ofu.heldOffers := [⟨7, .normal⟩] }

theorem witness_ValveReportsAndTasks : base.untested .cc ∧ (base.oven 10).isSome = true
    ∧ nth1 base.ofu.valves 1 = some ⟨.closed, none⟩
    ∧ ((run (.valve .cc 1 (some .aspirating)) base).sec 1).map SecRec.ff = some 0
    ∧ (run (.ccTaskDone 1 .isolate .done) (valveTask .isolate false)).ofu.queue = []
    ∧ (valveTask .isolate false).supervisorHeard.ofu.queue.find? (fun e => e.oven == 1 && e.action == .isolate)
        = some ⟨1, .isolate, 5, false, some 100000⟩
    ∧ (valveTask .isolate false).valveState 1 = some .closed ∧ base.ofu.queue = [] := by decide +kernel

theorem witness_OfftakeTimers : ({ base with ofu.iso := some ⟨7, 100000⟩ } : State).ofu.iso = some ⟨7, 100000⟩
    ∧ 100000 ≤ base.now ∧ base.ofu.iso = none
    ∧ (run .isolateTimerExpiry { base with ofu.iso := some ⟨8, 100000⟩ }).ofu.iso = none
    ∧ (run .isolateTimerExpiry { base with ofu.iso := some ⟨8, 100001⟩ }).ofu.iso = some ⟨8, 100001⟩
    ∧ (valveTask .isolate true).ofu.queue.find? (fun e => e.service.any fun t => decide (t ≤ base.now))
        = some ⟨1, .isolate, 5, true, some 100000⟩
    ∧ (run .valveTaskTimerExpiry (valveTask .isolate true)).ofu.queue.all (fun e => e.oven != 1) = true
    ∧ (run (.chargeTimerExpiry 6) { base with ofu.charges := [⟨6, 99000, some 100000, false⟩] }).ofu.charges
        = [⟨6, 99000, none, true⟩] := by decide +kernel

def hotLoad : LoadRec := ⟨5, 99900, some 99950, none, none, false, some 100000⟩

def carIn (st : CarState) : State := { base with qnu := { QuenchUnit.fresh with
  car := { CarRec.fresh with state := st, move := .issued 99000 (some 100000) }
  load := some hotLoad
  phase := some 100000 } }

/-- Bay 1 COOLING, 2 COOLED at the head of the discharge queue. -/
def wharf : State := { base with qnu := { QuenchUnit.fresh with
  bays := [.cooling 5 98200 100000, .cooled 6 97000 98800, .free 0, .free 0, .free 0, .free 0]
  free := [3, 4, 5, 6]
  discharge := [2] } }

def gated : State := { wharf with
  qnu.bays := [.cooling 5 98200 100001, .discharging 6 97000 98800 100000, .free 0, .free 0, .free 0, .free 0] }

theorem witness_QuenchUnitTimers : (carIn .toTower).qnu.car.move = .issued 99000 (some 100000) ∧ 100000 ≤ base.now
    ∧ (run .moveTimerExpiry (carIn .toTower)).qnu.car.move = .issued 99000 none
    ∧ (run .hotTimerExpiry (carIn .toTower)).qnu.load = some { hotLoad with hot := none, late := true }
    ∧ (run .sprayTimerExpiry (carIn .quenching)).qnu.car.state = .draining
    ∧ (run .drainTimerExpiry (carIn .draining)).qnu.car.state = .toBay 1
    ∧ (run .drainTimerExpiry { carIn .draining with qnu.free := [] }).qnu.car.state = .waitBay
    ∧ (run (.coolTimerExpiry 1) wharf).qnu.discharge = [2, 1] ∧ (run (.coolTimerExpiry 1) gated).qnu.discharge = [2]
    ∧ (run .gateTimerExpiry gated).qnu.free = [3, 4, 5, 6, 2]
    ∧ wharf.bay 1 = some (.cooling 5 98200 100000) ∧ wharf.qnu.discharge.head? = some 2
    ∧ wharf.assigned (.gateOut 2) = false ∧ wharf.inputLevel .conveyorRunIn = false := by decide +kernel

/-- Bay 1 COOLED, its GATE_OUT assigned, the conveyor running. -/
def conveyor : State := { wharf with
  qnu := { wharf.qnu with bays := [.cooled 5 98200 99000], discharge := [1] }
  trm := terms.map fun r => if r.fn = .conveyorRunIn then { r with filtered := true, level := true } else r }

theorem witness_DischargeStarts : conveyor.qnu.discharge.head? = some 1 ∧ conveyor.bay 1 = some (.cooled 5 98200 99000)
    ∧ (∀ j o d c g, conveyor.bay j ≠ some (.discharging o d c g)) ∧ conveyor.inputLevel .conveyorRunIn = true
    ∧ conveyor.assigned (.gateOut 1) = true := by
  refine ⟨by decide, by decide, ?_, by decide, by decide⟩
  intro j o d c g h
  match j with
  | 0 => cases h
  | 1 => cases h
  | _ + 2 => cases h

def dumping : State := { carIn .dumping with qnu.load := some { hotLoad with bay := some 3 }, qnu.car.dump := .issued }

theorem witness_DumpsAndTheTrack : dumping.untested .qc ∧ dumping.qnu.load = some { hotLoad with bay := some 3 }
    ∧ dumping.qnu.car.state = .dumping ∧ (run (.dumpDone .qc 3) dumping).qnu.load = none
    ∧ (run (.dumpDone .qc 2) dumping).qnu.load = dumping.qnu.load ∧ base.room
    ∧ codeOf (.trackBlock 1 none (some .wharf)) base = some .range
    ∧ codeOf (.trackBlock 1 (some (.oven 11)) (some .wharf)) base = some .range
    ∧ codeOf (.trackBlock 1 (some .wharf) (some .tower)) base = some .range
    ∧ (run (.trackBlock 1 (some (.oven 10)) (some .wharf)) base).qnu.blocked = [.oven 10, .tower, .wharf]
    ∧ (run (.trackBlock 1 (some .park) (some .park)) base).qnu.blocked = [.park]
    ∧ (run (.trackFree 1 (some .park) (some .wharf)) { base with qnu.blocked := [.tower] }).qnu.blocked = [] := by
  decide +kernel

theorem witness_TerminalsFollowTheirRules : (base.term 5).map TermRec.fn = some .input
    ∧ (base.term 7).map TermRec.fn = some .conveyorRunIn ∧ (base.term 0).map TermRec.fn = some .batteryStopIn
    ∧ (base.term 31).map TermRec.fn = some .unassigned ∧ TermFn.filteredInput .output = false ∧ base.room
    ∧ (run (.inputLevelChange 0 true) State.reset).ilk.stop = false
    ∧ (run (.inputLevelChange 0 true) base).ilk.stop = false ∧ base.supervisorHeard.term 32 = none
    ∧ codeOf (.setOutput 1 6 (some true)) base = some .ok ∧ codeOf (.toggle 1 5) base = some .function
    ∧ codeOf (.clearTerminal 1 6) base = some .notFound ∧ codeOf (.setOutput 1 6 none) base = some .range
    ∧ codeOf (.terminal 1 23 .output false .high .both) inCfg = some .range
    ∧ codeOf (.terminal 1 24 .output false .high .both) inCfg = some .ok
    ∧ codeOf (.terminal 1 31 (.pressIn 2) false .normal .both) inCfg = some .duplicate
    ∧ codeOf (.terminal 1 2 (.pressIn 2) true .normal .both) inCfg = some .ok
    ∧ codeOf (.terminal 1 31 (.gateOut 12) false .normal .both) inCfg = some .ok
    ∧ codeOf (.terminal 1 31 (.gateOut 13) false .normal .both) inCfg = some .range
    ∧ codeOf (.terminal 1 32 .input false .normal .both) inCfg = some .range := by decide +kernel

theorem witness_OverloadAtAnOutput : (run (.setOutput 1 6 (some true)) base).canOverload
      { term .output with out := true } = true ∧ base.canOverload (term .input) = false := by decide +kernel

/-! ## Witnesses: links, configuration, queries -/

theorem witness_SilenceGapsAndCharacters : State.reset.lnk.mach.pm.port.silence = false
    ∧ (base.mlink .pm).port.silence = true ∧ base.online .pm = true ∧ base.present = true
    ∧ ({ base with lnk.mach.pm.port.up := false } : State).online .pm = false
    ∧ (∀ p, (withPermit .pm .doorOffPs 1).permit .pm = some p → PermitKind.machine p.kind = .pm)
    ∧ (run (.mLinkSilenceExpiry .pm) (withPermit .pm .doorOffPs 1)).permit .pm = none
    ∧ (base.port .sup).rx.stage = .hunt ∧ (inTest.mlink .gc).test.active = true
    ∧ ((run (.characterReceived (.mach .gc) 0) inTest).mlink .gc).test.received = (inTest.mlink .gc).test.received + 1 := by
  refine ⟨by decide, by decide, by decide, by decide, by decide, ?_, by decide +kernel⟩
  exact some_only (a := ⟨.doorOffPs, 1, 99990, 100000⟩) (by decide) (by decide)

/-- The cells of a character: start 0, the data least significant first, even parity, stop 1. -/
def cells (b : Byte) : BitVec 11 :=
  let ones := ((List.range 8).filter fun i => b.getLsbD i).length
  (1#1 ++ (BitVec.ofBool (ones % 2 == 1) : BitVec 1)) ++ (b ++ 0#1)

/-- A line wave from the levels of a character's cells, sixteenth by sixteenth. -/
def waveOf (c : CharCells) : LineWave :=
  c.reverse.foldl (fun (w : LineWave) x =>
    (List.range 16).reverse.foldl (fun (w : LineWave) i => w <<< 2 ||| (if x.getLsbD i then 3#352 else 0)) w) 0

/-- The line wave of eleven cells in NRZ. -/
def wave (c : BitVec 11) : LineWave := waveOf ((List.range 11).map fun i => if c.getLsbD i then 0xFFFF#16 else 0)

def receive (l : LinkId) (bs : List Byte) (s : State) : State :=
  bs.foldl (fun u b => run (.characterReceived l (wave (cells b))) u) s

/-- What a link sends, a receiver of the same code and inversion reads. -/
theorem test_reads_what_is_sent :
    rxChar ⟨23, .nrz, false, false⟩ (waveOf (charCells ⟨1, .nrz, false, false⟩ 0x5A)) = some (.good 0x5A)
    ∧ rxChar ⟨23, .nrz, false, true⟩ (waveOf (charCells ⟨1, .nrz, true, false⟩ 0xC4)) = some (.good 0xC4)
    ∧ rxChar ⟨23, .optical, false, false⟩ (waveOf (charCells ⟨1, .optical, false, false⟩ 0x5A)) = some (.good 0x5A)
    ∧ rxChar ⟨23, .optical, false, true⟩ (waveOf (charCells ⟨1, .optical, true, false⟩ 0xC4)) = some (.good 0xC4) := by
  decide +kernel

/-- In OPTICAL a pulse of a sixteenth starts a character and makes a zero, a shorter one neither; in NRZ a fall that is
over by the middle of the cell starts none. -/
theorem test_short_pulses : rxChar ⟨1, .optical, false, false⟩ (~~~1#352) = none
    ∧ rxChar ⟨1, .optical, false, false⟩ (~~~3#352) = some (.parity 0xFF)
    ∧ rxChar ⟨1, .nrz, false, false⟩ (~~~0xFFFF#352) = none := by
  decide +kernel

theorem test_characters_on_the_line : charBits 0x5A#8 = cells 0x5A ∧ charBits 0x01#8 = cells 1
    ∧ charCells ⟨23, .nrz, false, false⟩ 0x01#8 = [0, 0xFFFF, 0, 0, 0, 0, 0, 0, 0, 0xFFFF, 0xFFFF]
    ∧ charCells ⟨23, .nrz, true, false⟩ 0x01#8 = [0xFFFF, 0, 0xFFFF, 0xFFFF, 0xFFFF, 0xFFFF, 0xFFFF, 0xFFFF, 0xFFFF, 0, 0]
    ∧ charCells ⟨23, .optical, false, false⟩ 0xFF#8 = 0xFFF8#16 :: List.replicate 8 0xFFFF#16 ++ [0xFFF8, 0xFFFF] := by
  decide

theorem test_frame_layout : frameChars 9#8 [1, 2] = [0x5A, 3, 9, 1, 2, (crc16 [3, 9, 1, 2]).extractLsb' 8 8,
    (crc16 [3, 9, 1, 2]).extractLsb' 0 8] ∧ (frameChars 9#8 (List.replicate 59 0)).length = 64 := by decide +kernel

theorem test_stream_character : State.testByte (streamSteps 8 0x7FFF#15) = 0x00#8
    ∧ State.testByte (streamSteps 15 0x7FFF#15) = 0x80#8 := by decide

theorem test_receive_assembly : ((receive .sup [0x11, 0x5A, 2, 9] base).port .sup).rx = ⟨.body, 2, [9]⟩
    ∧ ((receive .sup [0x5A, 0] base).port .sup).lastCause = some .len
    ∧ ((receive .sup [0x5A, 60] base).port .sup).rx.stage = .body
    ∧ ((receive .sup [0x5A, 61] base).port .sup).rx.stage = .hunt
    ∧ ((receive .sup [0x5A, 1, 9, 0, 0] base).port .sup).lastCause = some .check
    ∧ ((run (.characterGapExpiry .sup) (receive .sup [0x5A] base)).port .sup).lastCause = some .gap
    ∧ ((run (.characterReceived .sup (wave (cells 0x5A ^^^ 2#11))) base).port .sup).lastCause = some .parity
    ∧ ((run (.characterReceived .sup (wave (cells 0x5A ^^^ 1024#11))) base).port .sup).lastCause = some .framing := by
  decide +kernel

theorem witness_LinkSettingsAndLinkTests : base.room ∧ inCfg.room ∧ inCfg.inRun = false
    ∧ codeOf (.link 1 .sup ⟨1, .nrz, false, false⟩) inCfg = some .ok
    ∧ codeOf (.link 1 (.mach .pm) ⟨255, .optical, true, true⟩) inCfg = some .ok
    ∧ codeOf (.link 1 .sup ⟨1, .optical, false, false⟩) inCfg = some .range
    ∧ codeOf (.link 1 .sup ⟨0, .nrz, false, false⟩) inCfg = some .range
    ∧ codeOf (.link 1 .sup ⟨256, .nrz, false, false⟩) inCfg = some .range
    ∧ codeOf (.link 1 (.mach .gc) ⟨23, .nrz, false, false⟩) { inCfg with lnk.mach.gc := tested onM } = some .busy
    ∧ codeOf (.linkTest 1 (some (.mach .pm))) base = some .ok
    ∧ codeOf (.linkTest 1 (some (.mach .pm))) (pushing .opening) = some .busy
    ∧ codeOf (.linkTest 1 (some (.mach .cc))) (pushing .opening) = some .ok
    ∧ codeOf (.linkTest 1 (some (.mach .gc))) inTest = some .busy
    ∧ codeOf (.testEnd 1 (some (.mach .gc))) inTest = some .ok
    ∧ codeOf (.testEnd 1 (some (.mach .pm))) inTest = some .notFound
    ∧ (inTest.mlink .gc).test.active = true ∧ (inTest.mlink .gc).test.seeded = 2
    ∧ ((run (.testCharacter .gc (wave (cells 1))) inTest).mlink .gc).test.internalErrors = 1
    ∧ ((run (.testCharacter .gc (wave (cells 0))) inTest).mlink .gc).test.internalErrors = 0
    ∧ ((run (.testCharacter .gc (wave (cells 0))) inTest).mlink .gc).test.received = 1 := by decide +kernel

theorem witness_SetupBlocksReplaceTheirValues : base.room ∧ State.reset.cfg.loaded.battery = false
    ∧ codeOf (.timing 1 { timingDefaults with w := 240, tUse := 30, lIso := 1800 }) base = some .ok
    ∧ codeOf (.timing 1 { timingDefaults with w := 241 }) base = some .range
    ∧ codeOf (.timing 1 { timingDefaults with tUse := 29 }) inCfg = some .range
    ∧ codeOf (.doors 1 ⟨1, 60, 3600, 7200⟩) base = some .ok ∧ codeOf (.doors 1 ⟨0, 60, 3600, 7200⟩) base = some .range
    ∧ codeOf (.pressure 1 2 par) base = some .ok ∧ codeOf (.pressure 1 3 par) base = some .range
    ∧ codeOf (.pressure 1 1 { par with setpoint := 20 }) base = some .range
    ∧ codeOf (.wharf 1 wharfDefaults) base = some .state ∧ codeOf (.wharf 1 wharfDefaults) inCfg = some .ok
    ∧ codeOf (.wharf 1 { wharfDefaults with bays := 12 }) inCfg = some .ok
    ∧ codeOf (.wharf 1 { wharfDefaults with bays := 13 }) inCfg = some .range
    ∧ codeOf (.wharf 1 { wharfDefaults with bays := 2 }) { wharf with cfg := inCfg.cfg } = some .busy
    ∧ base.ofu.iso = none := by decide +kernel

theorem witness_CommitAndRestart : whole.room ∧ whole.inRun = false ∧ codeOf (.commit 1) whole = some .ok
    ∧ codeOf (.commit 1) { whole with cfg.loaded.pressure := [] } = some .missing
    ∧ codeOf (.commit 1) { whole with trm := [] } = some .missing
    ∧ base.supervisorHeard.ovenIs 5 .pushing = true ∧ codeOf (.restart 1) base = some .busy
    ∧ codeOf (.restart 1) (run (.sLinkFrameSent) (run (.commit 1) whole)) ≠ some .busy
    ∧ (run (.restart 1) (run (.commit 1) whole)).inRun = false
    ∧ (run (.restart 1) (run (.commit 1) whole)).hold = true := by decide +kernel

theorem witness_QueriesAnswerTheState : base.room ∧ (nth1 base.supervisorHeard.dru.doors 10).isSome = true
    ∧ nth1 base.supervisorHeard.dru.doors 11 = none ∧ base.supervisorHeard.sec 3 = none
    ∧ base.supervisorHeard.sec 2 = some section2 ∧ nth1 base.supervisorHeard.ofu.valves 0 = none
    ∧ (nth1 base.supervisorHeard.ofu.valves 10).isSome = true ∧ base.supervisorHeard.term 32 = none
    ∧ (base.supervisorHeard.term 31).isSome = true ∧ codeOf (.statusQuery 1) base = some .ok := by decide +kernel

/-! ## Witnesses, clause by clause, of the wider statements -/

/-- A state with one more permit in force. -/
def holding (s : State) (m : MachineId) (k : PermitKind) (n : Nat) : State :=
  s.setPermit m (some ⟨k, n, 99990, 100050⟩)

def armedNow : State := holding { pushReady with ilk.push := some (pushIn .armed) } .pm .push 5

theorem witness_RetestKeepsGoodPermits : (holding serving1 .pm .doorOffPs 1).retest = holding serving1 .pm .doorOffPs 1
    ∧ (holding serving1 .gc .doorOffCs 1).retest = holding serving1 .gc .doorOffCs 1
    ∧ armedNow.retest = armedNow ∧ (holding base .cc .charge 4).retest = holding base .cc .charge 4 := by decide +kernel

theorem witness_RetestRevokesTheOthers : ((holding base .pm .doorOffPs 1).retestOne .pm).permit .pm = none
    ∧ (((holding base .pm .doorOffPs 1).retestOne .pm).mlink .pm).queue.head? = some (.revoke .doorOffPs 1 .notServing)
    ∧ ((holding { armedNow with ilk.stop := true } .pm .push 5).retestOne .pm).ilk.push.map PushRec.stage
        = some .opening := by decide +kernel

/-- The battery with the car in a state, QC in a mode at a position. -/
def carAs (st : CarState) (md : Mode) (p : Position) (l : CarLoad) : State := { base with
  qnu.car := { CarRec.fresh with state := st }
  qnu.load := some { hotLoad with bay := some 2 }
  pln.reported := some (3, 105000)
  ilk.machines := base.ilk.machines.set .qc ⟨some md, some p, some (.carLoad l), some 99999, false⟩ }

/-- The car state a STATUS at a spot leaves. -/
def carAfter (s : State) (x : Option CarSpot) : CarState := (s.qcStatus (some .auto) x .park).qnu.car.state

theorem witness_StatusMovesTheCar :
    carAfter (carAs .unknown .auto .park .empty) (some .park) = .toOven (.oven 3)
    ∧ carAfter (carAs .unknown .auto .park .loaded) (some .park) = .unknown
    ∧ carAfter (carAs .unknown .auto (.oven 3 .track) .empty) (some (.oven 3)) = .spotted 3
    ∧ carAfter (carAs .parked .localMode (.oven 2 .track) .empty) (some (.oven 2)) = .spotted 2
    ∧ carAfter (carAs (.spotted 3) .localMode .park .empty) (some .park) = .parked
    ∧ carAfter (carAs (.toOven .park) .localMode .tower .empty) (some .tower) = .toOven (.oven 3)
    ∧ carAfter (carAs (.toOven (.oven 3)) .auto (.oven 3 .track) .empty) (some (.oven 3)) = .spotted 3
    ∧ carAfter (carAs (.toOven .park) .auto .park .empty) (some .park) = .parked
    ∧ carAfter (carAs (.toOven .park) .auto .travel .empty) none = .toOven .park
    ∧ carAfter (carAs .toTower .auto .tower .loaded) (some .tower) = .quenching
    ∧ carAfter (carAs .toTower .localMode .tower .loaded) none = .toTower
    ∧ carAfter (carAs (.toBay 2) .auto (.wharf 2) .loaded) (some (.wharf 2)) = .dumping
    ∧ carAfter (carAs (.toBay 2) .auto (.wharf 1) .loaded) (some (.wharf 1)) = .toBay 2
    ∧ carAfter (carAs .parked .auto .park .empty) (some .park) = .parked
    ∧ carAfter (carAs .parked .auto .tower .empty) (some .tower) = .toOven .park
    ∧ carAfter (carAs (.spotted 2) .auto .park .empty) (some .park) = .toOven (.oven 2)
    ∧ carAfter (carAs .draining .auto .tower .loaded) (some .tower) = .draining := by decide +kernel

/-- An unconfirmed push in RAM_FORWARD with its remaining time held, a set of links lost, and the ram position PM reports. -/
def unsure (lost : List MachineId) (r : Ram) : State := { base with
  ilk.push := some { pushIn .ramForward with unconfirmed := true, lost := lost, timer := .held 40 }
  ilk.machines := base.ilk.machines.set .pm (machineAt (.oven 5 .ps) (some (.ram r))) }

theorem witness_StatusMovesThePush :
    ((unsure [.pm, .gc] .forward).pushRegains .pm true).ilk.push.map PushRec.lost = some [.gc]
    ∧ ((unsure [.pm] .forward).pushRegains .pm true).ilk.push.map (fun p => (p.stage, p.timer))
        = some (.ramForward, .running 100040)
    ∧ ((unsure [.pm] .atEnd).pushRegains .pm true).ilk.push.map (fun p => (p.stage, p.ramEnd, p.unconfirmed))
        = some (.ramReturn, some 100000, false)
    ∧ ((unsure [.pm] .home).pushRegains .pm true).ilk.push.map (fun p => (p.stage, p.derivedHome))
        = some (.closing, true)
    ∧ base.pushRegains .pm true = base ∧ (pushing .ramForward).pushRegains .pm true = pushing .ramForward
    ∧ ((pushing .ramForward).pushLoses .qc).ilk.push.map (fun p => (p.unconfirmed, p.lost, p.timer))
        = some (true, [.qc], .held 0)
    ∧ (pushing .opening).pushLoses .pm = pushing .opening ∧ (pushing .ramForward).pushLoses .cc = pushing .ramForward := by
  decide +kernel

theorem witness_LeaksAtDoorsOfEachState : (run (.leakSeen .pm 5 (some .ps)) base) = base.heardFrom .pm
    ∧ ((base.dispatchDoor .ps).round .ps).visit.isSome = true
    ∧ ((run (.leakSeen .pm 2 (some .ps)) base).queue .ps).map TaskEntry.kind = [.reseal]
    ∧ (run (.leakSeen .pm 2 (some .ps)) (base.setQueue .ps [entry 2 .reseal])).queue .ps = [entry 2 .reseal]
    ∧ ((run (.leakSeen .pm 3 (some .ps)) base).door 3 .ps).map DoorRec.state = some .leaking
    ∧ codeOf (.leakReport 1 5 (some .ps)) base = some .doors ∧ codeOf (.leakReport 1 2 (some .ps)) base = some .ok := by
  decide +kernel

/-- A PS queue; oven 5's PS door is OFF. -/
def queued (q : List TaskEntry) : State := base.setQueue .ps q

theorem witness_DispatchOfAnIdleMachine :
    ((queued [entry 5 .reseal, entry 1 .inspect]).dispatchDoor .ps).queue .ps
        = [entry 5 .reseal, { entry 1 .inspect with service := some 100900 }]
    ∧ (((queued [entry 5 .reseal]).dispatchDoor .ps).round .ps).visit = some ⟨1, 100900⟩
    ∧ (base.updRound .ps fun r => { r with debt := -8 }).dispatchDoor .ps = (base.updRound .ps fun r => { r with debt := -8 })
    ∧ (((base.updRound .ps fun r => { r with pointer := 2 }).dispatchDoor .ps).round .ps).visit = some ⟨3, 100900⟩
    ∧ (holding base .pm .doorOffPs 1).dispatchDoor .ps = holding base .pm .doorOffPs 1
    ∧ ({ base with dru.doors := List.replicate 10 ⟨door .off, .fresh⟩ } : State).dispatchDoor .ps
        = { base with dru.doors := List.replicate 10 ⟨door .off, .fresh⟩ } := by decide +kernel

/-- Section 2 with its sensor fault flag, after some good readings, in a mode. -/
def faulty (n : Nat) (md : SecMode) : State := { base with ofu.sections := [section2, { section2 with
  sensorFault := true, goodRun := n, live := some { live with mode := md, transfer := none } }] }

theorem witness_RecoveryAtTheEighthGoodReading :
    ((run .controlTick (faulty 7 (.hold .fault))).sec 2).map (fun r => (r.sensorFault, r.live.map SecLive.mode))
        = some (false, some .auto)
    ∧ ((run .controlTick (faulty 6 (.hold .fault))).sec 2).map (fun r => (r.sensorFault, r.live.map SecLive.mode))
        = some (true, some (.hold .fault))
    ∧ ((run .controlTick (faulty 7 .manual)).sec 2).map (fun r => (r.sensorFault, r.live.map SecLive.mode))
        = some (false, some .manual)
    ∧ (faulty 8 .manual).sec 2 = some { section2 with
        sensorFault := true, live := some { live with mode := .manual, transfer := none } }
    ∧ base.recover 2 0 = base := by decide +kernel

def offer (n : Nat) (a : ValveAction) : ValveEntry := ⟨n, a, 5, false, none⟩

/-- CC not idle, a valve queue, held offers. -/
def valveQueue (q : List ValveEntry) (l : List HeldOffer) : State :=
  { base with ofu.queue := q, ofu.heldOffers := l, lnk.mach.cc := .fresh }

def eight : List ValveEntry := (List.range 8).map fun i => offer (i + 20) .normal

theorem witness_OffersOfValveTasks : ((valveQueue [offer 1 .normal] []).offerValve 1 .isolate).ofu.queue = []
    ∧ ((valveQueue [] []).offerValve 1 .isolate).ofu.queue = [] ∧ (valveQueue [] []).valveState 1 = some .closed
    ∧ ((valveQueue [offer 2 .normal] []).offerValve 2 .normal).ofu.queue = [offer 2 .normal]
    ∧ ((valveQueue [offer 2 .normal] []).offerValve 2 .isolate).ofu.queue = [⟨2, .isolate, 100000, false, none⟩]
    ∧ ((valveQueue [] []).offerValve 2 .isolate).ofu.queue = [⟨2, .isolate, 100000, false, none⟩]
    ∧ ((valveQueue eight [⟨2, .normal⟩]).offerValve 2 .isolate).ofu.heldOffers = [⟨2, .isolate⟩]
    ∧ ((valveQueue eight [⟨3, .normal⟩]).offerValve 2 .isolate).ofu.heldOffers = [⟨3, .normal⟩, ⟨2, .isolate⟩]
    ∧ State.retryHeld [⟨2, .isolate⟩] (valveQueue eight [⟨2, .isolate⟩]) = valveQueue eight [⟨2, .isolate⟩]
    ∧ (State.retryHeld [⟨2, .isolate⟩] (valveQueue [] [⟨2, .isolate⟩])).ofu.heldOffers = []
    ∧ (valveQueue eight []).dispatchValve = valveQueue eight []
    ∧ ({ base with ofu.queue := eight } : State).dispatchValve.ofu.queue.head?
        = some { offer 20 .normal with service := some 100900 } := by decide +kernel

theorem witness_TheCarIsSent :
    ((carAs .parked .auto .park .empty).sendCar (.toOven (.oven 2))).qnu.car.move = .issued 100000 (some 100300)
    ∧ ((carAs .parked .localMode .park .empty).sendCar (.toOven (.oven 2))).qnu.car.move = .pending
    ∧ (({ carAs .parked .auto .park .empty with qnu.blocked := [.oven 1] }).sendCar (.toOven (.oven 2))).qnu.car.move
        = .pending
    ∧ ({ carAs (.toOven (.oven 2)) .auto .park .empty with qnu.car.move := .pending } : State).testMove.qnu.car.move
        = .issued 100000 (some 100300)
    ∧ (carAs .parked .auto .park .empty).testMove = carAs .parked .auto .park .empty
    ∧ (carAs .dumping .auto (.wharf 2) .loaded).requestDump.qnu.car.dump = .issued
    ∧ (carAs .dumping .localMode (.wharf 2) .loaded).requestDump.qnu.car.dump = .pending
    ∧ ({ carAs .dumping .auto (.wharf 2) .loaded with qnu.car.dump := .pending } : State).testDump.qnu.car.dump = .issued
    ∧ (carAs .dumping .auto (.wharf 2) .loaded).testDump = carAs .dumping .auto (.wharf 2) .loaded
    ∧ (carAs (.spotted 2) .auto (.oven 2 .track) .empty).reconsiderNext.qnu.car.state = .toOven (.oven 3)
    ∧ (carAs (.spotted 3) .auto (.oven 3 .track) .empty).reconsiderNext
        = carAs (.spotted 3) .auto (.oven 3 .track) .empty
    ∧ base.pln.reported = none := by decide +kernel

theorem witness_FramesStandForCommands : (requestTag (.planHalt 3)).isSome = true
    ∧ (senderOf (.ramHome .pm 5)).isSome = true ∧ (senderOf (.status .cc .auto .moving .park)).isSome = true := by decide

/-- The battery with an isolate timer for oven 7, the next oven, due at 102,000. -/
def isolating : State := { base with ofu.iso := some ⟨7, 101700⟩, pln.reported := some (7, 102000) }

theorem witness_TimingInRun :
    (run (.timing 1 { timingDefaults with w := 0 }) (atTime base 82000)).ovenState 8 = some .coking
    ∧ (run (.timing 1 { timingDefaults with w := 240 }) (atTime base 82000)).ovenState 8 = some .ready
    ∧ ((run (.timing 1 { timingDefaults with l := 0 }) base).oven 8).map OvenRec.overdue = some true
    ∧ (run (.timing 1 { timingDefaults with lIso := 400 }) isolating).ofu.iso = some ⟨7, 101600⟩
    ∧ (run (.timing 1 { timingDefaults with lIso := 1800 }) { isolating with pln.reported := some (7, 101800) }).ofu.iso
        = none
    ∧ (run (.timing 1 timingDefaults) isolating).ofu.iso = some ⟨7, 101700⟩ := by decide +kernel

/-! ## Witnesses: the planner's part, assumed ends, alarms, the stop condition, machines lost -/

/-- The last slot of round 3 is over and its successor waits for the supervisor. -/
def waiting : State := { withSlot 1 .done with pln.cursor := none, lnk.sup.port.up := false }

/-- The statuses of the round's slots. -/
def statuses (s : State) : List SlotStatus := (s.pln.round.map fun r => r.slots.map Slot.status).getD []

theorem witness_TheRoundBoundary : (withSlot 1 .done).present = true ∧ waiting.present = false
    ∧ ((withSlot 1 .done).buildNext.pln.round.map fun r => (r.number, r.start, r.slots.length)) = some (4, 91440, 9)
    ∧ ({ withSlot 1 .done with pln.mark := true, pln.stagedStart := some 95000 } : State).buildNext.pln.round.map
        RoundRec.start = some 100000
    ∧ ({ withSlot 1 .done with ot := [ovenOf 1 .out none] } : State).buildNext.pln.state = .idle
    ∧ waiting.boundary.pln.cursor = none ∧ waiting.supervisorHeard.pln.cursor = some 0
    ∧ waiting.supervisorHeard.present = true ∧ base.supervisorHeard = base := by decide +kernel

theorem witness_TheCursorAdvances : ({ withSlot 1 .done with pln.lag := 9 } : State).advance.pln.cursor = some 1
    ∧ ({ withSlot 1 .done with pln.lag := 9, pln.cursor := some 1 } : State).advance.pln.round.map RoundRec.number = some 4
    ∧ ({ withSlot 3 .waiting with pln.makeup := [⟨3, 5⟩, ⟨8, 6⟩, ⟨10, 7⟩] } : State).makeupCheck.pln.serving
        = some (.makeup 10 100000)
    ∧ ({ withSlot 3 .due with pln.makeup := [⟨10, 7⟩] } : State).makeupCheck.pln.serving = none
    ∧ ({ withSlot 1 .waiting with pln.makeup := [⟨1, 7⟩] } : State).makeupCheck.pln.serving = none := by decide +kernel

theorem witness_ThePlannerReports : serving1.nextOven = some (1, 99000) ∧ (withMakeup 1 true).nextOven = some (1, 99500)
    ∧ (withSlot 1 .waiting).nextOven = some (1, 99000) ∧ (withSlot 1 .done).nextOven = none ∧ base.nextOven = none
    ∧ serving1.planReport.pln.reported = some (1, 99000) ∧ base.planReport = base
    ∧ (withSlot 1 .waiting).checkOnce.2 = false ∧ ({ withSlot 1 .waiting with
        ot := [{ OvenRec.fresh 1 with mode := .skip }] } : State).checkOnce.2 = true
    ∧ ({ withSlot 3 .due with pln.serving := some .slot } : State).servingOven = some 3
    ∧ statuses (({ withSlot 3 .due with pln.serving := some .slot } : State).planOvenChanged 3) = [.waiting, .waiting]
    ∧ base.planOvenChanged 3 = base ∧ (withSlot 1 .waiting).cursorSlot.map Slot.oven = some 1 := by decide +kernel

theorem witness_ThePlannerTakesThePush : statuses (serving1.planPushBegins 1) = [.inPush, .waiting]
    ∧ ((serving1.planRamStart 1).slot 0).map Slot.pushStart = some (some 100000)
    ∧ (serving1.planRamStart 1).pln.lag = 1000 ∧ (withMakeup 1 true).planRamStart 1 = withMakeup 1 true
    ∧ (atTime serving1 185401).planRamStart 1 ≠ atTime serving1 185401
    ∧ ((atTime serving1 185401).planRamStart 1).pln.lag = 86400
    ∧ statuses (pushReady.planPushComplete 5) = [.done, .due] ∧ (pushReady.planPushComplete 5).pln.cursor = some 1
    ∧ ((withMakeup 1 true).planPushComplete 1).pln.makeup = [] ∧ ((withMakeup 1 false).planPushComplete 1).pln.makeup = []
    ∧ ((withMakeup 7 true).planPushComplete 1).pln.serving = some (.makeup 7 99500)
    ∧ statuses (pushReady.planAbandon 5) = [.passed, .due] ∧ base.planAbandon 5 = base
    ∧ ((withMakeup 1 true).planAbandon 1).pln.makeup = [⟨1, 99000⟩]
    ∧ (pushing .closing).completionTest = pushing .closing ∧ base.completionTest = base := by decide +kernel

/-- The battery with oven 3 CHARGING, its charge record kept. -/
def charging3 : State := { base with
  ot := base.ot.set 2 (ovenOf 1 .charging none)
  ofu.charges := [⟨3, 99000, some 100500, false⟩, ⟨6, 99000, some 100500, false⟩] }

theorem witness_AssumedEnd : (charging3.chargeFact 4).ovenState 3 = some .coking
    ∧ (charging3.chargeFact 4).ovenState 4 = some .charging
    ∧ (charging3.chargeFact 4).ofu.charges.map ChargeRec.oven = [6, 4] ∧ base.chargeFact 3 = base
    ∧ inCfg.chargeFact 4 = inCfg
    ∧ (run (.chargeStart .cc 4) charging3).ofu.charges.map ChargeRec.oven = [6, 4]
    ∧ (run (.chargeStart .cc 4) charging3).hold = true := by decide +kernel

/-- The notices a state holds back for the supervisor. -/
def told (s : State) : List NoticeBody := s.lnk.sup.notices.map Notice.body

theorem witness_SectionAlarms :
    told (base.faultReading 2 5) = [.sensorFault 2 5 none (some (.hold .fault))]
    ∧ told ((faulty 3 .manual).faultReading 2 5) = [] ∧ (faulty 3 .manual).faultReading 2 5 = faulty 0 .manual
    ∧ told (({ base with ofu := { base.ofu with
          sections := [section2, { section2 with live := some { live with counters := ⟨3, 3, 0, 0⟩ } }]
          charges := [⟨6, 99000, some 100500, false⟩] } } : State).alarmEval 2 401)
        = [.sectionAlarm 2 .normal .flare 401, .chargeUnderPressure 2 6 .flare]
    ∧ told (({ base with ofu.sections := [section2, { section2 with
        live := some { live with counters := ⟨3, 3, 0, 0⟩ } }] } : State).alarmEval 2 300)
        = [.sectionAlarm 2 .normal .high 300]
    ∧ told (base.alarmEval 2 401) = []
    ∧ ((run .controlTick { base with ofu.gates := List.replicate 4 ⟨199, false, none, false⟩ }).gate 1)
        = some ⟨0, true, some 199, false⟩ := by decide +kernel

theorem witness_NewNextOven : base.nextForValves none none = base
    ∧ (base.nextForValves none (some (8, 100301))).ofu.iso = some ⟨8, 100001⟩
    ∧ (base.nextForValves none (some (8, 100300))).ofu.iso = none
    ∧ ((base.nextForValves none (some (8, 100300))).ofu.queue.map ValveEntry.oven) = [8]
    ∧ ((base.nextForValves (some (10, 5)) (some (8, 102000))).ofu.queue.map ValveEntry.action) = [.normal]
    ∧ (isolating.nextForValves (some (7, 102000)) (some (7, 102600))).ofu.iso = some ⟨7, 102300⟩
    ∧ (isolating.nextForValves (some (8, 102000)) none).ofu.iso = none := by decide +kernel

theorem witness_TheWaitingCar : (carIn .waitBay).chooseBay.qnu.car.state = .toBay 1
    ∧ (carIn .waitBay).chooseBay.bay 1 = some (.assigned 5)
    ∧ ({ carIn .waitBay with qnu.free := [] } : State).chooseBay = { carIn .waitBay with qnu.free := [] } := by
  decide +kernel

/-- The stop condition set, a push with its stage timer held. -/
def stopped (r : Nat) : State := { base with
  ilk := { base.ilk with stop := true, push := some { pushIn .closing with timer := .held r } } }

theorem witness_TheStopCondition : base.stopFollows false = base
    ∧ ((atTime (pushing .closing) 99900).stopFollows true).ilk.push.map PushRec.timer = some (.held 99)
    ∧ ((withPermit .pm .doorOffPs 1).stopFollows true).permit .pm = none
    ∧ (carIn .toTower).qnu.car.move ≠ .pending ∧ ((carIn .toTower).stopFollows true).qnu.car.move = .pending
    ∧ (base.stopFollows true).hold = true ∧ inCfg.hold = true
    ∧ ((inCfg.stopFollows true).mlink .pm).queue = [] ∧ ((base.stopFollows true).mlink .pm).queue.length = 1
    ∧ ((stopped 40).stopFollows false).ilk.push.map PushRec.timer = some (.running 100040)
    ∧ ((stopped 0).stopFollows false).ilk.push.map PushRec.late = some true
    ∧ ((stopped 40).stopFollows false).hold = false
    ∧ ({ stopped 40 with cfg.part := .config } : State).stopFollows false ≠ stopped 40 := by decide +kernel

theorem witness_OutputStates : base.termState (term .output) = some .deEnergised
    ∧ base.termState { term .output with out := true } = some .energised
    ∧ base.termState { term .output with out := true, invert := true } = some .deEnergised
    ∧ base.termState { term .output with fault := true } = some .released
    ∧ base.termState (term (.damperPwm 2)) = some (.pulsed none) ∧ base.termState (term (.damperPwm 3)) = some .released
    ∧ base.termState (term (.gateOut 7)) = some .released ∧ gated.outputLevel (term (.gateOut 2)) = some true
    ∧ gated.outputLevel (term (.gateOut 1)) = some false ∧ base.termState (term .input) = none
    ∧ (carIn .quenching).outputLevel (term .sprayOut) = some true ∧ base.outputLevel (term .sprayOut) = some false
    ∧ base.canOverload { term (.damperPwm 2) with invert := true } = true
    ∧ base.canOverload { term (.damperPwm 2) with duty := some 0 } = false
    ∧ base.canOverload { term (.damperPwm 2) with duty := some 1000, invert := true } = false
    ∧ base.outputLevel { term (.damperPwm 2) with duty := some 0 } = some false
    ∧ base.outputLevel { term (.damperPwm 2) with duty := some 1000 } = some true
    ∧ base.outputLevel (term (.damperPwm 2)) = some false
    ∧ base.outputLevel { term (.damperPwm 3) with duty := some 1000 } = some false
    ∧ (base.outputLevel { term (.damperPwm 2) with duty := some 300 }).isSome = true := by decide +kernel

/-- A present optional battery time is four characters, high first; the rest follows it (R173). -/
theorem test_PresentTime (n : Nat) (bs rest : List Byte) (h : Config.optionalMark 4 bs = (true, n))
    (hd : bs.drop n = [0x00, 0x01, 0x86, 0xA0] ++ rest) : Reader.optTime bs = .ok (some 100000#32, rest) := by
  simp only [Reader.optTime, Reader.optional, h, hd]
  rfl

/-- Cut short it is LEN. -/
theorem test_PresentTimeShort (n : Nat) (bs : List Byte) (h : Config.optionalMark 4 bs = (true, n))
    (hd : bs.drop n = [0x00, 0x01, 0x86]) : Reader.optTime bs = .error .len := by
  simp only [Reader.optTime, Reader.optional, h, hd]
  rfl

theorem witness_TerminalTaken :
    ((run (.terminal 1 1 .unassigned false .normal .both) inCfg).gate 1) = some ⟨0, false, none, false⟩
    ∧ ((run (.terminal 1 11 (.pressIn 3) false .normal .both) { inCfg with
        ofu.gates := List.replicate 4 ⟨9, true, some 8, true⟩ }).gate 3) = some ⟨0, false, some 8, true⟩
    ∧ (run (.terminal 1 0 .unassigned false .normal .both) { inCfg with
        ilk.stop := true, trm := { TermRec.freshT0 with level := true } :: terms.drop 1 }).ilk.stop = false
    ∧ (run (.terminal 1 8 .unassigned false .normal .both) { gated with
        cfg := inCfg.cfg
        trm := base.trm.set 8 (term (.gateOut 2)) }).bay 2 = some (.cooled 6 97000 98800)
    ∧ (run (.terminal 1 20 .batteryStopIn true .normal .both) { inCfg with trm := .fresh :: terms.drop 1 }).ilk.stop
        = true := by decide +kernel

/-- A machine's position is TRAVEL. -/
def travelling (s : State) (m : MachineId) : State := s.updMachine m fun r => { r with position := some .travel }

theorem witness_MachinesLost :
    ((travelling (base.setQueue .ps [entry 1 .reseal, { entry 2 .reseal with service := some 100900 }]) .pm).handOffline
        .pm).queue .ps = [entry 2 .reseal, entry 1 .reseal]
    ∧ ((travelling visiting .pm).handOffline .pm).round .ps = { visiting.round .ps with visit := none }
    ∧ ((travelling (valveTask .isolate true) .cc).handOffline .cc).ofu.queue = [⟨1, .isolate, 5, true, none⟩]
    ∧ ((travelling (carIn .toTower) .qc).handOffline .qc).qnu.car.move = .pending
    ∧ ((travelling (carAs (.spotted 3) .auto .travel .empty) .qc).handOffline .qc).qnu.car.state = .toOven (.oven 3)
    ∧ ((travelling (carAs (.spotted 3) .localMode .travel .empty) .qc).handOffline .qc).qnu.car.state = .spotted 3
    ∧ told ((travelling (carAs .draining .auto .travel .loaded) .qc).handOffline .qc) = [.carPosition .draining none]
    ∧ told ((travelling (carAs .dumping .auto .travel .loaded) .qc).handOffline .qc) = [.carPosition .dumping none]
    ∧ ((travelling (pushing .ramForward) .qc).handOffline .qc).ilk.push.map PushRec.unconfirmed = some true := by
  decide +kernel

/-- The bits the cells of a character read, and the wave of a character: the hypotheses on the line are met. -/
theorem witness_TheLineIsRead : (∀ i, i < 8 → (0x5A#8).getLsbD i = (cells 0x5A).getLsbD (i + 1))
    ∧ charStarts ⟨1, .nrz, false, false⟩ (wave (cells 0x5A)) = true
    ∧ ((List.range 11).map (bitRead ⟨1, .nrz, false, false⟩ (wave (cells 0x5A)))) = (List.range 11).map (cells 0x5A).getLsbD
    ∧ charStarts ⟨1, .nrz, false, false⟩ (wave 2047#11) = false
    ∧ base.shownLine .sup = .rest true
    ∧ ({ base with lnk.sup.port.settings := ⟨23, .nrz, true, false⟩ } : State).shownLine .sup = .rest false
    ∧ inTest.shownLine .sup = .rest true := by decide +kernel

theorem witness_BitsOfALine (v : LineSettings) (w : LineWave) : ∃ (bits : Nat → Bool) (b : Byte),
    (∀ c, bits c = true ↔ ¬ match v.code with
      | .nrz => lowAt v.rxInvert w (32 * c + 16) = true
      | .optical => ∃ i, 32 * c ≤ i ∧ i < 32 * c + 32 ∧ pulseBegins v.rxInvert w i = true)
    ∧ ∀ i, i < 8 → b.getLsbD i = bits (i + 1) :=
  ⟨bitRead v w, byteOf fun i => bitRead v w (i + 1), fun _ => bitRead_iff, fun _ hi => byteOf_getLsbD _ hi⟩

/-! ## Witnesses: the latest clauses -/

theorem witness_TheStreamMovesOn : streamSteps 1 0x4001#15 = 0x0003#15 ∧ streamSteps 1 0x6000#15 = 0x4000#15
    ∧ streamSteps 2 0x6000#15 = 0x0001#15 := by decide

theorem witness_ChargeEndOffersNormal :
    (run (.chargeEnd .cc 6) { base with ofu.charges := [⟨6, 99000, some 100500, false⟩] }).ofu.charges = []
    ∧ ((run (.chargeEnd .cc 6) base).ofu.queue.map fun e => (e.oven, e.action, e.service)) = [(6, .normal, some 100900)]
    ∧ (run (.chargeEnd .cc 6) base).ovenState 6 = some .coking := by decide +kernel

theorem witness_ASlotIsPassed : statuses ((withSlot 1 .waiting).writeMode 1 .hold none) = [.passed, .due]
    ∧ statuses (serving1.writeMode 1 .skip none) = [.passed, .due]
    ∧ statuses (serving1.writeMode 1 .fixed (some 100001)) = [.waiting, .waiting]
    ∧ statuses (serving1.writeMode 1 .fixed (some 100000)) = [.due, .waiting]
    ∧ ((base.writeMode 7 .hold none).oven 7).map OvenRec.mode = some .hold
    ∧ statuses ((withSlot 1 .inPush).writeMode 1 .hold none) = [.inPush, .waiting]
    ∧ statuses ((withSlot 1 .waiting).passSlot .mode) = [.passed, .waiting]
    ∧ told ((withSlot 1 .waiting).passSlot .mode) = [.slotPassed 0 1 .mode] ∧ base.passSlot .mode = base := by decide +kernel

/-- Door 2 PS LEAKING and due to be cleaned: a RESEAL waits, the CLEAN in service is marked. -/
def sealWork (k : TaskKind) : State :=
  ((base.updDoor 2 .ps fun r => { r with cleanDue := true, confirm := some 5 }).setQueue .ps
    [entry 2 .reseal, { entry 2 k with service := some 100900, timedOut := true }, entry 1 .inspect])

theorem witness_ADoorGoesOff : ((sealWork .clean).doorGoesOff 2 .ps).queue .ps = [entry 2 .clean, entry 1 .inspect]
    ∧ told ((sealWork .clean).doorGoesOff 2 .ps) = [.taskWithdrawn .pm 2 (.door .clean) false]
    ∧ ((sealWork .inspect).doorGoesOff 2 .ps).queue .ps = [⟨2, .clean, 100000, false, none⟩, entry 1 .inspect]
    ∧ told ((sealWork .inspect).doorGoesOff 2 .ps) = [.taskWithdrawn .pm 2 (.door .inspect) false]
    ∧ told (visiting.doorGoesOff 10 .ps) = [.taskWithdrawn .pm 10 (.door .inspect) true]
    ∧ (((sealWork .clean).doorGoesOff 2 .ps).door 2 .ps).bind DoorRec.confirm = none
    ∧ base.doorGoesOff 5 .ps = base ∧ (base.door 2 .ps).isSome = true := by decide +kernel

theorem witness_RamWithoutCar : told (base.ramStartCar 5) = [.ramWithoutCar 5 .unknown]
    ∧ (pushReady.ramStartCar 5).qnu.car.state = .loading 5 ∧ told (pushReady.ramStartCar 5) = [] := by decide +kernel

/-- The battery with section 2 inactive and its sensor in fault. -/
def inactive : State := { gateAt 652 with
  ofu.sections := [section2, { section2 with live := none, sensorFault := true, goodRun := 7 }] }

theorem witness_AnInactiveSectionReads : (inactive.sec 2).bind SecRec.live = none
    ∧ (run .controlTick inactive).sec 2 = some { section2 with live := none, pressure := some 152, goodRun := 8 }
    ∧ told (inactive.endSection 2) = [.sensorOk 2 152] := by decide +kernel

theorem witness_BaysJoinTheFreeList : insertFree (fun b => if b = 4 then 9 else 5) 3 5 ([1, 2] ++ [6, 4]) = [1, 2, 3, 6, 4]
    ∧ base.bay 1 = some (.free 0) := by decide

theorem witness_ALinkTestTakesTheMachineOffline : base.online .gc = true
    ∧ (run (.linkTest 1 (some (.mach .gc))) base).online .gc = false
    ∧ ((run (.linkTest 1 (some (.mach .gc))) base).machine .gc).position = some .travel
    ∧ told (base.startTest .gc) = [.linkState .gc false .test]
    ∧ ((run (.testCharacter .gc (wave (cells 0x80))) inTest).mlink .gc).test.checker = 0x0001#15 := by decide +kernel

/-- The battery with nothing that holds RESTART up: a range operation and a move are in progress, PM holds a permit. -/
def restartable : State := { withPermit .pm .doorOffPs 1 with
  ot := List.replicate 10 (ovenOf 1 .ready (some 20000))
  pln.range := some ⟨4, 5, .hold, none, 5, 1, 1, 0, false⟩
  qnu.car := { CarRec.fresh with state := .toOven .park, move := .issued 99000 (some 100000) }
  dru.doors := List.replicate 10 ⟨{ DoorRec.fresh with resealPending := true }, .fresh⟩ }

theorem witness_Restart : told restartable.enterConfig = [.partState .config .restart, .rangeDone 4 5 .hold 1 0 1 true]
    ∧ (restartable.enterConfig.mlink .pm).queue = [.revoke .doorOffPs 1 .restart, .stop .config]
    ∧ (restartable.enterConfig.mlink .qc).queue = [.stop .config]
    ∧ restartable.enterConfig.qnu.car.move = .pending
    ∧ (restartable.enterConfig.door 3 .ps).map DoorRec.resealPending = some false
    ∧ codeOf (.restart 1) restartable = some .ok
    ∧ ({ base with ot := [ovenOf 1 .charging none, ovenOf 2 .charging none] } : State).obstacle = some (.charging 1) := by
  decide +kernel

theorem witness_TrackBlockedOnce :
    let held : State := { carAs (.toOven (.oven 2)) .auto .park .empty with
      qnu.car.move := .pending, qnu.blocked := [.oven 1] }
    told held.testMove = [.trackBlocked false (.oven 2) [.oven 1]] ∧ told held.testMove.testMove = told held.testMove
    ∧ told ({ held with ilk.stop := true } : State).testMove = [] := by decide +kernel

theorem witness_ThePlanQueryAtABoundary :
    ({ withSlot 1 .done with pln.cursor := none } : State).supervisorHeard.pln.cursor = none
    ∧ ({ withSlot 1 .done with pln.cursor := none } : State).supervisorHeard.pln.round.isSome = true := by decide +kernel

end Sys2Proof.Tests
end

section
/-! SUPPORT. What each event leaves of the time base and the configuration store: its end, the forms that requests and
machine frames share, and the commands that frames carry. -/

namespace Sys2Proof.Machine

open Sys2Proof

namespace State

/-! ## The end of an event -/

/-- A fold of expiries, none of which changes the time base or the configuration store, changes neither. -/
theorem forEach_tb_cfg {f : State → Nat → State} (hf : ∀ t n, (f t n).tb = t.tb ∧ (f t n).cfg = t.cfg) (l : List Nat)
    (s : State) : (forEach f l s).tb = s.tb ∧ (forEach f l s).cfg = s.cfg := by
  induction l generalizing s with
  | nil => exact ⟨rfl, rfl⟩
  | cons n l ih =>
    obtain ⟨htb, hcfg⟩ := hf s n
    obtain ⟨ihtb, ihcfg⟩ := ih (f s n)
    exact ⟨ihtb.trans htb, ihcfg.trans hcfg⟩

/-- No expiry changes the time base or the configuration store. -/
@[simp] theorem sweepOnce_tb_cfg (s : State) : s.sweepOnce.tb = s.tb ∧ s.sweepOnce.cfg = s.cfg := by
  simp [sweepOnce, forEach_tb_cfg]

/-- Expiries and transmitters, with which every event ends, leave the time base and the configuration store. -/
@[simp] theorem settle_tb_cfg (s : State) : s.settle.tb = s.tb ∧ s.settle.cfg = s.cfg := by
  have swept : s.heldSweep.tb = s.tb ∧ s.heldSweep.cfg = s.cfg := by
    unfold heldSweep
    split
    · exact ⟨rfl, rfl⟩
    · refine sweeps_keeps (P := fun t => t.tb = s.tb ∧ t.cfg = s.cfg) ?_ _ ⟨rfl, rfl⟩
      rintro t ⟨htb, hcfg⟩
      simp [htb, hcfg]
  simp [settle, swept]

/-! ## The forms that requests and machine frames share -/

@[simp] theorem machineFrame_tb {body : State → State} (hb : ∀ t, (body t).tb = t.tb) (m : MachineId) (s : State) :
    (machineFrame m body s).tb = s.tb := by
  unfold machineFrame
  split <;> simp [hb]

@[simp] theorem request_tb {body : State → State × Reply} (hb : ∀ t, (body t).1.tb = t.tb) (tag : Byte) (s : State) :
    (request tag body s).tb = s.tb := by
  unfold request
  split <;> simp [hb]

@[simp] theorem runOnly_tb {take : State → State × Reply} (ht : ∀ t, (take t).1.tb = t.tb) (s : State) :
    (runOnly take s).1.tb = s.tb := by
  unfold runOnly
  split <;> simp [ht]

@[simp] theorem forOven_tb {take : State → State × Reply} (ht : ∀ t, (take t).1.tb = t.tb) (n : Nat) (s : State) :
    (forOven n take s).1.tb = s.tb := by
  unfold forOven
  split <;> simp [ht]

@[simp] theorem forSection_tb {take : State → State × Reply} (ht : ∀ t, (take t).1.tb = t.tb) (k : Nat) (s : State) :
    (forSection k take s).1.tb = s.tb := by
  unfold forSection
  split <;> simp [ht]

@[simp] theorem forMLink_tb {take : MachineId → State → State × Reply} (ht : ∀ m t, (take m t).1.tb = t.tb)
    (l : Option LinkId) (s : State) : (forMLink l take s).1.tb = s.tb := by
  unfold forMLink
  split <;> simp [ht]

@[simp] theorem setup_tb {take : State → State × Reply} (ht : ∀ t, (take t).1.tb = t.tb) (configOnly rangeOk : Bool)
    (s : State) : (setup configOnly rangeOk take s).1.tb = s.tb := by
  unfold setup
  (repeat' split) <;> simp [ht]

/-! ## Queries: what changes nothing but the answer queue -/

@[simp] theorem ovenAnswer_fst (n : Nat) (s : State) : (ovenAnswer n s).1 = s := by
  unfold ovenAnswer
  split <;> rfl

@[simp] theorem slotAnswer_fst (i : Nat) (s : State) : (slotAnswer i s).1 = s := by
  unfold slotAnswer
  (repeat' split) <;> rfl

@[simp] theorem doorAnswer_fst (n : Nat) (s : State) : (doorAnswer n s).1 = s := by
  unfold doorAnswer
  (repeat' split) <;> rfl

@[simp] theorem sectionAnswer_fst (k : Nat) (s : State) : (sectionAnswer k s).1 = s := by
  unfold sectionAnswer
  (repeat' split) <;> rfl

@[simp] theorem valvesAnswer_fst (n : Option Nat) (s : State) : (valvesAnswer n s).1 = s := by
  unfold valvesAnswer
  (repeat' split) <;> rfl

@[simp] theorem terminalsAnswer_fst (t : Option Nat) (s : State) : (terminalsAnswer t s).1 = s := by
  unfold terminalsAnswer
  (repeat' split) <;> rfl

end State

open State

/-! ## The frames that a character may complete -/

/-- Of the commands that a frame carries only COMMIT and SET_TIME change the time base (R5, R184). -/
theorem runFrame_tb {i : Instr} (hc : ∀ g, i ≠ .commit g) (ht : ∀ g v, i ≠ .setTime g v) (s : State) :
    (runFrame i s).tb = s.tb := by
  cases i
  case commit g => exact absurd rfl (hc g)
  case setTime g v => exact absurd rfl (ht g v)
  case doorOff | doorOn | doorTight | ramStart | ramAtEnd | ramHome | chargeStart | chargeEnd | leakSeen | taskDone
      | dumpDone =>
    exact machineFrame_tb (fun t => by split <;> simp) _ s
  case valve => exact machineFrame_tb (fun t => by (repeat' split) <;> simp) _ s
  case status | ccTaskDone | requestDoorOffPs | requestDoorOffCs | requestPush | requestCharge  =>
    simp [runFrame, doStatus, doRequest, doCcTaskDone]
  case battery => exact request_tb (fun t => by (repeat' split) <;> simp) _ s
  case pressure => exact request_tb (setup_tb (fun t => by split <;> simp) _ _) _ s
  case ovenLoad => exact request_tb (setup_tb (fun t => by split <;> simp) _ _) _ s
  case series | timing | wharf | doors | terminal | link =>
    simp [runFrame, doSeries, doTiming, doWharf, doDoors, doTerminal, doLink]
  case statusQuery | timeQuery | planQuery | machinesQuery | pushQuery | tasksQuery | quenchQuery | unknownRequest =>
    exact request_tb (fun _ => rfl) _ s
  case ovenQuery | slotQuery | doorQuery | sectionQuery | valvesQuery | terminalsQuery =>
    simp [runFrame, doOvenQuery, doSlotQuery, doDoorQuery, doSectionQuery, doValvesQuery, doTerminalsQuery]
  case makeup n => exact request_tb (runOnly_tb (forOven_tb (fun _ => by simp) _)) _ s
  case ovenService | setTarget | cancelMakeup | planStart | planHalt | planResume | planStage | setMode
      | setModeRange | rangeAbort | clearBreach | pushRetry | abandon | leakReport | setDamper | setAuto | setSetpoint
      | trackBlock | trackFree | setOutput | toggle | clearTerminal | linkClear | linkTest | testRead | testEnd | restart =>
    simp [runFrame, doOvenService, doSetTarget, doCancelMakeup, doPlanStart, doPlanHalt, doPlanResume,
      doPlanStage, doSetMode, doSetModeRange, doRangeAbort, doClearBreach, doPushRetry, doAbandon, doLeakReport,
      doSetDamper, doSetAuto, doSetSetpoint, doTrackBlock, doTrackFree, doSetOutput, doToggle, doClearTerminal,
      doLinkClear, doLinkTest, doTestRead, doTestEnd, doRestart]
  all_goals rfl

end Sys2Proof.Machine
end

section
/-! SUPPORT. The time-open flag: SET_TIME and COMMIT at the flag, what every event does to it, and the statement about it
(R5). -/

namespace Sys2Proof.Machine

open Sys2Proof State

/-! ## How the flag may move -/

/-- What an event other than HARD_RESET may do to the time-open flag: it leaves it, or it clears it as it takes the part
from CONFIG into RUN. -/
def TimeOpenStep (s t : State) : Prop :=
  t.tb.timeOpen = s.tb.timeOpen ∨ (s.inRun = false ∧ t.inRun = true ∧ t.tb.timeOpen = false)

theorem TimeOpenStep.of_tb {s t : State} (h : t.tb = s.tb) : TimeOpenStep s t := .inl (congrArg TimeBase.timeOpen h)

/-- What changes neither the time base nor the configuration store may come before the event or after it. -/
theorem TimeOpenStep.extend {s s' t t' : State} (h : TimeOpenStep s' t') (hs : s'.tb = s.tb ∧ s'.cfg = s.cfg)
    (ht : t.tb = t'.tb ∧ t.cfg = t'.cfg) : TimeOpenStep s t := by
  simpa only [TimeOpenStep, inRun, hs, ht] using h

theorem TimeOpenStep.closed {s t : State} (h : TimeOpenStep s t) (hs : s.tb.timeOpen = false) : t.tb.timeOpen = false := by
  obtain kept | ⟨-, -, closed⟩ := h
  · exact kept.trans hs
  · exact closed

theorem TimeOpenStep.entersRun {s t : State} (h : TimeOpenStep s t) (hs : s.tb.timeOpen = true)
    (ht : t.tb.timeOpen = false) : s.inRun = false ∧ t.inRun = true := by
  obtain kept | ⟨config, run, -⟩ := h
  · simp [kept, hs] at ht
  · exact ⟨config, run⟩

theorem State.request_timeOpenStep {body : State → State × Reply} (hb : ∀ t, TimeOpenStep t (body t).1) (tag : Byte)
    (s : State) : TimeOpenStep s (request tag body s) := by
  unfold request
  split
  · exact .of_tb (by simp)
  · exact (hb s.supervisorHeard).extend (by simp) (by simp)

/-! ## SET_TIME and COMMIT -/

/-- The entry into RUN clears the time-open flag and changes nothing else of the time base and the configuration store but
the part state (R184). -/
theorem State.enterRun_tb_cfg (s : State) :
    s.enterRun.tb = { s.tb with timeOpen := false } ∧ s.enterRun.cfg = { s.cfg with part := .run } := by
  simp only [enterRun]
  split <;> simp

theorem State.commitOp_complete {s : State} (config : s.inRun = false) (blocks : s.missingBlocks = [])
    (fns : s.missingFns = []) : s.commitOp = s.enterRun.ok := by
  simp [commitOp, config, blocks, fns]

theorem State.commitOp_timeOpenStep (s : State) : TimeOpenStep s s.commitOp.1 := by
  unfold commitOp
  split
  · exact .of_tb rfl
  next config =>
    split
    · exact .inr (by simpa [enterRun_tb_cfg, inRun] using config)
    · exact .of_tb rfl

/-- What COMMIT finds missing does not depend on the supervisor's link (R183). -/
theorem State.supervisorHeard_missing (s : State) :
    s.supervisorHeard.missingBlocks = s.missingBlocks ∧ s.supervisorHeard.missingFns = s.missingFns := by
  simp [missingBlocks, missingFns, requiredFns, nSec, assigned, terminalOf]

theorem State.setTimeOp_taken {s : State} (config : s.inRun = false) (isOpen : s.tb.timeOpen = true) (v : Time32) :
    setTimeOp v s = (if v.toNat = tMax then ({ s with tb.time := v.toNat } : State).raise .timeHeld
      else { s with tb.time := v.toNat }).ok := by
  simp [setTimeOp, config, isOpen]

theorem State.setTimeOp_refused {s : State} (h : s.inRun = true ∨ s.tb.timeOpen = false) (v : Time32) :
    setTimeOp v s = s.refuse .state := by
  obtain run | closed := h
  · simp [setTimeOp, run]
  · simp [setTimeOp, closed]

theorem State.setTimeOp_timeOpen (v : Time32) (s : State) : (setTimeOp v s).1.tb.timeOpen = s.tb.timeOpen := by
  unfold setTimeOp
  split
  · dsimp only
    split <;> simp
  · rfl

/-! ## Every event -/

theorem runFrame_timeOpenStep (i : Instr) (s : State) : TimeOpenStep s (runFrame i s) := by
  by_cases hc : ∃ g, i = .commit g
  · obtain ⟨g, rfl⟩ := hc
    exact request_timeOpenStep commitOp_timeOpenStep g s
  · by_cases ht : ∃ g v, i = .setTime g v
    · obtain ⟨g, v, rfl⟩ := ht
      exact request_timeOpenStep (fun t => .inl (setTimeOp_timeOpen v t)) g s
    · exact .of_tb (runFrame_tb (fun g h => hc ⟨g, h⟩) (fun g v h => ht ⟨g, v, h⟩) s)

theorem takeFrame_timeOpenStep (l : LinkId) (t : Taken) (s : State) : TimeOpenStep s (takeFrame l t s) := by
  cases t with
  | message i => exact runFrame_timeOpenStep i s
  | unknownPermit m code n => exact .of_tb (machineFrame_tb (fun t => by simp) m s)
  | format tag => exact runFrame_timeOpenStep (.unknownRequest tag) s
  | discard c => exact .of_tb (by simp [takeFrame])

theorem completeFrame_timeOpenStep (l : LinkId) (len : Nat) (chars : List Byte) (s : State) :
    TimeOpenStep s (completeFrame l len chars s) := by
  unfold completeFrame
  dsimp only
  split
  · split
    · exact takeFrame_timeOpenStep l _ s
    · exact .of_tb (by simp)
  · exact .of_tb (by simp)

theorem assemble_timeOpenStep (l : LinkId) (b : Byte) (s : State) : TimeOpenStep s (assemble l b s) := by
  unfold assemble
  dsimp only
  split
  · exact .of_tb (by split <;> simp [setRx])
  · exact .of_tb (by split <;> simp [setRx])
  · exact .of_tb (by simp [setRx])
  · split
    · exact .of_tb (by simp [setRx])
    · exact (completeFrame_timeOpenStep l _ _ _).extend (by simp [setRx]) ⟨rfl, rfl⟩

theorem doTestCharacter_tb (m : MachineId) (wave : LineWave) (s : State) : (doTestCharacter m wave s).tb = s.tb := by
  unfold doTestCharacter
  (repeat' split) <;> simp

theorem doCharacterReceived_timeOpenStep (l : LinkId) (wave : LineWave) (s : State) :
    TimeOpenStep s (doCharacterReceived l wave s) := by
  unfold doCharacterReceived
  split
  · cases l with
    | sup => exact .of_tb rfl
    | mach m => exact .of_tb (doTestCharacter_tb m wave s)
  · split
    next c _ =>
      cases c with
      | good b => exact assemble_timeOpenStep l b s
      | parity b => exact .of_tb (by simp [takeChar, setRx])
      | framing b => exact .of_tb (by simp [takeChar, setRx])
    next => exact .of_tb rfl

theorem countSecond_timeOpen (s : State) : (countSecond s).tb.timeOpen = s.tb.timeOpen := by
  unfold countSecond
  dsimp only
  (repeat' split) <;> simp

theorem doOneSecondTick_timeOpen (s : State) : (doOneSecondTick s).tb.timeOpen = s.tb.timeOpen := by
  unfold doOneSecondTick
  dsimp only
  split <;> simp [tickRounds, countSecond_timeOpen]

theorem doSLinkFrameSent_tb (s : State) : (doSLinkFrameSent s).tb = s.tb := by
  unfold doSLinkFrameSent
  dsimp only
  (repeat' split) <;> simp

/-- Every command but HARD_RESET ends its event after an effect that moves the time-open flag as R5 allows. -/
theorem exec_settles_timeOpenStep {c : Instr} (hc : c ≠ .hardReset) (s : State) :
    ∃ u, exec c s = .next u.settle ∧ TimeOpenStep s u := by
  have frame := runFrame_timeOpenStep c s
  cases c
  case hardReset => exact absurd rfl hc
  case controlTick => exact ⟨_, rfl, .inl (by simp [doControlTick])⟩
  case oneSecondTick => exact ⟨_, rfl, .inl (doOneSecondTick_timeOpen s)⟩
  case characterReceived l wave => exact ⟨_, rfl, doCharacterReceived_timeOpenStep l wave s⟩
  case testCharacter m wave => exact ⟨_, rfl, .of_tb (doTestCharacter_tb m wave s)⟩
  case sLinkFrameSent => exact ⟨_, rfl, .of_tb (doSLinkFrameSent_tb s)⟩
  case inspectionAccrual d => exact ⟨_, rfl, .of_tb (by unfold doInspectionAccrual; split <;> simp)⟩
  case rangeStepEnd => exact ⟨_, rfl, .of_tb (by unfold doRangeStepEnd; split <;> simp)⟩
  case mLinkSilenceExpiry m =>
    exact ⟨_, rfl, .of_tb (by unfold doMLinkSilenceExpiry; (repeat' split) <;> simp)⟩
  case sLinkSilenceExpiry =>
    exact ⟨_, rfl, .of_tb (by unfold doSLinkSilenceExpiry; dsimp only; (repeat' split) <;> simp)⟩
  case characterGapExpiry l => exact ⟨_, rfl, .of_tb (by unfold doCharacterGapExpiry; split <;> simp)⟩
  case readyExpiry | overdueExpiry | dueExpiry | holdOverExpiry | useDeadlineExpiry | tRamExpiry | stageTimerExpiry
      | confirmExpiry | taskTimerExpiry | roundVisitTimerExpiry | isolateTimerExpiry | valveTaskTimerExpiry
      | chargeTimerExpiry | moveTimerExpiry | hotTimerExpiry | sprayTimerExpiry | drainTimerExpiry | coolTimerExpiry
      | gateTimerExpiry =>
    refine ⟨_, rfl, .of_tb ?_⟩
    simp [doReadyExpiry, doOverdueExpiry, doDueExpiry, doHoldOverExpiry, doUseDeadlineExpiry, doTRamExpiry,
      doStageTimerExpiry, doConfirmExpiry, doTaskTimerExpiry, doRoundVisitTimerExpiry, doIsolateTimerExpiry,
      doValveTaskTimerExpiry, doChargeTimerExpiry, doMoveTimerExpiry, doHotTimerExpiry, doSprayTimerExpiry,
      doDrainTimerExpiry, doCoolTimerExpiry, doGateTimerExpiry]
  case mLinkFrameSent | inputLevelChange | terminalOverload | pressInPulseEdge | damperPwmPeriodStart =>
    refine ⟨_, rfl, .of_tb ?_⟩
    simp [doMLinkFrameSent, doInputLevelChange, doTerminalOverload, doPressInPulseEdge, doDamperPwmPeriodStart]
  all_goals exact ⟨_, rfl, frame⟩

theorem exec_timeOpenStep {c : Instr} {s t : State} (hc : c ≠ .hardReset) (h : exec c s = .next t) : TimeOpenStep s t := by
  obtain ⟨u, hu, step⟩ := exec_settles_timeOpenStep hc s
  obtain rfl : u.settle = t := by simpa [hu] using h
  exact step.extend ⟨rfl, rfl⟩ (by simp)

theorem exec_commit_timeOpen {s t : State} {g : Byte} (room : s.room) (config : s.inRun = false)
    (blocks : s.missingBlocks = []) (fns : s.missingFns = []) (h : exec (.commit g) s = .next t) :
    t.tb.timeOpen = false := by
  have done : s.supervisorHeard.commitOp = s.supervisorHeard.enterRun.ok := by
    obtain ⟨hb, hf⟩ := supervisorHeard_missing s
    exact commitOp_complete (by simpa [inRun] using config) (hb.trans blocks) (hf.trans fns)
  obtain rfl : (doCommit g s).settle = t := by simpa [exec, execCommit] using h
  simp [doCommit, request_taken room, done, enterRun_tb_cfg]

/-! ## The statement -/

theorem exec_setTime {s : State} (room : s.room) (tag : Byte) (v : Time32) : exec (.setTime tag v) s =
    ends ((setTimeOp v s.supervisorHeard).1.pushAnswer tag (setTimeOp v s.supervisorHeard).2) :=
  congrArg ends (request_taken room tag (setTimeOp v))

/-- Settles O17: the equations of SET_TIME by part state and flag, and the one step that every event makes of the flag. -/
theorem setTimeByTheTimeOpenFlag : Obligations.SetTimeByTheTimeOpenFlag := by
  unfold Obligations.SetTimeByTheTimeOpenFlag
  refine ⟨fun s tag v room => ?_, rfl, ?_, ?_, ?_⟩
  · have heardRun : s.supervisorHeard.inRun = s.inRun := by simp [inRun]
    have heardOpen : s.supervisorHeard.tb.timeOpen = s.tb.timeOpen := by simp
    refine ⟨fun config isOpen short => ?_, fun config isOpen held => ?_, fun refused => ?_⟩
    · rw [exec_setTime room, setTimeOp_taken (heardRun.trans config) (heardOpen.trans isOpen), if_neg short]
      rfl
    · rw [exec_setTime room, setTimeOp_taken (heardRun.trans config) (heardOpen.trans isOpen), if_pos held]
      rfl
    · rw [exec_setTime room, setTimeOp_refused (by rwa [heardRun, heardOpen])]
      rfl
  · rintro s t ⟨⟩
    rfl
  · exact fun s t g room config blocks fns h => exec_commit_timeOpen room config blocks fns h
  · exact fun c s t hc h => ⟨(exec_timeOpenStep hc h).closed, (exec_timeOpenStep hc h).entersRun⟩

end Sys2Proof.Machine
end

section
/-! SUPPORT. The TIME and OVEN queries (R6, R21). -/

namespace Sys2Proof.Machine

open Sys2Proof State

theorem State.ovenAnswer_present {s : State} {n : Nat} {o : OvenRec} (h : s.oven n = some o) :
    ovenAnswer n s = s.answer (.oven o (readyTime s.cfg.timing o) (overdueTime s.cfg.timing o)) := by
  simp [ovenAnswer, h]

theorem State.ovenAnswer_absent {s : State} {n : Nat} (h : s.oven n = none) : ovenAnswer n s = s.refuse .range := by
  simp [ovenAnswer, h]

theorem exec_timeQuery {s : State} (room : s.room) (tag : Byte) : exec (.timeQuery tag) s =
    ends ((timeAnswer s.supervisorHeard).1.pushAnswer tag (timeAnswer s.supervisorHeard).2) :=
  congrArg ends (request_taken room tag timeAnswer)

theorem exec_ovenQuery {s : State} (room : s.room) (tag : Byte) (n : Nat) : exec (.ovenQuery tag n) s =
    ends ((ovenAnswer n s.supervisorHeard).1.pushAnswer tag (ovenAnswer n s.supervisorHeard).2) :=
  congrArg ends (request_taken room tag (ovenAnswer n))

/-- Settles O18: each query is taken with the room there is and answers from the state once the frame is heard. -/
theorem timeAndOvenQueries : Obligations.TimeAndOvenQueries := by
  unfold Obligations.TimeAndOvenQueries
  refine fun s tag n room => ⟨exec_timeQuery room tag, fun absent => ?_, fun o present => ?_⟩
  · rw [exec_ovenQuery room, ovenAnswer_absent absent]
    rfl
  · rw [exec_ovenQuery room, ovenAnswer_present present]
    rfl

end Sys2Proof.Machine
end

section
/-! SUPPORT. The series order: what each sub-round lists, which sub-round lists an oven, and the statement that the whole
lists every oven once (R23). -/

namespace Sys2Proof.Machine

open Sys2Proof

/-! ## One sub-round -/

/-- Only the first N_OV steps are taken, and no oven is lost by it: a start and a step of at least 1 pass N_OV by then. -/
theorem mem_subRound {nOv step start o : Nat} (hstart : 1 ≤ start) (hstep : 1 ≤ step) :
    o ∈ subRound nOv step start ↔ o ≤ nOv ∧ ∃ j, o = start + j * step := by
  simp only [subRound, List.mem_filter, List.mem_map, List.mem_range, decide_eq_true_eq]
  constructor
  · rintro ⟨⟨j, -, rfl⟩, inRange⟩
    exact ⟨inRange, j, rfl⟩
  · rintro ⟨inRange, j, rfl⟩
    have steps : j ≤ j * step := Nat.le_mul_of_pos_right j hstep
    exact ⟨⟨j, by omega, rfl⟩, inRange⟩

theorem subRound_pairwise_lt {nOv step : Nat} (start : Nat) (hstep : 1 ≤ step) :
    (subRound nOv step start).Pairwise (· < ·) := by
  refine List.Pairwise.filter _ (List.pairwise_map.2 (List.pairwise_lt_range.imp fun earlier => ?_))
  exact Nat.add_lt_add_left (Nat.mul_lt_mul_of_pos_right earlier hstep) start

theorem subRound_nodup {nOv step : Nat} (start : Nat) (hstep : 1 ≤ step) : (subRound nOv step start).Nodup :=
  (subRound_pairwise_lt start hstep).imp Nat.ne_of_lt

/-- The sub-round from oven 1 + r lists the ovens whose distance from oven 1 leaves r when divided by S. -/
theorem mem_subRound_iff_mod {nOv step r o : Nat} (hr : r < step) :
    o ∈ subRound nOv step (1 + r) ↔ (1 ≤ o ∧ o ≤ nOv) ∧ (o - 1) % step = r := by
  rw [mem_subRound (by omega) (by omega)]
  constructor
  · rintro ⟨inRange, j, rfl⟩
    have distance : 1 + r + j * step - 1 = r + j * step := by omega
    refine ⟨⟨by omega, inRange⟩, ?_⟩
    rw [distance, Nat.add_mul_mod_self_right, Nat.mod_eq_of_lt hr]
  · rintro ⟨⟨first, inRange⟩, rfl⟩
    have division := Nat.mod_add_div' (o - 1) step
    exact ⟨inRange, (o - 1) / step, by omega⟩

/-! ## The sub-rounds together -/

theorem mem_seriesOrder {nOv step d o : Nat} : o ∈ seriesOrder nOv step d ↔
    ∃ k < step, (1 ≤ o ∧ o ≤ nOv) ∧ (o - 1) % step = k * d % step := by
  simp only [seriesOrder, List.mem_flatMap, List.mem_range]
  refine exists_congr fun k => and_congr_right fun hk => ?_
  exact mem_subRound_iff_mod (Nat.mod_lt _ (by omega))

/-- With gcd(D, S) = 1, no two sub-rounds of a series start at the same oven. -/
theorem subRoundStart_inj {step d k l : Nat} (coprime : Nat.gcd d step = 1) (hk : k < step) (hl : l < step)
    (same : k * d % step = l * d % step) : k = l :=
  have congruent : k ≡ l [MOD step] := Nat.ModEq.cancel_right_of_coprime (Nat.gcd_comm d step ▸ coprime) same
  congruent.eq_of_lt_of_lt hk hl

theorem mem_seriesOrder_iff {nOv step d o : Nat} (hstep : 1 ≤ step) (coprime : Nat.gcd d step = 1) :
    o ∈ seriesOrder nOv step d ↔ 1 ≤ o ∧ o ≤ nOv := by
  rw [mem_seriesOrder]
  constructor
  · rintro ⟨k, -, inRange, -⟩
    exact inRange
  · intro inRange
    obtain ⟨k, hk, start⟩ := Nat.exists_mul_mod_eq_of_coprime (o - 1) coprime (Nat.ne_of_gt hstep)
    exact ⟨k, hk, inRange, by rw [← start, Nat.mul_comm]⟩

/-- No sub-round lists an oven twice, and an oven that two of them list shows that they are one. -/
theorem seriesOrder_nodup {nOv step d : Nat} (hstep : 1 ≤ step) (coprime : Nat.gcd d step = 1) :
    (seriesOrder nOv step d).Nodup := by
  refine List.nodup_flatMap.2 ⟨fun k _ => subRound_nodup _ hstep, ?_⟩
  refine List.nodup_range.imp_of_mem fun {k l} hk hl distinct o ink inl => distinct ?_
  obtain ⟨-, fromK⟩ := (mem_subRound_iff_mod (Nat.mod_lt _ hstep)).1 ink
  obtain ⟨-, fromL⟩ := (mem_subRound_iff_mod (Nat.mod_lt _ hstep)).1 inl
  exact subRoundStart_inj coprime (List.mem_range.1 hk) (List.mem_range.1 hl) (fromK.symm.trans fromL)

/-- Settles O25: with gcd(D, S) = 1 the starts k × D mod S take every value below S once, and an oven stands in the one
sub-round that starts at its residue. -/
theorem seriesOrderListsEveryOvenOnce : Obligations.SeriesOrderListsEveryOvenOnce := by
  unfold Obligations.SeriesOrderListsEveryOvenOnce
  intro nOv step d
  refine ⟨rfl, fun start hstart hstep o => mem_subRound hstart hstep, subRound_pairwise_lt, fun hstep coprime => ?_⟩
  exact ⟨seriesOrder_nodup hstep coprime, fun o => mem_seriesOrder_iff hstep coprime⟩

end Sys2Proof.Machine
end

section
/-! SUPPORT. The effect of each command and how its event ends; what every command leaves of the queue of commands, and the
invariants of Safety.lean along a step. -/

namespace Sys2Proof.Machine

open Sys2Proof State

/-! ## The effect of a command -/

/-- The effect of a command, before its event ends: its own for the ticks, timers and line events, the effect of its frame for
what a frame carries. -/
def effect (c : Instr) (s : State) : State :=
  match c with
  | .hardReset => doHardReset s
  | .controlTick => doControlTick s
  | .oneSecondTick => doOneSecondTick s
  | .inspectionAccrual d => doInspectionAccrual d s
  | .readyExpiry n => doReadyExpiry n s
  | .overdueExpiry n => doOverdueExpiry n s
  | .dueExpiry => doDueExpiry s
  | .holdOverExpiry => doHoldOverExpiry s
  | .rangeStepEnd => doRangeStepEnd s
  | .useDeadlineExpiry m => doUseDeadlineExpiry m s
  | .tRamExpiry => doTRamExpiry s
  | .stageTimerExpiry => doStageTimerExpiry s
  | .confirmExpiry n d => doConfirmExpiry n d s
  | .taskTimerExpiry d => doTaskTimerExpiry d s
  | .roundVisitTimerExpiry d => doRoundVisitTimerExpiry d s
  | .isolateTimerExpiry => doIsolateTimerExpiry s
  | .valveTaskTimerExpiry => doValveTaskTimerExpiry s
  | .chargeTimerExpiry n => doChargeTimerExpiry n s
  | .moveTimerExpiry => doMoveTimerExpiry s
  | .hotTimerExpiry => doHotTimerExpiry s
  | .sprayTimerExpiry => doSprayTimerExpiry s
  | .drainTimerExpiry => doDrainTimerExpiry s
  | .coolTimerExpiry b => doCoolTimerExpiry b s
  | .gateTimerExpiry => doGateTimerExpiry s
  | .mLinkSilenceExpiry m => doMLinkSilenceExpiry m s
  | .sLinkSilenceExpiry => doSLinkSilenceExpiry s
  | .characterGapExpiry l => doCharacterGapExpiry l s
  | .characterReceived l wave => doCharacterReceived l wave s
  | .testCharacter m wave => doTestCharacter m wave s
  | .sLinkFrameSent => doSLinkFrameSent s
  | .mLinkFrameSent m => doMLinkFrameSent m s
  | .inputLevelChange t energised => doInputLevelChange t energised s
  | .terminalOverload t => doTerminalOverload t s
  | .pressInPulseEdge t => doPressInPulseEdge t s
  | .damperPwmPeriodStart t => doDamperPwmPeriodStart t s
  | c => runFrame c s

theorem exec_hardReset (s : State) : exec .hardReset s = .next (doHardReset s) := rfl

/-- Every command but HARD_RESET is its effect and then the end of the event (R3, R177, R178). -/
theorem exec_eq_ends {c : Instr} (hc : c ≠ .hardReset) (s : State) : exec c s = ends (effect c s) := by
  cases c
  case hardReset => exact absurd rfl hc
  all_goals rfl

/-- What a command may end in: the contents of hard reset, or the end of the event its effect belongs to. -/
theorem exec_next {c : Instr} {s t : State} (h : exec c s = .next t) :
    (c = .hardReset ∧ t = doHardReset s) ∨ (c ≠ .hardReset ∧ t = (effect c s).settle) := by
  by_cases hc : c = .hardReset
  · subst hc
    rw [exec_hardReset] at h
    exact .inl ⟨rfl, (Host.Outcome.next.inj h).symm⟩
  · rw [exec_eq_ends hc] at h
    exact .inr ⟨hc, (Host.Outcome.next.inj h).symm⟩

/-! ## What requests and machine frames have in common -/

/-- What a supervisor request does and answers, once it is taken (R176). -/
def requestEffect : Instr → State → State × Reply
  | .battery _ nOv k lasts => fun s =>
      if s.inRun then s.refuse .state
      else if batteryOk nOv k lasts then (takeBattery nOv k lasts s).ok
      else s.refuse .range
  | .series _ p start => setup false (seriesOk p) fun s => (takeSeries p start s).ok
  | .timing _ v => setup false (timingOk v) fun s => (takeTiming v s).ok
  | .pressure _ k p => setup false (pressureOk p) fun s =>
      if within 1 s.nSec k then (takePressure k p s).ok else s.refuse .range
  | .wharf _ v => setup true (wharfOk v) (takeWharf v)
  | .doors _ v => setup false (doorsOk v) fun s => (takeDoors v s).ok
  | .terminal _ t fn invert drive edge => setup true (terminalOk t fn drive) (takeTerminal t fn invert drive edge)
  | .link _ l v => setup true (linkOk l v) (takeLink l v)
  | .ovenLoad _ v => setup true true fun s => if ovenLoadOk s v then (takeOvenLoad v s).ok else s.refuse .range
  | .setTime _ t => setTimeOp t
  | .ovenService _ n dir => forOven n (ovenServiceOp n dir)
  | .setTarget _ n target => forOven n (setTargetOp n target)
  | .makeup _ n => runOnly (forOven n (makeupOp n))
  | .cancelMakeup _ n => runOnly (cancelMakeupOp n)
  | .planStart _ start => runOnly (planStartOp start)
  | .planHalt _ => runOnly planHaltOp
  | .planResume _ => runOnly planResumeReq
  | .planStage _ => runOnly planStageOp
  | .setMode _ n mode fixedPush => forOven n (setModeOp n mode fixedPush)
  | .setModeRange _ first last mode fixedPush => runOnly (setModeRangeOp first last mode fixedPush)
  | .rangeAbort _ => runOnly rangeAbortOp
  | .clearBreach _ n => forOven n (clearBreachOp n)
  | .pushRetry _ n => runOnly (pushRetryOp n)
  | .abandon _ n => runOnly (abandonOp n)
  | .leakReport _ n side => runOnly (leakReportOp n side)
  | .setDamper _ k value => forSection k (setDamperOp k value)
  | .setAuto _ k => forSection k (setAutoOp k)
  | .setSetpoint _ k value => forSection k (setSetpointOp k value)
  | .trackBlock _ first last => trackBlockOp first last
  | .trackFree _ first last => trackFreeOp first last
  | .setOutput _ t level => setOutputOp t level
  | .toggle _ t => writeOutput t fun b => !b
  | .clearTerminal _ t => clearTerminalOp t
  | .linkClear _ l => linkClearOp l
  | .linkTest _ l => forMLink l fun m s => s.linkTestOp m
  | .testRead _ l => forMLink l fun m s => s.testReadOp m
  | .testEnd _ l => forMLink l fun m s => s.testEndOp m
  | .commit _ => commitOp
  | .restart _ => restartOp
  | .statusQuery _ => statusAnswer
  | .timeQuery _ => timeAnswer
  | .ovenQuery _ n => ovenAnswer n
  | .planQuery _ => planAnswer
  | .slotQuery _ i => slotAnswer i
  | .machinesQuery _ => machinesAnswer
  | .pushQuery _ => pushAnswerOf
  | .doorQuery _ n => doorAnswer n
  | .tasksQuery _ d => tasksAnswer d
  | .sectionQuery _ k => sectionAnswer k
  | .valvesQuery _ n => valvesAnswer n
  | .quenchQuery _ => quenchAnswer
  | .terminalsQuery _ t => terminalsAnswer t
  | _ => fun s => s.refuse .format

/-- What a machine's frame does, once it is taken (R174). -/
def frameEffect : Instr → State → State
  | .status sender mode motion spot => fun s => s.takeStatus sender mode motion spot
  | .requestDoorOffPs m n => fun s => s.decideRequest m (.known .doorOffPs) n
  | .requestDoorOffCs m n => fun s => s.decideRequest m (.known .doorOffCs) n
  | .requestPush m n => fun s => s.decideRequest m (.known .push) n
  | .requestCharge m n => fun s => s.decideRequest m (.known .charge) n
  | .doorOff m n side => fun s =>
      match s.doorReportSide m n side with
      | some d => s.takeDoorOff m d n
      | none => s.reject m .doorOff (some n)
  | .doorOn m n side => fun s =>
      match s.doorReportSide m n side with
      | some d => s.takeDoorOn d n
      | none => s.reject m .doorOn (some n)
  | .doorTight m n side => fun s =>
      match s.doorReportSide m n side with
      | some d => s.doorTightFact n d
      | none => s.reject m .doorTight (some n)
  | .ramStart m n => fun s => if m = .pm ∧ s.ovenOk n then s.takeRamStart n else s.reject m .ramStart (some n)
  | .ramAtEnd m n => fun s => if m = .pm ∧ s.ovenOk n then s.takeRamAtEnd n else s.reject m .ramAtEnd (some n)
  | .ramHome m n => fun s => if m = .pm ∧ s.ovenOk n then s.takeRamHome n else s.reject m .ramHome (some n)
  | .chargeStart m n => fun s => if m = .cc ∧ s.ovenOk n then s.takeChargeStart n else s.reject m .chargeStart (some n)
  | .chargeEnd m n => fun s => if m = .cc ∧ s.ovenOk n then s.chargeEndFact n else s.reject m .chargeEnd (some n)
  | .valve m n v => fun s =>
      if m = .cc ∧ s.ovenOk n then
        match v with
        | some .unknown => s.reject m .valve (some n)
        | some v => s.valveReport n v
        | none => s.reject m .valve (some n)
      else s.reject m .valve (some n)
  | .leakSeen m n side => fun s =>
      match s.doorReportSide m n side with
      | some d => s.leakAt n d
      | none => s.reject m .leakSeen (some n)
  | .taskDone m n k r => fun s =>
      match m with
      | .pm => s.taskDoneOp .ps n k r
      | .gc => s.taskDoneOp .cs n k r
      | .qc => s.reject .qc .taskDone (some n)
  | .ccTaskDone n a r => fun s => s.ccDone n a r
  | .dumpDone m b => fun s => if m = .qc then s.takeDumpDone b else s.reject m .dumpDone none
  | _ => id

/-- A frame that carries a tag is a request with its body. -/
theorem runFrame_request {c : Instr} {g : Byte} (h : requestTag c = some g) (s : State) :
    runFrame c s = request g (requestEffect c) s := by
  cases c <;> cases h <;> rfl

/-- A frame that a machine sends is taken on its link with its body. -/
theorem runFrame_machine {c : Instr} {m : MachineId} (h : senderOf c = some m) (s : State) :
    runFrame c s = machineFrame m (frameEffect c) s := by
  cases c <;> cases h <;> rfl

/-- A request taken with room among the answers: its event is its body on the state with the frame heard, and its answer. -/
theorem exec_request {c : Instr} {g : Byte} (h : requestTag c = some g) {s : State} (room : s.room) :
    exec c s = ends ((requestEffect c s.supervisorHeard).1.pushAnswer g (requestEffect c s.supervisorHeard).2) := by
  have frame : exec c s = ends (runFrame c s) := by cases c <;> cases h <;> rfl
  rw [frame, runFrame_request h, request_taken room]

/-- A machine's frame on a link that is in no test: its event is its body on the state with the frame heard. -/
theorem exec_machineFrame {c : Instr} {m : MachineId} (h : senderOf c = some m) {s : State} (untested : s.untested m) :
    exec c s = ends (frameEffect c (s.heardFrom m)) := by
  have frame : exec c s = ends (runFrame c s) := by cases c <;> cases h <;> rfl
  rw [frame, runFrame_machine h, machineFrame_taken untested]
  rfl

/-- Of the commands that a frame carries, one that has no tag and no sender changes nothing. -/
theorem runFrame_other {c : Instr} (untagged : requestTag c = none) (unsent : senderOf c = none) (s : State) :
    runFrame c s = s := by
  cases c <;> simp_all [requestTag, senderOf, runFrame]

/-! ## A property that every effect and the end of the event keep -/

/-- What every effect, the end of an event and an idle step keep, a step keeps. -/
theorem step_keeps {P : State → Prop} (pending : ∀ (s : State) (q : List Instr), P s → P { s with pending := q })
    (keeps : ∀ (c : Instr) (s : State), P s → P (effect c s)) (settles : ∀ s : State, P s → P s.settle)
    (idles : ∀ s : State, P s → P s.idle) {s t : State} (h : P s) (hstep : step s = .next t) : P t := by
  unfold step at hstep
  split at hstep
  · obtain rfl := Host.Outcome.next.inj hstep
    exact idles s h
  next c rest _ =>
    obtain ⟨rfl, rfl⟩ | ⟨-, rfl⟩ := exec_next hstep
    · exact keeps .hardReset _ (pending s rest h)
    · exact settles _ (keeps c _ (pending s rest h))

theorem effect_inv (c : Instr) (s : State) (h : Inv s) : Inv (effect c s) := by
  have frame := runFrame_inv h c
  cases c with
  | hardReset => exact doHardReset_inv h
  | controlTick => exact doControlTick_inv h
  | oneSecondTick => exact doOneSecondTick_inv h
  | inspectionAccrual d => exact doInspectionAccrual_inv h d
  | readyExpiry n => exact doReadyExpiry_inv h n
  | overdueExpiry n => exact doOverdueExpiry_inv h n
  | dueExpiry => exact doDueExpiry_inv h
  | holdOverExpiry => exact doHoldOverExpiry_inv h
  | rangeStepEnd => exact doRangeStepEnd_inv h
  | useDeadlineExpiry m => exact doUseDeadlineExpiry_inv h m
  | tRamExpiry => exact doTRamExpiry_inv h
  | stageTimerExpiry => exact doStageTimerExpiry_inv h
  | confirmExpiry n d => exact doConfirmExpiry_inv h n d
  | taskTimerExpiry d => exact doTaskTimerExpiry_inv h d
  | roundVisitTimerExpiry d => exact doRoundVisitTimerExpiry_inv h d
  | isolateTimerExpiry => exact doIsolateTimerExpiry_inv h
  | valveTaskTimerExpiry => exact doValveTaskTimerExpiry_inv h
  | chargeTimerExpiry n => exact doChargeTimerExpiry_inv h n
  | moveTimerExpiry => exact doMoveTimerExpiry_inv h
  | hotTimerExpiry => exact doHotTimerExpiry_inv h
  | sprayTimerExpiry => exact doSprayTimerExpiry_inv h
  | drainTimerExpiry => exact doDrainTimerExpiry_inv h
  | coolTimerExpiry b => exact doCoolTimerExpiry_inv h b
  | gateTimerExpiry => exact doGateTimerExpiry_inv h
  | mLinkSilenceExpiry m => exact doMLinkSilenceExpiry_inv h m
  | sLinkSilenceExpiry => exact doSLinkSilenceExpiry_inv h
  | characterGapExpiry l => exact doCharacterGapExpiry_inv h l
  | characterReceived l wave => exact doCharacterReceived_inv h l wave
  | testCharacter m wave => exact doTestCharacter_inv h m wave
  | sLinkFrameSent => exact doSLinkFrameSent_inv h
  | mLinkFrameSent m => exact doMLinkFrameSent_inv h m
  | inputLevelChange t energised => exact doInputLevelChange_inv h t energised
  | terminalOverload t => exact doTerminalOverload_inv h t
  | pressInPulseEdge t => exact doPressInPulseEdge_inv h t
  | damperPwmPeriodStart t => exact doDamperPwmPeriodStart_inv h t
  | _ => exact frame

theorem effect_hold (c : Instr) (s : State) (h : HoldSafe s) : HoldSafe (effect c s) := by
  have frame := runFrame_hold h c
  cases c with
  | hardReset => exact doHardReset_hold h
  | controlTick => exact doControlTick_hold h
  | oneSecondTick => exact doOneSecondTick_hold h
  | inspectionAccrual d => exact doInspectionAccrual_hold h d
  | readyExpiry n => exact doReadyExpiry_hold h n
  | overdueExpiry n => exact doOverdueExpiry_hold h n
  | dueExpiry => exact doDueExpiry_hold h
  | holdOverExpiry => exact doHoldOverExpiry_hold h
  | rangeStepEnd => exact doRangeStepEnd_hold h
  | useDeadlineExpiry m => exact doUseDeadlineExpiry_hold h m
  | tRamExpiry => exact doTRamExpiry_hold h
  | stageTimerExpiry => exact doStageTimerExpiry_hold h
  | confirmExpiry n d => exact doConfirmExpiry_hold h n d
  | taskTimerExpiry d => exact doTaskTimerExpiry_hold h d
  | roundVisitTimerExpiry d => exact doRoundVisitTimerExpiry_hold h d
  | isolateTimerExpiry => exact doIsolateTimerExpiry_hold h
  | valveTaskTimerExpiry => exact doValveTaskTimerExpiry_hold h
  | chargeTimerExpiry n => exact doChargeTimerExpiry_hold h n
  | moveTimerExpiry => exact doMoveTimerExpiry_hold h
  | hotTimerExpiry => exact doHotTimerExpiry_hold h
  | sprayTimerExpiry => exact doSprayTimerExpiry_hold h
  | drainTimerExpiry => exact doDrainTimerExpiry_hold h
  | coolTimerExpiry b => exact doCoolTimerExpiry_hold h b
  | gateTimerExpiry => exact doGateTimerExpiry_hold h
  | mLinkSilenceExpiry m => exact doMLinkSilenceExpiry_hold h m
  | sLinkSilenceExpiry => exact doSLinkSilenceExpiry_hold h
  | characterGapExpiry l => exact doCharacterGapExpiry_hold h l
  | characterReceived l wave => exact doCharacterReceived_hold h l wave
  | testCharacter m wave => exact doTestCharacter_hold h m wave
  | sLinkFrameSent => exact doSLinkFrameSent_hold h
  | mLinkFrameSent m => exact doMLinkFrameSent_hold h m
  | inputLevelChange t energised => exact doInputLevelChange_hold h t energised
  | terminalOverload t => exact doTerminalOverload_hold h t
  | pressInPulseEdge t => exact doPressInPulseEdge_hold h t
  | damperPwmPeriodStart t => exact doDamperPwmPeriodStart_hold h t
  | _ => exact frame

theorem effect_carSafe (c : Instr) (s : State) (h : CarSafe s) : CarSafe (effect c s) := by
  have frame := runFrame_carSafe h c
  cases c with
  | hardReset => exact doHardReset_carSafe h
  | controlTick => exact doControlTick_carSafe h
  | oneSecondTick => exact doOneSecondTick_carSafe h
  | inspectionAccrual d => exact doInspectionAccrual_carSafe h d
  | readyExpiry n => exact doReadyExpiry_carSafe h n
  | overdueExpiry n => exact doOverdueExpiry_carSafe h n
  | dueExpiry => exact doDueExpiry_carSafe h
  | holdOverExpiry => exact doHoldOverExpiry_carSafe h
  | rangeStepEnd => exact doRangeStepEnd_carSafe h
  | useDeadlineExpiry m => exact doUseDeadlineExpiry_carSafe h m
  | tRamExpiry => exact doTRamExpiry_carSafe h
  | stageTimerExpiry => exact doStageTimerExpiry_carSafe h
  | confirmExpiry n d => exact doConfirmExpiry_carSafe h n d
  | taskTimerExpiry d => exact doTaskTimerExpiry_carSafe h d
  | roundVisitTimerExpiry d => exact doRoundVisitTimerExpiry_carSafe h d
  | isolateTimerExpiry => exact doIsolateTimerExpiry_carSafe h
  | valveTaskTimerExpiry => exact doValveTaskTimerExpiry_carSafe h
  | chargeTimerExpiry n => exact doChargeTimerExpiry_carSafe h n
  | moveTimerExpiry => exact doMoveTimerExpiry_carSafe h
  | hotTimerExpiry => exact doHotTimerExpiry_carSafe h
  | sprayTimerExpiry => exact doSprayTimerExpiry_carSafe h
  | drainTimerExpiry => exact doDrainTimerExpiry_carSafe h
  | coolTimerExpiry b => exact doCoolTimerExpiry_carSafe h b
  | gateTimerExpiry => exact doGateTimerExpiry_carSafe h
  | mLinkSilenceExpiry m => exact doMLinkSilenceExpiry_carSafe h m
  | sLinkSilenceExpiry => exact doSLinkSilenceExpiry_carSafe h
  | characterGapExpiry l => exact doCharacterGapExpiry_carSafe h l
  | characterReceived l wave => exact doCharacterReceived_carSafe h l wave
  | testCharacter m wave => exact doTestCharacter_carSafe h m wave
  | sLinkFrameSent => exact doSLinkFrameSent_carSafe h
  | mLinkFrameSent m => exact doMLinkFrameSent_carSafe h m
  | inputLevelChange t energised => exact doInputLevelChange_carSafe h t energised
  | terminalOverload t => exact doTerminalOverload_carSafe h t
  | pressInPulseEdge t => exact doPressInPulseEdge_carSafe h t
  | damperPwmPeriodStart t => exact doDamperPwmPeriodStart_carSafe h t
  | _ => exact frame

/-! ## The invariants -/

/-- The queue of commands is in no range or shape of `Inv`. -/
theorem Inv.withPending {s : State} (h : Inv s) (q : List Instr) : Inv { s with pending := q } :=
  ⟨h.tb, h.ot, h.pln, h.ilk, h.dru, h.ofu, h.qnu, h.trm, h.lnk, h.cfg, h.tables⟩

/-- Settles O10: every effect, the end of an event and an idle step keep `Inv`. -/
theorem invKept : Obligations.InvKept := by
  unfold Obligations.InvKept
  exact fun s t h hstep => step_keeps (fun _ q h => h.withPending q) effect_inv (fun _ => settle_inv) (fun _ => idle_inv) h hstep

/-- Settles O11: every effect, the end of an event and an idle step keep `HoldSafe`. -/
theorem noPermitUnderHoldKept : Obligations.NoPermitUnderHoldKept := by
  unfold Obligations.NoPermitUnderHoldKept
  exact fun s t h hstep => step_keeps (fun _ _ h => h) effect_hold (fun _ => settle_hold) (fun _ => idle_hold) h hstep

/-- Settles O12: every effect, the end of an event and an idle step keep `CarSafe`. -/
theorem loadFollowsCarKept : Obligations.LoadFollowsCarKept := by
  unfold Obligations.LoadFollowsCarKept
  exact fun s t h hstep => step_keeps (fun _ _ h => h) effect_carSafe (fun _ => settle_carSafe) (fun _ => idle_carSafe) h hstep

/-! ## The step -/

/-- Settles O1: the step's own match on the queue. -/
theorem stepRunsTheFrontCommand : Obligations.StepRunsTheFrontCommand := by
  unfold Obligations.StepRunsTheFrontCommand
  intro c rest s h
  simp [step, h]

end Sys2Proof.Machine
end

section
/-! SUPPORT. Which permits can stand in the table after each operation: no operation but a grant enters one. -/

namespace Sys2Proof.Machine

open Sys2Proof

/-- Each place of a permit table is empty or holds what the table `q` holds there. -/
def Within (q p : Quad (Option Permit)) : Prop := ∀ m, p.get m = none ∨ p.get m = q.get m

theorem Within.refl (q : Quad (Option Permit)) : Within q q := fun _ => .inr rfl

@[simp] theorem Within.set_none {q p : Quad (Option Permit)} (h : Within q p) (m : MachineId) : Within q (p.set m none) := by
  intro k
  rw [Quad.get_set]
  split
  · exact .inl rfl
  · exact h k

namespace State

@[simp] theorem revoke_within {q : Quad (Option Permit)} {s : State}
    (h : Within q s.ilk.permits) (m : MachineId) (r : Reason) :
    Within q (s.revoke m r).ilk.permits := by
  unfold revoke
  dsimp only
  (repeat' split) <;> simp [h]

@[simp] theorem revokeAll_within {q : Quad (Option Permit)} {s : State} (h : Within q s.ilk.permits) (r : Reason) :
    Within q (s.revokeAll r).ilk.permits := by
  exact revoke_within (revoke_within (revoke_within h _ _) _ _) _ _

@[simp] theorem retestOne_within {q : Quad (Option Permit)} {s : State} (h : Within q s.ilk.permits) (m : MachineId) :
    Within q (s.retestOne m).ilk.permits := by
  unfold retestOne
  (repeat' split) <;> simp [h]

@[simp] theorem retest_within {q : Quad (Option Permit)} {s : State} (h : Within q s.ilk.permits) :
    Within q s.retest.ilk.permits := by
  exact retestOne_within (retestOne_within (retestOne_within h _) _) _

@[simp] theorem usePermit_within {q : Quad (Option Permit)} {s : State} (h : Within q s.ilk.permits) (m : MachineId) :
    Within q (s.usePermit m).ilk.permits := by
  unfold usePermit
  simp [h]

@[simp] theorem sendCar_within {q : Quad (Option Permit)} {s : State} (h : Within q s.ilk.permits) (c : CarState) :
    Within q (s.sendCar c).ilk.permits := by
  unfold sendCar
  simp [h]

@[simp] theorem settleCar_within {q : Quad (Option Permit)} {s : State} (h : Within q s.ilk.permits) (c : CarState) :
    Within q (s.settleCar c).ilk.permits := by
  unfold settleCar
  simp [h]

@[simp] theorem sendOnward_within {q : Quad (Option Permit)} {s : State} (h : Within q s.ilk.permits) :
    Within q s.sendOnward.ilk.permits := by
  unfold sendOnward
  dsimp only
  (repeat' split) <;> simp [h]

@[simp] theorem reconsiderCar_within {q : Quad (Option Permit)} {s : State} (h : Within q s.ilk.permits) (b : Nat) :
    Within q (s.reconsiderCar b).ilk.permits := by
  unfold reconsiderCar
  (repeat' split) <;> simp [h]

@[simp] theorem reconsiderNext_within {q : Quad (Option Permit)} {s : State} (h : Within q s.ilk.permits) :
    Within q s.reconsiderNext.ilk.permits := by
  unfold reconsiderNext
  (repeat' split) <;> simp [h]

@[simp] theorem leaveUnknown_within {q : Quad (Option Permit)} {s : State} (h : Within q s.ilk.permits) :
    Within q s.leaveUnknown.ilk.permits := by
  unfold leaveUnknown
  (repeat' split) <;> simp [h]

@[simp] theorem chooseBay_within {q : Quad (Option Permit)} {s : State} (h : Within q s.ilk.permits) :
    Within q s.chooseBay.ilk.permits := by
  unfold chooseBay
  dsimp only
  (repeat' split) <;> simp [h]

@[simp] theorem gateEnd_within {q : Quad (Option Permit)} {s : State} (h : Within q s.ilk.permits) (b : Nat) :
    Within q (s.gateEnd b).ilk.permits := by
  unfold gateEnd
  dsimp only
  (repeat' split) <;> simp [h]

@[simp] theorem ramStartCar_within {q : Quad (Option Permit)} {s : State} (h : Within q s.ilk.permits) (n : Nat) :
    Within q (s.ramStartCar n).ilk.permits := by
  unfold ramStartCar
  (repeat' split) <;> simp [h]

@[simp] theorem stickerCar_within {q : Quad (Option Permit)} {s : State} (h : Within q s.ilk.permits) (n : Nat) :
    Within q (s.stickerCar n).ilk.permits := by
  unfold stickerCar
  (repeat' split) <;> simp [h]

@[simp] theorem ramEndCar_within {q : Quad (Option Permit)} {s : State} (h : Within q s.ilk.permits) (n t : Nat) :
    Within q (s.ramEndCar n t).ilk.permits := by
  unfold ramEndCar
  dsimp only
  (repeat' split) <;> simp [h]

@[simp] theorem arrive_within {q : Quad (Option Permit)} {s : State} (h : Within q s.ilk.permits) :
    Within q s.arrive.ilk.permits := by
  unfold arrive
  dsimp only
  (repeat' split) <;> simp [h]

@[simp] theorem checkEmptyPlace_within {q : Quad (Option Permit)} {s : State}
    (h : Within q s.ilk.permits) (spot : Option ReportedSpot) :
    Within q (s.checkEmptyPlace spot).ilk.permits := by
  unfold checkEmptyPlace
  dsimp only
  (repeat' split) <;> simp [h]

@[simp] theorem followLocal_within {q : Quad (Option Permit)} {s : State}
    (h : Within q s.ilk.permits) (stopped : Option CarSpot) :
    Within q (s.followLocal stopped).ilk.permits := by
  unfold followLocal
  (repeat' split) <;> simp [h]

@[simp] theorem qcStatus_within {q : Quad (Option Permit)} {s : State}
    (h : Within q s.ilk.permits) (oldMode : Option Mode) (stopped : Option CarSpot) (spot : ReportedSpot) :
    Within q (s.qcStatus oldMode stopped spot).ilk.permits := by
  unfold qcStatus
  dsimp only
  (repeat' split) <;> simp [h]

@[simp] theorem qcOffline_within {q : Quad (Option Permit)} {s : State} (h : Within q s.ilk.permits) :
    Within q s.qcOffline.ilk.permits := by
  unfold qcOffline
  dsimp only
  (repeat' split) <;> simp [h]

@[simp] theorem planReport_within {q : Quad (Option Permit)} {s : State} (h : Within q s.ilk.permits) :
    Within q s.planReport.ilk.permits := by
  unfold planReport
  dsimp only
  (repeat' split) <;> simp [h]

@[simp] theorem planUpdate_within {q : Quad (Option Permit)} {s : State} (h : Within q s.ilk.permits) :
    Within q s.planUpdate.ilk.permits := by
  unfold planUpdate
  simp [h]

@[simp] theorem planOvenChanged_within {q : Quad (Option Permit)} {s : State} (h : Within q s.ilk.permits) (n : Nat) :
    Within q (s.planOvenChanged n).ilk.permits := by
  unfold planOvenChanged
  dsimp only
  (repeat' split) <;> simp [h]

@[simp] theorem writeMode_within {q : Quad (Option Permit)} {s : State}
    (h : Within q s.ilk.permits) (n : Nat) (mode : SlotMode) (fixedPush : Option Nat) :
    Within q (s.writeMode n mode fixedPush).ilk.permits := by
  unfold writeMode
  dsimp only
  (repeat' split) <;> simp [h]

@[simp] theorem planHalt_within {q : Quad (Option Permit)} {s : State} (h : Within q s.ilk.permits) :
    Within q s.planHalt.ilk.permits := by
  unfold planHalt
  dsimp only
  (repeat' split) <;> simp [h]

@[simp] theorem planPushBegins_within {q : Quad (Option Permit)} {s : State} (h : Within q s.ilk.permits) (n : Nat) :
    Within q (s.planPushBegins n).ilk.permits := by
  unfold planPushBegins
  (repeat' split) <;> simp [h]

@[simp] theorem planRamStart_within {q : Quad (Option Permit)} {s : State} (h : Within q s.ilk.permits) (n : Nat) :
    Within q (s.planRamStart n).ilk.permits := by
  unfold planRamStart
  (repeat' split) <;> simp [h]

@[simp] theorem planPushComplete_within {q : Quad (Option Permit)} {s : State} (h : Within q s.ilk.permits) (n : Nat) :
    Within q (s.planPushComplete n).ilk.permits := by
  unfold planPushComplete
  (repeat' split) <;> simp [h]

@[simp] theorem planAbandon_within {q : Quad (Option Permit)} {s : State} (h : Within q s.ilk.permits) (n : Nat) :
    Within q (s.planAbandon n).ilk.permits := by
  unfold planAbandon
  (repeat' split) <;> simp [h]

@[simp] theorem planReturn_within {q : Quad (Option Permit)} {s : State} (h : Within q s.ilk.permits) :
    Within q s.planReturn.ilk.permits := by
  unfold planReturn
  (repeat' split) <;> simp [h]

@[simp] theorem planResumeOp_within {q : Quad (Option Permit)} {s : State} (h : Within q s.ilk.permits) :
    Within q s.planResumeOp.ilk.permits := by
  unfold planResumeOp
  dsimp only
  (repeat' split) <;> simp [h]

@[simp] theorem rangeStep_within {q : Quad (Option Permit)} {s : State} (h : Within q s.ilk.permits) (r : RangeOp) :
    Within q (s.rangeStep r).ilk.permits := by
  unfold rangeStep
  dsimp only
  (repeat' split) <;> simp [h]

@[simp] theorem ovenChanged_within {q : Quad (Option Permit)} {s : State} (h : Within q s.ilk.permits) (n : Nat) :
    Within q (s.ovenChanged n).ilk.permits := by
  unfold ovenChanged
  simp [h]

@[simp] theorem evalReady_within {q : Quad (Option Permit)} {s : State} (h : Within q s.ilk.permits) (n : Nat) :
    Within q (s.evalReady n).ilk.permits := by
  unfold evalReady
  (repeat' split) <;> simp [h]

@[simp] theorem sweepOvens_within {q : Quad (Option Permit)} {s : State} (h : Within q s.ilk.permits) (l : List Nat) :
    Within q (sweepOvens l s).ilk.permits := by
  induction l generalizing s with
  | nil => exact h
  | cons n l ih => exact ih (by simp [h])

@[simp] theorem readySweep_within {q : Quad (Option Permit)} {s : State} (h : Within q s.ilk.permits) :
    Within q s.readySweep.ilk.permits := by
  unfold readySweep
  simp [h]

@[simp] theorem assumeEnd_within {q : Quad (Option Permit)} {s : State} (h : Within q s.ilk.permits) (m : Nat) :
    Within q (s.assumeEnd m).ilk.permits := by
  unfold assumeEnd
  simp [h]

@[simp] theorem chargeFact_within {q : Quad (Option Permit)} {s : State} (h : Within q s.ilk.permits) (n : Nat) :
    Within q (s.chargeFact n).ilk.permits := by
  unfold chargeFact
  dsimp only
  (repeat' split) <;> simp [h]

@[simp] theorem chargeEndFact_within {q : Quad (Option Permit)} {s : State} (h : Within q s.ilk.permits) (n : Nat) :
    Within q (s.chargeEndFact n).ilk.permits := by
  unfold chargeEndFact
  (repeat' split) <;> simp [h]

@[simp] theorem valveReport_within {q : Quad (Option Permit)} {s : State}
    (h : Within q s.ilk.permits) (n : Nat) (v : ValveState) :
    Within q (s.valveReport n v).ilk.permits := by
  unfold valveReport
  dsimp only
  (repeat' split) <;> simp [h]

@[simp] theorem enterLeaking_within {q : Quad (Option Permit)} {s : State}
    (h : Within q s.ilk.permits) (n : Nat) (d : Side) :
    Within q (s.enterLeaking n d).ilk.permits := by
  unfold enterLeaking
  dsimp only
  (repeat' split) <;> simp [h]

@[simp] theorem leakAt_within {q : Quad (Option Permit)} {s : State} (h : Within q s.ilk.permits) (n : Nat) (d : Side) :
    Within q (s.leakAt n d).ilk.permits := by
  unfold leakAt
  (repeat' split) <;> simp [h]

@[simp] theorem doorTight_within {q : Quad (Option Permit)} {s : State}
    (h : Within q s.ilk.permits) (n : Nat) (d : Side) :
    Within q (s.doorTight n d).ilk.permits := by
  unfold doorTight
  dsimp only
  simp [h]

@[simp] theorem doorGoesOff_within {q : Quad (Option Permit)} {s : State}
    (h : Within q s.ilk.permits) (n : Nat) (d : Side) :
    Within q (s.doorGoesOff n d).ilk.permits := by
  unfold doorGoesOff
  dsimp only
  (repeat' split) <;> simp [h]

@[simp] theorem doorOnFact_within {q : Quad (Option Permit)} {s : State}
    (h : Within q s.ilk.permits) (n : Nat) (d : Side) :
    Within q (s.doorOnFact n d).1.ilk.permits := by
  unfold doorOnFact
  (repeat' split) <;> simp [h]

@[simp] theorem doorTightFact_within {q : Quad (Option Permit)} {s : State}
    (h : Within q s.ilk.permits) (n : Nat) (d : Side) :
    Within q (s.doorTightFact n d).ilk.permits := by
  unfold doorTightFact
  (repeat' split) <;> simp [h]

@[simp] theorem applyResult_within {q : Quad (Option Permit)} {s : State}
    (h : Within q s.ilk.permits) (d : Side) (n : Nat) (k : TaskKind) (r : TaskResult) :
    Within q (s.applyResult d n k r).ilk.permits := by
  unfold applyResult
  dsimp only
  (repeat' split) <;> simp [h]

@[simp] theorem visitDone_within {q : Quad (Option Permit)} {s : State}
    (h : Within q s.ilk.permits) (d : Side) (n : Nat) :
    Within q (s.visitDone d n).ilk.permits := by
  unfold visitDone
  (repeat' split) <;> simp [h]

@[simp] theorem taskDoneOp_within {q : Quad (Option Permit)} {s : State}
    (h : Within q s.ilk.permits) (d : Side) (n : Nat) (k : TaskKind) (r : TaskResult) :
    Within q (s.taskDoneOp d n k r).ilk.permits := by
  unfold taskDoneOp
  (repeat' split) <;> simp [h]

@[simp] theorem accrue_within {q : Quad (Option Permit)} {s : State} (h : Within q s.ilk.permits) (d : Side) :
    Within q (s.accrue d).ilk.permits := by
  unfold accrue
  dsimp only
  (repeat' split) <;> simp [h]

@[simp] theorem sticker_within {q : Quad (Option Permit)} {s : State} (h : Within q s.ilk.permits) (p : PushRec) :
    Within q (s.sticker p).ilk.permits := by
  unfold sticker
  dsimp only
  simp [h]

@[simp] theorem stageExpire_within {q : Quad (Option Permit)} {s : State} (h : Within q s.ilk.permits) (p : PushRec) :
    Within q (s.stageExpire p).ilk.permits := by
  unfold stageExpire
  (repeat' split) <;> simp [h]

@[simp] theorem resumeTimer_within {q : Quad (Option Permit)} {s : State} (h : Within q s.ilk.permits) :
    Within q s.resumeTimer.ilk.permits := by
  unfold resumeTimer
  dsimp only
  (repeat' split) <;> simp [h]

@[simp] theorem pushRemoved_within {q : Quad (Option Permit)} {s : State} (h : Within q s.ilk.permits) (n : Nat) :
    Within q (s.pushRemoved n).ilk.permits := by
  unfold pushRemoved
  dsimp only
  (repeat' split) <;> simp [h]

@[simp] theorem pushComplete_within {q : Quad (Option Permit)} {s : State} (h : Within q s.ilk.permits) (p : PushRec) :
    Within q (s.pushComplete p).ilk.permits := by
  unfold pushComplete
  dsimp only
  (repeat' split) <;> simp [h]

@[simp] theorem completionTest_within {q : Quad (Option Permit)} {s : State} (h : Within q s.ilk.permits) :
    Within q s.completionTest.ilk.permits := by
  unfold completionTest
  (repeat' split) <;> simp [h]

@[simp] theorem followRam_within {q : Quad (Option Permit)} {s : State} (h : Within q s.ilk.permits) (n : Nat) :
    Within q (s.followRam n).ilk.permits := by
  unfold followRam
  simp [h]

@[simp] theorem takeRamEnd_within {q : Quad (Option Permit)} {s : State}
    (h : Within q s.ilk.permits) (p : PushRec) (derived : Bool) :
    Within q (s.takeRamEnd p derived).ilk.permits := by
  unfold takeRamEnd
  simp [h]

@[simp] theorem enterClosing_within {q : Quad (Option Permit)} {s : State}
    (h : Within q s.ilk.permits) (p : PushRec) (derived : Bool) :
    Within q (s.enterClosing p derived).ilk.permits := by
  unfold enterClosing
  simp [h]

@[simp] theorem rederiveStage_within {q : Quad (Option Permit)} {s : State} (h : Within q s.ilk.permits) (p : PushRec) :
    Within q (s.rederiveStage p).ilk.permits := by
  unfold rederiveStage
  dsimp only
  (repeat' split) <;> simp [h]

@[simp] theorem rederive_within {q : Quad (Option Permit)} {s : State} (h : Within q s.ilk.permits) (p : PushRec) :
    Within q (s.rederive p).ilk.permits := by
  have tested := completionTest_within (rederiveStage_within h p)
  unfold rederive
  dsimp only
  split
  · exact tested
  · split <;> simp [tested]

@[simp] theorem pushRegains_within {q : Quad (Option Permit)} {s : State}
    (h : Within q s.ilk.permits) (m : MachineId) (became : Bool) :
    Within q (s.pushRegains m became).ilk.permits := by
  unfold pushRegains
  dsimp only
  (repeat' split) <;> simp [h]

@[simp] theorem stopSets_within {q : Quad (Option Permit)} {s : State} (h : Within q s.ilk.permits) :
    Within q s.stopSets.ilk.permits := by
  unfold stopSets
  dsimp only
  (repeat' split) <;> simp [h]

@[simp] theorem stopClears_within {q : Quad (Option Permit)} {s : State} (h : Within q s.ilk.permits) :
    Within q s.stopClears.ilk.permits := by
  unfold stopClears
  dsimp only
  simp [h]

@[simp] theorem stopFollows_within {q : Quad (Option Permit)} {s : State} (h : Within q s.ilk.permits) (active : Bool) :
    Within q (s.stopFollows active).ilk.permits := by
  unfold stopFollows
  (repeat' split) <;> simp [h]

@[simp] theorem breachBegins_within {q : Quad (Option Permit)} {s : State} (h : Within q s.ilk.permits) (n : Nat) :
    Within q (s.breachBegins n).ilk.permits := by
  unfold breachBegins
  simp [h]

@[simp] theorem breachEnds_within {q : Quad (Option Permit)} {s : State}
    (h : Within q s.ilk.permits) (n : Nat) (m : MachineId) (rep : ReportName) (held : Option Permit) :
    Within q (s.breachEnds n m rep held).ilk.permits := by
  unfold breachEnds
  simp [h]

@[simp] theorem alarmEval_within {q : Quad (Option Permit)} {s : State}
    (h : Within q s.ilk.permits) (k : Nat) (p : Int) :
    Within q (s.alarmEval k p).ilk.permits := by
  unfold alarmEval
  dsimp only
  (repeat' split) <;> simp [h]

@[simp] theorem endSection_within {q : Quad (Option Permit)} {s : State} (h : Within q s.ilk.permits) (k : Nat) :
    Within q (s.endSection k).ilk.permits := by
  unfold endSection
  dsimp only
  (repeat' split) <;> simp [h]

@[simp] theorem endSections_within {q : Quad (Option Permit)} {s : State} (h : Within q s.ilk.permits) (l : List Nat) :
    Within q (endSections l s).ilk.permits := by
  induction l generalizing s with
  | nil => exact h
  | cons k l ih => exact ih (by simp [h])

@[simp] theorem handLevel_within {q : Quad (Option Permit)} {s : State}
    (h : Within q s.ilk.permits) (fn : TermFn) (t : Nat) (e : Edge) (l : Bool) :
    Within q (s.handLevel fn t e l).ilk.permits := by
  unfold handLevel
  (repeat' split) <;> simp [h]

@[simp] theorem inputHolds_within {q : Quad (Option Permit)} {s : State}
    (h : Within q s.ilk.permits) (t : Nat) (energised : Bool) :
    Within q (s.inputHolds t energised).ilk.permits := by
  unfold inputHolds
  dsimp only
  (repeat' split) <;> simp [h]

@[simp] theorem functionLeaves_within {q : Quad (Option Permit)} {s : State}
    (h : Within q s.ilk.permits) (fn : TermFn) (level : Bool) :
    Within q (s.functionLeaves fn level).ilk.permits := by
  unfold functionLeaves
  (repeat' split) <;> simp [h]

@[simp] theorem functionArrives_within {q : Quad (Option Permit)} {s : State}
    (h : Within q s.ilk.permits) (fn : TermFn) (t : Nat) (e : Edge) (level : Bool) :
    Within q (s.functionArrives fn t e level).ilk.permits := by
  unfold functionArrives
  (repeat' split) <;> simp [h]

@[simp] theorem assignTerminal_within {q : Quad (Option Permit)} {s : State}
    (h : Within q s.ilk.permits) (t : Nat) (r : TermRec) (fn : TermFn) (invert : Bool) (drive : Drive) (edge : Edge) :
    Within q (s.assignTerminal t r fn invert drive edge).ilk.permits := by
  unfold assignTerminal
  dsimp only
  (repeat' split) <;> simp [h]

@[simp] theorem handOffline_within {q : Quad (Option Permit)} {s : State} (h : Within q s.ilk.permits) (m : MachineId) :
    Within q (s.handOffline m).ilk.permits := by
  unfold handOffline
  dsimp only
  (repeat' split) <;> simp [h]

@[simp] theorem goOffline_within {q : Quad (Option Permit)} {s : State}
    (h : Within q s.ilk.permits) (m : MachineId) (c : LinkCause) :
    Within q (s.goOffline m c).ilk.permits := by
  unfold goOffline
  dsimp only
  simp [h]

@[simp] theorem handStatus_within {q : Quad (Option Permit)} {s : State}
    (h : Within q s.ilk.permits) (m : MachineId) (became : Bool) (oldMode : Option Mode) (stopped : Option CarSpot) (spot : ReportedSpot) :
    Within q (s.handStatus m became oldMode stopped spot).ilk.permits := by
  have moved : Within q (if m = .qc then s.qcStatus oldMode stopped spot else s).ilk.permits := by
    split <;> simp [h]
  simpa [handStatus] using retest_within (pushRegains_within moved m became)

@[simp] theorem takeStatus_within {q : Quad (Option Permit)} {s : State}
    (h : Within q s.ilk.permits) (sender : StatusFrom) (mode : Mode) (motion : Motion) (spot : ReportedSpot) :
    Within q (s.takeStatus sender mode motion spot).ilk.permits := by
  unfold takeStatus
  dsimp only
  (repeat' split) <;> simp [h]

@[simp] theorem supervisorHeard_within {q : Quad (Option Permit)} {s : State} (h : Within q s.ilk.permits) :
    Within q s.supervisorHeard.ilk.permits := by
  unfold supervisorHeard
  dsimp only
  (repeat' split) <;> simp [h]

@[simp] theorem startTest_within {q : Quad (Option Permit)} {s : State} (h : Within q s.ilk.permits) (m : MachineId) :
    Within q (s.startTest m).ilk.permits := by
  unfold startTest
  dsimp only
  (repeat' split) <;> simp [h]

@[simp] theorem readyExpire_within {q : Quad (Option Permit)} {s : State} (h : Within q s.ilk.permits) (n : Nat) :
    Within q (s.readyExpire n).ilk.permits := by
  unfold readyExpire
  (repeat' split) <;> simp [h]

@[simp] theorem dueExpire_within {q : Quad (Option Permit)} {s : State} (h : Within q s.ilk.permits) :
    Within q s.dueExpire.ilk.permits := by
  unfold dueExpire
  (repeat' split) <;> simp [h]

@[simp] theorem holdOverExpire_within {q : Quad (Option Permit)} {s : State} (h : Within q s.ilk.permits) :
    Within q s.holdOverExpire.ilk.permits := by
  unfold holdOverExpire
  (repeat' split) <;> simp [h]

@[simp] theorem deadlineExpire_within {q : Quad (Option Permit)} {s : State}
    (h : Within q s.ilk.permits) (m : MachineId) :
    Within q (s.deadlineExpire m).ilk.permits := by
  unfold deadlineExpire
  (repeat' split) <;> simp [h]

@[simp] theorem ramTimerExpire_within {q : Quad (Option Permit)} {s : State} (h : Within q s.ilk.permits) :
    Within q s.ramTimerExpire.ilk.permits := by
  unfold ramTimerExpire
  (repeat' split) <;> simp [h]

@[simp] theorem lateTimerExpire_within {q : Quad (Option Permit)} {s : State} (h : Within q s.ilk.permits) :
    Within q s.lateTimerExpire.ilk.permits := by
  unfold lateTimerExpire
  (repeat' split) <;> simp [h]

@[simp] theorem sprayExpire_within {q : Quad (Option Permit)} {s : State} (h : Within q s.ilk.permits) :
    Within q s.sprayExpire.ilk.permits := by
  unfold sprayExpire
  (repeat' split) <;> simp [h]

@[simp] theorem drainExpire_within {q : Quad (Option Permit)} {s : State} (h : Within q s.ilk.permits) :
    Within q s.drainExpire.ilk.permits := by
  unfold drainExpire
  (repeat' split) <;> simp [h]

@[simp] theorem gateExpire_within {q : Quad (Option Permit)} {s : State} (h : Within q s.ilk.permits) :
    Within q s.gateExpire.ilk.permits := by
  unfold gateExpire
  (repeat' split) <;> simp [h]

@[simp] theorem doorOffCovered_within {q : Quad (Option Permit)} {s : State}
    (h : Within q s.ilk.permits) (m : MachineId) (d : Side) (n : Nat) :
    Within q (s.doorOffCovered m d n).ilk.permits := by
  have used := usePermit_within h m
  unfold doorOffCovered
  dsimp only
  split
  · simpa using retest_within (ovenChanged_within (planPushBegins_within (doorGoesOff_within (by simpa using used) n d) n) n)
  · simpa using retest_within (doorGoesOff_within used n d)

@[simp] theorem doorOffBreach_within {q : Quad (Option Permit)} {s : State}
    (h : Within q s.ilk.permits) (m : MachineId) (d : Side) (n : Nat) :
    Within q (s.doorOffBreach m d n).ilk.permits := by
  simpa [doorOffBreach] using breachEnds_within (doorGoesOff_within (breachBegins_within h n) n d) n m .doorOff (s.permit m)

@[simp] theorem takeDoorOff_within {q : Quad (Option Permit)} {s : State}
    (h : Within q s.ilk.permits) (m : MachineId) (d : Side) (n : Nat) :
    Within q (s.takeDoorOff m d n).ilk.permits := by
  unfold takeDoorOff
  (repeat' split) <;> simp [h]

@[simp] theorem takeDoorOn_within {q : Quad (Option Permit)} {s : State}
    (h : Within q s.ilk.permits) (d : Side) (n : Nat) :
    Within q (s.takeDoorOn d n).ilk.permits := by
  have taken := doorOnFact_within h n d
  unfold takeDoorOn
  split
  next t ht =>
    rw [ht] at taken
    simpa using completionTest_within taken
  next t ht =>
    rw [ht] at taken
    exact taken

@[simp] theorem ramStartCovered_within {q : Quad (Option Permit)} {s : State} (h : Within q s.ilk.permits) (n : Nat) :
    Within q (s.ramStartCovered n).ilk.permits := by
  have used := usePermit_within h .pm
  simpa [ramStartCovered] using retest_within (planRamStart_within (followRam_within (s := (s.usePermit .pm).ramStartFact n)
    (by simpa using used) n) n)

@[simp] theorem ramStartBreach_within {q : Quad (Option Permit)} {s : State} (h : Within q s.ilk.permits) (n : Nat) :
    Within q (s.ramStartBreach n).ilk.permits := by
  have begun : Within q ((s.breachBegins n).ramStartFact n).ilk.permits := by simpa using breachBegins_within h n
  unfold ramStartBreach
  dsimp only
  refine retest_within (breachEnds_within ?_ n .pm .ramStart _)
  split
  · split
    · exact followRam_within begun n
    · exact begun
  · exact begun

@[simp] theorem takeRamStart_within {q : Quad (Option Permit)} {s : State} (h : Within q s.ilk.permits) (n : Nat) :
    Within q (s.takeRamStart n).ilk.permits := by
  unfold takeRamStart
  (repeat' split) <;> simp [h]

@[simp] theorem takeRamAtEnd_within {q : Quad (Option Permit)} {s : State} (h : Within q s.ilk.permits) (n : Nat) :
    Within q (s.takeRamAtEnd n).ilk.permits := by
  unfold takeRamAtEnd
  dsimp only
  (repeat' split) <;> simp [h]

@[simp] theorem takeRamHome_within {q : Quad (Option Permit)} {s : State} (h : Within q s.ilk.permits) (n : Nat) :
    Within q (s.takeRamHome n).ilk.permits := by
  unfold takeRamHome
  dsimp only
  (repeat' split) <;> simp [h]

@[simp] theorem takeChargeStart_within {q : Quad (Option Permit)} {s : State} (h : Within q s.ilk.permits) (n : Nat) :
    Within q (s.takeChargeStart n).ilk.permits := by
  unfold takeChargeStart
  split
  · simpa using retest_within (chargeFact_within (usePermit_within h .cc) n)
  · exact breachEnds_within (chargeFact_within (breachBegins_within h n) n) n .cc .chargeStart _

@[simp] theorem takeDumpDone_within {q : Quad (Option Permit)} {s : State} (h : Within q s.ilk.permits) (b : Nat) :
    Within q (s.takeDumpDone b).ilk.permits := by
  unfold takeDumpDone
  dsimp only
  (repeat' split) <;> simp [h]

@[simp] theorem takeTiming_within {q : Quad (Option Permit)} {s : State} (h : Within q s.ilk.permits) (v : Timing) :
    Within q (takeTiming v s).ilk.permits := by
  unfold takeTiming
  dsimp only
  (repeat' split) <;> simp [h]

@[simp] theorem takeTerminal_within {q : Quad (Option Permit)} {s : State}
    (h : Within q s.ilk.permits) (t : Nat) (fn : TermFn) (invert : Bool) (drive : Drive) (edge : Edge) :
    Within q (takeTerminal t fn invert drive edge s).1.ilk.permits := by
  unfold takeTerminal
  (repeat' split) <;> simp [h]

@[simp] theorem moveOven_within {q : Quad (Option Permit)} {s : State}
    (h : Within q s.ilk.permits) (n : Nat) (st : OvenState) :
    Within q (s.moveOven n st).ilk.permits := by
  unfold moveOven
  simp [h]

@[simp] theorem ovenServiceOp_within {q : Quad (Option Permit)} {s : State}
    (h : Within q s.ilk.permits) (n : Nat) (dir : ServiceDir) :
    Within q (ovenServiceOp n dir s).1.ilk.permits := by
  unfold ovenServiceOp
  (repeat' split) <;> simp [h]

@[simp] theorem setTargetOp_within {q : Quad (Option Permit)} {s : State}
    (h : Within q s.ilk.permits) (n target : Nat) :
    Within q (setTargetOp n target s).1.ilk.permits := by
  unfold setTargetOp
  dsimp only
  (repeat' split) <;> simp [h]

@[simp] theorem makeupOp_within {q : Quad (Option Permit)} {s : State} (h : Within q s.ilk.permits) (n : Nat) :
    Within q (makeupOp n s).1.ilk.permits := by
  unfold makeupOp
  (repeat' split) <;> simp [h]

@[simp] theorem cancelMakeupOp_within {q : Quad (Option Permit)} {s : State} (h : Within q s.ilk.permits) (n : Nat) :
    Within q (cancelMakeupOp n s).1.ilk.permits := by
  unfold cancelMakeupOp
  (repeat' split) <;> simp [h]

@[simp] theorem planStartOp_within {q : Quad (Option Permit)} {s : State}
    (h : Within q s.ilk.permits) (start : Option Time32) :
    Within q (planStartOp start s).1.ilk.permits := by
  unfold planStartOp
  dsimp only
  (repeat' split) <;> simp [h]

@[simp] theorem planHaltOp_within {q : Quad (Option Permit)} {s : State} (h : Within q s.ilk.permits) :
    Within q (s.planHaltOp).1.ilk.permits := by
  unfold planHaltOp
  (repeat' split) <;> simp [h]

@[simp] theorem planResumeReq_within {q : Quad (Option Permit)} {s : State} (h : Within q s.ilk.permits) :
    Within q (s.planResumeReq).1.ilk.permits := by
  unfold planResumeReq
  (repeat' split) <;> simp [h]

@[simp] theorem setModeOp_within {q : Quad (Option Permit)} {s : State}
    (h : Within q s.ilk.permits) (n : Nat) (mode : SlotMode) (fixedPush : Option Time32) :
    Within q (setModeOp n mode fixedPush s).1.ilk.permits := by
  unfold setModeOp
  (repeat' split) <;> simp [h]

@[simp] theorem pushRetryOp_within {q : Quad (Option Permit)} {s : State} (h : Within q s.ilk.permits) (n : Nat) :
    Within q (pushRetryOp n s).1.ilk.permits := by
  unfold pushRetryOp
  (repeat' split) <;> simp [h]

@[simp] theorem abandonPush_within {q : Quad (Option Permit)} {s : State} (h : Within q s.ilk.permits) (p : PushRec) :
    Within q (s.abandonPush p).ilk.permits := by
  exact pushRemoved_within (ovenChanged_within (planAbandon_within (by simpa using h) _) _) _

@[simp] theorem abandonOp_within {q : Quad (Option Permit)} {s : State} (h : Within q s.ilk.permits) (n : Nat) :
    Within q (abandonOp n s).1.ilk.permits := by
  unfold abandonOp
  (repeat' split) <;> simp [h]

@[simp] theorem leakReportOp_within {q : Quad (Option Permit)} {s : State}
    (h : Within q s.ilk.permits) (n : Nat) (side : Option Side) :
    Within q (leakReportOp n side s).1.ilk.permits := by
  unfold leakReportOp
  (repeat' split) <;> simp [h]

@[simp] theorem enterRun_within {q : Quad (Option Permit)} {s : State} (h : Within q s.ilk.permits) :
    Within q s.enterRun.ilk.permits := by
  unfold enterRun
  dsimp only
  have swept := readySweep_within
    (s := { ({ s with cfg.part := .run } : State).raise (.partState .run .commit) with tb.timeOpen := false }) (by simpa using h)
  generalize State.readySweep _ = u at swept ⊢
  have cleared : Within q (if u.hold then u else u.sendClears .config).ilk.permits := by
    split <;> simpa using swept
  generalize (if u.hold then u else u.sendClears .config) = v at cleared ⊢
  have tested := retest_within (s := ((v.commitDoors .ps).commitDoors .cs).activateSections) (by simpa using cleared)
  simpa using leaveUnknown_within (s := ((v.commitDoors .ps).commitDoors .cs).activateSections.retest.commitValves)
    (by simpa using tested)

@[simp] theorem commitOp_within {q : Quad (Option Permit)} {s : State} (h : Within q s.ilk.permits) :
    Within q (s.commitOp).1.ilk.permits := by
  unfold commitOp
  (repeat' split) <;> simp [h]

@[simp] theorem enterConfig_within {q : Quad (Option Permit)} {s : State} (h : Within q s.ilk.permits) :
    Within q s.enterConfig.ilk.permits := by
  unfold enterConfig
  dsimp only
  simp [h]

@[simp] theorem restartOp_within {q : Quad (Option Permit)} {s : State} (h : Within q s.ilk.permits) :
    Within q (s.restartOp).1.ilk.permits := by
  unfold restartOp
  (repeat' split) <;> simp [h]

end State

end Sys2Proof.Machine
end

section
/-! SUPPORT. What a command leaves: the queue of commands, the permits it enters none into, the time base, the configuration
store and the terminal records; the statements about them. -/

namespace Sys2Proof.Machine

open Sys2Proof State

/-! ## What every frame keeps -/

/-- What the arrival of a frame, its answer and its body keep, a command that a frame carries keeps. -/
theorem runFrame_keeps {P : State → Prop} (port : ∀ (s : State) (l : LinkId) (f : Port → Port), P s → P (s.updPort l f))
    (heard : ∀ s : State, P s → P s.supervisorHeard)
    (answer : ∀ (s : State) (g : Byte) (r : Reply), P s → P (s.pushAnswer g r)) {c : Instr}
    (request : ∀ t : State, P t → P (requestEffect c t).1) (machine : ∀ t : State, P t → P (frameEffect c t)) {s : State}
    (h : P s) : P (runFrame c s) := by
  cases hg : requestTag c with
  | some g =>
    rw [runFrame_request hg]
    unfold State.request
    split
    · exact port s .sup _ h
    · exact answer _ _ _ (request _ (heard s h))
  | none =>
    cases hm : senderOf c with
    | some m =>
      rw [runFrame_machine hm]
      unfold machineFrame
      split
      · exact h
      · exact machine _ (port s (.mach m) _ h)
    | none =>
      rw [runFrame_other hg hm]
      exact h

/-- What each expiry keeps, a fold of expiries keeps. -/
theorem State.forEach_keeps {P : State → Prop} {f : State → Nat → State} (hf : ∀ t n, P t → P (f t n)) (l : List Nat) {s : State}
    (h : P s) : P (forEach f l s) := by
  induction l generalizing s with
  | nil => exact h
  | cons n l ih => exact ih (hf s n h)

/-! ## The queue of commands -/

namespace State

@[simp] theorem sweepOnce_pending (s : State) : s.sweepOnce.pending = s.pending := by
  have fold : ∀ {f : State → Nat → State}, (∀ t n, (f t n).pending = t.pending) → ∀ l t, (forEach f l t).pending = t.pending :=
    fun hf l t => forEach_keeps (P := fun u => u.pending = t.pending) (fun u n h => (hf u n).trans h) l rfl
  simp [sweepOnce, fold]

@[simp] theorem settle_pending (s : State) : s.settle.pending = s.pending := by
  have swept : s.heldSweep.pending = s.pending := by
    unfold heldSweep
    split
    · rfl
    · exact sweeps_keeps (P := fun t => t.pending = s.pending) (fun h => (sweepOnce_pending _).trans h) _ rfl
  simp [settle, swept]

end State

/-! ## What the common tests of a request leave -/

section
variable {α : Type} {f : State → α}

theorem runOnly_leaves {take : State → State × Reply} (ht : ∀ t, f (take t).1 = f t) (s : State) :
    f (runOnly take s).1 = f s := by
  unfold runOnly
  split
  · exact ht s
  · rfl

theorem forOven_leaves {take : State → State × Reply} (ht : ∀ t, f (take t).1 = f t) (n : Nat) (s : State) :
    f (forOven n take s).1 = f s := by
  unfold forOven
  split
  · exact ht s
  · rfl

theorem forSection_leaves {take : State → State × Reply} (ht : ∀ t, f (take t).1 = f t) (k : Nat) (s : State) :
    f (forSection k take s).1 = f s := by
  unfold forSection
  split
  · exact ht s
  · rfl

theorem forMLink_leaves {take : MachineId → State → State × Reply} (ht : ∀ m t, f (take m t).1 = f t)
    (l : Option LinkId) (s : State) : f (forMLink l take s).1 = f s := by
  unfold forMLink
  split
  · exact ht _ s
  · rfl

theorem setup_leaves {take : State → State × Reply} (ht : ∀ t, f (take t).1 = f t) (configOnly rangeOk : Bool)
    (s : State) : f (setup configOnly rangeOk take s).1 = f s := by
  unfold setup
  (repeat' split)
  · rfl
  · exact ht s
  · rfl

end

theorem requestEffect_pending (c : Instr) (s : State) : (requestEffect c s).1.pending = s.pending := by
  have run : ∀ {take : State → State × Reply}, (∀ t, (take t).1.pending = t.pending) → ∀ t, (runOnly take t).1.pending = t.pending :=
    runOnly_leaves
  have oven : ∀ {take : State → State × Reply}, (∀ t, (take t).1.pending = t.pending) → ∀ n t,
      (forOven n take t).1.pending = t.pending := forOven_leaves
  have setUp : ∀ {take : State → State × Reply}, (∀ t, (take t).1.pending = t.pending) → ∀ a b t,
      (setup a b take t).1.pending = t.pending := setup_leaves
  cases c
  case battery =>
    simp only [requestEffect]
    (repeat' split) <;> simp
  case pressure => exact setUp (fun t => by split <;> simp) _ _ s
  case ovenLoad => exact setUp (fun t => by split <;> simp) _ _ s
  case statusQuery | timeQuery | planQuery | machinesQuery | pushQuery | tasksQuery | quenchQuery => rfl
  all_goals simp [requestEffect, run, oven, setUp, forSection_leaves (f := State.pending), forMLink_leaves (f := State.pending)]

theorem frameEffect_pending (c : Instr) (s : State) : (frameEffect c s).pending = s.pending := by
  cases c
  case doorOff | doorOn | doorTight | ramStart | ramAtEnd | ramHome | chargeStart | chargeEnd | valve | leakSeen | taskDone
      | dumpDone =>
    simp only [frameEffect]
    (repeat' split) <;> simp
  all_goals simp [frameEffect]

theorem runFrame_pending (c : Instr) (s : State) : (runFrame c s).pending = s.pending :=
  runFrame_keeps (P := fun t => t.pending = s.pending) (fun t l f h => by simpa using h) (fun t h => by simpa using h)
    (fun t g r h => by simpa using h) (fun t h => (requestEffect_pending c t).trans h)
    (fun t h => (frameEffect_pending c t).trans h) rfl

/-! ## A received character -/

/-- What ports, test records and every frame keep, a received character keeps, whatever it completes. -/
theorem doCharacterReceived_keeps {P : State → Prop}
    (port : ∀ (s : State) (l : LinkId) (f : Port → Port), P s → P (s.updPort l f))
    (test : ∀ (s : State) (m : MachineId) (f : LinkTest → LinkTest), P s → P (s.updTest m f))
    (frame : ∀ (c : Instr) (s : State), P s → P (runFrame c s))
    (unknown : ∀ (m : MachineId) (code : Byte) (n : Nat) (s : State), P s → P (doRequest m (.unknown code) n s))
    (l : LinkId) (wave : LineWave) {s : State} (h : P s) : P (doCharacterReceived l wave s) := by
  have rx : ∀ (t : State) (r : RxAssembly), P t → P (t.setRx l r) := fun t r ht => port t l _ ht
  have discarded : ∀ (t : State) (c : DiscardCause), P t → P (t.discard l c) := fun t c ht => port t l _ ht
  have taken : ∀ (k : Taken) (t : State), P t → P (takeFrame l k t) := by
    intro k t ht
    cases k with
    | message i => exact frame i t ht
    | unknownPermit m code n => exact unknown m code n t ht
    | format tag => exact frame (.unknownRequest tag) t ht
    | discard c => exact discarded t c ht
  have complete : ∀ (len : Nat) (chars : List Byte) (t : State), P t → P (completeFrame l len chars t) := by
    intro len chars t ht
    unfold completeFrame
    dsimp only
    split
    · split
      · exact taken _ t ht
      · exact discarded t _ ht
    · exact discarded t _ ht
  have assembled : ∀ b : Byte, P (assemble l b s) := by
    intro b
    unfold assemble
    dsimp only
    split
    · split
      · exact rx s _ h
      · exact h
    · split
      · exact rx s _ h
      · exact discarded _ _ (rx s _ h)
    · exact rx s _ h
    · split
      · exact rx s _ h
      · exact complete _ _ _ (rx s _ h)
  unfold doCharacterReceived
  split
  · unfold toChecker
    split
    · unfold doTestCharacter
      (repeat' split)
      · exact test s _ _ h
      · exact h
      · exact h
    · exact h
  · split
    next c _ =>
      cases c with
      | good b => exact assembled b
      | parity b => exact discarded _ _ (rx s _ h)
      | framing b => exact discarded _ _ (rx s _ h)
    next => exact h

theorem effect_pending (c : Instr) (s : State) : (effect c s).pending = s.pending := by
  have frame := runFrame_pending c s
  cases c
  case hardReset => rfl
  case characterReceived l wave =>
    exact doCharacterReceived_keeps (P := fun t => t.pending = s.pending) (fun t l f h => by simpa using h)
      (fun t m f h => by simpa using h) (fun c t h => (runFrame_pending c t).trans h)
      (fun m code n t h => by unfold doRequest machineFrame; split <;> simpa using h) l wave rfl
  case oneSecondTick =>
    simp only [effect, doOneSecondTick, countSecond]
    (repeat' split) <;> simp [tickRounds]
  case controlTick => simp [effect, doControlTick]
  case inspectionAccrual => simp only [effect, doInspectionAccrual]; split <;> simp
  case rangeStepEnd => simp only [effect, doRangeStepEnd]; split <;> simp
  case mLinkSilenceExpiry => simp only [effect, doMLinkSilenceExpiry]; (repeat' split) <;> simp
  case sLinkSilenceExpiry => simp only [effect, doSLinkSilenceExpiry]; (repeat' split) <;> simp
  case characterGapExpiry => simp only [effect, doCharacterGapExpiry]; split <;> simp
  case testCharacter => simp only [effect, doTestCharacter]; (repeat' split) <;> simp
  case sLinkFrameSent => simp only [effect, doSLinkFrameSent]; (repeat' split) <;> simp
  case readyExpiry | overdueExpiry | dueExpiry | holdOverExpiry | useDeadlineExpiry | tRamExpiry | stageTimerExpiry
      | confirmExpiry | taskTimerExpiry | roundVisitTimerExpiry | isolateTimerExpiry | valveTaskTimerExpiry
      | chargeTimerExpiry | moveTimerExpiry | hotTimerExpiry | sprayTimerExpiry | drainTimerExpiry | coolTimerExpiry
      | gateTimerExpiry =>
    simp [effect, doReadyExpiry, doOverdueExpiry, doDueExpiry, doHoldOverExpiry, doUseDeadlineExpiry, doTRamExpiry,
      doStageTimerExpiry, doConfirmExpiry, doTaskTimerExpiry, doRoundVisitTimerExpiry, doIsolateTimerExpiry,
      doValveTaskTimerExpiry, doChargeTimerExpiry, doMoveTimerExpiry, doHotTimerExpiry, doSprayTimerExpiry,
      doDrainTimerExpiry, doCoolTimerExpiry, doGateTimerExpiry]
  case mLinkFrameSent | inputLevelChange | terminalOverload | pressInPulseEdge | damperPwmPeriodStart =>
    simp [effect, doMLinkFrameSent, doInputLevelChange, doTerminalOverload, doPressInPulseEdge, doDamperPwmPeriodStart]
  all_goals exact frame

/-- Settles O3: HARD_RESET by its contents, every other command by its effect and the end of its event. -/
theorem everyCommandCompletes : Obligations.EveryCommandCompletes := by
  unfold Obligations.EveryCommandCompletes
  intro c s
  by_cases hc : c = .hardReset
  · subst hc
    exact ⟨_, rfl, rfl⟩
  · exact ⟨_, exec_eq_ends hc s, (settle_pending _).trans (effect_pending c s)⟩

/-! ## Permits -/

section
variable {P : State → Prop} {s : State}

theorem runOnly_keeps (h : P s) {take : State → State × Reply} (ht : P (take s).1) : P (runOnly take s).1 := by
  unfold runOnly
  split
  · exact ht
  · exact h

theorem forOven_keeps (h : P s) {take : State → State × Reply} (ht : P (take s).1) (n : Nat) : P (forOven n take s).1 := by
  unfold forOven
  split
  · exact ht
  · exact h

theorem setup_keeps (h : P s) {take : State → State × Reply} (ht : P (take s).1) (configOnly rangeOk : Bool) :
    P (setup configOnly rangeOk take s).1 := by
  unfold setup
  (repeat' split)
  · exact h
  · exact ht
  · exact h

end

theorem requestEffect_within {q : Quad (Option Permit)} (c : Instr) {s : State} (h : Within q s.ilk.permits) :
    Within q (requestEffect c s).1.ilk.permits := by
  have run : ∀ {take : State → State × Reply}, Within q (take s).1.ilk.permits → Within q (runOnly take s).1.ilk.permits :=
    runOnly_keeps (P := fun t => Within q t.ilk.permits) h
  have oven : ∀ {take : State → State × Reply}, Within q (take s).1.ilk.permits → ∀ n,
      Within q (forOven n take s).1.ilk.permits := forOven_keeps (P := fun t => Within q t.ilk.permits) h
  have setUp : ∀ {take : State → State × Reply}, Within q (take s).1.ilk.permits → ∀ a b,
      Within q (setup a b take s).1.ilk.permits := setup_keeps (P := fun t => Within q t.ilk.permits) h
  cases c
  case battery =>
    simp only [requestEffect]
    (repeat' split) <;> simpa using h
  case timing v => exact setUp (takeTiming_within h v) _ _
  case terminal => exact setUp (takeTerminal_within h _ _ _ _ _) _ _
  case pressure | ovenLoad => exact setUp (by split <;> simpa using h) _ _
  case series | wharf | doors | link => exact setUp (by simpa using h) _ _
  case ovenService | setTarget | setMode | clearBreach => exact oven (by simp [h]) _
  case makeup => exact run (oven (by simp [h]) _)
  case planStage | setModeRange | rangeAbort => exact run (by simpa using h)
  case cancelMakeup | planStart | planHalt | planResume | pushRetry | abandon | leakReport => exact run (by simp [h])
  case setDamper | setAuto | setSetpoint =>
    simpa [requestEffect, forSection_leaves (f := fun t : State => t.ilk)] using h
  case linkTest l =>
    simp only [requestEffect, forMLink, linkTestOp]
    (repeat' split) <;> simp [h]
  case testRead | testEnd => simpa [requestEffect, forMLink_leaves (f := fun t : State => t.ilk)] using h
  case commit | restart => simp [requestEffect, h]
  case setTime | trackBlock | trackFree | setOutput | toggle | clearTerminal | linkClear | ovenQuery | slotQuery | doorQuery
      | sectionQuery | valvesQuery | terminalsQuery => simpa [requestEffect] using h
  all_goals exact h

theorem frameEffect_within {q : Quad (Option Permit)} {c : Instr} {s : State} (h : Within q s.ilk.permits)
    (notRequest : ∀ m n, c ≠ .requestDoorOffPs m n ∧ c ≠ .requestDoorOffCs m n ∧ c ≠ .requestPush m n ∧ c ≠ .requestCharge m n) :
    Within q (frameEffect c s).ilk.permits := by
  cases c
  case requestDoorOffPs m n => exact absurd rfl (notRequest m n).1
  case requestDoorOffCs m n => exact absurd rfl (notRequest m n).2.1
  case requestPush m n => exact absurd rfl (notRequest m n).2.2.1
  case requestCharge m n => exact absurd rfl (notRequest m n).2.2.2
  case doorOff | doorOn | doorTight | leakSeen | ramStart | ramAtEnd | ramHome | chargeStart | chargeEnd | valve | taskDone
      | dumpDone =>
    simp only [frameEffect, reject]
    (repeat' split) <;> simp [h]
  all_goals simp [frameEffect, h]

theorem runFrame_within {q : Quad (Option Permit)} {c : Instr} {s : State} (h : Within q s.ilk.permits)
    (notRequest : ∀ m n, c ≠ .requestDoorOffPs m n ∧ c ≠ .requestDoorOffCs m n ∧ c ≠ .requestPush m n ∧ c ≠ .requestCharge m n) :
    Within q (runFrame c s).ilk.permits :=
  runFrame_keeps (P := fun t => Within q t.ilk.permits) (fun t l f ht => by simpa using ht)
    (fun t ht => supervisorHeard_within ht) (fun t g r ht => by simpa using ht) (fun t ht => requestEffect_within c ht)
    (fun t ht => frameEffect_within ht notRequest) h

theorem effect_within {q : Quad (Option Permit)} {c : Instr} {s : State} (h : Within q s.ilk.permits) (hc : c ≠ .hardReset)
    (notRequest : ∀ m n, c ≠ .requestDoorOffPs m n ∧ c ≠ .requestDoorOffCs m n ∧ c ≠ .requestPush m n ∧ c ≠ .requestCharge m n)
    (notCharacter : ∀ l x, c ≠ .characterReceived l x) : Within q (effect c s).ilk.permits := by
  have frame := runFrame_within h notRequest
  cases c
  case hardReset => exact absurd rfl hc
  case characterReceived l x => exact absurd rfl (notCharacter l x)
  case oneSecondTick =>
    simp only [effect, doOneSecondTick, countSecond]
    (repeat' split) <;> simpa [tickRounds] using h
  case controlTick => exact endSections_within (s := { s with tb.phase := (s.tb.phase + 1) % 4 }) h _
  case inspectionAccrual => simp only [effect, doInspectionAccrual]; split <;> simp [h]
  case rangeStepEnd => simp only [effect, doRangeStepEnd]; split <;> simp [h]
  case mLinkSilenceExpiry => simp only [effect, doMLinkSilenceExpiry]; (repeat' split) <;> simp [h]
  case sLinkSilenceExpiry => simp only [effect, doSLinkSilenceExpiry]; (repeat' split) <;> simpa using h
  case characterGapExpiry => simp only [effect, doCharacterGapExpiry]; split <;> simpa using h
  case testCharacter => simp only [effect, doTestCharacter]; (repeat' split) <;> simpa using h
  case sLinkFrameSent => simp only [effect, doSLinkFrameSent]; (repeat' split) <;> simpa using h
  case readyExpiry | overdueExpiry | dueExpiry | holdOverExpiry | useDeadlineExpiry | tRamExpiry | stageTimerExpiry
      | confirmExpiry | taskTimerExpiry | roundVisitTimerExpiry | isolateTimerExpiry | valveTaskTimerExpiry
      | chargeTimerExpiry | moveTimerExpiry | hotTimerExpiry | sprayTimerExpiry | drainTimerExpiry | coolTimerExpiry
      | gateTimerExpiry =>
    simp [effect, doReadyExpiry, doOverdueExpiry, doDueExpiry, doHoldOverExpiry, doUseDeadlineExpiry, doTRamExpiry,
      doStageTimerExpiry, doConfirmExpiry, doTaskTimerExpiry, doRoundVisitTimerExpiry, doIsolateTimerExpiry,
      doValveTaskTimerExpiry, doChargeTimerExpiry, doMoveTimerExpiry, doHotTimerExpiry, doSprayTimerExpiry,
      doDrainTimerExpiry, doCoolTimerExpiry, doGateTimerExpiry, h]
  case mLinkFrameSent | inputLevelChange | terminalOverload | pressInPulseEdge | damperPwmPeriodStart =>
    simp [effect, doMLinkFrameSent, doInputLevelChange, doTerminalOverload, doPressInPulseEdge, doDamperPwmPeriodStart, h]
  all_goals exact frame

/-- Every expiry of a pass over the timers leaves the permits within the table. -/
theorem State.sweepOnce_within {q : Quad (Option Permit)} {s : State} (h : Within q s.ilk.permits) :
    Within q s.sweepOnce.ilk.permits := by
  have fold : ∀ {f : State → Nat → State}, (∀ t n, Within q t.ilk.permits → Within q (f t n).ilk.permits) →
      ∀ l {t : State}, Within q t.ilk.permits → Within q (forEach f l t).ilk.permits :=
    fun hf l _ ht => forEach_keeps (P := fun u => Within q u.ilk.permits) hf l ht
  have kept : ∀ {f : State → Nat → State}, (∀ t n, (f t n).ilk.permits = t.ilk.permits) →
      ∀ l {t : State}, Within q t.ilk.permits → Within q (forEach f l t).ilk.permits :=
    fun hf => fold fun t n ht => by rwa [hf t n]
  have ovens := kept (f := overdueCheck) (fun t n => by simp) (numbers 1 s.nOv)
    (fold (fun t n ht => readyExpire_within ht n) (numbers 1 s.nOv) h)
  have permits := deadlineExpire_within (deadlineExpire_within (deadlineExpire_within
    (holdOverExpire_within (dueExpire_within ovens)) .pm) .gc) .cc
  have doors := kept (f := fun s n => (s.confirmTimerExpire n .ps).confirmTimerExpire n .cs) (fun t n => by simp)
    (numbers 1 s.nOv) (lateTimerExpire_within (ramTimerExpire_within permits))
  have charges := kept (f := chargeTimerExpire) (fun t n => by simp) (numbers 1 s.nOv)
    (t := (((((State.forEach _ _ _).taskTimerExpire .ps).taskTimerExpire .cs).visitTimerExpire .ps).visitTimerExpire .cs
      ).isolateExpire.valveTimerExpire) (by simpa using doors)
  unfold sweepOnce
  refine gateExpire_within (kept (f := coolExpire) (fun t n => by simp) _ (drainExpire_within (sprayExpire_within ?_)))
  simpa using charges

theorem State.settle_within {q : Quad (Option Permit)} {s : State} (h : Within q s.ilk.permits) :
    Within q s.settle.ilk.permits := by
  have swept : Within q s.heldSweep.ilk.permits := by
    unfold heldSweep
    split
    · exact h
    · exact sweeps_keeps (P := fun t => Within q t.ilk.permits) sweepOnce_within _ h
  simpa [settle] using swept

/-- Settles O14: no effect of such a command, and no expiry at the end of its event, enters a permit. -/
theorem permitsComeFromRequests : Obligations.PermitsComeFromRequests := by
  unfold Obligations.PermitsComeFromRequests
  intro c s t h notRequest notCharacter m
  obtain ⟨rfl, rfl⟩ | ⟨hc, rfl⟩ := exec_next h
  · exact .inl (by cases m <;> rfl)
  · exact settle_within (effect_within (Within.refl _) hc notRequest notCharacter) m

end Sys2Proof.Machine
end

section
/-! SUPPORT. What each command leaves of the time base, the configuration store and the terminal records. -/

namespace Sys2Proof.Machine

open Sys2Proof State

/-! ## Frames of machines -/

theorem frameEffect_cfg_trm (c : Instr) (s : State) : (frameEffect c s).cfg = s.cfg ∧ (frameEffect c s).trm = s.trm := by
  cases c
  case doorOff | doorOn | doorTight | ramStart | ramAtEnd | ramHome | chargeStart | chargeEnd | valve | leakSeen | taskDone
      | dumpDone =>
    simp only [frameEffect]
    (repeat' split) <;> simp
  all_goals simp [frameEffect]

/-! ## The part state -/

theorem requestEffect_part {c : Instr} (notMode : ∀ g, c ≠ .commit g ∧ c ≠ .restart g) (s : State) :
    (requestEffect c s).1.cfg.part = s.cfg.part := by
  have run : ∀ {take : State → State × Reply}, (∀ t, (take t).1.cfg.part = t.cfg.part) → ∀ t,
      (runOnly take t).1.cfg.part = t.cfg.part := runOnly_leaves (f := fun t => t.cfg.part)
  have oven : ∀ {take : State → State × Reply}, (∀ t, (take t).1.cfg.part = t.cfg.part) → ∀ n t,
      (forOven n take t).1.cfg.part = t.cfg.part := forOven_leaves (f := fun t => t.cfg.part)
  have setUp : ∀ {take : State → State × Reply}, (∀ t, (take t).1.cfg.part = t.cfg.part) → ∀ a b t,
      (setup a b take t).1.cfg.part = t.cfg.part := setup_leaves (f := fun t => t.cfg.part)
  cases c
  case commit g => exact absurd rfl (notMode g).1
  case restart g => exact absurd rfl (notMode g).2
  case battery =>
    simp only [requestEffect]
    (repeat' split) <;> simp
  case pressure | ovenLoad => exact setUp (fun t => by split <;> simp) _ _ s
  case statusQuery | timeQuery | planQuery | machinesQuery | pushQuery | tasksQuery | quenchQuery => rfl
  all_goals
    simp [requestEffect, run, oven, setUp, forSection_leaves (f := State.cfg),
      forMLink_leaves (f := State.cfg)]

theorem runFrame_part {c : Instr} (notMode : ∀ g, c ≠ .commit g ∧ c ≠ .restart g) (s : State) :
    (runFrame c s).cfg.part = s.cfg.part :=
  runFrame_keeps (P := fun t => t.cfg.part = s.cfg.part) (fun t l f ht => by simpa using ht) (fun t ht => by simpa using ht)
    (fun t g r ht => by simpa using ht) (fun t ht => (requestEffect_part notMode t).trans ht)
    (fun t ht => (congrArg (fun k => k.part) (frameEffect_cfg_trm c t).1).trans ht) rfl

/-! ## The TIMING values -/

theorem requestEffect_timing {c : Instr} (notBattery : ∀ g n k l, c ≠ .battery g n k l) (notTiming : ∀ g v, c ≠ .timing g v) (s : State) :
    (requestEffect c s).1.cfg.timing = s.cfg.timing := by
  have run : ∀ {take : State → State × Reply}, (∀ t, (take t).1.cfg.timing = t.cfg.timing) → ∀ t,
      (runOnly take t).1.cfg.timing = t.cfg.timing := runOnly_leaves (f := fun t => t.cfg.timing)
  have oven : ∀ {take : State → State × Reply}, (∀ t, (take t).1.cfg.timing = t.cfg.timing) → ∀ n t,
      (forOven n take t).1.cfg.timing = t.cfg.timing := forOven_leaves (f := fun t => t.cfg.timing)
  have setUp : ∀ {take : State → State × Reply}, (∀ t, (take t).1.cfg.timing = t.cfg.timing) → ∀ a b t,
      (setup a b take t).1.cfg.timing = t.cfg.timing := setup_leaves (f := fun t => t.cfg.timing)
  cases c
  case battery g n k l => exact absurd rfl (notBattery g n k l)
  case timing g v => exact absurd rfl (notTiming g v)
  case pressure | ovenLoad => exact setUp (fun t => by split <;> simp) _ _ s
  case statusQuery | timeQuery | planQuery | machinesQuery | pushQuery | tasksQuery | quenchQuery => rfl
  all_goals
    simp [requestEffect, run, oven, setUp, forSection_leaves (f := State.cfg),
      forMLink_leaves (f := State.cfg)]

theorem runFrame_timing {c : Instr} (notBattery : ∀ g n k l, c ≠ .battery g n k l) (notTiming : ∀ g v, c ≠ .timing g v) (s : State) :
    (runFrame c s).cfg.timing = s.cfg.timing :=
  runFrame_keeps (P := fun t => t.cfg.timing = s.cfg.timing) (fun t l f ht => by simpa using ht) (fun t ht => by simpa using ht)
    (fun t g r ht => by simpa using ht) (fun t ht => (requestEffect_timing notBattery notTiming t).trans ht)
    (fun t ht => (congrArg (fun k => k.timing) (frameEffect_cfg_trm c t).1).trans ht) rfl

/-! ## The loaded-block record -/

/-- The setup blocks, which enter themselves in the loaded-block record (R181). -/
def isSetup : Instr → Bool
  | .battery .. | .series .. | .timing .. | .pressure .. | .wharf .. | .doors .. | .terminal .. | .link .. | .ovenLoad .. => true
  | _ => false

theorem requestEffect_loaded {c : Instr} (notSetup : isSetup c = false) (s : State) :
    (requestEffect c s).1.cfg.loaded = s.cfg.loaded := by
  have run : ∀ {take : State → State × Reply}, (∀ t, (take t).1.cfg.loaded = t.cfg.loaded) → ∀ t,
      (runOnly take t).1.cfg.loaded = t.cfg.loaded := runOnly_leaves (f := fun t => t.cfg.loaded)
  have oven : ∀ {take : State → State × Reply}, (∀ t, (take t).1.cfg.loaded = t.cfg.loaded) → ∀ n t,
      (forOven n take t).1.cfg.loaded = t.cfg.loaded := forOven_leaves (f := fun t => t.cfg.loaded)
  cases c
  case battery | series | timing | pressure | wharf | doors | terminal | link | ovenLoad => cases notSetup
  case statusQuery | timeQuery | planQuery | machinesQuery | pushQuery | tasksQuery | quenchQuery => rfl
  all_goals
    simp [requestEffect, run, oven, forSection_leaves (f := State.cfg),
      forMLink_leaves (f := State.cfg)]

theorem runFrame_loaded {c : Instr} (notSetup : isSetup c = false) (s : State) :
    (runFrame c s).cfg.loaded = s.cfg.loaded :=
  runFrame_keeps (P := fun t => t.cfg.loaded = s.cfg.loaded) (fun t l f ht => by simpa using ht) (fun t ht => by simpa using ht)
    (fun t g r ht => by simpa using ht) (fun t ht => (requestEffect_loaded notSetup t).trans ht)
    (fun t ht => (congrArg (fun k => k.loaded) (frameEffect_cfg_trm c t).1).trans ht) rfl

/-! ## The terminal records -/

/-- The requests that write terminal records (R161, R165, R166, R184). -/
def writesTerminals : Instr → Bool
  | .terminal .. | .setOutput .. | .toggle .. | .clearTerminal .. | .commit .. => true
  | _ => false

theorem requestEffect_trm {c : Instr} (notTerminal : writesTerminals c = false) (s : State) :
    (requestEffect c s).1.trm = s.trm := by
  have run : ∀ {take : State → State × Reply}, (∀ t, (take t).1.trm = t.trm) → ∀ t,
      (runOnly take t).1.trm = t.trm := runOnly_leaves (f := State.trm)
  have oven : ∀ {take : State → State × Reply}, (∀ t, (take t).1.trm = t.trm) → ∀ n t,
      (forOven n take t).1.trm = t.trm := forOven_leaves (f := State.trm)
  have setUp : ∀ {take : State → State × Reply}, (∀ t, (take t).1.trm = t.trm) → ∀ a b t,
      (setup a b take t).1.trm = t.trm := setup_leaves (f := State.trm)
  cases c
  case terminal | setOutput | toggle | clearTerminal | commit => cases notTerminal
  case battery =>
    simp only [requestEffect]
    (repeat' split) <;> simp
  case pressure | ovenLoad => exact setUp (fun t => by split <;> simp) _ _ s
  case statusQuery | timeQuery | planQuery | machinesQuery | pushQuery | tasksQuery | quenchQuery => rfl
  all_goals
    simp [requestEffect, run, oven, setUp, forSection_leaves (f := State.trm),
      forMLink_leaves (f := State.trm)]

theorem runFrame_trm {c : Instr} (notTerminal : writesTerminals c = false) (s : State) :
    (runFrame c s).trm = s.trm :=
  runFrame_keeps (P := fun t => t.trm = s.trm) (fun t l f ht => by simpa using ht) (fun t ht => by simpa using ht)
    (fun t g r ht => by simpa using ht) (fun t ht => (requestEffect_trm notTerminal t).trans ht)
    (fun t ht => (frameEffect_cfg_trm c t).2.trans ht) rfl

/-! ## The end of an event -/

namespace State

@[simp] theorem sweepOnce_trm (s : State) : s.sweepOnce.trm = s.trm := by
  have fold : ∀ {f : State → Nat → State}, (∀ t n, (f t n).trm = t.trm) → ∀ l t, (forEach f l t).trm = t.trm :=
    fun hf l t => forEach_keeps (P := fun u => u.trm = t.trm) (fun u n h => (hf u n).trans h) l rfl
  simp [sweepOnce, fold]

@[simp] theorem settle_trm (s : State) : s.settle.trm = s.trm := by
  have swept : s.heldSweep.trm = s.trm := by
    unfold heldSweep
    split
    · rfl
    · exact sweeps_keeps (P := fun t => t.trm = s.trm) (fun h => (sweepOnce_trm _).trans h) _ rfl
  simp [settle, swept]

/-- COMMIT leaves the tick phase and battery time (R184). -/
theorem commitOp_tb (s : State) : s.commitOp.1.tb.time = s.tb.time ∧ s.commitOp.1.tb.phase = s.tb.phase := by
  unfold commitOp
  (repeat' split) <;> simp [enterRun_tb_cfg]

/-- SET_TIME writes battery time alone of the time base (R5). -/
theorem setTimeOp_tb (v : Time32) (s : State) :
    (setTimeOp v s).1.tb.timeOpen = s.tb.timeOpen ∧ (setTimeOp v s).1.tb.phase = s.tb.phase := by
  unfold setTimeOp
  dsimp only
  (repeat' split) <;> simp

end State

/-! ## Commands that no frame carries -/

/-- A command that no frame carries leaves the configuration store, the time base but at a tick, and the terminal records but
at an input change, an overload and the start of a damper period. -/
theorem effect_frame_or_leaves {c : Instr} (hc : c ≠ .hardReset) (notCharacter : ∀ l x, c ≠ .characterReceived l x) (s : State) :
    effect c s = runFrame c s ∨ ((effect c s).cfg = s.cfg
      ∧ (c ≠ .oneSecondTick → c ≠ .controlTick → (effect c s).tb = s.tb)
      ∧ ((∀ k e, c ≠ .inputLevelChange k e) → (∀ k, c ≠ .terminalOverload k ∧ c ≠ .damperPwmPeriodStart k) →
          (effect c s).trm = s.trm)) := by
  cases c
  case hardReset => exact absurd rfl hc
  case characterReceived l x => exact absurd rfl (notCharacter l x)
  case oneSecondTick =>
    right
    simp only [effect, doOneSecondTick, countSecond]
    (repeat' split) <;> simp [tickRounds]
  case controlTick => right; simp [effect, doControlTick]
  case inspectionAccrual => right; simp only [effect, doInspectionAccrual]; split <;> simp
  case rangeStepEnd => right; simp only [effect, doRangeStepEnd]; split <;> simp
  case mLinkSilenceExpiry => right; simp only [effect, doMLinkSilenceExpiry]; (repeat' split) <;> simp
  case sLinkSilenceExpiry => right; simp only [effect, doSLinkSilenceExpiry]; (repeat' split) <;> simp
  case characterGapExpiry => right; simp only [effect, doCharacterGapExpiry]; split <;> simp
  case testCharacter => right; simp only [effect, doTestCharacter]; (repeat' split) <;> simp
  case sLinkFrameSent => right; simp only [effect, doSLinkFrameSent]; (repeat' split) <;> simp
  case readyExpiry | overdueExpiry | dueExpiry | holdOverExpiry | useDeadlineExpiry | tRamExpiry | stageTimerExpiry
      | confirmExpiry | taskTimerExpiry | roundVisitTimerExpiry | isolateTimerExpiry | valveTaskTimerExpiry
      | chargeTimerExpiry | moveTimerExpiry | hotTimerExpiry | sprayTimerExpiry | drainTimerExpiry | coolTimerExpiry
      | gateTimerExpiry =>
    right
    simp [effect, doReadyExpiry, doOverdueExpiry, doDueExpiry, doHoldOverExpiry, doUseDeadlineExpiry, doTRamExpiry,
      doStageTimerExpiry, doConfirmExpiry, doTaskTimerExpiry, doRoundVisitTimerExpiry, doIsolateTimerExpiry,
      doValveTaskTimerExpiry, doChargeTimerExpiry, doMoveTimerExpiry, doHotTimerExpiry, doSprayTimerExpiry,
      doDrainTimerExpiry, doCoolTimerExpiry, doGateTimerExpiry]
  case mLinkFrameSent | inputLevelChange | terminalOverload | pressInPulseEdge | damperPwmPeriodStart =>
    right
    simp [effect, doMLinkFrameSent, doInputLevelChange, doTerminalOverload, doPressInPulseEdge, doDamperPwmPeriodStart]
  all_goals exact .inl rfl

/-! ## The time base -/

theorem runFrame_tb_fields {c : Instr} (s : State) :
    ((∀ g v, c ≠ .setTime g v) → (runFrame c s).now = s.now) ∧ (runFrame c s).tb.phase = s.tb.phase
      ∧ ((∀ g, c ≠ .commit g) → (runFrame c s).tb.timeOpen = s.tb.timeOpen) := by
  have heard : s.supervisorHeard.tb = s.tb := by simp
  by_cases commits : ∃ g, c = .commit g
  · obtain ⟨g, rfl⟩ := commits
    obtain ⟨time, phase⟩ := commitOp_tb s.supervisorHeard
    rw [runFrame_request (g := g) rfl]
    unfold request
    split
    · simp [now]
    · refine ⟨fun _ => ?_, ?_, fun h => absurd rfl (h g)⟩
      · simpa [requestEffect, now, heard] using time
      · simpa [requestEffect, heard] using phase
  · by_cases sets : ∃ g v, c = .setTime g v
    · obtain ⟨g, v, rfl⟩ := sets
      obtain ⟨isOpen, phase⟩ := setTimeOp_tb v s.supervisorHeard
      rw [runFrame_request (g := g) rfl]
      unfold request
      split
      · simp [now]
      · refine ⟨fun h => absurd rfl (h g v), ?_, fun _ => ?_⟩
        · simpa [requestEffect, heard] using phase
        · simpa [requestEffect, heard] using isOpen
    · have kept := runFrame_tb (fun g h => commits ⟨g, h⟩) (fun g v h => sets ⟨g, v, h⟩) s
      simp [now, kept]

theorem effect_tb_fields {c : Instr} (hc : c ≠ .hardReset) (notCharacter : ∀ l x, c ≠ .characterReceived l x) (s : State) :
    (c ≠ .oneSecondTick → (∀ g v, c ≠ .setTime g v) → (effect c s).now = s.now)
      ∧ (c ≠ .controlTick → (effect c s).tb.phase = s.tb.phase)
      ∧ ((∀ g, c ≠ .commit g) → (effect c s).tb.timeOpen = s.tb.timeOpen) := by
  by_cases second : c = .oneSecondTick
  · subst second
    refine ⟨fun h => absurd rfl h, fun _ => ?_, fun _ => doOneSecondTick_timeOpen s⟩
    simp only [effect, doOneSecondTick, countSecond]
    (repeat' split) <;> simp [tickRounds]
  · by_cases control : c = .controlTick
    · subst control
      simp [effect, doControlTick, now]
    · obtain frame | ⟨-, tb, -⟩ := effect_frame_or_leaves hc notCharacter s
      · obtain ⟨time, phase, isOpen⟩ := runFrame_tb_fields (c := c) s
        rw [frame]
        exact ⟨fun _ => time, fun _ => phase, isOpen⟩
      · simp [now, tb second control]

/-- Settles O15: the end of an event leaves all of these, and of the effects only those named change them. -/
theorem timeConfigurationAndTerminalFrame : Obligations.TimeConfigurationAndTerminalFrame := by
  unfold Obligations.TimeConfigurationAndTerminalFrame
  intro c s t h hc notCharacter
  obtain ⟨rfl, -⟩ | ⟨-, rfl⟩ := exec_next h
  · exact absurd rfl hc
  · have cfg : (effect c s).settle.cfg = (effect c s).cfg := by simp
    have tb : (effect c s).settle.tb = (effect c s).tb := by simp
    obtain ⟨time, phase, isOpen⟩ := effect_tb_fields hc notCharacter s
    simp only [now, tb, cfg, settle_trm]
    refine ⟨time, phase, isOpen, ?_⟩
    obtain frame | ⟨kept, -, trm⟩ := effect_frame_or_leaves hc notCharacter s
    · rw [frame]
      clear time phase isOpen tb cfg h
      refine ⟨fun h => runFrame_part h s, fun h h' => runFrame_timing h h' s, ?_, ?_⟩
      · intro battery series timing pressure wharf doors terminal link ovenLoad
        refine runFrame_loaded ?_ s
        cases c with
        | battery => exact absurd rfl (battery _ _ _ _)
        | series => exact absurd rfl (series _ _ _)
        | timing => exact absurd rfl (timing _ _)
        | pressure => exact absurd rfl (pressure _ _ _)
        | wharf => exact absurd rfl (wharf _ _)
        | doors => exact absurd rfl (doors _ _)
        | terminal => exact absurd rfl (terminal _ _ _ _ _ _)
        | link => exact absurd rfl (link _ _ _)
        | ovenLoad => exact absurd rfl (ovenLoad _ _)
        | _ => rfl
      · intro _ _ terminal setOutput outputs commit
        refine runFrame_trm ?_ s
        cases c with
        | terminal => exact absurd rfl (terminal _ _ _ _ _ _)
        | setOutput => exact absurd rfl (setOutput _ _ _)
        | toggle => exact absurd rfl (outputs _ _).1
        | clearTerminal => exact absurd rfl (outputs _ _).2
        | commit => exact absurd rfl (commit _)
        | _ => rfl
    · simp only [kept, implies_true, true_and]
      exact fun a b _ _ _ _ => trm a b

end Sys2Proof.Machine
end

section
/-! SUPPORT. Battery time, the state after a hard reset, and the empty queue. -/

namespace Sys2Proof.Machine

open Sys2Proof State

/-! ## Battery time (R1, R101, R132) -/

theorem doOneSecondTick_eq (s : State) : doOneSecondTick s =
    if (countSecond s).inRun then retryHeld (countSecond s).ofu.heldOffers (tickRounds (countSecond s)) else countSecond s :=
  rfl

theorem countSecond_running {s : State} (h : s.now + 1 < tMax) : countSecond s = { s with tb.time := s.now + 1 } := by
  have short : ¬ (({ s with tb.time := s.now + 1 } : State).now = tMax) := by
    change ¬ (s.now + 1 = tMax)
    omega
  simp only [countSecond, if_pos (show s.now < tMax by omega), if_neg short]

theorem countSecond_reaching {s : State} (h : s.now + 1 = tMax) :
    countSecond s = ({ s with tb.time := tMax } : State).raise .timeHeld := by
  have reached : ({ s with tb.time := tMax } : State).now = tMax := rfl
  simp only [countSecond, if_pos (show s.now < tMax by omega), h, if_pos reached]

theorem countSecond_held {s : State} (h : tMax ≤ s.now) : countSecond s = s := by
  simp only [countSecond, if_neg (show ¬ s.now < tMax by omega)]

theorem doOneSecondTick_now (s : State) : (doOneSecondTick s).now = if s.now < tMax then s.now + 1 else s.now := by
  have counted : (countSecond s).now = if s.now < tMax then s.now + 1 else s.now := by
    unfold countSecond
    split
    · dsimp only
      split <;> simp [now]
    · rfl
  rw [← counted, doOneSecondTick_eq]
  split <;> simp [now, tickRounds]

theorem settle_now (s : State) : s.settle.now = s.now := by simp [now]

theorem runFrame_now_le (c : Instr) {s : State} (h : s.now ≤ tMax) : (runFrame c s).now ≤ tMax := by
  by_cases sets : ∃ g v, c = .setTime g v
  · obtain ⟨g, v, rfl⟩ := sets
    rw [runFrame_request (g := g) rfl]
    unfold request
    split
    · simpa [now] using h
    · have inRange : v.toNat ≤ tMax := by have := v.isLt; simp [tMax]; omega
      simp only [requestEffect, setTimeOp, now]
      (repeat' split) <;> simpa [now] using by assumption
  · rw [(runFrame_tb_fields s).1 fun g v hc => sets ⟨g, v, hc⟩]
    exact h

theorem effect_now_le (c : Instr) {s : State} (h : s.now ≤ tMax) : (effect c s).now ≤ tMax := by
  by_cases reset : c = .hardReset
  · subst reset
    exact Nat.zero_le _
  by_cases second : c = .oneSecondTick
  · subst second
    rw [effect, doOneSecondTick_now]
    split <;> omega
  by_cases sets : ∃ g v, c = .setTime g v
  · obtain ⟨g, v, rfl⟩ := sets
    exact runFrame_now_le (.setTime g v) h
  by_cases character : ∃ l x, c = .characterReceived l x
  · obtain ⟨l, x, rfl⟩ := character
    exact doCharacterReceived_keeps (P := fun t => t.now ≤ tMax) (fun t l f ht => by simpa [now] using ht)
      (fun t m f ht => by simpa [now] using ht) (fun c t ht => runFrame_now_le c ht)
      (fun m code n t ht => by unfold doRequest machineFrame; split <;> simpa [now] using ht) l x h
  · obtain ⟨kept, -, -⟩ := effect_tb_fields reset (fun l x hc => character ⟨l, x, hc⟩) s
    rw [kept second fun g v hc => sets ⟨g, v, hc⟩]
    exact h

/-- The interval in force, from the alarm levels of the sections (R101). -/
theorem State.inspectionInterval_eq (s : State) : s.inspectionInterval =
    if s.ofu.sections.any fun r => r.live.any fun v => v.level == .high || v.level == .flare then s.dru.vals.iBase / 2
    else s.dru.vals.iBase := by
  have level : ∀ r : SecRec, (r.live.map fun v => v.level == .high || v.level == .flare).getD false =
      r.live.any fun v => v.level == .high || v.level == .flare := fun r => by cases r.live <;> rfl
  simp only [inspectionInterval, anyHigh, level]

/-- The second of the rounds and of the held offers, from the interval of the state at the tick. -/
theorem doOneSecondTick_of {s u : State} (counted : countSecond s = u) (interval : u.inspectionInterval = s.inspectionInterval) :
    doOneSecondTick s = if u.inRun then retryHeld u.ofu.heldOffers { u with dru.rounds :=
      ⟨tickRound s.inspectionInterval u.dru.rounds.ps, tickRound s.inspectionInterval u.dru.rounds.cs⟩ } else u := by
  rw [doOneSecondTick_eq, counted, tickRounds, interval]

/-- Settles O16: the second is counted, or held, before the rounds' second and the held offers. -/
theorem batteryTimeCounts : Obligations.BatteryTimeCounts := by
  unfold Obligations.BatteryTimeCounts
  refine ⟨fun s => ⟨fun short => ?_, fun reaching => ?_, fun held => ?_⟩, fun s t h => ?_, rfl, ?_, fun s t g h => ?_,
    fun c s t inRange h => ?_⟩
  · have ticked := doOneSecondTick_of (countSecond_running short) rfl
    have running : (doOneSecondTick s).now < tMax := by
      rw [doOneSecondTick_now]
      split <;> omega
    rw [show exec .oneSecondTick s = .next (doOneSecondTick s).settle from rfl, settle_eq_kick running, ticked,
      inspectionInterval_eq]
    rfl
  · have ticked := doOneSecondTick_of (countSecond_reaching reaching) (by simp [inspectionInterval_eq])
    rw [show exec .oneSecondTick s = ends (doOneSecondTick s) from rfl, ticked, inspectionInterval_eq]
    rfl
  · have ticked := doOneSecondTick_of (countSecond_held held) rfl
    rw [show exec .oneSecondTick s = ends (doOneSecondTick s) from rfl, ticked, inspectionInterval_eq]
    rfl
  · obtain rfl := Host.Outcome.next.inj h
    exact (settle_now _).trans (doOneSecondTick_now s)
  · rintro s t ⟨⟩
    rfl
  · obtain rfl := Host.Outcome.next.inj h
    have tb := runFrame_tb (i := .restart g) (by simp) (by simp) s
    exact (settle_tb_cfg _).1.trans tb
  · obtain ⟨rfl, rfl⟩ | ⟨-, rfl⟩ := exec_next h
    · exact Nat.zero_le _
    · rw [settle_now]
      exact effect_now_le c inRange

/-! ## The state after a hard reset -/

theorem reset_inv : Inv State.reset := by
  refine ⟨by decide, ⟨by decide, by decide, fun i j a b ha => ?_⟩, ?_, ?_, by decide, by decide,
    freshBays_ok (by decide) (t := 0) (by decide), by decide, ?_, by decide, by decide⟩
  case refine_1 => cases nth1_mem ha
  case refine_2 =>
    exact ⟨by decide, by decide, by decide, by decide, by decide, rfl, fun _ => rfl, fun x hx => by cases hx⟩
  case refine_3 =>
    refine ⟨fun m p hp => ?_, fun p hp => by cases hp⟩
    cases m <;> cases hp
  case refine_4 =>
    refine ⟨by decide, by decide, by decide, ?_⟩
    simp [MLink.Ok, State.reset, Links.fresh, MLink.fresh, Port.fresh, LinkTest.fresh]

/-- Settles O9: the ranges block by block; no permit, no load and no tower timer at reset. -/
theorem invariantsAtReset : Obligations.InvariantsAtReset := by
  unfold Obligations.InvariantsAtReset
  exact ⟨reset_inv, hold_of_none fun m => by cases m <;> rfl, rfl, rfl⟩

/-- Settles O8: HARD_RESET is the reset state with the queue kept, read field by field. -/
theorem hardResetContents : Obligations.HardResetContents := by
  unfold Obligations.HardResetContents
  refine fun s => ⟨rfl, _, rfl, rfl, rfl, rfl, rfl, rfl, rfl, rfl, rfl, rfl, rfl, rfl, rfl, rfl, rfl, rfl, rfl, rfl, rfl, rfl,
    rfl, rfl, rfl, rfl, rfl, rfl, fun m => ?_, rfl, rfl, fun d => ?_, rfl, rfl, rfl, rfl, rfl, rfl, rfl, rfl, rfl, rfl, rfl, rfl,
    rfl, rfl, rfl, rfl, fun k first last => ?_, fun l => ?_, rfl, rfl, rfl, rfl, rfl, fun m => ?_⟩
  · cases m <;> exact ⟨rfl, rfl⟩
  · cases d <;> exact ⟨rfl, rfl⟩
  · obtain ⟨j, rfl⟩ := Nat.exists_eq_add_of_le' first
    have inTable : j < 31 := by omega
    exact List.getElem?_replicate_of_lt (a := TermRec.fresh) inTable
  · rcases l with _ | m
    · rfl
    · cases m <;> rfl
  · cases m <;> exact ⟨rfl, rfl, rfl, rfl, rfl⟩

/-! ## The empty queue (R179, R180) -/

/-- A shift brings in the new bit and moves the others up. -/
theorem streamShift_getLsbD (r : BitVec 15) (b : Bool) :
    (streamShift r b).getLsbD 0 = b ∧ ∀ i, i < 14 → (streamShift r b).getLsbD (i + 1) = r.getLsbD i := by
  constructor
  · simp [streamShift]
  · intro i hi
    have inside : i + 1 < 15 := by omega
    simp [streamShift, inside, BitVec.getLsbD_eq_getElem (show i < 15 by omega)]

/-- The test character is the last eight bits of the stream, the earliest least significant. -/
theorem State.testByte_getLsbD (g : BitVec 15) {i : Nat} (h : i < 8) : (testByte g).getLsbD i = g.getLsbD (7 - i) := by
  have inside : 7 - i < 8 := by omega
  rw [testByte, BitVec.getLsbD_reverse, BitVec.getMsbD_eq_getLsbD]
  simp [h, inside]

theorem State.idle_mlink (s : State) (m : MachineId) : s.idle.mlink m = sendTestChar (s.mlink m) := by
  cases m <;> rfl

/-- Settles O2: the shift register bit by bit, and the idle step link by link. -/
theorem emptyQueueIdles : Obligations.EmptyQueueIdles := by
  unfold Obligations.EmptyQueueIdles
  refine ⟨fun r k => ⟨rfl, rfl, (streamShift_getLsbD r _).1, (streamShift_getLsbD r _).2⟩, fun s empty => ⟨s.idle, ?_, rfl, fun m => ?_⟩⟩
  · simp [step, empty]
  · exact ⟨testByte (streamSteps 8 (s.mlink m).test.generator), fun i hi => testByte_getLsbD _ hi, idle_mlink s m⟩

end Sys2Proof.Machine
end

section
/-! SUPPORT. The rules that requests and reports share: what the frame's arrival leaves, the common tests of a request, and
when a report is rejected; the statements about refusals in CONFIG and misplaced reports. -/

namespace Sys2Proof.Machine

open Sys2Proof State

/-! ## Numbered tables -/

theorem nth1_isSome {α : Type} (l : List α) (n : Nat) : (nth1 l n).isSome = (decide (1 ≤ n) && decide (n ≤ l.length)) := by
  cases n with
  | zero => rfl
  | succ k =>
    have inside : (l[k]?).isSome = decide (k + 1 ≤ l.length) := by
      by_cases h : k < l.length <;> simp [h]
    simp [nth1, inside]

/-- An oven number lies in the table exactly when its record is there (R7). -/
theorem State.ovenOk_eq (s : State) (n : Nat) : s.ovenOk n = (s.oven n).isSome := (nth1_isSome s.ot n).symm

theorem State.ovenOk_of_some {s : State} {n : Nat} {o : OvenRec} (h : s.oven n = some o) : s.ovenOk n = true := by
  rw [ovenOk_eq, h]
  rfl

theorem State.ovenOk_of_none {s : State} {n : Nat} (h : s.oven n = none) : s.ovenOk n = false := by
  rw [ovenOk_eq, h]
  rfl

theorem State.ovenIs_eq {s : State} {n : Nat} {o : OvenRec} (h : s.oven n = some o) (st : OvenState) :
    s.ovenIs n st = decide (o.state = st) := by
  simp [ovenIs, ovenState, h, beq_eq_decide]

/-! ## A frame's arrival -/

@[simp] theorem State.supervisorHeard_inRun (s : State) : s.supervisorHeard.inRun = s.inRun := by simp [inRun]

/-- The arrival of a machine's frame touches its port alone. -/
@[simp] theorem State.heardFrom_frame (s : State) (m : MachineId) :
    (s.heardFrom m).tb = s.tb ∧ (s.heardFrom m).ot = s.ot ∧ (s.heardFrom m).pln = s.pln ∧ (s.heardFrom m).ilk = s.ilk
      ∧ (s.heardFrom m).dru = s.dru ∧ (s.heardFrom m).ofu = s.ofu ∧ (s.heardFrom m).qnu = s.qnu
      ∧ (s.heardFrom m).trm = s.trm ∧ (s.heardFrom m).lnk.sup = s.lnk.sup ∧ (s.heardFrom m).cfg = s.cfg
      ∧ (s.heardFrom m).pending = s.pending :=
  ⟨rfl, rfl, rfl, rfl, rfl, rfl, rfl, rfl, rfl, rfl, rfl⟩

/-! ## The common tests of a request -/

/-- A request taken with room is answered as its body says. -/
theorem exec_answered {c : Instr} {g : Byte} (h : requestTag c = some g) {s : State} (room : s.room) {u : State}
    {r : ResultCode} {d : AnswerData} (body : requestEffect c s.supervisorHeard = (u, ⟨r, d, none⟩)) :
    exec c s = answered g r d u := by
  rw [exec_request h room, body]
  rfl

section
variable {s : State} {take : State → State × Reply}

theorem runOnly_run (h : s.inRun = true) : runOnly take s = take s := if_pos h

theorem runOnly_config (h : s.inRun = false) : runOnly take s = s.refuse .state := by simp [runOnly, h]

theorem forOven_some {n : Nat} {o : OvenRec} (h : s.oven n = some o) : forOven n take s = take s :=
  if_pos (ovenOk_of_some h)

theorem forOven_none {n : Nat} (h : s.oven n = none) : forOven n take s = s.refuse .range := by
  simp [forOven, ovenOk_of_none h]

theorem setup_order (h : s.cfg.loaded.battery = false) (configOnly rangeOk : Bool) :
    setup configOnly rangeOk take s = s.refuse .order := by
  simp [setup, setupTest, h]

theorem setup_state (battery : s.cfg.loaded.battery = true) (run : s.inRun = true) (rangeOk : Bool) :
    setup true rangeOk take s = s.refuse .state := by
  simp [setup, setupTest, battery, run]

/-- With the battery loaded, the RANGE test decides on a block taken in RUN too. -/
theorem setup_always (battery : s.cfg.loaded.battery = true) (rangeOk : Bool) :
    setup false rangeOk take s = if rangeOk then take s else s.refuse .range := by
  simp [setup, setupTest, battery]

/-- With the battery loaded, in CONFIG, the RANGE test decides. -/
theorem setup_config (battery : s.cfg.loaded.battery = true) (config : s.inRun = false) (rangeOk : Bool) :
    setup true rangeOk take s = if rangeOk then take s else s.refuse .range := by
  simp [setup, setupTest, battery, config]

end

/-- Settles O6: each of these commands is taken in RUN only. -/
theorem runOnlyCommandsInConfig : Obligations.RunOnlyCommandsInConfig := by
  unfold Obligations.RunOnlyCommandsInConfig
  intro s tag n a b start mode side room config c hc
  have heard : s.supervisorHeard.inRun = false := by simpa using config
  have refused : ∀ take : State → State × Reply, runOnly take s.supervisorHeard = (s.supervisorHeard, ⟨.state, .nothing, none⟩) :=
    fun take => runOnly_config heard
  simp only [List.mem_cons, List.not_mem_nil, or_false] at hc
  rcases hc with rfl | rfl | rfl | rfl | rfl | rfl | rfl | rfl | rfl | rfl | rfl
  all_goals exact exec_answered rfl room (refused _)

/-! ## Reports rejected (R50) -/

theorem State.doorReportSide_eq_none {s : State} {m : MachineId} {n : Nat} {side : Option Side}
    (h : (∀ d, side = some d → Side.machine d ≠ m) ∨ s.ovenOk n = false) : s.doorReportSide m n side = none := by
  obtain wrong | outside := h
  · cases m <;> rcases side with _ | _ | _ <;> simp_all [doorReportSide, sideOf, Side.machine]
  · cases m <;> simp [doorReportSide, sideOf, outside]

/-- Settles O7: the test of machine, side and oven that each report makes first. -/
theorem misplacedReportsAreRejected : Obligations.MisplacedReportsAreRejected := by
  unfold Obligations.MisplacedReportsAreRejected
  intro s m n untested
  have ovenOk : (s.heardFrom m).ovenOk n = s.ovenOk n := rfl
  have misplaced : ∀ k : MachineId, m ≠ k ∨ s.ovenOk n = false → ¬ (m = k ∧ (s.heardFrom m).ovenOk n = true) := by
    rintro k (other | outside) ⟨same, inside⟩
    · exact other same
    · rw [ovenOk, outside] at inside
      cases inside
  refine ⟨fun side h => ?_, fun h => ?_, fun h => ?_, fun v h => ?_, fun h => ?_, fun h k r => ?_⟩
  · have noSide : (s.heardFrom m).doorReportSide m n side = none := doorReportSide_eq_none h
    refine ⟨?_, ?_, ?_, ?_⟩
    all_goals
      rw [exec_machineFrame rfl untested]
      simp only [frameEffect, noSide, reject]
  · refine ⟨?_, ?_, ?_⟩
    all_goals
      rw [exec_machineFrame rfl untested]
      simp only [frameEffect, if_neg (misplaced .pm h), reject]
  · refine ⟨?_, ?_, fun v => ?_⟩
    all_goals
      rw [exec_machineFrame rfl untested]
      simp only [frameEffect, if_neg (misplaced .cc h), reject]
  · rw [exec_machineFrame rfl untested]
    simp only [frameEffect, reject]
    obtain rfl | rfl := h <;> split <;> rfl
  · rw [exec_machineFrame rfl untested]
    simp only [frameEffect, if_neg h, reject]
  · subst h
    rw [exec_machineFrame (m := .qc) rfl untested]
    rfl

end Sys2Proof.Machine
end

section
/-! SUPPORT. Chapter 1 and the setup blocks of the oven table: BATTERY, OVEN_LOAD, service and target. -/

namespace Sys2Proof.Machine

open Sys2Proof State

theorem State.part_of_config {s : State} (h : s.inRun = false) : s.cfg.part = .config := by
  unfold inRun at h
  cases hp : s.cfg.part <;> simp_all

/-! ## BATTERY (R7, R8) -/

/-- The numbers rise from the one before: the model's test is the pairwise order. -/
theorem risingFrom_iff (p : Nat) (l : List Nat) : risingFrom p l = true ↔ (p :: l).Pairwise (· < ·) := by
  rw [← List.isChain_iff_pairwise]
  induction l generalizing p with
  | nil => simp [risingFrom]
  | cons a rest ih => simp [risingFrom, ih, List.isChain_cons_cons]

theorem batteryOk_iff (nOv k : Nat) (lasts : List Nat) : batteryOk nOv k lasts = true ↔
    10 ≤ nOv ∧ nOv ≤ 96 ∧ 1 ≤ k ∧ k ≤ 4 ∧ lasts.length = k ∧ (0 :: lasts).Pairwise (· < ·)
      ∧ lasts.getLast? = some nOv := by
  simp only [batteryOk, within, Bool.and_eq_true, decide_eq_true_eq, beq_iff_eq, risingFrom_iff, and_assoc]

/-- The section of an oven is one more than the number of sections that end before it. -/
theorem sectionFrom_eq (k n : Nat) (l : List Nat) (rising : l.Pairwise (· < ·)) :
    sectionFrom k n l = k + (l.filter (· < n)).length := by
  induction l generalizing k with
  | nil => rfl
  | cons a rest ih =>
    obtain ⟨above, tail⟩ := List.pairwise_cons.mp rising
    by_cases h : n ≤ a
    · have empty : rest.filter (· < n) = [] :=
        List.filter_eq_nil_iff.mpr fun b hb => by simpa using h.trans (above b hb).le
      simp [sectionFrom, h, empty]
    · simp [sectionFrom, h, ih (k + 1) tail, not_le.mp h]
      omega

/-- Settles O19: the tests are R7's and R8's, and the tables are those of R7, R8, R88, R108, R128 and R141. -/
theorem batteryCreatesTheTables : Obligations.BatteryCreatesTheTables := by
  unfold Obligations.BatteryCreatesTheTables
  intro s tag nOv k lasts room h good fresh door tables
  have sameRun : h.inRun = s.inRun := supervisorHeard_inRun s
  have sameLoaded : h.cfg.loaded.battery = s.cfg.loaded.battery := by simp [h]
  have test : batteryOk nOv k lasts = true ↔ good := batteryOk_iff nOv k lasts
  have body (config : s.inRun = false) (hgood : good) : requestEffect (.battery tag nOv k lasts) h
      = (tables (if s.cfg.loaded.battery then h.reload else h), ⟨.ok, .nothing, none⟩) := by
    have rising : (0 :: lasts).Pairwise (· < ·) := ((batteryOk_iff nOv k lasts).mp (test.mpr hgood)).2.2.2.2.2.1
    have sections : ∀ n, sectionFrom 1 n lasts = 1 + (lasts.filter (· < n)).length :=
      fun n => sectionFrom_eq 1 n lasts (List.pairwise_cons.mp rising).2
    simp only [requestEffect, sameRun, config, test.mpr hgood, takeBattery, sameLoaded, newTables, sections]
    rfl
  refine ⟨fun run => ?_, fun config bad => ?_, fun config hgood first => ?_, fun config hgood again => ?_⟩
  · refine exec_answered rfl room ?_
    show requestEffect _ h = _
    simp only [requestEffect, sameRun, run]
    rfl
  · have refused : batteryOk nOv k lasts = false := Bool.eq_false_iff.mpr fun ok => bad (test.mp ok)
    refine exec_answered rfl room ?_
    show requestEffect _ h = _
    simp only [requestEffect, sameRun, config, refused]
    rfl
  · exact exec_answered rfl room (by rw [body config hgood, first]; rfl)
  · refine ⟨h.reload, exec_answered rfl room (by rw [body config hgood, again]; rfl), ?_⟩
    refine ⟨rfl, rfl, rfl, rfl, rfl, rfl, rfl, rfl, rfl, rfl, rfl, ?_, rfl, ?_, rfl, rfl, rfl, rfl, ?_⟩
    · rintro (_ | _ | _ | _) <;> rfl
    · rintro (_ | _) <;> rfl
    · exact part_of_config (sameRun.trans config)

/-! ## OVEN_LOAD (R20, R88) -/

/-- The RANGE tests of OVEN_LOAD, each in the words of R20 and R88. -/
theorem ovenLoadOk_iff (s : State) (v : OvenLoad) : ovenLoadOk s v = true ↔
    (1 ≤ v.oven ∧ v.oven ≤ s.ot.length)
      ∧ (v.state = .out ∨ v.state = .empty ∨ v.state = .coking ∨ v.state = .ready)
      ∧ (v.chargeEnd.isSome ↔ v.state = .coking ∨ v.state = .ready) ∧ (∀ t, v.chargeEnd = some t → t.toNat ≤ s.now)
      ∧ (600 ≤ v.target ∧ v.target ≤ 2400) ∧ (v.mode = .fixed ↔ v.fixedPush.isSome)
      ∧ v.doorPs ≠ some .off ∧ v.doorCs ≠ some .off := by
  have fixed : fixedOk v.mode v.fixedPush = true ↔ (v.mode = .fixed ↔ v.fixedPush.isSome) := by
    cases v.fixedPush <;> simp [fixedOk]
  have inTable : s.ovenOk v.oven = true ↔ 1 ≤ v.oven ∧ v.oven ≤ s.ot.length := by
    unfold ovenOk nOv
    simp
  unfold ovenLoadOk
  cases hs : v.state <;> cases ht : v.chargeEnd
  all_goals simp [inTable, within, fixed, and_assoc]

/-- Two changes of one record are one change. -/
theorem upd1_upd1 {α : Type} (f g : α → α) (n : Nat) (l : List α) : upd1 f n (upd1 g n l) = upd1 (f ∘ g) n l := by
  induction l generalizing n with
  | nil => rcases n with _ | _ | n <;> rfl
  | cons a l ih => rcases n with _ | _ | n <;> simp [upd1, ih]

/-- The two doors of an oven written one after the other. -/
theorem State.updDoor_both (s : State) (n : Nat) (a b : DoorRec) :
    (s.updDoor n .ps fun _ => a).updDoor n .cs (fun _ => b) = { s with dru.doors := upd1 (fun _ => ⟨a, b⟩) n s.dru.doors } := by
  simp only [updDoor, upd1_upd1]
  rfl

theorem loadedDoor_eq (threshold : Nat) (st : Option DoorState) : loadedDoor threshold st =
    if st = some .leaking then ⟨.leaking, none, 1, decide (threshold ≤ 1), false, none⟩
    else ⟨st.getD .tight, none, 0, false, false, none⟩ := by
  by_cases h : st = some .leaking <;> simp [loadedDoor, h]

/-- Settles O20. -/
theorem ovenLoadSetsTheRecords : Obligations.OvenLoadSetsTheRecords := by
  unfold Obligations.OvenLoadSetsTheRecords
  intro s tag v room h good door set due done
  have sameRun : h.inRun = s.inRun := supervisorHeard_inRun s
  have sameLoaded : h.cfg.loaded.battery = s.cfg.loaded.battery := by simp [h]
  have test : ovenLoadOk h v = true ↔ good := ovenLoadOk_iff h v
  have block : requestEffect (.ovenLoad tag v) h
      = setup true true (fun s => if ovenLoadOk s v then (takeOvenLoad v s).ok else s.refuse .range) h := rfl
  refine ⟨fun order => ?_, fun loaded run => ?_, fun loaded config bad => ?_, fun loaded config hgood => ?_⟩
  · exact exec_answered rfl room (block.trans <| setup_order (sameLoaded.trans order) _ _)
  · exact exec_answered rfl room (block.trans <| setup_state (sameLoaded.trans loaded) (sameRun.trans run) _)
  · refine exec_answered rfl room (block.trans <| (setup_config (sameLoaded.trans loaded) (sameRun.trans config) true).trans ?_)
    simp only [if_true, if_neg (mt test.mp bad)]
    rfl
  · refine exec_answered rfl room (block.trans <| (setup_config (sameLoaded.trans loaded) (sameRun.trans config) true).trans ?_)
    have ovensKept : ((set.loadNotice v.oven .ps).loadNotice v.oven .cs).cfg.loaded.ovens = h.cfg.loaded.ovens := by
      simp [set]
    have written : takeOvenLoad v h = ((set.loadNotice v.oven .ps).loadNotice v.oven .cs).load fun l =>
        { l with ovens := enter v.oven l.ovens } := by
      simp only [takeOvenLoad, updDoor_both, loadedDoor_eq]
      rfl
    simp only [if_true, if_pos (test.mpr hgood), written, load, enter, ovensKept]
    rfl

/-! ## Service and target (R10, R18) -/

/-- Settles O21: both commands test the oven's number, and OVEN_SERVICE then the oven's state. -/
theorem ovenServiceAndTarget : Obligations.OvenServiceAndTarget := by
  unfold Obligations.OvenServiceAndTarget
  intro s tag n g room h moved aimed
  have sameRun : h.inRun = s.inRun := supervisorHeard_inRun s
  have service (dir : ServiceDir) : requestEffect (.ovenService tag n dir) h = forOven n (ovenServiceOp n dir) h := rfl
  have target : requestEffect (.setTarget tag n g) h = forOven n (setTargetOp n g) h := rfl
  refine ⟨fun dir absent => ?_, fun absent => ?_, fun o present => ⟨?_, ?_, ?_⟩⟩
  · exact exec_answered rfl room ((service dir).trans (forOven_none absent))
  · exact exec_answered rfl room (target.trans (forOven_none absent))
  · have taken := (service .intoService).trans (forOven_some present)
    simp only [ovenServiceOp, ovenIs_eq present, decide_eq_true_eq] at taken
    by_cases fits : o.state = .out
    · rw [if_pos fits] at taken ⊢
      exact exec_answered rfl room taken
    · rw [if_neg fits] at taken ⊢
      exact exec_answered rfl room taken
  · have taken := (service .outOfService).trans (forOven_some present)
    simp only [ovenServiceOp, ovenIs_eq present, decide_eq_true_eq] at taken
    by_cases fits : o.state = .empty
    · rw [if_pos fits] at taken ⊢
      exact exec_answered rfl room taken
    · rw [if_neg fits] at taken ⊢
      exact exec_answered rfl room taken
  · refine exec_answered rfl room (target.trans ((forOven_some present).trans ?_))
    have run : (h.updOven n fun o => { o with target := clampNat 600 2400 g }).inRun = s.inRun := sameRun
    simp only [setTargetOp, run]
    rfl

/-! ## Ready evaluation and the overdue check (R13, R17) -/

theorem reached_readyTime (v : Timing) (o : OvenRec) (now : Nat) : reached now (readyTime v o)
    = o.chargeEnd.any fun t => decide (min tMax (t + (o.target - v.w) * 60) ≤ now) := by
  cases h : o.chargeEnd <;> simp [readyTime, reached, timeAdd, h]

theorem reached_overdueTime (v : Timing) (o : OvenRec) (now : Nat) : reached now (overdueTime v o)
    = o.chargeEnd.any fun t => decide (min tMax (t + (o.target + v.l) * 60) ≤ now) := by
  cases h : o.chargeEnd <;> simp [overdueTime, reached, timeAdd, h]

/-- Two changes that agree on the record numbered n. -/
theorem upd1_congr {α : Type} {f g : α → α} {n : Nat} {l : List α} (h : ∀ a, nth1 l n = some a → f a = g a) :
    upd1 f n l = upd1 g n l := by
  fun_induction upd1 f n l with
  | case1 l => rfl
  | case2 n => rfl
  | case3 a l =>
    rw [h a rfl]
    rfl
  | case4 n a l ih =>
    rw [ih fun b hb => h b (by simpa [nth1] using hb)]
    rfl

/-- A change that leaves the record numbered n as it is leaves the table. -/
theorem upd1_eq_self {α : Type} {f : α → α} {n : Nat} {l : List α} (h : ∀ a, nth1 l n = some a → f a = a) :
    upd1 f n l = l := by
  fun_induction upd1 f n l with
  | case1 l => rfl
  | case2 n => rfl
  | case3 a l => rw [h a rfl]
  | case4 n a l ih => rw [ih fun b hb => h b (by simpa [nth1] using hb)]

theorem State.evalReady_ot (s : State) (n : Nat) : (s.evalReady n).ot = (s.evalReadyRaw n).ot := by
  by_cases same : (s.evalReadyRaw n).ovenState n = s.ovenState n
  · rw [evalReady_unchanged same]
    refine (upd1_eq_self fun o ho => ?_).symm
    have kept : s.readyState o = o.state := by simpa [evalReadyRaw, ovenState, oven, ho] using same
    rw [kept]
  · simp [evalReady_changed same]

/-- An oven that is not COKING with its ready time reached, or READY with it ahead, is left as it is. -/
theorem State.evalReady_of_state {s : State} {n : Nat} {o : OvenRec} (present : s.oven n = some o)
    (h : s.readyState o = o.state) : s.evalReady n = s := by
  refine evalReady_unchanged ?_
  have at0 : nth1 s.ot n = some o := present
  simp [evalReadyRaw, ovenState, oven, at0, h]

/-- A COKING oven whose ready time is reached becomes READY, and nothing else of the table is written. -/
theorem State.evalReady_ready {s : State} {n : Nat} {o : OvenRec} (present : s.oven n = some o) (coking : o.state = .coking)
    (h : reached s.now (readyTime s.cfg.timing o) = true) :
    s.evalReady n = (s.updOven n fun x => { x with state := .ready }).ovenChanged n := by
  have at0 : nth1 s.ot n = some o := present
  have state : s.readyState o = .ready := by simp [readyState, coking, h]
  rw [evalReady_changed (by simp [evalReadyRaw, ovenState, oven, at0, state, coking])]
  have written : s.evalReadyRaw n = s.updOven n fun x => { x with state := .ready } := by
    simp only [evalReadyRaw, updOven, upd1_congr (f := fun x => { x with state := s.readyState x })
      (g := fun x => { x with state := .ready }) (n := n) (l := s.ot) fun a ha => by
        obtain rfl := Option.some.inj (ha.symm.trans at0)
        rw [state]]
  rw [written]

/-- Settles O22. -/
theorem readyAndOverdueExpiries : Obligations.ReadyAndOverdueExpiries := by
  unfold Obligations.ReadyAndOverdueExpiries
  refine ⟨fun s n => ?_, fun s n => ⟨fun same => ?_, fun changed => ?_⟩, fun s n o present => ?_⟩
  · rw [evalReady_ot, evalReadyRaw_eq]
    rfl
  · rw [← evalReadyRaw_eq] at same
    exact evalReady_unchanged same
  · rw [← evalReadyRaw_eq] at changed
    rw [evalReady_changed changed, evalReadyRaw_eq]
    rfl
  intro ready overdue
  refine ⟨?_, ?_, ?_, ?_⟩
  · rintro ⟨run, coking, t, charged, past⟩
    show ends (s.readyExpire n) = _
    rw [readyExpire, if_pos (by simp [run, ovenIs_eq present, coking]), evalReady_ready present coking
      (by simpa [reached_readyTime, charged] using past)]
  · intro early
    show ends (s.readyExpire n) = _
    unfold readyExpire
    split
    next taken =>
      obtain ⟨run, coking⟩ : s.inRun = true ∧ o.state = .coking := by simpa [ovenIs_eq present] using taken
      have ahead : ¬ reached s.now (readyTime s.cfg.timing o) = true := fun past =>
        early ⟨run, coking, by simpa [reached_readyTime, Option.any_eq_true] using past⟩
      rw [evalReady_of_state present (by simp [readyState, coking, ahead])]
    next => rfl
  · rintro t ⟨run, state, first, charged, past⟩
    have due : s.isOverdue o = true := by
      simpa [isOverdue, run, first, reached_overdueTime, charged] using And.intro state past
    show ends (s.overdueCheck n) = _
    simp [overdueCheck, present, due, overdueTime, charged, timeAdd]
  · intro early
    have ahead : ¬ s.isOverdue o = true := fun past => by
      simp only [isOverdue, Bool.and_eq_true, Bool.or_eq_true, beq_iff_eq, Bool.not_eq_true', reached_overdueTime,
        Option.any_eq_true, decide_eq_true_eq] at past
      obtain ⟨⟨⟨run, state⟩, first⟩, t, charged, reached⟩ := past
      exact early t ⟨run, state, first, charged, reached⟩
    show ends (s.overdueCheck n) = _
    simp [overdueCheck, present, ahead]

end Sys2Proof.Machine
end

section
/-! SUPPORT. Chapter 1: charging, from CHARGE_START to CHARGE_END. -/

namespace Sys2Proof.Machine

open Sys2Proof State

namespace State

theorem ovenOk_of_ovenIs {s : State} {n : Nat} {st : OvenState} (h : s.ovenIs n st = true) : s.ovenOk n = true := by
  cases present : s.oven n with
  | none => simp [ovenIs, ovenState, present] at h
  | some o => exact ovenOk_of_some present

theorem covers_of_permit {s : State} {m : MachineId} {p : Permit} (held : s.permit m = some p) {k : PermitKind} {n : Nat}
    (kind : p.kind = k) (oven : p.oven = n) : s.covers m k n = true := by
  simp [covers, held, kind, oven]

/-- The record of an oven that CHARGE_START makes CHARGING. -/
def charging (o : OvenRec) : OvenRec := { o with state := .charging, chargeEnd := none }

/-- The record of an oven that begins a coking period at `now`. -/
def coking (now : Nat) (o : OvenRec) : OvenRec := { o with state := .coking, chargeEnd := some now, overdue := false }

theorem assumeEnd_charges (s : State) (m : Nat) :
    (s.assumeEnd m).ofu.charges = s.ofu.charges.filter fun c => c.oven != m := by simp [assumeEnd, dropCharge]

theorem dropCharge_eq (s : State) (n : Nat) :
    s.dropCharge n = { s with ofu.charges := s.ofu.charges.filter fun c => c.oven ≠ n } := by
  simp only [dropCharge, bne, beq_eq_decide, ne_eq, decide_not]

/-- The end of a charge by assumption, the offtake unit's part written out (R11, R137). -/
theorem assumeEnd_eq (s : State) (m : Nat) : s.assumeEnd m
    = (offerValve { (s.updOven m (coking s.now)).raise (.chargeAssumedEnd m s.now) with
        ofu.charges := s.ofu.charges.filter fun c => c.oven ≠ m } m .normal).ovenChanged m := by
  have kept : ((s.beginCoking m).raise (.chargeAssumedEnd m s.now)).ofu.charges = s.ofu.charges := by simp
  rw [assumeEnd, dropCharge_eq, kept]
  rfl

section
variable {s : State} {n : Nat} (run : s.inRun = true) (empty : s.ovenIs n .empty = true)
include run empty

theorem chargeFact_ot : (s.chargeFact n).ot
    = ((s.chargingElsewhere n (s.secOf n)).elim id fun m => upd1 (coking s.now) m) (upd1 charging n s.ot) := by
  cases other : s.chargingElsewhere n (s.secOf n) <;> simp [chargeFact, run, empty, other, assumeEnd, beginCoking]
  all_goals rfl

theorem chargeFact_charges : (s.chargeFact n).ofu.charges
    = (s.ofu.charges.filter fun c => s.chargingElsewhere n (s.secOf n) ≠ some c.oven)
      ++ [⟨n, s.now, some (min tMax (s.now + s.cfg.timing.tCharge)), false⟩] := by
  cases other : s.chargingElsewhere n (s.secOf n) with
  | none => simp [chargeFact, run, empty, other, now, timeAdd]
  | some m =>
    simp [chargeFact, run, empty, other, now, timeAdd, assumeEnd_charges]
    simp only [bne, beq_eq_decide, eq_comm]

theorem chargeFact_oven : (s.chargeFact n).oven n = (s.oven n).map charging := by
  unfold oven
  rw [chargeFact_ot run empty]
  cases other : s.chargingElsewhere n (s.secOf n) with
  | none => simp
  | some m => simp [(chargingElsewhere_some other).1]

theorem chargeFact_oven_ne {k : Nat} (h : k ≠ n) : (s.chargeFact n).oven k
    = if s.chargingElsewhere n (s.secOf n) = some k then (s.oven k).map (coking s.now) else s.oven k := by
  unfold oven
  rw [chargeFact_ot run empty]
  cases other : s.chargingElsewhere n (s.secOf n) with
  | none => simp [h.symm]
  | some m => simp [h.symm]

end
end State

/-- Settles O23. -/
theorem coveredChargeStart : Obligations.CoveredChargeStart := by
  unfold Obligations.CoveredChargeStart
  refine ⟨fun s n run empty => ?_, fun s n blocked => ?_, fun s n p untested inTime run empty held kind place => ?_⟩
  · have taken : (s.inRun && s.ovenIs n .empty) = true := by simp [run, ovenIs, empty]
    intro u other v
    have same : s.chargingElsewhere n (s.secOf n) = other := rfl
    clear_value other
    simp only [chargeFact, if_pos taken, same]
    cases other with
    | none => rfl
    | some m =>
      simp only [assumeEnd_eq]
      rfl
  · have refused : ¬ (s.inRun && s.ovenIs n .empty) = true := by
      simpa [ovenIs, imp_iff_not_or] using blocked
    exact if_neg refused
  · have heardRun : (s.heardFrom .cc).inRun = true := run
    have covered : (s.heardFrom .cc).covers .cc .charge n = true := covers_of_permit held kind place
    have inTable : (s.heardFrom .cc).ovenOk n = true := ovenOk_of_ovenIs empty
    have event : exec (.chargeStart .cc n) s = ends ((((s.heardFrom .cc).setPermit .cc none).chargeFact n).retest).dispatchValve := by
      rw [exec_machineFrame rfl untested]
      simp [frameEffect, inTable, takeChargeStart, covered, usePermit]
    refine ⟨event, _, event, ?_⟩
    have early : ((((s.heardFrom .cc).setPermit .cc none).chargeFact n).retest).dispatchValve.now < tMax := by
      simpa [now] using inTime
    rw [settle_eq_kick early]
    have permits : Within ((s.heardFrom .cc).setPermit .cc none).ilk.permits
        ((((s.heardFrom .cc).setPermit .cc none).chargeFact n).retest).dispatchValve.ilk.permits := by
      rw [(dispatchValve_frame _).2.2.2.1]
      exact retest_within (chargeFact_within (Within.refl _) n)
    have used : ((s.heardFrom .cc).setPermit .cc none).ilk.permits.get .cc = none := rfl
    have table : (((((s.heardFrom .cc).setPermit .cc none).chargeFact n).retest).dispatchValve).kick.ot
        = (((s.heardFrom .cc).setPermit .cc none).chargeFact n).ot := by simp
    have charges : (((((s.heardFrom .cc).setPermit .cc none).chargeFact n).retest).dispatchValve).kick.ofu.charges
        = (((s.heardFrom .cc).setPermit .cc none).chargeFact n).ofu.charges := by simp
    refine ⟨?_, ?_, fun k other => ?_, ?_⟩
    · simpa [permit, used] using permits .cc
    · exact (congrArg (nth1 · n) table).trans (chargeFact_oven (s := (s.heardFrom .cc).setPermit .cc none) run empty)
    · exact (congrArg (nth1 · k) table).trans (chargeFact_oven_ne (s := (s.heardFrom .cc).setPermit .cc none) run empty other)
    · exact charges.trans (chargeFact_charges (s := (s.heardFrom .cc).setPermit .cc none) run empty)

/-! ## CHARGE_END (R12, R137) -/

/-- The state that ready evaluation gives, its two states taken together. -/
theorem State.readyState_eq (s : State) (o : OvenRec) : s.readyState o =
    if o.state = .coking ∨ o.state = .ready then (if reached s.now (readyTime s.cfg.timing o) then .ready else .coking)
    else o.state := by
  cases h : o.state <;> simp [readyState, h]

/-- The overdue check writes the overdue flag of an oven whose time is reached, and nothing else of the table (R17). -/
theorem State.overdueCheck_ot (s : State) (n : Nat) :
    (s.overdueCheck n).ot = upd1 (fun o => { o with overdue := o.overdue || s.isOverdue o }) n s.ot := by
  cases present : s.oven n with
  | none =>
    have outside : nth1 s.ot n = none := present
    rw [upd1_eq_self (by simp [outside])]
    simp [overdueCheck, present]
  | some o =>
    have inside : nth1 s.ot n = some o := present
    by_cases due : s.isOverdue o = true
    · rw [upd1_congr (g := fun x => { x with overdue := true })]
      · simp [overdueCheck, present, due]
      · rintro a ha
        obtain rfl := Option.some.inj (inside.symm.trans ha)
        simp [due]
    · rw [upd1_eq_self]
      · simp [overdueCheck, present, due]
      · rintro a ha
        obtain rfl := Option.some.inj (inside.symm.trans ha)
        simp [due]

/-- The oven's record after a taken CHARGE_END: the new coking period, and what the new charge end makes of it at once. -/
theorem State.told_ot (s : State) (n : Nat) (run : s.inRun = true) :
    ((((s.updOven n (coking s.now)).ovenChanged n).evalReady n).overdueCheck n).ot = upd1 (fun o => { o with
      state := if min tMax (s.now + (o.target - s.cfg.timing.w) * 60) ≤ s.now then .ready else .coking
      chargeEnd := some s.now
      overdue := decide (min tMax (s.now + (o.target + s.cfg.timing.l) * 60) ≤ s.now) }) n s.ot := by
  rw [overdueCheck_ot, evalReady_ot, evalReadyRaw, updOven_ot, upd1_upd1, (ovenChanged_frame _ n).2.1, updOven_ot, upd1_upd1]
  refine upd1_congr fun o _ => ?_
  simp [readyState_eq, isOverdue, reached_readyTime, reached_overdueTime, coking, now, inRun]
  exact fun _ => ⟨by simpa [inRun] using run, fun _ => (em _).symm⟩

/-- Settles O24. -/
theorem chargeEndBeginsCoking : Obligations.ChargeEndBeginsCoking := by
  unfold Obligations.ChargeEndBeginsCoking
  intro s n o untested present
  have inTable : (s.heardFrom .cc).ovenOk n = true := ovenOk_of_some (s := s.heardFrom .cc) present
  have at0 : (s.heardFrom .cc).ovenIs n .charging = decide (o.state = .charging) := ovenIs_eq (s := s.heardFrom .cc) present _
  have state : (s.heardFrom .cc).ovenState n = some o.state := by simp [ovenState, show (s.heardFrom .cc).oven n = some o from present]
  have sameRun : (s.heardFrom .cc).inRun = s.inRun := rfl
  have event : exec (.chargeEnd .cc n) s = ends ((s.heardFrom .cc).chargeEndFact n) := by
    rw [exec_machineFrame rfl untested]
    simp [frameEffect, inTable]
  have taken (run : s.inRun = true) (charging : o.state = .charging) : (s.heardFrom .cc).chargeEndFact n =
      let told := (((((s.heardFrom .cc).updOven n (coking s.now)).ovenChanged n).evalReady n).overdueCheck n)
      State.offerValve { told with ofu.charges := told.ofu.charges.filter fun c => c.oven ≠ n } n .normal := by
    simp only [chargeEndFact, sameRun, run, at0, charging, dropCharge_eq]
    rfl
  refine ⟨fun run charging => ?_, fun inTime run charging => ?_, fun refused => ?_⟩
  · rw [event, taken run charging]
    rfl
  · rw [event, taken run charging]
    refine ⟨_, rfl, ?_, ?_⟩
    · rw [settle_eq_kick (by simpa [now] using inTime)]
      have table := told_ot (s.heardFrom .cc) n run
      simp only [kick_frame, offerValve_frame]
      exact table
    · rw [settle_eq_kick (by simpa [now] using inTime)]
      simp
  · have other : ¬ ((s.heardFrom .cc).inRun && (s.heardFrom .cc).ovenIs n .charging) = true := by
      simpa [sameRun, at0, imp_iff_not_or] using refused
    rw [event, chargeEndFact, if_neg other, state]
    rfl

end Sys2Proof.Machine
end

section
/-! SUPPORT. Chapter 2: the planner's operations, a rule for each, and SERIES, PLAN_STAGE and PLAN_START. -/

namespace Sys2Proof.Machine

open Sys2Proof State

/-! ## Rules of the planner's operations -/

namespace State

/-- A notice and a change of the planner commute. -/
theorem raise_updPlan (s : State) (b : NoticeBody) (f : Planner → Planner) :
    (s.raise b).updPlan f = (s.updPlan f).raise b := by
  unfold raise
  split
  next room => exact (if_pos room).symm
  next full => exact (if_neg full).symm

/-- The ovens of a build, in the words of R24. -/
theorem inBuild_eq (s : State) : s.inBuild = fun n =>
    match s.oven n with
    | some o => o.state ≠ .out && o.mode ≠ .skip
    | none => false := by
  funext n
  unfold inBuild
  cases s.oven n with
  | none => rfl
  | some o => simp only [bne, beq_eq_decide, ne_eq, decide_not]

end State

/-- The slots of a round, each planned π after the one before (R24). -/
theorem slotsFrom_eq (start pi : Nat) (ovens : List Nat) : slotsFrom start pi 0 ovens
    = ovens.mapIdx fun i n => (⟨n, min tMax (start + i * pi), .waiting, none⟩ : Slot) := by
  have shifted : ∀ (i : Nat) (l : List Nat), slotsFrom start pi i l
      = l.mapIdx fun j n => (⟨n, min tMax (start + (i + j) * pi), .waiting, none⟩ : Slot) := by
    intro i l
    induction l generalizing i with
    | nil => rfl
    | cons n rest ih => simp [slotsFrom, ih, List.mapIdx_cons, timeAdd, Nat.add_comm, Nat.add_left_comm]
  simpa using shifted 0 ovens

/-- The slots of a build. -/
def buildSlots (s : State) (p : SeriesParams) (start : Nat) : List Slot :=
  slotsFrom start p.pi 0 ((seriesOrder s.nOv p.s p.d).filter s.inBuild)

section
variable (s : State) (p : SeriesParams) (start number : Nat) (stagedUsed : Bool) (st : PlanState)

theorem State.build_none (h : (seriesOrder s.nOv p.s p.d).filter s.inBuild = []) :
    s.build p start number stagedUsed st = State.raise { s with pln := { s.pln with
      state := .idle, round := none, cursor := none, dueTimer := none, holdOver := none, active := p, serving := none } }
      (.planIdle number) := by
  simp only [build, h, slotsFrom, List.isEmpty_nil, if_true, idleServing, raise_updPlan]
  rfl

theorem State.build_some {ovens : List Nat} (h : (seriesOrder s.nOv p.s p.d).filter s.inBuild = ovens) (some : ovens ≠ []) :
    s.build p start number stagedUsed st = State.raise { s with pln := { s.pln with
      state := st
      round := Option.some ⟨number, start, ovens.mapIdx fun i n => ⟨n, min tMax (start + i * p.pi), .waiting, none⟩⟩
      cursor := Option.some 0, dueTimer := none, holdOver := none, active := p } }
      (.roundStart number ovens.length start p.pi s.pln.lag stagedUsed) := by
  have full : (ovens.mapIdx fun i n => (⟨n, min tMax (start + i * p.pi), .waiting, none⟩ : Slot)).isEmpty = false := by
    simpa [List.isEmpty_iff] using some
  simp only [build, h, slotsFrom_eq, full, List.length_mapIdx]
  rfl

end

/-- The tests of SERIES in the words of R22. -/
theorem seriesOk_iff (p : SeriesParams) : seriesOk p = true ↔
    (2 ≤ p.s ∧ p.s ≤ 10) ∧ (1 ≤ p.d ∧ p.d ≤ p.s - 1) ∧ Nat.gcd p.d p.s = 1 ∧ (300 ≤ p.pi ∧ p.pi ≤ 3600)
      ∧ p.c ≤ p.pi / 2 ∧ p.h ≤ 3600 := by
  simp only [seriesOk, within, Bool.and_eq_true, decide_eq_true_eq, beq_iff_eq, and_assoc]

/-- Settles O26. -/
theorem stagedSeriesAndItsMark : Obligations.StagedSeriesAndItsMark := by
  unfold Obligations.StagedSeriesAndItsMark
  refine ⟨fun s tag p start room => ?_, fun s tag room => ⟨fun run => ?_, fun config => ?_⟩, fun s r round => ?_⟩
  · intro h good
    have sameRun : h.inRun = s.inRun := supervisorHeard_inRun s
    have sameLoaded : h.cfg.loaded.battery = s.cfg.loaded.battery := by simp [h]
    have test : seriesOk p = true ↔ good := seriesOk_iff p
    have block : requestEffect (.series tag p start) h
        = setup false (seriesOk p) (fun s => (takeSeries p start s).ok) h := rfl
    refine ⟨fun order => ?_, fun loaded bad => ?_, fun loaded ok => ?_⟩
    · exact exec_answered rfl room (block.trans (setup_order (sameLoaded.trans order) _ _))
    · refine exec_answered rfl room (block.trans ((setup_always (sameLoaded.trans loaded) _).trans ?_))
      rw [if_neg (mt test.mp bad)]
      rfl
    · refine exec_answered rfl room (block.trans ((setup_always (sameLoaded.trans loaded) _).trans ?_))
      rw [if_pos (test.mpr ok), takeSeries, sameRun]
      rfl
  · exact exec_answered rfl room (runOnly_run (s := s.supervisorHeard) (by simpa using run))
  · exact exec_answered rfl room (runOnly_config (s := s.supervisorHeard) (by simpa using config))
  · intro computed number p start ovens slots kept
    let u : State := { s with
      pln.mark := false, pln.stagedStart := if s.pln.mark = true then none else s.pln.stagedStart }
    have base : s.buildNext = u.build p start number s.pln.mark s.pln.state := by
      simp only [buildNext, round]
      cases mark : s.pln.mark with
      | false =>
        have same : u = s := by
          calc u = { s with pln.mark := s.pln.mark, pln.stagedStart := s.pln.stagedStart } := by simp [u, mark]
            _ = s := rfl
        simp only [same, p, start, mark]
        rfl
      | true =>
        simp only [u, p, start, mark]
        cases s.pln.stagedStart <;> rfl
    have list : (seriesOrder u.nOv p.s p.d).filter u.inBuild = ovens := by
      rw [inBuild_eq]
      rfl
    refine ⟨fun some => ?_, fun none => ?_, fun present => ?_, fun lost => ?_⟩
    · rw [base, build_some u p start number _ _ list some]
    · rw [base, build_none u p start number _ _ (list.trans none)]
    · exact if_pos present
    · have named : nextNumber ((s.pln.round.map RoundRec.number).getD 0) = number := by
        rw [round]
        rfl
      simp only [boundary, lost, idleServing, raise_updPlan, named]
      rfl

/-! ## PLAN_START (R35) -/

theorem raise_pln (s : State) (b : NoticeBody) : (s.raise b).pln = s.pln := by simp

/-- Settles O27. -/
theorem planStartBuildsRoundZero : Obligations.PlanStartBuildsRoundZero := by
  unfold Obligations.PlanStartBuildsRoundZero
  intro s tag start room run h ovens from_ slots
  have block : requestEffect (.planStart tag start) h = planStartOp start h :=
    runOnly_run (s := h) ((supervisorHeard_inRun s).trans run)
  let u : State := { h with pln.lag := 0 }
  have list : (seriesOrder u.nOv h.pln.active.s h.pln.active.d).filter u.inBuild = ovens := by
    rw [inBuild_eq]
    rfl
  refine ⟨fun busy => ?_, fun idle some => ?_, fun idle none => ?_⟩
  · exact exec_answered rfl room (block.trans (if_neg busy))
  · have built := build_some u h.pln.active from_ 0 false .running list some
    have body : planStartOp start h = ((u.build h.pln.active from_ 0 false .running).planUpdate,
        .okWith (.slotCount (u.build h.pln.active from_ 0 false .running).slotCount)) := if_pos idle
    have count : (u.build h.pln.active from_ 0 false .running).slotCount = ovens.length := by
      rw [built, slotCount, raise_pln]
      exact List.length_mapIdx
    rw [count, built] at body
    exact exec_answered rfl room (block.trans body)
  · have built := build_none u h.pln.active from_ 0 false .running (list.trans none)
    have body : planStartOp start h = ((u.build h.pln.active from_ 0 false .running).planUpdate,
        .okWith (.slotCount (u.build h.pln.active from_ 0 false .running).slotCount)) := if_pos idle
    have count : (u.build h.pln.active from_ 0 false .running).slotCount = 0 := by
      rw [built, slotCount, raise_pln]
      rfl
    rw [count, built] at body
    exact exec_answered rfl room (block.trans body)

/-! ## The serving entry, PLAN_HALT and PLAN_RESUME (R28, R30, R36, R37) -/

/-- The round once the serving entry is released: a DUE slot waits again (R28, R31). -/
def State.releasedRound (s : State) : Option RoundRec :=
  match s.pln.serving, s.pln.cursor, s.cursorStatus with
  | some .slot, some i, some .due =>
    s.pln.round.map fun r => { r with slots := upd1 (fun x => { x with status := .waiting }) (i + 1) r.slots }
  | _, _, _ => s.pln.round

theorem State.releaseServing_eq (s : State) :
    s.releaseServing = { s with pln := { s.pln with serving := none, round := s.releasedRound } } := by
  unfold releaseServing releasedRound updCursor
  cases s.pln.cursor
  all_goals
    rcases s.pln.serving with _ | _ | _
    all_goals rcases s.cursorStatus with _ | _ | _ | _ | _ | _ <;> rfl

/-- The advance of the cursor, a round being kept (R30). -/
theorem State.advance_eq {s : State} {r : RoundRec} {i : Nat} (round : s.pln.round = some r) (cursor : s.pln.cursor = some i) :
    s.advance =
      let u : State := { s with pln.lag := s.pln.lag - s.pln.active.c, pln.holdOver := none, pln.dueTimer := none }
      if i + 1 < r.slots.length then { u with pln.cursor := some (i + 1) } else u.boundary := by
  simp only [advance, updPlan, round, cursor]

/-- Settles O28. -/
theorem planHaltAndResume : Obligations.PlanHaltAndResume := by
  unfold Obligations.PlanHaltAndResume
  refine ⟨fun s r i round cursor => advance_eq round cursor, fun s tag room run => ?_⟩
  intro h
  have heardRun : h.inRun = true := (supervisorHeard_inRun s).trans run
  have halt : requestEffect (.planHalt tag) h = planHaltOp h := runOnly_run heardRun
  have resume : requestEffect (.planResume tag) h = planResumeReq h := runOnly_run heardRun
  refine ⟨fun other => ?_, fun other => ?_, fun running => ?_, fun halted => ?_⟩
  · exact exec_answered rfl room (halt.trans (if_neg other))
  · exact exec_answered rfl room (resume.trans (if_neg other))
  · intro u waits
    refine exec_answered rfl room (halt.trans ((if_pos running).trans ?_))
    have taken : h.planHalt = State.planReport (match u.servingOven with
        | some o => if u.ovenIs o .pushing then u else u.releaseServing
        | none => u) := if_pos running
    have oven : u.servingOven = h.servingOven := rfl
    rw [taken, oven, releaseServing_eq]
    cases h.servingOven <;> rfl
  · intro u
    refine exec_answered rfl room (resume.trans ((if_pos halted).trans ?_))
    have status : u.cursorStatus = h.cursorStatus := rfl
    have taken : h.planResumeOp = State.planUpdate (match u.cursorStatus with
        | some .done => u.advance
        | some .passed => u.advance
        | _ => u) := rfl
    rw [taken, status]
    rcases h.cursorStatus with _ | _ | _ | _ | _ | _ <;> rfl

end Sys2Proof.Machine
end

section
/-! SUPPORT. Chapter 2: slot modes, the range operation and the make-up list. -/

namespace Sys2Proof.Machine

open Sys2Proof State

/-! ## Writing a slot mode (R28, R41) -/

namespace State
section
variable (s : State) (n : Nat) (mode : SlotMode) (fixedPush : Option Nat)

/-- The mode of an oven, written. -/
def moded : State := s.updOven n fun o => { o with mode := mode, fixedPush := fixedPush }

variable {s n mode fixedPush}

theorem writeMode_elsewhere (h : s.cursorAt n = false) : s.writeMode n mode fixedPush = s.moded n mode fixedPush :=
  if_neg (Bool.eq_false_iff.mp h)

theorem writeMode_here (h : s.cursorAt n = true) {st : Option SlotStatus} (status : s.cursorStatus = st) :
    s.writeMode n mode fixedPush =
      let u := s.moded n mode fixedPush
      match st with
      | some .waiting => u.planUpdate
      | some .due =>
        if mode = .hold ∨ mode = .skip then (u.releaseServing.passSlot .mode).planUpdate
        else if mode = .fixed ∧ s.now < fixedPush.getD 0 then { u.releaseServing with pln.holdOver := none }.planUpdate
        else u.planReport
      | _ => u.planReport := by
  have kept : (s.moded n mode fixedPush).cursorStatus = st := status
  refine (if_pos (c := s.cursorAt n = true) h).trans ?_
  show (match (s.moded n mode fixedPush).cursorStatus with | some .waiting => _ | some .due => _ | _ => _) = _
  rw [kept]
  rcases st with _ | _ | _ | _ | _ | _ <;> rfl

/-- Writing a mode leaves the number of ovens. -/
theorem writeMode_nOv (s : State) (n : Nat) (mode : SlotMode) (fixedPush : Option Nat) :
    (s.writeMode n mode fixedPush).nOv = s.nOv := by
  unfold nOv writeMode
  dsimp only
  (repeat' split) <;> simp

section
variable (here : s.cursorAt n = true)
include here

theorem writeMode_waiting (waiting : s.cursorStatus = some .waiting) :
    s.writeMode n mode fixedPush = (s.moded n mode fixedPush).planUpdate := writeMode_here here waiting

theorem writeMode_pass (due : s.cursorStatus = some .due) (pass : mode = .hold ∨ mode = .skip) :
    s.writeMode n mode fixedPush = ((s.moded n mode fixedPush).releaseServing.passSlot .mode).planUpdate :=
  (writeMode_here here due).trans (if_pos pass)

theorem writeMode_back (due : s.cursorStatus = some .due) (fixed : mode = .fixed) (ahead : s.now < fixedPush.getD 0) :
    s.writeMode n mode fixedPush = { (s.moded n mode fixedPush).releaseServing with pln.holdOver := none }.planUpdate := by
  subst fixed
  exact (writeMode_here here due).trans ((if_neg (by simp)).trans (if_pos ⟨rfl, ahead⟩))

theorem writeMode_stay (due : s.cursorStatus = some .due)
    (stay : mode = .auto ∨ (mode = .fixed ∧ fixedPush.getD 0 ≤ s.now)) :
    s.writeMode n mode fixedPush = (s.moded n mode fixedPush).planReport := by
  refine (writeMode_here here due).trans ((if_neg ?_).trans (if_neg ?_))
  · obtain rfl | ⟨rfl, -⟩ := stay <;> simp
  · obtain rfl | ⟨rfl, past⟩ := stay <;> simp_all

theorem writeMode_otherwise (waiting : s.cursorStatus ≠ some .waiting) (due : s.cursorStatus ≠ some .due) :
    s.writeMode n mode fixedPush = (s.moded n mode fixedPush).planReport := by
  obtain ⟨st, status⟩ : ∃ st, s.cursorStatus = st := ⟨_, rfl⟩
  rw [writeMode_here here status]
  rcases st with _ | _ | _ | _ | _ | _ <;> simp_all

end

end
end State

theorem fixedOk_iff (mode : SlotMode) (fixedPush : Option Time32) :
    fixedOk mode fixedPush = true ↔ (mode = .fixed ↔ fixedPush.isSome = true) := by
  cases fixedPush <;> simp [fixedOk]

/-- Settles O29. -/
theorem setModeWritesTheOven : Obligations.SetModeWritesTheOven := by
  unfold Obligations.SetModeWritesTheOven
  intro s tag n mode fixedPush room h good u run
  have block : requestEffect (.setMode tag n mode fixedPush) h = forOven n (setModeOp n mode fixedPush) h := rfl
  have written (ok : good) (still : h.ovenIs n .pushing = false) :
      run = answered tag .ok .nothing (h.writeMode n mode (fixedPush.map BitVec.toNat)) := by
    obtain ⟨o, present⟩ := Option.isSome_iff_exists.mp ok.1
    refine exec_answered rfl room (block.trans ((forOven_some present).trans ?_))
    simp only [setModeOp, (fixedOk_iff mode fixedPush).mpr ok.2, still]
    rfl
  refine ⟨fun bad => ?_, fun ok pushing => ?_, fun ok still away => ?_, fun ok still here waiting => ?_,
    fun ok still here due => ⟨fun pass => ?_, fun f carried ahead => ?_, fun stay => ?_⟩, fun ok still here waits due => ?_⟩
  · cases present : h.oven n with
    | none => exact exec_answered rfl room (block.trans (forOven_none present))
    | some o =>
      have unfit : fixedOk mode fixedPush = false :=
        Bool.eq_false_iff.mpr fun fit => bad ⟨by rw [present]; rfl, (fixedOk_iff mode fixedPush).mp fit⟩
      refine exec_answered rfl room (block.trans ((forOven_some present).trans ?_))
      simp only [setModeOp, unfit]
      rfl
  · obtain ⟨o, present⟩ := Option.isSome_iff_exists.mp ok.1
    refine exec_answered rfl room (block.trans ((forOven_some present).trans ?_))
    simp only [setModeOp, (fixedOk_iff mode fixedPush).mpr ok.2, pushing]
    rfl
  · rw [written ok still, writeMode_elsewhere away]
    rfl
  · rw [written ok still, writeMode_waiting here waiting]
    rfl
  · rw [written ok still, writeMode_pass here due pass]
    rfl
  · have fixed : mode = .fixed := ok.2.mpr (by
      cases fixedPush with
      | none => cases carried
      | some t => rfl)
    rw [written ok still, writeMode_back here due fixed (by rw [carried]; exact ahead)]
    rfl
  · have past : mode = .auto ∨ (mode = .fixed ∧ (fixedPush.map BitVec.toNat).getD 0 ≤ h.now) := by
      refine stay.imp_right fun ⟨fixed, early⟩ => ⟨fixed, ?_⟩
      obtain ⟨t, rfl⟩ := Option.isSome_iff_exists.mp (ok.2.mp fixed)
      exact early t.toNat rfl
    rw [written ok still, writeMode_stay here due past]
    rfl
  · rw [written ok still, writeMode_otherwise here waits due]
    rfl

/-! ## The range operation (R42 to R44) -/

/-- Settles O30. -/
theorem rangeOperation : Obligations.RangeOperation := by
  unfold Obligations.RangeOperation
  refine ⟨fun s n mode fixedPush => ?_, fun s tag a b mode fixedPush room run => ?_,
    fun s => ⟨fun idle => ?_, fun r active => ?_⟩⟩
  · intro u here wrote
    have at0 {st : SlotStatus} (h : here st) : s.cursorAt n = true := by simp [cursorAt, h.1]
    refine ⟨fun away => ?_, fun h => writeMode_waiting (at0 h) h.2, fun h pass => writeMode_pass (at0 h) h.2 pass,
      fun h fixed ahead => writeMode_back (at0 h) h.2 fixed ahead, fun h stay => writeMode_stay (at0 h) h.2 stay,
      fun h => ?_⟩
    · exact writeMode_elsewhere (by simpa [cursorAt] using away)
    · obtain h | h | h := h
      all_goals exact writeMode_otherwise (at0 h) (by simp [h.2]) (by simp [h.2])
  · intro h good count
    have heardRun : h.inRun = true := (supervisorHeard_inRun s).trans run
    have block : requestEffect (.setModeRange tag a b mode fixedPush) h = setModeRangeOp a b mode fixedPush h :=
      runOnly_run heardRun
    have abort : requestEffect (.rangeAbort tag) h = rangeAbortOp h := runOnly_run heardRun
    have inTable (n : Nat) : h.ovenOk n = (h.oven n).isSome := ovenOk_eq h n
    refine ⟨fun bad => ?_, fun ok busy => ?_, fun m named ok free => ?_, fun none => ?_, fun r some => ?_⟩
    · refine exec_answered rfl room (block.trans ?_)
      cases named : mode with
      | none => rfl
      | some m =>
        have unfit : (!(h.ovenOk a) || !(h.ovenOk b) || !(fixedOk m fixedPush)) = true := by
          by_contra fits
          simp only [Bool.or_eq_true, Bool.not_eq_true', not_or, Bool.not_eq_false, inTable, fixedOk_iff] at fits
          obtain ⟨⟨hfirst, hlast⟩, hfixed⟩ := fits
          exact bad ⟨hfirst, hlast, by rw [named]; rfl, by simpa [named] using hfixed⟩
        simp only [setModeRangeOp, unfit]
        rfl
    · obtain ⟨hfirst, hlast, hmode, hfixed⟩ := ok
      obtain ⟨m, rfl⟩ := Option.isSome_iff_exists.mp hmode
      have fit : fixedOk m fixedPush = true := (fixedOk_iff m fixedPush).mpr (by simpa using hfixed)
      refine exec_answered rfl room (block.trans ?_)
      simp only [setModeRangeOp, inTable, hfirst, hlast, fit, busy]
      rfl
    · obtain ⟨hfirst, hlast, -, hfixed⟩ := ok
      have fit : fixedOk m fixedPush = true := (fixedOk_iff m fixedPush).mpr (by simpa [named] using hfixed)
      refine exec_answered rfl room (block.trans ?_)
      simp only [setModeRangeOp, named, inTable, hfirst, hlast, fit, free]
      rfl
    · refine exec_answered rfl room (abort.trans ?_)
      simp [rangeAbortOp, none]
      rfl
    · refine exec_answered rfl room (abort.trans ?_)
      simp [rangeAbortOp, some]
      rfl
  · show ends (doRangeStepEnd s) = _
    simp [doRangeStepEnd, idle]
  · intro finish x u
    show ends (doRangeStepEnd s) = _
    have ovens : u.nOv = s.nOv := by
      simp only [u]
      split
      · rfl
      · exact writeMode_nOv ..
    have visited : s.rangeStep r = if r.abort then s.rangeEnd r true
        else
          let x := { x with next := if r.next < u.nOv then r.next + 1 else 1 }
          if x.left = 0 then u.rangeEnd x false else u.updPlan fun q => { q with range := some x } := rfl
    simp only [doRangeStepEnd, active, visited, ovens]
    rfl

/-! ## The make-up list (R32 to R34) -/

namespace State

/-- The make-up entry may become the serving one (R33). -/
def FitsMakeup (s : State) (e : MakeupEntry) : Prop :=
  s.ovenState e.oven = some .ready ∧ s.cursorSlot.map Slot.oven ≠ some e.oven

/-- The make-up check looks through the list (R33). -/
def looksForMakeup (s : State) : Prop :=
  s.pln.state = .running ∧ s.pln.serving = none ∧ s.cursorStatus = some .waiting

theorem fitsMakeup_iff (s : State) (e : MakeupEntry) :
    (s.ovenIs e.oven .ready && !s.cursorAt e.oven) = true ↔ s.FitsMakeup e := by
  simp [ovenIs, cursorAt, FitsMakeup]

theorem looksForMakeup_iff (s : State) :
    (s.pln.state = .running ∧ s.pln.serving.isNone ∧ s.cursorWaiting) ↔ s.looksForMakeup := by
  simp [looksForMakeup, cursorWaiting]

theorem makeupCheck_idle {s : State} (h : ¬ s.looksForMakeup) : s.makeupCheck = s :=
  if_neg (mt s.looksForMakeup_iff.mp h)

theorem makeupCheck_none {s : State} (h : ∀ e ∈ s.pln.makeup, ¬ s.FitsMakeup e) : s.makeupCheck = s := by
  have nothing : (s.pln.makeup.find? fun e => s.ovenIs e.oven .ready && !s.cursorAt e.oven) = none :=
    List.find?_eq_none.mpr fun e he => mt (s.fitsMakeup_iff e).mp (h e he)
  unfold makeupCheck
  rw [nothing]
  exact ite_self s

theorem makeupCheck_some {s : State} {before after : List MakeupEntry} {e : MakeupEntry} (looks : s.looksForMakeup)
    (list : s.pln.makeup = before ++ e :: after) (fits : s.FitsMakeup e) (first : ∀ x ∈ before, ¬ s.FitsMakeup x) :
    s.makeupCheck = { s with pln.serving := some (.makeup e.oven s.now) } := by
  have found : (s.pln.makeup.find? fun e => s.ovenIs e.oven .ready && !s.cursorAt e.oven) = some e :=
    List.find?_eq_some_iff_append.mpr ⟨(s.fitsMakeup_iff e).mpr fits, before, after, list, fun x hx =>
      (Bool.not_eq_true' _).mpr (Bool.eq_false_iff.mpr (mt (s.fitsMakeup_iff x).mp (first x hx)))⟩
  unfold makeupCheck
  rw [if_pos (s.looksForMakeup_iff.mpr looks), found]
  rfl

theorem makeupServing_iff (s : State) (n : Nat) : s.makeupServing n = true ↔ ∃ t, s.pln.serving = some (.makeup n t) := by
  unfold makeupServing
  rcases s.pln.serving with _ | _ | ⟨o, t⟩ <;> simp

/-- A serving make-up entry holds no slot. -/
theorem releasedRound_of_makeup {s : State} {n t : Nat} (h : s.pln.serving = some (.makeup n t)) :
    s.releasedRound = s.pln.round := by
  simp [releasedRound, h]

theorem dropMakeup_eq (s : State) (n : Nat) :
    s.dropMakeup n = { s with pln.makeup := s.pln.makeup.filter fun e => e.oven ≠ n } := by
  simp only [dropMakeup, updPlan, bne, beq_eq_decide, ne_eq, decide_not]

end State

/-- Settles O31. -/
theorem makeupList : Obligations.MakeupList := by
  unfold Obligations.MakeupList
  refine ⟨fun s => ⟨makeupCheck_idle, fun _ none => makeupCheck_none none, fun before e after looks list fits first =>
    makeupCheck_some looks list fits first⟩, fun s tag n room run => ?_⟩
  intro h listed dropped
  have heardRun : h.inRun = true := (supervisorHeard_inRun s).trans run
  have add : requestEffect (.makeup tag n) h = forOven n (makeupOp n) h := runOnly_run heardRun
  have cancel : requestEffect (.cancelMakeup tag n) h = cancelMakeupOp n h := runOnly_run heardRun
  have list : (h.pln.makeup.any fun e => e.oven == n) = listed := by simp only [beq_eq_decide]; rfl
  refine ⟨fun outside => ?_, fun o present => ⟨fun double => ?_, fun new coking ready => ?_, fun new state full => ?_,
    fun new state space => ?_⟩, fun absent => ?_, fun there other => ?_, fun t there serving => ?_⟩
  · exact exec_answered rfl room (add.trans (forOven_none outside))
  · refine exec_answered rfl room (add.trans ((forOven_some present).trans ?_))
    simp only [makeupOp, list, double]
    rfl
  · refine exec_answered rfl room (add.trans ((forOven_some present).trans ?_))
    simp [makeupOp, list, new, ovenIs_eq present, coking, ready]
    rfl
  · have fits : (!h.ovenIs n .coking && !h.ovenIs n .ready) = false := by
      obtain st | st := state <;> simp [ovenIs_eq present, st]
    refine exec_answered rfl room (add.trans ((forOven_some present).trans ?_))
    simp only [makeupOp, list, new, fits, full]
    rfl
  · have fits : (!h.ovenIs n .coking && !h.ovenIs n .ready) = false := by
      obtain st | st := state <;> simp [ovenIs_eq present, st]
    refine exec_answered rfl room (add.trans ((forOven_some present).trans ?_))
    simp only [makeupOp, list, new, fits, Nat.not_le.mpr space]
    rfl
  · refine exec_answered rfl room (cancel.trans ?_)
    simp only [cancelMakeupOp, list, absent]
    rfl
  · have away : h.makeupServing n = false :=
      Bool.eq_false_iff.mpr fun at0 => Exists.elim ((makeupServing_iff h n).mp at0) other
    refine exec_answered rfl room (cancel.trans ?_)
    simp only [cancelMakeupOp, list, there, away, dropMakeup_eq]
    rfl
  · have at0 : h.makeupServing n = true := (makeupServing_iff h n).mpr ⟨t, serving⟩
    have kept : dropped.releaseServing = { dropped with pln.serving := none } := by
      rw [releaseServing_eq, releasedRound_of_makeup (s := dropped) serving]
    cases pushing : h.ovenIs n .pushing with
    | true =>
      refine exec_answered rfl room (cancel.trans ?_)
      simp only [cancelMakeupOp, list, there, at0, pushing]
      rfl
    | false =>
      have body : cancelMakeupOp n h = dropped.releaseServing.planUpdate.ok := by
        simp only [cancelMakeupOp, list, there, at0, pushing, dropMakeup_eq]
        rfl
      rw [kept] at body
      exact exec_answered rfl room (cancel.trans body)

end Sys2Proof.Machine
end

section
/-! SUPPORT. Chapter 2: the slot check, the planner's report and its timers, and the PLAN and SLOT queries. -/

namespace Sys2Proof.Machine

open Sys2Proof State

theorem reached_iff (now : Nat) (o : Option Nat) : reached now o = true ↔ ∃ t, o = some t ∧ t ≤ now := by
  cases o <;> simp [reached]

namespace State

theorem updCursor_some {s : State} {i : Nat} (cursor : s.pln.cursor = some i) (f : Slot → Slot) : s.updCursor f
    = { s with pln.round := s.pln.round.map fun r => { r with slots := upd1 f (i + 1) r.slots } } := by
  simp only [updCursor, updPlan, cursor]

/-- The cursor slot after a change of it. -/
theorem cursorSlot_updCursor {s : State} {i : Nat} {sl : Slot} (cursor : s.pln.cursor = some i)
    (slot : s.cursorSlot = some sl) (f : Slot → Slot) : (s.updCursor f).cursorSlot = some (f sl) := by
  rw [updCursor_some cursor]
  simp only [cursorSlot, cursor, Option.bind_some, State.slot] at slot ⊢
  cases round : s.pln.round with
  | none => simp [round] at slot
  | some r =>
    have at0 : nth1 r.slots (i + 1) = some sl := by
      rw [round] at slot
      exact slot
    have written : nth1 (upd1 f (i + 1) r.slots) (i + 1) = some (f sl) := by simp [at0]
    exact written

/-! ## The slot check (R27, R30) -/

theorem dueTime_eq (s : State) (sl : Slot) : s.dueTime sl = match s.oven sl.oven with
    | some o => if o.mode = .fixed then o.fixedPush.getD (min tMax (sl.planned + s.pln.lag))
      else min tMax (sl.planned + s.pln.lag)
    | none => min tMax (sl.planned + s.pln.lag) := by
  unfold dueTime
  cases s.oven sl.oven with
  | none => rfl
  | some o => simp only [beq_iff_eq, timeAdd]

theorem dueTime_some {s : State} {sl : Slot} {o : OvenRec} (present : s.oven sl.oven = some o) : s.dueTime sl =
    if o.mode = .fixed then o.fixedPush.getD (min tMax (sl.planned + s.pln.lag))
    else min tMax (sl.planned + s.pln.lag) := by
  rw [dueTime_eq, present]

theorem checkLoop_done {s : State} (k : Nat) (h : s.checkOnce.2 = false) : checkLoop (k + 1) s = s.checkOnce.1 := by
  rcases hc : s.checkOnce with ⟨u, passed⟩
  rw [hc] at h
  cases h
  simp only [checkLoop, hc]

theorem checkLoop_passed {s : State} (k : Nat) (h : s.checkOnce.2 = true) :
    checkLoop (k + 1) s = checkLoop k s.checkOnce.1 := by
  rcases hc : s.checkOnce with ⟨u, passed⟩
  rw [hc] at h
  cases h
  simp only [checkLoop, hc]

/-- The bound of the slot checks is positive (log 7). -/
theorem planFuel_eq_succ (s : State) : ∃ k, s.planFuel = k + 1 :=
  Nat.exists_eq_succ_of_ne_zero (by simp [planFuel])

theorem planSettle_done {s : State} (h : s.checkOnce.2 = false) : s.planSettle = s.checkOnce.1.makeupCheck := by
  obtain ⟨k, fuel⟩ := s.planFuel_eq_succ
  rw [planSettle, fuel, checkLoop_done k h]

theorem passSlot_some {s : State} (reason : PassReason) {i : Nat} {sl : Slot} (cursor : s.pln.cursor = some i)
    (slot : s.cursorSlot = some sl) : s.passSlot reason =
      State.advance (State.raise { s with pln.round := s.pln.round.map fun r =>
        { r with slots := upd1 (fun x => { x with status := .passed }) (i + 1) r.slots } } (.slotPassed i sl.oven reason)) := by
  simp only [passSlot, updCursor, updPlan, cursor, slot]

theorem passSlot_none {s : State} (reason : PassReason) (slot : s.cursorSlot = none) : s.passSlot reason = s := by
  unfold passSlot
  cases s.pln.cursor <;> rw [slot]

theorem cursor_of_slot {s : State} {sl : Slot} (slot : s.cursorSlot = some sl) : ∃ i, s.pln.cursor = some i := by
  cases cursor : s.pln.cursor with
  | none => simp [cursorSlot, cursor] at slot
  | some i => exact ⟨i, rfl⟩

theorem cursorStatus_of_slot {s : State} {sl : Slot} (slot : s.cursorSlot = some sl) : s.cursorStatus = some sl.status := by
  simp [cursorStatus, slot]

/-- No slot check is made in IDLE or HALTED, or at a slot that is not WAITING (R27, R36). -/
theorem checkOnce_idle {s : State} (h : s.pln.state ≠ .running ∨ s.cursorStatus ≠ some .waiting) :
    s.checkOnce = (s, false) := by
  unfold checkOnce
  cases slot : s.cursorSlot with
  | none => rfl
  | some sl =>
    refine if_neg ?_
    rintro ⟨running, waiting⟩
    obtain h | h := h
    · exact h running
    · exact h (by rw [cursorStatus_of_slot slot, waiting])

section
variable {s : State} {sl : Slot} {o : OvenRec} (slot : s.cursorSlot = some sl) (present : s.oven sl.oven = some o)
  (running : s.pln.state = .running) (waiting : sl.status = .waiting)
include slot running waiting

/-- The slot check of a WAITING cursor slot whose due time lies ahead (R27). -/
theorem checkOnce_early (early : s.now < s.dueTime sl) :
    s.checkOnce = ({ s with pln.dueTimer := some (s.dueTime sl) }, false) := by
  simp only [checkOnce, slot, if_pos (And.intro running waiting), if_pos early]
  rfl

include present in
/-- The slot check of a WAITING cursor slot that is due, its cases by the oven (R27). -/
theorem checkOnce_due (due : s.dueTime sl ≤ s.now) : s.checkOnce =
    let holdEnd := s.pln.holdOver.getD (min tMax (s.now + s.pln.active.h))
    let reached := { s with pln.dueTimer := none, pln.holdOver := some holdEnd }
    if o.mode = .hold ∨ o.mode = .skip then (reached.passSlot .mode, true)
    else if o.state = .ready then
      if s.pln.serving.isNone then
        ((reached.updCursor fun x => { x with status := .due }).updPlan fun q => { q with serving := some .slot }, false)
      else (reached, false)
    else if s.now < holdEnd then (reached, false)
    else (reached.passSlot .notReady, true) := by
  have kept (q : Planner → Planner) : (s.updPlan q).oven sl.oven = some o := present
  simp only [checkOnce, slot, if_pos (And.intro running waiting), if_neg (not_lt.mpr due), kept]
  rfl

end

/-! ## The planner's report (R31) -/

theorem nextOven_eq (s : State) : s.nextOven = match s.pln.serving, s.cursorSlot with
    | some (.makeup o since), _ => some (o, since)
    | some .slot, some sl => some (sl.oven, s.dueTime sl)
    | none, some sl => if s.pln.state ≠ .idle ∧ sl.status = .waiting then some (sl.oven, s.dueTime sl) else none
    | _, none => none := by
  unfold nextOven
  rcases s.pln.serving with _ | _ | ⟨o, t⟩
  · cases s.cursorSlot with
    | none => simp
    | some sl => by_cases idle : s.pln.state = .idle <;> simp [idle]
  · cases s.cursorSlot <;> rfl
  · rfl

theorem planReport_same {s : State} (h : s.retest.nextOven = s.retest.pln.reported) : s.planReport = s.retest :=
  if_pos h.symm

theorem planReport_new {s : State} (h : s.retest.nextOven ≠ s.retest.pln.reported) : s.planReport =
    let u := s.retest
    let told := ({ u with pln.reported := u.nextOven }).nextForValves u.pln.reported u.nextOven
    match u.nextOven with
    | none => told
    | some (b, _) => if u.pln.reported.map Prod.fst = some b then told else told.reconsiderCar b := by
  refine (if_neg (Ne.symm h)).trans ?_
  dsimp only
  cases s.retest.nextOven <;> rfl

/-! ## An oven's change of state (R27, R28, R33) -/

section
variable {s : State} {n : Nat}

theorem leavesServing_iff : (s.servingOven = some n ∧ (!s.ovenIs n .ready && !s.ovenIs n .pushing) = true)
    ↔ (s.servingOven = some n ∧ s.ovenState n ≠ some .ready ∧ s.ovenState n ≠ some .pushing) := by
  simp [ovenIs]

theorem awaited_iff : (s.cursorAt n ∧ s.cursorWaiting)
    ↔ (s.cursorSlot.map Slot.oven = some n ∧ s.cursorStatus = some .waiting) := by
  simp [cursorAt, cursorWaiting]

end

end State

/-- Settles O32. -/
theorem slotCheckAndItsTimers : Obligations.SlotCheckAndItsTimers := by
  unfold Obligations.SlotCheckAndItsTimers
  refine ⟨fun s => ?_, fun s sl o slot present running waiting => ?_, fun s => ⟨checkOnce_idle, ?_, fun sl slot =>
    ⟨cursorStatus_of_slot slot, cursor_of_slot slot⟩⟩, fun s => ?_⟩
  · intro dueOf
    have due : s.dueTime = dueOf := funext fun sl => dueTime_eq s sl
    refine ⟨?_, ⟨planReport_same, planReport_new⟩, rfl, rfl, planSettle_done, fun k => checkLoop_done k,
      fun k => checkLoop_passed k, fun reason i sl cursor slot => passSlot_some reason cursor slot,
      fun reason slot => passSlot_none reason slot, fun n => ?_⟩
    · exact due ▸ nextOven_eq s
    · intro released
      have release : s.releaseServing = { s with pln := { s.pln with serving := none, round := released } } :=
        releaseServing_eq s
      refine ⟨release, ?_⟩
      intro leaves awaits listed
      have serving : (s.servingOven = some n ∧ (!s.ovenIs n .ready && !s.ovenIs n .pushing) = true) ↔ leaves :=
        leavesServing_iff
      have cursor : (s.cursorAt n ∧ s.cursorWaiting) ↔ awaits := awaited_iff
      have list : (s.pln.makeup.any fun e => e.oven == n) = true ↔ listed := by simp [listed]
      refine ⟨fun h => ?_, fun h h' => ?_, fun h h' h'' => ?_, fun h h' h'' => ?_, rfl⟩
      · rw [planOvenChanged, if_pos (serving.mpr h), release]
        rfl
      · rw [planOvenChanged, if_neg (mt serving.mp h), if_pos (cursor.mpr h')]
        rfl
      · rw [planOvenChanged, if_neg (mt serving.mp h), if_neg (mt cursor.mp h'), if_pos (list.mpr h'')]
      · rw [planOvenChanged, if_neg (mt serving.mp h), if_neg (mt cursor.mp h'), if_neg (mt list.mp h'')]
  · intro due holdEnd reached
    have dueIs : s.dueTime sl = due := dueTime_some present
    refine ⟨fun early => ?_, fun past mode => ?_, fun past hold skip ready free => ?_, fun past hold skip ready busy => ?_,
      fun past hold skip other open_ => ?_, fun past hold skip other over_ => ?_⟩
    · rw [checkOnce_early slot running waiting (dueIs ▸ early), dueIs]
    · rw [checkOnce_due slot present running waiting (dueIs ▸ past)]
      exact if_pos mode
    · have stays : ¬ (o.mode = .hold ∨ o.mode = .skip) := not_or.mpr ⟨hold, skip⟩
      have alone : s.pln.serving.isNone = true := by rw [free]; rfl
      have checked : s.checkOnce = ((reached.updCursor fun x => { x with status := .due }).updPlan fun q =>
          { q with serving := some .slot }, false) :=
        (checkOnce_due slot present running waiting (dueIs ▸ past)).trans
          ((if_neg stays).trans ((if_pos ready).trans (if_pos alone)))
      have written (i : Nat) (cursor : s.pln.cursor = some i) : s.checkOnce.1 = { reached with
          pln.serving := some .slot
          pln.round := s.pln.round.map fun r =>
            { r with slots := upd1 (fun x => { x with status := .due }) (i + 1) r.slots } } := by
        rw [checked, updCursor_some (s := reached) cursor]
        rfl
      obtain ⟨i, cursor⟩ := cursor_of_slot slot
      refine ⟨by rw [checked], by rw [written i cursor], ?_, written⟩
      rw [checked]
      exact cursorSlot_updCursor (s := reached) cursor slot _
    · rw [checkOnce_due slot present running waiting (dueIs ▸ past)]
      have taken : s.pln.serving.isNone = false := by simpa using busy
      simp only [hold, skip, or_self, if_false, ready, if_true, taken]
      rfl
    · rw [checkOnce_due slot present running waiting (dueIs ▸ past)]
      simp only [hold, skip, or_self, if_false, other]
      exact if_pos open_
    · rw [checkOnce_due slot present running waiting (dueIs ▸ past)]
      simp only [hold, skip, or_self, if_false, other]
      exact if_neg (not_lt.mpr over_)
  · simp [cursorStatus]
  · refine ⟨fun running due => ?_, fun idle => ?_, fun running waits due => ?_, fun idle => ?_⟩
    · exact congrArg ends (if_pos ⟨running, (reached_iff _ _).mpr due⟩)
    · refine congrArg ends (if_neg ?_)
      rintro ⟨running, due⟩
      obtain ⟨t, timer, past⟩ := (reached_iff _ _).mp due
      obtain halted | early := idle
      · exact halted running
      · exact (early t timer).not_ge past
    · exact congrArg ends (if_pos ⟨running, by simp [cursorWaiting, waits], (reached_iff _ _).mpr due⟩)
    · refine congrArg ends (if_neg ?_)
      rintro ⟨running, waits, due⟩
      obtain ⟨t, timer, past⟩ := (reached_iff _ _).mp due
      obtain halted | moved | early := idle
      · exact halted running
      · exact moved (by simpa [cursorWaiting] using waits)
      · exact (early t timer).not_ge past

/-! ## The PLAN and SLOT queries (R45) -/

/-- The round that the PLAN query shows: none at a boundary. -/
def State.shownRound (s : State) : Option RoundRec := if s.boundaryWait then none else s.pln.round

theorem State.shownRound_none {s : State} (h : s.pln.round = none ∨ s.pln.cursor = none) : s.shownRound = none := by
  unfold shownRound boundaryWait
  obtain h | h := h
  · rw [h]
    exact ite_self none
  · cases round : s.pln.round <;> simp [h]

theorem State.shownRound_some {s : State} {r : RoundRec} {k : Nat} (round : s.pln.round = some r)
    (cursor : s.pln.cursor = some k) : s.shownRound = some r := by
  simp [shownRound, boundaryWait, round, cursor]

/-- Settles O33. -/
theorem planAndSlotQueries : Obligations.PlanAndSlotQueries := by
  unfold Obligations.PlanAndSlotQueries
  intro s tag i room h
  refine ⟨⟨_, exec_answered (c := .planQuery tag) rfl room (u := h) rfl, ?_⟩, fun none => ?_, fun r some => ?_⟩
  · refine ⟨rfl, ?_, fun off => ?_, fun r k round cursor => ?_, rfl, rfl, rfl, rfl, rfl, rfl, rfl, rfl, rfl, rfl,
      fun idle => ?_, fun o t makeup => ?_, fun k sl serving cursor slot => ?_⟩
    · show h.boundaryWait = true ↔ _
      simp [boundaryWait]
    · show h.shownRound.map _ = none ∧ h.shownRound.map _ = none ∧ h.shownRound.map _ = none
      simp [shownRound_none off]
    · show h.shownRound.map _ = _ ∧ h.shownRound.map _ = _ ∧ h.shownRound.map _ = _
      simp [shownRound_some round cursor]
    · show h.servingView = none
      simp [servingView, idle]
    · show h.servingView = _
      simp [servingView, makeup]
    · show h.servingView = _
      have shown : h.cursorSlot = some sl := by rw [cursorSlot, cursor]; exact slot
      simp [servingView, serving, cursor, shown]
  · refine exec_answered rfl room ?_
    show slotAnswer i h = _
    simp only [slotAnswer, none]
    rfl
  · have shown : h.slot i = r.slots[i]? := by rw [State.slot, some]; rfl
    cases at0 : r.slots[i]? with
    | none =>
      refine exec_answered rfl room ?_
      show slotAnswer i h = _
      simp only [slotAnswer, some, shown, at0]
      rfl
    | some sl =>
      refine exec_answered rfl room ?_
      show slotAnswer i h = _
      simp only [slotAnswer, some, shown, at0]
      rfl

end Sys2Proof.Machine
end

section
/-! SUPPORT. The tests of a request and of the re-test (R52 to R58) in the words of their rules; the re-test of the permits in
force, and REQUESTs. -/

namespace Sys2Proof.Machine

open Sys2Proof State

/-! ## A list of tests and the conditions it stands for -/

/-- Each test of the list decides the condition at its place, and fails with its reason. -/
def Decides (tests : List (Bool × Reason)) (conditions : List (Prop × Reason)) : Prop :=
  List.Forall₂ (fun t c => (t.1 = true ↔ c.1) ∧ t.2 = c.2) tests conditions

theorem Decides.append {a b : List (Bool × Reason)} {c d : List (Prop × Reason)} (h : Decides a c) (k : Decides b d) :
    Decides (a ++ b) (c ++ d) := List.rel_append h k

theorem firstFail_append (a b : List (Bool × Reason)) : firstFail (a ++ b) = (firstFail a).or (firstFail b) := by
  induction a with
  | nil => rfl
  | cons t rest ih => obtain ⟨_ | _, r⟩ := t <;> simp [firstFail, ih]

/-- No test fails exactly when every condition holds. -/
theorem Decides.firstFail_none {a : List (Bool × Reason)} {c : List (Prop × Reason)} (h : Decides a c) :
    firstFail a = none ↔ ∀ x ∈ c, x.1 := by
  induction h with
  | nil => simp [firstFail]
  | @cons t c _ _ head _ ih =>
    obtain ⟨_ | _, r⟩ := t <;> simp_all [firstFail]

/-- The first condition that fails gives the reason. -/
theorem Decides.firstFail_some {a : List (Bool × Reason)} {l : List (Prop × Reason)} (h : Decides a l) {i : Nat} {p : Prop}
    {r : Reason} (place : l[i]? = some (p, r)) (fails : ¬ p)
    (first : ∀ (j : Nat) (p' : Prop) (r' : Reason), j < i → l[j]? = some (p', r') → p') : firstFail a = some r := by
  induction h generalizing i with
  | nil => simp at place
  | @cons t c _ _ head _ ih =>
    obtain ⟨test, reason⟩ := t
    obtain ⟨decides, same⟩ := head
    cases i with
    | zero =>
      obtain rfl := Option.some.inj place
      have failed : test = false := Bool.eq_false_iff.mpr (mt decides.mp fails)
      simp_all [firstFail]
    | succ k =>
      have passed : test = true := decides.mpr (first 0 c.1 c.2 k.succ_pos rfl)
      have rest := ih place fun j p' r' hj => first (j + 1) p' r' (Nat.succ_lt_succ hj)
      simpa [firstFail, passed] using rest

/-! ## The conditions of the kinds (R53 to R57) -/

namespace State
section
variable (s : State) (n : Nat)

/-- The machine stands at the oven on the side given. -/
def Stands (m : MachineId) (side : SpotSide) : Prop :=
  s.online m = true ∧ (s.machine m).position = some (.oven n side)

/-- A neighbour that adjacency accepts (R55). -/
def NeighbourFit (j : Nat) : Prop := ∀ o, s.oven j = some o → o.state = .out ∨ o.state = .ready
  ∨ (o.state = .coking ∧ ∃ t, o.chargeEnd = some t ∧ t + s.cfg.timing.tAdj * 60 ≤ s.now)

/-- The oven is PUSHING with a push record of its own that fits. -/
def PushingWith (fits : PushRec → Prop) : Prop :=
  s.ovenState n = some .pushing ∧ ∃ p, s.ilk.push = some p ∧ p.oven = n ∧ fits p

/-- The spacing to the last ram start is kept (R54). -/
def Spaced : Prop := ∀ t j, s.ilk.lastRam = some (t, j) →
  t + (if j = s.secOf n then s.cfg.timing.tSs else s.cfg.timing.tSd) ≤ s.now

/-- The door is fit for a charge (R57). -/
def DoorFit (d : Side) : Prop := s.doorState n d = some .onUnconfirmed ∨ s.doorState n d = some .tight

/-- The conditions of a DOOR_OFF permit (R53). -/
def doorOffConditions (d : Side) (m : MachineId) (side : SpotSide) : List (Prop × Reason) := [
  (s.Stands n m side, .notAligned), (s.servingOven = some n, .notServing),
  ((s.ovenState n = some .ready ∧ s.ilk.push = none) ∨ s.PushingWith n (fun p => p.stage = .opening), .ovenState),
  (s.doorState n d ≠ some .off, .doors), (s.valveState n = some .closed, .valve),
  (s.level (s.secOf n) ≠ some .flare, .sectionPressure), (s.ovenState n = some .ready → s.Spaced n, .spacing),
  (s.NeighbourFit (n - 1) ∧ s.NeighbourFit (n + 1), .adjacent), ((s.round d).debt < 8, .inspectionDue)]

/-- The conditions of a PUSH permit, the push record's stage being one that fits (R56). -/
def pushConditions (fits : PushRec → Prop) : List (Prop × Reason) := [
  (s.servingOven = some n, .notServing), (s.PushingWith n fits, .ovenState),
  (s.doorState n .ps = some .off ∧ s.doorState n .cs = some .off, .doors),
  (s.Stands n .pm .ps ∧ s.ram = some .home, .notAligned), (s.Stands n .gc .cs ∧ s.guide = some .locked, .notAligned),
  (s.online .qc = true ∧ s.qnu.car.state = .spotted n ∧ s.carLoad = some .empty, .quenchCar)]

/-- The conditions of a CHARGE permit (R57). -/
def chargeConditions : List (Prop × Reason) := [
  (s.Stands n .cc .top, .notAligned), (s.ovenState n = some .empty, .ovenState), (s.DoorFit n .ps ∧ s.DoorFit n .cs, .doors),
  (s.valveState n = some .aspirating, .valve),
  (s.level (s.secOf n) = some .normal ∨ s.level (s.secOf n) = some .low, .sectionPressure),
  (∀ j, j ≠ n → s.secOf j = s.secOf n → s.ovenState j ≠ some .charging, .busy)]

/-- The conditions of a kind (R53, R56, R57). -/
def kindConditions (fits : PushRec → Prop) : PermitKind → List (Prop × Reason)
  | .doorOffPs => s.doorOffConditions n .ps .pm .ps
  | .doorOffCs => s.doorOffConditions n .cs .gc .cs
  | .push => s.pushConditions n fits
  | .charge => s.chargeConditions n

end

section
variable {s : State} {n : Nat}

theorem alignedAt_iff {m : MachineId} {side : SpotSide} : s.alignedAt m n side = true ↔ s.Stands n m side := by
  simp [alignedAt, Stands]

theorem neighbourOk_iff {j : Nat} : s.neighbourOk j = true ↔ s.NeighbourFit j := by
  unfold neighbourOk NeighbourFit
  cases s.oven j with
  | none => simp
  | some o =>
    obtain ⟨_, state, chargeEnd, _⟩ := o
    cases state <;> cases chargeEnd <;> simp [reached]

theorem adjacencyOk_iff : s.adjacencyOk n = true ↔ s.NeighbourFit (n - 1) ∧ s.NeighbourFit (n + 1) := by
  simp only [adjacencyOk, Bool.and_eq_true, neighbourOk_iff]

theorem spacingOk_iff : s.spacingOk n = true ↔ s.Spaced n := by
  unfold spacingOk Spaced
  cases s.ilk.lastRam with
  | none => simp
  | some last => obtain ⟨t, k⟩ := last; simp

theorem pushingWith_iff {fits : PushRec → Bool} {P : PushRec → Prop} (same : ∀ p, fits p = true ↔ P p) :
    (s.ovenIs n .pushing && ((s.ilk.push.map fun p => p.oven == n && fits p).getD false)) = true ↔ s.PushingWith n P := by
  unfold PushingWith
  cases s.ilk.push with
  | none => simp
  | some p => simp [ovenIs, same]

theorem doorFitForCharge_iff {d : Side} : s.doorFitForCharge n d = true ↔ s.DoorFit n d := by
  simp [doorFitForCharge, DoorFit]

theorem chargingElsewhere_isNone_iff {k : Nat} : (s.chargingElsewhere n k).isNone = true
    ↔ ∀ j, j ≠ n → s.secOf j = k → s.ovenState j ≠ some .charging := by
  rw [Option.isNone_iff_eq_none]
  constructor
  · intro h j hj sec charging
    obtain ⟨o, present, state⟩ := Option.map_eq_some_iff.mp charging
    exact chargingElsewhere_none h hj present (by simpa [secOf, present] using sec) state
  · intro h
    refine List.find?_eq_none.mpr fun j _ found => ?_
    simp only [Bool.and_eq_true, bne_iff_ne, beq_iff_eq, ovenIs] at found
    obtain ⟨⟨other, sec⟩, charging⟩ := found
    exact h j other sec charging

/-- The tests of a DOOR_OFF permit decide its conditions. -/
theorem doorOffFail_decides (d : Side) : ∃ tests, s.doorOffFail d n = firstFail tests
    ∧ Decides tests (s.doorOffConditions n d (Side.machine d) (Side.spot d)) := by
  refine ⟨_, rfl, ?_⟩
  unfold Decides doorOffConditions
  refine .cons ⟨alignedAt_iff, rfl⟩ (.cons ⟨beq_iff_eq, rfl⟩ (.cons ⟨?_, rfl⟩ (.cons ⟨?_, rfl⟩ (.cons ⟨beq_iff_eq, rfl⟩
    (.cons ⟨?_, rfl⟩ (.cons ⟨?_, rfl⟩ (.cons ⟨adjacencyOk_iff, rfl⟩ (.cons ⟨decide_eq_true_iff, rfl⟩ .nil))))))))
  · simp only [Bool.or_eq_true, pushingWith_iff (P := fun p => p.stage = .opening) fun p => beq_iff_eq]
    simp [ovenIs]
  · simp
  · simp
  · simp [ovenIs, spacingOk_iff, imp_iff_not_or]

theorem pushFail_decides (armedOk : Bool) : ∃ tests, s.pushFail armedOk n = firstFail tests
    ∧ Decides tests (s.pushConditions n fun p => p.stage = .opening ∨ (p.stage = .sticker ∧ p.retry = true)
      ∨ (armedOk = true ∧ p.stage = .armed)) := by
  refine ⟨_, rfl, ?_⟩
  unfold Decides pushConditions
  refine .cons ⟨beq_iff_eq, rfl⟩ (.cons ⟨pushingWith_iff fun p => ?_, rfl⟩ (.cons ⟨?_, rfl⟩ (.cons ⟨?_, rfl⟩
    (.cons ⟨?_, rfl⟩ (.cons ⟨?_, rfl⟩ .nil)))))
  · simp [or_assoc]
  · simp
  · simp [alignedAt_iff]
  · simp [alignedAt_iff]
  · simp [and_assoc]

theorem chargeFail_decides : ∃ tests, s.chargeFail n = firstFail tests ∧ Decides tests (s.chargeConditions n) := by
  refine ⟨_, rfl, ?_⟩
  unfold Decides chargeConditions
  refine .cons ⟨alignedAt_iff, rfl⟩ (.cons ⟨beq_iff_eq, rfl⟩ (.cons ⟨?_, rfl⟩ (.cons ⟨beq_iff_eq, rfl⟩
    (.cons ⟨?_, rfl⟩ (.cons ⟨chargingElsewhere_isNone_iff, rfl⟩ .nil)))))
  · simp [doorFitForCharge_iff]
  · simp

theorem kindFail_decides (armedOk : Bool) (k : PermitKind) : ∃ tests, s.kindFail armedOk k n = firstFail tests
    ∧ Decides tests (s.kindConditions n (fun p => p.stage = .opening ∨ (p.stage = .sticker ∧ p.retry = true)
      ∨ (armedOk = true ∧ p.stage = .armed)) k) := by
  cases k with
  | doorOffPs => exact doorOffFail_decides .ps
  | doorOffCs => exact doorOffFail_decides .cs
  | push => exact pushFail_decides armedOk
  | charge => exact chargeFail_decides

end
end State

/-! ## The tests of the re-test, and what leaves them (R58) -/

namespace State

/-- The conditions a permit in force has to meet (R58). -/
def retestConditions (s : State) (k : PermitKind) (n : Nat) : List (Prop × Reason) :=
  [((s.oven n).isSome = true, .range), (s.ilk.stop = false, .stopped), (∀ o ∈ s.ot, o.breach = false, .breach)]
    ++ s.kindConditions n (fun p => p.stage = .opening ∨ (p.stage = .sticker ∧ p.retry = true) ∨ p.stage = .armed) k

theorem noBreach_iff (s : State) : (!s.ot.any OvenRec.breach) = true ↔ ∀ o ∈ s.ot, o.breach = false := by simp

theorem retestFail_decides (s : State) (p : Permit) : ∃ tests, s.retestFail p = firstFail tests
    ∧ Decides tests (s.retestConditions p.kind p.oven) := by
  obtain ⟨tests, fail, decides⟩ := s.kindFail_decides (n := p.oven) true p.kind
  simp only [true_and] at decides
  refine ⟨[(s.ovenOk p.oven, .range), (!s.ilk.stop, .stopped), (!s.ot.any OvenRec.breach, .breach)] ++ tests, ?_, ?_⟩
  · rw [firstFail_append, ← fail]
    unfold retestFail
    cases firstFail _ <;> rfl
  · refine Decides.append ?_ decides
    exact .cons ⟨by rw [ovenOk_eq], rfl⟩ (.cons ⟨by simp, rfl⟩ (.cons ⟨s.noBreach_iff, rfl⟩ .nil))

theorem retestFail_none {s : State} {p : Permit} : s.retestFail p = none ↔ ∀ x ∈ s.retestConditions p.kind p.oven, x.1 := by
  obtain ⟨tests, fail, decides⟩ := s.retestFail_decides p
  rw [fail, decides.firstFail_none]

theorem dispatchDoor_debt (s : State) (d e : Side) : ((s.dispatchDoor d).round e).debt = (s.round e).debt := by
  unfold dispatchDoor roundVisitCheck
  (repeat' split) <;> cases d <;> cases e <;> simp [round, updRound, setQueue, Pair.get, Pair.set]

theorem dispatchFor_debt (s : State) (m : MachineId) (d : Side) : ((s.dispatchFor m).round d).debt = (s.round d).debt := by
  cases m with
  | pm => exact dispatchDoor_debt s .ps d
  | gc => exact dispatchDoor_debt s .cs d
  | cc => simp [dispatchFor, round]
  | qc => rfl

/-- What the re-test reads of the state. -/
theorem retestFail_congr {s t : State} (tb : t.tb = s.tb) (ot : t.ot = s.ot) (pln : t.pln = s.pln)
    (machines : t.ilk.machines = s.ilk.machines) (stop : t.ilk.stop = s.ilk.stop) (push : t.ilk.push = s.ilk.push)
    (lastRam : t.ilk.lastRam = s.ilk.lastRam) (doors : t.dru.doors = s.dru.doors)
    (debt : ∀ d, (t.round d).debt = (s.round d).debt) (sections : t.ofu.sections = s.ofu.sections)
    (valves : t.ofu.valves = s.ofu.valves) (qnu : t.qnu = s.qnu) (online : ∀ m, t.online m = s.online m)
    (cfg : t.cfg = s.cfg) (p : Permit) : t.retestFail p = s.retestFail p := by
  have slots : t.slot = s.slot := funext fun i => by rw [slot, pln]; rfl
  have serving : t.servingOven = s.servingOven := by rw [servingOven, cursorSlot, slots, pln]; rfl
  have inTable : t.ovenOk = s.ovenOk := funext fun n => by rw [ovenOk, nOv, ot]; rfl
  have states : t.ovenIs = s.ovenIs := funext fun n => funext fun st => by rw [ovenIs, ovenState, oven, ot]; rfl
  have sec : t.secOf = s.secOf := funext fun n => by rw [secOf, oven, ot]; rfl
  have aligned : t.alignedAt = s.alignedAt := funext fun m => funext fun n => funext fun side => by
    rw [alignedAt, machine, online, machines]; rfl
  have doorStates : t.doorState = s.doorState := funext fun n => funext fun d => by rw [doorState, door, doors]; rfl
  have valveStates : t.valveState = s.valveState := funext fun n => by rw [valveState, valves]; rfl
  have levels : t.level = s.level := funext fun k => by rw [level, State.sec, sections]; rfl
  have spacing : t.spacingOk = s.spacingOk := funext fun n => by rw [spacingOk, lastRam, sec, cfg, now, tb]; rfl
  have neighbours : t.neighbourOk = s.neighbourOk := funext fun n => by rw [neighbourOk, oven, ot, cfg, now, tb]; rfl
  have others : t.chargingElsewhere = s.chargingElsewhere := funext fun n => funext fun k => by
    rw [chargingElsewhere, nOv, ot, sec, states]; rfl
  have ramSame : t.ram = s.ram := by rw [ram, machine, machines]; rfl
  have guideSame : t.guide = s.guide := by rw [guide, machine, machines]; rfl
  have loadSame : t.carLoad = s.carLoad := by rw [carLoad, machine, machines]; rfl
  simp only [retestFail, kindFail, doorOffFail, pushFail, chargeFail, adjacencyOk, doorFitForCharge, serving, inTable, states,
    sec, aligned, doorStates, valveStates, levels, spacing, neighbours, others, ramSame, guideSame, loadSame, stop, push, ot,
    debt, qnu, online]

/-- The dispatch check of a machine is no concern of the re-test. -/
theorem retestFail_dispatchFor (s : State) (m : MachineId) (p : Permit) : (s.dispatchFor m).retestFail p = s.retestFail p :=
  retestFail_congr (by simp) (by simp) (by simp) (by simp) (by simp) (by simp) (by simp) (by simp) (s.dispatchFor_debt m)
    (by simp) (by simp) (by simp) (fun k => by simp [State.online, mlink]) (by simp) p

/-- Nor is a permit that leaves the table. -/
theorem retestFail_gone (s : State) (m : MachineId) (f : MFrame) (p : Permit) :
    ((s.setPermit m none).send m f).retestFail p = s.retestFail p :=
  retestFail_congr (by simp) (by simp) (by simp) (by simp) (by simp) (by simp) (by simp) (by simp) (fun d => by simp [round])
    (by simp) (by simp) (by simp) (fun k => by simp [State.online, mlink]) (by simp) p

theorem retestFail_revoke {s : State} {m : MachineId} {q : Permit} (held : s.permit m = some q) (kind : q.kind ≠ .push)
    (r : Reason) (p : Permit) : (s.revoke m r).retestFail p = s.retestFail p := by
  have away : (q.kind == .push) = false := by simpa using kind
  simp only [revoke, held, away, Bool.false_eq_true, if_false]
  rw [retestFail_dispatchFor, retestFail_gone]

theorem disarm_permit (s : State) (k : MachineId) : s.disarm.permit k = s.permit k := by
  unfold disarm
  (repeat' split) <;> rfl

theorem dispatchFor_permit (s : State) (m k : MachineId) : (s.dispatchFor m).permit k = s.permit k := by simp [permit]

theorem revoke_free {s : State} {m : MachineId} (free : s.permit m = none) (r : Reason) : s.revoke m r = s := by
  simp only [revoke, free]

/-- A revoked permit leaves its place in the table, and no other place changes (R58). -/
theorem revoke_permit (s : State) (m k : MachineId) (r : Reason) :
    (s.revoke m r).permit k = if k = m then none else s.permit k := by
  cases held : s.permit m with
  | none =>
    rw [revoke_free held]
    split
    next same => rw [same, held]
    next => rfl
  | some p =>
    have gone : ((s.setPermit m none).send m (.revoke p.kind p.oven r)).permit k = if k = m then none else s.permit k := by
      simp [permit, setPermit, Quad.get_set, eq_comm]
    simp only [revoke, held, dispatchFor_permit]
    split
    · rw [disarm_permit, gone]
    · exact gone

/-- Without a permit there is nothing to re-test. -/
theorem retestOne_free {s : State} {m : MachineId} (free : s.permit m = none) : s.retestOne m = s := by
  simp only [retestOne, free]

/-- A permit that meets its conditions stays (R58). -/
theorem retestOne_good {s : State} {m : MachineId} {p : Permit} (held : s.permit m = some p) (good : s.retestFail p = none) :
    s.retestOne m = s := by
  simp only [retestOne, held, good]

/-- A permit that fails one is revoked (R58). -/
theorem retestOne_bad {s : State} {m : MachineId} {p : Permit} {r : Reason} (held : s.permit m = some p)
    (bad : s.retestFail p = some r) : s.retestOne m = s.revoke m r := by
  simp only [retestOne, held, bad]

/-- The re-test of one machine's permit leaves one that meets its conditions, or none. -/
theorem retestOne_leaves_good {s : State} {m : MachineId} {p : Permit} (held : (s.retestOne m).permit m = some p) :
    (s.retestOne m).retestFail p = none := by
  cases had : s.permit m with
  | none =>
    rw [retestOne_free had, had] at held
    cases held
  | some q =>
    cases fail : s.retestFail q with
    | none =>
      rw [retestOne_good had fail] at held ⊢
      obtain rfl := Option.some.inj (had.symm.trans held)
      exact fail
    | some r =>
      rw [retestOne_bad had fail, revoke_permit, if_pos rfl] at held
      cases held

theorem retestOne_permit_ne {s : State} {m k : MachineId} (other : k ≠ m) : (s.retestOne m).permit k = s.permit k := by
  cases had : s.permit m with
  | none => rw [retestOne_free had]
  | some q =>
    cases fail : s.retestFail q with
    | none => rw [retestOne_good had fail]
    | some r => rw [retestOne_bad had fail, revoke_permit, if_neg other]

/-- The re-test of a machine that holds no PUSH permit leaves the verdict on every permit as it is. -/
theorem retestFail_retestOne {s : State} {m : MachineId} (kind : ∀ q, s.permit m = some q → q.kind ≠ .push) (p : Permit) :
    (s.retestOne m).retestFail p = s.retestFail p := by
  cases had : s.permit m with
  | none => rw [retestOne_free had]
  | some q =>
    cases fail : s.retestFail q with
    | none => rw [retestOne_good had fail]
    | some r => rw [retestOne_bad had fail, retestFail_revoke had (kind q had)]

/-- Every permit in force after the re-test meets its conditions (R58). -/
theorem retest_leaves_good {s : State} (ok : PermitsOk s.ilk.permits) {m : MachineId} {p : Permit}
    (held : s.retest.permit m = some p) : s.retest.retestFail p = none := by
  have notPush {k : MachineId} (hk : k ≠ .pm) (q : Permit) (hq : s.permit k = some q) : q.kind ≠ .push := by
    rintro push
    have owner := ok k q hq
    rw [push] at owner
    exact hk owner.symm
  let a := s.retestOne .pm
  let b := a.retestOne .gc
  have gcAt : ∀ q, a.permit .gc = some q → q.kind ≠ .push := fun q hq =>
    notPush (k := .gc) (by decide) q (by rwa [retestOne_permit_ne (by decide)] at hq)
  have ccAt : ∀ q, b.permit .cc = some q → q.kind ≠ .push := fun q hq =>
    notPush (k := .cc) (by decide) q (by rwa [retestOne_permit_ne (by decide), retestOne_permit_ne (by decide)] at hq)
  have verdict : s.retest.retestFail p = b.retestFail p := retestFail_retestOne ccAt p
  cases m with
  | pm =>
    have atA : a.permit .pm = some p := by
      rwa [retest, retestOne_permit_ne (by decide), retestOne_permit_ne (by decide)] at held
    rw [verdict, retestFail_retestOne gcAt p]
    exact retestOne_leaves_good atA
  | gc =>
    have atB : b.permit .gc = some p := by rwa [retest, retestOne_permit_ne (by decide)] at held
    rw [verdict]
    exact retestOne_leaves_good atB
  | cc => exact retestOne_leaves_good (s := b) held
  | qc =>
    have had : s.permit .qc = some p := by
      rwa [retest, retestOne_permit_ne (by decide), retestOne_permit_ne (by decide),
        retestOne_permit_ne (by decide)] at held
    have owner := ok .qc p had
    cases kind : p.kind <;> rw [kind] at owner <;> cases owner

/-- The push record returned to the stage it was armed from (R73). -/
def disarmed (s u : State) (k : PermitKind) : State :=
  match k, s.ilk.push with
  | .push, some q => match q.armedFrom with
    | some .opening => u.setPush (some { q with stage := .opening, armedFrom := none, late := false })
    | some .sticker => u.setPush (some { q with stage := .sticker, armedFrom := none, late := false })
    | none => u
  | _, _ => u

/-- A revocation: the permit leaves with a REVOKE, a PUSH permit disarms the record, and the dispatch check follows. -/
theorem revoke_held {s : State} {m : MachineId} {p : Permit} (held : s.permit m = some p) (r : Reason) : s.revoke m r =
    (s.disarmed ((s.setPermit m none).send m (.revoke p.kind p.oven r)) p.kind).dispatchFor m := by
  have push : ((s.setPermit m none).send m (.revoke p.kind p.oven r)).ilk.push = s.ilk.push := by simp
  simp only [revoke, held]
  congr 1
  cases kind : p.kind with
  | push =>
    rw [kind] at push
    simp only [disarm, push, disarmed]
    cases s.ilk.push with
    | none => rfl
    | some q =>
      dsimp only
      rcases q.armedFrom with _ | _ | _ <;> rfl
  | doorOffPs | doorOffCs | charge => rfl

end State

/-- Settles O13: the verdict of the re-test on a permit reads nothing that a revocation of another kind than PUSH changes, so
each permit left stands as it was found good. -/
theorem retestLeavesOnlyGoodPermits : Obligations.RetestLeavesOnlyGoodPermits := by
  unfold Obligations.RetestLeavesOnlyGoodPermits
  intro tests
  have listed (s : State) (k : PermitKind) (n : Nat) : tests s k n = s.retestConditions k n := by cases k <;> rfl
  refine ⟨fun s ok m p held => ?_, fun s => ⟨rfl, fun m => ⟨fun free => retestOne_free free, fun p held => ⟨fun good => ?_, ?_⟩⟩⟩⟩
  · rw [listed]
    exact retestFail_none.mp (retest_leaves_good ok held)
  · rw [listed] at good
    exact retestOne_good held (retestFail_none.mpr good)
  · rw [listed]
    intro i c r place fails first
    obtain ⟨_, fail, decides⟩ := s.retestFail_decides p
    rw [retestOne_bad held (fail.trans (decides.firstFail_some place fails first)), revoke_held held]
    cases m <;> rfl

/-! ## REQUESTs (R52, R73) -/

namespace State

/-- The conditions of a REQUEST, in order (R52). -/
def requestConditions (s : State) (m : MachineId) (k : PermitKind) (n : Nat) : List (Prop × Reason) :=
  [(s.inRun = true, .state), ((s.oven n).isSome = true, .range), (PermitKind.machine k = m, .kind),
    (s.permit m = none, .permitHeld), (s.ilk.stop = false, .stopped), (∀ o ∈ s.ot, o.breach = false, .breach)]
    ++ s.kindConditions n (fun p => p.stage = .opening ∨ (p.stage = .sticker ∧ p.retry = true)) k

theorem requestFail_decides (s : State) (m : MachineId) (k : PermitKind) (n : Nat) : ∃ tests,
    s.requestFail m (.known k) n = firstFail tests ∧ Decides tests (s.requestConditions m k n) := by
  obtain ⟨tests, fail, decides⟩ := s.kindFail_decides (n := n) false k
  simp only [Bool.false_eq_true, false_and, or_false] at decides
  refine ⟨[(s.inRun, .state), (s.ovenOk n, .range), (PermitKind.machine k == m, .kind), ((s.permit m).isNone, .permitHeld),
    (!s.ilk.stop, .stopped), (!s.ot.any OvenRec.breach, .breach)] ++ tests, ?_, ?_⟩
  · rw [firstFail_append, ← fail]
    unfold requestFail
    dsimp only
    cases firstFail _ <;> rfl
  · refine Decides.append ?_ decides
    exact .cons ⟨Iff.rfl, rfl⟩ (.cons ⟨by rw [ovenOk_eq], rfl⟩ (.cons ⟨beq_iff_eq, rfl⟩ (.cons ⟨Option.isNone_iff_eq_none, rfl⟩
      (.cons ⟨by simp, rfl⟩ (.cons ⟨s.noBreach_iff, rfl⟩ .nil)))))

theorem decideRequest_refused {s : State} {m : MachineId} {k : ReqKind} {n : Nat} {r : Reason}
    (fail : s.requestFail m k n = some r) : s.decideRequest m k n
      = s.send m (.refuse k n r (if r = .permitHeld then s.permit m else none)) := by
  unfold decideRequest
  rw [fail]
  cases r <;> rfl

theorem decideRequest_granted {s : State} {m : MachineId} {k : PermitKind} {n : Nat}
    (passed : s.requestFail m (.known k) n = none) : s.decideRequest m (.known k) n = s.grant m k n := by
  unfold decideRequest
  rw [passed]

/-- A grant: the permit enters the table, GRANT goes out, and a PUSH grant arms the push record (R52, R73). -/
theorem grant_eq (s : State) (m : MachineId) (k : PermitKind) (n : Nat) : s.grant m k n =
    let deadline := min tMax (s.now + s.cfg.timing.tUse)
    let entered := (s.setPermit m (some ⟨k, n, s.now, deadline⟩)).send m (.grant k n deadline)
    match k, s.ilk.push with
    | .push, some p => entered.setPush (some { p with
        stage := .armed
        armedFrom := some (if p.stage = .sticker then .sticker else .opening)
        late := false })
    | _, _ => entered := by
  have push : ∀ (p : Option Permit) (f : MFrame), ((s.setPermit m p).send m f).ilk.push = s.ilk.push := by simp
  cases k with
  | push =>
    simp only [grant, push, beq_iff_eq]
    cases s.ilk.push <;> rfl
  | doorOffPs | doorOffCs | charge => rfl

/-- The REQUEST of a kind that is none of the four fails the first test that applies (R52). -/
theorem requestFail_unknown (s : State) (m : MachineId) (code : Byte) (n : Nat) : s.requestFail m (.unknown code) n
    = some (if s.inRun = false then .state else if (s.oven n).isSome = false then .range else .kind) := by
  unfold requestFail
  rw [ovenOk_eq]
  cases s.inRun <;> cases (s.oven n).isSome <;> rfl

end State

/-- Settles O35. -/
theorem requestsAreDecidedInOrder : Obligations.RequestsAreDecidedInOrder := by
  unfold Obligations.RequestsAreDecidedInOrder
  refine ⟨fun s l m code n untested => ?_, fun s m n k untested => ?_⟩
  · intro h
    have taken : takeFrame l (.unknownPermit m code n) s = h.decideRequest m (.unknown code) n :=
      machineFrame_taken untested fun s => s.decideRequest m (.unknown code) n
    rw [taken, decideRequest_refused (h.requestFail_unknown m code n)]
    cases h.inRun <;> cases (h.oven n).isSome <;> rfl
  · intro h request owner stands neighbour ready pushing spaced level common doorOff fit own tests deadline entered
    have listed : tests = h.requestConditions m k n := by cases k <;> rfl
    have event : exec request s = ends (h.decideRequest m (.known k) n) := by
      cases k <;> exact exec_machineFrame rfl untested
    obtain ⟨_, fail, decides⟩ := h.requestFail_decides m k n
    refine ⟨fun i c r place fails first => ?_, fun all => ?_⟩
    · rw [listed] at place first
      rw [event, decideRequest_refused (fail.trans (decides.firstFail_some place fails first))]
    · rw [listed] at all
      rw [event, decideRequest_granted (fail.trans (decides.firstFail_none.mpr all))]
      exact congrArg ends (grant_eq h m k n)

/-! ## The use deadline (R59) -/

/-- Settles O36. -/
theorem permitExpiresAtItsDeadline : Obligations.PermitExpiresAtItsDeadline := by
  unfold Obligations.PermitExpiresAtItsDeadline
  intro s m
  have event : exec (.useDeadlineExpiry m) s = ends (s.deadlineExpire m) := rfl
  refine ⟨fun ahead => ?_, fun r => rfl, fun f => rfl, fun free r => revoke_free free r, fun p held => ?_⟩
  · rw [event, deadlineExpire]
    cases held : s.permit m with
    | none => rfl
    | some p => exact congrArg ends (if_neg (not_le.mpr (ahead p held)))
  · intro after
    have revoked : ∀ r, s.revoke m r = after r := fun r => (revoke_held held r).trans (by cases m <;> rfl)
    refine ⟨revoked, fun past => ?_⟩
    rw [event, deadlineExpire, held, ← revoked]
    exact congrArg ends (if_pos past)

end Sys2Proof.Machine
end

section
/-! SUPPORT. What the operations do to the push record: all but those of the push leave it, or disarm it. -/

namespace Sys2Proof.Machine

open Sys2Proof State

/-- The push record disarmed (R73). -/
def disarmRec (p : PushRec) : PushRec :=
  match p.armedFrom with
  | some a => { p with stage := a.stage, armedFrom := none, late := false }
  | none => p

/-- The push record is the one it was, or that one disarmed. -/
def PushKept (old new : Option PushRec) : Prop := new = old ∨ new = old.map disarmRec

@[simp] theorem PushKept.refl (p : Option PushRec) : PushKept p p := .inl rfl

theorem disarmRec_idem (p : PushRec) : disarmRec (disarmRec p) = disarmRec p := by
  rcases h : p.armedFrom with _ | _ | _ <;> simp [disarmRec, h]

/-- A record that stands unarmed is kept as it is. -/
theorem disarmRec_unarmed {p : PushRec} (h : p.armedFrom = none) : disarmRec p = p := by simp [disarmRec, h]

theorem PushKept.map_disarm {o p : Option PushRec} (h : PushKept o p) : PushKept o (p.map disarmRec) := by
  obtain rfl | rfl := h
  · exact .inr rfl
  · cases o with
    | none => exact .inl rfl
    | some p => exact .inr (congrArg some (disarmRec_idem p))

theorem PushKept.eq_none_iff {o p : Option PushRec} (h : PushKept o p) : p = none ↔ o = none := by
  obtain rfl | rfl := h <;> simp

theorem PushKept.unarmed {q : PushRec} {p : Option PushRec} (h : PushKept (some q) p) (unarmed : q.armedFrom = none) :
    p = some q := by
  obtain rfl | rfl := h
  · rfl
  · exact congrArg some (disarmRec_unarmed unarmed)

theorem disarmRec_oven (p : PushRec) : (disarmRec p).oven = p.oven := by
  unfold disarmRec
  cases p.armedFrom <;> rfl

theorem PushKept.oven {q p : PushRec} (h : PushKept (some q) (some p)) : p.oven = q.oven := by
  obtain same | disarmed := h
  · rw [Option.some.inj same]
  · rw [Option.some.inj disarmed, disarmRec_oven]

namespace State

@[simp] theorem disarm_push {o : Option PushRec} {s : State} (h : PushKept o s.ilk.push) : PushKept o s.disarm.ilk.push := by
  have disarmed : s.disarm.ilk.push = s.ilk.push.map disarmRec := by
    unfold disarm
    cases push : s.ilk.push with
    | none => exact push
    | some p =>
      cases armed : p.armedFrom with
      | none => simp [armed, disarmRec_unarmed armed, push]
      | some a => simp [armed, disarmRec, setPush]
  rw [disarmed]
  exact h.map_disarm

@[simp] theorem revoke_push {o : Option PushRec} {s : State} (h : PushKept o s.ilk.push) (m : MachineId) (r : Reason) :
    PushKept o (s.revoke m r).ilk.push := by
  unfold revoke
  cases s.permit m with
  | none => exact h
  | some p =>
    have gone : PushKept o ((s.setPermit m none).send m (.revoke p.kind p.oven r)).ilk.push := by simpa using h
    dsimp only
    split
    · simpa using disarm_push gone
    · simpa using gone

@[simp] theorem revokeAll_push {o : Option PushRec} {s : State} (h : PushKept o s.ilk.push) (r : Reason) :
    PushKept o (s.revokeAll r).ilk.push := by
  exact revoke_push (revoke_push (revoke_push h _ _) _ _) _ _

@[simp] theorem retestOne_push {o : Option PushRec} {s : State} (h : PushKept o s.ilk.push) (m : MachineId) :
    PushKept o (s.retestOne m).ilk.push := by
  unfold retestOne
  (repeat' split) <;> simp [h]

@[simp] theorem retest_push {o : Option PushRec} {s : State} (h : PushKept o s.ilk.push) :
    PushKept o s.retest.ilk.push := by
  exact retestOne_push (retestOne_push (retestOne_push h _) _) _

@[simp] theorem sendCar_push {o : Option PushRec} {s : State} (h : PushKept o s.ilk.push) (c : CarState) :
    PushKept o (s.sendCar c).ilk.push := by
  unfold sendCar
  simp [h]

@[simp] theorem settleCar_push {o : Option PushRec} {s : State} (h : PushKept o s.ilk.push) (c : CarState) :
    PushKept o (s.settleCar c).ilk.push := by
  unfold settleCar
  simp [h]

@[simp] theorem sendOnward_push {o : Option PushRec} {s : State} (h : PushKept o s.ilk.push) :
    PushKept o s.sendOnward.ilk.push := by
  unfold sendOnward
  dsimp only
  (repeat' split) <;> simp [h]

@[simp] theorem reconsiderCar_push {o : Option PushRec} {s : State} (h : PushKept o s.ilk.push) (b : Nat) :
    PushKept o (s.reconsiderCar b).ilk.push := by
  unfold reconsiderCar
  (repeat' split) <;> simp [h]

@[simp] theorem reconsiderNext_push {o : Option PushRec} {s : State} (h : PushKept o s.ilk.push) :
    PushKept o s.reconsiderNext.ilk.push := by
  unfold reconsiderNext
  (repeat' split) <;> simp [h]

@[simp] theorem leaveUnknown_push {o : Option PushRec} {s : State} (h : PushKept o s.ilk.push) :
    PushKept o s.leaveUnknown.ilk.push := by
  unfold leaveUnknown
  (repeat' split) <;> simp [h]

@[simp] theorem ramStartCar_push {o : Option PushRec} {s : State} (h : PushKept o s.ilk.push) (n : Nat) :
    PushKept o (s.ramStartCar n).ilk.push := by
  unfold ramStartCar
  (repeat' split) <;> simp [h]

@[simp] theorem stickerCar_push {o : Option PushRec} {s : State} (h : PushKept o s.ilk.push) (n : Nat) :
    PushKept o (s.stickerCar n).ilk.push := by
  unfold stickerCar
  (repeat' split) <;> simp [h]

@[simp] theorem ramEndCar_push {o : Option PushRec} {s : State} (h : PushKept o s.ilk.push) (n t : Nat) :
    PushKept o (s.ramEndCar n t).ilk.push := by
  unfold ramEndCar
  dsimp only
  (repeat' split) <;> simp [h]

@[simp] theorem planReport_push {o : Option PushRec} {s : State} (h : PushKept o s.ilk.push) :
    PushKept o s.planReport.ilk.push := by
  unfold planReport
  dsimp only
  (repeat' split) <;> simp [h]

@[simp] theorem planUpdate_push {o : Option PushRec} {s : State} (h : PushKept o s.ilk.push) :
    PushKept o s.planUpdate.ilk.push := by
  unfold planUpdate
  simp [h]

@[simp] theorem planOvenChanged_push {o : Option PushRec} {s : State} (h : PushKept o s.ilk.push) (n : Nat) :
    PushKept o (s.planOvenChanged n).ilk.push := by
  unfold planOvenChanged
  dsimp only
  (repeat' split) <;> simp [h]

@[simp] theorem writeMode_push {o : Option PushRec} {s : State}
    (h : PushKept o s.ilk.push) (n : Nat) (mode : SlotMode) (fixedPush : Option Nat) :
    PushKept o (s.writeMode n mode fixedPush).ilk.push := by
  unfold writeMode
  dsimp only
  (repeat' split) <;> simp [h]

@[simp] theorem planHalt_push {o : Option PushRec} {s : State} (h : PushKept o s.ilk.push) :
    PushKept o s.planHalt.ilk.push := by
  unfold planHalt
  dsimp only
  (repeat' split) <;> simp [h]

@[simp] theorem planPushBegins_push {o : Option PushRec} {s : State} (h : PushKept o s.ilk.push) (n : Nat) :
    PushKept o (s.planPushBegins n).ilk.push := by
  unfold planPushBegins
  (repeat' split) <;> simp [h]

@[simp] theorem planRamStart_push {o : Option PushRec} {s : State} (h : PushKept o s.ilk.push) (n : Nat) :
    PushKept o (s.planRamStart n).ilk.push := by
  unfold planRamStart
  (repeat' split) <;> simp [h]

@[simp] theorem planPushComplete_push {o : Option PushRec} {s : State} (h : PushKept o s.ilk.push) (n : Nat) :
    PushKept o (s.planPushComplete n).ilk.push := by
  unfold planPushComplete
  (repeat' split) <;> simp [h]

@[simp] theorem planAbandon_push {o : Option PushRec} {s : State} (h : PushKept o s.ilk.push) (n : Nat) :
    PushKept o (s.planAbandon n).ilk.push := by
  unfold planAbandon
  (repeat' split) <;> simp [h]

@[simp] theorem ovenChanged_push {o : Option PushRec} {s : State} (h : PushKept o s.ilk.push) (n : Nat) :
    PushKept o (s.ovenChanged n).ilk.push := by
  unfold ovenChanged
  simp [h]

@[simp] theorem evalReady_push {o : Option PushRec} {s : State} (h : PushKept o s.ilk.push) (n : Nat) :
    PushKept o (s.evalReady n).ilk.push := by
  unfold evalReady
  (repeat' split) <;> simp [h]

@[simp] theorem assumeEnd_push {o : Option PushRec} {s : State} (h : PushKept o s.ilk.push) (m : Nat) :
    PushKept o (s.assumeEnd m).ilk.push := by
  unfold assumeEnd
  simp [h]

@[simp] theorem chargeFact_push {o : Option PushRec} {s : State} (h : PushKept o s.ilk.push) (n : Nat) :
    PushKept o (s.chargeFact n).ilk.push := by
  unfold chargeFact
  dsimp only
  (repeat' split) <;> simp [h]

@[simp] theorem enterLeaking_push {o : Option PushRec} {s : State}
    (h : PushKept o s.ilk.push) (n : Nat) (d : Side) :
    PushKept o (s.enterLeaking n d).ilk.push := by
  unfold enterLeaking
  dsimp only
  (repeat' split) <;> simp [h]

@[simp] theorem doorGoesOff_push {o : Option PushRec} {s : State}
    (h : PushKept o s.ilk.push) (n : Nat) (d : Side) :
    PushKept o (s.doorGoesOff n d).ilk.push := by
  unfold doorGoesOff
  dsimp only
  (repeat' split) <;> simp [h]

end State

end Sys2Proof.Machine
end

section
/-! SUPPORT. Chapters 3 and 4: the end of a breach, stickers and late pushes, retry and abandon, the ram's reports. -/

namespace Sys2Proof.Machine

open Sys2Proof State

/-! ## CLEAR_BREACH (R64, R67) -/

namespace State

theorem hold_eq_false_iff (s : State) :
    s.hold = false ↔ s.inRun = true ∧ s.ilk.stop = false ∧ ∀ x ∈ s.ot, x.breach = false := by
  simp [hold, and_assoc]

theorem anyDoorOff_iff (s : State) (n : Nat) :
    s.anyDoorOff n = true ↔ s.doorState n .ps = some .off ∨ s.doorState n .cs = some .off := by
  simp [anyDoorOff]

theorem sendClears_eq (s : State) (c : HoldCause) : s.sendClears c =
    let clears := s.sendAllOnline (.clear c)
    if s.unconfirmed = true ∧ s.online .pm = true then clears.send .pm (.stop .linkLoss) else clears := by
  have sameFlag : (s.sendAllOnline (.clear c)).unconfirmed = s.unconfirmed := by simp [unconfirmed]
  have sameLink : (s.sendAllOnline (.clear c)).online .pm = s.online .pm := by simp [online, mlink]
  simp only [sendClears, sameFlag, sendIfOnline, sameLink]
  cases s.unconfirmed <;> cases s.online .pm <;> rfl

theorem clearBreach_keeps (tag : Byte) (n : Nat) (s : State) : (requestEffect (.clearBreach tag n) s).1.pln = s.pln
    ∧ (requestEffect (.clearBreach tag n) s).1.tb = s.tb := by
  show (forOven n (clearBreachOp n) s).1.pln = s.pln ∧ (forOven n (clearBreachOp n) s).1.tb = s.tb
  unfold forOven clearBreachOp holdEnds workAfterHold
  (repeat' split) <;> simp [State.ok, refuse]

end State

/-- Settles O37. -/
theorem clearBreachEndsTheHold : Obligations.ClearBreachEndsTheHold := by
  unfold Obligations.ClearBreachEndsTheHold
  intro s tag n room h
  have block : requestEffect (.clearBreach tag n) h = forOven n (clearBreachOp n) h := rfl
  refine ⟨fun outside => ?_, fun o present => ?_, fun t early event => ?_⟩
  · exact exec_answered rfl room (block.trans (forOven_none outside))
  · intro u free clears told
    have flag : (h.oven n).map OvenRec.breach = some o.breach := by rw [present]; rfl
    have taken : requestEffect (.clearBreach tag n) h = clearBreachOp n h := block.trans (forOven_some present)
    refine ⟨fun clean => ?_, fun set off => ?_, fun set ps cs => ?_⟩
    · refine exec_answered rfl room (taken.trans (if_pos ?_))
      simp [flag, clean]
    · refine exec_answered rfl room (taken.trans ((if_neg ?_).trans (if_pos ((anyDoorOff_iff h n).mpr off))))
      simp [flag, set]
    · have op : clearBreachOp n h = (u.holdEnds .breach).ok :=
        (if_neg (by simp [flag, set])).trans (if_neg (mt (anyDoorOff_iff h n).mp (by simp [ps, cs])))
      have holds : u.hold = false ↔ free := hold_eq_false_iff u
      refine ⟨fun ends' => ?_, fun stays => ?_⟩
      · have ended : u.holdEnds .breach = (u.sendClears .breach).workAfterHold :=
          if_neg (Bool.eq_false_iff.mp (holds.mpr ends'))
        rw [ended, sendClears_eq] at op
        exact exec_answered rfl room (taken.trans op)
      · have kept : u.holdEnds .breach = u := if_pos (by simpa using mt holds.mp stays)
        rw [kept] at op
        exact exec_answered rfl room (taken.trans op)
  · rw [exec_request rfl room] at event
    obtain rfl := Host.Outcome.next.inj event
    obtain ⟨pln, tb⟩ := clearBreach_keeps tag n h
    have inTime : ((requestEffect (.clearBreach tag n) h).1.pushAnswer tag (requestEffect (.clearBreach tag n) h).2).now
        < tMax := by
      simpa [now, tb, h] using early
    rw [settle_eq_kick inTime]
    simpa using pln

/-! ## Stickers and late pushes (R80, R81) -/

/-- Settles O41. -/
theorem stickersAndLatePushes : Obligations.StickersAndLatePushes := by
  unfold Obligations.StickersAndLatePushes
  intro stuck late
  have expire (s : State) (q : PushRec) : (q.stage = .ramForward → s.stageExpire q = stuck s q)
      ∧ (q.stage = .ramReturn ∨ q.stage = .closing → s.stageExpire q = late s q) := by
    constructor
    · intro stage
      let u := (s.setPush (some { q with stage := .sticker, timer := .absent, late := false })).updOven q.oven fun o =>
        { o with stickers := min 3 (o.stickers + 1) }
      let v := u.raise (.sticker q.oven q.attempts (((u.oven q.oven).map OvenRec.stickers).getD 0) q.ramStart s.ram)
      have car : v.qnu.car = s.qnu.car := by simp [v, u]
      have taken : s.stageExpire q = (v.stickerCar q.oven).retest := by
        rw [stageExpire, stage]
        rfl
      rw [taken, stickerCar, car]
      split
      next at0 => exact (if_pos at0).symm
      next away => exact (if_neg away).symm
    · rintro (stage | stage)
      all_goals
        rw [stageExpire, stage]
        rfl
  refine ⟨expire, fun s => ?_⟩
  intro due
  have timer (q : PushRec) : s.stageTimerDue q = true ↔ due q := by
    unfold stageTimerDue
    cases running : q.timer <;> simp [due, running]
  refine ⟨fun early => ?_, fun early => ?_, fun q push past => ⟨fun stage => ?_, fun stage => ?_⟩⟩
  · show ends s.ramTimerExpire = _
    unfold ramTimerExpire
    cases push : s.ilk.push with
    | none => rfl
    | some q => exact congrArg ends (if_neg fun ⟨stage, past⟩ => early q push stage ((timer q).mp past))
  · show ends s.lateTimerExpire = _
    unfold lateTimerExpire
    cases push : s.ilk.push with
    | none => rfl
    | some q => exact congrArg ends (if_neg fun ⟨stage, past⟩ => early q push stage ((timer q).mp past))
  · show ends s.ramTimerExpire = _
    rw [ramTimerExpire, push, ← (expire s q).1 stage]
    exact congrArg ends (if_pos ⟨stage, (timer q).mpr past⟩)
  · show ends s.lateTimerExpire = _
    rw [lateTimerExpire, push, ← (expire s q).2 stage]
    exact congrArg ends (if_pos ⟨stage, (timer q).mpr past⟩)

end Sys2Proof.Machine
end

section
/-! SUPPORT. Chapter 4: what ends a push, PUSH_RETRY and ABANDON. -/

namespace Sys2Proof.Machine

open Sys2Proof State

namespace State

/-- The planner's part of a push that does not serve the plan (R29, R34). -/
theorem not_serving_cases {s : State} {n : Nat} (slot : ¬ (s.pln.serving = some .slot ∧ s.cursorSlot.map Slot.oven = some n))
    (makeup : ∀ t, s.pln.serving ≠ some (.makeup n t)) :
    s.pln.serving = none ∨ (s.pln.serving = some .slot ∧ s.cursorAt n = false)
      ∨ ∃ o t, s.pln.serving = some (.makeup o t) ∧ o ≠ n := by
  rcases serving : s.pln.serving with _ | _ | ⟨o, t⟩
  · exact .inl rfl
  · exact .inr (.inl ⟨rfl, by simpa [cursorAt, serving] using slot⟩)
  · exact .inr (.inr ⟨o, t, rfl, fun same => makeup t (by rw [serving, same])⟩)

theorem cursorAt_of {s : State} {n : Nat} (h : s.cursorSlot.map Slot.oven = some n) : s.cursorAt n = true := by
  simp [cursorAt, h]

theorem planAbandon_slot {s : State} {n i : Nat} (serving : s.pln.serving = some .slot) (cursor : s.pln.cursor = some i)
    (slot : s.cursorSlot.map Slot.oven = some n) :
    let u := State.raise { s with pln := { s.pln with
      serving := none
      round := s.pln.round.map fun r =>
        { r with slots := upd1 (fun x => { x with status := .passed }) (i + 1) r.slots } } } (.slotPassed i n .abandoned)
    s.planAbandon n = (if s.pln.state = .running then u.advance else u).planUpdate := by
  intro u
  have sameState : u.pln.state = s.pln.state := by simp [u]
  have taken : s.planAbandon n = u.advanceIfRunning.planUpdate := by
    have index : s.pln.cursor.getD 0 = i := by rw [cursor]; rfl
    rw [planAbandon, serving]
    refine (if_pos (cursorAt_of slot)).trans ?_
    rw [index, updCursor_some cursor]
    rfl
  rw [taken, advanceIfRunning, sameState]

theorem planAbandon_makeup {s : State} {n t : Nat} (serving : s.pln.serving = some (.makeup n t)) :
    s.planAbandon n = State.planUpdate { s with pln.serving := none } := by
  simp only [planAbandon, serving, if_true]
  rfl

theorem planAbandon_other {s : State} {n : Nat} (slot : ¬ (s.pln.serving = some .slot ∧ s.cursorSlot.map Slot.oven = some n))
    (makeup : ∀ t, s.pln.serving ≠ some (.makeup n t)) : s.planAbandon n = s := by
  obtain idle | ⟨serving, away⟩ | ⟨o, t, serving, other⟩ := not_serving_cases slot makeup
  · simp only [planAbandon, idle]
  · simp [planAbandon, serving, away]
  · simp [planAbandon, serving, other]

theorem pushRemoved_push (s : State) (n : Nat) : (s.pushRemoved n).ilk.push = none := by
  have gone : PushKept none (((s.setPush none).dispatchDoor .ps).dispatchDoor .cs).ilk.push := by simp [setPush]
  have kept : PushKept none (s.pushRemoved n).ilk.push := by
    unfold pushRemoved
    dsimp only
    split
    · exact retest_push (reconsiderNext_push gone)
    · exact retest_push gone
  exact kept.eq_none_iff.mpr rfl

theorem pushRemoved_ot (s : State) (n : Nat) : (s.pushRemoved n).ot = s.ot := by simp

theorem overdueCheck_ovenState (s : State) (n k : Nat) : (s.overdueCheck n).ovenState k = s.ovenState k := by
  simp only [ovenState, oven, overdueCheck_ot, nth1_upd1]
  split
  · rw [Option.map_map]
    rfl
  · rfl

theorem evalReadyRaw_ovenState (s : State) (n : Nat) : (s.evalReadyRaw n).ovenState n = (s.oven n).map s.readyState := by
  simp [ovenState, oven, evalReadyRaw, Option.map_map, Function.comp_def]

theorem readyState_congr {s t : State} (tb : t.tb = s.tb) (cfg : t.cfg = s.cfg) : t.readyState = s.readyState := by
  funext o
  rw [readyState_eq, readyState_eq, now, now, tb, cfg]

/-- What an abandoned push makes of its oven's state (R13, R16). -/
theorem abandonPush_ovenState (s : State) (p : PushRec) :
    (s.abandonPush p).ovenState p.oven = (s.oven p.oven).map fun o => s.readyState (backToReady o) := by
  let gone := s.raise (.pushAbandoned p.oven p.attempts (((s.oven p.oven).map OvenRec.stickers).getD 0) p.doorOff p.ramStart)
  let left := ((gone.updOven p.oven backToReady).evalReadyRaw p.oven).overdueCheck p.oven
  have table : (s.abandonPush p).ot = left.ot := by
    show (((left.planAbandon p.oven).ovenChanged p.oven).pushRemoved p.oven).ot = left.ot
    simp
  have kept : (s.abandonPush p).ovenState p.oven = left.ovenState p.oven := by simp only [ovenState, oven, table]
  have reads : (gone.updOven p.oven backToReady).readyState = s.readyState :=
    readyState_congr (by simp [gone]) (by simp [gone])
  have written : (gone.updOven p.oven backToReady).oven p.oven = (s.oven p.oven).map backToReady := by simp [oven, gone]
  rw [kept, overdueCheck_ovenState, evalReadyRaw_ovenState, reads, written, Option.map_map]
  rfl

end State

/-- Settles O42. -/
theorem retryAndAbandon : Obligations.RetryAndAbandon := by
  unfold Obligations.RetryAndAbandon
  refine ⟨fun s n => ⟨fun i serving cursor slot => planAbandon_slot serving cursor slot,
    fun t serving => planAbandon_makeup serving, fun slot makeup => planAbandon_other slot makeup⟩,
    fun h q => rfl, fun s tag n room run => ?_⟩
  intro h
  have heardRun : h.inRun = true := (supervisorHeard_inRun s).trans run
  have retry : requestEffect (.pushRetry tag n) h = pushRetryOp n h := runOnly_run heardRun
  have abandon : requestEffect (.abandon tag n) h = abandonOp n h := runOnly_run heardRun
  refine ⟨fun other => ⟨?_, ?_⟩, fun q push at0 => ?_⟩
  · refine exec_answered rfl room (retry.trans ?_)
    unfold pushRetryOp
    cases push : h.ilk.push with
    | none => rfl
    | some q => exact if_pos (other q push)
  · refine exec_answered rfl room (abandon.trans ?_)
    unfold abandonOp
    cases push : h.ilk.push with
    | none => rfl
    | some q => exact if_pos (other q push)
  · intro waits
    subst at0
    have again : pushRetryOp q.oven h = if q.stage ≠ .sticker ∨ q.retry then h.refuse .ovenState
        else if q.attempts = 3 then h.refuse .attempts
        else if !(h.online .pm) || !(h.ram == some .home) then h.refuse .ramNotHome
        else ((h.setPush (some { q with attempts := q.attempts + 1, retry := true })).retest,
          .okWith (.attempts (q.attempts + 1))) := by
      simp only [pushRetryOp, push]
      exact if_neg (not_not.mpr rfl)
    have leave : abandonOp q.oven h = if q.stage ≠ .sticker then h.refuse .ovenState
        else if h.anyDoorOff q.oven then h.refuse .doors else (h.abandonPush q).ok := by
      simp only [abandonOp, push]
      exact if_neg (not_not.mpr rfl)
    have waiting : ¬ (q.stage ≠ .sticker ∨ q.retry = true) ↔ waits := by simp [waits]
    refine ⟨fun busy => ?_, fun waits last => ?_, fun waits more away => ?_, fun waits more online home => ?_,
      fun stage => ?_, fun stage off => ?_, fun stage ps cs => ⟨?_, ?_, fun o present => ⟨fun state => ?_, fun pushing ready coking => ?_⟩⟩⟩
    · exact exec_answered rfl room (retry.trans (again.trans (if_pos (not_not.mp (mt waiting.mp busy)))))
    · exact exec_answered rfl room (retry.trans (again.trans ((if_neg (waiting.mpr waits)).trans (if_pos last))))
    · refine exec_answered rfl room (retry.trans (again.trans ((if_neg (waiting.mpr waits)).trans ((if_neg more).trans
        (if_pos ?_)))))
      simpa using away
    · refine exec_answered rfl room (retry.trans (again.trans ((if_neg (waiting.mpr waits)).trans ((if_neg more).trans
        (if_neg ?_)))))
      simp [online, home]
    · exact exec_answered rfl room (abandon.trans (leave.trans (if_pos stage)))
    · exact exec_answered rfl room (abandon.trans (leave.trans ((if_neg (not_not.mpr stage)).trans
        (if_pos ((anyDoorOff_iff h q.oven).mpr off)))))
    · exact exec_answered rfl room (abandon.trans (leave.trans ((if_neg (not_not.mpr stage)).trans
        (if_neg (mt (anyDoorOff_iff h q.oven).mp (by simp [ps, cs]))))))
    · exact pushRemoved_push _ _
    · have cokes : (backToReady o).state = .coking ∨ (backToReady o).state = .ready := by
        obtain st | st | st := state <;> simp [backToReady, st]
      have charged : (backToReady o).chargeEnd = o.chargeEnd ∧ (backToReady o).target = o.target := by
        unfold backToReady
        split <;> exact ⟨rfl, rfl⟩
      rw [abandonPush_ovenState, present, Option.map_some, readyState_eq, if_pos cokes, reached_readyTime, charged.1,
        charged.2]
    · have same : backToReady o = o := if_neg pushing
      rw [abandonPush_ovenState, present, Option.map_some, same, readyState_eq, if_neg (not_or.mpr ⟨coking, ready⟩)]

end Sys2Proof.Machine
end

section
/-! SUPPORT. Chapter 4: push complete and the ram's reports. -/

namespace Sys2Proof.Machine

open Sys2Proof State

namespace State

/-! ## Push complete (R15, R77) -/

theorem completionTest_waits {s : State}
    (h : ∀ q, s.ilk.push = some q → ¬ (q.stage = .closing ∧ s.anyDoorOff q.oven = false)) : s.completionTest = s := by
  unfold completionTest
  cases push : s.ilk.push with
  | none => rfl
  | some q => exact if_neg (by simpa using h q push)

theorem completionTest_completes {s : State} {q : PushRec} (push : s.ilk.push = some q) (stage : q.stage = .closing)
    (doors : s.anyDoorOff q.oven = false) : s.completionTest = s.pushComplete q := by
  simp only [completionTest, push]
  exact if_pos ⟨stage, by simp [doors]⟩

theorem pushComplete_push (s : State) (p : PushRec) : (s.pushComplete p).ilk.push = none := pushRemoved_push _ _

theorem pushComplete_ot (s : State) (p : PushRec) : (s.pushComplete p).ot = upd1 (emptied p) p.oven s.ot := by
  unfold pushComplete
  dsimp only
  split <;> simp

theorem planPushComplete_slot {s : State} {n i : Nat} (serving : s.pln.serving = some .slot) (cursor : s.pln.cursor = some i)
    (slot : s.cursorSlot.map Slot.oven = some n) :
    let u : State := { s with pln := { s.pln with
      serving := none
      round := s.pln.round.map fun r => { r with slots := upd1 (fun x => { x with status := .done }) (i + 1) r.slots }
      makeup := s.pln.makeup.filter fun e => e.oven ≠ n } }
    s.planPushComplete n = (if s.pln.state = .running then u.advance else u).planUpdate := by
  intro u
  have taken : s.planPushComplete n = u.advanceIfRunning.planUpdate := by
    rw [planPushComplete, serving]
    refine (if_pos (cursorAt_of slot)).trans ?_
    rw [updCursor_some cursor, dropMakeup_eq]
    rfl
  rw [taken]
  rfl

theorem planPushComplete_makeup {s : State} {n t : Nat} (serving : s.pln.serving = some (.makeup n t)) :
    s.planPushComplete n = State.planUpdate { s with pln := { s.pln with
      serving := none, makeup := s.pln.makeup.filter fun e => e.oven ≠ n } } := by
  simp only [planPushComplete, serving, if_true, dropMakeup_eq]
  rfl

theorem planPushComplete_other {s : State} {n : Nat}
    (slot : ¬ (s.pln.serving = some .slot ∧ s.cursorSlot.map Slot.oven = some n))
    (makeup : ∀ t, s.pln.serving ≠ some (.makeup n t)) :
    s.planPushComplete n = { s with pln.makeup := s.pln.makeup.filter fun e => e.oven ≠ n } := by
  rw [← dropMakeup_eq]
  obtain idle | ⟨serving, away⟩ | ⟨o, t, serving, other⟩ := not_serving_cases slot makeup
  · simp only [planPushComplete, idle]
  · simp [planPushComplete, serving, away]
  · simp [planPushComplete, serving, other]

/-! ## The ram (R74 to R78) -/

theorem newTimer_eq {s : State} {q : PushRec} (push : s.ilk.push = some q) (dur : Nat) : s.newTimer dur =
    if s.ilk.stop = true ∨ q.unconfirmed = true then .held dur else .running (min tMax (s.now + dur)) := by
  simp [newTimer, timerHeld, unconfirmed, push, timeAdd]

end State

/-- Settles O40. -/
theorem ramReportsMoveThePush : Obligations.RamReportsMoveThePush := by
  unfold Obligations.RamReportsMoveThePush
  refine ⟨fun s => ⟨completionTest_waits, fun q push stage doors => ?_⟩, fun s n => ?_, fun s n untested inTable => ?_⟩
  · intro start net told emptied' offered cleared free
    rw [completionTest_completes push stage doors]
    have clears : (if q.unconfirmed && !offered.hold then offered.sendIfOnline .pm (.clear .linkLoss) else offered)
        = cleared := by
      simp only [cleared, sendIfOnline]
      cases q.unconfirmed <;> cases offered.hold <;> cases offered.online .pm <;> rfl
    show (if q.unconfirmed && !offered.hold then offered.sendIfOnline .pm (.clear .linkLoss) else offered).pushRemoved q.oven
      = _
    rw [clears]
    rfl
  · exact ⟨fun i serving cursor slot => planPushComplete_slot serving cursor slot,
      fun t serving => planPushComplete_makeup serving, fun slot makeup => planPushComplete_other slot makeup⟩
  · intro told timer stageOf ends'
    have ok : (s.heardFrom .pm).ovenOk n = true := (ovenOk_eq s n).trans inTable
    have atEnd : exec (.ramAtEnd .pm n) s = ends ((s.heardFrom .pm).takeRamAtEnd n) := by
      rw [exec_machineFrame rfl untested]
      simp [frameEffect, ok]
    have home : exec (.ramHome .pm n) s = ends ((s.heardFrom .pm).takeRamHome n) := by
      rw [exec_machineFrame rfl untested]
      simp [frameEffect, ok]
    have pushOf (r : Ram) : ((s.heardFrom .pm).writeRam r).ilk.push = s.ilk.push := rfl
    refine ⟨fun q push h => ?_, fun other => ?_, fun q push at0 stage => ?_, fun q push at0 stage => ?_, fun other => ?_⟩
    · intro u
      obtain ⟨rfl, stages⟩ := h
      have taken : (s.heardFrom .pm).takeRamAtEnd q.oven = ((s.heardFrom .pm).writeRam .atEnd).takeRamEnd q false := by
        simp only [takeRamAtEnd, pushOf, push]
        exact if_pos ⟨trivial, by simpa using stages⟩
      have ended : ((s.heardFrom .pm).writeRam .atEnd).takeRamEnd q false = (u.ramEndCar q.oven s.now).retest := by
        rw [takeRamEnd, newTimer_eq (s := (s.heardFrom .pm).writeRam .atEnd) push]
        rfl
      rw [atEnd, taken, ended]
      by_cases car : s.qnu.car.state = .spotted q.oven ∨ s.qnu.car.state = .loading q.oven
      · rw [if_pos car]
        exact congrArg (fun v => ends (State.retest v)) (if_pos car)
      · rw [if_neg car]
        exact congrArg (fun v => ends (State.retest v)) (if_neg car)
    · have refused : (s.heardFrom .pm).takeRamAtEnd n = ((told .atEnd).ramSequence n .ramAtEnd).retest := by
        simp only [takeRamAtEnd, pushOf]
        cases push : s.ilk.push with
        | none => rfl
        | some q => exact if_neg (by simpa [ends'] using other q push)
      rw [atEnd, refused]
      rfl
    · intro u
      subst at0
      have taken : (s.heardFrom .pm).takeRamHome q.oven = u.retest.completionTest := by
        have closing : ((s.heardFrom .pm).writeRam .home).enterClosing q false = u.retest := by
          rw [enterClosing, newTimer_eq (s := (s.heardFrom .pm).writeRam .home) push]
          rfl
        rw [← closing]
        simp only [takeRamHome, pushOf, push]
        exact if_pos ⟨trivial, stage⟩
      have doors : u.retest.anyDoorOff q.oven = s.anyDoorOff q.oven := by simp [anyDoorOff, doorState, door, u, told, setPush]
      rw [home, taken]
      refine ⟨rfl, fun off => ?_, fun on unarmed early => ?_⟩
      · rw [completionTest_waits]
        rintro q' push' ⟨-, shut⟩
        have kept : PushKept u.ilk.push u.retest.ilk.push := retest_push (PushKept.refl _)
        rw [push'] at kept
        rw [kept.oven, doors, off] at shut
        cases shut
      · have kept : PushKept u.ilk.push u.retest.ilk.push := retest_push (PushKept.refl _)
        have closing := kept.unarmed unarmed
        rw [completionTest_completes closing rfl (doors.trans on)]
        have inTime (p : PushRec) : (u.retest.pushComplete p).now < tMax := by simpa [now, u, told] using early
        refine ⟨_, rfl, ?_, ?_⟩
        · rw [settle_eq_kick (inTime _)]
          simpa using pushComplete_push _ _
        · rw [settle_eq_kick (inTime _), (kick_frame _).2.1, pushComplete_ot]
          have table : u.retest.ot = s.ot := by simp [u, told, setPush]
          rw [table]
          rfl
    · subst at0
      rw [home]
      refine congrArg ends ?_
      simp only [takeRamHome, pushOf, push, stage]
      rfl
    · have refused : (s.heardFrom .pm).takeRamHome n = ((told .home).ramSequence n .ramHome).retest := by
        simp only [takeRamHome, pushOf]
        cases push : s.ilk.push with
        | none => rfl
        | some q =>
          refine (if_neg ?_).trans (if_neg ?_)
          · rintro ⟨at0, stage⟩
            exact (other q push at0).1 stage
          · rintro ⟨at0, stage⟩
            exact (other q push at0).2 stage
      rw [home, refused]
      rfl

end Sys2Proof.Machine
end

section
/-! SUPPORT. Chapter 6: the damper and setpoint commands. -/

namespace Sys2Proof.Machine

open Sys2Proof State

namespace State

/-! ## Section records -/

/-- A change of a section that stands writes one record. -/
theorem updSec_of_some {s : State} {k : Nat} {r : SecRec} (present : s.sec k = some r) (f : SecRec → SecRec) :
    s.updSec k f = { s with ofu.sections := upd1 (fun _ => f r) k s.ofu.sections } := by
  have same : upd1 f k s.ofu.sections = upd1 (fun _ => f r) k s.ofu.sections :=
    upd1_congr fun a at0 => by rw [Option.some.inj (at0.symm.trans present)]
  simp only [updSec, same]

/-- A change that leaves the record of the section leaves the state. -/
theorem updSec_eq_self {s : State} {k : Nat} {f : SecRec → SecRec} (h : ∀ r, s.sec k = some r → f r = r) :
    s.updSec k f = s := by
  simp only [updSec, upd1_eq_self h]

theorem within_nSec (s : State) (k : Nat) : within 1 s.nSec k = (s.sec k).isSome := (nth1_isSome s.ofu.sections k).symm

theorem forSection_some {s : State} {k : Nat} {r : SecRec} (present : s.sec k = some r)
    (take : State → State × Reply) : forSection k take s = take s :=
  if_pos (by simp [within_nSec, present])

theorem forSection_none {s : State} {k : Nat} (absent : s.sec k = none) (take : State → State × Reply) :
    forSection k take s = s.refuse .range :=
  if_neg (by simp [within_nSec, absent])

/-! ## The commands (R119 to R121) -/

theorem setDamperOp_inactive {s : State} {k : Nat} {r : SecRec} (present : s.sec k = some r) (inactive : r.live = none)
    (value : Nat) : setDamperOp k value s = s.refuse .state := by
  simp [setDamperOp, present, inactive]

theorem setDamperOp_active {s : State} {k : Nat} {r : SecRec} {v : SecLive} (present : s.sec k = some r)
    (live : r.live = some v) (value : Nat) :
    setDamperOp k value s = (s.updSec k fun x => { x with
        live := some { v with mode := .manual, transfer := none, uOut := (min 1000 value : Nat) } },
      .okWith (.damper (min 1000 value : Nat))) := by
  simp [setDamperOp, present, live]

theorem setAutoOp_inactive {s : State} {k : Nat} {r : SecRec} (present : s.sec k = some r) (inactive : r.live = none) :
    setAutoOp k s = s.refuse .state := by
  simp [setAutoOp, present, inactive]

theorem setAutoOp_active {s : State} {k : Nat} {r : SecRec} {v : SecLive} (run : s.inRun = true)
    (present : s.sec k = some r) (live : r.live = some v) :
    setAutoOp k s = (s.updSec k fun r => { r with live := some (autoMode r.sensorFault v) },
      .okWith (.secMode (autoMode r.sensorFault v).mode)) := by
  have same := updSec_of_some present fun x => { x with live := some (autoMode r.sensorFault v) }
  have self := updSec_of_some present fun x => { x with live := some (autoMode x.sensorFault v) }
  simp only [setAutoOp, run, present, live, same, self]
  rfl

theorem autoMode_of_ne {v : SecLive} (other : v.mode ≠ .manual) (fault : Bool) : autoMode fault v = v := by
  unfold autoMode
  split
  · exact absurd ‹_› other
  · rfl

theorem autoMode_fault {v : SecLive} {fault : Bool} (manual : v.mode = .manual) (h : fault = true) :
    autoMode fault v = { v with mode := .hold .fault } := by
  simp [autoMode, manual, h]

theorem autoMode_good {v : SecLive} {fault : Bool} (manual : v.mode = .manual) (h : fault = false) :
    autoMode fault v = { v with mode := .auto, transfer := some true } := by
  simp [autoMode, manual, h]

theorem setSetpointOp_none {s : State} {k : Nat} {r : SecRec} (present : s.sec k = some r) (absent : r.params = none)
    (p : Int) : setSetpointOp k p s = s.refuse .notFound := by
  simp [setSetpointOp, present, absent]

theorem setSetpointOp_some {s : State} {k : Nat} {r : SecRec} {par : PressureParams} (present : s.sec k = some r)
    (params : r.params = some par) (p : Int) :
    setSetpointOp k p s = (s.updSec k fun r => { r with params := some { par with setpoint := clampSetpoint par p } },
      .okWith (.setpoint (clampSetpoint par p))) := by
  simp [setSetpointOp, present, params]

end State

/-- Settles O50. -/
theorem damperAndSetpointCommands : Obligations.DamperAndSetpointCommands := by
  unfold Obligations.DamperAndSetpointCommands
  intro s tag k value p room h put
  have damper : requestEffect (.setDamper tag k value) h = forSection k (setDamperOp k value) h := rfl
  have auto : requestEffect (.setAuto tag k) h = forSection k (setAutoOp k) h := rfl
  have setpoint : requestEffect (.setSetpoint tag k p) h = forSection k (setSetpointOp k p) h := rfl
  refine ⟨fun absent => ⟨exec_answered rfl room (damper.trans (forSection_none absent _)),
    exec_answered rfl room (auto.trans (forSection_none absent _)),
    exec_answered rfl room (setpoint.trans (forSection_none absent _))⟩, fun r present => ?_⟩
  have damper := damper.trans (forSection_some present _)
  have auto := auto.trans (forSection_some present _)
  have setpoint := setpoint.trans (forSection_some present _)
  have puts (f : SecRec → SecRec) : h.updSec k f = put (f r) := updSec_of_some present f
  refine ⟨fun inactive => ?_, fun v live => ?_, fun config => ?_, fun run inactive => ?_, fun v run live => ?_,
    fun absent => ?_, fun par params => ?_⟩
  · exact exec_answered rfl room (damper.trans (setDamperOp_inactive present inactive value))
  · have damper := damper.trans (setDamperOp_active present live value)
    rw [puts] at damper
    exact exec_answered rfl room damper
  · exact exec_answered rfl room (auto.trans (by simp [setAutoOp, config]; rfl))
  · exact exec_answered rfl room (auto.trans (setAutoOp_inactive present inactive))
  · have auto := auto.trans (setAutoOp_active run present live)
    rw [puts] at auto
    refine ⟨fun other => ?_, fun manual fault => ?_, fun manual fault => ?_⟩
    · have kept : put { r with live := some v } = h := by
        rw [← puts fun x => { x with live := some v }]
        exact updSec_eq_self fun x at0 => by rw [Option.some.inj (at0.symm.trans present), ← live]
      rw [autoMode_of_ne other, kept] at auto
      exact exec_answered rfl room auto
    · rw [autoMode_good manual fault] at auto
      exact exec_answered rfl room auto
    · rw [autoMode_fault manual fault] at auto
      exact exec_answered rfl room auto
  · exact exec_answered rfl room (setpoint.trans (setSetpointOp_none present absent p))
  · have setpoint := setpoint.trans (setSetpointOp_some present params p)
    rw [puts] at setpoint
    exact exec_answered rfl room setpoint

end Sys2Proof.Machine
end

section
/-! SUPPORT. Chapter 6: gates, their ends, and fault readings. -/

namespace Sys2Proof.Machine

open Sys2Proof State

/-- A section without a good reading: F of an active section decays, the rest stands (R113). -/
def decayedSec (r : SecRec) : SecRec :=
  match r.live, r.params with
  | some _, some par => holdStep par r
  | _, _ => r

/-- The record a fault reading leaves (R117). -/
def faultedSec (r : SecRec) : SecRec :=
  { r with
    goodRun := 0
    sensorFault := true
    live := r.live.map fun v => if v.mode = .auto then { v with mode := .hold .fault, transfer := none } else v }

theorem classify_fault {n : Nat} (h : n ≤ 199 ∨ 1301 ≤ n) : classify n = .fault n := by
  rcases h with low | high
  · exact if_pos low
  · simp [classify, show ¬ n ≤ 199 by omega, show ¬ n ≤ 249 by omega, show ¬ n ≤ 1250 by omega,
      show ¬ n ≤ 1300 by omega]

theorem classify_good {n : Nat} (low : 200 ≤ n) (high : n ≤ 1300) :
    classify n = .good (if n ≤ 249 then -250 else if n ≤ 1250 then (n : Int) - 500 else 750) := by
  unfold classify
  rw [if_neg (by omega), if_pos high]
  split_ifs <;> rfl

theorem classify_gives (n : Nat) : State.gives (classify n) = true := by
  unfold classify
  split_ifs <;> rfl

namespace State

/-! ## What the parts of a gate's end do to the section records -/

@[simp] theorem sec_updSec (s : State) (k j : Nat) (f : SecRec → SecRec) :
    (s.updSec k f).sec j = if k = j then (s.sec j).map f else s.sec j := by simp [sec]

theorem sec_congr {s t : State} (h : t.ofu.sections = s.ofu.sections) (k : Nat) : t.sec k = s.sec k := by
  simp only [sec, h]

theorem gate_congr {s t : State} (h : t.ofu.gates = s.ofu.gates) (k : Nat) : t.gate k = s.gate k := by
  simp only [gate, h]

theorem assigned_congr {s t : State} (h : t.trm = s.trm) (fn : TermFn) : t.assigned fn = s.assigned fn := by
  simp only [assigned, terminalOf, h]

theorem updTerm_congr {s : State} {t : Nat} {f g : TermRec → TermRec} (h : ∀ r, s.term t = some r → f r = g r) :
    s.updTerm t f = s.updTerm t g := by
  simp only [updTerm, upd1_congr h]

theorem updTerm_id (s : State) (t : Nat) : s.updTerm t (fun r => r) = s := by
  simp only [updTerm, upd1_eq_self (f := fun r : TermRec => r) fun _ _ => rfl]

@[simp] theorem sec_raise (s : State) (b : NoticeBody) (k : Nat) : (s.raise b).sec k = s.sec k := by simp [sec]

@[simp] theorem sec_retest (s : State) (k : Nat) : s.retest.sec k = s.sec k := by simp [sec]

@[simp] theorem sec_chargeUnderPressure (s : State) (k : Nat) (l : AlarmLevel) (j : Nat) :
    (s.chargeUnderPressure k l).sec j = s.sec j := by simp [sec]

@[simp] theorem sec_endGate (s : State) (k j : Nat) : (s.endGate k).sec j = s.sec j := by simp [sec]

/-- A part of a gate's end writes the record of its own section only. -/
theorem sec_faultReading_ne {k j : Nat} (other : k ≠ j) (s : State) (n : Nat) :
    (s.faultReading k n).sec j = s.sec j := by
  unfold faultReading
  cases s.sec k with
  | none => rfl
  | some r =>
    dsimp only
    split <;> simp [other]

theorem sec_recover_ne {k j : Nat} (other : k ≠ j) (s : State) (p : Int) : (s.recover k p).sec j = s.sec j := by
  unfold recover
  split <;> simp [other]

theorem sec_alarmEval_ne {k j : Nat} (other : k ≠ j) (s : State) (p : Int) : (s.alarmEval k p).sec j = s.sec j := by
  unfold alarmEval
  split
  · split
    · dsimp only
      split <;> simp [other]
    · rfl
  · rfl

theorem sec_sectionStep_ne {k j : Nat} (other : k ≠ j) (s : State) (back : Bool) (rd : Reading) :
    (s.sectionStep k back rd).sec j = s.sec j := by simp [sectionStep, other]

theorem gate_endGate_ne {k j : Nat} (other : k ≠ j) (s : State) : (s.endGate k).gate j = s.gate j := by
  simp [endGate, gate, other]

/-- The section records stay the same in number. -/
theorem isSome_sec_faultReading (s : State) (k n : Nat) : ((s.faultReading k n).sec k).isSome = (s.sec k).isSome := by
  unfold faultReading
  cases present : s.sec k with
  | none => simp [present]
  | some r =>
    dsimp only
    split <;> simp [present]

theorem isSome_sec_recover (s : State) (k : Nat) (p : Int) : ((s.recover k p).sec k).isSome = (s.sec k).isSome := by
  unfold recover
  split <;> simp

theorem isSome_sec_alarmEval (s : State) (k : Nat) (p : Int) : ((s.alarmEval k p).sec k).isSome = (s.sec k).isSome := by
  unfold alarmEval
  split
  · split
    · dsimp only
      split <;> simp
    · rfl
  · rfl

/-- The end of one section's gate leaves the gates and records of the others. -/
theorem endSection_ne {k j : Nat} (other : k ≠ j) (s : State) :
    (s.endSection k).gate j = s.gate j ∧ (s.endSection k).sec j = s.sec j := by
  unfold endSection
  cases s.reading k with
  | good p =>
    constructor
    · rw [gate_endGate_ne other]
      exact gate_congr (by simp) j
    · simp only [sec_endGate, sec_sectionStep_ne other, sec_alarmEval_ne other, sec_recover_ne other, goodReading,
        sec_updSec, other, if_false]
  | fault n =>
    constructor
    · rw [gate_endGate_ne other]
      exact gate_congr (by simp) j
    · simp only [sec_endGate, sec_sectionStep_ne other, sec_faultReading_ne other]
  | absent =>
    constructor
    · rw [gate_endGate_ne other]
      exact gate_congr (by simp) j
    · simp only [sec_endGate, sec_sectionStep_ne other]

theorem endSections_ne {j : Nat} {l : List Nat} (other : j ∉ l) (s : State) :
    (endSections l s).gate j = s.gate j ∧ (endSections l s).sec j = s.sec j := by
  induction l generalizing s with
  | nil => exact ⟨rfl, rfl⟩
  | cons k rest ih =>
    have ne := List.ne_of_not_mem_cons other
    have later := List.not_mem_of_not_mem_cons other
    obtain ⟨gate, sec⟩ := endSection_ne (Ne.symm ne) s
    obtain ⟨gates, secs⟩ := ih later (s.endSection k)
    exact ⟨gates.trans gate, secs.trans sec⟩

/-- A section of the list comes to the end of its gate with its gate, its record and the terminals still as they were, and
keeps what that end leaves. -/
theorem endSections_at {k : Nat} {l : List Nat} (mem : k ∈ l) (once : l.Nodup) (s : State) :
    ∃ u : State, u.gate k = s.gate k ∧ u.sec k = s.sec k ∧ u.trm = s.trm
      ∧ (endSections l s).gate k = (u.endSection k).gate k ∧ (endSections l s).sec k = (u.endSection k).sec k := by
  induction l generalizing s with
  | nil => exact absurd mem List.not_mem_nil
  | cons j rest ih =>
    obtain ⟨notin, tail⟩ := List.nodup_cons.mp once
    rcases List.mem_cons.mp mem with rfl | later
    · exact ⟨s, rfl, rfl, rfl, endSections_ne notin _⟩
    · have other : j ≠ k := fun h => notin (h ▸ later)
      obtain ⟨u, gate, sec, trm, result⟩ := ih later tail (s.endSection j)
      obtain ⟨gate', sec'⟩ := endSection_ne other s
      exact ⟨u, gate.trans gate', sec.trans sec', trm.trans (by simp), result⟩

/-- What CONTROL_TICK leaves of a section is what the end of its gate leaves of it. -/
theorem controlTick_at {s : State} {k : Nat} (low : 1 ≤ k) (high : k ≤ 4) (below : s.now < tMax) :
    ∃ t u : State, exec .controlTick s = .next t ∧ t.tb = { s.tb with phase := (s.tb.phase + 1) % 4 }
      ∧ u.gate k = s.gate k ∧ u.sec k = s.sec k ∧ u.trm = s.trm
      ∧ t.gate k = (u.endSection k).gate k ∧ t.sec k = (u.endSection k).sec k := by
  let turned : State := { s with tb.phase := (s.tb.phase + 1) % 4 }
  have mem : k ∈ [1, 2, 3, 4] := by simp; omega
  obtain ⟨u, gate, sec, trm, gates, secs⟩ := endSections_at mem (by decide) turned
  have time : (endSections [1, 2, 3, 4] turned).tb = turned.tb := by simp
  have kicked : (endSections [1, 2, 3, 4] turned).settle = (endSections [1, 2, 3, 4] turned).kick :=
    settle_eq_kick (by rw [now, time]; exact below)
  refine ⟨_, u, congrArg Host.Outcome.next kicked, (by simp; rfl), gate, sec, trm, ?_, ?_⟩
  · exact (gate_congr (by simp) k).trans gates
  · exact (sec_congr (by simp) k).trans secs

theorem controlTick_tb {s : State} (below : s.now < tMax) :
    ∃ t : State, exec .controlTick s = .next t ∧ t.tb = { s.tb with phase := (s.tb.phase + 1) % 4 } :=
  have ⟨t, _, run, tb, _⟩ := controlTick_at (Nat.le_refl 1) (by omega) below
  ⟨t, run, tb⟩

/-! ## The end of a gate (R111, R113, R117) -/

theorem reading_of_gate {s : State} {k : Nat} {g : Gate} (gate : s.gate k = some g) :
    s.reading k = if (s.assigned (.pressIn k) && g.whole && (s.sec k).isSome) = true then classify g.count else .absent := by
  simp only [reading, gate]

theorem reading_congr {s t : State} {k : Nat} (gates : t.ofu.gates = s.ofu.gates) (trm : t.trm = s.trm)
    (sec : (t.sec k).isSome = (s.sec k).isSome) : t.reading k = s.reading k := by
  simp only [reading, gate_congr gates, assigned_congr trm, sec]

/-- The state with the gate of section k ended and the next begun, `gave` telling whether it gave a reading. -/
def nextGate (s : State) (k : Nat) (g : Gate) (gave : Bool) : State :=
  { s with ofu.gates := upd1 (fun _ => ⟨0, s.assigned (.pressIn k), some g.count, gave⟩) k s.ofu.gates }

theorem endGate_eq {s : State} {k : Nat} {g : Gate} (gate : s.gate k = some g) :
    s.endGate k = s.nextGate k g (s.assigned (.pressIn k) && g.whole && (s.sec k).isSome) := by
  have gave : gives (s.reading k) = (s.assigned (.pressIn k) && g.whole && (s.sec k).isSome) := by
    rw [reading_of_gate gate]
    cases s.assigned (.pressIn k) && g.whole && (s.sec k).isSome
    · rfl
    · exact classify_gives _
  have same : upd1 (fun x : Gate => ⟨0, s.assigned (.pressIn k), some x.count, gives (s.reading k)⟩) k s.ofu.gates
      = upd1 (fun _ => ⟨0, s.assigned (.pressIn k), some g.count, gives (s.reading k)⟩) k s.ofu.gates :=
    upd1_congr fun a at0 => by rw [Option.some.inj (at0.symm.trans gate)]
  rw [← gave]
  exact congrArg (fun gs => ({ s with ofu.gates := gs } : State)) same

theorem gate_endGate {s : State} {k : Nat} {g : Gate} (gate : s.gate k = some g) :
    (s.endGate k).gate k = some ⟨0, s.assigned (.pressIn k), some g.count,
      s.assigned (.pressIn k) && g.whole && (s.sec k).isSome⟩ := by
  rw [endGate_eq gate]
  have at0 : nth1 s.ofu.gates k = some g := gate
  simp [nextGate, State.gate, at0]

/-- With no good reading the control step is the decay alone. -/
theorem sectionStep_of_not_good {rd : Reading} (h : ∀ p, rd ≠ .good p) (s : State) (k : Nat) (back : Bool) :
    s.sectionStep k back rd = s.updSec k decayedSec := by
  unfold sectionStep
  congr 1
  funext r
  unfold controlStep decayedSec
  cases r.params with
  | none => cases r.live <;> rfl
  | some par =>
    cases r.live with
    | none => rfl
    | some v =>
      cases rd with
      | good p => exact absurd rfl (h p)
      | fault n => rfl
      | absent => rfl

theorem faultReading_eq {s : State} {k : Nat} {r : SecRec} (present : s.sec k = some r) (n : Nat) :
    s.faultReading k n =
      let u := s.updSec k fun x => { x with goodRun := 0, sensorFault := true, live := (faultedSec r).live }
      if r.sensorFault = true then u
      else u.raise (.sensorFault k n r.pressure ((faultedSec r).live.map SecLive.mode)) := by
  simp only [faultReading, present, faultedSec]

theorem sec_faultReading {s : State} {k : Nat} {r : SecRec} (present : s.sec k = some r) (n : Nat) :
    (s.faultReading k n).sec k = some (faultedSec r) := by
  rw [faultReading_eq present]
  dsimp only
  split <;> simp [present, faultedSec]

/-- A gate that gives no reading. -/
theorem endSection_absent {s : State} {k : Nat} {g : Gate} (gate : s.gate k = some g)
    (uncounted : (s.assigned (.pressIn k) && g.whole && (s.sec k).isSome) = false) :
    s.endSection k = (s.updSec k decayedSec).nextGate k g false := by
  have rd : s.reading k = .absent := by rw [reading_of_gate gate, uncounted]; rfl
  have step : s.sectionStep k false .absent = s.updSec k decayedSec := sectionStep_of_not_good (by simp) s k false
  have gate' : (s.updSec k decayedSec).gate k = some g := gate
  have ended := endGate_eq gate'
  have still : ((s.updSec k decayedSec).assigned (.pressIn k) && g.whole && ((s.updSec k decayedSec).sec k).isSome)
      = false := by
    rw [sec_updSec, if_pos rfl, Option.isSome_map]
    exact uncounted
  rw [still] at ended
  simp only [endSection, rd, step, ended]

/-- A gate that gives a fault reading. -/
theorem endSection_fault {s : State} {k : Nat} {g : Gate} (gate : s.gate k = some g)
    (counted : (s.assigned (.pressIn k) && g.whole && (s.sec k).isSome) = true)
    (fault : g.count ≤ 199 ∨ 1301 ≤ g.count) :
    s.endSection k = ((s.faultReading k g.count).updSec k decayedSec).nextGate k g true := by
  have rd : s.reading k = .fault g.count := by rw [reading_of_gate gate, if_pos counted, classify_fault fault]
  obtain ⟨r, present⟩ := Option.isSome_iff_exists.mp (Bool.and_elim_right counted)
  let u := (s.faultReading k g.count).updSec k decayedSec
  have step : (s.faultReading k g.count).sectionStep k false (.fault g.count) = u :=
    sectionStep_of_not_good (by simp) _ k false
  have gate' : u.gate k = some g := (gate_congr (by simp [u]) k).trans gate
  have trm : u.trm = s.trm := by simp [u]
  have ended := endGate_eq gate'
  have still : (u.assigned (.pressIn k) && g.whole && (u.sec k).isSome) = true := by
    rw [← counted, assigned_congr trm, sec_updSec, if_pos rfl, sec_faultReading present, present]
    rfl
  rw [still] at ended
  simp only [endSection, rd, step, ended]
  rfl

theorem sec_nextGate (s : State) (k : Nat) (g : Gate) (gave : Bool) (j : Nat) : (s.nextGate k g gave).sec j = s.sec j :=
  rfl

/-- Every end of a gate keeps its count as the last, with whether it gave a reading (R127, R168). -/
theorem gate_endSection {s : State} {k : Nat} {g : Gate} (gate : s.gate k = some g) :
    (s.endSection k).gate k = some ⟨0, s.assigned (.pressIn k), some g.count,
      s.assigned (.pressIn k) && g.whole && (s.sec k).isSome⟩ := by
  have ended (u : State) (gates : u.ofu.gates = s.ofu.gates) (trm : u.trm = s.trm)
      (sec : (u.sec k).isSome = (s.sec k).isSome) : (u.endGate k).gate k = some ⟨0, s.assigned (.pressIn k),
        some g.count, s.assigned (.pressIn k) && g.whole && (s.sec k).isSome⟩ := by
    rw [gate_endGate ((gate_congr gates k).trans gate), assigned_congr trm, sec]
  unfold endSection
  cases s.reading k with
  | good p =>
    exact ended _ (by simp) (by simp) (by simp [isSome_sec_alarmEval, isSome_sec_recover, sectionStep, goodReading])
  | fault n => exact ended _ (by simp) (by simp) (by simp [sectionStep, isSome_sec_faultReading])
  | absent => exact ended _ (by simp) (by simp) (by simp [sectionStep])

theorem nextGate_congr {s t : State} (trm : t.trm = s.trm) (k : Nat) (g : Gate) (gave : Bool) :
    t.nextGate k g gave
      = { t with ofu.gates := upd1 (fun _ => ⟨0, s.assigned (.pressIn k), some g.count, gave⟩) k t.ofu.gates } := by
  simp only [nextGate, assigned_congr trm]

end State

/-- Settles O48. -/
theorem gatesCountAndEnd : Obligations.GatesCountAndEnd := by
  unfold Obligations.GatesCountAndEnd
  intro s
  refine ⟨fun t r k at0 fn => ?_, fun t other => ?_, fun t r k at0 fn => ?_, fun t other => ?_, rfl, rfl,
    fun k rest => rfl, fun k n r present => ?_, fun k g gate => ?_, fun below => ?_⟩
  · have edge : s.pulseEdge t = s.updGate k fun g => { g with count := g.count + 1 } := by
      simp only [pulseEdge, at0, fn, TermFn.gateNo]
    exact congrArg ends edge
  · have edge : s.pulseEdge t = s := by
      unfold pulseEdge
      cases at0 : s.term t with
      | none => rfl
      | some r =>
        have zero : TermFn.gateNo r.fn = 0 := by
          unfold TermFn.gateNo
          split
          · exact absurd ‹_› (other r _ at0)
          · rfl
        simp only [zero]
        rfl
    exact congrArg ends edge
  · have start : s.periodStart t = s.updTerm t fun x => { x with duty := ((s.sec k).bind SecRec.live).map SecLive.uOut } :=
      updTerm_congr fun x at1 => by
        obtain rfl := Option.some.inj (at0.symm.trans at1)
        simp only [fn]
    exact congrArg ends start
  · have start : s.periodStart t = s := (updTerm_congr fun r at0 => by
      split
      · exact absurd ‹_› (other r _ at0)
      · rfl).trans (updTerm_id s t)
    exact congrArg ends start
  · intro live u
    exact ⟨fun flag => (faultReading_eq present n).trans (if_pos flag),
      fun clear => (faultReading_eq present n).trans (if_neg (by simp [clear]))⟩
  · intro counted held next
    have same : held = decayedSec := rfl
    rw [same]
    exact ⟨fun uncounted => endSection_absent gate uncounted, fun given fault =>
      (endSection_fault gate given fault).trans (nextGate_congr (by simp) k g true)⟩
  · obtain ⟨t, run, tb⟩ := controlTick_tb below
    refine ⟨t, run, tb, fun k g low high gate => ?_⟩
    intro counted held
    have same : held = decayedSec := rfl
    rw [same]
    obtain ⟨t', u, run', -, gate', sec', trm, gates, secs⟩ := controlTick_at low high below
    obtain rfl : t = t' := Host.Outcome.next.inj (run.symm.trans run')
    have stands : u.gate k = some g := gate'.trans gate
    have counts : (u.assigned (.pressIn k) && g.whole && (u.sec k).isSome) = counted := by
      rw [assigned_congr trm, sec']
    refine ⟨?_, fun r present => ⟨fun uncounted => ?_, fun given fault => ?_⟩⟩
    · rw [gates, gate_endSection stands, counts, assigned_congr trm]
    · rw [secs, endSection_absent stands (counts.trans uncounted), sec_nextGate, sec_updSec, if_pos rfl]
      exact congrArg (Option.map decayedSec) (sec'.trans present)
    · rw [secs, endSection_fault stands (counts.trans given) fault, sec_nextGate, sec_updSec, if_pos rfl]
      exact congrArg (Option.map decayedSec) (sec_faultReading (sec'.trans present) g.count)

end Sys2Proof.Machine
end

section
/-! SUPPORT. Chapter 6: the end of a gate on a good reading. -/

namespace Sys2Proof.Machine

open Sys2Proof State

/-! ## Alarm levels (R122) -/

theorem countRun_decide (holds : Prop) [Decidable holds] (n : Nat) :
    countRun (decide holds) n = if holds then n + 1 else 0 := by
  simp [countRun]

theorem alarmLevel_back (l : AlarmLevel) : AlarmLevel.back l = if l = .flare then .high else .normal := by
  cases l <;> rfl

theorem alarmStep_eq (par : PressureParams) (p : Int) (v : SecLive) :
    alarmStep par p v = { v with
      level := nextLevel v.level (countAlarm par p v.level v.counters)
      counters := if nextLevel v.level (countAlarm par p v.level v.counters) = v.level
        then countAlarm par p v.level v.counters else .zero } := by
  unfold alarmStep
  dsimp only
  split
  · rename_i same
    rw [same]
  · rfl

/-! ## The control step (R113, R114, R118) -/

/-- In HOLD and MANUAL without a return, F decays and the rest stands. -/
theorem controlStep_still {par : PressureParams} {r : SecRec} {v : SecLive} {p : Int} (live : r.live = some v)
    (away : v.mode ≠ .auto) : controlStep par false (.good p) r = holdStep par r := by
  simp [controlStep, live, away]

/-- In AUTO, or at a return to it, one step of the loop. -/
theorem controlStep_auto {par : PressureParams} {r : SecRec} {v : SecLive} {p : Int} {back : Bool}
    (live : r.live = some v) (auto : v.mode = .auto ∨ back = true) :
    controlStep par back (.good p) r = autoStep par (back || v.transfer == some true) r v p := by
  cases back with
  | true => simp [controlStep, live]
  | false => simp [controlStep, live, auto.resolve_right (by simp)]

theorem autoStep_eq (par : PressureParams) (transfer : Prop) [Decidable transfer] (r : SecRec) (v : SecLive) (p : Int) :
    autoStep par (decide transfer) r v p =
      let e := loopError par p
      let a := max 0 (min 256000
        (if transfer then (v.uOut - propTerm par e - r.ff) * 256 else r.integ + par.ki * e))
      { r with
        integ := a
        ff := decayF par.decay r.ff
        live := some { v with
          mode := .auto, transfer := some false, uOut := damperMove par v.uOut a (propTerm par e) r.ff } } := by
  by_cases h : transfer <;> simp [autoStep, h, clampA, clampInt]

namespace State

theorem updSec_congr {s : State} {k : Nat} {f g : SecRec → SecRec} (h : ∀ r, s.sec k = some r → f r = g r) :
    s.updSec k f = s.updSec k g := by
  simp only [updSec, upd1_congr h]

/-! ## The parts of the end of a gate on a good reading (R112) -/

theorem recovered_of_some {s : State} {k : Nat} {r : SecRec} (present : s.sec k = some r) :
    s.recovered k = (r.sensorFault && r.goodRun == 8) := by
  simp [recovered, present]

theorem returnsToAuto_of_some {s : State} {k : Nat} {r : SecRec} {v : SecLive} (present : s.sec k = some r)
    (live : r.live = some v) : s.returnsToAuto k = (r.sensorFault && r.goodRun == 8 && v.mode == .hold .fault) := by
  simp [returnsToAuto, recovered_of_some present, present, live]

theorem sec_recover {s : State} {k : Nat} {r : SecRec} (present : s.sec k = some r) (p : Int) :
    (s.recover k p).sec k =
      some { r with sensorFault := if r.sensorFault = true ∧ r.goodRun = 8 then false else r.sensorFault } := by
  unfold recover
  rw [recovered_of_some present]
  by_cases h : r.sensorFault = true ∧ r.goodRun = 8
  · simp [h, present]
  · rw [if_neg (by simpa using h), if_neg h, present]

theorem alarmEval_active {s : State} {k : Nat} {r : SecRec} {v : SecLive} {par : PressureParams}
    (present : s.sec k = some r) (live : r.live = some v) (params : r.params = some par) (p : Int) :
    s.alarmEval k p =
      let u := s.updSec k fun x => { x with live := some (alarmStep par p v) }
      if (alarmStep par p v).level = v.level then u
      else ((u.raise (.sectionAlarm k v.level (alarmStep par p v).level p)).chargeUnderPressure k
        (alarmStep par p v).level).retest := by
  simp only [alarmEval, present, live, params]

theorem alarmEval_inactive {s : State} {k : Nat} {r : SecRec} (present : s.sec k = some r) (inactive : r.live = none)
    (p : Int) : s.alarmEval k p = s := by
  simp only [alarmEval, present, inactive]

theorem chargeUnderPressure_eq {s : State} {k : Nat} {charge : Option ChargeRec}
    (found : s.ofu.charges.find? (fun c => s.secOf c.oven == k) = charge) (l : AlarmLevel) :
    s.chargeUnderPressure k l = match (generalizing := false) l, charge with
      | .high, some c => s.raise (.chargeUnderPressure k c.oven .high)
      | .flare, some c => s.raise (.chargeUnderPressure k c.oven .flare)
      | _, _ => s := by
  unfold chargeUnderPressure
  rw [found]
  cases l <;> cases charge <;> rfl

theorem sec_alarmEval {s : State} {k : Nat} {r : SecRec} {v : SecLive} {par : PressureParams}
    (present : s.sec k = some r) (live : r.live = some v) (params : r.params = some par) (p : Int) :
    (s.alarmEval k p).sec k = some { r with live := some (alarmStep par p v) } := by
  rw [alarmEval_active present live params]
  dsimp only
  split <;> simp [present]

theorem sectionStep_inactive {s : State} {k : Nat} {r : SecRec} (present : s.sec k = some r) (inactive : r.live = none)
    (back : Bool) (rd : Reading) : s.sectionStep k back rd = s := by
  refine updSec_eq_self fun x at0 => ?_
  obtain rfl := Option.some.inj (at0.symm.trans present)
  cases x.params with
  | none => rfl
  | some par => simp [controlStep, inactive]

theorem endSection_good {s : State} {k : Nat} {p : Int} (rd : s.reading k = .good p) :
    s.endSection k = (((((s.goodReading k p).recover k p).alarmEval k p).sectionStep k
      ((s.goodReading k p).returnsToAuto k) (.good p)).endGate k) := by
  simp only [endSection, rd]

theorem goodReading_eq {s : State} {k : Nat} {r : SecRec} (present : s.sec k = some r) (p : Int) :
    s.goodReading k p = s.updSec k fun x => { x with pressure := some p, goodRun := min 8 (r.goodRun + 1) } :=
  updSec_congr fun x at0 => by rw [Option.some.inj (at0.symm.trans present)]

theorem sec_goodReading {s : State} {k : Nat} {r : SecRec} (present : s.sec k = some r) (p : Int) :
    (s.goodReading k p).sec k = some { r with pressure := some p, goodRun := min 8 (r.goodRun + 1) } := by
  simp [goodReading, present]

theorem reading_good {s : State} {k : Nat} {g : Gate} {r : SecRec} (gate : s.gate k = some g)
    (assigned : s.assigned (.pressIn k) = true) (whole : g.whole = true) (present : s.sec k = some r)
    (low : 200 ≤ g.count) (high : g.count ≤ 1300) :
    s.reading k = .good (if g.count ≤ 249 then -250 else if g.count ≤ 1250 then (g.count : Int) - 500 else 750) := by
  rw [reading_of_gate gate, if_pos (by simp [assigned, whole, present]), classify_good low high]

/-- The record that the reading and the recovery leave (R112, R118). -/
def readSec (r : SecRec) (p : Int) : SecRec :=
  { r with
    pressure := some p
    goodRun := min 8 (r.goodRun + 1)
    sensorFault := if r.sensorFault = true ∧ min 8 (r.goodRun + 1) = 8 then false else r.sensorFault }

theorem sec_reading_recover {s : State} {k : Nat} {r : SecRec} (present : s.sec k = some r) (p : Int) :
    ((s.goodReading k p).recover k p).sec k = some (readSec r p) :=
  sec_recover (sec_goodReading present p) p

theorem endSection_inactive {s : State} {k : Nat} {p : Int} {r : SecRec} (rd : s.reading k = .good p)
    (present : s.sec k = some r) (inactive : r.live = none) :
    s.endSection k = ((s.goodReading k p).recover k p).endGate k := by
  have read := sec_reading_recover present p
  rw [endSection_good rd, alarmEval_inactive read inactive, sectionStep_inactive read inactive]

/-- What a good reading leaves of an active section. -/
theorem sec_endSection_active {s : State} {k : Nat} {p : Int} {r : SecRec} {v : SecLive} {par : PressureParams}
    (rd : s.reading k = .good p) (present : s.sec k = some r) (live : r.live = some v) (params : r.params = some par) :
    (s.endSection k).sec k = some (controlStep par
      (r.sensorFault && min 8 (r.goodRun + 1) == 8 && v.mode == .hold .fault) (.good p)
      { readSec r p with live := some (alarmStep par p v) }) := by
  have read := sec_reading_recover present p
  rw [endSection_good rd, sec_endGate, returnsToAuto_of_some (sec_goodReading present p) live, sectionStep, sec_updSec,
    if_pos rfl, sec_alarmEval read live params]
  simp only [Option.map_some, readSec, params]

end State

/-- Settles O49. -/
theorem theControlStepOnAGoodReading : Obligations.TheControlStepOnAGoodReading := by
  unfold Obligations.TheControlStepOnAGoodReading
  refine ⟨?_, ?_, ?_⟩
  · intro s k g r par v below low high gate assigned whole atLeast atMost present params live run
      recovers returns auto p e0 e prop a cmd u count rise flare settle low' level counters read alarmed
      charge
    have rd : s.reading k = .good p := reading_good gate assigned whole present atLeast atMost
    have counted : countAlarm par p v.level v.counters = ⟨rise, flare, settle, low'⟩ := by
      simp only [countAlarm, rise, flare, settle, low', count, countRun_decide]
      cases v.level <;> simp [settles, countRun]
    have levels : nextLevel v.level (countAlarm par p v.level v.counters) = level := by
      rw [counted]
      simp only [nextLevel, alarmLevel_back]
      rfl
    have stepped : alarmStep par p v = { v with level := level, counters := counters } := by
      rw [alarmStep_eq, levels, counted]
      rfl
    have back : (r.sensorFault && min 8 (r.goodRun + 1) == 8 && v.mode == .hold .fault) = decide returns := by
      rw [Bool.eq_iff_iff]
      simp only [Bool.and_eq_true, beq_iff_eq, decide_eq_true_eq]
      rfl
    have tell := alarmEval_active present live params p
    rw [stepped] at tell
    refine ⟨fun same => tell.trans (if_pos same), fun changed => ?_, ?_, ?_⟩
    · intro told
      have found : told.ofu.charges.find? (fun c => told.secOf c.oven == k) = charge := by
        simp [told, alarmed, charge, secOf, oven]
      exact (tell.trans (if_neg changed)).trans (congrArg retest (chargeUnderPressure_eq found level))
    · rw [endSection_good rd, returnsToAuto_of_some (sec_goodReading present p) live, back, goodReading_eq present]
    · obtain ⟨t, w, exec, -, gate', sec', trm, -, secs⟩ := controlTick_at low high below
      have rd' : w.reading k = .good p :=
        reading_good (gate'.trans gate) ((assigned_congr trm _).trans assigned) whole (sec'.trans present) atLeast atMost
      have result := secs.trans (sec_endSection_active rd' (sec'.trans present) live params)
      rw [back, stepped] at result
      refine ⟨t, exec, fun isAuto => ?_, fun notAuto => ?_⟩
      · have mode : v.mode = .auto ∨ decide returns = true := isAuto.imp_right decide_eq_true
        rw [controlStep_auto (v := { v with level := level, counters := counters }) rfl mode] at result
        refine result.trans (congrArg some ?_)
        have transfers : (decide returns || v.transfer == some true) = decide (returns ∨ v.transfer = some true) := by
          rw [Bool.eq_iff_iff]
          simp only [Bool.or_eq_true, beq_iff_eq, decide_eq_true_eq]
        exact (congrArg (fun b => autoStep par b _ _ p) transfers).trans (autoStep_eq ..)
      · have away : v.mode ≠ .auto := fun h => notAuto (.inl h)
        have stays : decide returns = false := decide_eq_false fun h => notAuto (.inr h)
        rw [stays, controlStep_still (v := { v with level := level, counters := counters }) rfl away] at result
        exact result
  · intro s k g r gate assigned whole atLeast atMost present inactive p run recovers
    have rd : s.reading k = .good p := reading_good gate assigned whole present atLeast atMost
    refine ⟨(endSection_inactive rd present inactive).trans (by rw [goodReading_eq present]), fun below low high => ?_⟩
    obtain ⟨t, w, exec, -, gate', sec', trm, -, secs⟩ := controlTick_at low high below
    have rd' : w.reading k = .good p :=
      reading_good (gate'.trans gate) ((assigned_congr trm _).trans assigned) whole (sec'.trans present) atLeast atMost
    refine ⟨t, exec, secs.trans ?_⟩
    rw [endSection_inactive rd' (sec'.trans present) inactive, sec_endGate]
    exact sec_reading_recover (sec'.trans present) p
  · intro s k r p present
    refine ⟨fun not => if_neg ?_, fun flag full => if_pos ?_⟩
    · rw [recovered_of_some present]
      simpa using not
    · rw [recovered_of_some present]
      simp [flag, full]

end Sys2Proof.Machine
end

section
/-! SUPPORT. Chapter 7: valve reports, valve tasks, and the timers of the offtake unit. -/

namespace Sys2Proof.Machine

open Sys2Proof State

namespace State

/-! ## Valve reports and completed valve tasks (R129, R135) -/

theorem valveState_of_some {s : State} {n : Nat} {x : ValveRec} (present : nth1 s.ofu.valves n = some x) :
    s.valveState n = some x.state := by
  simp [valveState, present]

/-- The oven table and the valve records as a VALVE report leaves them, before the feed-forward. -/
def valveShown (s : State) (n : Nat) (v : ValveState) : State :=
  { s with
    ofu.valves := upd1 (fun _ => ⟨v, some s.now⟩) n s.ofu.valves
    ofu.heldOffers := s.ofu.heldOffers.filter fun o => !(o.oven == n && ValveAction.target o.action == v) }

theorem valveReport_eq (s : State) (n : Nat) (v : ValveState) :
    s.valveReport n v = if (s.valveState n).getD .unknown = v then s.valveShown n v
      else ((s.valveShown n v).feedForward (s.secOf n) ((s.valveState n).getD .unknown) v).retest := rfl

theorem valveReport_same {s : State} {n : Nat} {x : ValveRec} {v : ValveState}
    (present : nth1 s.ofu.valves n = some x) (same : x.state = v) : s.valveReport n v = s.valveShown n v := by
  rw [valveReport_eq, valveState_of_some present]
  exact if_pos same

theorem valveReport_changed {s : State} {n : Nat} {x : ValveRec} {v : ValveState}
    (present : nth1 s.ofu.valves n = some x) (changed : x.state ≠ v) :
    s.valveReport n v = ((s.valveShown n v).feedForward (s.secOf n) x.state v).retest := by
  rw [valveReport_eq, valveState_of_some present]
  exact if_neg changed

theorem targetReached_iff (s : State) (n : Nat) (a : ValveAction) :
    s.targetReached n a = true ↔ s.valveState n = some (ValveAction.target a) := by
  simp [targetReached]

theorem ccDone_unmatched {s : State} {n : Nat} {a : ValveAction}
    (unlisted : ∀ e ∈ s.ofu.queue, ¬ (e.oven = n ∧ e.action = a)) (r : ValveResult) :
    s.ccDone n a r = s.raise (.taskUnmatched .cc n (.valve a) (.valve r)) := by
  have none : s.ofu.queue.find? (fun e => e.oven == n && e.action == a) = none :=
    List.find?_eq_none.mpr fun e mem => by simpa using unlisted e mem
  simp only [ccDone, none]

theorem ccDone_blocked {s : State} {n : Nat} {a : ValveAction} {e : ValveEntry}
    (listed : s.ofu.queue.find? (fun e => e.oven == n && e.action == a) = some e) :
    s.ccDone n a .blocked = s.valveTimeout e := by
  simp only [ccDone, listed]

theorem ccDone_reached {s : State} {n : Nat} {a : ValveAction} {e : ValveEntry}
    (listed : s.ofu.queue.find? (fun e => e.oven == n && e.action == a) = some e)
    (reached : s.valveState n = some (ValveAction.target a)) :
    s.ccDone n a .done = (s.setValves (s.ofu.queue.filter fun x => x.oven != n)).dispatchValve := by
  simp only [ccDone, listed]
  exact congrArg dispatchValve (if_pos ((targetReached_iff s n a).mpr reached))

theorem ccDone_elsewhere {s : State} {n : Nat} {a : ValveAction} {e : ValveEntry}
    (listed : s.ofu.queue.find? (fun e => e.oven == n && e.action == a) = some e)
    (elsewhere : s.valveState n ≠ some (ValveAction.target a)) :
    s.ccDone n a .done = ((s.setValves (s.ofu.queue.filter fun x => x.oven != n)).raise
      (.valveMismatch n a ((s.valveState n).getD .unknown))).dispatchValve := by
  simp only [ccDone, listed]
  exact congrArg dispatchValve (if_neg (mt (targetReached_iff s n a).mp elsewhere))

theorem valveTimeout_marked {s : State} {e : ValveEntry} (marked : e.timedOut = true) :
    s.valveTimeout e = ((s.setValves (s.ofu.queue.filter fun x => x.oven != e.oven)).raise
      (.taskFailed .cc e.oven (.valve e.action) (some e.enqueued) false)).dispatchValve := if_pos marked

theorem valveTimeout_unmarked {s : State} {e : ValveEntry} (unmarked : e.timedOut = false) :
    s.valveTimeout e = (s.setValves ({ e with service := none, timedOut := true } ::
      s.ofu.queue.filter fun x => x.oven != e.oven)).dispatchValve := if_neg (by simp [unmarked])

end State

/-- Settles O51. -/
theorem valveReportsAndTasks : Obligations.ValveReportsAndTasks := by
  unfold Obligations.ValveReportsAndTasks
  intro s n untested h target
  refine ⟨fun x v outside present known => ?_, fun a r => ?_⟩
  · intro u step
    have ok : h.ovenOk n = true := (h.ovenOk_eq n).trans outside
    have report : exec (.valve .cc n (some v)) s = ends (h.valveReport n v) := by
      have taken : frameEffect (.valve .cc n (some v)) h = h.valveReport n v := by
        refine (if_pos ⟨rfl, ok⟩).trans ?_
        cases v with
        | unknown => exact absurd rfl known
        | opened | closed | aspirating => rfl
      exact (exec_machineFrame rfl untested).trans (congrArg ends taken)
    refine ⟨fun same => ?_, fun changed => ?_⟩
    · exact report.trans (congrArg ends (valveReport_same (s := h) present same))
    · exact report.trans (congrArg ends (valveReport_changed (s := h) present changed))
  · intro rest put
    have taken (r : ValveResult) : exec (.ccTaskDone n a r) s = ends (h.ccDone n a r) :=
      exec_machineFrame (c := .ccTaskDone n a r) rfl untested
    refine ⟨fun unlisted => (taken r).trans (congrArg ends (ccDone_unmatched unlisted r)), fun e listed => ?_⟩
    have here : e.oven = n ∧ e.action = a := by simpa using List.find?_some listed
    have others : (h.ofu.queue.filter fun x => x.oven != e.oven) = rest := by rw [here.1]
    have blocked := (taken .blocked).trans (congrArg ends (ccDone_blocked listed))
    refine ⟨fun reached => ?_, fun elsewhere => ?_, fun unmarked => ?_, fun marked => ?_⟩
    · exact (taken .done).trans (congrArg ends (ccDone_reached listed reached))
    · exact (taken .done).trans (congrArg ends (ccDone_elsewhere listed elsewhere))
    · have back := valveTimeout_unmarked (s := h) unmarked
      rw [others] at back
      exact blocked.trans (congrArg ends back)
    · have back := valveTimeout_marked (s := h) marked
      rw [others, here.1, here.2] at back
      exact blocked.trans (congrArg ends back)

end Sys2Proof.Machine
end

section
/-! SUPPORT. Chapter 7: the timers of the offtake unit, offers of valve work, and the dispatch check of CC. -/

namespace Sys2Proof.Machine

open Sys2Proof State

theorem reached_eq_any (now : Nat) (o : Option Nat) : reached now o = o.any fun t => decide (t ≤ now) := by
  cases o <;> rfl

theorem reached_eq_false {now : Nat} {o : Option Nat} (h : ¬ ∃ t, o = some t ∧ t ≤ now) : reached now o = false :=
  Bool.eq_false_iff.mpr (mt (reached_iff now o).mp h)

namespace State

/-- A machine at an oven that a test picks. -/
theorem positionOven_test (s : State) (m : MachineId) (f : Nat → Bool) :
    ((s.positionOven m).map f).getD false = true ↔ ∃ n side, (s.machine m).position = some (.oven n side) ∧ f n = true := by
  unfold positionOven
  split
  · rename_i n side at0
    simp [at0]
  · rename_i away
    refine ⟨fun h => absurd h (by simp), fun ⟨n, side, at0, _⟩ => absurd at0 (away n side)⟩

/-! ## The dispatch check of CC (R134) -/

/-- CC can be given valve work (R134). -/
def FreeForValves (s : State) : Prop :=
  s.inRun = true ∧ s.hold = false ∧ s.online .cc = true ∧ (s.machine .cc).mode = some .auto
    ∧ s.permit .cc = none ∧ (∀ c ∈ s.ofu.charges, ∀ side, (s.machine .cc).position ≠ some (.oven c.oven side))
    ∧ (∀ e ∈ s.ofu.queue, e.service = none)

theorem valveIdle_iff (s : State) : s.valveIdle = true ↔ s.FreeForValves := by
  have away : ((s.positionOven .cc).map s.chargeAt).getD false = false
      ↔ ∀ c ∈ s.ofu.charges, ∀ side, (s.machine .cc).position ≠ some (.oven c.oven side) := by
    rw [← Bool.not_eq_true, s.positionOven_test]
    simp only [chargeAt, List.any_eq_true, beq_iff_eq]
    exact ⟨fun h c mem side at0 => h ⟨c.oven, side, at0, c, mem, rfl⟩,
      fun h ⟨n, side, at0, c, mem, same⟩ => h c mem side (same ▸ at0)⟩
  have resting : (s.ofu.queue.any fun e => e.service.isSome) = false ↔ ∀ e ∈ s.ofu.queue, e.service = none := by
    simp
  simp only [valveIdle, FreeForValves, Bool.and_eq_true, Bool.not_eq_true', away, resting, beq_iff_eq,
    Option.isNone_iff_eq_none, and_assoc]

theorem dispatchValve_busy {s : State} (busy : ¬ s.FreeForValves) : s.dispatchValve = s :=
  if_neg (mt s.valveIdle_iff.mp busy)

theorem dispatchValve_empty {s : State} (empty : s.ofu.queue = []) : s.dispatchValve = s := by
  unfold dispatchValve
  rw [empty]
  exact ite_self s

theorem dispatchValve_serves {s : State} {e : ValveEntry} {rest : List ValveEntry} (queue : s.ofu.queue = e :: rest)
    (free : s.FreeForValves) : s.dispatchValve =
      ({ s with ofu.queue := { e with service := some (timeAdd s.now s.dru.vals.tTask) } :: rest }).send .cc
        (.orderValve e.action e.oven) := by
  unfold dispatchValve
  rw [if_pos (s.valveIdle_iff.mpr free), queue]

/-! ## Offers of valve work (R131, R132) -/

theorem offerValve_reached {s : State} {n : Nat} {a : ValveAction}
    (reached : s.valveState n = some (ValveAction.target a)) :
    s.offerValve n a = (s.clearValveWork n).dispatchValve :=
  congrArg dispatchValve (if_pos ((targetReached_iff s n a).mpr reached))

theorem clearValveWork_none {s : State} {n : Nat} (unlisted : s.valveEntry n = none) :
    s.clearValveWork n = { s with ofu.heldOffers := s.ofu.heldOffers.filter fun h => h.oven != n } := by
  simp only [clearValveWork, unlisted]

theorem clearValveWork_some {s : State} {n : Nat} {e : ValveEntry} (listed : s.valveEntry n = some e) :
    s.clearValveWork n = ({ s with
      ofu.queue := s.ofu.queue.filter fun x => x.oven != n
      ofu.heldOffers := s.ofu.heldOffers.filter fun h => h.oven != n } : State).withdrawNotice e := by
  simp only [clearValveWork, listed]

/-- Without an entry of the oven the filter by it changes nothing. -/
theorem filter_of_valveEntry_none {s : State} {n : Nat} (unlisted : s.valveEntry n = none) :
    (s.ofu.queue.filter fun x => x.oven != n) = s.ofu.queue :=
  List.filter_eq_self.mpr fun e mem => by simpa using List.find?_eq_none.mp unlisted e mem

theorem oven_of_valveEntry {s : State} {n : Nat} {e : ValveEntry} (listed : s.valveEntry n = some e) : e.oven = n := by
  simpa using List.find?_some listed

theorem withdrawNotice_eq (s : State) (e : ValveEntry) :
    s.withdrawNotice e = if e.service = none then s else s.raise (.taskWithdrawn .cc e.oven (.valve e.action) false) := by
  unfold withdrawNotice
  cases e.service <;> rfl

theorem decideOffer_listed {s : State} {n : Nat} {a : ValveAction} {e : ValveEntry}
    (away : s.valveState n ≠ some (ValveAction.target a)) (listed : s.valveEntry n = some e) :
    s.decideOffer n a = if e.action = a then s else s.replaceAction e a := by
  unfold decideOffer
  rw [if_neg (mt (targetReached_iff s n a).mp away), listed]

theorem decideOffer_unlisted {s : State} {n : Nat} {a : ValveAction}
    (away : s.valveState n ≠ some (ValveAction.target a)) (unlisted : s.valveEntry n = none) :
    s.decideOffer n a =
      if (s.ofu.heldOffers.any fun h => h.oven == n) = true then
        { s with ofu.heldOffers := s.ofu.heldOffers.map fun h => if h.oven = n then ⟨n, a⟩ else h }
      else if s.ofu.queue.length < 8 then s.setValves (s.ofu.queue ++ [⟨n, a, s.now, false, none⟩])
      else s.holdBack n a := by
  unfold decideOffer
  rw [if_neg (mt (targetReached_iff s n a).mp away), unlisted]

theorem replaceAction_eq {s : State} {n : Nat} {e : ValveEntry} (listed : s.valveEntry n = some e) (a : ValveAction) :
    s.replaceAction e a = (s.setValves (s.ofu.queue.map fun x =>
      if x.oven = n then ⟨n, a, s.now, false, none⟩ else x)).withdrawNotice e := by
  have same : (s.ofu.queue.map fun x => if x.oven = e.oven then (⟨x.oven, a, s.now, false, none⟩ : ValveEntry) else x)
      = s.ofu.queue.map fun x => if x.oven = n then ⟨n, a, s.now, false, none⟩ else x := by
    refine List.map_congr_left fun x _ => ?_
    rw [oven_of_valveEntry listed]
    split
    · rename_i same
      rw [same]
    · rfl
  unfold replaceAction
  rw [same]

theorem holdBack_eq (s : State) (n : Nat) (a : ValveAction) :
    s.holdBack n a = { (if s.ofu.heldOffers = [] then s.raise (.valveQueueFull n a) else s) with
      ofu.heldOffers := s.ofu.heldOffers ++ [⟨n, a⟩] } := by
  unfold holdBack
  cases held : s.ofu.heldOffers with
  | nil => simp [held]
  | cons h l => simp [held]

theorem stillFull_iff (s : State) (n : Nat) (a : ValveAction) :
    s.stillFull ⟨n, a⟩ = true
      ↔ s.valveState n ≠ some (ValveAction.target a) ∧ s.valveEntry n = none ∧ 8 ≤ s.ofu.queue.length := by
  simp only [stillFull, Bool.and_eq_true, Bool.not_eq_true', Option.isNone_iff_eq_none, decide_eq_true_eq, and_assoc,
    ← targetReached_iff, ne_eq, Bool.not_eq_true]

/-! ## The isolate timer (R133) -/

theorem setIsolate_eq (s : State) (n t : Nat) :
    s.setIsolate n t = if t ≤ s.now then ({ s with ofu.iso := none } : State).offerValve n .isolate
      else { s with ofu.iso := some ⟨n, t⟩ } := rfl

/-- The oven is isolated, or is to be: NORMAL is due as it stops being the next oven (R133). -/
def ReturnsToNormal (s : State) (n : Nat) : Prop :=
  (s.ovenState n = some .coking ∨ s.ovenState n = some .ready)
    ∧ (s.valveState n = some .closed ∨ (∃ e ∈ s.ofu.queue, e.oven = n ∧ e.action = .isolate)
      ∨ ∃ h ∈ s.ofu.heldOffers, h.oven = n ∧ h.action = .isolate)

theorem normalCheck_due {s : State} {n : Nat} (due : s.ReturnsToNormal n) :
    s.normalCheck n = s.offerValve n .normal :=
  if_pos (by simpa [ReturnsToNormal, ovenIs, or_assoc] using due)

theorem normalCheck_none {s : State} {n : Nat} (none : ¬ s.ReturnsToNormal n) : s.normalCheck n = s :=
  if_neg (by simpa [ReturnsToNormal, ovenIs, or_assoc] using none)

theorem nextForValves_same {s : State} {old new : Option (Nat × Nat)} (same : old.map Prod.fst = new.map Prod.fst) :
    s.nextForValves old new = match (generalizing := false) new, s.ofu.iso with
      | some (n, due), some _ => s.setIsolate n (due - s.cfg.timing.lIso)
      | _, _ => s :=
  if_pos same

theorem nextForValves_changed {s : State} {old new : Option (Nat × Nat)} (changed : old.map Prod.fst ≠ new.map Prod.fst) :
    s.nextForValves old new =
      let u := (old.map fun n => s.normalCheck n.1).getD s
      match (generalizing := false) new with
      | some (n, due) => u.setIsolate n (due - u.cfg.timing.lIso)
      | none => { u with ofu.iso := none } := by
  unfold nextForValves
  rw [if_neg changed]
  cases old <;> rfl

/-- The NORMAL check leaves the time and the configuration. -/
theorem normalCheck_keeps (s : State) (n : Nat) : (s.normalCheck n).tb = s.tb ∧ (s.normalCheck n).cfg = s.cfg := by
  by_cases due : s.ReturnsToNormal n
  · simp [normalCheck_due due]
  · simp [normalCheck_none due]

end State

/-- Settles O52. -/
theorem offtakeTimers : Obligations.OfftakeTimers := by
  unfold Obligations.OfftakeTimers
  refine ⟨?_, ?_, ?_, ?_⟩
  · intro s n due expired charge
    have sought : (s.ofu.queue.find? fun e => reached s.now e.service) = expired := by
      simp only [reached_eq_any]
      rfl
    refine ⟨fun i iso passed => ?_, fun ahead => ?_, fun e found => ?_, fun none => ?_, fun c found passed => ?_,
      fun ahead => ?_⟩
    · have expire : s.isolateExpire = ({ s with ofu.iso := none } : State).offerValve i.oven .isolate := by
        simp only [isolateExpire, iso, passed, if_true]
      exact congrArg ends expire
    · have expire : s.isolateExpire = s := by
        unfold isolateExpire
        cases iso : s.ofu.iso with
        | none => rfl
        | some i => exact if_neg (Nat.not_le.mpr (ahead i iso))
      exact congrArg ends expire
    · have expire : s.valveTimerExpire = s.valveTimeout e := by simp only [valveTimerExpire, sought, found]
      intro rest
      cases marked : e.timedOut with
      | true => exact congrArg ends (expire.trans (valveTimeout_marked marked))
      | false => exact congrArg ends (expire.trans (valveTimeout_unmarked marked))
    · have expire : s.valveTimerExpire = s := by simp only [valveTimerExpire, sought, none]
      exact congrArg ends expire
    · intro late
      have expire : s.chargeTimerExpire n = ({ s with ofu.charges := late } : State).raise
          (.chargeLate n (s.secOf n) c.start) := by
        unfold chargeTimerExpire
        rw [show (s.ofu.charges.find? fun c => c.oven == n) = some c from found]
        exact if_pos ((reached_iff _ _).mpr passed)
      exact congrArg ends expire
    · have expire : s.chargeTimerExpire n = s := by
        unfold chargeTimerExpire
        cases found : s.ofu.charges.find? (fun c => c.oven == n) with
        | none => rfl
        | some c => exact if_neg (mt (reached_iff _ _).mp (ahead c found))
      exact congrArg ends expire
  · intro s n a target entry withdrawn held run put
    have notice (u : State) (e : ValveEntry) : u.withdrawNotice e = withdrawn u e := u.withdrawNotice_eq e
    refine ⟨fun reached => ?_, fun away => ⟨fun e listed => ⟨fun same => ?_, fun other => ?_⟩, fun unlisted =>
      ⟨fun holds => ?_, fun free space => ?_, fun free full => ?_⟩⟩, rfl, fun rest => ?_⟩
    · intro u
      have offer := offerValve_reached (s := s) (n := n) (a := a) reached
      refine ⟨fun unlisted => ?_, fun e listed => ?_⟩
      · rw [clearValveWork_none unlisted] at offer
        refine offer.trans (congrArg (fun q => (put q _).dispatchValve) ?_)
        exact (filter_of_valveEntry_none unlisted).symm
      · rw [clearValveWork_some listed, notice] at offer
        exact offer
    · exact congrArg dispatchValve ((decideOffer_listed away listed).trans (if_pos same))
    · have decided := (decideOffer_listed away listed).trans (if_neg other)
      rw [replaceAction_eq listed, notice] at decided
      exact congrArg dispatchValve decided
    · exact congrArg dispatchValve ((decideOffer_unlisted away unlisted).trans (if_pos holds))
    · exact congrArg dispatchValve ((decideOffer_unlisted away unlisted).trans
        ((if_neg (Bool.eq_false_iff.mp free)).trans (if_pos space)))
    · intro told
      exact congrArg dispatchValve ((decideOffer_unlisted away unlisted).trans
        ((if_neg (Bool.eq_false_iff.mp free)).trans ((if_neg (Nat.not_lt.mpr full)).trans (holdBack_eq s n a))))
    · rw [retryHeld]
      exact if_congr (stillFull_iff s n a) rfl rfl
  · intro s old new timed isolated returns
    refine ⟨fun same => nextForValves_same same, fun changed u choose => ?_⟩
    have checked : (old.map fun n => s.normalCheck n.1).getD s = u := by
      obtain ⟨goes, stays⟩ := choose
      cases old with
      | none => exact (stays fun n due absent => absurd absent (by simp)).symm
      | some o =>
        by_cases due : s.ReturnsToNormal o.1
        · exact (normalCheck_due due).trans (goes o.1 o.2 rfl due).symm
        · refine (normalCheck_none due).trans (stays fun n t same => ?_).symm
          obtain rfl := Option.some.inj same
          exact due
    have kept : u.tb = s.tb ∧ u.cfg = s.cfg := by
      rw [← checked]
      cases old with
      | none => exact ⟨rfl, rfl⟩
      | some o => exact s.normalCheck_keeps o.1
    have next := nextForValves_changed (s := s) changed
    rw [checked] at next
    refine next.trans ?_
    cases new with
    | none => rfl
    | some o =>
      have lead : o.2 - u.cfg.timing.lIso = o.2 - s.cfg.timing.lIso := by rw [kept.2]
      have time : u.now = s.now := by rw [now, kept.1]; rfl
      exact (congrArg (u.setIsolate o.1) lead).trans (if_congr (by rw [time]) rfl rfl)
  · intro s idle
    exact ⟨dispatchValve_busy, dispatchValve_empty, fun e rest queue free => dispatchValve_serves queue free⟩

end Sys2Proof.Machine
end

section
/-! SUPPORT. Chapter 5: offers to a task queue, the dispatch check of a side, and the timers of the door unit. -/

namespace Sys2Proof.Machine

open Sys2Proof State

/-! ## Queues -/

theorem any_is_iff (q : List TaskEntry) (n : Nat) (k : TaskKind) :
    (q.any fun e => e.is n k) = true ↔ ∃ e ∈ q, e.oven = n ∧ e.kind = k := by
  simp [TaskEntry.is]

/-- In a queue in class order an entry joins after those of its class and the classes before it. -/
theorem joinLast_eq {e : TaskEntry} {l : List TaskEntry}
    (sorted : l.Pairwise fun a b => TaskKind.rank a.kind ≤ TaskKind.rank b.kind) :
    joinLast e l = (l.filter fun a => decide (TaskKind.rank a.kind ≤ TaskKind.rank e.kind))
      ++ e :: l.filter fun a => decide (TaskKind.rank e.kind < TaskKind.rank a.kind) := by
  induction l with
  | nil => rfl
  | cons a l ih =>
    obtain ⟨least, tail⟩ := List.pairwise_cons.mp sorted
    by_cases before : TaskKind.rank e.kind < TaskKind.rank a.kind
    · have later (b : TaskEntry) (mem : b ∈ a :: l) : TaskKind.rank e.kind < TaskKind.rank b.kind := by
        rcases List.mem_cons.mp mem with rfl | mem
        · exact before
        · exact Nat.lt_of_lt_of_le before (least b mem)
      have kept : ((a :: l).filter fun b => decide (TaskKind.rank e.kind < TaskKind.rank b.kind)) = a :: l :=
        List.filter_eq_self.mpr fun b mem => decide_eq_true (later b mem)
      have cut : ((a :: l).filter fun b => decide (TaskKind.rank b.kind ≤ TaskKind.rank e.kind)) = [] :=
        List.filter_eq_nil_iff.mpr fun b mem => by simpa using later b mem
      rw [kept, cut, joinLast, if_pos before]
      rfl
    · have first : TaskKind.rank a.kind ≤ TaskKind.rank e.kind := Nat.not_lt.mp before
      rw [joinLast, if_neg before, ih tail]
      simp [first, Nat.not_lt.mpr first]

theorem serveFirst_some {ok : TaskEntry → Bool} {t : Nat} {l : List TaskEntry} {i : Nat} {e : TaskEntry}
    (at0 : l[i]? = some e) (serves : ok e = true) (before : ∀ j x, j < i → l[j]? = some x → ok x = false) :
    serveFirst ok t l = some (e, l.set i { e with service := some t }) := by
  induction l generalizing i with
  | nil => simp at at0
  | cons a l ih =>
    cases i with
    | zero =>
      obtain rfl : a = e := by simpa using at0
      rw [serveFirst, if_pos serves]
      rfl
    | succ i =>
      have passed : ok a = false := before 0 a (Nat.succ_pos i) rfl
      have tail := ih (i := i) (by simpa using at0) fun j x lt at1 => before (j + 1) x (by omega) (by simpa using at1)
      rw [serveFirst, if_neg (by simp [passed]), tail]
      rfl

theorem serveFirst_none {ok : TaskEntry → Bool} {t : Nat} {l : List TaskEntry} (passed : ∀ e ∈ l, ok e = false) :
    serveFirst ok t l = none := by
  induction l with
  | nil => rfl
  | cons a l ih =>
    rw [serveFirst, if_neg (by simp [passed a List.mem_cons_self]),
      ih fun e mem => passed e (List.mem_cons_of_mem a mem)]
    rfl

theorem find?_of_first {α : Type} {p : α → Bool} {l : List α} {i : Nat} {a : α} (at0 : l[i]? = some a)
    (picked : p a = true) (before : ∀ j x, j < i → l[j]? = some x → p x = false) : l.find? p = some a := by
  obtain ⟨lt, same⟩ := List.getElem?_eq_some_iff.mp at0
  refine List.find?_eq_some_iff_getElem.mpr ⟨picked, i, lt, same, fun j hj => ?_⟩
  simpa using before j l[j] hj (List.getElem?_eq_getElem (by omega))

namespace State

/-! ## Offers (R94, R95) -/

section
variable {s : State} {d : Side} {n : Nat} {k : TaskKind}

/-- The queue of a side has an entry of the oven and kind. -/
def HasTask (s : State) (d : Side) (n : Nat) (k : TaskKind) : Prop := ∃ e ∈ s.queue d, e.oven = n ∧ e.kind = k

theorem offerTask_twice (has : s.HasTask d n k) : s.offerTask d n k = s :=
  if_pos ((any_is_iff _ _ _).mpr has)

theorem offerTask_beside (new : ¬ s.HasTask d n k) (inspect : k = .inspect) (reseal : s.HasTask d n .reseal) :
    s.offerTask d n k = s :=
  (if_neg (mt (any_is_iff _ _ _).mp new)).trans (if_pos ⟨inspect, (any_is_iff _ _ _).mpr reseal⟩)

theorem waiting_inspect_iff (s : State) (d : Side) (n : Nat) :
    ((s.queue d).any fun e => e.is n .inspect && e.waits) = true
      ↔ ∃ e ∈ s.queue d, e.oven = n ∧ e.kind = .inspect ∧ e.service = none := by
  simp [TaskEntry.is, TaskEntry.waits, and_assoc]

theorem offerTask_instead (new : ¬ s.HasTask d n k) (reseal : k = .reseal)
    (inspect : ∃ e ∈ s.queue d, e.oven = n ∧ e.kind = .inspect ∧ e.service = none) :
    s.offerTask d n k = s.joinTask d n k (s.without d n .inspect) :=
  (if_neg (mt (any_is_iff _ _ _).mp new)).trans <| (if_neg fun h => by simp [reseal] at h).trans <|
    if_pos ⟨reseal, (waiting_inspect_iff s d n).mpr inspect⟩

/-- An offer that neither repeats work nor replaces it. -/
theorem offerTask_new (new : ¬ s.HasTask d n k) (alone : k = .inspect → ¬ s.HasTask d n .reseal)
    (stays : k = .reseal → ∀ e ∈ s.queue d, e.oven = n → ¬ (e.kind = .inspect ∧ e.service = none)) :
    s.offerTask d n k = if (s.queue d).length < 16 then s.joinTask d n k (s.queue d) else s.offerFull d n k :=
  (if_neg (mt (any_is_iff _ _ _).mp new)).trans <|
    (if_neg fun h => alone h.1 ((any_is_iff _ _ _).mp h.2)).trans <|
    if_neg fun h =>
      have ⟨e, mem, here, waits⟩ := (waiting_inspect_iff s d n).mp h.2
      stays h.1 e mem here waits

theorem offerFull_inspect (s : State) (d : Side) (n : Nat) : s.offerFull d n .inspect = s.raise (.inspectDropped n d) :=
  rfl

theorem offerFull_evicts (other : k ≠ .inspect) {e : TaskEntry} (newest : newestInspect (s.queue d) = some e) :
    s.offerFull d n k = (s.joinTask d n k (s.without d e.oven .inspect)).raise (.inspectDropped e.oven d) := by
  cases k with
  | inspect => exact absurd rfl other
  | reseal | clean => simp only [offerFull, newest]

theorem newestInspect_none (seated : ∀ e ∈ s.queue d, ¬ (e.kind = .inspect ∧ e.service = none)) :
    newestInspect (s.queue d) = none :=
  List.find?_eq_none.mpr fun e mem => by
    simpa [TaskEntry.waits] using seated e (List.mem_reverse.mp mem)

theorem offerFull_clean (none : newestInspect (s.queue d) = none) : s.offerFull d n .clean = s := by
  simp only [offerFull, none]
  rfl

theorem offerFull_reseal (none : newestInspect (s.queue d) = none) : s.offerFull d n .reseal = s.setPending n d := by
  simp only [offerFull, none]
  rfl

end

/-! ## The dispatch check of a side (R97, R103) -/

/-- The machine of a side can be given door work (R97). -/
def FreeForDoors (s : State) (d : Side) : Prop :=
  s.inRun = true ∧ s.hold = false ∧ s.online (Side.machine d) = true ∧ (s.machine (Side.machine d)).mode = some .auto
    ∧ s.permit (Side.machine d) = none
    ∧ (∀ p side, s.ilk.push = some p → (s.machine (Side.machine d)).position ≠ some (.oven p.oven side))
    ∧ (∀ e ∈ s.queue d, e.service = none) ∧ (s.round d).visit = none

theorem pushAt_iff (s : State) (n : Nat) : s.pushAt n = true ↔ ∃ p, s.ilk.push = some p ∧ p.oven = n := by
  unfold pushAt
  cases s.ilk.push <;> simp

theorem doorIdle_iff (s : State) (d : Side) : s.doorIdle d = true ↔ s.FreeForDoors d := by
  have away : ((s.positionOven (Side.machine d)).map s.pushAt).getD false = false
      ↔ ∀ p side, s.ilk.push = some p → (s.machine (Side.machine d)).position ≠ some (.oven p.oven side) := by
    rw [← Bool.not_eq_true, s.positionOven_test]
    simp only [pushAt_iff]
    exact ⟨fun h p side push at0 => h ⟨p.oven, side, at0, p, push, rfl⟩,
      fun h ⟨n, side, at0, p, push, same⟩ => h p side push (same ▸ at0)⟩
  have resting : ((s.queue d).any fun e => e.service.isSome) = false ↔ ∀ e ∈ s.queue d, e.service = none := by
    simp
  simp only [doorIdle, FreeForDoors, Bool.and_eq_true, Bool.not_eq_true', away, resting, beq_iff_eq,
    Option.isNone_iff_eq_none, and_assoc]

theorem dispatchDoor_busy {s : State} {d : Side} (busy : ¬ s.FreeForDoors d) : s.dispatchDoor d = s :=
  if_neg (mt (s.doorIdle_iff d).mp busy)

theorem not_shut_iff (s : State) (n : Nat) (d : Side) :
    (!(s.doorState n d == some DoorState.off)) = true ↔ s.doorState n d ≠ some .off := by simp

theorem dispatchDoor_serves {s : State} {d : Side} (free : s.FreeForDoors d) {i : Nat} {e : TaskEntry}
    (at0 : (s.queue d)[i]? = some e) (served : s.doorState e.oven d ≠ some .off)
    (before : ∀ (j : Nat) (x : TaskEntry), j < i → (s.queue d)[j]? = some x → s.doorState x.oven d = some .off) :
    s.dispatchDoor d = (s.setQueue d ((s.queue d).set i { e with service := some (timeAdd s.now s.dru.vals.tTask) })).send
      (Side.machine d) (.orderTask e.kind e.oven d false) := by
  unfold dispatchDoor
  rw [if_pos ((s.doorIdle_iff d).mpr free), serveFirst_some at0 (by simpa using served) fun j x lt at1 => by
    simp [before j x lt at1]]

theorem dispatchDoor_visits {s : State} {d : Side} (free : s.FreeForDoors d)
    (shut : ∀ e ∈ s.queue d, s.doorState e.oven d = some .off) : s.dispatchDoor d = s.roundVisitCheck d := by
  unfold dispatchDoor
  rw [if_pos ((s.doorIdle_iff d).mpr free), serveFirst_none fun e mem => by simp [shut e mem]]

theorem visitable_iff (s : State) (d : Side) (n : Nat) : s.visitable d n = true
    ↔ ¬ (s.ovenState n = some .out ∨ s.ovenState n = some .pushing ∨ s.doorState n d = some .off) := by
  simp [visitable, ovenIs, not_or, and_assoc]

theorem roundVisitCheck_low {s : State} {d : Side} (low : (s.round d).debt ≤ -8) : s.roundVisitCheck d = s := if_pos low

theorem roundVisitCheck_some {s : State} {d : Side} (above : -8 < (s.round d).debt) {n : Nat}
    (found : (pointerOrder (s.round d).pointer s.nOv).find? (s.visitable d) = some n) :
    s.roundVisitCheck d = (s.updRound d fun r =>
      { r with pointer := n, visit := some ⟨n, timeAdd s.now s.dru.vals.tTask⟩ }).send
      (Side.machine d) (.orderTask .inspect n d true) := by
  unfold roundVisitCheck
  rw [if_neg (Int.not_le.mpr above), found]

theorem roundVisitCheck_none {s : State} {d : Side}
    (none : (pointerOrder (s.round d).pointer s.nOv).find? (s.visitable d) = none) : s.roundVisitCheck d = s := by
  unfold roundVisitCheck
  rw [none]
  exact ite_self s

end State

/-- Settles O45. -/
theorem offersToAFullQueue : Obligations.OffersToAFullQueue := by
  unfold Obligations.OffersToAFullQueue
  refine ⟨?_, fun e l sorted => joinLast_eq sorted, ?_⟩
  · intro s d n k q has waits entry joined u
    refine ⟨fun twice => offerTask_twice twice, fun new inspect reseal => offerTask_beside new inspect reseal,
      fun new reseal inspect => offerTask_instead new reseal inspect, fun new alone stays => ?_⟩
    have offer := offerTask_new (s := s) new alone stays
    refine ⟨fun space => offer.trans (if_pos space), fun full inspect => ?_, fun full other e newest => ?_,
      fun full none => ⟨fun clean => ?_, fun reseal => ?_⟩⟩
    all_goals have offer := offer.trans (if_neg (Nat.not_lt.mpr full))
    · subst inspect
      exact offer
    · exact offer.trans (offerFull_evicts other newest)
    · subst clean
      exact offer.trans (offerFull_clean (newestInspect_none none))
    · subst reseal
      exact offer.trans (offerFull_reseal (newestInspect_none none))
  · intro s d m idle shut order passed timer
    have machine : m = Side.machine d := by cases d <;> rfl
    have free : idle ↔ s.FreeForDoors d := by
      simp only [idle, machine]
      rfl
    refine ⟨fun busy => dispatchDoor_busy (mt free.mpr busy), fun rests i e at0 served before => ?_,
      fun rests all => ?_⟩
    · rw [machine]
      exact dispatchDoor_serves (free.mp rests) at0 served before
    · have visits := dispatchDoor_visits (free.mp rests) all
      have passing (x : Nat) (h : passed x) : s.visitable d x = false :=
        Bool.eq_false_iff.mpr fun v => (s.visitable_iff d x).mp v h
      refine ⟨fun low => visits.trans (roundVisitCheck_low low), fun above i n at0 stops before => ?_, fun all => ?_⟩
      · rw [machine]
        exact visits.trans (roundVisitCheck_some above (find?_of_first at0 ((s.visitable_iff d n).mpr stops)
          fun j x lt at1 => passing x (before j x lt at1)))
      · exact visits.trans (roundVisitCheck_none (List.find?_eq_none.mpr fun x mem => by simp [passing x (all x mem)]))

namespace State

/-! ## The timers of the door unit -/

theorem offerChecked_run {s : State} (run : s.inRun = true) (d : Side) (n : Nat) (k : TaskKind) :
    s.offerChecked d n k = if (s.offerTask d n k).queue d = s.queue d then s.offerTask d n k
      else (s.offerTask d n k).dispatchDoor d := by
  simp only [offerChecked, offerInRun, run, if_true]

theorem confirmTimerExpire_due {s : State} {n : Nat} {d : Side} {r : DoorRec} (run : s.inRun = true)
    (present : s.door n d = some r) (due : ∃ t, r.confirm = some t ∧ t ≤ s.now) :
    s.confirmTimerExpire n d = s.confirmExpire n d := by
  simp [confirmTimerExpire, present, run, (reached_iff _ _).mpr due]

theorem confirmTimerExpire_idle {s : State} {n : Nat} {d : Side}
    (idle : ¬ (s.inRun = true ∧ ∃ r, s.door n d = some r ∧ ∃ t, r.confirm = some t ∧ t ≤ s.now)) :
    s.confirmTimerExpire n d = s := by
  unfold confirmTimerExpire
  cases present : s.door n d with
  | none => rfl
  | some r =>
    refine if_neg fun h => idle ?_
    obtain ⟨run, due⟩ := Bool.and_eq_true_iff.mp h
    exact ⟨run, r, present, (reached_iff _ _).mp due⟩

theorem taskTimeout_marked {s : State} {d : Side} {e : TaskEntry} (marked : e.timedOut = true) :
    s.taskTimeout d e = (((s.setQueue d (s.without d e.oven e.kind)).raise
      (.taskFailed (.side d) e.oven (.door e.kind) (some e.enqueued) false)).pendingRelease d).dispatchDoor d :=
  if_pos marked

theorem taskTimeout_unmarked {s : State} {d : Side} {e : TaskEntry} (unmarked : e.timedOut = false) :
    s.taskTimeout d e = (s.setQueue d (joinHead { e with service := none, timedOut := true }
      (s.without d e.oven e.kind))).dispatchDoor d :=
  if_neg (by simp [unmarked])

end State

/-- Settles O47. -/
theorem doorUnitTimers : Obligations.DoorUnitTimers := by
  unfold Obligations.DoorUnitTimers
  intro s d n due confirms expired accrues zeroed
  have sought : ((s.queue d).find? fun e => reached s.now e.service) = expired := by
    simp only [reached_eq_any]
    rfl
  refine ⟨fun ⟨run, r, present, passed⟩ => ?_, fun idle => ?_, fun e found => ?_, fun none => ?_, fun v visit passed => ?_,
    fun ahead => ?_, fun ⟨run, full⟩ => ?_, fun idle => ?_⟩
  · intro u
    have offer := offerChecked_run (s := s.updDoor n d fun r => { r with confirm := none }) run d n .inspect
    exact congrArg ends ((confirmTimerExpire_due run present passed).trans offer)
  · exact congrArg ends (confirmTimerExpire_idle idle)
  · have expire : s.taskTimerExpire d = s.taskTimeout d e := by simp only [taskTimerExpire, sought, found]
    intro others
    cases marked : e.timedOut with
    | true => exact congrArg ends (expire.trans (taskTimeout_marked marked))
    | false => exact congrArg ends (expire.trans (taskTimeout_unmarked marked))
  · have expire : s.taskTimerExpire d = s := by simp only [taskTimerExpire, sought, none]
    exact congrArg ends expire
  · have expire : s.visitTimerExpire d = s.visitTimeout d v := by
      simp only [visitTimerExpire, visit, passed, if_true]
    exact congrArg ends expire
  · have expire : s.visitTimerExpire d = s := by
      unfold visitTimerExpire
      cases visit : (s.round d).visit with
      | none => rfl
      | some v => exact if_neg (Nat.not_le.mpr (ahead v visit))
    exact congrArg ends expire
  · have rises : doInspectionAccrual d s = s.accrue d := if_pos (by simp [run, full])
    exact congrArg ends rises
  · have stays : doInspectionAccrual d s = s := if_neg fun h => idle (by simpa using h)
    exact congrArg ends stays

end Sys2Proof.Machine
end

section
/-! SUPPORT. Chapter 5: what the re-test and the offers leave of the queues and the doors, and leaks. -/

namespace Sys2Proof.Machine

open Sys2Proof State

/-! ## Queues that have been served -/

/-- `r` is the queue `q` with entries, if any, put into service. -/
structure Served (q r : List TaskEntry) : Prop where
  stays : ∀ e ∈ q, ∃ x ∈ r, x.oven = e.oven ∧ x.kind = e.kind
  stood : ∀ x ∈ r, ∃ e ∈ q, x.oven = e.oven ∧ x.kind = e.kind ∧ (e.service.isSome = true → x.service.isSome = true)

namespace Served

theorem refl (q : List TaskEntry) : Served q q :=
  ⟨fun e mem => ⟨e, mem, rfl, rfl⟩, fun e mem => ⟨e, mem, rfl, rfl, id⟩⟩

theorem trans {p q r : List TaskEntry} (first : Served p q) (second : Served q r) : Served p r := by
  constructor
  · intro e mem
    obtain ⟨x, mem, oven1, kind1⟩ := first.stays e mem
    obtain ⟨y, mem, oven2, kind2⟩ := second.stays x mem
    exact ⟨y, mem, oven2.trans oven1, kind2.trans kind1⟩
  · intro y mem
    obtain ⟨x, mem, oven2, kind2, serves2⟩ := second.stood y mem
    obtain ⟨e, mem, oven1, kind1, serves1⟩ := first.stood x mem
    exact ⟨e, mem, oven2.trans oven1, kind2.trans kind1, serves2 ∘ serves1⟩

theorem cons {q r : List TaskEntry} {e x : TaskEntry} (oven : x.oven = e.oven) (kind : x.kind = e.kind)
    (serves : e.service.isSome = true → x.service.isSome = true) (tail : Served q r) : Served (e :: q) (x :: r) := by
  constructor
  · intro a mem
    rcases List.mem_cons.mp mem with rfl | mem
    · exact ⟨x, List.mem_cons_self, oven, kind⟩
    · obtain ⟨y, mem, same⟩ := tail.stays a mem
      exact ⟨y, List.mem_cons_of_mem x mem, same⟩
  · intro y mem
    rcases List.mem_cons.mp mem with rfl | mem
    · exact ⟨e, List.mem_cons_self, oven, kind, serves⟩
    · obtain ⟨a, mem, same⟩ := tail.stood y mem
      exact ⟨a, List.mem_cons_of_mem e mem, same⟩

theorem serveFirst {ok : TaskEntry → Bool} {t : Nat} {q r : List TaskEntry} {e : TaskEntry}
    (h : Machine.serveFirst ok t q = some (e, r)) : Served q r := by
  induction q generalizing r with
  | nil => simp [Machine.serveFirst] at h
  | cons a l ih =>
    rw [Machine.serveFirst] at h
    split at h
    · obtain ⟨-, rfl⟩ := Prod.mk.inj (Option.some.inj h)
      exact (refl l).cons rfl rfl fun _ => rfl
    · obtain ⟨⟨x, rest⟩, tail, same⟩ := Option.map_eq_some_iff.mp h
      obtain ⟨rfl, rfl⟩ := Prod.mk.inj same
      exact (ih tail).cons rfl rfl id

end Served

namespace State

theorem queue_congr {s t : State} (h : t.dru.queues = s.dru.queues) (d : Side) : t.queue d = s.queue d := by
  simp only [queue, h]

@[simp] theorem queue_setQueue (s : State) (d e : Side) (q : List TaskEntry) :
    (s.setQueue d q).queue e = if d = e then q else s.queue e := by simp [queue]

@[simp] theorem queue_updDoor (s : State) (n : Nat) (d e : Side) (f : DoorRec → DoorRec) :
    (s.updDoor n d f).queue e = s.queue e := rfl

@[simp] theorem queue_raise (s : State) (b : NoticeBody) (e : Side) : (s.raise b).queue e = s.queue e :=
  queue_congr (by simp) e

@[simp] theorem queue_send (s : State) (m : MachineId) (f : MFrame) (e : Side) : (s.send m f).queue e = s.queue e :=
  queue_congr (by simp) e

/-! ## What the dispatch checks and the re-test leave of a queue -/

theorem dispatchDoor_served (s : State) (d e : Side) : Served (s.queue e) ((s.dispatchDoor d).queue e) := by
  unfold dispatchDoor
  split
  · split
    · rename_i x r served
      rw [queue_send, queue_setQueue]
      split
      · rename_i same
        subst same
        exact .serveFirst served
      · exact .refl _
    · unfold roundVisitCheck
      split
      · exact .refl _
      · split
        · exact .refl _
        · rw [queue_send]
          exact .refl _
  · exact .refl _

theorem dispatchFor_served (s : State) (m : MachineId) (e : Side) : Served (s.queue e) ((s.dispatchFor m).queue e) := by
  cases m with
  | pm => exact s.dispatchDoor_served .ps e
  | gc => exact s.dispatchDoor_served .cs e
  | cc =>
    rw [show (s.dispatchFor .cc).queue e = s.queue e from queue_congr (by simp [dispatchFor]) e]
    exact .refl _
  | qc => exact .refl _

theorem revoke_served (s : State) (m : MachineId) (r : Reason) (e : Side) :
    Served (s.queue e) ((s.revoke m r).queue e) := by
  unfold revoke
  split
  · exact .refl _
  · rename_i p held
    dsimp only
    split
    · have same : (((s.setPermit m none).send m (.revoke p.kind p.oven r)).disarm).queue e = s.queue e :=
        queue_congr (by simp) e
      exact same ▸ dispatchFor_served _ m e
    · have same : ((s.setPermit m none).send m (.revoke p.kind p.oven r)).queue e = s.queue e :=
        queue_congr (by simp) e
      exact same ▸ dispatchFor_served _ m e

theorem retestOne_served (s : State) (m : MachineId) (e : Side) : Served (s.queue e) ((s.retestOne m).queue e) := by
  unfold retestOne
  split
  · exact .refl _
  · split
    · exact .refl _
    · exact revoke_served s m _ e

theorem retest_served (s : State) (e : Side) : Served (s.queue e) (s.retest.queue e) :=
  ((s.retestOne_served .pm e).trans (retestOne_served _ .gc e)).trans (retestOne_served _ .cc e)

/-! ## Door records -/

theorem door_congr {s t : State} (h : t.dru.doors = s.dru.doors) (n : Nat) (d : Side) : t.door n d = s.door n d := by
  simp only [door, h]

@[simp] theorem door_updDoor (s : State) (n j : Nat) (d e : Side) (f : DoorRec → DoorRec) :
    (s.updDoor n d f).door j e = if n = j ∧ d = e then (s.door j e).map f else s.door j e := by
  simp only [door, updDoor_doors, nth1_upd1]
  by_cases same : n = j
  · subst same
    cases nth1 s.dru.doors n with
    | none => simp
    | some p => by_cases side : d = e <;> simp [side]
  · simp [same]

@[simp] theorem door_setQueue (s : State) (d : Side) (q : List TaskEntry) (j : Nat) (e : Side) :
    (s.setQueue d q).door j e = s.door j e := rfl

@[simp] theorem door_raise (s : State) (b : NoticeBody) (j : Nat) (e : Side) : (s.raise b).door j e = s.door j e :=
  door_congr (by simp) j e

@[simp] theorem door_retest (s : State) (j : Nat) (e : Side) : s.retest.door j e = s.door j e :=
  door_congr (by simp) j e

@[simp] theorem door_dispatchDoor (s : State) (d : Side) (j : Nat) (e : Side) :
    (s.dispatchDoor d).door j e = s.door j e :=
  door_congr (by simp) j e

theorem updDoor_congr {s : State} {n : Nat} {d : Side} {f g : DoorRec → DoorRec} (h : ∀ r, s.door n d = some r → f r = g r) :
    s.updDoor n d f = s.updDoor n d g := by
  have same := upd1_congr (f := fun p : Pair DoorRec => p.set d (f (p.get d))) (g := fun p => p.set d (g (p.get d)))
    (n := n) (l := s.dru.doors) fun p at0 => by rw [h (p.get d) (by simp [door, at0])]
  simp only [updDoor, same]

theorem updDoor_eq_self {s : State} {n : Nat} {d : Side} {f : DoorRec → DoorRec} (h : ∀ r, s.door n d = some r → f r = r) :
    s.updDoor n d f = s := by
  have same := upd1_eq_self (f := fun p : Pair DoorRec => p.set d (f (p.get d)))
    (n := n) (l := s.dru.doors) fun p at0 => by rw [h (p.get d) (by simp [door, at0]), Pair.set_get]
  simp only [updDoor, same]

/-! ## The RESEAL offered at a leak (R90) -/

theorem joinTask_has (s : State) (d : Side) (n : Nat) (k : TaskKind) (rest : List TaskEntry) :
    (s.joinTask d n k rest).HasTask d n k := by
  have queue : (s.joinTask d n k rest).queue d = joinLast ⟨n, k, s.now, false, none⟩ rest := by
    unfold joinTask
    dsimp only
    split <;> simp
  exact ⟨⟨n, k, s.now, false, none⟩, queue ▸ mem_joinLast.mpr (.inl rfl), rfl, rfl⟩

theorem doorState_congr {s t : State} {n : Nat} {d : Side}
    (h : (t.door n d).map DoorRec.state = (s.door n d).map DoorRec.state) : t.doorState n d = s.doorState n d := h

theorem joinTask_doorState (s : State) (d : Side) (n : Nat) (k : TaskKind) (rest : List TaskEntry) (j : Nat) (e : Side) :
    (s.joinTask d n k rest).doorState j e = s.doorState j e := by
  unfold joinTask doorState
  dsimp only
  split
  · rw [door_updDoor, door_setQueue]
    split
    · rw [Option.map_map]
      rfl
    · rfl
  · rfl

/-- A RESEAL offered has its place in the queue, or the door is reseal pending. -/
theorem offerTask_reseal {s : State} {d : Side} {n : Nat} {r : DoorRec} (present : s.door n d = some r) :
    ((s.offerTask d n .reseal).HasTask d n .reseal
      ∨ ((s.offerTask d n .reseal).door n d).map DoorRec.resealPending = some true)
    ∧ (s.offerTask d n .reseal).doorState n d = s.doorState n d := by
  by_cases has : s.HasTask d n .reseal
  · rw [offerTask_twice has]
    exact ⟨.inl has, rfl⟩
  by_cases inspect : ∃ e ∈ s.queue d, e.oven = n ∧ e.kind = .inspect ∧ e.service = none
  · rw [offerTask_instead has rfl inspect]
    exact ⟨.inl (joinTask_has s d n _ _), joinTask_doorState s d n _ _ n d⟩
  rw [offerTask_new has (fun h => nomatch h) fun _ e mem here waits => inspect ⟨e, mem, here, waits⟩]
  split
  · exact ⟨.inl (joinTask_has s d n _ _), joinTask_doorState s d n _ _ n d⟩
  · cases newest : newestInspect (s.queue d) with
    | some e =>
      rw [offerFull_evicts (by simp) newest]
      have ⟨x, mem, here⟩ := joinTask_has s d n .reseal (s.without d e.oven .inspect)
      refine ⟨.inl ⟨x, by rwa [queue_raise], here⟩, ?_⟩
      rw [← joinTask_doorState s d n .reseal (s.without d e.oven .inspect) n d, doorState, door_raise]
      rfl
    | none =>
      rw [offerFull_reseal newest]
      exact ⟨.inr (by simp [setPending, present]), by simp [setPending, doorState, present]⟩

/-! ## Leaks (R90) -/

theorem doorReportSide_some {s : State} {n : Nat} (outside : (s.oven n).isSome = true) (d : Side) :
    s.doorReportSide (Side.machine d) n (some d) = some d := by
  have ok : s.ovenOk n = true := (s.ovenOk_eq n).trans outside
  cases d <;> simp [doorReportSide, sideOf, Side.machine, ok]

/-- The door's record and notice at an entry into LEAKING, before the offer. -/
def leaking (s : State) (n : Nat) (d : Side) (r : DoorRec) : State :=
  let leaks := min 15 (r.leaks + 1)
  let flags := decide (s.dru.vals.cleanThreshold ≤ leaks)
  let v := s.updDoor n d fun y =>
    { y with state := .leaking, leaks := leaks, cleanDue := r.cleanDue || flags, confirm := none }
  if flags && !r.cleanDue then v.raise (.cleanDue n d) else v

theorem enterLeaking_eq {s : State} {n : Nat} {d : Side} {r : DoorRec} (present : s.door n d = some r) :
    s.enterLeaking n d = ((s.leaking n d r).offerInRun d n .reseal).retest := by
  have told (a b : Bool) : ((a || b) && !a) = (b && !a) := by cases a <;> cases b <;> rfl
  simp only [enterLeaking, present, leaking, told]

theorem leakAt_off {s : State} {n : Nat} {d : Side} {r : DoorRec} (present : s.door n d = some r)
    (off : r.state = .off) : s.leakAt n d = s := by
  simp only [leakAt, present, off]

theorem leakAt_leaking {s : State} {n : Nat} {d : Side} {r : DoorRec} (present : s.door n d = some r)
    (leaking : r.state = .leaking) : s.leakAt n d =
      if ((s.queue d).any (fun e => e.is n .reseal) || r.resealPending) = true then s else s.offerChecked d n .reseal := by
  simp only [leakAt, present, leaking]

theorem leakAt_enters {s : State} {n : Nat} {d : Side} {r : DoorRec} (present : s.door n d = some r)
    (closed : r.state = .tight ∨ r.state = .onUnconfirmed) :
    s.leakAt n d = (s.enterLeaking n d).dispatchDoor d := by
  rcases closed with tight | unconfirmed
  · simp only [leakAt, present, tight]
  · simp only [leakAt, present, unconfirmed]

theorem door_leaking {s : State} {n : Nat} {d : Side} {r : DoorRec} (present : s.door n d = some r) :
    (s.leaking n d r).door n d = some { r with
      state := .leaking
      leaks := min 15 (r.leaks + 1)
      cleanDue := r.cleanDue || decide (s.dru.vals.cleanThreshold ≤ min 15 (r.leaks + 1))
      confirm := none } := by
  unfold leaking
  dsimp only
  split <;> simp [present]

theorem leaking_inRun (s : State) (n : Nat) (d : Side) (r : DoorRec) : (s.leaking n d r).inRun = s.inRun := by
  unfold leaking
  dsimp only
  split <;> simp [inRun]

end State

/-- Settles O44. -/
theorem leaksAtDoors : Obligations.LeaksAtDoors := by
  unfold Obligations.LeaksAtDoors
  intro s d n m offered checked open_ leaks flags entered
  have machine : m = Side.machine d := by cases d <;> rfl
  have enters {u : State} {x : DoorRec} (present : u.door n d = some x) : u.enterLeaking n d = entered u x :=
    enterLeaking_eq present
  refine ⟨fun x untested outside present => ?_, fun tag room run => ?_, fun x present run closed => ?_⟩
  · intro h run
    have report : run = ends (h.leakAt n d) := by
      have side : h.doorReportSide m n (some d) = some d := machine ▸ doorReportSide_some (s := h) outside d
      have taken : frameEffect (.leakSeen m n (some d)) h = h.leakAt n d := by
        simp only [frameEffect, side]
      exact (exec_machineFrame (c := .leakSeen m n (some d)) rfl untested).trans (congrArg ends taken)
    refine ⟨fun off => ?_, fun leaking => ?_, fun closed => ?_⟩
    · exact report.trans (congrArg ends (leakAt_off (s := h) present off))
    · exact report.trans (congrArg ends (leakAt_leaking (s := h) present leaking))
    · refine report.trans (congrArg ends ((leakAt_enters (s := h) present closed).trans ?_))
      exact congrArg (dispatchDoor · d) (enters present)
  · intro h
    have heardRun : h.inRun = true := (supervisorHeard_inRun s).trans run
    have block (side : Option Side) : requestEffect (.leakReport tag n side) h = leakReportOp n side h := runOnly_run heardRun
    refine ⟨exec_answered rfl room (block none), fun absent => ?_, fun x outside present => ?_⟩
    · refine exec_answered rfl room ((block (some d)).trans ?_)
      exact if_pos (by simp [ovenOk_of_none absent])
    · intro run
      have ok : h.ovenOk n = true := (h.ovenOk_eq n).trans outside
      have state : h.doorState n d = some x.state := by simp [doorState, present]
      have off (shut : x.state = .off) : leakReportOp n (some d) h = h.refuse .doors :=
        (if_neg (by simp [ok])).trans (if_pos (by rw [state, shut]))
      have taken (shut : x.state ≠ .off) : leakReportOp n (some d) h = (h.leakAt n d).ok :=
        (if_neg (by simp [ok])).trans (if_neg (by rw [state]; simpa using shut))
      refine ⟨fun shut => ?_, fun leaking => ?_, fun closed => ?_⟩
      · exact exec_answered rfl room ((block (some d)).trans (off shut))
      · have body := taken (by simp [leaking])
        rw [leakAt_leaking present leaking] at body
        exact exec_answered rfl room ((block (some d)).trans body)
      · have body := taken (by rcases closed with c | c <;> simp [c])
        rw [leakAt_enters present closed, enters present] at body
        exact exec_answered rfl room ((block (some d)).trans body)
  · have leaks := door_leaking present
    have offers : entered s x = ((s.leaking n d x).offerTask d n .reseal).retest := by
      refine (enters present).symm.trans ((enterLeaking_eq present).trans (congrArg retest ?_))
      exact if_pos ((leaking_inRun s n d x).trans run)
    obtain ⟨placed, kept⟩ := offerTask_reseal leaks
    rw [offers, door_retest]
    refine ⟨kept.trans ?_, placed.symm.imp_right fun has => ?_⟩
    · rw [doorState, leaks]
      rfl
    · obtain ⟨e, mem, here⟩ := has
      obtain ⟨y, mem', oven, kind⟩ := (retest_served _ d).stays e mem
      exact ⟨y, mem', oven.trans here.1, kind.trans here.2⟩

end Sys2Proof.Machine
end

section
/-! SUPPORT. Chapter 5: doors found tight, completed door tasks, and doors put on. -/

namespace Sys2Proof.Machine

open Sys2Proof State

namespace State

/-! ## The reseal pending release (R96) -/

theorem releaseOne_eq (s : State) (d : Side) (j : Nat) : s.releaseOne d j =
    if (s.queue d).length < 16 ∧ (s.door j d).map DoorRec.resealPending = some true then
      (if (s.queue d).any (fun e => e.oven == j && e.kind == .reseal) then s
        else s.setQueue d (joinLast ⟨j, .reseal, s.now, false, none⟩ (s.queue d))).updDoor j d
          fun y => { y with resealPending := false }
    else s := by
  unfold releaseOne
  split
  · unfold TaskEntry.is
    split <;> rfl
  · rfl

theorem releaseFrom_eq (d : Side) (l : List Nat) (s : State) : releaseFrom d l s = l.foldl (fun w j => w.releaseOne d j) s := by
  induction l generalizing s with
  | nil => rfl
  | cons j l ih => exact ih (s.releaseOne d j)

/-- The door's record is `r`, without the pending flag, and no RESEAL or INSPECT of it waits. -/
structure Sealed (s : State) (n : Nat) (d : Side) (r : DoorRec) : Prop where
  door : s.door n d = some r
  clear : r.resealPending = false
  idle : ∀ e ∈ s.queue d, e.oven = n → e.kind = .clean ∨ e.service.isSome = true

theorem Sealed.releaseOne {s : State} {n : Nat} {d : Side} {r : DoorRec} (h : s.Sealed n d r) (j : Nat) :
    (s.releaseOne d j).Sealed n d r := by
  rw [releaseOne_eq]
  split
  · rename_i pending
    have other : j ≠ n := fun same => by
      have flag := pending.2
      simp [same, h.door, h.clear] at flag
    refine ⟨?_, h.clear, ?_⟩
    · split <;> simp [other, h.door]
    · rw [queue_updDoor]
      split
      · exact h.idle
      · rw [queue_setQueue, if_pos rfl]
        intro e mem here
        rcases mem_joinLast.mp mem with rfl | mem
        · exact absurd here other
        · exact h.idle e mem here
  · exact h

theorem Sealed.releaseFrom {s : State} {n : Nat} {d : Side} {r : DoorRec} (h : s.Sealed n d r) (l : List Nat) :
    (releaseFrom d l s).Sealed n d r := by
  induction l generalizing s with
  | nil => exact h
  | cons j l ih => exact ih (h.releaseOne j)

theorem Sealed.served {s t : State} {n : Nat} {d : Side} {r : DoorRec} (h : s.Sealed n d r)
    (door : t.dru.doors = s.dru.doors) (served : Served (s.queue d) (t.queue d)) : t.Sealed n d r := by
  refine ⟨(door_congr door n d).trans h.door, h.clear, fun x mem here => ?_⟩
  obtain ⟨e, mem, oven, kind, serves⟩ := served.stood x mem
  exact (h.idle e mem (oven ▸ here)).imp kind.trans serves

/-! ## A door found tight (R96) -/

/-- The door's record as it is found tight at a time. -/
def tightRec (now : Nat) (r : DoorRec) : DoorRec :=
  { r with state := .tight, lastConfirmed := some now, confirm := none, resealPending := false }

/-- The door written tight and its waiting RESEAL and INSPECT entries gone, before the release. -/
def tightened (s : State) (n : Nat) (d : Side) : State :=
  (s.updDoor n d (tightRec s.now)).setQueue d ((s.queue d).filter fun e =>
    !(e.oven == n && (e.kind == .reseal || e.kind == .inspect) && e.service.isNone))

theorem doorTight_eq (s : State) (n : Nat) (d : Side) :
    s.doorTight n d = ((s.tightened n d).pendingRelease d).retest := by
  have picks (e : TaskEntry) : ((e.is n .reseal || e.is n .inspect) && e.waits)
      = (e.oven == n && (e.kind == .reseal || e.kind == .inspect) && e.service.isNone) := by
    simp only [TaskEntry.is, TaskEntry.waits]
    cases e.oven == n <;> rfl
  simp only [doorTight, dropSealWork, picks]
  rfl

theorem tightened_sealed {s : State} {n : Nat} {d : Side} {r : DoorRec} (present : s.door n d = some r) :
    (s.tightened n d).Sealed n d (tightRec s.now r) := by
  refine ⟨by simp [tightened, present], rfl, fun e mem here => ?_⟩
  rw [tightened, queue_setQueue, if_pos rfl] at mem
  have waits := (List.mem_filter.mp mem).2
  cases kind : e.kind with
  | clean => exact .inl rfl
  | reseal | inspect =>
    refine .inr ?_
    simpa [here, kind, Option.isSome_iff_ne_none] using waits

theorem doorTight_sealed {s : State} {n : Nat} {d : Side} {r : DoorRec} (present : s.door n d = some r) :
    (s.doorTight n d).Sealed n d (tightRec s.now r) := by
  rw [doorTight_eq]
  exact ((tightened_sealed present).releaseFrom (numbers 1 (s.tightened n d).nOv)).served (by simp; rfl) (retest_served _ d)

/-! ## An offer and its door -/

theorem joinTask_door {s : State} {d : Side} {n : Nat} {r : DoorRec} (present : s.door n d = some r) (k : TaskKind)
    (rest : List TaskEntry) : ∃ p, (s.joinTask d n k rest).door n d = some { r with resealPending := p } := by
  unfold joinTask
  dsimp only
  split
  · exact ⟨false, by simp [present]⟩
  · exact ⟨r.resealPending, present⟩

/-- An offer changes no more of its door than the pending flag. -/
theorem offerTask_door {s : State} {d : Side} {n : Nat} {r : DoorRec} (present : s.door n d = some r) (k : TaskKind) :
    ∃ p, (s.offerTask d n k).door n d = some { r with resealPending := p } := by
  have same : ∃ p, s.door n d = some { r with resealPending := p } := ⟨r.resealPending, present⟩
  unfold offerTask
  dsimp only
  split
  · exact same
  · split
    · exact same
    · split
      · exact joinTask_door present k _
      · split
        · exact joinTask_door present k _
        · unfold offerFull
          split
          · rw [door_raise]
            exact same
          · split
            · rw [door_raise]
              exact joinTask_door present k _
            · split
              · exact ⟨true, by simp [setPending, present]⟩
              · exact same

theorem offerInRun_door {s : State} {d : Side} {n : Nat} {r : DoorRec} (present : s.door n d = some r) (k : TaskKind) :
    ∃ p, (s.offerInRun d n k).door n d = some { r with resealPending := p } := by
  unfold offerInRun
  split
  · exact offerTask_door present k
  · exact ⟨r.resealPending, present⟩

theorem enterLeaking_door {s : State} {n : Nat} {d : Side} {r : DoorRec} (present : s.door n d = some r) :
    ∃ y, (s.enterLeaking n d).door n d = some y ∧ y.state = .leaking ∧ y.leaks = min 15 (r.leaks + 1) := by
  obtain ⟨p, door⟩ := offerInRun_door (door_leaking present) .reseal
  exact ⟨_, by rw [enterLeaking_eq present, door_retest, door], rfl, rfl⟩

/-! ## The result of a door task (R98) -/

/-- The door and its counts after a CLEAN is done. -/
def cleaned (s : State) (d : Side) (n : Nat) (k : TaskKind) : State :=
  if k = .clean then s.updDoor n d fun x => { x with leaks := 0, cleanDue := false } else s

/-- The door's record after a CLEAN is done, and after another task. -/
def cleanedRec (k : TaskKind) (r : DoorRec) : DoorRec := if k = .clean then { r with leaks := 0, cleanDue := false } else r

theorem cleaned_door {s : State} {d : Side} {n : Nat} {r : DoorRec} (present : s.door n d = some r) (k : TaskKind) :
    (s.cleaned d n k).door n d = some (cleanedRec k r) := by
  unfold cleaned cleanedRec
  split <;> simp [present]

theorem cleanedRec_state (k : TaskKind) (r : DoorRec) : (cleanedRec k r).state = r.state := by
  unfold cleanedRec
  split <;> rfl

section
variable {s : State} {d : Side} {n : Nat} {x : DoorRec} {k : TaskKind}

theorem cleaned_state (present : s.door n d = some x) : (s.cleaned d n k).doorState n d = some x.state := by
  rw [doorState, cleaned_door present, Option.map_some, cleanedRec_state]

/-- The result of a task at a door in a state, once a CLEAN's counts are written. -/
theorem applyResult_eq {st : DoorState} (state : (s.cleaned d n k).doorState n d = some st) (r : TaskResult) :
    s.applyResult d n k r = match (generalizing := false) st, k, r with
      | .off, _, _ => s.cleaned d n k
      | _, _, .tight => (s.cleaned d n k).doorTight n d
      | .leaking, .reseal, .leak => (s.cleaned d n k).offerInRun d n .reseal
      | .leaking, .inspect, .leak => s.cleaned d n k
      | _, _, .leak => (s.cleaned d n k).enterLeaking n d := by
  unfold cleaned at state ⊢
  unfold applyResult
  dsimp only
  rw [state]
  cases st <;> cases k <;> cases r <;> rfl

theorem applyResult_off (present : s.door n d = some x) (off : x.state = .off) (r : TaskResult) :
    s.applyResult d n k r = s.cleaned d n k :=
  applyResult_eq ((cleaned_state present).trans (congrArg some off)) r

theorem applyResult_tight (present : s.door n d = some x) (closed : x.state ≠ .off) :
    s.applyResult d n k .tight = (s.cleaned d n k).doorTight n d := by
  refine (applyResult_eq (cleaned_state present) .tight).trans ?_
  cases st : x.state with
  | off => exact absurd st closed
  | tight | leaking | onUnconfirmed => rfl

theorem applyResult_reseal (present : s.door n d = some x) (leaks : x.state = .leaking) :
    s.applyResult d n .reseal .leak = s.offerInRun d n .reseal :=
  applyResult_eq ((cleaned_state present).trans (congrArg some leaks)) .leak

theorem applyResult_inspect (present : s.door n d = some x) (leaks : x.state = .leaking) :
    s.applyResult d n .inspect .leak = s :=
  applyResult_eq ((cleaned_state present).trans (congrArg some leaks)) .leak

theorem applyResult_leak (present : s.door n d = some x) (closed : x.state ≠ .off)
    (new : x.state ≠ .leaking ∨ k = .clean) : s.applyResult d n k .leak = (s.cleaned d n k).enterLeaking n d := by
  refine (applyResult_eq (cleaned_state present) .leak).trans ?_
  cases st : x.state with
  | off => exact absurd st closed
  | leaking =>
    obtain rfl := new.resolve_left fun h => h st
    rfl
  | tight | onUnconfirmed => rfl

end

/-! ## TASK_DONE from PM and GC -/

/-- The round visit at the oven is what TASK_DONE of an INSPECT completes. -/
def VisitDoneAt (s : State) (d : Side) (n : Nat) (k : TaskKind) : Prop :=
  (s.round d).visit.map Visit.oven = some n ∧ k = .inspect
    ∧ ∀ e ∈ s.queue d, e.oven = n → e.kind = .inspect → e.service = none

theorem taskDone_visit_iff (s : State) (d : Side) (n : Nat) (k : TaskKind) :
    (((s.round d).visit.map Visit.oven == some n) && k == .inspect
      && !(s.queue d).any (fun e => e.is n k && e.service.isSome)) = true ↔ s.VisitDoneAt d n k := by
  simp only [VisitDoneAt, Bool.and_eq_true, beq_iff_eq, Bool.not_eq_true', and_assoc]
  refine and_congr_right fun _ => and_congr_right fun inspect => ?_
  subst inspect
  simp [TaskEntry.is]

theorem taskDoneOp_visit {s : State} {d : Side} {n : Nat} {k : TaskKind} (visit : s.VisitDoneAt d n k) (r : TaskResult) :
    s.taskDoneOp d n k r = (((s.visitDone d n).applyResult d n k r).pendingRelease d).dispatchDoor d :=
  if_pos ((s.taskDone_visit_iff d n k).mpr visit)

theorem taskDoneOp_entry {s : State} {d : Side} {n : Nat} {k : TaskKind} (visit : ¬ s.VisitDoneAt d n k)
    (listed : s.HasTask d n k) (r : TaskResult) : s.taskDoneOp d n k r =
      (((s.setQueue d (s.without d n k)).applyResult d n k r).pendingRelease d).dispatchDoor d :=
  (if_neg (mt (s.taskDone_visit_iff d n k).mp visit)).trans (if_pos ((any_is_iff _ _ _).mpr listed))

theorem taskDoneOp_unmatched {s : State} {d : Side} {n : Nat} {k : TaskKind} (visit : ¬ s.VisitDoneAt d n k)
    (listed : ¬ s.HasTask d n k) (r : TaskResult) :
    s.taskDoneOp d n k r = s.raise (.taskUnmatched (Side.machine d) n (.door k) (.door r)) :=
  (if_neg (mt (s.taskDone_visit_iff d n k).mp visit)).trans (if_neg (mt (any_is_iff _ _ _).mp listed))

theorem cleaned_keeps (s : State) (d : Side) (n : Nat) (k : TaskKind) : (s.cleaned d n k).tb = s.tb
    ∧ (s.cleaned d n k).dru.queues = s.dru.queues ∧ (s.cleaned d n k).dru.vals = s.dru.vals := by
  unfold cleaned
  split <;> exact ⟨rfl, rfl, rfl⟩

theorem cleanedRec_leaks (k : TaskKind) (r : DoorRec) : (cleanedRec k r).leaks = if k = .clean then 0 else r.leaks := by
  unfold cleanedRec
  split <;> rfl

theorem cleanedRec_cleanDue (k : TaskKind) (r : DoorRec) :
    (cleanedRec k r).cleanDue = (r.cleanDue && decide (k ≠ .clean)) := by
  cases k <;> simp [cleanedRec]

theorem pendingRelease_eq (s : State) (d : Side) : s.pendingRelease d = (numbers 1 s.nOv).foldl (fun w j =>
    if (w.queue d).length < 16 ∧ (w.door j d).map DoorRec.resealPending = some true then
      (if (w.queue d).any (fun e => e.oven == j && e.kind == .reseal) then w
        else w.setQueue d (joinLast ⟨j, .reseal, w.now, false, none⟩ (w.queue d))).updDoor j d
          fun y => { y with resealPending := false }
    else w) s := by
  rw [pendingRelease, releaseFrom_eq]
  exact congrArg (fun f => (numbers 1 s.nOv).foldl f s) (funext fun w => funext fun j => releaseOne_eq w d j)

end State

/-- Settles O46. -/
theorem doorTasksAreCompleted : Obligations.DoorTasksAreCompleted := by
  unfold Obligations.DoorTasksAreCompleted
  intro s f d n k r sender untested h visit listed finish
  have report : exec (.taskDone f n k r) s = ends (h.taskDoneOp d n k r) := by
    have taken : frameEffect (.taskDone f n k r) h = h.taskDoneOp d n k r := by
      rw [sender]
      cases d <;> rfl
    exact (exec_machineFrame (c := .taskDone f n k r) rfl untested).trans (congrArg ends taken)
  have machine : f.machine = Side.machine d := by
    rw [sender]
    cases d <;> rfl
  refine ⟨fun done => ?_, fun away has => ?_, fun away has => ?_, fun u x present => ?_⟩
  · exact report.trans (congrArg ends (taskDoneOp_visit (s := h) done r))
  · exact report.trans (congrArg ends (taskDoneOp_entry (s := h) away has r))
  · rw [machine]
    exact report.trans (congrArg ends (taskDoneOp_unmatched (s := h) away has r))
  · intro base v
    obtain ⟨time, queues, vals⟩ := u.cleaned_keeps d n k
    have door := cleaned_door present k
    refine ⟨fun off => applyResult_off present off r, fun closed tight => ?_, ?_, fun closed leak => ?_,
      u.pendingRelease_eq d⟩
    · have result : v = (u.cleaned d n k).doorTight n d := by
        subst tight
        exact applyResult_tight present closed
      have sealed := doorTight_sealed door
      refine ⟨tightRec (u.cleaned d n k).now (cleanedRec k x), result ▸ sealed.door, rfl, ?_, rfl, rfl, cleanedRec_leaks k x, cleanedRec_cleanDue k x⟩
      simp only [tightRec, now, time]
    · intro cleaned' offered tight kept leaks wasDue due leaking'
      have written : (u.cleaned d n k).tightened n d = kept := by
        have queue : (u.cleaned d n k).queue d = u.queue d := queue_congr queues d
        simp only [tightened, queue, now, time]
        rfl
      have leaked : (u.cleaned d n k).leaking n d (cleanedRec k x)
          = if due && !wasDue then leaking'.raise (.cleanDue n d) else leaking' := by
        have told (a b : Bool) : ((a || b) && !a) = (b && !a) := by cases a <;> cases b <;> rfl
        simp only [State.leaking, vals, cleanedRec_leaks, cleanedRec_cleanDue, due, told]
        rfl
      refine ⟨fun closed isTight => ?_, fun leaky isLeak reseal => ?_, fun leaky isLeak inspect => ?_,
        fun closed isLeak new => ?_⟩
      · subst isTight
        exact (applyResult_tight present closed).trans ((doorTight_eq _ n d).trans
          (congrArg (fun w => (w.pendingRelease d).retest) written))
      · subst isLeak reseal
        exact applyResult_reseal present leaky
      · subst isLeak inspect
        exact applyResult_inspect present leaky
      · subst isLeak
        refine (applyResult_leak present closed new).trans ((enterLeaking_eq door).trans ?_)
        exact congrArg (fun w => (offered w).retest) leaked
    · subst leak
      by_cases again : x.state = .leaking ∧ k ≠ .clean
      · rw [if_pos again]
        cases k with
        | clean => exact absurd rfl again.2
        | reseal =>
          obtain ⟨p, kept⟩ := offerInRun_door present .reseal
          exact ⟨_, (congrArg (State.door · n d) (applyResult_reseal present again.1)).trans kept, again.1, rfl⟩
        | inspect =>
          exact ⟨x, (congrArg (State.door · n d) (applyResult_inspect present again.1)).trans present, again.1, rfl⟩
      · rw [if_neg again]
        have new : x.state ≠ .leaking ∨ k = .clean := by
          by_cases leaks : x.state = .leaking
          · exact .inr (not_not.mp fun other => again ⟨leaks, other⟩)
          · exact .inl leaks
        obtain ⟨y, at0, state, leaks⟩ := enterLeaking_door door
        refine ⟨y, (congrArg (State.door · n d) (applyResult_leak present closed new)).trans at0, state, leaks.trans ?_⟩
        rw [cleanedRec_leaks]

end Sys2Proof.Machine
end

section
/-! SUPPORT. Chapter 5: doors put on and found tight. -/

namespace Sys2Proof.Machine

open Sys2Proof State

/-- A push record that is CLOSING was so before: a disarmed one is OPENING or STICKER. -/
theorem PushKept.closing {old : Option PushRec} {q : PushRec} (h : PushKept old (some q)) (stage : q.stage = .closing) :
    old = some q := by
  obtain same | disarmed := h
  · exact same.symm
  · obtain ⟨p, rfl, rfl⟩ := Option.map_eq_some_iff.mp disarmed.symm
    cases from0 : p.armedFrom with
    | none => rw [disarmRec_unarmed from0]
    | some a => cases a <;> simp [disarmRec, from0, ArmedFrom.stage] at stage

namespace State

/-! ## DOOR_ON (R89, R92, R77) -/

/-- A door's record as it is put on. -/
def onRec (s : State) (x : DoorRec) : DoorRec :=
  { x with
    state := .onUnconfirmed
    confirm := if s.inRun then some (timeAdd s.now s.dru.vals.tConfirm) else none }

theorem takeDoorOn_off {s : State} {d : Side} {n : Nat} {r : DoorRec} (present : s.door n d = some r)
    (off : r.state = .off) :
    s.takeDoorOn d n = ((s.updDoor n d s.onRec).retest).completionTest.dispatchDoor d := by
  have state : s.doorState n d = some .off := by simp [doorState, present, off]
  simp only [takeDoorOn, doorOnFact, state, if_true]
  rfl

theorem takeDoorOn_sequence {s : State} {d : Side} {n : Nat} {r : DoorRec} (present : s.door n d = some r)
    (closed : r.state ≠ .off) : s.takeDoorOn d n = s.raise (.doorSequence n d .doorOn r.state) := by
  simp only [takeDoorOn, doorOnFact, doorSequence, doorState, present, Option.map_some, Option.some.injEq, closed,
    if_false, Option.getD_some]

theorem anyDoorOff_iff_side (s : State) (n : Nat) : s.anyDoorOff n = true ↔ ∃ e, s.doorState n e = some .off := by
  rw [anyDoorOff_iff]
  exact ⟨fun h => h.elim (fun ps => ⟨.ps, ps⟩) fun cs => ⟨.cs, cs⟩, fun ⟨e, off⟩ => by
    cases e with
    | ps => exact .inl off
    | cs => exact .inr off⟩

theorem doorTightFact_off {s : State} {d : Side} {n : Nat} {r : DoorRec} (present : s.door n d = some r)
    (off : r.state = .off) : s.doorTightFact n d = s.raise (.doorSequence n d .doorTight r.state) := by
  have state : s.doorState n d = some .off := by simp [doorState, present, off]
  simp only [doorTightFact, doorSequence, state, off]
  rfl

theorem doorTightFact_tight {s : State} {d : Side} {n : Nat} {r : DoorRec} (present : s.door n d = some r)
    (tight : r.state = .tight) : s.doorTightFact n d = s.updDoor n d fun x => { x with lastConfirmed := some s.now } := by
  have state : s.doorState n d = some .tight := by simp [doorState, present, tight]
  simp only [doorTightFact, state]

theorem doorTightFact_open {s : State} {d : Side} {n : Nat} {r : DoorRec} (present : s.door n d = some r)
    (isOpen : r.state = .leaking ∨ r.state = .onUnconfirmed) :
    s.doorTightFact n d = (s.doorTight n d).dispatchDoor d := by
  rcases isOpen with st | st
  · have state : s.doorState n d = some .leaking := by simp [doorState, present, st]
    simp only [doorTightFact, state]
  · have state : s.doorState n d = some .onUnconfirmed := by simp [doorState, present, st]
    simp only [doorTightFact, state]

theorem doorState_put (s : State) (n j : Nat) (d e : Side) (f : DoorRec → DoorRec) (st : DoorState)
    (h : ∀ x, (f x).state = st) (outside : (s.door n d).isSome = true) : ((s.updDoor n d f).retest).doorState j e
      = if n = j ∧ d = e then some st else s.doorState j e := by
  obtain ⟨r, present⟩ := Option.isSome_iff_exists.mp outside
  rw [doorState, door_retest, door_updDoor]
  split
  · rename_i same
    obtain ⟨rfl, rfl⟩ := same
    simp [present, h]
  · rfl

end State

/-- Settles O43. -/
theorem doorsPutOnAndTight : Obligations.DoorsPutOnAndTight := by
  unfold Obligations.DoorsPutOnAndTight
  intro s d n r m untested outside present h sequence
  have machine : m = Side.machine d := by cases d <;> rfl
  have side : h.doorReportSide m n (some d) = some d := machine ▸ doorReportSide_some (s := h) outside d
  have on : exec (.doorOn m n (some d)) s = ends (h.takeDoorOn d n) := by
    have taken : frameEffect (.doorOn m n (some d)) h = h.takeDoorOn d n := by simp only [frameEffect, side]
    exact (exec_machineFrame (c := .doorOn m n (some d)) rfl untested).trans (congrArg ends taken)
  have tight : exec (.doorTight m n (some d)) s = ends (h.doorTightFact n d) := by
    have taken : frameEffect (.doorTight m n (some d)) h = h.doorTightFact n d := by simp only [frameEffect, side]
    exact (exec_machineFrame (c := .doorTight m n (some d)) rfl untested).trans (congrArg ends taken)
  have at0 : h.door n d = some r := present
  refine ⟨fun closed => ?_, fun off => ?_, fun off => ?_, fun off below => ?_, fun isTight => ?_, fun isOpen => ?_,
    fun isOpen below => ?_⟩
  · exact on.trans (congrArg ends (takeDoorOn_sequence at0 closed))
  · exact tight.trans (congrArg ends (doorTightFact_off at0 off))
  · exact on.trans (congrArg ends (takeDoorOn_off at0 off))
  · let u : State := (h.updDoor n d h.onRec).retest
    let w := u.completionTest.dispatchDoor d
    have run : exec (.doorOn m n (some d)) s = .next w.kick := by
      refine on.trans ((congrArg ends (takeDoorOn_off at0 off)).trans ?_)
      exact congrArg Host.Outcome.next (settle_eq_kick (s := w) (by simp [w, u, h, now]; exact below))
    have push : w.kick.ilk.push = u.completionTest.ilk.push := by simp [w]
    have kept : PushKept s.ilk.push u.ilk.push := retest_push (.refl _)
    have state (j : Nat) (e : Side) : u.doorState j e = if n = j ∧ d = e then some .onUnconfirmed else s.doorState j e :=
      doorState_put h n j d e h.onRec .onUnconfirmed (fun _ => rfl) (by simp [at0])
    refine ⟨w.kick, run, by simp [w, u, h]; rfl, fun q was here closing unarmed others => ?_, fun waits => ?_⟩
    · have now0 : u.ilk.push = some q := PushKept.unarmed (was ▸ kept) unarmed
      have shut : u.anyDoorOff q.oven = false := by
        refine Bool.eq_false_iff.mpr fun anyOff => ?_
        obtain ⟨e, off⟩ := (anyDoorOff_iff_side _ _).mp anyOff
        rw [here, state] at off
        split at off
        · simp at off
        · rename_i other
          exact others e (fun same => other ⟨rfl, same.symm⟩) off
      have completes := completionTest_completes now0 closing shut
      obtain ⟨o, inTable⟩ := Option.isSome_iff_exists.mp outside
      refine ⟨by rw [push, completes, pushComplete_push], ?_⟩
      have table : w.kick.ot = upd1 (emptied q) n s.ot := by
        have ot : w.kick.ot = u.completionTest.ot := by simp [w]
        rw [ot, completes, pushComplete_ot, here]
        simp [u, h]
      have ovens : nth1 s.ot n = some o := inTable
      rw [ovenState, oven, table, nth1_upd1, if_pos rfl, ovens]
      rfl
    · have still : u.completionTest = u := completionTest_waits fun q was ⟨closing, shut⟩ => by
        have before : s.ilk.push = some q := PushKept.closing (was ▸ kept) closing
        refine Bool.eq_false_iff.mp shut ((anyDoorOff_iff_side _ _).mpr ?_)
        rcases waits q before closing with ⟨here, e, other, off⟩ | ⟨away, off⟩
        · exact ⟨e, by rw [state, if_neg fun same => other same.2.symm, here]; exact off⟩
        · obtain ⟨e, off⟩ := (anyDoorOff_iff_side _ _).mp off
          exact ⟨e, by rw [state, if_neg fun same => away same.1.symm]; exact off⟩
      refine ⟨?_, ?_⟩
      · have ot : w.kick.ot = u.completionTest.ot := by simp [w]
        rw [ot, still]
        simp [u, h]
      · rw [push, still]
        exact kept.eq_none_iff
  · exact tight.trans (congrArg ends (doorTightFact_tight at0 isTight))
  · intro tight' kept
    refine tight.trans (congrArg ends ((doorTightFact_open at0 isOpen).trans ?_))
    exact congrArg (dispatchDoor · d) (doorTight_eq h n d)
  · let w := (h.doorTight n d).dispatchDoor d
    have time : w.now = s.now := by simp [w, h, now]
    have run : exec (.doorTight m n (some d)) s = .next w.kick :=
      tight.trans ((congrArg ends (doorTightFact_open at0 isOpen)).trans
        (congrArg Host.Outcome.next (settle_eq_kick (s := w) (by rw [time]; exact below))))
    have done : w.Sealed n d (tightRec h.now r) :=
      (doorTight_sealed at0).served (by simp [w]) (dispatchDoor_served _ d d)
    have ended : w.kick.dru = w.dru := by simp
    refine ⟨w.kick, run, ?_, fun e mem here => ?_⟩
    · exact (door_congr (congrArg DoorUnit.doors ended) n d).trans done.door
    · exact done.idle e (by rwa [queue_congr (congrArg DoorUnit.queues ended)] at mem) here

end Sys2Proof.Machine
end

section
/-! SUPPORT. Chapter 8: the timers of the quench unit. -/

namespace Sys2Proof.Machine

open Sys2Proof State

/-! ## The free list (R153) -/

/-- A bay joins the free list after those that go before it. -/
theorem insertFree_append {since : Nat → Nat} {b t : Nat} {before after : List Nat}
    (first : ∀ a ∈ before, since a < t ∨ (since a = t ∧ a < b))
    (next : ∀ a, after.head? = some a → ¬ (since a < t ∨ (since a = t ∧ a < b))) :
    insertFree since b t (before ++ after) = before ++ b :: after := by
  induction before with
  | nil =>
    cases after with
    | nil => rfl
    | cons a l => exact if_neg (next a rfl)
  | cons a l ih =>
    have rest := ih fun x mem => first x (List.mem_cons_of_mem a mem)
    exact (if_pos (first a List.mem_cons_self)).trans (congrArg (a :: ·) rest)

/-- The destination of a moving car, written out. -/
theorem dest_eq (c : CarState) : c.dest = match c with
    | .toOven .park => some .park
    | .toOven (.oven n) => some (.oven n)
    | .toTower => some .tower
    | .toBay b => some (.bay b)
    | _ => none := rfl

namespace State

/-! ## The car and its load -/

theorem setCar_other {s : State} {c : CarState} (other : s.qnu.car.state ≠ c) :
    s.setCar c = s.updCar fun r => { r with state := c, positionFlag := false } := if_neg other

theorem updLoad_of_some {s : State} {l : LoadRec} (load : s.qnu.load = some l) (f : LoadRec → LoadRec) :
    s.updLoad f = { s with qnu.load := some (f l) } := by
  simp only [updLoad, load]
  rfl

theorem chooseBay_some {s : State} {l : LoadRec} {b : Nat} {rest : List Nat} (load : s.qnu.load = some l)
    (free : s.qnu.free = b :: rest) : s.chooseBay = State.sendCar { s with
      qnu.free := rest
      qnu.load := some { l with bay := some b }
      qnu.bays := upd1 (fun _ => .assigned l.oven) b s.qnu.bays } (.toBay b) := by
  simp only [chooseBay, load, free]
  rfl

theorem chooseBay_waits {s : State} {l : LoadRec} (load : s.qnu.load = some l) (none : s.qnu.free = [])
    (other : s.qnu.car.state ≠ .waitBay) : s.chooseBay = (State.raise { s with
      qnu.car := { s.qnu.car with state := .waitBay, positionFlag := false, move := .none } } (.waitBay l.oven)).retest := by
  unfold chooseBay
  rw [load, none]
  dsimp only
  rw [if_neg other, setCar_other other]
  rfl

theorem chooseBay_waiting {s : State} {l : LoadRec} (load : s.qnu.load = some l) (none : s.qnu.free = [])
    (waiting : s.qnu.car.state = .waitBay) : s.chooseBay = s := by
  simp only [chooseBay, load, none, if_pos waiting]

/-! ## The discharge (R154) -/

theorem isDischarging_iff (s : State) (b : Nat) :
    s.isDischarging b = true ↔ ∃ o dump c g, s.bay b = some (.discharging o dump c g) := by
  unfold isDischarging
  split
  · rename_i o dump c g at0
    exact ⟨fun _ => ⟨o, dump, c, g, at0⟩, fun _ => rfl⟩
  · rename_i other
    exact ⟨fun h => absurd h (by simp), fun ⟨o, dump, c, g, at0⟩ => absurd at0 (other o dump c g)⟩

theorem anyDischarging_iff (s : State) : (numbers 1 s.qnu.bays.length).any s.isDischarging = true
    ↔ ∃ b o dump c g, s.bay b = some (.discharging o dump c g) := by
  rw [List.any_eq_true]
  constructor
  · rintro ⟨b, -, h⟩
    exact ⟨b, (s.isDischarging_iff b).mp h⟩
  · rintro ⟨b, o, dump, c, g, at0⟩
    have inTable : (nth1 s.qnu.bays b).isSome = true := Option.isSome_iff_exists.mpr ⟨_, at0⟩
    rw [nth1_isSome, Bool.and_eq_true, decide_eq_true_eq, decide_eq_true_eq] at inTable
    exact ⟨b, mem_numbers.mpr inTable, (s.isDischarging_iff b).mpr ⟨o, dump, c, g, at0⟩⟩

theorem startDischarge_begins {s : State} {b o dump c : Nat} (head : s.qnu.discharge.head? = some b)
    (cooled : s.bay b = some (.cooled o dump c)) (idle : ∀ j o' d' c' g, s.bay j ≠ some (.discharging o' d' c' g))
    (conveyor : s.inputLevel .conveyorRunIn = true) (gate : s.assigned (.gateOut b) = true) :
    s.startDischarge = s.setBay b (.discharging o dump c (timeAdd s.now s.qnu.vals.tGate)) := by
  obtain ⟨rest, queue⟩ := List.head?_eq_some_iff.mp head
  have none : (numbers 1 s.qnu.bays.length).any s.isDischarging = false :=
    Bool.eq_false_iff.mpr fun h =>
      have ⟨j, o', d', c', g, at0⟩ := s.anyDischarging_iff.mp h
      idle j o' d' c' g at0
  simp only [startDischarge, queue, none, conveyor, gate, cooled, Bool.false_eq_true, if_false, Bool.and_self, if_true]

theorem startDischarge_idle {s : State}
    (h : s.qnu.discharge = [] ∨ (∃ j o' d' c' g, s.bay j = some (.discharging o' d' c' g))
      ∨ s.inputLevel .conveyorRunIn = false ∨ ∀ j, s.qnu.discharge.head? = some j → s.assigned (.gateOut j) = false) :
    s.startDischarge = s := by
  cases queue : s.qnu.discharge with
  | nil => simp only [startDischarge, queue]
  | cons b rest =>
    unfold startDischarge
    rw [queue]
    dsimp only
    by_cases busy : (numbers 1 s.qnu.bays.length).any s.isDischarging = true
    · exact if_pos busy
    · rw [if_neg busy]
      refine if_neg fun both => ?_
      obtain ⟨conveyor, gate⟩ := Bool.and_eq_true_iff.mp both
      rcases h with empty | discharging | stopped | ungated
      · simp [queue] at empty
      · exact busy (s.anyDischarging_iff.mpr discharging)
      · simp [conveyor] at stopped
      · have closed := ungated b (by rw [queue]; rfl)
        simp [gate] at closed

end State

/-- Settles O53. -/
theorem quenchUnitTimers : Obligations.QuenchUnitTimers := by
  unfold Obligations.QuenchUnitTimers
  refine ⟨fun since b t before after => insertFree_append, fun s b t at0 => by simp only [freeSince, at0], fun s b => ?_⟩
  intro q due dest
  refine ⟨fun t e d move passed to0 => ?_, fun ahead => ?_, fun l load passed => ?_, fun ahead => ?_,
    fun state passed => ?_, fun idle => ?_, fun l state passed load => ?_, fun idle => ?_, fun o dump t bay passed => ?_,
    fun ahead => ?_, fun j rest o dump c g queue bay passed => ?_, fun ahead => ?_, fun l waiting load => ?_,
    fun o dump c head cooled idle conveyor gate => startDischarge_begins head cooled idle conveyor gate,
    startDischarge_idle⟩
  · have moving : q.car.state.dest = some d := by
      rw [← to0]
      exact dest_eq q.car.state
    have expire : s.moveTimerExpire = ({ s with qnu.car.move := .issued t none } : State).raise (.moveLate d t) := by
      simp only [moveTimerExpire, show s.qnu.car.move = _ from move, show s.qnu.car.state.dest = _ from moving]
      exact if_pos ((reached_iff _ _).mpr ⟨e, rfl, passed⟩)
    exact congrArg ends expire
  · have expire : s.moveTimerExpire = s := by
      unfold moveTimerExpire
      split
      · rename_i t timer d move to0
        refine if_neg fun h => ?_
        obtain ⟨e, rfl, passed⟩ := (reached_iff _ _).mp h
        exact Nat.not_le.mpr (ahead t e move) passed
      · rfl
    exact congrArg ends expire
  · have expire : s.hotTimerExpire = ({ s with qnu.load := some { l with hot := none, late := true } } : State).raise
        (.hotLoadLate l.oven l.pushEnd q.car.state) := by
      simp only [hotTimerExpire, show s.qnu.load = some l from load, updLoad_of_some (s := s) load]
      exact if_pos ((reached_iff _ _).mpr passed)
    exact congrArg ends expire
  · have expire : s.hotTimerExpire = s := by
      unfold hotTimerExpire
      cases load : s.qnu.load with
      | none => rfl
      | some l => exact if_neg (mt (reached_iff _ _).mp (ahead l load))
    exact congrArg ends expire
  · have expire : s.sprayExpire = (((s.updLoad fun x => { x with quenchEnd := some s.now }).setPhase
        (some (timeAdd s.now s.qnu.vals.tDrain))).setCar .draining).retest :=
      if_pos ⟨state, (reached_iff _ _).mpr passed⟩
    have other : s.qnu.car.state ≠ .draining := by
      rw [show s.qnu.car.state = .quenching from state]
      simp
    exact congrArg ends (expire.trans (congrArg retest (setCar_other other)))
  · have expire : s.sprayExpire = s :=
      if_neg fun h => idle.elim (fun other => other h.1) fun early => early ((reached_iff _ _).mp h.2)
    exact congrArg ends expire
  · have expire : s.drainExpire = (s.setPhase none).chooseBay := if_pos ⟨state, (reached_iff _ _).mpr passed⟩
    have other : s.qnu.car.state ≠ .waitBay := by
      rw [show s.qnu.car.state = .draining from state]
      simp
    refine congrArg ends (expire.trans ?_)
    cases free : q.free with
    | nil => exact chooseBay_waits (s := s.setPhase none) load free other
    | cons b rest => exact chooseBay_some (s := s.setPhase none) load free
  · have expire : s.drainExpire = s :=
      if_neg fun h => idle.elim (fun other => other h.1) fun early => early ((reached_iff _ _).mp h.2)
    exact congrArg ends expire
  · have expire : s.coolExpire b = State.startDischarge { s with
        qnu.bays := upd1 (fun _ => .cooled o dump s.now) b q.bays
        qnu.discharge := q.discharge ++ [b] } := by
      simp only [coolExpire, bay]
      exact if_pos passed
    exact congrArg ends expire
  · have expire : s.coolExpire b = s := by
      unfold coolExpire
      split
      · rename_i o dump t bay
        exact if_neg (Nat.not_le.mpr (ahead o dump t bay))
      · rfl
    exact congrArg ends expire
  · intro u v
    have expire : s.gateExpire = s.gateEnd j := by
      simp only [gateExpire, show s.qnu.discharge = _ from queue, bay]
      exact if_pos passed
    exact congrArg ends expire
  · have expire : s.gateExpire = s := by
      unfold gateExpire
      split
      · rename_i j rest queue
        split
        · rename_i o dump c g bay
          exact if_neg (Nat.not_le.mpr (ahead j rest o dump c g queue bay))
        · rfl
      · rfl
    exact congrArg ends expire
  · cases free : q.free with
    | nil => exact chooseBay_waiting load free waiting
    | cons j rest => exact chooseBay_some load free

end Sys2Proof.Machine
end

section
/-! SUPPORT. Chapter 8: dumps, the track row, and the moves of the car. -/

namespace Sys2Proof.Machine

open Sys2Proof State

/-! ## The track row (R142) -/

theorem trackPos_le {nOv : Nat} {p : TrackSpot} (ok : trackSpotOk nOv p = true) : trackPos nOv p ≤ nOv + 2 := by
  cases p with
  | oven n =>
    have range : 1 ≤ n ∧ n ≤ nOv := by simpa [trackSpotOk] using ok
    exact Nat.le_add_right_of_le range.2
  | park | tower | wharf => simp [trackPos]

theorem trackSpotAt_trackPos {nOv : Nat} {p : TrackSpot} (ok : trackSpotOk nOv p = true) :
    trackSpotAt nOv (trackPos nOv p) = p := by
  cases p with
  | oven n =>
    have range : 1 ≤ n ∧ n ≤ nOv := by simpa [trackSpotOk] using ok
    simp [trackSpotAt, trackPos, range.2, show n ≠ 0 by omega]
  | park | tower | wharf => simp [trackSpotAt, trackPos]

theorem trackSpotAt_spec {nOv i : Nat} (low : i ≤ nOv + 2) :
    trackSpotOk nOv (trackSpotAt nOv i) = true ∧ trackPos nOv (trackSpotAt nOv i) = i := by
  unfold trackSpotAt
  split_ifs with zero inside tower
  · exact ⟨rfl, zero.symm⟩
  · exact ⟨by simp [trackSpotOk, inside, show 1 ≤ i by omega], rfl⟩
  · exact ⟨rfl, tower.symm⟩
  · exact ⟨rfl, show nOv + 2 = i by omega⟩

/-- The run from one place to another holds the spots of the row that lie between. -/
theorem mem_trackRun {nOv i j : Nat} (high : j ≤ nOv + 2) (p : TrackSpot) :
    p ∈ trackRun nOv i j ↔ trackSpotOk nOv p = true ∧ i ≤ trackPos nOv p ∧ trackPos nOv p ≤ j := by
  simp only [trackRun, List.mem_map, mem_numbers]
  constructor
  · rintro ⟨k, ⟨low, upper⟩, rfl⟩
    obtain ⟨ok, place⟩ := trackSpotAt_spec (nOv := nOv) (show k ≤ nOv + 2 by omega)
    exact ⟨ok, by omega, by omega⟩
  · rintro ⟨ok, low, upper⟩
    exact ⟨trackPos nOv p, ⟨low, upper⟩, trackSpotAt_trackPos ok⟩

theorem eq_wharf_of_trackPos {nOv : Nat} {p : TrackSpot} (ok : trackSpotOk nOv p = true)
    (place : trackPos nOv p = nOv + 2) : p = .wharf := by
  have back := trackSpotAt_trackPos ok
  rw [place] at back
  simpa [trackSpotAt] using back.symm

/-- What lies on the path of a move (R142). -/
theorem mem_movePath {nOv : Nat} {last : Option CarSpot} {d : MoveDest} (goal : trackSpotOk nOv d.row = true)
    (start : ∀ x, last = some x → trackSpotOk nOv x.row = true) (p : TrackSpot) :
    p ∈ movePath nOv last d ↔ trackSpotOk nOv p = true ∧ (match (generalizing := false) last with
      | none => trackPos nOv p ≤ trackPos nOv d.row
      | some x => (trackPos nOv x.row < trackPos nOv p ∧ trackPos nOv p ≤ trackPos nOv d.row)
        ∨ (trackPos nOv d.row ≤ trackPos nOv p ∧ trackPos nOv p < trackPos nOv x.row)
        ∨ (d.row = .wharf ∧ x.row = .wharf ∧ p = .wharf)) := by
  have high := trackPos_le goal
  unfold movePath
  cases last with
  | none =>
    dsimp only
    rw [mem_trackRun high]
    simp
  | some x =>
    have ok := start x rfl
    have far := trackPos_le ok
    dsimp only
    split_ifs with forth back bays
    · rw [mem_trackRun high]
      refine and_congr_right fun _ => ⟨fun h => .inl (by omega), ?_⟩
      rintro (h | h | ⟨h1, h2, -⟩)
      · omega
      · omega
      · rw [h1, h2] at forth
        omega
    · rw [mem_trackRun (by omega)]
      refine and_congr_right fun _ => ⟨fun h => .inr (.inl (by omega)), ?_⟩
      rintro (h | h | ⟨h1, h2, -⟩)
      · omega
      · omega
      · rw [h1, h2] at back
        omega
    · have here : d.row = .wharf := by simpa using bays
      have same : x.row = .wharf := eq_wharf_of_trackPos ok (by
        have place : trackPos nOv d.row = nOv + 2 := by rw [here]; rfl
        omega)
      simp only [List.mem_singleton]
      constructor
      · rintro rfl
        exact ⟨rfl, .inr (.inr ⟨here, same, rfl⟩)⟩
      · rintro ⟨-, h | h | ⟨-, -, h⟩⟩
        · omega
        · omega
        · exact h
    · have away : d.row ≠ .wharf := by simpa using bays
      refine ⟨fun h => absurd h List.not_mem_nil, ?_⟩
      rintro ⟨-, h | h | ⟨h, -⟩⟩
      · omega
      · omega
      · exact absurd h away

namespace State

theorem trackSpotOk_iff (s : State) (p : TrackSpot) :
    trackSpotOk s.nOv p = true ↔ ∀ n, p = .oven n → (s.oven n).isSome = true := by
  have inTable (n : Nat) : (s.oven n).isSome = (decide (1 ≤ n) && decide (n ≤ s.nOv)) := nth1_isSome s.ot n
  cases p with
  | oven n => simp [trackSpotOk, inTable]
  | park | tower | wharf => simp [trackSpotOk]

theorem trackRange_some {s : State} {p q : TrackSpot} (first : trackSpotOk s.nOv p = true)
    (last : trackSpotOk s.nOv q = true) (order : trackPos s.nOv p ≤ trackPos s.nOv q) :
    s.trackRange (some p) (some q) = some (trackRun s.nOv (trackPos s.nOv p) (trackPos s.nOv q)) :=
  if_pos (by simp [first, last, order])

theorem trackRange_none {s : State} {a b : Option TrackSpot}
    (h : a = none ∨ b = none ∨ ∃ p q, a = some p ∧ b = some q
      ∧ (¬ trackSpotOk s.nOv p = true ∨ ¬ trackSpotOk s.nOv q = true ∨ trackPos s.nOv q < trackPos s.nOv p)) :
    s.trackRange a b = none := by
  rcases h with rfl | rfl | ⟨p, q, rfl, rfl, bad⟩
  · rfl
  · cases a <;> rfl
  · refine if_neg fun good => ?_
    simp only [Bool.and_eq_true, decide_eq_true_eq] at good
    obtain ⟨⟨first, last⟩, order⟩ := good
    rcases bad with bad | bad | bad
    · exact bad first
    · exact bad last
    · omega

/-! ## The moves of the car (R143) -/

section
variable {s : State} {d : MoveDest}

theorem orderWithheld_iff (s : State) : s.orderWithheld = true
    ↔ s.hold = true ∨ s.online .qc = false ∨ (s.machine .qc).mode = some .localMode := by
  simp [orderWithheld, or_assoc]

theorem testMove_withheld (withheld : s.orderWithheld = true) : s.testMove = s := by
  unfold testMove
  cases s.qnu.car.state.dest with
  | none => exact ite_self s
  | some d => simp only [withheld, if_true, ite_self]

theorem testMove_idle (h : s.qnu.car.move ≠ .pending ∨ s.qnu.car.state.dest = none) : s.testMove = s := by
  unfold testMove
  split
  · rename_i pending
    rw [h.resolve_left fun other => other pending]
  · rfl

theorem testMove_clear (to0 : s.qnu.car.state.dest = some d) (pending : s.qnu.car.move = .pending)
    (free : s.orderWithheld = false) (clear : s.blockedOn d = []) : s.testMove = s.issueMove d := by
  unfold testMove
  rw [if_pos pending, to0]
  dsimp only
  rw [if_neg (by simp [free]), clear]

theorem testMove_blocked (to0 : s.qnu.car.state.dest = some d) (pending : s.qnu.car.move = .pending)
    (free : s.orderWithheld = false) (blocked : s.blockedOn d ≠ []) :
    s.testMove = if s.qnu.car.blockTold = true then s
      else ({ s with qnu.car.blockTold := true } : State).raise (.trackBlocked false d (s.blockedOn d)) := by
  unfold testMove
  rw [if_pos pending, to0]
  dsimp only
  rw [if_neg (by simp [free])]
  split
  · exact absurd ‹_› blocked
  · rfl

/-- The car record of a car set to a state, with its move and whether TRACK_BLOCKED has been told. -/
def carTo (s : State) (c : CarState) (move : MoveStatus) (told : Bool) : CarRec :=
  { s.qnu.car with
    state := c, move := move, blockTold := told
    positionFlag := if s.qnu.car.state = c then s.qnu.car.positionFlag else false }

/-- The car set to a state, written out. -/
theorem setCar_updCar (s : State) (c : CarState) (f : CarRec → CarRec) : (s.setCar c).updCar f = { s with
    qnu.car := f { s.qnu.car with
      state := c, positionFlag := if s.qnu.car.state = c then s.qnu.car.positionFlag else false } } := by
  unfold setCar
  by_cases same : s.qnu.car.state = c
  · rw [if_pos same, if_pos same]
    subst same
    rfl
  · rw [if_neg same, if_neg same]
    rfl

theorem settleCar_eq (s : State) (c : CarState) :
    s.settleCar c = ({ s with qnu.car := s.carTo c .none s.qnu.car.blockTold } : State).retest :=
  congrArg retest (setCar_updCar s c _)

theorem setCar_state (s : State) (c : CarState) : (s.setCar c).qnu.car.state = c := by
  unfold setCar
  split
  · assumption
  · rfl

theorem sendCar_eq (s : State) {c : CarState} (to0 : c.dest = some d) :
    s.sendCar c = (({ s with qnu.car := s.carTo c .pending false } : State).testMove).retest := by
  have request : (s.setCar c).requestMove
      = ((s.setCar c).updCar fun r => { r with move := .pending, blockTold := false }).testMove := by
    simp only [requestMove, setCar_state, to0]
  rw [sendCar, request, setCar_updCar]
  rfl

theorem sendCar_withheld {c : CarState} (to0 : c.dest = some d) (withheld : s.orderWithheld = true) :
    s.sendCar c = ({ s with qnu.car := s.carTo c .pending false } : State).retest :=
  (sendCar_eq s to0).trans (congrArg retest (testMove_withheld withheld))

theorem sendCar_clear {c : CarState} (to0 : c.dest = some d) (free : s.orderWithheld = false) (clear : s.blockedOn d = []) :
    s.sendCar c = (({ s with
      qnu.car := s.carTo c (.issued s.now (some (timeAdd s.now s.qnu.vals.tMove))) false } : State).send .qc
        (.orderMove d)).retest :=
  (sendCar_eq s to0).trans (congrArg retest (testMove_clear to0 rfl free clear))

theorem sendCar_blocked {c : CarState} (to0 : c.dest = some d) (free : s.orderWithheld = false)
    (blocked : s.blockedOn d ≠ []) : s.sendCar c = (({ s with qnu.car := s.carTo c .pending true } : State).raise
      (.trackBlocked false d (s.blockedOn d))).retest :=
  (sendCar_eq s to0).trans (congrArg retest ((testMove_blocked (s := { s with qnu.car := s.carTo c .pending false })
    to0 rfl free blocked).trans (if_neg (by simp [carTo]))))

/-! ## The empty car and the DUMP order (R145, R152) -/

theorem emptyTarget_next {n due : Nat} (next : s.pln.reported = some (n, due)) : s.emptyTarget = .oven n := by
  simp only [emptyTarget, next]

theorem emptyTarget_none (none : s.pln.reported = none) : s.emptyTarget = .park := by simp only [emptyTarget, none]

theorem sendOnward_next {n due : Nat} (next : s.pln.reported = some (n, due)) : s.sendOnward =
    if s.qnu.car.lastSpot = some (.oven n) ∧ (s.machine .qc).position = some (.oven n .track) then s.settleCar (.spotted n)
    else s.sendCar (.toOven (.oven n)) := by
  simp only [sendOnward, emptyTarget_next next]
  rfl

theorem sendOnward_park (none : s.pln.reported = none) : s.sendOnward =
    if s.qnu.car.lastSpot = some .park ∧ (s.machine .qc).position = some .park then s.settleCar .parked
    else s.sendCar (.toOven .park) := by
  simp only [sendOnward, emptyTarget_none none]
  rfl

theorem reconsiderNext_none (none : s.pln.reported = none) : s.reconsiderNext = s := by
  simp only [reconsiderNext, none]

theorem reconsiderNext_next {n due : Nat} (next : s.pln.reported = some (n, due)) :
    s.reconsiderNext = s.reconsiderCar n := by
  simp only [reconsiderNext, next]

theorem requestDump_withheld {l : LoadRec} {b : Nat} (load : s.qnu.load = some l) (bay : l.bay = some b)
    (withheld : s.orderWithheld = true) : s.requestDump = { s with qnu.car.dump := .pending } := by
  unfold requestDump
  rw [show s.qnu.load.bind LoadRec.bay = some b by rw [load]; exact bay]
  exact if_pos withheld

theorem requestDump_clear {l : LoadRec} {b : Nat} (load : s.qnu.load = some l) (bay : l.bay = some b)
    (free : s.orderWithheld = false) :
    s.requestDump = ({ s with qnu.car.dump := .issued } : State).send .qc (.orderDump b) := by
  unfold requestDump
  rw [show s.qnu.load.bind LoadRec.bay = some b by rw [load]; exact bay]
  exact if_neg (by simp [free])

theorem testDump_due (pending : s.qnu.car.dump = .pending) (free : s.orderWithheld = false) :
    s.testDump = s.requestDump := if_pos (by simp [pending, free])

theorem testDump_idle (h : s.orderWithheld = true ∨ s.qnu.car.dump ≠ .pending) : s.testDump = s := by
  refine if_neg fun both => ?_
  obtain ⟨pending, free⟩ : s.qnu.car.dump = .pending ∧ s.orderWithheld = false := by simpa using both
  exact h.elim (fun withheld => by simp [withheld] at free) fun other => other pending

/-! ## DUMP_DONE (R152) -/

theorem takeDumpDone_at {l : LoadRec} {b : Nat} (load : s.qnu.load = some l) (state : s.qnu.car.state = .dumping)
    (bay : l.bay = some b) : s.takeDumpDone b = State.sendOnward { (State.raise { s with
      qnu.bays := upd1 (fun _ => .cooling l.oven s.now (timeAdd s.now s.qnu.vals.tCool)) b s.qnu.bays }
        (.loadDumped l)) with
      qnu.load := none
      qnu.car.dump := .none } := by
  unfold takeDumpDone
  rw [load]
  exact if_pos ⟨state, bay⟩

theorem takeDumpDone_sequence {b : Nat}
    (other : ∀ l, s.qnu.load = some l → ¬ (s.qnu.car.state = .dumping ∧ l.bay = some b)) :
    s.takeDumpDone b = s.raise (.dumpSequence b s.qnu.car.state) := by
  unfold takeDumpDone
  cases load : s.qnu.load with
  | none => rfl
  | some l => exact if_neg (other l load)

end

end State

/-- Settles O54. -/
theorem dumpsAndTheTrack : Obligations.DumpsAndTheTrack := by
  unfold Obligations.DumpsAndTheTrack
  refine ⟨fun s b untested => ?_, fun s tag room => ?_, fun s d c => ?_⟩
  · intro h q
    have report : exec (.dumpDone .qc b) s = ends (h.takeDumpDone b) :=
      exec_machineFrame (c := .dumpDone .qc b) rfl untested
    exact ⟨fun l load state bay => report.trans (congrArg ends (takeDumpDone_at (s := h) load state bay)),
      fun other => report.trans (congrArg ends (takeDumpDone_sequence (s := h) other))⟩
  · intro h place known
    have block (a b : Option TrackSpot) : requestEffect (.trackBlock tag a b) h = trackBlockOp a b h := rfl
    have free (a b : Option TrackSpot) : requestEffect (.trackFree tag a b) h = trackFreeOp a b h := rfl
    have places (p : TrackSpot) : place p = trackPos h.nOv p := by cases p <;> rfl
    have knows (p : TrackSpot) : known p ↔ trackSpotOk h.nOv p = true := (h.trackSpotOk_iff p).symm
    simp only [places, knows]
    refine ⟨fun a b bad => ?_, fun p q first last order => ?_⟩
    · have refused := trackRange_none (s := h) bad
      exact ⟨exec_answered rfl room ((block a b).trans (by simp only [trackBlockOp, refused]; rfl)),
        exec_answered rfl room ((free a b).trans (by simp only [trackFreeOp, refused]; rfl))⟩
    · have named := trackRange_some (s := h) first last order
      refine ⟨_, mem_trackRun (trackPos_le last), ?_, ?_⟩
      · exact exec_answered rfl room ((block _ _).trans (by simp only [trackBlockOp, named]; rfl))
      · exact exec_answered rfl room ((free _ _).trans (by simp only [trackFreeOp, named]; rfl))
  · intro place goal row destOf stands withheld car issued q
    have places (p : TrackSpot) : place p = trackPos s.nOv p := by cases p <;> rfl
    have knows (p : TrackSpot) : stands p ↔ trackSpotOk s.nOv p = true := (s.trackSpotOk_iff p).symm
    have rows (x : CarSpot) : row x = x.row := by cases x <;> rfl
    have goals : goal = d.row := by cases d <;> rfl
    have held : withheld ↔ s.orderWithheld = true := s.orderWithheld_iff.symm
    have isFree (h : ¬ withheld) : s.orderWithheld = false := Bool.eq_false_iff.mpr (mt held.mpr h)
    have dests (x : CarState) : destOf x = x.dest := rfl
    refine ⟨fun there start p => ?_, settleCar_eq s c, fun to0 => ⟨fun w => ?_, fun w clear => ?_, fun w blocked => ?_⟩,
      fun to0 pending => ⟨fun w => ?_, fun w blocked => ?_, fun w clear => ?_⟩, fun idle => testMove_idle idle, ?_,
      reconsiderNext_none, fun n due next => ?_, fun l b load bay => ⟨fun w => ?_, fun w => ⟨?_, fun pending => ?_⟩,
        fun idle => ?_⟩⟩
    · have path := mem_movePath (nOv := s.nOv) (d := d) (last := s.qnu.car.lastSpot) (by rw [← goals]; exact (knows _).mp there)
        (fun x at0 => by rw [← rows]; exact (knows _).mp (start x at0)) p
      have listed : p ∈ s.blockedOn d ↔ p ∈ s.qnu.blocked ∧ p ∈ movePath s.nOv s.qnu.car.lastSpot d := by
        simp [blockedOn, and_comm]
      rw [listed, path]
      refine and_congr_right fun _ => and_congr (knows p).symm ?_
      simp only [places, goals, rows]
      cases s.qnu.car.lastSpot <;> rfl
    · exact sendCar_withheld to0 (held.mp w)
    · exact sendCar_clear to0 (isFree w) clear
    · exact sendCar_blocked to0 (isFree w) blocked
    · exact testMove_withheld (held.mp w)
    · exact testMove_blocked to0 pending (isFree w) blocked
    · exact testMove_clear to0 pending (isFree w) clear
    · split
      · exact sendOnward_next ‹_›
      · exact sendOnward_park ‹_›
    · intro goes
      rw [reconsiderNext_next next]
      unfold reconsiderCar
      cases s.qnu.car.state with
      | spotted k => exact if_congr (by simp) rfl rfl
      | _ => rfl
    · exact requestDump_withheld load bay (held.mp w)
    · exact requestDump_clear load bay (isFree w)
    · exact testDump_due pending (isFree w)
    · exact testDump_idle (idle.imp_left held.mp)

end Sys2Proof.Machine
end

section
/-! SUPPORT. The queries. -/

namespace Sys2Proof.Machine

open Sys2Proof State

namespace State

/-! ## What the queries find -/

theorem findAt_some {α : Type} {p : α → Bool} {l : List α} {i : Nat} {a : α} (h : findAt p l = some (i, a)) :
    l[i]? = some a ∧ p a = true := by
  obtain ⟨⟨x, j⟩, found, same⟩ := Option.map_eq_some_iff.mp h
  obtain ⟨rfl, rfl⟩ := Prod.mk.inj same
  have mem := List.mem_of_find?_eq_some found
  have picked := List.find?_some (p := fun x : α × Nat => p x.1) found
  exact ⟨List.mem_zipIdx_iff_getElem?.mp mem, picked⟩

theorem findAt_none {α : Type} {p : α → Bool} {l : List α} (h : findAt p l = none) : ∀ a ∈ l, p a = false := by
  intro a mem
  obtain ⟨i, at0⟩ := List.getElem?_of_mem mem
  have none := List.find?_eq_none.mp (Option.map_eq_none_iff.mp h) (a, i) (List.mem_zipIdx_iff_getElem?.mpr at0)
  simpa using none

theorem filteredInput_iff (fn : TermFn) :
    TermFn.filteredInput fn = true ↔ fn = .input ∨ fn = .conveyorRunIn ∨ fn = .batteryStopIn := by
  cases fn <;> simp [TermFn.filteredInput]

/-- What the TERMINALS query gives of a terminal, written out. -/
theorem termView_eq (s : State) (t : Nat) (r : TermRec) :
    s.termView t r = ⟨t, r, s.outputLevel r, s.termState r,
      if r.fn = .input ∨ r.fn = .conveyorRunIn ∨ r.fn = .batteryStopIn then some (r.filtered, r.level) else none,
      match r.fn with
      | .pressIn k => (s.gate k).bind Gate.last
      | _ => none⟩ := by
  unfold termView
  congr 1
  exact if_congr (filteredInput_iff r.fn) rfl rfl

end State

/-- The car record comes first in the QUENCH answer: its state, its spot, its destination. -/
theorem quenchChars_eq (v : QuenchView) : ∃ rest, quenchChars v = Config.carStateCode v.unit.car.state.ctorIdx
    :: (optField carSpotField v.unit.car.state.spot ++ (optField destField v.unit.car.state.dest ++ rest)) :=
  ⟨_, by
    simp only [quenchChars, carField, List.cons_append, List.append_assoc]
    rfl⟩

/-- Settles O60. -/
theorem queriesAnswerTheState : Obligations.QueriesAnswerTheState := by
  unfold Obligations.QueriesAnswerTheState
  intro s tag n d room h gives visitAt entries link view
  refine ⟨exec_answered (c := .statusQuery tag) rfl room rfl, exec_answered (c := .machinesQuery tag) rfl room rfl,
    exec_answered (c := .pushQuery tag) rfl room rfl, fun p present => ?_, fun absent => ?_,
    exec_answered (c := .tasksQuery tag d) rfl room rfl, fun absent => ?_, fun r present => ?_,
    exec_answered (c := .valvesQuery tag none) rfl room rfl, fun absent => ?_, fun v present => ?_,
    exec_answered (c := .quenchQuery tag) rfl room rfl, fun v => ?_, fun absent => ?_, fun r present => ?_, ?_⟩
  · have body : doorAnswer n h = h.answer (.door ⟨p, ⟨entries .ps, entries .cs⟩, ⟨visitAt .ps, visitAt .cs⟩⟩) := by
      simp only [doorAnswer, present]
      rfl
    exact exec_answered (c := .doorQuery tag n) rfl room body
  · have body : doorAnswer n h = h.refuse .range := by simp only [doorAnswer, absent]
    exact exec_answered (c := .doorQuery tag n) rfl room body
  · have body : sectionAnswer n h = h.refuse .range := by simp only [sectionAnswer, absent]
    exact exec_answered (c := .sectionQuery tag n) rfl room body
  · refine exec_answered (c := .sectionQuery tag n) rfl room ?_
    show sectionAnswer n h = _
    simp only [sectionAnswer, present]
    rfl
  · have body : valvesAnswer (some n) h = h.refuse .range := by simp only [valvesAnswer, absent]
    exact exec_answered (c := .valvesQuery tag (some n)) rfl room body
  · have body : valvesAnswer (some n) h = h.answer (.valve ⟨v, findAt (fun e => e.oven == n) h.ofu.queue,
        findAt (fun o => o.oven == n) h.ofu.heldOffers⟩) := by simp only [valvesAnswer, present]
    refine ⟨_, exec_answered (c := .valvesQuery tag (some n)) rfl room body, rfl, fun i e at0 => ?_, fun none e mem => ?_,
      fun i o at0 => ?_, fun none o mem => ?_⟩
    · simpa using findAt_some (p := fun e : ValveEntry => e.oven == n) (l := h.ofu.queue) at0
    · simpa using findAt_none (p := fun e : ValveEntry => e.oven == n) (l := h.ofu.queue) none e mem
    · simpa using findAt_some (p := fun o : HeldOffer => o.oven == n) (l := h.ofu.heldOffers) at0
    · simpa using findAt_none (p := fun o : HeldOffer => o.oven == n) (l := h.ofu.heldOffers) none o mem
  · intro b1 spot dest
    obtain ⟨rest, chars⟩ := quenchChars_eq v
    have spots : optField carSpotField v.unit.car.state.spot = spot := by
      simp only [spot]
      cases v.unit.car.state <;> rfl
    have dests : optField destField v.unit.car.state.dest = dest := by
      simp only [dest]
      cases v.unit.car.state with
      | toOven e => cases e <;> rfl
      | _ => rfl
    refine ⟨rest, (show (AnswerData.quench v).chars = quenchChars v from rfl).trans (chars.trans ?_)⟩
    rw [spots, dests, List.cons_append, List.cons_append, List.append_assoc]
  · have body : terminalsAnswer (some n) h = h.refuse .range := by simp only [terminalsAnswer, absent]
    exact exec_answered (c := .terminalsQuery tag (some n)) rfl room body
  · have body : terminalsAnswer (some n) h = h.answer (.terminals [view n r]) := by
      simp only [terminalsAnswer, present]
      exact congrArg (fun x => h.answer (.terminals [x])) (termView_eq h n r)
    exact exec_answered (c := .terminalsQuery tag (some n)) rfl room body
  · have body : terminalsAnswer none h = h.answer (.terminals (h.trm.zipIdx.map fun p => view p.2 p.1)) :=
      congrArg (fun f => h.answer (.terminals (h.trm.zipIdx.map f))) (funext fun p => termView_eq h p.2 p.1)
    exact exec_answered (c := .terminalsQuery tag none) rfl room body

end Sys2Proof.Machine
end

section
/-! SUPPORT. The sweep of the ovens and the setup blocks. -/

namespace Sys2Proof.Machine

open Sys2Proof State

namespace State

/-! ## The sweep of the ovens (R19) -/

/-- An oven's record after its ready evaluation and overdue check. -/
def sweptRec (s : State) (o : OvenRec) : OvenRec :=
  { o with
    state := s.readyState o
    overdue := o.overdue || s.isOverdue { o with state := s.readyState o } }

theorem isOverdue_congr {s t : State} (time : t.tb = s.tb) (cfg : t.cfg = s.cfg) : t.isOverdue = s.isOverdue := by
  funext o
  simp only [isOverdue, inRun, now, time, cfg]

theorem sweptRec_congr {s t : State} (time : t.tb = s.tb) (cfg : t.cfg = s.cfg) : t.sweptRec = s.sweptRec := by
  funext o
  simp only [sweptRec, readyState_congr time cfg, isOverdue_congr time cfg]

theorem sweepOne_ot (s : State) (n : Nat) : ((s.evalReady n).overdueCheck n).ot = upd1 s.sweptRec n s.ot := by
  have raw : (s.evalReadyRaw n).ot = upd1 (fun o => { o with state := s.readyState o }) n s.ot := rfl
  rw [overdueCheck_ot, evalReady_ot, raw, upd1_upd1, isOverdue_congr (s := s) (t := s.evalReady n) (by simp) (by simp)]
  rfl

theorem sweepOvens_at {l : List Nat} (once : l.Nodup) (s : State) (k : Nat) :
    nth1 (sweepOvens l s).ot k = if k ∈ l then (nth1 s.ot k).map s.sweptRec else nth1 s.ot k := by
  induction l generalizing s with
  | nil => simp [sweepOvens]
  | cons n rest ih =>
    obtain ⟨new, tail⟩ := List.nodup_cons.mp once
    rw [sweepOvens, ih tail, sweepOne_ot, nth1_upd1,
      sweptRec_congr (s := s) (t := (s.evalReady n).overdueCheck n) (by simp) (by simp)]
    by_cases here : n = k
    · subst here
      simp [new]
    · simp [here, Ne.symm here]

theorem readySweep_ot (s : State) : s.readySweep.ot = s.ot.map s.sweptRec := by
  refine List.ext_getElem? fun i => ?_
  have swept := sweepOvens_at (numbers_nodup s.nOv) s (i + 1)
  refine swept.trans ?_
  rw [List.getElem?_map]
  split
  · rfl
  · rename_i outside
    have past : s.ot.length ≤ i := Nat.le_of_not_lt fun lt => outside (mem_numbers.mpr ⟨by omega, lt⟩)
    simp [nth1, List.getElem?_eq_none past]

theorem readySweep_eq (s : State) : s.readySweep = (numbers 1 s.nOv).foldl (fun x n => (x.evalReady n).overdueCheck n) s := by
  unfold readySweep
  generalize numbers 1 s.nOv = l
  induction l generalizing s with
  | nil => rfl
  | cons n rest ih => exact ih _

/-- In RUN the sweep writes a COKING or READY oven by its two times and leaves the rest. -/
theorem sweptRec_run {s : State} (run : s.inRun = true) (o : OvenRec) : s.sweptRec o =
    if o.state = .coking ∨ o.state = .ready then { o with
      state := if o.chargeEnd.any fun t => decide (min tMax (t + (o.target - s.cfg.timing.w) * 60) ≤ s.now) then .ready
        else .coking
      overdue := o.overdue || o.chargeEnd.any fun t => decide (min tMax (t + (o.target + s.cfg.timing.l) * 60) ≤ s.now) }
    else o := by
  have both (a b : Bool) : (a || (!a && b)) = (a || b) := by cases a <;> rfl
  by_cases heated : o.state = .coking ∨ o.state = .ready
  · have state : s.readyState o = if o.chargeEnd.any fun t =>
        decide (min tMax (t + (o.target - s.cfg.timing.w) * 60) ≤ s.now) then .ready else .coking := by
      rw [← reached_readyTime]
      rcases heated with st | st <;> simp only [readyState, st]
    have hot : (s.readyState o == .coking || s.readyState o == .ready) = true := by
      rw [state]
      split <;> rfl
    have late : s.isOverdue { o with state := s.readyState o }
        = (!o.overdue && o.chargeEnd.any fun t => decide (min tMax (t + (o.target + s.cfg.timing.l) * 60) ≤ s.now)) := by
      rw [← reached_overdueTime]
      simp only [isOverdue, run, hot, Bool.true_and]
      rfl
    rw [if_pos heated, sweptRec, late, both, state]
  · have state : s.readyState o = o.state := by
      unfold readyState
      split
      · exact absurd (.inl ‹_›) heated
      · exact absurd (.inr ‹_›) heated
      · rfl
    have early : s.isOverdue { o with state := s.readyState o } = false := by
      simp only [not_or] at heated
      simp [isOverdue, state, heated.1, heated.2]
    rw [if_neg heated, sweptRec, early, state, Bool.or_false]

/-! ## The setup blocks -/

theorem timingOk_iff (v : Timing) : timingOk v = true ↔ v.w ≤ 240 ∧ v.l ≤ 480 ∧ (30 ≤ v.tUse ∧ v.tUse ≤ 600) ∧ v.tSs ≤ 3600
    ∧ v.tSd ≤ 3600 ∧ v.tAdj ≤ 1440 ∧ (30 ≤ v.tRam ∧ v.tRam ≤ 600) ∧ (30 ≤ v.tReturn ∧ v.tReturn ≤ 600)
    ∧ (60 ≤ v.tDoors ∧ v.tDoors ≤ 1800) ∧ (60 ≤ v.tCharge ∧ v.tCharge ≤ 1800) ∧ (60 ≤ v.lIso ∧ v.lIso ≤ 1800) := by
  simp only [timingOk, Machine.within, Bool.and_eq_true, decide_eq_true_eq, and_assoc]

theorem doorsOk_iff (v : DoorVals) : doorsOk v = true ↔ (1 ≤ v.cleanThreshold ∧ v.cleanThreshold ≤ 15)
    ∧ (60 ≤ v.tConfirm ∧ v.tConfirm ≤ 3600) ∧ (60 ≤ v.tTask ∧ v.tTask ≤ 3600) ∧ (60 ≤ v.iBase ∧ v.iBase ≤ 7200) := by
  simp only [doorsOk, Machine.within, Bool.and_eq_true, decide_eq_true_eq, and_assoc]

theorem wharfOk_iff (v : WharfVals) : wharfOk v = true ↔ (2 ≤ v.bays ∧ v.bays ≤ 12) ∧ (60 ≤ v.tHot ∧ v.tHot ≤ 900)
    ∧ (30 ≤ v.tSpray ∧ v.tSpray ≤ 300) ∧ (30 ≤ v.tDrain ∧ v.tDrain ≤ 300) ∧ (300 ≤ v.tCool ∧ v.tCool ≤ 7200)
    ∧ (10 ≤ v.tGate ∧ v.tGate ≤ 600) ∧ (30 ≤ v.tMove ∧ v.tMove ≤ 900) := by
  simp only [wharfOk, Machine.within, Bool.and_eq_true, decide_eq_true_eq, and_assoc]

theorem pressureOk_iff (p : PressureParams) : pressureOk p = true ↔ (-100 ≤ p.setpoint ∧ p.setpoint ≤ 400)
    ∧ (0 ≤ p.deadband ∧ p.deadband ≤ 20) ∧ (0 ≤ p.kp ∧ p.kp ≤ 255) ∧ (0 ≤ p.ki ∧ p.ki ≤ 255)
    ∧ (0 ≤ p.uMin ∧ p.uMin ≤ 1000) ∧ (0 ≤ p.uMax ∧ p.uMax ≤ 1000) ∧ (1 ≤ p.rate ∧ p.rate ≤ 100)
    ∧ (0 ≤ p.uStart ∧ p.uStart ≤ 1000) ∧ (1 ≤ p.decay ∧ p.decay ≤ 50) ∧ (-300 ≤ p.ffIso ∧ p.ffIso ≤ 300)
    ∧ (-300 ≤ p.ffChg ∧ p.ffChg ≤ 300) ∧ (-300 ≤ p.ffEnd ∧ p.ffEnd ≤ 300) ∧ (-250 ≤ p.pLow ∧ p.pLow ≤ 200)
    ∧ (0 ≤ p.pHigh ∧ p.pHigh ≤ 700) ∧ (100 ≤ p.pFlare ∧ p.pFlare ≤ 750) ∧ (10 ≤ p.hysteresis ∧ p.hysteresis ≤ 100)
    ∧ p.uMin < p.uMax ∧ p.pLow < p.setpoint ∧ p.setpoint < p.pHigh ∧ p.pHigh < p.pFlare := by
  simp only [pressureOk, withinInt, Bool.and_eq_true, decide_eq_true_eq, and_assoc]

/-- The state with a TIMING block's values written and the block entered. -/
def timed (s : State) (v : Timing) : State := { s with
  cfg.timing := v
  cfg.loaded.timing := true }

/-- The isolate timer moved by a change of L_iso (R133). -/
def movedIsolate (s : State) (old v : Timing) : State :=
  match s.ofu.iso, s.pln.reported with
  | some _, some (n, due) => if old.lIso = v.lIso then s else s.setIsolate n (due - v.lIso)
  | _, _ => s

theorem movedIsolate_eq {s : State} {now : Nat} (time : s.now = now) (old v : Timing) : s.movedIsolate old v =
    match s.ofu.iso, s.pln.reported with
    | some _, some (o, due) =>
      if old.lIso = v.lIso then s
      else if due - v.lIso ≤ now then ({ s with ofu.iso := none } : State).offerValve o .isolate
      else { s with ofu.iso := some ⟨o, due - v.lIso⟩ }
    | _, _ => s := by
  subst time
  rfl

theorem takeTiming_config {s : State} (config : s.inRun = false) (v : Timing) : takeTiming v s = s.timed v :=
  if_neg (show ¬ (s.timed v).inRun = true from Bool.eq_false_iff.mp config)

theorem takeTiming_run {s : State} (run : s.inRun = true) (v : Timing) : takeTiming v s =
    ((if s.cfg.timing.w = v.w ∧ s.cfg.timing.l = v.l then s.timed v else (s.timed v).readySweep).movedIsolate
      s.cfg.timing v).retest :=
  if_pos (show (s.timed v).inRun = true from run)

theorem movedIsolate_keeps (s : State) (old v : Timing) :
    (s.movedIsolate old v).ot = s.ot ∧ (s.movedIsolate old v).cfg = s.cfg := by
  unfold movedIsolate
  split
  · split
    · exact ⟨rfl, rfl⟩
    · simp
  · exact ⟨rfl, rfl⟩

theorem allFree_iff (s : State) : s.allFree = true ↔ ∀ b ∈ s.qnu.bays, ∃ t, b = .free t := by
  simp only [allFree, List.all_eq_true]
  refine forall_congr' fun b => imp_congr_right fun _ => ?_
  cases b <;> simp

theorem takeWharf_same {s : State} {w : WharfVals} (same : w.bays = s.qnu.bays.length) : takeWharf w s =
    State.ok { s with
      qnu.vals := w
      cfg.loaded.wharf := true } :=
  if_pos same

theorem takeWharf_busy {s : State} {w : WharfVals} (other : w.bays ≠ s.qnu.bays.length)
    (used : ¬ ∀ b ∈ s.qnu.bays, ∃ t, b = .free t) : takeWharf w s = s.refuse .busy :=
  (if_neg other).trans (if_neg (mt s.allFree_iff.mp used))

theorem takeWharf_rebuilds {s : State} {w : WharfVals} (other : w.bays ≠ s.qnu.bays.length)
    (free : ∀ b ∈ s.qnu.bays, ∃ t, b = .free t) : takeWharf w s = State.ok { s with
      qnu := { s.qnu with
        vals := w, bays := List.replicate w.bays (.free s.now), free := numbers 1 w.bays, discharge := [] }
      cfg.loaded.wharf := true } :=
  (if_neg other).trans (if_pos (s.allFree_iff.mpr free))

end State

/-- Settles O58. -/
theorem setupBlocksReplaceTheirValues : Obligations.SetupBlocksReplaceTheirValues := by
  unfold Obligations.SetupBlocksReplaceTheirValues
  intro s tag room h within between ok refused
  have sameLoaded : h.cfg.loaded.battery = s.cfg.loaded.battery := by simp [h]
  have sameRun : h.inRun = s.inRun := supervisorHeard_inRun s
  have timing (v : Timing) : requestEffect (.timing tag v) h = setup false (timingOk v) (fun u => (takeTiming v u).ok) h := rfl
  have doors (d : DoorVals) : requestEffect (.doors tag d) h = setup false (doorsOk d) (fun u => (takeDoors d u).ok) h := rfl
  have pressure (k : Nat) (p : PressureParams) : requestEffect (.pressure tag k p) h = setup false (pressureOk p)
    (fun u => if Machine.within 1 u.nSec k then (takePressure k p u).ok else u.refuse .range) h := rfl
  have wharf (w : WharfVals) : requestEffect (.wharf tag w) h = setup true (wharfOk w) (takeWharf w) h := rfl
  refine ⟨fun unloaded v d k p w => ?_, fun loaded => ?_⟩
  · have absent := sameLoaded.trans unloaded
    exact ⟨exec_answered rfl room ((timing v).trans (setup_order absent ..)),
      exec_answered rfl room ((doors d).trans (setup_order absent ..)),
      exec_answered rfl room ((pressure k p).trans (setup_order absent ..)),
      exec_answered rfl room ((wharf w).trans (setup_order absent ..))⟩
  · have battery := sameLoaded.trans loaded
    have timing (v : Timing) := (timing v).trans (setup_always battery (timingOk v))
    have doors (d : DoorVals) := (doors d).trans (setup_always battery (doorsOk d))
    have pressure (k : Nat) (p : PressureParams) := (pressure k p).trans (setup_always battery (pressureOk p))
    refine ⟨fun v => ?_, fun d => ?_, fun k p => ?_, fun w => ?_⟩
    · intro good
      refine ⟨fun bad => ?_, fun fits config => ?_, fun fits run => ?_⟩
      · exact exec_answered rfl room ((timing v).trans (if_neg (mt (timingOk_iff v).mp bad)))
      · refine exec_answered rfl room ((timing v).trans ((if_pos ((timingOk_iff v).mpr fits)).trans ?_))
        exact congrArg State.ok (takeTiming_config (sameRun.trans config) v)
      · intro entered same swept moved by_
        have running := sameRun.trans run
        have sweptIs : swept = if same then entered else entered.readySweep := by rw [readySweep_eq]; rfl
        have kept : swept.now = h.now ∧ swept.cfg = entered.cfg := by
          rw [sweptIs]
          split
          · exact ⟨rfl, rfl⟩
          · exact ⟨by simp [now, entered], by simp⟩
        have movedIs : moved = swept.movedIsolate h.cfg.timing v :=
          (movedIsolate_eq kept.1 h.cfg.timing v).symm
        have took : takeTiming v h = moved.retest := by rw [movedIs, sweptIs]; exact takeTiming_run running v
        obtain ⟨table, cfg⟩ := swept.movedIsolate_keeps h.cfg.timing v
        refine ⟨?_, ?_, ?_⟩
        · refine exec_answered rfl room ((timing v).trans ((if_pos ((timingOk_iff v).mpr fits)).trans ?_))
          exact congrArg State.ok took
        · rw [movedIs]
          simp [cfg, kept.2]
        · have ot : moved.retest.ot = swept.ot := by rw [movedIs]; simp [table]
          rw [ot, sweptIs]
          split
          · rfl
          · rw [readySweep_ot]
            exact List.map_congr_left fun o _ => sweptRec_run (s := entered) running o
    · intro good
      exact ⟨fun bad => exec_answered rfl room ((doors d).trans (if_neg (mt (doorsOk_iff d).mp bad))),
        fun fits => exec_answered rfl room ((doors d).trans (if_pos ((doorsOk_iff d).mpr fits)))⟩
    · intro good
      have decides : good ↔ pressureOk p = true ∧ (h.sec k).isSome = true := by
        rw [pressureOk_iff]
        simp only [good, between, and_assoc]
      have inTable : Machine.within 1 h.nSec k = (h.sec k).isSome := within_nSec h k
      refine ⟨fun bad => ?_, fun fits => ?_⟩
      · by_cases range : pressureOk p = true
        · refine exec_answered rfl room ((pressure k p).trans ((if_pos range).trans (if_neg fun inside => ?_)))
          exact bad (decides.mpr ⟨range, inTable.symm.trans inside⟩)
        · exact exec_answered rfl room ((pressure k p).trans (if_neg range))
      · obtain ⟨range, present⟩ := decides.mp fits
        exact exec_answered rfl room ((pressure k p).trans ((if_pos range).trans (if_pos (inTable.trans present))))
    · intro good allFree
      have config (c : s.inRun = false) := (wharf w).trans (setup_config battery (sameRun.trans c) (wharfOk w))
      refine ⟨fun run => exec_answered rfl room ((wharf w).trans (setup_state battery (sameRun.trans run) _)),
        fun c bad => exec_answered rfl room ((config c).trans (if_neg (mt (wharfOk_iff w).mp bad))),
        fun c fits same => ?_, fun c fits other used => ?_, fun c fits other free => ?_⟩
      all_goals have taken := (config c).trans (if_pos ((wharfOk_iff w).mpr fits))
      · exact exec_answered rfl room (taken.trans (takeWharf_same same))
      · exact exec_answered rfl room (taken.trans (takeWharf_busy other used))
      · exact exec_answered rfl room (taken.trans (takeWharf_rebuilds other free))

end Sys2Proof.Machine
end

section
/-! SUPPORT. COMMIT and RESTART. -/

namespace Sys2Proof.Machine

open Sys2Proof State

/-- A section at COMMIT, with the level and the counters it had, if any (R124). -/
theorem activated_eq (r : SecRec) : State.activated r = match r.params with
    | none => r
    | some par => { r with
      integ := max 0 (min 256000 ((par.uStart - r.ff) * 256))
      live := some ⟨if r.sensorFault then .hold .fault else .auto, if r.sensorFault then none else some false, par.uStart,
        (r.live.map SecLive.level).getD .normal, (r.live.map SecLive.counters).getD ⟨0, 0, 0, 0⟩⟩ } := by
  unfold State.activated
  cases r.params with
  | none => rfl
  | some par => cases r.live <;> rfl

namespace State

/-! ## The steps of COMMIT (R184) -/

theorem commitDoorsFrom_eq (d : Side) (l : List Nat) (s : State) : commitDoorsFrom d l s = l.foldl (fun x n =>
    if x.doorState n d = some .leaking then x.offerTask d n .reseal else x) s := by
  induction l generalizing s with
  | nil => rfl
  | cons n l ih => exact ih _

theorem offerWhere_eq {pick : State → Nat → Bool} {wants : State → Nat → Prop} [∀ s n, Decidable (wants s n)]
    (h : ∀ s n, pick s n = true ↔ wants s n) (a : ValveAction) (l : List Nat) (s : State) :
    offerWhere pick a l s = l.foldl (fun x n => if wants x n then x.offerValve n a else x) s := by
  induction l generalizing s with
  | nil => rfl
  | cons n l ih =>
    rw [offerWhere, ih, List.foldl_cons]
    exact congrArg (l.foldl _) (if_congr (h s n) rfl rfl)

theorem wantsAspirate_iff (s : State) (n : Nat) :
    s.wantsAspirate n = true ↔ s.ovenState n = some .empty ∧ s.valveState n ≠ some .aspirating := by
  simp [wantsAspirate, ovenIs]

theorem wantsNormal_iff (s : State) (n : Nat) : s.wantsNormal n = true
    ↔ (s.ovenState n = some .coking ∨ s.ovenState n = some .ready)
      ∧ (s.valveState n = some .closed ∨ s.valveState n = some .aspirating) := by
  simp [wantsNormal, ovenIs]

theorem activateSections_eq {s : State} {started : SecRec → SecRec} (starts : ∀ r, activated r = started r) :
    s.activateSections = { s with
    trm := s.trm.map fun r => match r.fn with
      | .damperPwm k => match s.sec k with
        | some x => if x.live = none then { r with duty := x.params.map PressureParams.uStart } else r
        | none => r
      | _ => r
    ofu.sections := s.ofu.sections.map started } := by
  obtain rfl : activated = started := funext starts
  have duty : s.startDuty = fun r => match r.fn with
      | .damperPwm k => match s.sec k with
        | some x => if x.live = none then { r with duty := x.params.map PressureParams.uStart } else r
        | none => r
      | _ => r := by
    funext r
    unfold startDuty
    cases r.fn with
    | damperPwm k =>
      dsimp only
      cases s.sec k with
      | none => rfl
      | some x => exact if_congr Option.isNone_iff_eq_none rfl rfl
    | _ => rfl
  unfold activateSections
  rw [duty]

/-! ## What is missing at a COMMIT (R183, R167) -/

theorem assigned_iff (s : State) (fn : TermFn) : s.assigned fn = true ↔ ∃ r ∈ s.trm, r.fn = fn := by
  simp [assigned, terminalOf, List.findIdx?_isSome]

theorem mem_missingFns (s : State) (fn : TermFn) :
    fn ∈ s.missingFns ↔ fn ∈ s.requiredFns ∧ ¬ ∃ r ∈ s.trm, r.fn = fn := by
  rw [missingFns, List.mem_filter, Bool.not_eq_true', ← Bool.not_eq_true, assigned_iff]

theorem battery_mem_missingBlocks (s : State) : MissingBlock.battery ∈ s.missingBlocks ↔ s.cfg.loaded.battery = false := by
  cases loaded : s.cfg.loaded.battery <;> simp [missingBlocks, loaded]

theorem pressure_mem_missingBlocks (s : State) (k : Nat) :
    MissingBlock.pressure k ∈ s.missingBlocks ↔ 1 ≤ k ∧ k ≤ s.nSec ∧ k ∉ s.cfg.loaded.pressure := by
  have listed : k ∈ numbers 1 s.nSec ↔ 1 ≤ k ∧ k ≤ s.nSec := mem_numbers
  cases loaded : s.cfg.loaded.battery <;> simp [missingBlocks, loaded, listed, and_assoc]

theorem nothingMissing_iff (s : State) : (s.missingBlocks.isEmpty && s.missingFns.isEmpty) = true
    ↔ s.cfg.loaded.battery = true ∧ (∀ k, 1 ≤ k → k ≤ s.nSec → k ∈ s.cfg.loaded.pressure)
      ∧ ∀ fn ∈ s.requiredFns, ∃ r ∈ s.trm, r.fn = fn := by
  rw [Bool.and_eq_true, List.isEmpty_iff, List.isEmpty_iff]
  constructor
  · rintro ⟨blocks, fns⟩
    refine ⟨?_, fun k low high => ?_, fun fn mem => ?_⟩
    · refine Bool.not_eq_false _ ▸ fun absent => ?_
      exact List.not_mem_nil (blocks ▸ s.battery_mem_missingBlocks.mpr absent)
    · by_contra absent
      exact List.not_mem_nil (blocks ▸ (s.pressure_mem_missingBlocks k).mpr ⟨low, high, absent⟩)
    · by_contra absent
      exact List.not_mem_nil (fns ▸ (s.mem_missingFns fn).mpr ⟨mem, absent⟩)
  · rintro ⟨battery, pressure, fns⟩
    refine ⟨List.eq_nil_iff_forall_not_mem.mpr fun b mem => ?_, List.eq_nil_iff_forall_not_mem.mpr fun fn mem => ?_⟩
    · cases b with
      | battery => simp [s.battery_mem_missingBlocks.mp mem] at battery
      | pressure k =>
        obtain ⟨low, high, absent⟩ := (s.pressure_mem_missingBlocks k).mp mem
        exact absent (pressure k low high)
    · obtain ⟨needed, absent⟩ := (s.mem_missingFns fn).mp mem
      exact absent (fns fn needed)

theorem commitOp_run {s : State} (run : s.inRun = true) : commitOp s = s.refuse .state := if_pos run

theorem commitOp_enters {s : State} (config : s.inRun = false)
    (complete : (s.missingBlocks.isEmpty && s.missingFns.isEmpty) = true) : commitOp s = s.enterRun.ok :=
  (if_neg (by simp [config])).trans (if_pos complete)

theorem commitOp_missing {s : State} (config : s.inRun = false)
    (missing : ¬ (s.missingBlocks.isEmpty && s.missingFns.isEmpty) = true) :
    commitOp s = (s, ⟨.missing, .missing s.missingBlocks s.missingFns, none⟩) :=
  (if_neg (by simp [config])).trans (if_neg missing)

/-! ## The obstacle to a RESTART (R185) -/

theorem ovenIs_inTable {s : State} {n : Nat} {st : OvenState} (h : s.ovenIs n st = true) : n ∈ numbers 1 s.nOv := by
  have state : (s.ovenState n).isSome = true := by
    rw [show s.ovenState n = some st by simpa [ovenIs] using h]
    rfl
  have inTable : (nth1 s.ot n).isSome = true := by simpa [ovenState, oven] using state
  rw [nth1_isSome, Bool.and_eq_true, decide_eq_true_eq, decide_eq_true_eq] at inTable
  exact mem_numbers.mpr inTable

/-- The lowest oven in a state. -/
theorem firstOven_some {s : State} {st : OvenState} {n : Nat}
    (h : (numbers 1 s.nOv).find? (fun n => s.ovenIs n st) = some n) :
    s.ovenIs n st = true ∧ ∀ j, j < n → s.ovenIs j st = false := by
  obtain ⟨here, i, lt, at0, before⟩ := List.find?_eq_some_iff_getElem.mp h
  refine ⟨here, fun j below => Bool.eq_false_iff.mpr fun is => ?_⟩
  have place (k : Nat) (hk : k < (numbers 1 s.nOv).length) : (numbers 1 s.nOv)[k] = k + 1 := by simp [numbers]
  have low := (mem_numbers.mp (ovenIs_inTable is)).1
  have same : n = i + 1 := by rw [← at0, place i lt]
  have no := before (j - 1) (by omega)
  rw [place (j - 1) (by omega), show j - 1 + 1 = j by omega, is] at no
  exact absurd no (by simp)

theorem firstOven_none {s : State} {st : OvenState}
    (h : (numbers 1 s.nOv).find? (fun n => s.ovenIs n st) = none) (j : Nat) : s.ovenIs j st = false :=
  Bool.eq_false_iff.mpr fun is => List.find?_eq_none.mp h j (ovenIs_inTable is) is

theorem restartOp_config {s : State} (config : s.inRun = false) : restartOp s = s.refuse .state :=
  if_pos (by simp [config])

theorem restartOp_obstacle {s : State} {o : Obstacle} (run : s.inRun = true) (obstacle : s.obstacle = some o) :
    restartOp s = (s, ⟨.busy, .obstacle o, none⟩) := by
  simp only [restartOp, run, obstacle]
  rfl

theorem restartOp_enters {s : State} (run : s.inRun = true) (free : s.obstacle = none) : restartOp s = s.enterConfig.ok := by
  simp only [restartOp, run, free]
  rfl

/-! ## The machines at a RESTART (R69) -/

theorem dispatchFor_config {s : State} (config : s.inRun = false) (m : MachineId) : s.dispatchFor m = s := by
  cases m with
  | pm | gc => exact dispatchDoor_busy fun free => absurd free.1 (by simp [config])
  | cc => exact dispatchValve_busy fun free => absurd free.1 (by simp [config])
  | qc => rfl

/-- In CONFIG a revocation leaves the door unit as it is. -/
theorem revoke_dru {s : State} (config : s.inRun = false) (m : MachineId) (r : Reason) : (s.revoke m r).dru = s.dru := by
  unfold revoke
  cases s.permit m with
  | none => rfl
  | some p =>
    dsimp only
    split
    · rw [dispatchFor_config (by simpa [inRun] using config)]
      simp
    · rw [dispatchFor_config (by simpa [inRun] using config)]
      simp

theorem revokeAll_dru {s : State} (config : s.inRun = false) (r : Reason) : (s.revokeAll r).dru = s.dru := by
  unfold revokeAll
  rw [revoke_dru (by simpa [inRun] using config), revoke_dru (by simpa [inRun] using config), revoke_dru config]

theorem revokeAll_permit (s : State) (r : Reason) {m : MachineId} (other : m ≠ .qc) : (s.revokeAll r).permit m = none := by
  unfold revokeAll
  simp only [revoke_permit]
  cases m <;> simp_all

end State

namespace State

theorem sendClears_linked (s : State) (c : HoldCause) : s.sendClears c =
    let clears := s.sendAllOnline (.clear c)
    if s.unconfirmed = true ∧ clears.online .pm = true then clears.send .pm (.stop .linkLoss) else clears := by
  have sameLink : (s.sendAllOnline (.clear c)).online .pm = s.online .pm := by simp [online, mlink]
  rw [sendClears_eq]
  dsimp only
  rw [sameLink]

/-- The planner at RESTART (R46). -/
theorem planRestart_eq {s : State} {p : Planner} (planner : s.pln = p) : s.planRestart =
    { (match p.range with
      | some r => s.raise (.rangeDone r.first r.last r.mode r.setCount r.skipCount r.left true)
      | none => s) with pln := { p with
        state := .idle, round := none, cursor := none, dueTimer := none, holdOver := none, lag := 0, serving := none
        makeup := [], reported := none, range := none } } := by
  subst planner
  unfold planRestart
  cases range : s.pln.range with
  | none => exact congrArg (fun x => { s with pln := { s.pln with
      state := .idle, round := none, cursor := none, dueTimer := none, holdOver := none, lag := 0, serving := none
      makeup := [], reported := none, range := x } }) range
  | some r =>
    dsimp only [rangeEnd]
    rw [raise_updPlan]
    exact (raise_updPlan s _ fun _ => { s.pln with
      state := .idle, round := none, cursor := none, dueTimer := none, holdOver := none, lag := 0, serving := none
      makeup := [], reported := none, range := none }).symm

theorem withdrawMove_eq (s : State) : s.withdrawMove = { s with qnu.car.move := match s.qnu.car.move with
    | .issued _ _ => .pending
    | x => x } := by
  unfold withdrawMove
  cases move : s.qnu.car.move with
  | issued t timer => rfl
  | none | pending => simp only [← move]

end State

/-- Settles O59. -/
theorem commitAndRestart : Obligations.CommitAndRestart := by
  unfold Obligations.CommitAndRestart
  refine ⟨fun s d => ?_, fun s => ?_, readySweep_eq, fun s tag room => ?_⟩
  · intro offered timed
    have offers : commitDoorsFrom d (numbers 1 s.nOv) s = offered := commitDoorsFrom_eq d _ s
    simp only [commitDoors, offers]
    rfl
  · intro aspirated
    have first : offerWhere wantsAspirate .aspirate (numbers 1 s.nOv) s = aspirated := offerWhere_eq wantsAspirate_iff _ _ s
    refine congrArg dispatchValve ?_
    rw [first]
    exact offerWhere_eq wantsNormal_iff _ _ aspirated
  · intro h stands needed complete started obstructed
    have sameRun : h.inRun = s.inRun := supervisorHeard_inRun s
    have commit : requestEffect (.commit tag) h = commitOp h := rfl
    have restart : requestEffect (.restart tag) h = restartOp h := rfl
    have completes : complete ↔ (h.missingBlocks.isEmpty && h.missingFns.isEmpty) = true := h.nothingMissing_iff.symm
    refine ⟨fun run => ?_, fun config lacks => ?_, fun config has => ?_, fun config => ?_, fun run blocked => ?_,
      fun run free => ?_⟩
    · exact exec_answered rfl room (commit.trans (commitOp_run (sameRun.trans run)))
    · refine ⟨h.missingBlocks, h.missingFns, ?_, h.battery_mem_missingBlocks, h.pressure_mem_missingBlocks, h.mem_missingFns⟩
      exact exec_answered rfl room (commit.trans (commitOp_missing (sameRun.trans config) (mt completes.mpr lacks)))
    · intro run swept clears freed sides taken u
      let base : State := { run with tb.timeOpen := false }
      have freedIs : (if swept.hold = true then swept else swept.sendClears .config) = freed :=
        if_congr Iff.rfl rfl (swept.sendClears_linked .config)
      have takenIs : sides.activateSections = taken := activateSections_eq activated_eq
      have enters : h.enterRun = u := by
        show ((((if swept.hold = true then swept else swept.sendClears .config).commitDoors .ps).commitDoors
          .cs).activateSections.retest.commitValves).leaveUnknown.testMove.testDump = u
        rw [freedIs]
        exact congrArg (fun w => w.retest.commitValves.leaveUnknown.testMove.testDump) takenIs
      have kept : freed.tb = swept.tb ∧ freed.cfg = swept.cfg ∧ freed.ot = swept.ot ∧ freed.ilk = swept.ilk
          ∧ freed.ofu = swept.ofu := by
        rw [← freedIs]
        split <;> simp
      obtain ⟨time, cfg, table, ilk, ofu⟩ := kept
      have sweptTb : swept.tb = { h.tb with timeOpen := false } := by
        simp only [swept, run, readySweep_frame, raise_frame]
      have sweptCfg : swept.cfg = { h.cfg with part := .run } := by
        simp only [swept, run, readySweep_frame, raise_frame]
      have sweptSections : swept.ofu.sections = h.ofu.sections := by
        simp only [swept, run, readySweep_frame, raise_frame]
      have sweptStop : swept.ilk.stop = h.ilk.stop := by
        simp only [swept, run, readySweep_frame, raise_frame]
      have uCfg : u.cfg = { h.cfg with part := .run } := by
        rw [← sweptCfg, ← cfg]
        simp [u, taken, sides]
      have uTb : u.tb = { h.tb with timeOpen := false } := by
        rw [← sweptTb, ← time]
        simp [u, taken, sides]
      refine ⟨?_, by simp [inRun, uCfg], uTb, uCfg, ?_, fun k o present heated => ?_, ?_⟩
      · refine exec_answered rfl room (commit.trans ((commitOp_enters (sameRun.trans config) (completes.mp has)).trans ?_))
        exact congrArg State.ok enters
      · rw [← sweptSections, ← ofu]
        simp [u, taken, sides]
      · have ovens : u.ot = h.ot.map base.sweptRec := by
          have swept0 : swept.ot = base.ot.map base.sweptRec := readySweep_ot base
          have uOt : u.ot = swept.ot := by simp [u, taken, sides, table]
          rw [uOt, swept0]
          simp [base, run]
        have record : u.oven k = some (base.sweptRec o) := by
          have at0 : nth1 h.ot k = some o := present
          rw [oven, ovens]
          cases k with
          | zero => simp [nth1] at at0
          | succ i => simpa [nth1] using congrArg (Option.map base.sweptRec) at0
        have running : base.inRun = true := by simp [inRun, base, run]
        rw [ovenState, record, sweptRec_run running, if_pos heated]
        simp [base, run, now]
      · rw [← sweptStop, ← ilk]
        simp [u, taken, sides]
    · exact exec_answered rfl room (restart.trans (restartOp_config (sameRun.trans config)))
    · have running := sameRun.trans run
      have busy {o : Obstacle} (obstacle : h.obstacle = some o) : exec (.restart tag) s = answered tag .busy (.obstacle o) h :=
        exec_answered rfl room (restart.trans (restartOp_obstacle running obstacle))
      cases pushing : (numbers 1 h.nOv).find? (fun n => h.ovenIs n .pushing) with
      | some n => exact ⟨.pushing n, busy (by simp only [obstacle, pushing]), firstOven_some pushing⟩
      | none =>
        have noPush := firstOven_none pushing
        cases charging : (numbers 1 h.nOv).find? (fun n => h.ovenIs n .charging) with
        | some n =>
          obtain ⟨here, before⟩ := firstOven_some charging
          exact ⟨.charging n, busy (by simp only [obstacle, pushing, charging]), here, noPush, before⟩
        | none =>
          have noCharge := firstOven_none charging
          have obstructs : carObstructs h.qnu.car.state = true := by
            rcases blocked with ⟨n, is⟩ | ⟨n, is⟩ | car
            · rw [noPush n] at is
              exact absurd is (by simp)
            · rw [noCharge n] at is
              exact absurd is (by simp)
            · revert car
              cases h.qnu.car.state <;> simp [carObstructs]
          exact ⟨.car h.qnu.car.state, busy (by simp only [obstacle, pushing, charging, obstructs, if_true]), rfl,
            fun j => ⟨noPush j, noCharge j⟩⟩
    · intro told ended idle stopped moved sealed u
      have running := sameRun.trans run
      have clear : h.obstacle = none := by
        have noPush : (numbers 1 h.nOv).find? (fun n => h.ovenIs n .pushing) = none :=
          List.find?_eq_none.mpr fun n _ is => free (.inl ⟨n, is⟩)
        have noCharge : (numbers 1 h.nOv).find? (fun n => h.ovenIs n .charging) = none :=
          List.find?_eq_none.mpr fun n _ is => free (.inr (.inl ⟨n, is⟩))
        have noCar : ¬ carObstructs h.qnu.car.state = true := fun obstructs => free <| .inr <| .inr <| by
          revert obstructs
          cases h.qnu.car.state <;> simp [carObstructs]
        simp only [obstacle, noPush, noCharge, if_neg noCar]
      have planned : told.planRestart = idle := by
        have pln : told.pln = h.pln := by simp [told]
        exact planRestart_eq pln
      have enters : h.enterConfig = u := by
        show ((told.planRestart.revokeAll .restart).holdStarts .config).doorRestart.holdSections.valveRestart = u
        have moves : (idle.revokeAll .restart).holdStarts .config = moved := withdrawMove_eq stopped
        rw [planned, moves]
        rfl
      have endedIs : ended.tb = h.tb ∧ ended.ot = h.ot ∧ ended.trm = h.trm ∧ ended.cfg = { h.cfg with part := .config }
          ∧ ended.ilk = h.ilk ∧ ended.dru = h.dru ∧ ended.ofu = h.ofu := by
        cases range : h.pln.range <;> simp [ended, told, range]
      obtain ⟨time, table, terms, cfg, ilk, dru, ofu⟩ := endedIs
      have config : idle.inRun = false := by simp [idle, inRun, cfg]
      have movedPermit (m : MachineId) (other : m ≠ .qc) : moved.permit m = none := by
        simpa [moved, stopped, permit] using revokeAll_permit idle .restart other
      have movedDru : moved.dru = h.dru := by
        have quiet : (idle.revokeAll .restart).dru = idle.dru := revokeAll_dru config .restart
        simpa [moved, stopped, idle, dru] using quiet
      have movedIs : moved.tb = h.tb ∧ moved.ot = h.ot ∧ moved.trm = h.trm ∧ moved.cfg = { h.cfg with part := .config }
          ∧ moved.pln = idle.pln ∧ moved.ilk.machines = h.ilk.machines ∧ moved.ofu.valves = h.ofu.valves
          ∧ moved.ofu.sections = h.ofu.sections := by
        simp [moved, stopped, idle, time, table, terms, cfg, ilk, ofu]
      obtain ⟨uTb, uOt, uTrm, uCfg, uPln, uMachines, uValves, uSections⟩ := movedIs
      have off : u.inRun = false := by simp [u, inRun, uCfg]
      have leaves (d : Side) : u.queue d = [] ∧ u.round d = { h.round d with visit := none } := by
        cases d <;> simp [u, queue, State.round, Pair.get, movedDru]
      refine ⟨exec_answered rfl room
        (restart.trans ((restartOp_enters running clear).trans (congrArg State.ok enters))), off, uTb, uOt, uTrm, uCfg,
        fun m other => movedPermit m other, by simp [hold, off], uMachines, ?_, ?_, ?_, ?_, ?_, ?_, ?_, ?_,
        leaves, rfl, rfl, rfl, uValves, ?_⟩
      iterate 8 exact (congrArg _ uPln).trans rfl
      exact congrArg (List.map _) uSections

end Sys2Proof.Machine
end

section
/-! SUPPORT. The terminals: the stop condition, the levels and states of outputs, the inputs and the blocks. -/

namespace Sys2Proof.Machine

open Sys2Proof State

namespace State

/-! ## The stop condition (R62, R63, R86) -/

theorem holdTimer_eq {s : State} {now : Nat} (time : s.now = now) : s.holdTimer = match s.ilk.push with
    | some p => match p.timer with
      | .running e => s.setPush (some { p with timer := .held (e - now) })
      | _ => s
    | none => s := by
  subst time
  cases push : s.ilk.push with
  | none =>
    simp only [holdTimer, updPush, setPush, push, Option.map_none]
    exact congrArg (fun p => { s with ilk.push := p }) push.symm
  | some p =>
    have same : s.setPush (some p) = s := congrArg (fun x => { s with ilk.push := x }) push.symm
    cases timer : p.timer with
    | running e => simp only [holdTimer, updPush, push, Option.map_some, timer]
    | absent | held r => simpa only [holdTimer, updPush, push, Option.map_some, timer] using same

/-- A held timer runs again unless a cause holds it yet (R86). -/
theorem resumeTimer_eq {s : State} (stop : s.ilk.stop = false) {now : Nat} (time : s.now = now) {push : Option PushRec}
    (record : s.ilk.push = push) : s.resumeTimer = match (generalizing := false) push with
    | some p => match p.unconfirmed, p.timer with
      | false, .held r => if r = 0 then s.stageExpire { p with timer := .running (min tMax now) }
        else s.setPush (some { p with timer := .running (min tMax (now + r)) })
      | _, _ => s
    | none => s := by
  subst time
  unfold resumeTimer
  cases push with
  | none => simp [timerHeld, unconfirmed, stop, record]
  | some p =>
    cases confirmed : p.unconfirmed with
    | true => simp [timerHeld, unconfirmed, stop, record, confirmed]
    | false =>
      have free : s.timerHeld = false := by simp [timerHeld, unconfirmed, stop, record, confirmed]
      cases timer : p.timer with
      | absent | running e => simp [free, record, confirmed, timer]
      | held r => by_cases last : r = 0 <;> simp [free, record, confirmed, timer, last, timeAdd]

theorem stopFollows_same (s : State) : s.stopFollows s.ilk.stop = s := if_pos rfl

theorem stopFollows_sets {s : State} (stop : s.ilk.stop = false) : s.stopFollows true = s.stopSets :=
  (if_neg (by simp [stop])).trans (if_pos rfl)

theorem stopFollows_clears {s : State} (stop : s.ilk.stop = true) : s.stopFollows false = s.stopClears :=
  (if_neg (by simp [stop])).trans (if_neg (by simp))

@[simp] theorem stopSets_stop (s : State) : s.stopSets.ilk.stop = true := by
  unfold stopSets
  dsimp only
  split <;> simp

@[simp] theorem stopClears_stop (s : State) : s.stopClears.ilk.stop = false := by
  unfold stopClears
  simp

theorem stopFollows_stop (s : State) (active : Bool) : (s.stopFollows active).ilk.stop = active := by
  unfold stopFollows
  split
  · next same => exact same.symm
  · cases active <;> simp

theorem stopSets_permit (s : State) {m : MachineId} (other : m ≠ .qc) : s.stopSets.permit m = none := by
  have revoked := revokeAll_permit (({ s with ilk.stop := true } : State).raise (.batteryStop true)) .stopped other
  simp only [permit] at revoked
  unfold stopSets
  dsimp only
  split <;> simp [permit, revoked]

/-! ## Output terminals (R164) -/

theorem driven_eq (s : State) (r : TermRec) : s.driven r.fn = match r.fn with
    | .output => true
    | .sprayOut => true
    | .damperPwm k => ((s.sec k).bind SecRec.live).isSome
    | .flareOut k => ((s.sec k).bind SecRec.live).isSome
    | .lowAlarm k => ((s.sec k).bind SecRec.live).isSome
    | .gateOut b => (s.bay b).isSome
    | _ => false := by
  cases r.fn <;> rfl

/-- The ends of a pulse train's duty: without a duty and at 0 it is off, at 1000 it is on (R115). -/
theorem pulseLevel_ends (s : State) (r : TermRec) : s.pulseLevel r = match r.duty with
    | none => false
    | some d => if d ≤ 0 then false else if 1000 ≤ d then true else s.pulseLevel r := by
  cases duty : r.duty with
  | none => simp [pulseLevel, duty]
  | some d =>
    by_cases off : d ≤ 0
    · simp [pulseLevel, duty, off]
    · have above : 0 < d := not_le.mp off
      by_cases on : 1000 ≤ d
      · simp [pulseLevel, duty, on, off, above]
      · simp [off, on]

theorem termState_pulse {s : State} {r : TermRec} {k : Nat} (fn : r.fn = .damperPwm k) :
    s.termState r = some (if r.fault || !s.driven r.fn then .released else .pulsed r.duty) := by
  simp only [termState, fn]

theorem termState_switched {s : State} {r : TermRec} (fn : ∀ k, r.fn ≠ .damperPwm k) :
    s.termState r = (s.outputLevel r).map fun on => if r.fault || !s.driven r.fn then .released
      else if on != r.invert then .energised else .deEnergised := by
  unfold termState
  split
  · next k is => exact absurd is (fn k)
  · rfl

theorem outputLevel_pulse {s : State} {r : TermRec} {k : Nat} (fn : r.fn = .damperPwm k) :
    s.outputLevel r = some (((s.sec k).bind SecRec.live).isSome && s.pulseLevel r) := by
  simp only [outputLevel, fn, driven]

theorem canOverload_iff (s : State) (r : TermRec) : s.canOverload r = true
    ↔ s.termState r = some .energised ∨ ∃ d, s.termState r = some (.pulsed d) ∧ (match d with
        | some d => if r.invert = true then d < 1000 else 0 < d
        | none => r.invert = true) := by
  unfold canOverload
  cases state : s.termState r with
  | none => simp
  | some x =>
    cases x with
    | energised | deEnergised | released => simp
    | pulsed d =>
      cases d with
      | none => simp
      | some d => by_cases invert : r.invert = true <;> simp [invert]

theorem outputLevel_eq (s : State) (r : TermRec) : s.outputLevel r = match r.fn with
    | .output => some r.out
    | .damperPwm k => if ((s.sec k).bind SecRec.live).isSome = false then some false else match r.duty with
      | none => some false
      | some d => if d ≤ 0 then some false else if 1000 ≤ d then some true else s.outputLevel r
    | .flareOut k => some (decide (s.level k = some .flare))
    | .lowAlarm k => some (decide (s.level k = some .low))
    | .sprayOut => some (decide (s.qnu.car.state = .quenching))
    | .gateOut b => some (match s.bay b with
      | some (.discharging ..) => true
      | _ => false)
    | _ => none := by
  cases fn : r.fn with
  | damperPwm k =>
    rw [outputLevel_pulse fn]
    dsimp only
    cases live : ((s.sec k).bind SecRec.live).isSome with
    | false => simp
    | true =>
      simp only [Bool.true_and, Bool.true_eq_false, if_false]
      have ends_ := s.pulseLevel_ends r
      cases duty : r.duty with
      | none => simpa only [duty] using congrArg some ends_
      | some d =>
        rw [duty] at ends_
        rw [ends_]
        dsimp only
        split_ifs <;> rfl
  | flareOut k | lowAlarm k | sprayOut => simp only [outputLevel, fn, ownedLevel, beq_eq_decide]
  | gateOut b =>
    have owned : s.outputLevel r = some (s.ownedLevel (.gateOut b)) := by simp only [outputLevel, fn]
    exact owned
  | _ => simp only [outputLevel, fn]

/-! ## Input terminals (R162) -/

theorem names_iff (e : Edge) (l : Bool) :
    Edge.names e l = true ↔ e = .both ∨ (e = .rise ∧ l = true) ∨ (e = .fall ∧ l = false) := by
  cases e <;> simp [Edge.names]

theorem interruptDischarge_eq (s : State) (b : Nat) : s.interruptDischarge b = match s.bay b with
    | some (.discharging o d c g) => (s.setBay b (.cooled o d c)).raise (.dischargeInterrupted b (g - s.now))
    | _ => s := rfl

theorem conveyorLost_eq (s : State) : s.conveyorLost = match s.qnu.discharge with
    | b :: _ => s.interruptDischarge b
    | [] => s := rfl

section
variable {s : State} {t : Nat} {r : TermRec} (present : s.term t = some r) (energised : Bool)
include present

theorem inputHolds_same (input : TermFn.filteredInput r.fn = true) (same : (energised != r.invert) = r.level) :
    s.inputHolds t energised = s.updTerm t fun x => { x with filtered := energised, level := energised != r.invert } := by
  simp only [inputHolds, present, input, if_true]
  exact if_pos same

theorem inputHolds_changes (input : TermFn.filteredInput r.fn = true) (changed : (energised != r.invert) ≠ r.level) :
    s.inputHolds t energised =
      (s.updTerm t fun x => { x with filtered := energised, level := energised != r.invert }).handLevel r.fn t r.edge
        (energised != r.invert) := by
  simp only [inputHolds, present, input, if_true]
  exact if_neg changed

theorem inputHolds_unassigned (unassigned : r.fn = .unassigned) :
    s.inputHolds t energised = s.updTerm t fun x => { x with filtered := energised } := by
  simp only [inputHolds, present, unassigned]
  rfl

theorem inputHolds_output (input : TermFn.filteredInput r.fn = false) (assigned : r.fn ≠ .unassigned) :
    s.inputHolds t energised = s := by
  simp only [inputHolds, present, input, if_neg assigned]
  rfl

theorem overload_faults (current : s.canOverload r = true) : s.overload t =
    (s.updTerm t fun x => { x with fault := true }).raise (.terminalFault t r.fn (!r.invert)) := by
  simp only [overload, present, current, if_true]

theorem overload_ignored (noCurrent : s.canOverload r = false) : s.overload t = s := by
  simp only [overload, present, noCurrent]
  rfl

end

/-! ## The terminal commands (R165, R166) -/

theorem clearTerminalOp_none {s : State} {t : Nat} (absent : s.term t = none) : clearTerminalOp t s = s.refuse .range := by
  simp only [clearTerminalOp, absent]

theorem writeOutput_none {s : State} {t : Nat} (absent : s.term t = none) (f : Bool → Bool) :
    writeOutput t f s = s.refuse .range := by
  simp only [writeOutput, absent]

section
variable {s : State} {t : Nat} {r : TermRec} (present : s.term t = some r)
include present

theorem writeOutput_other (other : r.fn ≠ .output) (f : Bool → Bool) : writeOutput t f s = s.refuse .function := by
  simp only [writeOutput, present, if_neg other]

theorem writeOutput_writes (output : r.fn = .output) (f : Bool → Bool) : writeOutput t f s =
    (s.updTerm t fun x => { x with out := f r.out }, .okWith (.output (f r.out) r.fault)) := by
  simp only [writeOutput, present, if_pos output]

theorem updTerm_out (f : Bool → Bool) :
    (s.updTerm t fun x => { x with out := f r.out }) = s.updTerm t fun x => { x with out := f x.out } :=
  updTerm_congr fun x at0 => by rw [Option.some.inj (present.symm.trans at0)]

theorem clearTerminalOp_sound (sound : r.fault = false) : clearTerminalOp t s = s.refuse .notFound := by
  simp only [clearTerminalOp, present, sound]
  rfl

theorem clearTerminalOp_faulty (fault : r.fault = true) :
    clearTerminalOp t s = (s.updTerm t fun x => { x with fault := false }).ok := by
  simp only [clearTerminalOp, present, fault, if_true]

end

/-! ## TERMINAL (R161) -/

theorem standsElsewhere_iff (s : State) (fn : TermFn) (t : Nat) :
    s.standsElsewhere fn t = true ↔ ∃ j r, j ≠ t ∧ s.term j = some r ∧ r.fn = fn := by
  have place (j : Nat) : s.term j = s.trm[j]? := rfl
  simp only [standsElsewhere, List.any_eq_true, Prod.exists, List.mem_zipIdx_iff_getElem?, Bool.and_eq_true, beq_iff_eq,
    bne_iff_ne, place]
  constructor
  · rintro ⟨r, j, at0, is, other⟩
    exact ⟨j, r, other, at0, is⟩
  · rintro ⟨j, r, other, at0, is⟩
    exact ⟨r, j, at0, is, other⟩

theorem terminalOk_iff (t : Nat) (fn : TermFn) (drive : Drive) : terminalOk t fn drive = true
    ↔ t < 32 ∧ (match fn with
      | .pressIn k | .damperPwm k | .flareOut k | .lowAlarm k => 1 ≤ k ∧ k ≤ 4
      | .gateOut b => 1 ≤ b ∧ b ≤ 12
      | _ => True) ∧ (drive = .normal ∨ 24 ≤ t) := by
  unfold terminalOk
  rw [Bool.and_eq_true, Bool.and_eq_true, decide_eq_true_eq, Bool.or_eq_true, beq_iff_eq, decide_eq_true_eq, and_assoc]
  refine and_congr_right fun _ => and_congr_left fun _ => ?_
  cases fn <;> simp [TermFn.numberOk, within]

theorem shared_iff (fn : TermFn) : TermFn.shared fn = true ↔ fn = .unassigned ∨ fn = .input ∨ fn = .output := by
  cases fn <;> simp [TermFn.shared]


theorem handLevel_eq (s : State) (fn : TermFn) (t : Nat) (e : Edge) (l : Bool) : s.handLevel fn t e l = match fn with
    | .batteryStopIn => s.stopFollows l
    | .conveyorRunIn => if l then s.startDischarge else s.conveyorLost
    | .input => if e = .both ∨ (e = .rise ∧ l = true) ∨ (e = .fall ∧ l = false) then s.raise (.inputChange t l) else s
    | _ => s := by
  cases fn with
  | input => exact if_congr (names_iff e l) rfl rfl
  | _ => rfl

section
variable {hand : TermFn → Nat → Edge → Bool → State → State}
  (handIs : ∀ (fn : TermFn) (t : Nat) (e : Edge) (l : Bool) (u : State), u.handLevel fn t e l = hand fn t e l u)
include handIs

theorem functionLeaves_eq (s : State) (fn : TermFn) (t : Nat) (e : Edge) (l : Bool) : s.functionLeaves fn l =
    match fn with
    | .batteryStopIn => if l then s.stopFollows false else s
    | .conveyorRunIn => if l then hand .conveyorRunIn t e false s else s
    | .gateOut b => s.interruptDischarge b
    | .pressIn k => s.updGate k fun g => { g with count := 0, whole := false }
    | _ => s := by
  cases fn with
  | conveyorRunIn => exact if_congr Iff.rfl (handIs .conveyorRunIn t e false s) rfl
  | _ => rfl

theorem functionArrives_eq (s : State) (fn : TermFn) (t : Nat) (e : Edge) (l : Bool) : s.functionArrives fn t e l =
    match fn with
    | .pressIn k => s.updGate k fun g => { g with count := 0, whole := false }
    | _ => if l then hand fn t e true s else s := by
  cases fn with
  | pressIn k => rfl
  | _ => exact if_congr Iff.rfl (handIs _ t e true s) rfl

end

section
variable {s : State} {t : Nat} {r : TermRec} {fn : TermFn} (invert : Bool) (drive : Drive) (edge : Edge)

theorem assignTerminal_same (same : r.fn = fn) :
    let l := TermFn.filteredInput fn && (r.filtered != invert)
    let kept := s.updTerm t fun x => { x with invert := invert, drive := drive, edge := edge, level := l }
    s.assignTerminal t r fn invert drive edge =
      State.startDischarge (if l = r.level then kept else kept.handLevel fn t edge l) :=
  if_pos same

theorem assignTerminal_other (present : s.term t = some r) (other : r.fn ≠ fn) :
    let l := TermFn.filteredInput fn && (r.filtered != invert)
    let put := s.updTerm t fun _ => ⟨fn, invert, drive, edge, false, r.filtered, l, false, none⟩
    s.assignTerminal t r fn invert drive edge =
      ((put.functionLeaves r.fn r.level).functionArrives fn t edge l).startDischarge := by
  intro l put
  have putIs : (s.updTerm t fun x => { x with
      fn := fn, invert := invert, drive := drive, edge := edge, out := false, level := l, fault := false
      duty := none }) = put :=
    updTerm_congr fun x at0 => by
      obtain rfl : r = x := Option.some.inj (present.symm.trans at0)
      rfl
  exact (if_neg other).trans
    (congrArg (fun u => ((u.functionLeaves r.fn r.level).functionArrives fn t edge l).startDischarge) putIs)

theorem functionArrives_trm (u : State) (l : Bool) : (u.functionArrives fn t edge l).trm = u.trm := by
  unfold functionArrives
  split
  · simp [spoilGate]
  · split <;> simp

theorem assignTerminal_term (present : s.term t = some r) (j : Nat) :
    (s.assignTerminal t r fn invert drive edge).term j = if j = t
      then some ⟨fn, invert, drive, edge, if r.fn = fn then r.out else false, r.filtered,
        TermFn.filteredInput fn && (r.filtered != invert), if r.fn = fn then r.fault else false,
        if r.fn = fn then r.duty else none⟩
      else s.term j := by
  have at0 : nth1 s.trm (t + 1) = some r := present
  have others (i : Nat) : t + 1 = i + 1 ↔ i = t := by omega
  by_cases same : r.fn = fn
  · have trm (u : State) (l : Bool) : (State.startDischarge (if l = r.level then u else u.handLevel fn t edge l)).trm = u.trm := by
      split <;> simp
    rw [assignTerminal_same invert drive edge same, term, trm, updTerm_trm, nth1_upd1]
    by_cases here : j = t
    · subst here
      simp [at0, same]
    · rw [if_neg (mt (others j).mp here), if_neg here]
      rfl
  · have trm (u : State) (l : Bool) :
        ((u.functionLeaves r.fn r.level).functionArrives fn t edge l).startDischarge.trm = u.trm := by
      simp
    rw [assignTerminal_other invert drive edge present same, term, trm, updTerm_trm, nth1_upd1]
    by_cases here : j = t
    · subst here
      simp [at0, same]
    · rw [if_neg (mt (others j).mp here), if_neg here]
      rfl

end

end State

/-- Settles O55. -/
theorem terminalsFollowTheirRules : Obligations.TerminalsFollowTheirRules := by
  unfold Obligations.TerminalsFollowTheirRules
  intro unmoved interrupted hand spoil
  have handIs (fn : TermFn) (t : Nat) (e : Edge) (l : Bool) (u : State) : u.handLevel fn t e l = hand fn t e l u :=
    handLevel_eq u fn t e l
  refine ⟨fun s => ⟨stopFollows_same s, fun clear => ?_, fun set_ => ?_⟩, fun s r => ?_, fun s t r present => ?_,
    fun s tag t level room => ?_⟩
  · intro freed held
    have timed : freed.holdTimer = held :=
      holdTimer_eq (s := freed) (by simp [freed, State.now])
    refine (stopFollows_sets clear).trans ?_
    show (if s.hold = true then freed.holdTimer else freed.holdTimer.holdStarts .batteryStop) = _
    rw [timed]
    rfl
  · intro told timed clears held
    have resumed : told.resumeTimer = timed :=
      resumeTimer_eq (s := told) (now := s.now) (push := s.ilk.push) (by simp [told]) (by simp [told, State.now]) (by simp [told])
    refine (stopFollows_clears set_).trans ?_
    show told.resumeTimer.holdEnds .batteryStop = _
    rw [resumed]
    have sameLoss : clears.unconfirmed = timed.unconfirmed := by simp [clears, State.unconfirmed]
    have cleared : timed.sendClears .batteryStop = held :=
      (timed.sendClears_linked .batteryStop).trans (if_congr (by rw [sameLoss]) rfl rfl)
    exact if_congr Iff.rfl rfl (congrArg workAfterHold cleared)
  · intro live level driven released
    have drives : s.driven r.fn = driven := s.driven_eq r
    have outs : s.outputLevel r = level := s.outputLevel_eq r
    have free : (r.fault || !s.driven r.fn) = true ↔ released := by simp [drives, released]
    refine ⟨outs, fun k fn => ⟨?_, ?_⟩, fun on fn is => ?_, fun none_ => ?_, s.canOverload_iff r⟩
    · rw [outputLevel_pulse fn]
      rfl
    · rw [termState_pulse fn]
      exact congrArg some (if_congr free rfl rfl)
    · rw [termState_switched fn, outs, is]
      exact congrArg some (if_congr free rfl (if_congr (by simp) rfl rfl))
    · by_cases pulse : ∃ k, r.fn = .damperPwm k
      · obtain ⟨k, fn⟩ := pulse
        have on := outs.trans none_
        rw [outputLevel_pulse fn] at on
        cases on
      · rw [termState_switched fun k fn => pulse ⟨k, fn⟩, outs, none_]
        rfl
  · refine ⟨fun energised => ?_, fun current => ?_, outputLevel_of_energised, fun noCurrent => ?_⟩
    · intro l u run
      have runs : run = ends (s.inputHolds t energised) := rfl
      have changes (input : TermFn.filteredInput r.fn = true) (changed : l ≠ r.level) :
          run = ends (hand r.fn t r.edge l u) :=
        (congrArg ends (inputHolds_changes present energised input changed)).trans (congrArg ends (handIs r.fn t r.edge l u))
      have bays (b : Nat) : u.bay b = s.bay b := rfl
      refine ⟨fun input same => ?_, fun input changed => ?_, fun input changed on => ?_, fun input changed off => ?_,
        fun input changed => ?_, fun unassigned => ?_, fun output assigned => ?_⟩
      · exact congrArg ends (inputHolds_same present energised ((filteredInput_iff r.fn).mpr input) same)
      · refine (changes (by rw [input]; rfl) changed).trans ?_
        rw [input]
      · refine (changes (by rw [input]; rfl) changed).trans ?_
        rw [input, on]
        rfl
      · refine (changes (by rw [input]; rfl) changed).trans ?_
        rw [input, off]
        rfl
      · refine ⟨(changes (by rw [input]; rfl) changed).trans ?_, u.stopFollows_stop l, fun was on m other => ?_⟩
        · rw [input]
        · rw [on] at was ⊢
          exact (congrArg (fun x => x.permit m) (stopFollows_sets (Bool.not_eq_true _ ▸ was))).trans (u.stopSets_permit other)
      · exact congrArg ends (inputHolds_unassigned present energised unassigned)
      · exact congrArg ends (inputHolds_output present energised output assigned)
    · exact congrArg ends (overload_faults present current)
    · exact congrArg ends (overload_ignored present noCurrent)
  · intro h
    have sameRun : h.inRun = s.inRun := supervisorHeard_inRun s
    have sameLoaded : h.cfg.loaded = s.cfg.loaded := by simp [h]
    have setOutput : requestEffect (.setOutput tag t (some level)) h = writeOutput t (fun _ => level) h := rfl
    have toggle : requestEffect (.toggle tag t) h = writeOutput t not h := rfl
    have clear : requestEffect (.clearTerminal tag t) h = clearTerminalOp t h := rfl
    refine ⟨exec_answered rfl room rfl, fun absent => ⟨?_, ?_, ?_⟩, fun r present => ⟨fun other => ⟨?_, ?_⟩,
      fun output => ⟨?_, ?_⟩, fun sound => ?_, fun fault => ?_⟩, fun fn invert drive edge => ?_⟩
    · exact exec_answered rfl room (setOutput.trans (writeOutput_none absent _))
    · exact exec_answered rfl room (toggle.trans (writeOutput_none absent _))
    · exact exec_answered rfl room (clear.trans (clearTerminalOp_none absent))
    · exact exec_answered rfl room (setOutput.trans (writeOutput_other present other _))
    · exact exec_answered rfl room (toggle.trans (writeOutput_other present other _))
    · exact exec_answered rfl room (setOutput.trans (writeOutput_writes present output _))
    · refine exec_answered rfl room (toggle.trans ((writeOutput_writes present output _).trans ?_))
      rw [updTerm_out present not]
      rfl
    · exact exec_answered rfl room (clear.trans (clearTerminalOp_sound present sound))
    · exact exec_answered rfl room (clear.trans (clearTerminalOp_faulty present fault))
    · intro numbered good elsewhere run
      have block : requestEffect (.terminal tag t fn invert drive edge) h =
        setup true (terminalOk t fn drive) (takeTerminal t fn invert drive edge) h := rfl
      have stands : (!(TermFn.shared fn) && h.standsElsewhere fn t) = true ↔ elsewhere := by
        rw [Bool.and_eq_true, Bool.not_eq_true', ← Bool.not_eq_true, shared_iff, standsElsewhere_iff]
        simp only [elsewhere]
        tauto
      refine ⟨fun battery => ?_, fun battery running => ?_, fun battery config => ⟨fun bad => ?_, fun fine again => ?_,
        fun r fine fresh present => ?_⟩⟩
      · exact exec_answered rfl room (block.trans (setup_order (sameLoaded ▸ battery) true _))
      · exact exec_answered rfl room (block.trans (setup_state (sameLoaded ▸ battery) (sameRun.trans running) _))
      · refine exec_answered rfl room (block.trans ((setup_config (sameLoaded ▸ battery) (sameRun.trans config) _).trans ?_))
        exact if_neg (mt (terminalOk_iff t fn drive).mp bad)
      · refine exec_answered rfl room (block.trans ((setup_config (sameLoaded ▸ battery) (sameRun.trans config) _).trans ?_))
        exact (if_pos ((terminalOk_iff t fn drive).mpr fine)).trans (if_pos (stands.mpr again))
      · intro l kept put left came told v u
        have assigns : h.assignTerminal t r fn invert drive edge = v := by
          by_cases same : r.fn = fn
          · refine (assignTerminal_same invert drive edge same).trans (congrArg startDischarge ?_)
            show (if l = r.level then kept else kept.handLevel fn t edge l) = told
            rw [handIs]
            exact (if_pos same).symm
          · have leaves : put.functionLeaves r.fn r.level = left :=
              functionLeaves_eq handIs put r.fn t edge r.level
            have comes : left.functionArrives fn t edge l = came :=
              functionArrives_eq handIs left fn t edge l
            refine (assignTerminal_other invert drive edge present same).trans (congrArg startDischarge ?_)
            show (put.functionLeaves r.fn r.level).functionArrives fn t edge l = told
            rw [leaves, comes]
            exact (if_neg same).symm
        have taken : takeTerminal t fn invert drive edge h = u.ok := by
          refine (if_neg (mt stands.mp fresh)).trans ?_
          rw [present]
          show State.ok ((h.assignTerminal t r fn invert drive edge).load _) = u.ok
          rw [assigns]
          rfl
        have term (j : Nat) : u.term j = (h.assignTerminal t r fn invert drive edge).term j :=
          (show u.term j = v.term j from rfl).trans (congrArg (fun x : State => x.term j) assigns.symm)
        refine ⟨?_, ?_, fun j other => ?_, ?_⟩
        · refine exec_answered rfl room (block.trans ((setup_config (sameLoaded ▸ battery) (sameRun.trans config) _).trans ?_))
          exact (if_pos ((terminalOk_iff t fn drive).mpr fine)).trans taken
        · rw [term, assignTerminal_term invert drive edge present]
          exact if_pos rfl
        · rw [term, assignTerminal_term invert drive edge present]
          exact if_neg other
        · simp only [u]
          split
          · next entered => exact List.contains_iff_mem.mp entered
          · simp

end Sys2Proof.Machine
end

section
/-! SUPPORT. The line: what is sent of a character, what is read of it, and what the link-test checker judges. -/

namespace Sys2Proof.Machine

open Sys2Proof State

/-! ## The parity of a character (R169) -/

theorem foldl_xor_eq (f : Nat → Bool) (l : List Nat) (c : Bool) :
    l.foldl (fun acc i => acc ^^ f i) c = (c ^^ decide ((l.filter f).length % 2 = 1)) := by
  induction l generalizing c with
  | nil => simp
  | cons i l ih =>
    rw [List.foldl_cons, ih]
    cases at_ : f i with
    | false => simp [at_]
    | true =>
      have flips : decide (((l.filter f).length + 1) % 2 = 1) = !decide ((l.filter f).length % 2 = 1) := by
        rw [← decide_not]
        exact decide_eq_decide.mpr (by omega)
      rw [List.filter_cons_of_pos at_, List.length_cons, flips]
      cases c <;> cases decide ((l.filter f).length % 2 = 1) <;> rfl

/-- The parity bit makes the ones even. -/
theorem parityBit_eq (b : Byte) :
    parityBit b = decide (((List.range 8).filter fun i => b.getLsbD i).length % 2 = 1) :=
  (foldl_xor_eq (fun i => b.getLsbD i) (List.range 8) false).trans (Bool.false_xor _)

/-- Parity is even over the eight data bits and the parity bit read. -/
theorem even_iff {bits : Nat → Bool} {b : Byte} (data : ∀ i, i < 8 → b.getLsbD i = bits (i + 1)) :
    ((List.range 9).filter fun i => bits (i + 1)).length % 2 = 0 ↔ bits 9 = parityBit b := by
  have same : ((List.range 8).filter fun i => b.getLsbD i) = (List.range 8).filter fun i => bits (i + 1) :=
    List.filter_congr fun i mem => data i (List.mem_range.mp mem)
  rw [parityBit_eq, same, show List.range 9 = List.range 8 ++ [8] from rfl, List.filter_append, List.length_append]
  cases ninth : bits 9 with
  | false => simp [ninth]
  | true =>
    simp only [ninth, List.filter_cons_of_pos, List.filter_nil, List.length_singleton]
    rw [eq_comm (a := true), decide_eq_true_eq]
    omega

/-! ## What is read of a character (R170) -/

section
variable {v : LineSettings} {wave : LineWave}

theorem bits_eq {bits : Nat → Bool} {low pulse : Nat → Prop} (lows : ∀ i, low i ↔ lowAt v.rxInvert wave i = true)
    (pulses : ∀ i, pulse i ↔ low i ∧ low (i + 1) ∧ (i = 0 ∨ ¬ low (i - 1)))
    (reads : ∀ c, bits c = true ↔ ¬ match v.code with
      | .nrz => low (32 * c + 16)
      | .optical => ∃ i, 32 * c ≤ i ∧ i < 32 * c + 32 ∧ pulse i) : bits = bitRead v wave := by
  funext c
  rw [Bool.eq_iff_iff, reads c, bitRead_iff]
  refine not_congr ?_
  cases v.code with
  | nrz => exact lows _
  | optical => simp only [pulseBegins_iff, pulses, lows]

theorem starts_iff {low : Nat → Prop} (lows : ∀ i, low i ↔ lowAt v.rxInvert wave i = true) :
    (low 0 ∧ match v.code with
      | .nrz => low 16
      | .optical => low 1) ↔ charStarts v wave = true := by
  rw [charStarts_iff, lows 0]
  refine and_congr_right fun _ => ?_
  cases v.code with
  | nrz | optical => exact lows _

theorem rxChar_none (none_ : ¬ charStarts v wave = true) : rxChar v wave = none := if_neg none_

variable (starts : charStarts v wave = true) {b : Byte} (data : ∀ i, i < 8 → b.getLsbD i = bitRead v wave (i + 1))
include starts data

/-- What the receiver makes of a character that starts, by the parity and the stop bit it reads. -/
theorem rxChar_eq : rxChar v wave =
    if bitRead v wave 9 = parityBit b then some (if bitRead v wave 10 = true then .good b else .framing b)
    else if bitRead v wave 10 = true then some (.parity b)
    else some (if Config.parityFirst wave then .parity b else .framing b) := by
  have same : (byteOf fun i => bitRead v wave (i + 1)) = b :=
    BitVec.eq_of_getLsbD_eq fun i inside => (byteOf_getLsbD _ inside).trans (data i inside).symm
  unfold rxChar
  rw [if_pos starts, same]
  by_cases even : bitRead v wave 9 = parityBit b <;> by_cases stop : bitRead v wave 10 = true <;> simp [even, stop]

theorem rxChar_judged : ∃ c, rxChar v wave = some c ∧ c.data = b
    ∧ (c.damaged = true ↔ ¬ (bitRead v wave 9 = parityBit b ∧ bitRead v wave 10 = true)) := by
  rw [rxChar_eq starts data]
  by_cases even : bitRead v wave 9 = parityBit b
  · by_cases stop : bitRead v wave 10 = true
    · exact ⟨.good b, by simp [even, stop], rfl, by simp [RxChar.damaged, even, stop]⟩
    · exact ⟨.framing b, by simp [even, stop], rfl, by simp [RxChar.damaged, stop]⟩
  · by_cases stop : bitRead v wave 10 = true
    · exact ⟨.parity b, by simp [even, stop], rfl, by simp [RxChar.damaged, even]⟩
    · refine ⟨_, by rw [if_neg even, if_neg stop], ?_, ?_⟩
      · cases Config.parityFirst wave <;> rfl
      · cases Config.parityFirst wave <;> simp [RxChar.damaged, even]

end

/-! ## The checker (R180) -/

/-- The checker after the first characters' bits. -/
def checkerSteps (r : BitVec 15) (b : Byte) (n : Nat) : BitVec 15 × Bool :=
  (List.range n).foldl (fun (acc : BitVec 15 × Bool) i =>
    (streamShift acc.1 (b.getLsbD i), acc.2 && (streamBit acc.1 == b.getLsbD i))) (r, true)

theorem checkerTake_eq (r : BitVec 15) (b : Byte) : checkerTake r b = checkerSteps r b 8 := rfl

theorem checkerSteps_succ (r : BitVec 15) (b : Byte) (n : Nat) : checkerSteps r b (n + 1) =
    (streamShift (checkerSteps r b n).1 (b.getLsbD n),
      (checkerSteps r b n).2 && (streamBit (checkerSteps r b n).1 == b.getLsbD n)) := by
  simp only [checkerSteps, List.range_succ, List.foldl_append, List.foldl_cons, List.foldl_nil]

theorem checkerSteps_getLsbD (r : BitVec 15) (b : Byte) (n : Nat) {j : Nat} (inside : j < 15) :
    (checkerSteps r b n).1.getLsbD j = if j < n then b.getLsbD (n - 1 - j) else r.getLsbD (j - n) := by
  induction n generalizing j with
  | zero => simp [checkerSteps]
  | succ n ih =>
    obtain ⟨newest, older⟩ := streamShift_getLsbD (checkerSteps r b n).1 (b.getLsbD n)
    rw [checkerSteps_succ]
    cases j with
    | zero => simpa using newest
    | succ j =>
      rw [older j (by omega), ih (by omega)]
      by_cases before : j < n
      · simp [before, show n - 1 - j = n - (j + 1) by omega]
      · simp [before]

theorem checkerSteps_right (r : BitVec 15) (b : Byte) {n : Nat} (few : n ≤ 8) : (checkerSteps r b n).2 = true
    ↔ ∀ i, i < n → b.getLsbD i = (r.getLsbD (14 - i) ^^ r.getLsbD (13 - i)) := by
  induction n with
  | zero => simp [checkerSteps]
  | succ n ih =>
    have predicted : streamBit (checkerSteps r b n).1 = (r.getLsbD (14 - n) ^^ r.getLsbD (13 - n)) := by
      rw [streamBit, checkerSteps_getLsbD r b n (by omega), checkerSteps_getLsbD r b n (by omega),
        if_neg (by omega), if_neg (by omega)]
    rw [checkerSteps_succ, predicted]
    simp only [Bool.and_eq_true, beq_iff_eq, ih (by omega), Nat.forall_lt_succ_right]
    exact and_congr_right fun _ => eq_comm

end Sys2Proof.Machine
end

section
/-! SUPPORT. Link settings and link tests: a link in test sends nothing, whatever happens. -/

namespace Sys2Proof.Machine

open Sys2Proof State

/-- The machine's link is in test, and stands as `x`. -/
def Silent (m : MachineId) (x : MLink) (s : State) : Prop := x.test.active = true ∧ s.lnk.mach.get m = x

theorem Silent.of_mach {m : MachineId} {x : MLink} {s t : State} (h : Silent m x s) (same : t.lnk.mach = s.lnk.mach) :
    Silent m x t := ⟨h.1, by rw [same, h.2]⟩

namespace State
section
variable {m : MachineId} {x : MLink} {s : State} (h : Silent m x s)
include h

@[simp] theorem raise_silent (b : NoticeBody) : Silent m x (s.raise b) := h.of_mach (by simp)

@[simp] theorem updMachine_silent (j : MachineId) (f : MachineRec → MachineRec) : Silent m x (s.updMachine j f) := h

@[simp] theorem setPush_silent (p : Option PushRec) : Silent m x (s.setPush p) := h

@[simp] theorem setPermit_silent (j : MachineId) (p : Option Permit) : Silent m x (s.setPermit j p) := h

@[simp] theorem disarm_silent : Silent m x s.disarm := h.of_mach (by simp)

@[simp] theorem holdTimer_silent : Silent m x s.holdTimer := h.of_mach (by simp)

@[simp] theorem updCar_silent (f : CarRec → CarRec) : Silent m x (s.updCar f) := h

@[simp] theorem setCar_silent (c : CarState) : Silent m x (s.setCar c) := h.of_mach (by simp)

@[simp] theorem setQueue_silent (d : Side) (q : List TaskEntry) : Silent m x (s.setQueue d q) := h

@[simp] theorem updRound_silent (d : Side) (f : Inspection → Inspection) : Silent m x (s.updRound d f) := h

/-- A link in test takes no frame (R178). -/
@[simp] theorem send_silent (j : MachineId) (f : MFrame) : Silent m x (s.send j f) := by
  obtain ⟨active, is⟩ := h
  refine ⟨active, ?_⟩
  unfold send
  dsimp only
  by_cases same : j = m
  · subst same
    rw [if_pos (show (s.mlink j).test.active = true by rw [mlink, is, active])]
    exact is
  · (repeat' split) <;> simp [is, same]

@[simp] theorem sendIfOnline_silent (j : MachineId) (f : MFrame) : Silent m x (s.sendIfOnline j f) := by
  unfold sendIfOnline
  split <;> simp [h]

@[simp] theorem roundVisitCheck_silent (d : Side) : Silent m x (s.roundVisitCheck d) := by
  unfold roundVisitCheck
  (repeat' split) <;> simp (maxDischargeDepth := 10) [h]

@[simp] theorem dispatchDoor_silent (d : Side) : Silent m x (s.dispatchDoor d) := by
  unfold dispatchDoor
  (repeat' split) <;> simp (maxDischargeDepth := 10) [h]

@[simp] theorem dispatchValve_silent : Silent m x s.dispatchValve := by
  unfold dispatchValve
  (repeat' split)
  · exact h
  · refine send_silent ?_ _ _
    exact h
  · exact h

@[simp] theorem dispatchFor_silent (j : MachineId) : Silent m x (s.dispatchFor j) := by
  cases j <;> simp [dispatchFor, h]

@[simp] theorem revoke_silent (j : MachineId) (r : Reason) : Silent m x (s.revoke j r) := by
  unfold revoke
  dsimp only
  (repeat' split) <;> simp (maxDischargeDepth := 10) [h]

@[simp] theorem retestOne_silent (j : MachineId) : Silent m x (s.retestOne j) := by
  unfold retestOne
  (repeat' split) <;> simp (maxDischargeDepth := 10) [h]

@[simp] theorem retest_silent : Silent m x s.retest := by
  simp (maxDischargeDepth := 10) [retest, h]

@[simp] theorem testMove_silent : Silent m x s.testMove := by
  unfold testMove issueMove
  (repeat' split) <;> simp (maxDischargeDepth := 10) [h]

@[simp] theorem sendCar_silent (c : CarState) : Silent m x (s.sendCar c) := by
  unfold sendCar requestMove
  split <;> simp (maxDischargeDepth := 10) [h]

@[simp] theorem doorOffline_silent (d : Side) : Silent m x (s.doorOffline d) := by
  unfold doorOffline
  dsimp only
  split <;> simp (maxDischargeDepth := 10) [h]

@[simp] theorem valveOffline_silent : Silent m x s.valveOffline := h.of_mach (by simp)

@[simp] theorem withdrawMove_silent : Silent m x s.withdrawMove := h.of_mach (by simp)

@[simp] theorem checkEmptyPlace_silent (spot : Option ReportedSpot) : Silent m x (s.checkEmptyPlace spot) := by
  unfold checkEmptyPlace
  dsimp only
  (repeat' split) <;> simp (maxDischargeDepth := 10) [h]

@[simp] theorem checkLoadedPlace_silent (spot : Option ReportedSpot) : Silent m x (s.checkLoadedPlace spot) := by
  unfold checkLoadedPlace
  (repeat' split) <;> simp (maxDischargeDepth := 10) [h]

@[simp] theorem qcOffline_silent : Silent m x s.qcOffline := by
  unfold qcOffline
  dsimp only
  split <;> simp (maxDischargeDepth := 10) [h]

@[simp] theorem pushLoses_silent (j : MachineId) : Silent m x (s.pushLoses j) := by
  unfold pushLoses
  dsimp only
  (repeat' split) <;> simp (maxDischargeDepth := 10) [h]

/-- All that the blocks do at an OFFLINE leaves a link in test as it is. -/
theorem handOffline_silent (j : MachineId) : Silent m x (s.handOffline j) := by
  unfold handOffline
  cases j <;> simp (maxDischargeDepth := 10) [h]

end
end State

/-! ## What the line shows of a character (R169) -/

theorem plainCell_getLsbD (c : LineCode) (bit : Bool) : ∀ j, j < 16 → (plainCell c bit).getLsbD j = match c with
    | .nrz => bit
    | .optical => bit || decide (3 ≤ j) := by
  cases c <;> cases bit <;> decide

theorem cellLevels_getLsbD (v : LineSettings) (bit : Bool) {j : Nat} (inside : j < 16) :
    (cellLevels v bit).getLsbD j = ((match v.code with
      | .nrz => bit
      | .optical => bit || decide (3 ≤ j)) != v.txInvert) := by
  rw [← plainCell_getLsbD v.code bit j inside, cellLevels]
  cases v.txInvert <;> simp [inside]

/-- Start bit, data, parity, stop bit. -/
theorem charBits_getLsbD (b : Byte) {i : Nat} (inside : i < 11) : (charBits b).getLsbD i =
    if i = 0 then false else if i ≤ 8 then b.getLsbD (i - 1) else if i = 9 then parityBit b else true := by
  simp only [charBits, BitVec.getLsbD_append, BitVec.getLsbD_ofBool]
  match i, inside with
  | 0, _ | 1, _ | 2, _ | 3, _ | 4, _ | 5, _ | 6, _ | 7, _ | 8, _ | 9, _ | 10, _ => simp

theorem charCells_getElem? (v : LineSettings) (b : Byte) {i : Nat} {x : BitVec 16} (h : (charCells v b)[i]? = some x) :
    i < 11 ∧ x = cellLevels v ((charBits b).getLsbD i) := by
  rw [show charCells v b = (List.range 11).map fun i => cellLevels v ((charBits b).getLsbD i) from rfl,
    List.getElem?_map, Option.map_eq_some_iff] at h
  obtain ⟨k, at0, is⟩ := h
  obtain ⟨inside, rfl⟩ := List.getElem?_eq_some_iff.mp at0
  rw [List.getElem_range] at is
  exact ⟨by simpa using inside, is.symm⟩

namespace State

/-! ## LINK, LINK_TEST, TEST_READ and TEST_END (R169, R179, R180) -/

theorem linkOk_iff (l : LinkId) (v : LineSettings) :
    linkOk l v = true ↔ (1 ≤ v.dv ∧ v.dv ≤ 255) ∧ ¬ (l = .sup ∧ v.code = .optical) := by
  rw [linkOk, Bool.and_eq_true, Bool.not_eq_true', ← Bool.not_eq_true, Bool.and_eq_true, beq_iff_eq, beq_iff_eq]
  simp [within]

theorem takeLink_testing {s : State} {m : MachineId} (test : (s.mlink m).test.active = true) (v : LineSettings) :
    takeLink (.mach m) v s = s.refuse .busy := if_pos test

theorem takeLink_free {s : State} {m : MachineId} (test : (s.mlink m).test.active = false) (v : LineSettings) :
    takeLink (.mach m) v s =
      ((s.updLink m fun k => { k with
        sending := none, line := [], port := { k.port with settings := v, rx := .hunting } }).load fun x =>
          { x with links := enter (.mach m) x.links }).ok :=
  if_neg (by simp [test])

theorem updLink_updLink (s : State) (m : MachineId) (f g : MLink → MLink) :
    (s.updLink m f).updLink m g = s.updLink m (g ∘ f) := by
  cases m <;> rfl

@[simp] theorem mlink_updLink (s : State) (m j : MachineId) (f : MLink → MLink) :
    (s.updLink m f).mlink j = if j = m then f (s.mlink j) else s.mlink j := by
  cases m <;> cases j <;> rfl

theorem updLink_congr {s : State} {m : MachineId} {f g : MLink → MLink} (h : f (s.mlink m) = g (s.mlink m)) :
    s.updLink m f = s.updLink m g :=
  congrArg (fun x => { s with lnk.mach := s.lnk.mach.set m x }) h

theorem updLink_eq_self {s : State} {m : MachineId} {f : MLink → MLink} (h : f (s.mlink m) = s.mlink m) :
    s.updLink m f = s := by
  rw [updLink_congr (g := id) h, updLink]
  exact congrArg (fun x => { s with lnk.mach := x }) (Quad.set_get _ _)

theorem linkTestOp_busy {s : State} {m : MachineId}
    (busy : (s.mlink m).test.active = true ∨ s.permit m ≠ none ∨ (m ≠ .cc ∧ s.ilk.push ≠ none)) :
    s.linkTestOp m = s.refuse .busy := by
  unfold linkTestOp
  split
  · rfl
  · next idle =>
    split
    · rfl
    · next noPermit =>
      refine if_pos ?_
      rcases busy with active | permit | ⟨other, push⟩
      · exact absurd active idle
      · exact absurd (Option.isSome_iff_ne_none.mpr permit) noPermit
      · exact ⟨other, Option.isSome_iff_ne_none.mpr push⟩

theorem linkTestOp_starts {s : State} {m : MachineId}
    (free : ¬ ((s.mlink m).test.active = true ∨ s.permit m ≠ none ∨ (m ≠ .cc ∧ s.ilk.push ≠ none))) :
    s.linkTestOp m = (s.startTest m).ok := by
  obtain ⟨idle, noPermit, noPush⟩ : ¬ (s.mlink m).test.active = true ∧ ¬ s.permit m ≠ none
      ∧ ¬ (m ≠ .cc ∧ s.ilk.push ≠ none) := by
    simpa only [not_or] using free
  unfold linkTestOp
  rw [if_neg idle, if_neg (by simpa using noPermit), if_neg (by simpa using noPush)]
  rfl

/-- The state as a link test starts, before the link goes OFFLINE. -/
def cutLink (s : State) (m : MachineId) : State := s.updLink m fun x => { x with
  queue := []
  sending := none
  line := []
  port := { x.port with silence := false, rx := .hunting }
  test := ⟨true, 0, 0, 0, 0, x.test.checker, 0x7FFF#15⟩ }

theorem startTest_eq (s : State) (m : MachineId) :
    s.startTest m = if s.online m = true then (s.cutLink m).goOffline m .test else s.cutLink m := by
  have cut : ((s.updTest m fun t => { t with
      active := true, internalErrors := 0, reported := 0, received := 0, seeded := 0, generator := 0x7FFF#15 }).updLink m
        fun k => { k with queue := [], sending := none, line := [], port := { k.port with rx := .hunting, silence := false } })
      = s.cutLink m := updLink_updLink s m _ _
  have up : (s.cutLink m).online m = s.online m := by simp [online, cutLink]
  unfold startTest
  dsimp only
  rw [cut, up]

/-- A link put in test stands as the cut left it, OFFLINE. -/
theorem goOffline_mlink {s : State} {m : MachineId} (active : (s.mlink m).test.active = true) (c : LinkCause) :
    (s.goOffline m c).mlink m =
      { s.mlink m with port := { (s.mlink m).port with up := false, silence := false } } := by
  have silent : Silent m { s.mlink m with port := { (s.mlink m).port with up := false, silence := false } }
      (s.updPort (.mach m) fun p => { p with up := false, silence := false }) := by
    exact ⟨active, by simp [updPort, mlink]⟩
  exact (handOffline_silent (updMachine_silent (raise_silent silent _) m _) m).2

theorem testReadOp_active {s : State} {m : MachineId} (active : (s.mlink m).test.active = true) : s.testReadOp m =
    (s.updLink m fun x => { x with test := { (s.mlink m).test with reported := (s.mlink m).test.internalErrors } },
      .okWith (.testCounts (s.mlink m).test.internalErrors (s.mlink m).test.received true)) := by
  have copied : s.updTest m copyCount =
      s.updLink m fun x => { x with test := { (s.mlink m).test with reported := (s.mlink m).test.internalErrors } } :=
    updLink_congr (by simp [copyCount, active])
  unfold testReadOp
  dsimp only
  rw [copied]
  simp [active]

theorem testReadOp_idle {s : State} {m : MachineId} (idle : (s.mlink m).test.active = false) : s.testReadOp m =
    (s, .okWith (.testCounts (s.mlink m).test.reported (s.mlink m).test.received false)) := by
  have copied : s.updTest m copyCount = s := updLink_eq_self (by simp [copyCount, idle])
  unfold testReadOp
  dsimp only
  rw [copied, idle]

theorem testEndOp_active {s : State} {m : MachineId} (active : (s.mlink m).test.active = true) : s.testEndOp m =
    (s.updLink m fun x => { x with
      test := { x.test with active := false, seeded := 0 }, port := { x.port with rx := .hunting } }, .code .ok) :=
  (if_pos active).trans (congrArg (·, Reply.code .ok) (updLink_updLink s m
    (fun k => { k with test := { k.test with active := false, seeded := 0 } })
    (fun k => { k with port := { k.port with rx := .hunting } })))

theorem testEndOp_idle {s : State} {m : MachineId} (idle : (s.mlink m).test.active = false) :
    s.testEndOp m = s.refuse .notFound := if_neg (by simp [idle])

/-! ## The character taken by the checker (R180) -/

theorem doTestCharacter_ignored {s : State} {m : MachineId} {wave : LineWave} (ignored : (s.mlink m).test.active = false
    ∨ ¬ charStarts (s.mlink m).port.settings wave = true) : doTestCharacter m wave s = s := by
  unfold doTestCharacter
  split
  · next active =>
    rcases ignored with idle | noStart
    · exact absurd active (by simp [idle])
    · rw [rxChar_none noStart]
  · rfl

theorem doTestCharacter_judges {s : State} {m : MachineId} {wave : LineWave} {c : RxChar}
    (active : (s.mlink m).test.active = true) (read : rxChar (s.mlink m).port.settings wave = some c) :
    doTestCharacter m wave s = s.updLink m fun x => { x with test := judge (s.mlink m).test c } := by
  have judged : s.updTest m (fun t => judge t c) = s.updLink m fun x => { x with test := judge (s.mlink m).test c } :=
    updLink_congr rfl
  unfold doTestCharacter
  rw [if_pos active, read]
  exact judged

end State

theorem judge_checker (t : LinkTest) (c : RxChar) {j : Nat} (inside : j < 15) : (judge t c).checker.getLsbD j =
    if j < 8 then c.data.getLsbD (7 - j) else t.checker.getLsbD (j - 8) :=
  checkerSteps_getLsbD t.checker c.data 8 inside

theorem judge_errors (t : LinkTest) (c : RxChar) : (judge t c).internalErrors =
    if t.seeded < 2 then t.internalErrors
    else if c.damaged = true ∨ ¬ (checkerTake t.checker c.data).2 = true
      then (if t.internalErrors = 65535 then 0 else t.internalErrors + 1)
    else t.internalErrors := by
  simp only [judge, Bool.or_eq_true, Bool.not_eq_true', Bool.not_eq_true]

/-- Settles O57. -/
theorem linkSettingsAndLinkTests : Obligations.LinkSettingsAndLinkTests := by
  unfold Obligations.LinkSettingsAndLinkTests
  refine ⟨fun s tag room => ?_, fun v b => ?_, fun s l => ?_, fun s m wave bits => ?_⟩
  · intro h ok enters
    have sameRun : h.inRun = s.inRun := supervisorHeard_inRun s
    have sameLoaded : h.cfg.loaded = s.cfg.loaded := by simp [h]
    have sameLink (m : MachineId) : (h.mlink m).test = (s.mlink m).test := by simp [h, mlink]
    refine ⟨exec_answered rfl room rfl, fun l v => ?_, exec_answered rfl room rfl, fun l => exec_answered rfl room rfl,
      fun l noLink => ?_, fun m => ?_⟩
    · intro good
      have block : requestEffect (.link tag l v) h = setup true (linkOk l v) (takeLink l v) h := rfl
      refine ⟨fun battery => ?_, fun battery run => ?_, fun battery config bad => ?_, fun battery config fine => ?_⟩
      · exact exec_answered rfl room (block.trans (setup_order (sameLoaded ▸ battery) true _))
      · exact exec_answered rfl room (block.trans (setup_state (sameLoaded ▸ battery) (sameRun.trans run) _))
      · refine exec_answered rfl room (block.trans ((setup_config (sameLoaded ▸ battery) (sameRun.trans config) _).trans ?_))
        exact if_neg (mt (linkOk_iff l v).mp bad)
      · have taken : requestEffect (.link tag l v) h = takeLink l v h :=
          block.trans ((setup_config (sameLoaded ▸ battery) (sameRun.trans config) _).trans (if_pos ((linkOk_iff l v).mpr fine)))
        refine ⟨fun sup => ?_, fun m mach test => ?_, fun m mach test => ?_⟩
        · subst sup
          exact (exec_request rfl room).trans (congrArg (fun r => ends (r.1.pushAnswer tag r.2)) taken)
        · subst mach
          exact exec_answered rfl room (taken.trans (takeLink_testing ((sameLink m).symm ▸ test) v))
        · subst mach
          exact exec_answered rfl room (taken.trans (takeLink_free ((sameLink m).symm ▸ test) v))
    · rcases noLink with rfl | rfl <;>
        exact ⟨exec_answered rfl room rfl, exec_answered rfl room rfl, exec_answered rfl room rfl⟩
    · intro k busy putTest cut off
      have test : requestEffect (.linkTest tag (some (.mach m))) h = h.linkTestOp m := rfl
      have read : requestEffect (.testRead tag (some (.mach m))) h = h.testReadOp m := rfl
      have end_ : requestEffect (.testEnd tag (some (.mach m))) h = h.testEndOp m := rfl
      refine ⟨fun isBusy => ?_, fun free => ?_, fun active => ⟨?_, ?_⟩, fun idle => ⟨?_, ?_⟩⟩
      · exact exec_answered rfl room (test.trans (linkTestOp_busy isBusy))
      · intro u
        have starts : h.startTest m = u := startTest_eq h m
        refine ⟨exec_answered rfl room (test.trans ((linkTestOp_starts free).trans (congrArg State.ok starts))), ?_⟩
        have cutIs : (h.cutLink m).mlink m = { k with
            queue := []
            sending := none
            line := []
            port := { k.port with silence := false, rx := .hunting }
            test := ⟨true, 0, 0, 0, 0, k.test.checker, 0x7FFF#15⟩ } := by
          simp [cutLink, k]
        rw [← starts, startTest_eq]
        split
        · rw [goOffline_mlink (by rw [cutIs]), cutIs]
        · next offline =>
          have down : k.port.up = false := by simpa [online] using offline
          rw [cutIs, ← down]
      · exact exec_answered rfl room (read.trans (testReadOp_active active))
      · exact exec_answered rfl room (end_.trans (testEndOp_active active))
      · exact exec_answered rfl room (read.trans (testReadOp_idle idle))
      · exact exec_answered rfl room (end_.trans (testEndOp_idle idle))
  · intro ones bit level
    refine ⟨rfl, fun i x at0 j inside => ?_⟩
    obtain ⟨cell, is⟩ := charCells_getElem? v b at0
    have bitIs : (charBits b).getLsbD i = bit i := by
      rw [charBits_getLsbD b cell, parityBit_eq]
    rw [is, bitIs]
    exact cellLevels_getLsbD v (bit i) inside
  · intro line
    have shown_ : s.shownLine l = lineShown (s.port l).settings line := by cases l <;> rfl
    refine ⟨fun rest => ?_, fun busy => ?_⟩
    · rw [shown_, rest]
      rfl
    · obtain ⟨c, cells, at0⟩ := List.exists_cons_of_ne_nil busy
      rw [shown_, at0]
      rfl
  · intro k v low pulse zero starts damaged wrong reads
    have lows (i : Nat) : low i ↔ lowAt v.rxInvert wave i = true := lowAt_iff.symm
    have bitsIs : bits = bitRead v wave := bits_eq lows (fun _ => Iff.rfl) reads
    have startsIs : starts ↔ charStarts v wave = true := starts_iff lows
    refine ⟨fun ignored => ?_, fun active falls => ?_⟩
    · exact congrArg ends (doTestCharacter_ignored (ignored.imp_right (mt startsIs.mpr)))
    · have data (i : Nat) (inside : i < 8) : (byteOf fun i => bits (i + 1)).getLsbD i = bits (i + 1) :=
        byteOf_getLsbD _ inside
      have readData (i : Nat) (inside : i < 8) : (byteOf fun i => bits (i + 1)).getLsbD i = bitRead v wave (i + 1) :=
        (data i inside).trans (congrFun bitsIs _)
      obtain ⟨c, read, is, harm⟩ := rxChar_judged (startsIs.mp falls) readData
      have damagedIs : c.damaged = true ↔ damaged := by
        rw [harm, ← bitsIs, ← even_iff data]
      have wrongIs : ¬ (checkerTake k.test.checker c.data).2 = true ↔ wrong := by
        rw [checkerTake_eq, checkerSteps_right _ _ le_rfl, is]
        simp only [wrong, not_forall]
        exact exists_congr fun i => exists_prop.trans (and_congr_right fun inside => by rw [data i inside])
      have errors : (judge k.test c).internalErrors = if k.test.seeded < 2 then k.test.internalErrors
          else if damaged ∨ wrong then (if k.test.internalErrors = 65535 then 0 else k.test.internalErrors + 1)
          else k.test.internalErrors :=
        (judge_errors k.test c).trans (if_congr Iff.rfl rfl (if_congr (or_congr damagedIs wrongIs) rfl rfl))
      refine ⟨judge k.test c, congrArg ends (doTestCharacter_judges active read), active, rfl, rfl, rfl, rfl,
        fun j inside => ?_, fun fine => ?_, fun seeded wrong => ?_⟩
      · rw [judge_checker _ _ inside, is]
        split
        · next low => rw [data _ (by omega), show 7 - j + 1 = 8 - j by omega]
        · rfl
      · rw [errors]
        split
        · rfl
        · next late => exact if_neg (fine.resolve_left late)
      · rw [errors, if_neg (by omega), if_pos wrong]

end Sys2Proof.Machine
end

section
/-! SUPPORT. Silence timers, gaps and the characters received. -/

namespace Sys2Proof.Machine

open Sys2Proof State

namespace State

/-! ## The supervisor heard (R175, R40) -/

theorem supervisorHeard_stays {s : State}
    (h : s.present = true ∨ ¬ (s.pln.round.isSome = true ∧ s.pln.cursor = none)) :
    s.supervisorHeard = s.updPort .sup fun p => { p with up := true, silence := true } := by
  unfold supervisorHeard
  dsimp only
  split
  · rfl
  · next absent =>
    refine if_neg fun waits => h.resolve_left absent ?_
    simpa [boundaryWait, updPort] using waits

theorem supervisorHeard_builds {s : State} (absent : s.present = false)
    (waits : s.pln.round.isSome = true ∧ s.pln.cursor = none) :
    s.supervisorHeard =
      (s.updPort .sup fun p => { p with up := true, silence := true }).buildNext.planSettle.planReport := by
  unfold supervisorHeard
  dsimp only
  rw [if_neg (by simp [absent])]
  exact if_pos (by simpa [boundaryWait, updPort] using waits)

/-! ## A machine goes OFFLINE (R100, R136, R143, R147) -/

theorem valveOffline_eq (s : State) : s.valveOffline = match s.ofu.queue.find? fun e => e.service.isSome with
    | some e => { s with ofu.queue := { e with service := none } :: s.ofu.queue.filter fun x => x.oven ≠ e.oven }
    | none => s := by
  unfold valveOffline
  cases s.ofu.queue.find? fun e => e.service.isSome with
  | none => rfl
  | some e =>
    have others : (s.ofu.queue.filter fun x => x.oven != e.oven) = s.ofu.queue.filter fun x => x.oven ≠ e.oven :=
      List.filter_congr fun x _ => by rw [decide_not, bne, beq_eq_decide]
    exact congrArg (fun q => s.setValves ({ e with service := none } :: q)) others

section
variable {s : State} (travel : (s.machine .qc).position = some .travel)
include travel

theorem checkEmptyPlace_travel : s.checkEmptyPlace none = match s.qnu.car.state with
    | .parked => s.sendCar (.toOven .park)
    | .spotted n => s.sendCar (.toOven (.oven n))
    | _ => s := by
  unfold checkEmptyPlace
  dsimp only
  cases s.qnu.car.state with
  | parked => exact if_neg (by simp [travel, EmptyDest.spot, CarSpot.position])
  | spotted n => exact if_neg (by simp [travel, EmptyDest.spot, CarSpot.position])
  | _ => rfl

theorem checkLoadedPlace_travel : s.checkLoadedPlace none =
    if (match s.qnu.car.state with
      | .loading _ => true
      | .quenching => true
      | .draining => true
      | .waitBay => true
      | .dumping => (s.qnu.load.bind LoadRec.bay).isSome
      | _ => false) = true ∧ s.qnu.car.positionFlag = false
    then State.raise { s with qnu.car.positionFlag := true } (.carPosition s.qnu.car.state none) else s := by
  have told (place : Position) (other : place ≠ .travel) (placed : s.loadedPlace = some place) :
      s.checkLoadedPlace none = if s.qnu.car.positionFlag = false
        then State.raise { s with qnu.car.positionFlag := true } (.carPosition s.qnu.car.state none) else s := by
    cases flag : s.qnu.car.positionFlag <;> simp [checkLoadedPlace, placed, travel, flag, other.symm, updCar]
  have quiet (unplaced : s.loadedPlace = none) : s.checkLoadedPlace none = s := by
    simp only [checkLoadedPlace, unplaced]
  cases car : s.qnu.car.state with
  | loading n => simpa [car] using told (.oven n .track) (by simp) (by simp only [loadedPlace, car])
  | quenching | draining | waitBay => simpa [car] using told .tower (by simp) (by simp only [loadedPlace, car])
  | dumping =>
    cases bay : s.qnu.load.bind LoadRec.bay with
    | none => simpa [bay] using quiet (by simp [loadedPlace, car, bay])
    | some b => simpa [car, bay] using told (.wharf b) (by simp) (by simp [loadedPlace, car, bay])
  | _ => simpa using quiet (by simp only [loadedPlace, car])

end

theorem qcOffline_eq {s : State} (travel : (s.machine .qc).position = some .travel) :
    let u : State := match s.qnu.car.move with
      | .issued _ _ => { s with qnu.car.move := .pending }
      | _ => s
    let v := match (s.machine .qc).mode, u.qnu.car.state with
      | some .auto, .parked => u.sendCar (.toOven .park)
      | some .auto, .spotted n => u.sendCar (.toOven (.oven n))
      | _, _ => u
    s.qcOffline = v.checkLoadedPlace none ∧ (v.machine .qc).position = some .travel := by
  intro u v
  have withdrawn : s.withdrawMove = u := by
    unfold withdrawMove
    rfl
  have machines : u.ilk.machines = s.ilk.machines := by rw [← withdrawn]; simp
  have uTravel : (u.machine .qc).position = some .travel := by simpa [machine, machines] using travel
  have sent : (if (u.machine .qc).mode == some .auto then u.checkEmptyPlace none else u) = v := by
    rw [checkEmptyPlace_travel uTravel]
    have sameMode : (u.machine .qc).mode = (s.machine .qc).mode := by simp [machine, machines]
    rw [sameMode]
    simp only [v]
    rcases (s.machine .qc).mode with _ | _ | _ <;> cases u.qnu.car.state <;> rfl
  constructor
  · unfold qcOffline
    dsimp only
    rw [withdrawn, sent]
  · have kept : v.ilk.machines = u.ilk.machines := by
      simp only [v]
      split <;> simp
    simpa [machine, kept] using uTravel

/-- What the blocks do as a machine goes OFFLINE (R49). -/
theorem online_handOffline (s : State) (m j : MachineId) : (s.handOffline m).online j = s.online j := by
  simp [online, mlink]

/-- A permit that the re-test lets stand has its machine ONLINE (R53, R56, R57). -/
theorem online_of_retestFail {s : State} {p : Permit} (good : s.retestFail p = none) :
    s.online (PermitKind.machine p.kind) = true := by
  have holds := retestFail_none.mp good
  unfold retestConditions at holds
  cases kind : p.kind with
  | doorOffPs =>
    have stands : s.Stands p.oven .pm .ps :=
      holds (s.Stands p.oven .pm .ps, .notAligned) (by simp [kind, kindConditions, doorOffConditions, Stands])
    exact stands.1
  | doorOffCs =>
    have stands : s.Stands p.oven .gc .cs :=
      holds (s.Stands p.oven .gc .cs, .notAligned) (by simp [kind, kindConditions, doorOffConditions, Stands])
    exact stands.1
  | push =>
    have stands : s.Stands p.oven .pm .ps ∧ s.ram = some .home :=
      holds (_, .notAligned) (by simp [kind, kindConditions, pushConditions])
    exact stands.1.1
  | charge =>
    have stands : s.Stands p.oven .cc .top :=
      holds (s.Stands p.oven .cc .top, .notAligned) (by simp [kind, kindConditions, chargeConditions, Stands])
    exact stands.1

theorem retestOne_offline {s : State} {m : MachineId} (offline : s.online m = false)
    (owned : ∀ p, s.permit m = some p → PermitKind.machine p.kind = m) : (s.retestOne m).permit m = none := by
  cases held : s.permit m with
  | none => rw [retestOne_free held, held]
  | some p =>
    cases fail : s.retestFail p with
    | none =>
      have on := online_of_retestFail fail
      rw [owned p held, offline] at on
      cases on
    | some r => rw [retestOne_bad held fail, revoke_permit, if_pos rfl]

theorem online_retestOne (s : State) (m j : MachineId) : (s.retestOne m).online j = s.online j := by
  simp [online, mlink]

/-- After the re-test no machine that is OFFLINE holds a permit of its own kinds. -/
theorem retest_offline {s : State} {m : MachineId} (offline : s.online m = false)
    (owned : ∀ p, s.permit m = some p → PermitKind.machine p.kind = m) : s.retest.permit m = none := by
  unfold retest
  cases m with
  | pm =>
    rw [retestOne_permit_ne (by simp), retestOne_permit_ne (by simp)]
    exact retestOne_offline offline owned
  | gc =>
    rw [retestOne_permit_ne (by simp)]
    refine retestOne_offline (by rw [online_retestOne, offline]) fun p held => owned p ?_
    rwa [retestOne_permit_ne (by simp)] at held
  | cc =>
    refine retestOne_offline (by rw [online_retestOne, online_retestOne, offline]) fun p held => owned p ?_
    rwa [retestOne_permit_ne (by simp), retestOne_permit_ne (by simp)] at held
  | qc =>
    rw [retestOne_permit_ne (by simp), retestOne_permit_ne (by simp), retestOne_permit_ne (by simp)]
    refine Option.eq_none_iff_forall_ne_some.mpr fun p held => ?_
    have own := owned p held
    cases kind : p.kind <;> simp [kind, PermitKind.machine] at own

theorem handOffline_permit {s : State} {m : MachineId} (offline : s.online m = false)
    (owned : ∀ p, s.permit m = some p → PermitKind.machine p.kind = m) : (s.handOffline m).permit m = none := by
  have kept : ∀ t : State, Within s.ilk.permits t.ilk.permits → t.online m = false → t.retest.permit m = none := by
    intro t within_ off
    refine retest_offline off fun p held => owned p ?_
    rcases within_ m with gone | same
    · rw [permit, gone] at held
      cases held
    · exact same.symm.trans held
  unfold handOffline
  refine kept _ ?_ ?_
  · cases m <;> simp [Within.refl]
  · have off : (s.mlink m).port.up = false := offline
    cases m <;> simpa [online, mlink] using off

/-! ## The receive assembly (R171) -/

theorem updPort_updPort (s : State) (l : LinkId) (f g : Port → Port) : (s.updPort l f).updPort l g = s.updPort l (g ∘ f) := by
  cases l with
  | sup => rfl
  | mach m => exact updLink_updLink s m (fun k => { k with port := f k.port }) (fun k => { k with port := g k.port })

theorem discarded_eq (s : State) (l : LinkId) (c : DiscardCause) : (s.setRx l .hunting).discard l c =
    s.updPort l fun p => { p with rx := .hunting, errors := min 255 (p.errors + 1), lastCause := some c } :=
  updPort_updPort s l _ _

theorem inTest_eq {s : State} {l : LinkId} (untested : ∀ m, l = .mach m → s.untested m) : s.inTest l = false := by
  cases l with
  | sup => rfl
  | mach m => exact untested m rfl

theorem doCharacterGapExpiry_hunting {s : State} {l : LinkId} (hunt : (s.port l).rx.stage = .hunt) :
    doCharacterGapExpiry l s = s := if_pos (by simp [hunt])

theorem doCharacterGapExpiry_begun {s : State} {l : LinkId} (untested : s.inTest l = false)
    (begun : (s.port l).rx.stage ≠ .hunt) : doCharacterGapExpiry l s = s.updPort l fun p =>
      { p with rx := .hunting, errors := min 255 (p.errors + 1), lastCause := some .gap } :=
  (if_neg (by simp [untested, begun])).trans (updPort_updPort s l _ _)

section
variable {s : State} {l : LinkId} {b : Byte}

theorem assemble_hunt (stage : (s.port l).rx.stage = .hunt) :
    assemble l b s = if b = 0x5A#8 then s.setRx l ⟨.length, 0, []⟩ else s := by
  simp only [assemble, stage]

theorem assemble_length (stage : (s.port l).rx.stage = .length) : assemble l b s =
    if 1 ≤ b.toNat ∧ b.toNat ≤ 60 then s.setRx l ⟨.body, b.toNat, []⟩ else (s.setRx l .hunting).discard l .len := by
  simp [assemble, stage, within]

theorem assemble_body (stage : (s.port l).rx.stage = .body) : assemble l b s =
    s.setRx l ⟨if ((s.port l).rx.chars ++ [b]).length < (s.port l).rx.len then .body else .check, (s.port l).rx.len,
      (s.port l).rx.chars ++ [b]⟩ := by
  simp only [assemble, stage]

theorem assemble_check (stage : (s.port l).rx.stage = .check) : assemble l b s =
    if ((s.port l).rx.chars ++ [b]).length < (s.port l).rx.len + 2
    then s.setRx l ⟨.check, (s.port l).rx.len, (s.port l).rx.chars ++ [b]⟩
    else completeFrame l (s.port l).rx.len ((s.port l).rx.chars ++ [b]) (s.setRx l .hunting) := by
  simp only [assemble, stage]

theorem completeFrame_eq {len : Nat} {kind : Byte} {body : List Byte} (whole : len = body.length + 1) (hi lo : Byte) :
    completeFrame l len ((kind :: body) ++ [hi, lo]) s =
      if crc16 (BitVec.ofNat 8 len :: kind :: body) = hi ++ lo then takeFrame l (frameOf l kind body) s
      else s.discard l .check := by
  subst whole
  simp [completeFrame]

theorem doCharacterReceived_none {wave : LineWave} (untested : s.inTest l = false)
    (read : rxChar (s.port l).settings wave = none) : doCharacterReceived l wave s = s := by
  simp [doCharacterReceived, untested, read]

theorem doCharacterReceived_some {wave : LineWave} {c : RxChar} (untested : s.inTest l = false)
    (read : rxChar (s.port l).settings wave = some c) : doCharacterReceived l wave s = takeChar l c s := by
  simp [doCharacterReceived, untested, read]

end
end State

/-- A command that a frame carries is executed as the frame is taken. -/
theorem exec_carried {c : Instr} (carried : (requestTag c).isSome ∨ (senderOf c).isSome) (s : State) :
    exec c s = ends (runFrame c s) := by
  rcases carried with tag | sender
  · cases c <;> cases tag <;> rfl
  · cases c <;> cases sender <;> rfl

/-- Settles O56. -/
theorem silenceGapsAndCharacters : Obligations.SilenceGapsAndCharacters := by
  unfold Obligations.SilenceGapsAndCharacters
  refine ⟨fun s => ⟨supervisorHeard_stays, supervisorHeard_builds⟩, fun s m travel => ?_, fun s m => ?_, fun s => ?_,
    fun s l c carried => ?_, fun s l => ⟨fun tag => rfl, fun c => rfl⟩, fun s l untested => ⟨fun hunt => ?_, fun begun => ?_⟩,
    fun s m test => ⟨?_, fun wave => ?_⟩, fun s l wave bits b untested => ?_⟩
  · intro door valve car
    cases m with
    | pm => rfl
    | gc => rfl
    | cc => exact congrArg (fun u => (State.pushLoses u .cc).retest) s.valveOffline_eq
    | qc =>
      have quench : s.qcOffline = car := by
        obtain ⟨offline, stays⟩ := qcOffline_eq travel
        exact offline.trans (checkLoadedPlace_travel stays)
      exact congrArg (fun u => (State.pushLoses u .qc).retest) quench
  · intro off
    have down : off.online m = false := by simp [off, online, mlink, updPort]
    have samePermit : off.permit m = s.permit m := by simp [off, permit, updPort]
    refine ⟨fun stopped => ?_, fun runs offline => ?_, fun runs on => ⟨?_, ?_, ?_, fun owned => ?_⟩⟩
    · exact congrArg ends (if_neg (by simp [stopped]))
    · exact congrArg ends ((if_pos runs).trans (if_neg (by simp [offline])))
    · exact congrArg ends ((if_pos runs).trans (if_pos on))
    · rw [online_handOffline]
      exact down
    · simp
    · exact handOffline_permit down fun p held => owned p (samePermit.symm.trans held)
  · intro lost
    refine ⟨fun stopped => ?_, fun runs absent => ?_, fun runs present => ?_⟩
    · exact congrArg ends (if_neg (by simp [stopped]))
    · exact congrArg ends ((if_pos runs).trans (if_neg (by simp [absent])))
    · exact congrArg ends ((if_pos runs).trans (if_pos present))
  · exact (exec_carried carried s).symm
  · exact congrArg ends (doCharacterGapExpiry_hunting hunt)
  · exact congrArg ends (doCharacterGapExpiry_begun (inTest_eq untested) begun)
  · exact congrArg ends (doCharacterGapExpiry_inTest test)
  · exact congrArg ends (doCharacterReceived_inTest test wave)
  · intro v low pulse zero starts reads data rx put dropped ones even stop good chars run
    have lows (i : Nat) : low i ↔ lowAt v.rxInvert wave i = true := lowAt_iff.symm
    have bitsIs : bits = bitRead v wave := bits_eq lows (fun _ => Iff.rfl) reads
    have startsIs : starts ↔ charStarts v wave = true := starts_iff lows
    have quiet : s.inTest l = false := inTest_eq untested
    have read (falls : starts) := rxChar_eq (startsIs.mp falls) fun i inside => (data i inside).trans (congrFun bitsIs _)
    rw [← bitsIs] at read
    have evenIs : even ↔ bits 9 = parityBit b := even_iff data
    have takes {c : RxChar} (is : rxChar v wave = some c) : run = ends (takeChar l c s) :=
      congrArg ends (doCharacterReceived_some quiet is)
    have drops (c : DiscardCause) : ends ((s.setRx l .hunting).discard l c) = dropped c :=
      congrArg ends (discarded_eq s l c)
    have framed (falls : starts) (isEven : even) (noStop : ¬ stop) : run = dropped .framing := by
      have is := read falls
      rw [if_pos (evenIs.mp isEven), if_neg noStop] at is
      exact (takes is).trans (drops .framing)
    have taken (fine : good) : run = ends (assemble l b s) := by
      obtain ⟨falls, isEven, stops⟩ := fine
      have is := read falls
      rw [if_pos (evenIs.mp isEven), if_pos stops] at is
      exact takes is
    refine ⟨fun noStart => ?_, fun falls odd stops => ?_, framed, fun falls odd noStop => ?_, fun fine stage => ?_,
      fun fine stage low_ high => ?_, fun fine stage bad => ?_, fun fine stage => ?_, fun fine stage more => ?_,
      fun kind body hi lo fine stage len whole => ?_⟩
    · exact congrArg ends (doCharacterReceived_none quiet (rxChar_none (mt startsIs.mpr noStart)))
    · have is := read falls
      rw [if_neg (mt evenIs.mpr odd), if_pos stops] at is
      exact (takes is).trans (drops .parity)
    · have is := read falls
      rw [if_neg (mt evenIs.mpr odd), if_neg noStop] at is
      cases first : Config.parityFirst wave with
      | true =>
        rw [first, if_pos rfl] at is
        exact .inl ((takes is).trans (drops .parity))
      | false =>
        rw [first, if_neg (by simp)] at is
        exact .inr ((takes is).trans (drops .framing))
    · exact (taken fine).trans (congrArg ends (assemble_hunt stage))
    · exact (taken fine).trans (congrArg ends ((assemble_length stage).trans (if_pos ⟨low_, high⟩)))
    · refine (taken fine).trans ((congrArg ends ((assemble_length stage).trans (if_neg ?_))).trans (drops .len))
      omega
    · exact (taken fine).trans (congrArg ends (assemble_body stage))
    · exact (taken fine).trans (congrArg ends ((assemble_check stage).trans (if_pos more)))
    · have full : ¬ chars.length < rx.len + 2 := by
        rw [whole, len]
        simp
      have completes : run = ends (completeFrame l rx.len chars (s.setRx l .hunting)) :=
        (taken fine).trans (congrArg ends ((assemble_check stage).trans (if_neg full)))
      rw [whole, completeFrame_eq len] at completes
      refine ⟨fun wrong => ?_, fun right => ?_⟩
      · rw [if_neg wrong] at completes
        exact completes.trans (drops .check)
      · rw [if_pos right] at completes
        exact completes

end Sys2Proof.Machine
end

section
/-! SUPPORT. The transmitters, the expiries of a held battery time, and the characters of what is sent. -/

namespace Sys2Proof.Machine

open Sys2Proof State

namespace State

/-! ## The transmitters at the end of an event (R177, R178) -/

section
variable {s : State}

theorem kickSup_busy (busy : s.lnk.sup.sending.isSome) : s.kickSup = s := by
  obtain ⟨f, sending⟩ := Option.isSome_iff_exists.mp busy
  simp only [kickSup, sending]

theorem kickSup_answer {a : Answer} {rest : List Answer} (idle : s.lnk.sup.sending = none)
    (head : s.lnk.sup.answers = a :: rest) : s.kickSup =
    { s.beginSup (.answer a.tag a.reply (a.begun + 1) (decide (a.reply.data.parts ≤ a.begun + 1))) with
      lnk.sup.answers := if a.reply.data.parts ≤ a.begun + 1 then rest else { a with begun := a.begun + 1 } :: rest } := by
  simp only [kickSup, idle, head, decide_eq_true_eq]

theorem kickSup_notice {n : Notice} {rest : List Notice} (idle : s.lnk.sup.sending = none)
    (none_ : s.lnk.sup.answers = []) (present : s.present = true) (head : s.lnk.sup.notices = n :: rest) : s.kickSup =
    { s.beginSup (.notice n) with lnk.sup.notices := rest } := by
  simp only [kickSup, idle, none_, present, head, if_true]

theorem kickSup_rests (idle : s.lnk.sup.sending = none) (none_ : s.lnk.sup.answers = [])
    (rests : s.present = false ∨ s.lnk.sup.notices = []) : s.kickSup = s := by
  rcases rests with absent | empty
  · simp [kickSup, idle, none_, absent]
  · simp [kickSup, idle, none_, empty]

end

theorem kick_sup (s : State) : s.kick.lnk.sup = s.kickSup.lnk.sup := rfl

/-- What the transmitters write. -/
theorem kick_writes (s : State) : s.kick = { s with
    lnk.sup.sending := s.kick.lnk.sup.sending, lnk.sup.line := s.kick.lnk.sup.line
    lnk.sup.answers := s.kick.lnk.sup.answers, lnk.sup.notices := s.kick.lnk.sup.notices, lnk.mach := s.kick.lnk.mach } := by
  unfold kick kickSup
  (repeat' split) <;> rfl

theorem kickLink_eq (k : MLink) : kickLink k = match k.sending, k.test.active, k.queue with
    | none, false, f :: rest => { k with
        sending := some f, line := f.chars.map (charCells k.port.settings), queue := rest
        suppressed := k.suppressed && !rest.isEmpty }
    | _, _, q => { k with suppressed := k.suppressed && !q.isEmpty } := by
  obtain ⟨port, queue, sending, line, suppressed, test⟩ := k
  have clears (q : List MFrame) (snd : Option MFrame) (l : List CharCells) :
      (if q.isEmpty then (⟨port, q, snd, l, false, test⟩ : MLink) else ⟨port, q, snd, l, suppressed, test⟩)
        = ⟨port, q, snd, l, suppressed && !q.isEmpty, test⟩ := by
    cases q <;> simp
  cases sending with
  | some f => simpa [kickLink] using clears queue (some f) line
  | none =>
    cases active : test.active with
    | true => simpa [kickLink, active] using clears queue none line
    | false =>
      cases queue with
      | nil => simp [kickLink, active]
      | cons f rest => simpa [kickLink, active, beginLink] using clears rest (some f) (f.chars.map (charCells port.settings))

/-! ## Held battery time (R3) -/

theorem sweepOnce_eq (s : State) :
    let ovens := numbers 1 s.nOv
    let table := ovens.foldl State.overdueCheck (ovens.foldl State.readyExpire s)
    let permits := ((table.dueExpire.holdOverExpire.deadlineExpire .pm).deadlineExpire .gc).deadlineExpire .cc
    let doors := ovens.foldl (fun u n => (u.confirmTimerExpire n .ps).confirmTimerExpire n .cs)
      permits.ramTimerExpire.lateTimerExpire
    let tasks := (((doors.taskTimerExpire .ps).taskTimerExpire .cs).visitTimerExpire .ps).visitTimerExpire .cs
    let charges := ovens.foldl State.chargeTimerExpire tasks.isolateExpire.valveTimerExpire
    let car := charges.moveTimerExpire.hotTimerExpire.sprayExpire.drainExpire
    s.sweepOnce = ((numbers 1 car.qnu.bays.length).foldl State.coolExpire car).gateExpire := by
  simp only [sweepOnce, forEach_eq_foldl]

/-! ## Notices and frames that join their queues (R177, R178) -/

theorem mlink_set (s : State) (m j : MachineId) (x : MLink) :
    ({ s with lnk.mach := s.lnk.mach.set m x } : State).mlink j = if j = m then x else s.mlink j := by
  cases m <;> cases j <;> rfl

section
variable {s : State} {m : MachineId} {f : MFrame}

theorem send_testing (test : (s.mlink m).test.active = true) : s.send m f = s := if_pos test

variable (idle : (s.mlink m).test.active = false)
include idle

theorem send_joins (room : (s.mlink m).queue.length < 16) :
    s.send m f = s.updLink m fun k => { k with queue := k.queue ++ [f] } :=
  (if_neg (by simp [idle])).trans (if_pos room)

theorem send_dropped (full : 16 ≤ (s.mlink m).queue.length) (told : (s.mlink m).suppressed = true) : s.send m f = s :=
  (if_neg (by simp [idle])).trans ((if_neg (by omega)).trans (if_pos told))

theorem send_overrun (full : 16 ≤ (s.mlink m).queue.length) (first : (s.mlink m).suppressed = false) : s.send m f =
    (s.updLink m fun k => { k with suppressed := true }).raise (.outputOverrun m f.kind) :=
  (if_neg (by simp [idle])).trans ((if_neg (by omega)).trans (if_neg (by simp [first])))

end
end State

/-! ## The end of a frame (R169, R177) -/

theorem doMLinkFrameSent_idle {s : State} {m : MachineId} (idle : (s.mlink m).sending = none) :
    doMLinkFrameSent m s = s :=
  updLink_eq_self (by simp only [State.endFrame, idle])

theorem doMLinkFrameSent_ends {s : State} {m : MachineId} (busy : (s.mlink m).sending.isSome) :
    doMLinkFrameSent m s = s.updLink m fun k => { k with sending := none, line := [] } := by
  obtain ⟨f, sending⟩ := Option.isSome_iff_exists.mp busy
  exact updLink_congr (by simp only [State.endFrame, sending])

/-- The state with the S-link's transmitter idle and its line at rest. -/
def quietSup (s : State) : State := { s with lnk.sup.sending := none, lnk.sup.line := [] }

theorem doSLinkFrameSent_notice {s : State} {n : Notice} (sending : s.lnk.sup.sending = some (.notice n)) :
    doSLinkFrameSent s = quietSup s := by
  simp only [doSLinkFrameSent, sending]
  rfl

theorem doSLinkFrameSent_answer {s : State} {tag : Byte} {r : Reply} {part : Nat} {fin : Bool}
    (sending : s.lnk.sup.sending = some (.answer tag r part fin)) : doSLinkFrameSent s = match (generalizing := false) fin, r.settings with
      | true, some v => { quietSup s with lnk.sup.port.settings := v }
      | _, _ => quietSup s := by
  obtain ⟨code, data, settings⟩ := r
  unfold doSLinkFrameSent
  rw [sending]
  cases fin with
  | false => rfl
  | true => cases settings <;> rfl

/-! ## The characters sent (R171, R173, R176) -/

theorem num2_toNat (x : BitVec 16) : num2 x.toNat = [x.extractLsb' 8 8, x.extractLsb' 0 8] := by
  have high : BitVec.ofNat 8 (x.toNat / 256) = x.extractLsb' 8 8 := by
    apply BitVec.eq_of_toNat_eq
    simp [BitVec.extractLsb'_toNat, Nat.shiftRight_eq_div_pow]
  have low : BitVec.ofNat 8 x.toNat = x.extractLsb' 0 8 := by
    apply BitVec.eq_of_toNat_eq
    simp [BitVec.extractLsb'_toNat]
  simp only [num2, num1, high, low, List.cons_append, List.nil_append]

theorem frameChars_eq (kind : Byte) {body : List Byte} (fits : body.length ≤ 59) :
    let checked := BitVec.ofNat 8 (body.length + 1) :: kind :: body
    frameChars kind body = 0x5A#8 :: checked ++ [(crc16 checked).extractLsb' 8 8, (crc16 checked).extractLsb' 0 8] := by
  intro checked
  have whole : body.take 59 = body := List.take_of_length_le fits
  simp only [frameChars, whole, num2_toNat, num1, List.length_cons]
  rfl

theorem frameChars_length (kind : Byte) (body : List Byte) : (frameChars kind body).length = min 59 body.length + 5 := by
  simp [frameChars, num1, num2]

theorem crcByte_eq (c : BitVec 16) (b : Byte) : crcByte c b =
    [7, 6, 5, 4, 3, 2, 1, 0].foldl (fun (c : BitVec 16) (i : Nat) =>
      if c.getLsbD 15 ≠ b.getLsbD i then (c <<< 1) ^^^ 0x1021#16 else c <<< 1) c := by
  have step : (fun c i => crcBit c (b.getLsbD i)) = fun (c : BitVec 16) (i : Nat) =>
      if c.getLsbD 15 ≠ b.getLsbD i then (c <<< 1) ^^^ 0x1021#16 else c <<< 1 := by
    funext c i
    exact if_congr bne_iff_ne rfl rfl
  rw [crcByte, step]

theorem MFrame.body_length (f : MFrame) : f.body.length ≤ 59 := by
  cases f with
  | refuse k n r held => cases k <;> cases held <;> simp [MFrame.body, reqKindField, heldField, num1, num4, num2]
  | orderTask k n d visit => cases d <;> simp [MFrame.body, num1, sideField, flagField]
  | orderMove dest => cases dest <;> simp [MFrame.body, destField, num1]
  | _ => simp [MFrame.body, num1, num2, num4]

theorem MFrame.body_eq (f : MFrame) : f.body =
    let b1 (n : Nat) : Byte := BitVec.ofNat 8 n
    let time (n : Nat) : List Byte := [b1 (n / 16777216), b1 (n / 65536), b1 (n / 256), b1 n]
    match f with
    | .grant k n deadline => Config.permitKindCode k :: b1 n :: time deadline
    | .refuse k n r held => (match k with
        | .known k => Config.permitKindCode k
        | .unknown code => code) :: b1 n :: Config.reasonCode r :: (match held with
        | some p => Config.permitKindCode p.kind :: b1 p.oven :: time p.deadline
        | none => [])
    | .revoke k n r => [Config.permitKindCode k, b1 n, Config.reasonCode r]
    | .orderTask k n d visit => [Config.orderTypeCode .task, Config.taskKindCode k, b1 n,
        Config.spotSideCode (match d with
          | .ps => .ps
          | .cs => .cs), Config.flagCode visit]
    | .orderValve a n => [Config.orderTypeCode .task, Config.actionCode a, b1 n]
    | .orderMove .park => [Config.orderTypeCode .move, Config.spotTypeCode .park, Config.noNumber]
    | .orderMove (.oven n) => [Config.orderTypeCode .move, Config.spotTypeCode .oven, b1 n]
    | .orderMove .tower => [Config.orderTypeCode .move, Config.spotTypeCode .tower, Config.noNumber]
    | .orderMove (.bay b) => [Config.orderTypeCode .move, Config.spotTypeCode .wharf, b1 b]
    | .orderDump b => [Config.orderTypeCode .dump, b1 b]
    | .stop c => [Config.holdCauseCode c]
    | .clear c => [Config.holdCauseCode c] := by
  cases f with
  | grant k n deadline => simp only [MFrame.body, num4_eq]; rfl
  | refuse k n r held => cases k <;> cases held <;> simp only [MFrame.body, num4_eq, heldField, Option.map] <;> rfl
  | orderTask k n d visit => cases d <;> rfl
  | orderMove dest => cases dest <;> rfl
  | _ => rfl

/-- Settles O4. -/
theorem transmittersTakeTheNextFrame : Obligations.TransmittersTakeTheNextFrame := by
  unfold Obligations.TransmittersTakeTheNextFrame
  refine ⟨fun u => ?_, fun s => ?_, fun s b => ⟨fun room => if_pos room, fun full => if_neg (by omega)⟩, fun s m f => ?_,
    fun s tag r => rfl, fun s => ?_, fun kind body fits => frameChars_eq kind fits, fun kind body => (frameChars_take kind body).symm,
    rfl, fun sent b => (crc16_append sent b).trans (crcByte_eq _ b), fun f => ⟨f.body_length, ?_, ?_⟩, fun note => ?_,
    fun f => ?_, fun d => ?_⟩
  · intro s
    refine ⟨s.kick, rfl, s.kick_writes, fun busy => ?_, fun idle a rest head => ?_, fun idle none_ present n rest head => ?_,
      fun idle none_ rests => ?_, fun m => ?_⟩
    · rw [kick_sup, kickSup_busy busy]
    · rw [kick_sup, kickSup_answer idle head]
      exact ⟨rfl, rfl, rfl, rfl⟩
    · rw [kick_sup, kickSup_notice idle none_ present head]
      rfl
    · rw [kick_sup, kickSup_rests idle none_ rests]
    · exact (s.kick_mlink m).trans (kickLink_eq (s.mlink m))
  · exact ⟨rfl, fun k => rfl, s.sweepOnce_eq, fun n => ⟨rfl, rfl, rfl, rfl⟩, rfl, rfl, fun m => rfl, rfl, rfl,
      fun d => ⟨rfl, rfl, fun n => rfl⟩, rfl, rfl, rfl, rfl, rfl, rfl, rfl⟩
  · intro k kind linkAt
    have sameKind : f.kind = kind := by cases f <;> rfl
    refine ⟨fun x j => s.mlink_set m j x, send_testing, send_joins, send_dropped, fun idle full first => ?_⟩
    rw [send_overrun idle full first, sameKind]
    rfl
  · intro quiet
    refine ⟨fun m => ⟨fun idle => congrArg ends (doMLinkFrameSent_idle idle), fun busy => congrArg ends (doMLinkFrameSent_ends busy)⟩,
      fun idle => ?_, fun n sending => congrArg ends (doSLinkFrameSent_notice sending),
      fun tag r part fin sending => congrArg ends (doSLinkFrameSent_answer sending)⟩
    exact congrArg ends (by simp only [doSLinkFrameSent, idle])
  · cases f <;> rfl
  · exact f.body_eq
  · obtain ⟨time, body⟩ := note
    intro b1 b2 i2 b4 flag opt side numbered dest track spot car fn work mark result place link fields
    have b4Is : num4 = b4 := funext num4_eq
    have i2Is : int2 = i2 := funext int2_eq
    have sideIs (d : Side) : sideField d = side d := by cases d <;> rfl
    have destIs (x : MoveDest) : destField x = dest x := by cases x <;> rfl
    have trackIs : trackSpotField = track := funext fun x => by cases x <;> rfl
    have spotIs : spotField = spot := funext fun x => by cases x <;> rfl
    have carIs (c : CarState) : carStateField c = car c := by
      cases c with
      | toOven d => cases d <;> rfl
      | _ => rfl
    have fnIs (x : TermFn) : fnField x = fn x := by cases x <;> rfl
    have workIs (w : WorkItem) : workField w = work w := by cases w <;> rfl
    have markIs (w : WorkItem) (visit : Bool) : roundField w visit = mark w visit := by cases w <;> rfl
    have resultIs (r : WorkResult) : workResultField r = result r := by cases r <;> rfl
    have placeIs (p : WorkPlace) : workPlaceField p = place p := by
      cases p with
      | side d => exact sideIs d
      | cc => rfl
    have kindIs (k : MKind) : k.code = (match k with
        | .grant => 0x41#8
        | .refuse => 0x42#8
        | .revoke => 0x43#8
        | .order => 0x44#8
        | .stop => 0x45#8
        | .clear => 0x46#8) := by cases k <;> rfl
    have fieldsIs : body.fields = fields := by
      cases body with
      | trackBlocked moving x spots =>
        have joined : flag moving ++ dest x ++ listField track spots = fields := by
          simp only [listField, ← List.append_assoc]
          exact rfl
        rw [← joined, NoticeBody.fields, trackIs, destIs]
        exact rfl
      | _ => simp only [NoticeBody.fields, b4Is, i2Is, sideIs, destIs, spotIs, carIs, fnIs, workIs, markIs, resultIs,
          placeIs, kindIs] <;> rfl
    show frameChars 0xC2#8 (Config.noticeCode body.ctorIdx :: num4 time ++ body.fields) = _
    rw [b4Is, fieldsIs]
  · obtain ⟨body, chars⟩ : ∃ body, f.chars = frameChars (match f with
        | .answer .. => 0xC1#8
        | .notice .. => 0xC2#8) body := by
      cases f with
      | answer tag r part fin => exact ⟨answerBody tag r part fin, rfl⟩
      | notice n => exact ⟨noticeBody n, rfl⟩
    have length : f.chars.length = min 59 body.length + 5 := by rw [chars, frameChars_length]
    refine ⟨by omega, by omega, body.take 59, by simp, ?_⟩
    exact chars.trans (frameChars_take _ body).symm
  · obtain ⟨whole, small, short⟩ := d.pieces_spec
    refine ⟨whole, small, short, fun tag r part fin p is at0 => ?_⟩
    subst is
    have share : answerBody tag r (part + 1) fin =
        tag :: Config.resultCode r.result :: BitVec.ofNat 8 (part + 1) :: Config.flagCode fin :: p := by
      simp [answerBody, at0, num1, flagField]
    exact congrArg (frameChars 0xC1#8) share

end Sys2Proof.Machine
end

section
/-! SUPPORT. The bodies of the frames received: what each kind and name makes of its fields. -/

namespace Sys2Proof.Machine

open Sys2Proof Config State

/-! ## Frames that are not taken (R176, R179) -/

theorem exec_overrun {c : Instr} {tag : Byte} {s : State} (request : requestTag c = some tag)
    (full : 4 ≤ s.lnk.sup.answers.length) : exec c s = ends (s.discard .sup .overrun) := by
  rw [exec_carried (.inl (by simp [request])), runFrame_request request, request_overrun full]

theorem exec_testing {c : Instr} {m : MachineId} {s : State} (sender : senderOf c = some m)
    (test : (s.mlink m).test.active = true) : exec c s = ends s := by
  rw [exec_carried (.inr (by simp [sender])), runFrame_machine sender, machineFrame_ignored test]

/-! ## What each kind reads (R173) -/

section
variable (m : MachineId) (body : List Byte)

theorem frameOf_status : frameOf (.mach m) 0x01#8 body = takenMachine (Reader.status m body) := rfl

theorem frameOf_request : frameOf (.mach m) 0x02#8 body = requestBody m body := rfl

theorem frameOf_report : frameOf (.mach m) 0x03#8 body = reportBody m body := rfl

theorem frameOf_setup : frameOf .sup 0x81#8 body = namedBody blockOf Reader.setup body := rfl

theorem frameOf_command : frameOf .sup 0x82#8 body = namedBody commandOf Reader.command body := rfl

theorem frameOf_query : frameOf .sup 0x83#8 body = namedBody subjectOf Reader.query body := rfl

end

theorem frameOf_otherKind {l : LinkId} {kind : Byte} (body : List Byte) (other : kind ∉ (match l with
    | .mach _ => [0x01#8, 0x02#8, 0x03#8]
    | .sup => [0x81#8, 0x82#8, 0x83#8])) : frameOf l kind body = .discard .kind := by
  cases l with
  | mach m =>
    obtain ⟨a, b, c⟩ : kind ≠ 0x01#8 ∧ kind ≠ 0x02#8 ∧ kind ≠ 0x03#8 := by simpa using other
    exact (if_neg a).trans ((if_neg b).trans (if_neg c))
  | sup =>
    obtain ⟨a, b, c⟩ : kind ≠ 0x81#8 ∧ kind ≠ 0x82#8 ∧ kind ≠ 0x83#8 := by simpa using other
    exact (if_neg a).trans ((if_neg b).trans (if_neg c))

section
variable {α : Type} {f : Byte → Option α} {read : Byte → α → Reader (Option Instr)} {tag b : Byte}

theorem namedBody_known {a : α} (known : f b = some a) (fields : List Byte) :
    namedBody f read (tag :: b :: fields) = takenRequest tag (read tag a fields) := by
  simp only [namedBody, known]

theorem namedBody_unknown (unknown : f b = none) (fields : List Byte) :
    namedBody f read (tag :: b :: fields) = .format tag := by
  simp only [namedBody, unknown]

theorem namedBody_short {body : List Byte} (short : body.length < 2) : namedBody f read body = .discard .len := by
  rcases body with _ | ⟨a, _ | ⟨b, rest⟩⟩
  · rfl
  · rfl
  · simp only [List.length_cons] at short
    omega

end

/-! ## Too long and too short (R171) -/

/-- A frame's body that, lengthened or shortened, is LEN. -/
def ExactBody (f : List Byte → Taken) (body : List Byte) : Prop :=
  (∀ extra, extra ≠ [] → f (body ++ extra) = .discard .len) ∧ ∀ k, k < body.length → f (body.take k) = .discard .len

theorem takenMachine_message {r : Except BodyFault (Option Instr × List Byte)} {c : Instr}
    (h : takenMachine r = .message c) : ∃ rest, r = .ok (some c, rest) := by
  rcases r with e | ⟨_ | i, rest⟩
  · cases e <;> cases h
  · cases h
  · exact ⟨rest, by rw [Taken.message.inj h]⟩

theorem takenRequest_message {tag : Byte} {r : Except BodyFault (Option Instr × List Byte)} {c : Instr}
    (h : takenRequest tag r = .message c) : ∃ rest, r = .ok (some c, rest) := by
  rcases r with e | ⟨_ | i, rest⟩
  · cases e <;> cases h
  · cases h
  · exact ⟨rest, by rw [Taken.message.inj h]⟩

theorem exactBody_machine {r : Reader (Option Instr)} (whole : Reader.Whole r) {body : List Byte} {c : Instr}
    (h : takenMachine (r body) = .message c) : ExactBody (fun bs => takenMachine (r bs)) body := by
  obtain ⟨rest, ok⟩ := takenMachine_message h
  obtain ⟨long, short⟩ := whole _ _ _ ok
  refine ⟨fun extra more => ?_, fun k less => ?_⟩
  · simp only [long extra more, takenMachine]
  · simp only [short k less, takenMachine]

theorem exactBody_request (m : MachineId) {body : List Byte} (two : body.length = 2)
    (others : ∀ bs : List Byte, bs.length ≠ 2 → requestBody m bs = .discard .len) : ExactBody (requestBody m) body := by
  refine ⟨fun extra more => others _ ?_, fun k less => others _ ?_⟩
  · have := List.length_pos_iff.mpr more
    rw [List.length_append]
    omega
  · rw [List.length_take]
    omega

theorem requestBody_len (m : MachineId) {bs : List Byte} (h : bs.length ≠ 2) : requestBody m bs = .discard .len := by
  rcases bs with _ | ⟨a, _ | ⟨b, _ | ⟨c, rest⟩⟩⟩
  · rfl
  · rfl
  · exact absurd rfl h
  · rfl

theorem exactBody_report {m : MachineId} {body : List Byte} {c : Instr} (h : reportBody m body = .message c) :
    ExactBody (reportBody m) body := by
  rcases body with _ | ⟨b, fields⟩
  · cases h
  cases known : reportOf b with
  | none =>
    rw [show reportBody m (b :: fields) = .discard .kind by simp only [reportBody, known]] at h
    cases h
  | some rep =>
    have reads (bs : List Byte) : reportBody m (b :: bs) = takenMachine (Reader.report m rep bs) := by
      simp only [reportBody, known]
    rw [reads] at h
    obtain ⟨long, short⟩ := exactBody_machine (Reader.whole_report m rep) h
    refine ⟨fun extra more => (reads _).trans (long extra more), fun k less => ?_⟩
    cases k with
    | zero => rfl
    | succ k => exact (reads _).trans (short k (by simpa using less))

theorem exactBody_named {α : Type} {f : Byte → Option α} {read : Byte → α → Reader (Option Instr)}
    (form : ∀ tag a, Reader.WholeOr (read tag a)) {body : List Byte} {c : Instr}
    (h : namedBody f read body = .message c) (fixed : Reader.optionalForm c = false) : ExactBody (namedBody f read) body := by
  rcases body with _ | ⟨tag, _ | ⟨b, fields⟩⟩
  · cases h
  · cases h
  cases known : f b with
  | none =>
    rw [namedBody_unknown known] at h
    cases h
  | some a =>
    rw [namedBody_known known] at h
    obtain ⟨rest, ok⟩ := takenRequest_message h
    rcases form tag a with whole | only
    · obtain ⟨long, short⟩ := whole _ _ _ ok
      refine ⟨fun extra more => ?_, fun k less => ?_⟩
      · exact (namedBody_known known (fields ++ extra)).trans (congrArg (takenRequest tag) (long extra more))
      · rcases k with _ | _ | k
        · rfl
        · rfl
        · exact (namedBody_known known _).trans (by simp only [short k (by simpa using less), takenRequest])
    · rw [only _ _ _ ok] at fixed
      cases fixed

theorem frameOf_exact {l : LinkId} {kind : Byte} {body : List Byte} {c : Instr} (h : frameOf l kind body = .message c)
    (fixed : Reader.optionalForm c = false) : ExactBody (frameOf l kind) body := by
  cases l with
  | mach m =>
    by_cases status : kind = 0x01#8
    · subst status
      exact exactBody_machine (Reader.whole_status m) h
    by_cases request : kind = 0x02#8
    · subst request
      refine exactBody_request m ?_ fun bs => requestBody_len m
      by_contra other
      rw [frameOf_request, requestBody_len m other] at h
      cases h
    by_cases report : kind = 0x03#8
    · subst report
      exact exactBody_report h
    · rw [frameOf_otherKind body (by simp [status, request, report])] at h
      cases h
  | sup =>
    by_cases setup : kind = 0x81#8
    · subst setup
      exact exactBody_named Reader.setup_form h fixed
    by_cases command : kind = 0x82#8
    · subst command
      exact exactBody_named Reader.command_form h fixed
    by_cases query : kind = 0x83#8
    · subst query
      exact exactBody_named Reader.query_form h fixed
    · rw [frameOf_otherKind body (by simp [setup, command, query])] at h
      cases h

/-! ## Numbers of several characters, high first (R173) -/

/-- Neighbouring parts of a word, put together. -/
theorem extract_append {w : Nat} (x : BitVec w) (i n k : Nat) :
    x.extractLsb' (i + k) n ++ x.extractLsb' i k = x.extractLsb' i (n + k) := by
  apply BitVec.eq_of_getLsbD_eq
  intro j inside
  rw [BitVec.getLsbD_append]
  by_cases low : j < k
  · simp [low, inside]
  · simp [low, inside, show j - k < n by omega, show i + k + (j - k) = i + j by omega]

theorem two_append (x : BitVec 16) : x.extractLsb' 8 8 ++ x.extractLsb' 0 8 = x :=
  (extract_append x 0 8 8).trans BitVec.extractLsb'_eq_self

theorem four_append (t : Time32) : ((t.extractLsb' 24 8 ++ t.extractLsb' 16 8)
    ++ (t.extractLsb' 8 8 ++ t.extractLsb' 0 8)).setWidth 32 = t := by
  rw [extract_append t 16 8 8, extract_append t 0 8 8, extract_append t 0 16 16]
  simp

/-! ## Reading names and fields that may be absent (R173) -/

namespace Reader

theorem need_bind {α β : Type} (f : Byte → Option α) (g : α → Reader β) (b : Byte) (rest : List Byte) :
    (need f >>= g) (b :: rest) = match f b with
      | some a => g a rest
      | none => .error .kind := by
  have known : need f (b :: rest) = orKind (f b) rest := rfl
  rw [bind_apply, known]
  cases f b <;> rfl

theorem orKind_bind {α β : Type} (o : Option α) (g : α → Reader β) (rest : List Byte) :
    (orKind o >>= g) rest = match o with
      | some a => g a rest
      | none => .error .kind := by
  cases o <;> rfl

/-- Two names that must be known end a body. -/
theorem two_needs {α β : Type} (f : Byte → Option α) (g : Byte → Option β) (make : α → β → Instr) (x y : Byte) :
    (need f >>= fun a => need g >>= fun b => finish (some (make a b))) [x, y] = match f x, g y with
      | some a, some b => .ok (some (make a b), [])
      | _, _ => .error .kind := by
  rw [need_bind]
  cases f x with
  | none => rfl
  | some a =>
    refine (need_bind g _ y []).trans ?_
    cases g y <;> rfl

theorem optTime_bind {β : Type} (g : Option Time32 → Reader β) (bs : List Byte) : (optTime >>= g) bs =
    match optionalTime bs with
    | some (t, rest) => g t rest
    | none => .error .len := by
  rw [bind_apply, optTime_eq]
  rcases optionalTime bs with _ | ⟨t, rest⟩ <;> rfl

theorem optByte_bind {β : Type} (g : Option Byte → Reader β) (bs : List Byte) : (optByte >>= g) bs =
    match optionalByte bs with
    | some (b, rest) => g b rest
    | none => .error .len := by
  rw [bind_apply, optByte_eq]
  rcases optionalByte bs with _ | ⟨b, rest⟩ <;> rfl

/-- What a name that may be absent comes to: unknown only when it is there. -/
theorem optName_bind {α β : Type} (f : Byte → Option α) (g : Option (Option α) → Reader β) (bs : List Byte) :
    (optName f >>= g) bs = match optionalByte bs with
    | some (b, rest) => g (if b.all (fun c => (f c).isSome) then some (b.bind f) else none) rest
    | none => .error .len := by
  have named : optName f bs = (optByte >>= fun o => pure (match o with
      | none => some none
      | some b => (f b).map some)) bs := by
    refine congrFun (congrArg (optByte >>= ·) (funext fun o => ?_)) bs
    cases o <;> rfl
  rw [bind_apply, named, optByte_bind]
  rcases optionalByte bs with _ | ⟨_ | b, rest⟩
  · rfl
  · rfl
  · show g ((f b).map some) rest = g (if (f b).isSome then some (f b) else none) rest
    cases f b <;> rfl

/-- The spot of a STATUS from its type, read before it. -/
theorem status_eq (m : MachineId) (mo mt ty n sd st : Byte) : status m [mo, mt, ty, n, sd, st] =
    match modeOf mo, motionOf mt, (spotTypeOf ty).bind (fun ty => statusSpot ty n.toNat (spotSideOf sd)), statusFrom m st with
    | some mode, some motion, some spot, some sender => .ok (some (.status sender mode motion spot), [])
    | _, _, _, _ => .error .kind := by
  refine (need_bind modeOf _ mo _).trans ?_
  cases modeOf mo with
  | none => rfl
  | some mode =>
    refine (need_bind motionOf _ mt _).trans ?_
    cases motionOf mt with
    | none => rfl
    | some motion =>
      refine (need_bind spotTypeOf _ ty _).trans ?_
      cases spotTypeOf ty with
      | none => rfl
      | some ty =>
        refine Eq.trans (b := (orKind (statusSpot ty n.toNat (spotSideOf sd)) >>= fun spot => byte >>= fun c =>
          orKind (statusFrom m c) >>= fun sender => finish (some (.status sender mode motion spot))) [st]) rfl ?_
        rw [orKind_bind, Option.bind_some]
        cases statusSpot ty n.toNat (spotSideOf sd) with
        | none => rfl
        | some spot =>
          refine Eq.trans (b := (orKind (statusFrom m st) >>= fun sender =>
            finish (some (.status sender mode motion spot))) []) rfl ?_
          rw [orKind_bind]
          cases statusFrom m st <;> rfl

/-- What a function's name makes of the characters after it. -/
def termFnOf : Option FnName → Reader TermFn
  | none => throw .format
  | some .unassigned => return .unassigned
  | some .input => return .input
  | some .output => return .output
  | some .pressIn => return .pressIn (← num)
  | some .damperPwm => return .damperPwm (← num)
  | some .flareOut => return .flareOut (← num)
  | some .lowAlarm => return .lowAlarm (← num)
  | some .sprayOut => return .sprayOut
  | some .gateOut => return .gateOut (← num)
  | some .conveyorRunIn => return .conveyorRunIn
  | some .batteryStopIn => return .batteryStopIn

/-- TERMINAL after its function. -/
def terminalRest (tag : Byte) (t : Nat) (fn : TermFn) : Reader (Option Instr) := do
  let invert ← name flagOf
  let drive ← name driveOf
  let edge ← name edgeOf
  finish do return .terminal tag t fn (← invert) (← drive) (← edge)

theorem terminal_eq (tag n x : Byte) (fields : List Byte) : terminal tag (n :: x :: fields) =
    (termFnOf (fnNameOf x) >>= terminalRest tag n.toNat) fields := by
  have same : termFn (x :: fields) = termFnOf (fnNameOf x) fields := by
    show (match fnNameOf x with
      | none => throw .format
      | some .unassigned => return .unassigned
      | some .input => return .input
      | some .output => return .output
      | some .pressIn => return .pressIn (← num)
      | some .damperPwm => return .damperPwm (← num)
      | some .flareOut => return .flareOut (← num)
      | some .lowAlarm => return .lowAlarm (← num)
      | some .sprayOut => return .sprayOut
      | some .gateOut => return .gateOut (← num)
      | some .conveyorRunIn => return .conveyorRunIn
      | some .batteryStopIn => return .batteryStopIn : Reader TermFn) fields = _
    rcases fnNameOf x with _ | f
    · rfl
    · cases f <;> rfl
  rw [bind_apply, ← same]
  exact Eq.trans (b := (termFn >>= terminalRest tag n.toNat) (x :: fields)) rfl (bind_apply _ _ _)

end Reader

/-! ## What the last fields of a request make of it -/

/-- A request, or FORMAT where a field is no value of its name. -/
def namedRequest (tag : Byte) : Option Instr → Taken
  | some i => .message i
  | none => .format tag

theorem takenRequest_finish (tag : Byte) (i : Option Instr) : takenRequest tag (Reader.finish i []) = namedRequest tag i := by
  cases i <;> rfl

theorem takenRequest_time (tag : Byte) (i : Option Time32 → Option Instr) (rest : List Byte) :
    takenRequest tag ((Reader.optTime >>= fun t => Reader.finish (i t)) rest) = match optionalTime rest with
    | some (t, []) => namedRequest tag (i t)
    | _ => .discard .len := by
  rw [Reader.optTime_bind]
  rcases optionalTime rest with _ | ⟨t, _ | ⟨b, more⟩⟩
  · rfl
  · exact takenRequest_finish tag (i t)
  · rfl

theorem takenRequest_byte (tag : Byte) (i : Option Byte → Option Instr) (rest : List Byte) :
    takenRequest tag ((Reader.optByte >>= fun t => Reader.finish (i t)) rest) = match optionalByte rest with
    | some (t, []) => namedRequest tag (i t)
    | _ => .discard .len := by
  rw [Reader.optByte_bind]
  rcases optionalByte rest with _ | ⟨t, _ | ⟨b, more⟩⟩
  · rfl
  · exact takenRequest_finish tag (i t)
  · rfl

theorem takenRequest_terminal (tag : Byte) (t : Nat) (fn : TermFn) (z d e : Byte) :
    takenRequest tag (Reader.terminalRest tag t fn [z, d, e]) =
      namedRequest tag (match flagOf z, driveOf d, edgeOf e with
        | some inv, some drive, some edge => some (.terminal tag t fn inv drive edge)
        | _, _, _ => none) := by
  refine (takenRequest_finish tag ((flagOf z).bind fun inv => (driveOf d).bind fun drive => (edgeOf e).bind fun edge =>
    some (.terminal tag t fn inv drive edge))).trans ?_
  cases flagOf z <;> cases driveOf d <;> cases edgeOf e <;> rfl

theorem takenRequest_link (tag n x y z d : Byte) : takenRequest tag (Reader.link tag [n, x, y, z, d]) =
    namedRequest tag (match linkOf n, lineCodeOf y, flagOf z, flagOf d with
      | some l, some code, some tx, some rx => some (.link tag l ⟨x.toNat, code, tx, rx⟩)
      | _, _, _, _ => none) := by
  refine (takenRequest_finish tag ((linkOf n).bind fun l => (lineCodeOf y).bind fun code => (flagOf z).bind fun tx =>
    (flagOf d).bind fun rx => some (.link tag l ⟨x.toNat, code, tx, rx⟩))).trans ?_
  cases linkOf n <;> cases lineCodeOf y <;> cases flagOf z <;> cases flagOf d <;> rfl

/-- What the names of an OVEN_LOAD block make of it. -/
def loadOf (tag n x : Byte) (tc : Option Time32) (g : Nat) (mode : Option SlotMode)
    (fixedPush : Option Time32) (v : Option (Option ValveState)) (ps cs : Option (Option DoorState)) : Option Instr :=
  (ovenStateOf x).bind fun st => mode.bind fun mode => v.bind fun v => ps.bind fun ps => cs.bind fun cs =>
    some (.ovenLoad tag ⟨n.toNat, st, tc, g, mode, fixedPush, v, ps, cs⟩)

/-- OVEN_LOAD after its fixed push time. -/
def loadNames (tag n x : Byte) (tc : Option Time32) (g : Nat) (mode : Option SlotMode) (fixedPush : Option Time32) :
    Reader (Option Instr) := do
  let v ← Reader.optName valveStateOf
  let ps ← Reader.optName doorStateOf
  let cs ← Reader.optName doorStateOf
  Reader.finish (loadOf tag n x tc g mode fixedPush v ps cs)

/-- OVEN_LOAD after its charge end time. -/
def loadTimes (tag n x : Byte) (tc : Option Time32) : Reader (Option Instr) := do
  let g ← Reader.num2
  let mode ← Reader.name slotModeOf
  Reader.optTime >>= loadNames tag n x tc g mode

theorem ovenLoad_eq (tag n x : Byte) (rest : List Byte) :
    Reader.ovenLoad tag (n :: x :: rest) = (Reader.optTime >>= loadTimes tag n x) rest := rfl


theorem takenRequest_loadNames (tag n x : Byte) (tc : Option Time32) (g : Nat) (mode : Option SlotMode)
    (fixedPush : Option Time32) (rest : List Byte) :
    takenRequest tag (loadNames tag n x tc g mode fixedPush rest) = match optionalByte rest with
    | some (valve, r3) => match optionalByte r3 with
      | some (ps, r4) => match optionalByte r4 with
        | some (cs, []) => namedRequest tag (match ovenStateOf x, mode with
          | some state, some mode =>
            if valve.all (fun c => (valveStateOf c).isSome) && ps.all (fun c => (doorStateOf c).isSome)
              && cs.all (fun c => (doorStateOf c).isSome) then
              some (.ovenLoad tag ⟨n.toNat, state, tc, g, mode, fixedPush,
                valve.bind valveStateOf, ps.bind doorStateOf, cs.bind doorStateOf⟩)
            else none
          | _, _ => none)
        | _ => .discard .len
      | none => .discard .len
    | none => .discard .len := by
  have loaded (v : Option ValveState) (ps cs : Option DoorState) (a b c : Bool) :
      loadOf tag n x tc g mode fixedPush (if a = true then some v else none) (if b = true then some ps else none)
        (if c = true then some cs else none) = match ovenStateOf x, mode with
      | some state, some mode =>
        if (a && b && c) = true then some (.ovenLoad tag ⟨n.toNat, state, tc, g, mode, fixedPush, v, ps, cs⟩) else none
      | _, _ => none := by
    unfold loadOf
    cases ovenStateOf x <;> cases mode <;> cases a <;> cases b <;> cases c <;> rfl
  unfold loadNames
  rw [Reader.optName_bind]
  rcases optionalByte rest with _ | ⟨valve, r3⟩
  · rfl
  dsimp only
  rw [Reader.optName_bind]
  rcases optionalByte r3 with _ | ⟨ps, r4⟩
  · rfl
  dsimp only
  rw [Reader.optName_bind]
  rcases optionalByte r4 with _ | ⟨cs, _ | ⟨b, more⟩⟩
  · rfl
  · exact (takenRequest_finish tag _).trans (congrArg (namedRequest tag) (loaded _ _ _ _ _ _))
  · rfl

theorem takenRequest_ovenLoad (tag n x : Byte) (rest : List Byte) :
    takenRequest tag (Reader.ovenLoad tag (n :: x :: rest)) = match optionalTime rest with
    | some (tc, g1 :: g2 :: m :: r1) => match optionalTime r1 with
      | some (fixedPush, r2) => match optionalByte r2 with
        | some (valve, r3) => match optionalByte r3 with
          | some (ps, r4) => match optionalByte r4 with
            | some (cs, []) => namedRequest tag (match ovenStateOf x, slotModeOf m with
              | some state, some mode =>
                if valve.all (fun c => (valveStateOf c).isSome) && ps.all (fun c => (doorStateOf c).isSome)
                  && cs.all (fun c => (doorStateOf c).isSome) then
                  some (.ovenLoad tag ⟨n.toNat, state, tc, (g1 ++ g2).toNat, mode, fixedPush,
                    valve.bind valveStateOf, ps.bind doorStateOf, cs.bind doorStateOf⟩)
                else none
              | _, _ => none)
            | _ => .discard .len
          | none => .discard .len
        | none => .discard .len
      | none => .discard .len
    | _ => .discard .len := by
  rw [ovenLoad_eq, Reader.optTime_bind]
  rcases optionalTime rest with _ | ⟨tc, _ | ⟨g1, _ | ⟨g2, _ | ⟨m, r1⟩⟩⟩⟩
  · rfl
  · rfl
  · rfl
  · rfl
  have times : loadTimes tag n x tc (g1 :: g2 :: m :: r1) =
    (Reader.optTime >>= loadNames tag n x tc (g1 ++ g2).toNat (slotModeOf m)) r1 := rfl
  dsimp only
  rw [times, Reader.optTime_bind]
  rcases optionalTime r1 with _ | ⟨fixedPush, r2⟩
  · rfl
  exact takenRequest_loadNames tag n x tc (g1 ++ g2).toNat (slotModeOf m) fixedPush r2

/-- Settles O5. -/
theorem framesAndWhatTheyCarry : Obligations.FramesAndWhatTheyCarry := by
  unfold Obligations.FramesAndWhatTheyCarry
  refine ⟨fun c tag s request full => exec_overrun request full, fun c m s sender test => exec_testing sender test,
    fun l kind body => ⟨frameOf_otherKind body, fun c message fixed => frameOf_exact message ?_⟩,
    fun m mo mt ty n sd st => ?_, fun m k n => ⟨rfl, fun body => requestBody_len m⟩, fun m b n x y rest => ?_,
    fun tag b rest => ⟨?_, ?_, ?_, ?_⟩, fun tag b n x y z rest w time => ?_, fun tag b n rest => ?_, fun t => ?_,
    fun tag b n x y z d e rest v => ?_⟩
  · revert fixed
    cases c <;> simp [Reader.optionalForm]
  · intro spot sender
    have spotIs : (spotTypeOf ty).bind (fun ty => Reader.statusSpot ty n.toNat (spotSideOf sd)) = spot := by
      simp only [spot]
      rcases spotTypeOf ty with _ | ty
      · rfl
      · cases ty <;> rfl
    have senderIs : Reader.statusFrom m st = sender := by cases m <;> rfl
    rw [frameOf_status, Reader.status_eq, spotIs, senderIs]
    cases modeOf mo <;> cases motionOf mt <;> cases spot <;> cases sender <;> rfl
  · intro report side done
    have reads (r : ReportName) (known : reportOf b = some r) (fields : List Byte) :
        frameOf (.mach m) 0x03#8 (b :: fields) = takenMachine (Reader.report m r fields) := by
      simp only [frameOf_report, reportBody, known]
    refine ⟨rfl, fun unknown => ?_, fun p mem known => ?_, fun p mem known => ?_, fun known => ?_, fun known => ?_⟩
    · simp only [frameOf_report, reportBody, unknown]
    · simp only [List.mem_cons, List.not_mem_nil, or_false] at mem
      rcases mem with rfl | rfl | rfl | rfl | rfl | rfl
      all_goals exact (reads _ known _).trans rfl
    · simp only [List.mem_cons, List.not_mem_nil, or_false] at mem
      rcases mem with rfl | rfl | rfl | rfl
      all_goals exact (reads _ known _).trans rfl
    · exact (reads _ known _).trans rfl
    · refine (reads _ known _).trans ?_
      have door (f : TaskSender) : takenMachine (Reader.doorTaskDone f [n, x, y]) = done f := by
        refine (congrArg takenMachine (Reader.two_needs taskKindOf taskResultOf (.taskDone f n.toNat) x y)).trans ?_
        simp only [done]
        cases taskKindOf x <;> cases taskResultOf y <;> rfl
      cases m with
      | pm | gc | qc => exact door _
      | cc =>
        refine (congrArg takenMachine (Reader.two_needs actionOf valveResultOf (.ccTaskDone n.toNat) x y)).trans ?_
        cases actionOf x <;> cases valveResultOf y <;> rfl
  · exact fun unknown => namedBody_unknown unknown rest
  · exact fun unknown => namedBody_unknown unknown rest
  · exact fun unknown => namedBody_unknown unknown rest
  · intro kind mem body short
    simp only [List.mem_cons, List.not_mem_nil, or_false] at mem
    rcases mem with rfl | rfl | rfl
    all_goals exact namedBody_short short
  · intro command named timed two spot
    have reads {c : CommandName} (known : commandOf b = some c) (fields : List Byte) :
        frameOf .sup 0x82#8 (tag :: b :: fields) = takenRequest tag (Reader.command tag c fields) :=
      namedBody_known known fields
    refine ⟨fun p mem known => ?_, fun p mem known => ?_, fun known => ?_, fun known => ?_, fun known => ?_, fun known => ?_,
      fun known => ?_, fun known => ?_, fun known => ?_, fun known => ?_, fun known => ?_, fun known => ?_, fun known => ?_,
      fun known => ?_⟩
    · simp only [List.mem_cons, List.not_mem_nil, or_false] at mem
      rcases mem with rfl | rfl | rfl | rfl | rfl | rfl
      all_goals exact (reads known _).trans rfl
    · simp only [List.mem_cons, List.not_mem_nil, or_false] at mem
      rcases mem with rfl | rfl | rfl | rfl | rfl | rfl | rfl | rfl | rfl | rfl | rfl | rfl
      all_goals exact (reads known _).trans rfl
    · exact (reads known _).trans (congrArg (fun t => Taken.message (.setTime tag t)) (four_append time))
    · exact (reads known _).trans (congrArg (fun x : BitVec 16 => Taken.message (.setTarget tag n.toNat x.toNat)) (two_append w))
    · exact (reads known _).trans (congrArg (fun x : BitVec 16 => Taken.message (.setDamper tag n.toNat x.toNat)) (two_append w))
    · exact (reads known _).trans (congrArg (fun x : BitVec 16 => Taken.message (.setSetpoint tag n.toNat x.toInt)) (two_append w))
    · exact (reads known _).trans rfl
    · exact (reads known _).trans rfl
    · exact (reads known _).trans rfl
    · exact (reads known _).trans rfl
    · refine (reads known _).trans ((takenRequest_finish tag ((serviceDirOf x).bind fun d =>
        some (.ovenService tag n.toNat d))).trans ?_)
      cases serviceDirOf x <;> rfl
    · refine (reads known _).trans ((takenRequest_time tag (fun t => some (.planStart tag t)) rest).trans ?_)
      exact rfl
    · refine (reads known _).trans ((takenRequest_time tag (fun t => (slotModeOf x).bind fun m =>
        some (.setMode tag n.toNat m t)) rest).trans ?_)
      cases slotModeOf x <;> rfl
    · refine (reads known _).trans ((takenRequest_time tag (fun t => some (.setModeRange tag n.toNat x.toNat (slotModeOf y) t))
        rest).trans ?_)
      exact rfl
  · intro query
    have reads {q : Subject} (known : subjectOf b = some q) (fields : List Byte) :
        frameOf .sup 0x83#8 (tag :: b :: fields) = takenRequest tag (Reader.query tag q fields) :=
      namedBody_known known fields
    refine ⟨fun p mem known => ?_, fun p mem known => ?_, fun known => ?_, fun known => ?_, fun known => ?_⟩
    · simp only [List.mem_cons, List.not_mem_nil, or_false] at mem
      rcases mem with rfl | rfl | rfl | rfl | rfl | rfl
      all_goals exact (reads known _).trans rfl
    · simp only [List.mem_cons, List.not_mem_nil, or_false] at mem
      rcases mem with rfl | rfl | rfl | rfl
      all_goals exact (reads known _).trans rfl
    · refine (reads known _).trans ((takenRequest_finish tag ((match spotSideOf n with
        | some .ps => some .ps
        | some .cs => some .cs
        | _ => none : Option Side).map (.tasksQuery tag))).trans ?_)
      rcases spotSideOf n with _ | side
      · rfl
      · cases side <;> rfl
    · exact (reads known _).trans (takenRequest_byte tag (fun v => some (.valvesQuery tag (v.map BitVec.toNat))) rest)
    · exact (reads known _).trans (takenRequest_byte tag (fun v => some (.terminalsQuery tag (v.map BitVec.toNat))) rest)
  · exact congrArg (presentMark 4 ++ ·) (num4_eq t)
  · intro block named two num int terminal
    have reads {k : BlockName} (known : blockOf b = some k) (fields : List Byte) :
        frameOf .sup 0x81#8 (tag :: b :: fields) = takenRequest tag (Reader.setup tag k fields) :=
      namedBody_known known fields
    have words : (fun i => (v i).extractLsb' 8 8 ++ (v i).extractLsb' 0 8) = v := funext fun i => two_append (v i)
    have function {f : Option FnName} (known : fnNameOf x = f) (fields : List Byte) : Reader.terminal tag (n :: x :: fields)
        = (Reader.termFnOf f >>= Reader.terminalRest tag n.toNat) fields := known ▸ Reader.terminal_eq tag n x fields
    refine ⟨fun known => ?_, fun known => ?_, fun known => ?_, fun known => ?_, fun known => ?_, fun known => ?_,
      fun unknown known => ?_, fun p mem fn known => ?_, fun p mem fn known => ?_, fun known => ?_, fun known => ?_⟩
    · refine (reads known _).trans ?_
      show takenRequest tag ((if rest.length = x.toNat then pure (some (.battery tag n.toNat x.toNat (rest.map BitVec.toNat)))
        else throw .len : Reader (Option Instr)) []) = _
      split <;> rfl
    · exact (reads known _).trans ((takenRequest_time tag (fun t => some (.series tag ⟨n.toNat, x.toNat, _, _, _⟩ t)) rest).trans
        (congrArg (fun u : Nat → BitVec 16 => match optionalTime rest with
          | some (t, []) => Taken.message (.series tag ⟨n.toNat, x.toNat, (u 0).toNat, (u 1).toNat, (u 2).toNat⟩ t)
          | _ => .discard .len) words))
    · exact (reads known _).trans (congrArg (fun u : Nat → BitVec 16 => Taken.message (.timing tag ⟨(u 0).toNat, (u 1).toNat,
        (u 2).toNat, (u 3).toNat, (u 4).toNat, (u 5).toNat, (u 6).toNat, (u 7).toNat, (u 8).toNat, (u 9).toNat,
        (u 10).toNat⟩)) words)
    · exact (reads known _).trans (congrArg (fun u : Nat → BitVec 16 => Taken.message (.pressure tag n.toNat ⟨(u 0).toInt,
        (u 1).toInt, x.toNat, y.toNat, (u 4).toInt, (u 5).toInt, (u 6).toInt, (u 7).toInt, (u 8).toInt, (u 9).toInt,
        (u 10).toInt, (u 11).toInt, (u 12).toInt, (u 13).toInt, (u 14).toInt, (u 15).toInt⟩)) words)
    · exact (reads known _).trans (congrArg (fun u : Nat → BitVec 16 => Taken.message (.wharf tag ⟨n.toNat, (u 0).toNat,
        (u 1).toNat, (u 2).toNat, (u 3).toNat, (u 4).toNat, (u 5).toNat⟩)) words)
    · exact (reads known _).trans (congrArg (fun u : Nat → BitVec 16 => Taken.message (.doors tag ⟨n.toNat, (u 0).toNat,
        (u 1).toNat, (u 2).toNat⟩)) words)
    · exact (reads known _).trans (congrArg (takenRequest tag) (function unknown rest))
    · simp only [List.mem_cons, List.not_mem_nil, or_false] at mem
      rcases mem with rfl | rfl | rfl | rfl | rfl | rfl
      all_goals exact (reads known _).trans ((congrArg (takenRequest tag) (function fn _)).trans
        (takenRequest_terminal tag n.toNat _ z d e))
    · simp only [List.mem_cons, List.not_mem_nil, or_false] at mem
      rcases mem with rfl | rfl | rfl | rfl | rfl
      all_goals exact (reads known _).trans ((congrArg (takenRequest tag) (function fn _)).trans
        (takenRequest_terminal tag n.toNat _ z d e))
    · exact (reads known _).trans (takenRequest_link tag n x y z d)
    · exact (reads known _).trans (takenRequest_ovenLoad tag n x rest)

end Sys2Proof.Machine
end

section
/-! SUPPORT. STATUS: what it writes, and what the quench unit and the push record make of it. -/

namespace Sys2Proof.Machine

open Sys2Proof State

namespace State

/-! ## The quench unit at a STATUS of QC (R141, R143 to R147) -/

theorem checkLoadedPlace_eq {s : State} {position : Option Position} (at_ : (s.machine .qc).position = position)
    (spot : ReportedSpot) : s.checkLoadedPlace (some spot) = match (match s.qnu.car.state with
        | .loading n => some (Position.oven n .track)
        | .quenching => some .tower
        | .draining => some .tower
        | .waitBay => some .tower
        | .dumping => (s.qnu.load.bind LoadRec.bay).map .wharf
        | _ => none) with
      | some place => if position = some place ∨ s.qnu.car.positionFlag = true then s
        else ({ s with qnu.car.positionFlag := true } : State).raise (.carPosition s.qnu.car.state (some spot))
      | none => s := by
  subst at_
  have place : s.loadedPlace = match s.qnu.car.state with
      | .loading n => some (Position.oven n .track)
      | .quenching => some .tower
      | .draining => some .tower
      | .waitBay => some .tower
      | .dumping => (s.qnu.load.bind LoadRec.bay).map .wharf
      | _ => none := by
    unfold loadedPlace
    cases s.qnu.car.state <;> rfl
  rw [← place]
  unfold checkLoadedPlace
  cases s.loadedPlace with
  | none => rfl
  | some place => exact if_congr (by simp) rfl rfl

/-- The car's own part of a STATUS, by the state it is in. -/
def qcTakes (isLocal : Bool) (stopped : Option CarSpot) (spot : ReportedSpot) (s : State) : State :=
  if s.qnu.car.state = .unknown then s.leaveUnknown
  else if isLocal && s.carEmpty then s.followLocal stopped
  else if (s.qnu.car.state.dest.map MoveDest.spot).isSome && s.qnu.car.state.dest.map MoveDest.spot == stopped then s.arrive
  else s.checkEmptyPlace (some spot)

/-- The rest of a STATUS of QC, whatever state the car is in. -/
def qcRest (isLocal : Bool) (oldMode : Option Mode) (spot : ReportedSpot) (s : State) : State :=
  let w := if isLocal then (s.checkLoadedPlace (some spot)).withdrawMove else s.checkLoadedPlace (some spot)
  State.testDump (State.testMove
    (if !isLocal && oldMode == some .localMode && (w.qnu.car.state.dest.isNone && w.carEmpty) then w.reconsiderNext else w))

theorem qcStatus_eq (s : State) (oldMode : Option Mode) (stopped : Option CarSpot) (spot : ReportedSpot) :
    s.qcStatus oldMode stopped spot = qcRest ((s.machine .qc).mode == some .localMode) oldMode spot
      (qcTakes ((s.machine .qc).mode == some .localMode) stopped spot (match stopped with
        | some _ => { s with qnu.car.lastSpot := stopped }
        | none => s)) := by
  cases stopped <;> rfl

section
variable {isLocal : Bool} {stopped : Option CarSpot} {spot : ReportedSpot} {s : State}

theorem qcTakes_machines : (qcTakes isLocal stopped spot s).ilk.machines = s.ilk.machines := by
  unfold qcTakes followLocal
  (repeat' split) <;> simp

theorem qcTakes_unknown (car : s.qnu.car.state = .unknown) : qcTakes isLocal stopped spot s = s.leaveUnknown := if_pos car

theorem qcTakes_follows (car : s.carEmpty = true) : qcTakes true stopped spot s = s.followLocal stopped := by
  have known : s.qnu.car.state ≠ .unknown := fun unknown => by simp [carEmpty, unknown] at car
  exact (if_neg known).trans (if_pos (by simp [car]))

theorem qcTakes_arrives {dest : MoveDest} (car : s.qnu.car.state.dest = some dest) (there : stopped = some dest.spot)
    (away : isLocal = false ∨ s.carEmpty = false) : qcTakes isLocal stopped spot s = s.arrive := by
  have known : s.qnu.car.state ≠ .unknown := fun unknown => by simp [CarState.dest, unknown] at car
  refine (if_neg known).trans ((if_neg ?_).trans (if_pos (by simp [car, there])))
  rcases away with auto | full
  · simp [auto]
  · simp [full]

theorem qcTakes_stays (known : s.qnu.car.state ≠ .unknown) (away : isLocal = false ∨ s.carEmpty = false)
    (elsewhere : ∀ dest, s.qnu.car.state.dest = some dest → stopped ≠ some dest.spot) :
    qcTakes isLocal stopped spot s = s.checkEmptyPlace (some spot) := by
  refine (if_neg known).trans ((if_neg ?_).trans (if_neg ?_))
  · rcases away with auto | full
    · simp [auto]
    · simp [full]
  · cases dest : s.qnu.car.state.dest with
    | none => simp
    | some dest => simpa using (elsewhere _ dest).symm

end

theorem checkEmptyPlace_moving {s : State} {spot : Option ReportedSpot} (parked : s.qnu.car.state ≠ .parked)
    (spotted : ∀ n, s.qnu.car.state ≠ .spotted n) : s.checkEmptyPlace spot = s := by
  unfold checkEmptyPlace
  dsimp only
  split
  · next is => exact absurd is parked
  · next n is => exact absurd is (spotted n)
  · rfl

theorem leaveUnknown_empty {s : State} (unknown : s.qnu.car.state = .unknown) (run : s.inRun = true)
    (on : s.online .qc = true) (load : s.carLoad = some .empty) :
    s.leaveUnknown = State.sendOnward { s with qnu.car.notEmptyFlag := false } := by
  unfold leaveUnknown
  rw [if_pos (by simp [unknown, run, on]), load]
  rfl

theorem leaveUnknown_loaded {s : State} (unknown : s.qnu.car.state = .unknown) (run : s.inRun = true)
    (on : s.online .qc = true) (load : s.carLoad = some .loaded) : s.leaveUnknown =
      if s.qnu.car.notEmptyFlag = true then s else ({ s with qnu.car.notEmptyFlag := true } : State).raise .carNotEmpty := by
  unfold leaveUnknown
  rw [if_pos (by simp [unknown, run, on]), load]
  rfl

theorem leaveUnknown_stays {s : State} (h : s.inRun = false ∨ s.online .qc = false) : s.leaveUnknown = s := by
  refine if_neg ?_
  rcases h with config | off
  · simp [config]
  · simp [off]

/-! ## The push record at a STATUS and at an OFFLINE (R84, R85) -/

theorem newTimer_held {s : State} {q : PushRec} (push : s.ilk.push = some q) (flag : q.unconfirmed = true) (dur : Nat) :
    s.newTimer dur = .held dur := (newTimer_eq push dur).trans (if_pos (.inr flag))

theorem enterClosing_held {s : State} {p q : PushRec} (push : s.ilk.push = some q) (flag : q.unconfirmed = true)
    (derived : Bool) : s.enterClosing p derived = (s.setPush (some { p with
      stage := .closing, late := false, timer := .held s.cfg.timing.tDoors
      ramHome := some s.now, derivedHome := derived })).retest := by
  unfold enterClosing
  rw [newTimer_held push flag]

theorem pushKept_unconfirmed {q p : PushRec} (h : PushKept (some q) (some p)) : p.unconfirmed = q.unconfirmed := by
  obtain same | disarmed := h
  · rw [Option.some.inj same]
  · rw [Option.some.inj disarmed, disarmRec]
    cases q.armedFrom <;> rfl

/-- Both ends of the stroke derived at once: the timer of CLOSING is held by the loss. -/
theorem enterClosing_derived {s : State} {q : PushRec} (flag : q.unconfirmed = true) :
    let ended : State := (s.setPush (some q)).ramEndCar q.oven s.now
    ended.enterClosing { q with ramEnd := some ended.now } true = (ended.setPush (some { q with
      stage := .closing, late := false, timer := .held s.cfg.timing.tDoors, ramEnd := some s.now
      ramHome := some s.now, derivedHome := true })).retest := by
  intro ended
  have kept : PushKept (some q) ended.ilk.push := ramEndCar_push (.refl _) _ _
  obtain ⟨p, record⟩ : ∃ p, ended.ilk.push = some p :=
    Option.ne_none_iff_exists'.mp fun gone => nomatch kept.eq_none_iff.mp gone
  rw [record] at kept
  have time : ended.now = s.now := by simp [ended, State.now]
  have timing : ended.cfg = s.cfg := by simp [ended]
  rw [enterClosing_held record ((pushKept_unconfirmed kept).trans flag), time, timing]

/-- The table of R85, the timer of a stage entered held by the loss. -/
theorem rederiveStage_eq {s : State} {q : PushRec} (push : s.ilk.push = some q) (flag : q.unconfirmed = true) :
    s.rederiveStage q = match q.stage, s.ram with
      | .ramForward, some .atEnd => ((s.setPush (some { q with
          stage := .ramReturn, late := false, timer := .held s.cfg.timing.tReturn
          ramEnd := some s.now, derivedEnd := true })).ramEndCar q.oven s.now).retest
      | .ramForward, some .home => (((s.setPush (some { q with ramEnd := some s.now, derivedEnd := true })).ramEndCar
          q.oven s.now).setPush (some { q with
            stage := .closing, late := false, timer := .held s.cfg.timing.tDoors, ramEnd := some s.now, derivedEnd := true
            ramHome := some s.now, derivedHome := true })).retest
      | .ramReturn, some .home => (s.setPush (some { q with
          stage := .closing, late := false, timer := .held s.cfg.timing.tDoors
          ramHome := some s.now, derivedHome := true })).retest
      | _, _ => s := by
  have toEnd : s.takeRamEnd q true = ((s.setPush (some { q with
      stage := .ramReturn, late := false, timer := .held s.cfg.timing.tReturn
      ramEnd := some s.now, derivedEnd := true })).ramEndCar q.oven s.now).retest := by
    unfold takeRamEnd
    rw [newTimer_held push flag]
  unfold rederiveStage
  dsimp only
  cases stage : q.stage with
  | ramForward => cases s.ram with
    | none => rfl
    | some r => cases r with
      | atEnd => exact toEnd
      | home =>
        have both := enterClosing_derived (s := s) (q := { q with ramEnd := some s.now, derivedEnd := true }) flag
        rw [stage] at both
        exact both
      | _ => rfl
  | ramReturn => cases s.ram with
    | none => rfl
    | some r => cases r with
      | home => exact enterClosing_held push flag true
      | _ => rfl
  | _ => rfl

theorem rederiveStage_clock {s : State} (q : PushRec) :
    (s.rederiveStage q).completionTest.now = s.now ∧ (s.rederiveStage q).completionTest.ilk.stop = s.ilk.stop := by
  simp [State.now]

/-- PUSH_CONFIRMED: the flag cleared, the held timer freed, CLEAR to PM. -/
theorem confirm_eq {v : State} {x : PushRec} {stop : Bool} {now : Nat} (halted : v.ilk.stop = stop) (time : v.now = now)
    (early : now < tMax) (old : PushStage) :
    let y : PushRec := { x with unconfirmed := false }
    let c := (v.setPush (some y)).raise (.pushConfirmed x.oven old x.stage v.ram)
    c.resumeTimer = match x.timer with
      | .held left => if stop = true then c
        else if left = 0 then c.stageExpire { y with timer := .running now }
        else c.setPush (some { y with timer := .running (min tMax (now + left)) })
      | _ => c := by
  intro y c
  have record : c.ilk.push = some y := by simp [c, setPush]
  have clock : c.now = now := by simpa [c, setPush, State.now] using time
  have stopped : c.ilk.stop = stop := by simpa [c, setPush] using halted
  cases stop with
  | true =>
    have same : c.resumeTimer = c := by simp [resumeTimer, timerHeld, stopped]
    rw [same]
    cases x.timer <;> simp
  | false =>
    rw [resumeTimer_eq stopped clock record, Nat.min_eq_right early.le]
    cases timer : x.timer with
    | absent | running e => simp [y, timer]
    | held left => simp [y, timer]

theorem hold_or_offline {r : State} : (if r.hold = true ∨ r.online .pm = false then r else r.send .pm (.clear .linkLoss))
    = if r.hold = true then r else r.sendIfOnline .pm (.clear .linkLoss) := by
  unfold sendIfOnline
  cases r.hold <;> cases r.online .pm <;> simp

theorem pushRegains_confirmed {s : State} (h : ∀ p, s.ilk.push = some p → p.unconfirmed = false) (m : MachineId)
    (became : Bool) : s.pushRegains m became = s := by
  unfold pushRegains
  cases push : s.ilk.push with
  | none => rfl
  | some p => exact if_neg (by simp [h p push])

theorem pushRegains_waits {s : State} {p : PushRec} (push : s.ilk.push = some p) (flag : p.unconfirmed = true)
    {m : MachineId} (lost : p.lost.filter (· != m) ≠ []) (became : Bool) : s.pushRegains m became =
      if m = .pm ∧ became = true then
        (s.setPush (some { p with lost := p.lost.filter (· != m) })).send .pm (.stop .linkLoss)
      else s.setPush (some { p with lost := p.lost.filter (· != m) }) := by
  unfold pushRegains
  rw [push]
  exact (if_pos flag).trans (if_neg (by simpa using lost))

theorem pushRegains_rederives {s : State} {p : PushRec} (push : s.ilk.push = some p) (flag : p.unconfirmed = true)
    {m : MachineId} (lost : p.lost.filter (· != m) = []) (became : Bool) : s.pushRegains m became =
      (s.setPush (some { p with lost := p.lost.filter (· != m) })).rederive { p with lost := p.lost.filter (· != m) } := by
  unfold pushRegains
  rw [push]
  exact (if_pos flag).trans (if_pos (by simp [lost]))

theorem pushLoses_unmoved {s : State} {m : MachineId} (h : ∀ p, s.ilk.push = some p → m ≠ .cc → p.stage ≠ .ramForward
    ∧ p.unconfirmed = false) : s.pushLoses m = s := by
  unfold pushLoses
  cases push : s.ilk.push with
  | none => rfl
  | some p =>
    refine if_neg ?_
    rintro ⟨other, moved⟩
    obtain ⟨stage, confirmed⟩ := h p push other
    simp [stage, confirmed] at moved

theorem pushLoses_eq {s : State} {p : PushRec} {m : MachineId} (push : s.ilk.push = some p) (other : m ≠ .cc)
    (moved : p.stage = .ramForward ∨ p.unconfirmed = true) : s.pushLoses m =
      (sendIfOnline (s.setPush (some { p with
        unconfirmed := true
        lost := if p.lost.contains m then p.lost else p.lost ++ [m]
        timer := match p.timer with
          | .running e => .held (e - s.now)
          | x => x })) .pm (.stop .linkLoss)).raise (.pushUnconfirmed p.oven m) := by
  unfold pushLoses
  rw [push]
  refine (if_pos ⟨other, moved⟩).trans ?_
  refine congrArg (fun u => (sendIfOnline u .pm (.stop .linkLoss)).raise (.pushUnconfirmed p.oven m)) ?_
  refine (holdTimer_eq (now := s.now) (by rfl)).trans ?_
  cases timer : p.timer <;> simp only [setPush]

/-! ## What the statement says of a STATUS of QC -/

theorem stands_eq (v : State) : (v.qnu.car.state.dest.isNone && v.carEmpty) = match v.qnu.car.state with
    | .parked => true
    | .spotted _ => true
    | _ => false := by
  unfold carEmpty
  cases v.qnu.car.state with
  | toOven d => cases d <;> rfl
  | _ => rfl

theorem carEmpty_of {s : State} (h : s.qnu.car.state = .parked ∨ (∃ n, s.qnu.car.state = .spotted n)
    ∨ ∃ d, s.qnu.car.state = .toOven d) : s.carEmpty = true := by
  unfold carEmpty
  obtain car | ⟨n, car⟩ | ⟨d, car⟩ := h <;> rw [car]

theorem carEmpty_of_loaded {s : State} (h : s.qnu.car.state = .toTower ∨ (∃ b, s.qnu.car.state = .toBay b)
    ∨ s.qnu.car.state = .quenching ∨ s.qnu.car.state = .draining ∨ s.qnu.car.state = .waitBay ∨ s.qnu.car.state = .dumping
    ∨ ∃ n, s.qnu.car.state = .loading n) : s.carEmpty = false := by
  unfold carEmpty
  obtain car | ⟨b, car⟩ | car | car | car | car | ⟨n, car⟩ := h <;> rw [car]

/-- The rest of a STATUS of QC in the words of R141, R143 and R147. -/
theorem qcRest_of {v tell w : State} {spot : ReportedSpot} {mode : Option Mode} {stands : Bool}
    (told : v.checkLoadedPlace (some spot) = tell) (withdrawn : w = if mode = some .localMode then tell.withdrawMove else tell)
    (same : (w.qnu.car.state.dest.isNone && w.carEmpty) = stands) (oldMode : Option Mode) :
    qcRest (mode == some .localMode) oldMode spot v = State.testDump (State.testMove
      (if ¬ mode = some .localMode ∧ oldMode = some .localMode ∧ stands = true then w.reconsiderNext else w)) := by
  unfold qcRest
  rw [told]
  by_cases loc : mode = some .localMode
  · rw [if_pos loc] at withdrawn
    subst withdrawn
    simp [loc]
  · rw [if_neg loc] at withdrawn
    subst withdrawn
    have auto : (mode == some .localMode) = false := by simpa using loc
    simp only [auto, Bool.false_eq_true, if_false, same]
    exact congrArg (fun u => State.testDump (State.testMove u)) (if_congr (by simp [loc]) rfl rfl)

theorem checkEmptyPlace_parked {s : State} (parked : s.qnu.car.state = .parked) (spot : ReportedSpot) :
    s.checkEmptyPlace (some spot) = if (s.machine .qc).position = some .park then s
      else (s.raise (.carPosition .parked (some spot))).sendCar (.toOven .park) := by
  unfold checkEmptyPlace
  rw [parked]
  rfl

theorem checkEmptyPlace_spotted {s : State} {n : Nat} (spotted : s.qnu.car.state = .spotted n) (spot : ReportedSpot) :
    s.checkEmptyPlace (some spot) = if (s.machine .qc).position = some (.oven n .track) then s
      else (s.raise (.carPosition (.spotted n) (some spot))).sendCar (.toOven (.oven n)) := by
  unfold checkEmptyPlace
  rw [spotted]
  rfl

theorem followLocal_eq {s : State} {stopped : Option CarSpot} {target : EmptyDest} (next : s.emptyTarget = target) :
    s.followLocal stopped = match stopped with
      | some (.oven n) => s.settleCar (.spotted n)
      | some .park => s.settleCar .parked
      | _ => s.sendCar (.toOven target) := by
  subst next
  rfl

theorem arrive_toOven {s : State} {d : EmptyDest} (car : s.qnu.car.state = .toOven d) {c : CarState} (held : d.held = c) :
    s.arrive = s.settleCar c := by
  simp only [arrive, car, held]

theorem arrive_toTower {s : State} (car : s.qnu.car.state = .toTower) {now spray : Nat} (time : s.now = now)
    (vals : s.qnu.vals.tSpray = spray) : s.arrive = State.settleCar { s with
      qnu.load := s.qnu.load.map fun l => { l with quenchStart := some now, hot := none }
      qnu.phase := some (min tMax (now + spray)) } .quenching := by
  subst time vals
  unfold arrive
  rw [car]
  rfl

theorem arrive_toBay {s : State} {b : Nat} (car : s.qnu.car.state = .toBay b) :
    s.arrive = (s.settleCar .dumping).requestDump := by
  simp only [arrive, car]

end State

end Sys2Proof.Machine
end

section
/-! CHAPTER 4. O34: STATUS, the quench unit's part of it, and the loss of a push. -/

namespace Sys2Proof.Machine

open Sys2Proof State

namespace State

theorem spotAllowed_eq (s : State) (f : StatusFrom) (spot : ReportedSpot) {row : SpotSide}
    (rowIs : row = match f with
      | .pm _ => .ps
      | .gc _ => .cs
      | .cc => .top
      | .qc _ => .track) : spotAllowed s f.machine spot = match spot with
      | .oven n side => (s.oven n).isSome && side == row
      | .park => true
      | .bunker => f == .cc
      | .tower => row == .track
      | .wharf b => row == .track && (s.bay b).isSome := by
  subst rowIs
  cases spot with
  | oven n side =>
    have inTable : spotAllowed s f.machine (.oven n side) = ((s.oven n).isSome && _) := congrArg (· && _) (s.ovenOk_eq n)
    rw [inTable]
    cases f <;> rfl
  | park => rfl
  | bunker => cases f <;> rfl
  | tower => cases f <;> rfl
  | wharf b =>
    have inTable : (s.bay b).isSome = (decide (1 ≤ b) && decide (b ≤ s.qnu.bays.length)) := nth1_isSome s.qnu.bays b
    cases f with
    | qc l => exact (Bool.and_assoc _ _ _).trans (congrArg (true && ·) inTable.symm)
    | _ => rfl

theorem position_eq (spot : ReportedSpot) : ReportedSpot.position spot = match spot with
    | .oven n side => .oven n side
    | .park => .park
    | .bunker => .bunker
    | .tower => .tower
    | .wharf b => .wharf b := by
  cases spot <;> rfl

theorem spotAllowed_congr {s t : State} (ovens : t.ot = s.ot) (bays : t.qnu.bays = s.qnu.bays) (m : MachineId)
    (spot : ReportedSpot) : spotAllowed t m spot = spotAllowed s m spot := by
  have inTable (n : Nat) : t.ovenOk n = s.ovenOk n :=
    congrArg (fun l : List OvenRec => decide (1 ≤ n) && decide (n ≤ l.length)) ovens
  cases spot with
  | oven n side => exact congrArg (· && _) (inTable n)
  | wharf b => exact congrArg (fun l => m == .qc && decide (1 ≤ b) && decide (b ≤ l.length)) bays
  | _ => rfl

theorem statusRecord_eq {s : State} {f : StatusFrom} {spot : ReportedSpot} {allowed : Bool} {place : Position}
    {status : Option MachineStatus} {now : Nat} (allowedIs : spotAllowed s f.machine spot = allowed)
    (placeIs : ReportedSpot.position spot = place) (statusIs : StatusFrom.status f = status) (time : s.now = now)
    (mode : Mode) (motion : Motion) : s.statusRecord f mode motion spot = ⟨some mode,
      some (if motion = .stopped ∧ allowed = true then place else .travel), status, some now,
      decide (motion = .stopped ∧ allowed = false)⟩ := by
  simp only [statusRecord, allowedIs, placeIs, statusIs, time]
  cases motion <;> cases allowed <;> rfl

/-- STATUS written out, in what its sender's record and its spot say. -/
theorem takeStatus_eq {s : State} {f : StatusFrom} {motion : Motion} {spot : ReportedSpot} {allowed on hold : Bool}
    {place : Position} {status : Option MachineStatus} {stopped : Option CarSpot} {old : MachineRec} {now : Nat}
    {cause : HoldCause} (allowedIs : spotAllowed s f.machine spot = allowed) (placeIs : ReportedSpot.position spot = place)
    (statusIs : StatusFrom.status f = status)
    (stoppedIs : (if motion = .stopped ∧ allowed = true then ReportedSpot.carSpot spot else none) = stopped)
    (online : s.online f.machine = on) (record : s.machine f.machine = old) (time : s.now = now) (held : s.hold = hold)
    (causeIs : s.stopCause = cause) (mode : Mode) :
      let m := f.machine
      let up := if on = true then s
        else (s.updPort (.mach m) fun p => { p with up := true }).raise (.linkState m true .status)
      let written := up.updMachine m fun _ => ⟨some mode,
        some (if motion = .stopped ∧ allowed = true then place else .travel), status, some now,
        decide (motion = .stopped ∧ allowed = false)⟩
      let told := if motion = .stopped ∧ allowed = false ∧ old.invalidPos = false
        then written.raise (.positionInvalid m spot) else written
      let greeted := if on = false ∧ hold = true then told.send m (.stop cause) else told
      let car := if m = .qc then greeted.qcStatus old.mode stopped spot else greeted
      s.takeStatus f mode motion spot = ((car.pushRegains m (!on)).retest).dispatchFor m := by
  intro m up written told greeted car
  have goes : (if !s.online m then s.goOnline m else s) = up := by
    rw [show s.online m = on from online]
    cases on <;> rfl
  have sameUp : up.ot = s.ot ∧ up.ilk = s.ilk ∧ up.qnu = s.qnu ∧ up.tb = s.tb ∧ up.cfg = s.cfg := by
    rw [← goes]
    split <;> simp
  obtain ⟨ovens, ilk, quench, clock, config⟩ := sameUp
  have allowedUp : spotAllowed up f.machine spot = allowed := by
    rw [← allowedIs]
    exact spotAllowed_congr ovens (congrArg _ quench) f.machine spot
  have rec' := statusRecord_eq allowedUp placeIs statusIs ((congrArg TimeBase.time clock).trans time) mode motion
  have notice : written.invalidNotice m old.invalidPos spot = told := by
    have flag : (written.machine m).invalidPos = decide (motion = .stopped ∧ allowed = false) := by
      simp [written, machine, updMachine]
    unfold invalidNotice
    refine if_congr ?_ rfl rfl
    rw [flag]
    simp [and_assoc]
  have sameTold : told.ot = s.ot ∧ told.ilk.stop = s.ilk.stop ∧ told.ilk.holdCause = s.ilk.holdCause ∧ told.cfg = s.cfg := by
    rw [← notice]
    simp [written, ovens, ilk, config]
  obtain ⟨ovensTold, stopTold, causeTold, configTold⟩ := sameTold
  have holdTold : told.hold = hold := by
    rw [← held]
    simp only [State.hold, inRun, ovensTold, stopTold, configTold]
  have causeEq : told.stopCause = cause := by
    rw [← causeIs, stopCause, holdCauses, inRun, ovensTold, stopTold, causeTold, configTold] <;> rfl
  have greets : (if !s.online m && told.hold then told.send m (.stop told.stopCause) else told) = greeted := by
    rw [show s.online m = on from online, holdTold, causeEq]
    exact if_congr (by simp) rfl rfl
  have stops : s.stoppedSpot f motion spot = stopped := by
    rw [← stoppedIs, ← allowedIs]
    rfl
  unfold takeStatus
  dsimp only
  rw [goes, rec', record, notice, greets, stops, online] <;> rfl

theorem goOnline_statusRecord (s : State) (f : StatusFrom) (mode : Mode) (motion : Motion) (spot : ReportedSpot)
    (m : MachineId) : (s.goOnline m).statusRecord f mode motion spot = s.statusRecord f mode motion spot := by
  have same : spotAllowed (s.goOnline m) f.machine spot = spotAllowed s f.machine spot :=
    spotAllowed_congr (by simp) (by simp) _ _
  have time : (s.goOnline m).now = s.now := by simp [now]
  simp only [statusRecord, same, time]

theorem takeStatus_machines (s : State) (f : StatusFrom) (mode : Mode) (motion : Motion) (spot : ReportedSpot) :
    (s.takeStatus f mode motion spot).ilk.machines =
      s.ilk.machines.set f.machine (s.statusRecord f mode motion spot) := by
  unfold takeStatus
  dsimp only
  rw [(handStatus_frame _ _ _ _ _ _).2.1]
  cases s.online f.machine with
  | true => simp [updMachine]
  | false =>
    simp only [Bool.not_false, if_true, Bool.true_and]
    split <;> simp [updMachine, goOnline_statusRecord]

theorem mlink_updPort (s : State) (m j : MachineId) (g : Port → Port) :
    ((s.updPort (.mach m) g).mlink j).port = if j = m then g (s.mlink j).port else (s.mlink j).port := by
  show ((s.updLink m _).mlink j).port = _
  rw [mlink_updLink]
  split <;> rfl

theorem raise_port (s : State) (b : NoticeBody) (j : MachineId) : ((s.raise b).mlink j).port = (s.mlink j).port := by
  simp [mlink]

theorem takeStatus_port (s : State) (f : StatusFrom) (mode : Mode) (motion : Motion) (spot : ReportedSpot)
    (j : MachineId) : ((s.takeStatus f mode motion spot).mlink j).port =
      if j = f.machine then { (s.mlink j).port with up := true } else (s.mlink j).port := by
  have handed (u : State) (b : Bool) (o : Option Mode) (p : Option CarSpot) (x : ReportedSpot) :
      ((u.handStatus f.machine b o p x).mlink j).port = (u.mlink j).port := by simp [mlink]
  unfold takeStatus
  dsimp only
  rw [handed]
  cases up : s.online f.machine with
  | true =>
    have told : (((s.updMachine f.machine fun _ => s.statusRecord f mode motion spot).invalidNotice f.machine
      (s.machine f.machine).invalidPos spot).mlink j).port = (s.mlink j).port := by simp [mlink, updMachine]
    refine Eq.trans told ?_
    split
    · next is =>
      subst is
      exact congrArg (fun b => { (s.mlink f.machine).port with up := b }) up
    · rfl
  | false =>
    have went : ((s.goOnline f.machine).mlink j).port =
        if j = f.machine then { (s.mlink j).port with up := true } else (s.mlink j).port :=
      (raise_port _ _ j).trans (mlink_updPort s f.machine j fun p => { p with up := true })
    rw [← went]
    simp only [Bool.not_false, if_true, Bool.true_and]
    split <;> simp [mlink, updMachine]

/-- PUSH_CONFIRMED closes the re-derivation unless the push is complete by it. -/
theorem rederive_eq {s d : State} {q : PushRec} {stop : Bool} {time : Nat} (stage : s.rederiveStage q = d)
    (halted : d.completionTest.ilk.stop = stop) (clock : d.completionTest.now = time) (early : time < tMax) :
    s.rederive q = match d.completionTest.ilk.push with
      | some x =>
        let y : PushRec := { x with unconfirmed := false }
        let c := (d.completionTest.setPush (some y)).raise (.pushConfirmed x.oven q.stage x.stage d.completionTest.ram)
        let r := match x.timer with
          | .held left => if stop = true then c
            else if left = 0 then c.stageExpire { y with timer := .running time }
            else c.setPush (some { y with timer := .running (min tMax (time + left)) })
          | _ => c
        if r.hold = true ∨ r.online .pm = false then r else r.send .pm (.clear .linkLoss)
      | none => d.completionTest := by
  unfold rederive
  rw [stage]
  dsimp only
  cases d.completionTest.ilk.push with
  | none => rfl
  | some x =>
    refine Eq.trans ?_ hold_or_offline.symm
    exact congrArg (fun r : State => if r.hold = true then r else r.sendIfOnline .pm (.clear .linkLoss))
      (confirm_eq halted clock early q.stage)

end State

/-- Settles O34. -/
theorem statusWritesTheMachineRecord : Obligations.StatusWritesTheMachineRecord := by
  unfold Obligations.StatusWritesTheMachineRecord
  refine ⟨fun s f mode motion spot untested => ?_, fun s oldMode at_ spot => ?_,
    fun s m => ⟨fun became => ⟨fun h => pushRegains_confirmed h m became, fun p push flag => ?_⟩, pushLoses_unmoved,
      fun p push other moved => ?_⟩⟩
  · intro m row allowed place status at_ h up written told greeted car ends'
    have allowedIs : spotAllowed h m spot = allowed := spotAllowed_eq s f spot (row := row) (by cases f <;> rfl)
    have placeIs : ReportedSpot.position spot = place := position_eq spot
    have statusIs : StatusFrom.status f = status := by cases f <;> rfl
    have carSpotIs : (if motion = .stopped ∧ allowed = true then ReportedSpot.carSpot spot else none) = at_ := by
      cases spot <;> rfl
    have sameOnline : h.online m = s.online m := by simp [h, online, heardFrom, mlink_updPort]
    have took : exec (.status f mode motion spot) s = ends (h.takeStatus f mode motion spot) :=
      exec_machineFrame (c := .status f mode motion spot) rfl untested
    have written' := takeStatus_eq (s := h) allowedIs placeIs statusIs carSpotIs sameOnline (old := s.machine m)
      (now := s.now) (hold := s.hold) (cause := s.stopCause) rfl rfl rfl rfl mode
    refine ⟨took.trans (congrArg ends (written'.trans ?_)), fun early => ?_⟩
    · show (match m with
        | .pm => ends'.dispatchDoor .ps
        | .gc => ends'.dispatchDoor .cs
        | .cc => ends'.dispatchValve
        | .qc => ends') = _
      rfl
    · let t := h.takeStatus f mode motion spot
      have time : t.now = s.now := by simp [t, h, State.now, heardFrom]
      have late : t.now < tMax := time.trans_lt early
      have record (x : MachineId) : t.kick.machine x = if x = m then ⟨some mode,
          some (if motion = .stopped ∧ allowed = true then place else .travel), status, some s.now,
          decide (motion = .stopped ∧ allowed = false)⟩ else s.machine x := by
        have written : t.kick.ilk.machines = s.ilk.machines.set m (h.statusRecord f mode motion spot) :=
          (congrArg Interlock.machines (kick_frame t).2.2.2.1).trans (takeStatus_machines h f mode motion spot)
        rw [machine, written, Quad.get_set, statusRecord_eq allowedIs placeIs statusIs (time := rfl) mode motion]
        exact if_congr eq_comm rfl rfl
      have port (x : MachineId) : (t.kick.mlink x).port = if x = m then { (s.mlink x).port with up := true, silence := true }
          else (s.mlink x).port := by
        have heard : (h.mlink x).port = if x = m then { (s.mlink x).port with silence := true } else (s.mlink x).port :=
          mlink_updPort s m x _
        rw [mlink, kick_mlink, (kickLink_frame _).1]
        refine (takeStatus_port h f mode motion spot x).trans ?_
        rw [heard]
        by_cases is : x = m <;> simp [is, m]
      have mine := (record m).trans (if_pos rfl)
      have minePort := (port m).trans (if_pos rfl)
      refine ⟨t.kick, took.trans (congrArg Host.Outcome.next (settle_eq_kick late)), fun moving => ?_, fun stopped ok => ?_,
        fun stopped bad => ?_, congrArg Port.up minePort, congrArg Port.silence minePort, fun x other =>
          ⟨(record x).trans (if_neg other), congrArg Port.up ((port x).trans (if_neg other))⟩, ?_, ?_, ?_, ?_⟩
      · rw [mine]
        simp [moving]
      · rw [mine]
        simp [stopped, ok]
      · rw [mine]
        simp [stopped, bad]
      all_goals simp [t, h, heardFrom]
  · intro isLocal position u tell withdraw stands done target empty run
    have same : u.qnu.car.state = s.qnu.car.state ∧ u.ilk.machines = s.ilk.machines ∧ u.emptyTarget = target
        ∧ u.now = s.now ∧ u.qnu.vals = s.qnu.vals := by
      cases at_ <;> exact ⟨rfl, rfl, rfl, rfl, rfl⟩
    obtain ⟨carU, machinesU, targetU, timeU, valsU⟩ := same
    let loc : Bool := (s.machine .qc).mode == some .localMode
    have rests (v : State) (kept : v.ilk.machines = s.ilk.machines) : qcRest loc oldMode spot v = done v :=
      qcRest_of (checkLoadedPlace_eq (congrArg (fun q => (q.get MachineId.qc).position) kept) spot) rfl (stands_eq _) oldMode
    have runs {v : State} (taken : qcTakes loc at_ spot u = v) : run = done v :=
      (qcStatus_eq s oldMode at_ spot).trans ((congrArg (qcRest loc oldMode spot) taken).trans
        (rests v (taken ▸ qcTakes_machines.trans machinesU)))
    have placeU : (u.machine .qc).position = position := congrArg (fun q => (q.get MachineId.qc).position) machinesU
    have stays {d : CarState} (car : s.qnu.car.state = d) (known : d ≠ .unknown) (away : loc = false ∨ u.carEmpty = false)
        (elsewhere : ∀ dest, d.dest = some dest → at_ ≠ some dest.spot) {v : State} (checked : u.checkEmptyPlace (some spot) = v) :
        run = done v :=
      runs ((qcTakes_stays (fun is => known (car ▸ carU ▸ is)) away (fun dest to0 => elsewhere dest (car ▸ carU ▸ to0))).trans checked)
    have unmoved {d : CarState} (car : s.qnu.car.state = d) (parked : d ≠ .parked) (spotted : ∀ n, d ≠ .spotted n) :
        u.checkEmptyPlace (some spot) = u :=
      checkEmptyPlace_moving (fun is => parked (car ▸ carU ▸ is)) fun n is => spotted n (car ▸ carU ▸ is)
    have full (moved : s.qnu.car.state = .toTower ∨ (∃ b, s.qnu.car.state = .toBay b) ∨ s.qnu.car.state = .quenching
        ∨ s.qnu.car.state = .draining ∨ s.qnu.car.state = .waitBay ∨ s.qnu.car.state = .dumping
        ∨ ∃ n, s.qnu.car.state = .loading n) : loc = false ∨ u.carEmpty = false :=
      .inr (carEmpty_of_loaded (by rw [carU]; exact moved))
    have inAuto (auto : ¬ isLocal) : loc = false := beq_eq_false_iff_ne.mpr auto
    refine ⟨fun unknown => runs (qcTakes_unknown (carU.trans unknown)), fun stood here => ?_, fun auto d car => ⟨?_, ?_, ?_⟩,
      fun car => ⟨?_, ?_⟩, fun b car => ⟨?_, ?_⟩, fun auto car => ?_, fun auto n car => ?_, fun car => ?_,
      fun unknown => ⟨leaveUnknown_empty unknown, leaveUnknown_loaded unknown, leaveUnknown_stays⟩⟩
    · have follows : qcTakes loc at_ spot u = u.followLocal at_ := by
        have isLoc : loc = true := beq_iff_eq.mpr here
        rw [isLoc]
        exact qcTakes_follows (carEmpty_of (by rw [carU]; exact stood))
      exact runs (follows.trans (followLocal_eq targetU))
    · rintro rfl there
      exact runs (v := u.settleCar .parked) ((qcTakes_arrives (dest := .park) (congrArg CarState.dest (carU.trans car)) there (.inl (inAuto auto))).trans
        (arrive_toOven (carU.trans car) rfl))
    · rintro n rfl there
      exact runs (v := u.settleCar (.spotted n)) ((qcTakes_arrives (dest := .oven n) (congrArg CarState.dest (carU.trans car)) there (.inl (inAuto auto))).trans
        (arrive_toOven (carU.trans car) rfl))
    · intro elsewhere
      refine stays car (by simp) (.inl (inAuto auto)) (fun dest to0 => ?_) (unmoved car (by simp) (by simp))
      cases d <;> cases to0 <;> exact elsewhere
    · intro there
      exact runs ((qcTakes_arrives (dest := .tower) (congrArg CarState.dest (carU.trans car)) there (full (.inl car))).trans
        (arrive_toTower (carU.trans car) timeU (congrArg _ valsU)))
    · intro elsewhere
      refine stays car (by simp) (full (.inl car)) (fun dest to0 => ?_) (unmoved car (by simp) (by simp))
      cases to0
      exact elsewhere
    · intro there
      exact runs ((qcTakes_arrives (dest := .bay b) (congrArg CarState.dest (carU.trans car)) there (full (.inr (.inl ⟨b, car⟩)))).trans
        (arrive_toBay (carU.trans car)))
    · intro elsewhere
      refine stays car (by simp) (full (.inr (.inl ⟨b, car⟩))) (fun dest to0 => ?_) (unmoved car (by simp) (by simp))
      cases to0
      exact elsewhere
    · refine stays car (by simp) (.inl (inAuto auto)) (fun dest to0 => nomatch to0) ?_
      rw [← placeU]
      exact checkEmptyPlace_parked (carU.trans car) spot
    · refine stays car (by simp) (.inl (inAuto auto)) (fun dest to0 => nomatch to0) ?_
      rw [← placeU]
      exact checkEmptyPlace_spotted (carU.trans car) spot
    · have loaded := full (.inr (.inr car))
      rcases car with car | car | car | car | ⟨n, car⟩ <;>
        exact stays car (by simp) loaded (fun dest to0 => nomatch to0) (unmoved car (by simp) (by simp))
  · intro q w at_ derived confirm
    refine ⟨fun lost => pushRegains_waits push flag lost became, fun lost early => ?_⟩
    have stage : w.rederiveStage q = derived := rederiveStage_eq (s := w) (q := q) rfl flag
    have clock : derived.completionTest.now = s.now ∧ derived.completionTest.ilk.stop = s.ilk.stop :=
      stage ▸ rederiveStage_clock (s := w) q
    exact (pushRegains_rederives push flag lost became).trans (rederive_eq stage clock.2 clock.1 early)
  · intro w
    exact pushLoses_eq push other moved

end Sys2Proof.Machine
end

section
/-! SUPPORT. A DOOR_OFF or a RAM_START, covered or not: the planner's report, the door that goes OFF, the ram followed. -/

namespace Sys2Proof.Machine

open Sys2Proof State

namespace State

/-! ## The planner's report -/

theorem planReport_pln (s : State) : ∃ r, s.planReport.pln = { s.pln with reported := r } := by
  unfold planReport
  dsimp only
  split
  · exact ⟨s.pln.reported, by simp⟩
  · refine ⟨s.retest.nextOven, ?_⟩
    (repeat' split) <;> simp [updPlan]

theorem releaseServing_state (s : State) : s.releaseServing.pln.state = s.pln.state := by
  unfold releaseServing updCursor
  dsimp only
  (repeat' split) <;> rfl

theorem planHalt_state (s : State) : s.planHalt.pln.state ≠ .running := by
  have reports {u : State} (halted : u.pln.state = .halted) : u.planReport.pln.state ≠ .running := by
    obtain ⟨r, same⟩ := u.planReport_pln
    rw [same]
    simp [halted]
  unfold planHalt
  split
  · refine reports ?_
    (repeat' split) <;> simp [releaseServing_state, updPlan]
  · next idle => exact idle

/-! ## No permit left (R60, R65) -/

theorem retest_free {s : State} (free : ∀ x, x ≠ .qc → s.permit x = none) : s.retest = s := by
  unfold retest
  rw [retestOne_free (free .pm (by simp)), retestOne_free (free .gc (by simp)), retestOne_free (free .cc (by simp))]

theorem permit_of_within {q : Quad (Option Permit)} {s : State} (h : Within q s.ilk.permits) {m : MachineId}
    (gone : q.get m = none) : s.permit m = none :=
  (h m).elim id fun same => same.trans gone

theorem covers_eq_false {s : State} {m : MachineId} {k : PermitKind} {n : Nat}
    (h : ∀ p, s.permit m = some p → ¬ (p.kind = k ∧ p.oven = n)) : s.covers m k n = false := by
  unfold covers
  cases held : s.permit m with
  | none => rfl
  | some p => simpa using h p held

/-! ## The push record follows a ram start (R74, R79) -/

theorem followRam_eq {s : State} {p : PushRec} (push : s.ilk.push = some p) {now dur : Nat} {stop : Bool}
    (time : s.now = now) (timing : s.cfg.timing.tRam = dur) (halted : s.ilk.stop = stop) (n : Nat) : s.followRam n =
      (s.setPush (some { p with
        stage := .ramForward, armedFrom := none, ramStart := some now, ramEnd := none, ramHome := none,
        derivedEnd := false, derivedHome := false, retry := false, late := false
        timer := if stop = true ∨ p.unconfirmed = true then .held dur else .running (min tMax (now + dur)) })).ramStartCar
        n := by
  subst time timing halted
  unfold followRam
  rw [newTimer_eq push, updPush, push]
  rfl

theorem ramStartCar_spotted {s : State} {n : Nat} (spotted : s.qnu.car.state = .spotted n) :
    s.ramStartCar n = (s.setCar (.loading n)).retest := if_pos spotted

theorem ramStartCar_without {s : State} {n : Nat} (other : s.qnu.car.state ≠ .spotted n) :
    s.ramStartCar n = s.raise (.ramWithoutCar n s.qnu.car.state) := if_neg other

/-! ## A door goes OFF (R91) -/

theorem releaseFrom_door {s : State} {d : Side} {n : Nat} {r : DoorRec} (present : s.door n d = some r) (l : List Nat) :
    ∃ p, (releaseFrom d l s).door n d = some { r with resealPending := p } := by
  induction l generalizing s r with
  | nil => exact ⟨r.resealPending, present⟩
  | cons j l ih =>
    have once : ∃ p, (s.releaseOne d j).door n d = some { r with resealPending := p } := by
      rw [releaseOne_eq]
      split
      · by_cases same : j = n
        · refine ⟨false, ?_⟩
          subst same
          split <;> simp [present]
        · refine ⟨r.resealPending, ?_⟩
          split <;> simp [present, same]
      · exact ⟨r.resealPending, present⟩
    obtain ⟨p, kept⟩ := once
    obtain ⟨p', after⟩ := ih kept
    exact ⟨p', after⟩

theorem dropSealWork_queue (s : State) (d : Side) (n : Nat) : s.dropSealWork d n = s.setQueue d ((s.queue d).filter fun e =>
    !(e.oven == n && (e.kind == .reseal || e.kind == .inspect) && e.service.isNone)) := by
  unfold dropSealWork TaskEntry.is TaskEntry.waits
  refine congrArg (s.setQueue d) (List.filter_congr fun e _ => ?_)
  cases e.oven == n <;> rfl

theorem visit_withdrawn {u : State} {d : Side} {visit : Option Visit} (round : (u.round d).visit = visit) (x : State)
    (n : Nat) : (match (u.round d).visit with
      | some v => if v.oven = n then x else u
      | none => u) = if visit.any (fun v => v.oven == n) then x else u := by
  rw [round]
  cases visit <;> simp

theorem withdrawAt_eq {s : State} {q : List TaskEntry} {visit : Option Visit} {d : Side} (queue : s.queue d = q)
    (round : (s.round d).visit = visit) {m : MachineId} (machine : Side.machine d = m) (n : Nat) :
    let withdrawn := match q.find? fun e => e.oven == n && e.service.isSome with
      | some (e : TaskEntry) =>
        let others : List TaskEntry := q.filter fun y => !(y.oven == n && y.kind == e.kind)
        (s.setQueue d (if e.kind = TaskKind.clean then joinHead { e with service := none, timedOut := false } others
          else others)).raise (.taskWithdrawn m n (.door e.kind) false)
      | none => s
    s.withdrawAt n d = if visit.any (fun v => v.oven == n) then
      (withdrawn.updRound d fun r => { r with visit := none }).raise (.taskWithdrawn m n (.door .inspect) true)
      else withdrawn := by
  intro withdrawn
  subst queue machine
  have sameRound : (withdrawn.round d).visit = visit := by
    rw [← round]
    simp only [withdrawn]
    split <;> simp [State.round]
  unfold withdrawAt
  exact visit_withdrawn sameRound _ n

theorem doorGoesOff_off {s : State} {n : Nat} {d : Side} {x : DoorRec} (present : s.door n d = some x)
    (off : x.state = .off) : s.doorGoesOff n d = s := by
  unfold doorGoesOff doorState
  rw [present, Option.map_some, off]

/-- A door that stands goes OFF (R91). -/
theorem doorGoesOff_stood {s : State} {n : Nat} {d : Side} {x : DoorRec} (present : s.door n d = some x)
    (stood : x.state ≠ .off) :
    let released := (((s.updDoor n d fun r => { r with state := .off, confirm := none, resealPending := false }).dropSealWork
      d n).withdrawAt n d).pendingRelease d
    s.doorGoesOff n d = (if x.cleanDue = true ∧ s.inRun = true then released.offerTask d n .clean else released).retest
      ∧ ∃ p, released.door n d = some { x with state := .off, confirm := none, resealPending := p } := by
  intro released
  have kept : ∃ p, released.door n d = some { x with state := .off, confirm := none, resealPending := p } := by
    refine releaseFrom_door (r := { x with state := .off, confirm := none, resealPending := false }) ?_ _
    rw [door_congr ((withdrawAt_frame _ n d).2.2.2.2.1), door_congr ((dropSealWork_frame _ d n).2.2.2.2.1)]
    simp [present]
  refine ⟨?_, kept⟩
  obtain ⟨p, written⟩ := kept
  have sameRun : released.inRun = s.inRun := by simp [released, inRun]
  have offers : (if (released.door n d).map DoorRec.cleanDue = some true then released.offerInRun d n .clean else released)
      = if x.cleanDue = true ∧ s.inRun = true then released.offerTask d n .clean else released := by
    rw [written, offerInRun, sameRun]
    cases x.cleanDue <;> cases s.inRun <;> simp
  rw [← offers]
  unfold doorGoesOff doorState
  rw [present, Option.map_some]
  cases state : x.state with
  | off => exact absurd state stood
  | _ => rfl

theorem doorGoesOff_doorState (s : State) (n : Nat) (d : Side) :
    (s.doorGoesOff n d).doorState n d = (s.doorState n d).map fun _ => .off := by
  cases present : s.door n d with
  | none =>
    have gone : s.doorState n d = none := by simp [doorState, present]
    have same : s.doorGoesOff n d = s := by
      unfold doorGoesOff
      rw [gone]
    rw [same, gone]
    rfl
  | some x =>
    have here : s.doorState n d = some x.state := by simp [doorState, present]
    by_cases off : x.state = .off
    · rw [doorGoesOff_off present off, here, off]
      rfl
    · obtain ⟨same, p, written⟩ := doorGoesOff_stood present off
      rw [same, here, doorState_congr (congrArg _ (door_congr (retest_frame _).2.2.2.2.2.2.2.1 n d))]
      split
      · obtain ⟨p', offered⟩ := offerTask_door written .clean
        rw [doorState, offered]
        rfl
      · rw [doorState, written]
        rfl

end State
end Sys2Proof.Machine
end

section
/-! CHAPTER 4. O38: reports that no permit covers. -/

namespace Sys2Proof.Machine

open Sys2Proof State

namespace State

/-! ## The end of a breach (R65) -/

theorem hold_of_breach {s : State} {n : Nat} (flag : (s.oven n).map OvenRec.breach = some true) : s.hold = true := by
  obtain ⟨o, present, breach⟩ := Option.map_eq_some_iff.mp flag
  have found : s.ot.any OvenRec.breach = true := List.any_eq_true.mpr ⟨o, nth1_mem present, breach⟩
  simp [hold, found]

theorem oven_congr {s t : State} (h : t.ot = s.ot) (n : Nat) : t.oven n = s.oven n := congrArg (nth1 · n) h

section
variable {u : State} {n : Nat} {m : MachineId} {rep : ReportName} {held : Option Permit}

theorem breachEnds_holds (flag : (u.oven n).map OvenRec.breach = some true) : (u.breachEnds n m rep held).hold = true :=
  hold_of_breach ((congrArg _ (oven_congr (breachEnds_frame u n m rep held).2.1 n)).trans flag)

theorem breachEnds_permit (free : ∀ x, x ≠ .qc → u.permit x = none) (x : MachineId) (other : x ≠ .qc) :
    (u.breachEnds n m rep held).permit x = none :=
  permit_of_within (breachEnds_within (Within.refl u.ilk.permits) n m rep held) (free x other)

theorem breachEnds_state : (u.breachEnds n m rep held).pln.state ≠ .running := by
  unfold breachEnds
  rw [(raise_frame _ _).2.2.1]
  exact planHalt_state _

/-- The dispatch check and the re-test that follow a breach find nothing to do. -/
theorem breachEnds_dispatchDoor (flag : (u.oven n).map OvenRec.breach = some true) (d : Side) :
    (u.breachEnds n m rep held).dispatchDoor d = u.breachEnds n m rep held :=
  dispatchDoor_busy fun free => nomatch (breachEnds_holds flag).symm.trans free.2.1

theorem breachEnds_retest (free : ∀ x, x ≠ .qc → u.permit x = none) :
    (u.breachEnds n m rep held).retest = u.breachEnds n m rep held := retest_free (breachEnds_permit free)

end

/-- What every breach comes to, `u` its state before STOP is sent. -/
theorem breach_comesTo {s u : State} {c : Instr} {n : Nat} {m : MachineId} {rep : ReportName} {fact : State → Prop}
    (took : exec c s = ends (u.breachEnds n m rep (s.permit m))) (free : ∀ x, x ≠ .qc → u.permit x = none)
    (stop : u.ilk.stop = s.ilk.stop) (tb : u.tb = s.tb) (cfg : u.cfg = s.cfg) (trm : u.trm = s.trm)
    (flag : (u.oven n).map OvenRec.breach = some true)
    (others : ∀ j, j ≠ n → (u.oven j).map OvenRec.breach = (s.oven j).map OvenRec.breach) (holds : fact u) :
    ∃ u : State, exec c s = ends ((((({ u with ilk.holdCause := .breach } : State).sendAllOnline (.stop .breach)).withdrawMove).planHalt).raise
        (.breach n m rep ((s.permit m).map fun p => (p.kind, p.oven))))
      ∧ (∀ x, x ≠ .qc → u.permit x = none) ∧ u.ilk.stop = s.ilk.stop ∧ u.tb = s.tb ∧ u.cfg = s.cfg ∧ u.trm = s.trm
      ∧ (u.oven n).map OvenRec.breach = some true
      ∧ (∀ j, j ≠ n → (u.oven j).map OvenRec.breach = (s.oven j).map OvenRec.breach) ∧ fact u
      ∧ ∀ t, s.now < tMax → exec c s = .next t → t.hold = true ∧ t.pln.state ≠ .running ∧ ∀ x, x ≠ .qc → t.permit x = none := by
  refine ⟨u, took, free, stop, tb, cfg, trm, flag, others, holds, fun t early event => ?_⟩
  let v := u.breachEnds n m rep (s.permit m)
  have late : v.now < tMax := by simpa [v, now, tb] using early
  have settled : t = v.kick := (Host.Outcome.next.inj (event.symm.trans took)).trans (settle_eq_kick late)
  obtain ⟨-, ovens, plan, ilk, -⟩ := kick_frame v
  rw [settled]
  refine ⟨?_, plan ▸ breachEnds_state, fun x other => ?_⟩
  · refine hold_of_breach (n := n) ?_
    rw [oven_congr (ovens.trans (breachEnds_frame u n m rep (s.permit m)).2.1) n]
    exact flag
  · rw [permit, ilk]
    exact breachEnds_permit free x other

/-! ## The beginning of a breach -/

/-- The flag of R65 set. -/
def flagged (o : OvenRec) : OvenRec := { o with breach := true }

section
variable {s : State} {n : Nat}

theorem breachBegins_ot : (s.breachBegins n).ot = upd1 flagged n s.ot := by
  unfold breachBegins
  simp
  rfl

theorem breachBegins_oven : (s.breachBegins n).oven n = (s.oven n).map flagged := by
  rw [oven, breachBegins_ot]
  simp
  rfl

theorem breachBegins_oven_ne {j : Nat} (other : j ≠ n) : (s.breachBegins n).oven j = s.oven j := by
  rw [oven, breachBegins_ot]
  simp [other.symm]
  rfl

theorem breachBegins_permit {x : MachineId} (other : x ≠ .qc) : (s.breachBegins n).permit x = none :=
  revokeAll_permit _ _ other

theorem breachBegins_push : PushKept s.ilk.push (s.breachBegins n).ilk.push := revokeAll_push (.refl _) _

theorem breachBegins_keeps {α : Type} {f : OvenRec → α} (kept : ∀ o, f (flagged o) = f o) (j : Nat) :
    ((s.breachBegins n).oven j).map f = (s.oven j).map f := by
  by_cases same : j = n
  · subst same
    rw [breachBegins_oven, Option.map_map]
    exact congrFun (congrArg Option.map (funext kept)) _
  · rw [breachBegins_oven_ne same]

theorem breachBegins_secOf (s : State) (n j : Nat) : (s.breachBegins n).secOf j = s.secOf j :=
  congrArg (Option.getD · 0) (breachBegins_keeps (fun _ => rfl) j)

theorem breachBegins_chargingElsewhere (k : Nat) : (s.breachBegins n).chargingElsewhere n k = s.chargingElsewhere n k := by
  have size : (s.breachBegins n).nOv = s.nOv := by simp [nOv, breachBegins_ot]
  have states (j : Nat) (st : OvenState) : (s.breachBegins n).ovenIs j st = s.ovenIs j st :=
    congrArg (· == some st) (breachBegins_keeps (fun _ => rfl) j)
  simp only [chargingElsewhere, size, breachBegins_secOf, states]

/-- The flag is set at its oven alone. -/
theorem flags_of_ot {u : State} (present : (s.oven n).isSome = true) (ovens : u.ot = upd1 flagged n s.ot) :
    (u.oven n).map OvenRec.breach = some true
      ∧ ∀ j, j ≠ n → (u.oven j).map OvenRec.breach = (s.oven j).map OvenRec.breach := by
  obtain ⟨o, found⟩ := Option.isSome_iff_exists.mp present
  have here : nth1 s.ot n = some o := found
  refine ⟨?_, fun j other => ?_⟩
  · rw [oven, ovens]
    simp [here, flagged]
  · rw [oven, ovens]
    simp [other.symm]
    rfl

end

/-! ## The push record at an uncovered RAM_START (R79) -/

/-- The push record follows a ram start at its oven from OPENING and from STICKER. -/
def followed (s : State) (n : Nat) : State :=
  match s.ilk.push with
  | some p => if p.oven = n ∧ (p.stage = PushStage.opening ∨ p.stage = PushStage.sticker) then s.followRam n else s
  | none => s

section
variable {s : State} {n : Nat}

theorem followed_stays (h : ∀ p, s.ilk.push = some p → ¬ (p.oven = n ∧ (p.stage = .opening ∨ p.stage = .sticker))) :
    s.followed n = s := by
  unfold followed
  cases push : s.ilk.push with
  | none => rfl
  | some p => exact if_neg (h p push)

theorem followed_follows {p : PushRec} (push : s.ilk.push = some p)
    (follows : p.oven = n ∧ (p.stage = .opening ∨ p.stage = .sticker)) : s.followed n = s.followRam n := by
  unfold followed
  rw [push]
  exact if_pos follows

theorem followed_cases : s.followed n = s ∨ s.followed n = s.followRam n := by
  unfold followed
  (repeat' split) <;> simp

theorem followed_keeps : (s.followed n).ot = s.ot ∧ (s.followed n).tb = s.tb ∧ (s.followed n).cfg = s.cfg
    ∧ (s.followed n).trm = s.trm ∧ (s.followed n).ilk.stop = s.ilk.stop ∧ (s.followed n).ilk.lastRam = s.ilk.lastRam
    ∧ (s.followed n).ilk.machines = s.ilk.machines := by
  obtain same | moved := followed_cases (s := s) (n := n)
  · simp [same]
  · simp [moved]

theorem followed_permit {x : MachineId} (free : s.permit x = none) : (s.followed n).permit x = none := by
  obtain same | moved := followed_cases (s := s) (n := n)
  · rw [same, free]
  · rw [moved]
    exact permit_of_within (followRam_within (Within.refl _) n) free

end

/-- What a ram start writes of a record does not depend on its having been disarmed. -/
theorem disarmRec_pushed (p : PushRec) (now : Nat) (timer : StageTimer) : { disarmRec p with
      stage := .ramForward, armedFrom := none, ramStart := some now, ramEnd := none, ramHome := none,
      derivedEnd := false, derivedHome := false, retry := false, late := false, timer := timer } = { p with
      stage := .ramForward, armedFrom := none, ramStart := some now, ramEnd := none, ramHome := none,
      derivedEnd := false, derivedHome := false, retry := false, late := false, timer := timer } := by
  unfold disarmRec
  cases p.armedFrom <;> rfl

theorem disarmRec_stage {p : PushRec} (h : p.stage = .opening ∨ p.stage = .sticker) :
    (disarmRec p).stage = .opening ∨ (disarmRec p).stage = .sticker := by
  unfold disarmRec
  cases p.armedFrom with
  | none => exact h
  | some a => cases a <;> simp [ArmedFrom.stage]

theorem disarmRec_unconfirmed (p : PushRec) : (disarmRec p).unconfirmed = p.unconfirmed := by
  unfold disarmRec
  cases p.armedFrom <;> rfl

end State

/-- Settles O38. -/
theorem uncoveredReportsAreBreaches : Obligations.UncoveredReportsAreBreaches := by
  unfold Obligations.UncoveredReportsAreBreaches
  intro s m n untested present h uncovered held breached flaggedOt revoked
  have inTable : h.ovenOk n = true := (h.ovenOk_eq n).trans present
  refine ⟨fun d machine bare => ?_, fun machine bare => ?_, fun machine bare => ?_⟩
  · let u := (h.breachBegins n).doorGoesOff n d
    have side : m = Side.machine d := machine.trans (by cases d <;> rfl)
    have ovens : u.ot = upd1 flagged n s.ot := by
      rw [(doorGoesOff_frame _ n d).2.1, breachBegins_ot]
      rfl
    obtain ⟨flag, others⟩ := flags_of_ot present ovens
    have without : h.covers m (doorKind d) n = false := covers_eq_false (fun p place => by cases d <;> exact bare p place)
    have taken : frameEffect (.doorOff m n (some d)) h = u.breachEnds n m .doorOff (s.permit m) := by
      have reported : h.doorReportSide m n (some d) = some d := side ▸ doorReportSide_some (s := h) present d
      simp only [frameEffect, reported, takeDoorOff, without]
      exact breachEnds_dispatchDoor flag d
    refine breach_comesTo ((exec_machineFrame (c := .doorOff m n (some d)) rfl untested).trans (congrArg ends taken))
      (fun x other => ?_) ?_ ?_ ?_ ?_ flag others ⟨rfl, ovens, ?_⟩
    · exact permit_of_within (doorGoesOff_within (Within.refl _) n d) (breachBegins_permit other)
    · simp [u, h]
    · simp [u, h]
    · simp [u, h]
    · simp [u, h]
    · exact (doorGoesOff_doorState _ n d).trans (congrArg _ (doorState_congr (congrArg _ (door_congr (by simp) n d))))
  · subst machine
    let started : State := { revoked.updMachine .pm fun r => { r with status := some (.ram .forward) } with
      ilk.lastRam := some (s.now, s.secOf n) }
    let follows (p : PushRec) : Prop := p.oven = n ∧ (p.stage = .opening ∨ p.stage = .sticker)
    let begun := h.breachBegins n
    have ram : begun.ramStartFact n = started :=
      congrArg (fun k => ({ begun.writeRam .forward with ilk.lastRam := some k } : State))
        (Prod.ext (show begun.now = s.now by simp [begun, h, now]) (breachBegins_secOf h n n))
    let u := started.followed n
    have startedIs : started.ot = upd1 flagged n s.ot ∧ started.tb = s.tb ∧ started.cfg = s.cfg ∧ started.trm = s.trm
        ∧ started.ilk.stop = s.ilk.stop :=
      ⟨breachBegins_ot, by simp [started, revoked, h], by simp [started, revoked, h], by simp [started, revoked, h],
        by simp [started, revoked, h]⟩
    obtain ⟨ot, tb, cfg, trm, stop⟩ := startedIs
    obtain ⟨otU, tbU, cfgU, trmU, stopU, ramU, machinesU⟩ := followed_keeps (s := started) (n := n)
    obtain ⟨flag, others⟩ := flags_of_ot present (otU.trans ot)
    have free (x : MachineId) (other : x ≠ .qc) : u.permit x = none :=
      followed_permit (breachBegins_permit (s := h) (n := n) other)
    have without : h.covers .pm .push n = false := covers_eq_false bare
    have taken : frameEffect (.ramStart .pm n) h = u.breachEnds n .pm .ramStart (s.permit .pm) := by
      simp only [frameEffect, inTable, and_self, if_true, takeRamStart, without]
      show ((begun.ramStartFact n).followed n |>.breachEnds n .pm .ramStart (h.permit .pm)).retest = _
      rw [ram]
      exact breachEnds_retest free
    have follow {p : PushRec} (push : started.ilk.push = some p) (here : follows p) :
        u = (started.setPush (some { p with
          stage := .ramForward, armedFrom := none, ramStart := some s.now, ramEnd := none, ramHome := none,
          derivedEnd := false, derivedHome := false, retry := false, late := false
          timer := if s.ilk.stop = true ∨ p.unconfirmed = true then .held s.cfg.timing.tRam
            else .running (min tMax (s.now + s.cfg.timing.tRam)) })).ramStartCar n :=
      (followed_follows push here).trans (followRam_eq push (congrArg TimeBase.time tb)
        (congrArg (fun c => c.timing.tRam) cfg) stop n)
    have pushed {p : PushRec} (push : started.ilk.push = some p) (here : follows p) : u.ilk.push = some { p with
          stage := .ramForward, armedFrom := none, ramStart := some s.now, ramEnd := none, ramHome := none,
          derivedEnd := false, derivedHome := false, retry := false, late := false
          timer := if s.ilk.stop = true ∨ p.unconfirmed = true then .held s.cfg.timing.tRam
            else .running (min tMax (s.now + s.cfg.timing.tRam)) } := by
      rw [follow push here]
      exact PushKept.unarmed (ramStartCar_push (.refl _) n) rfl
    have kept : PushKept s.ilk.push started.ilk.push := breachBegins_push (s := h)
    refine breach_comesTo ((exec_machineFrame (c := .ramStart .pm n) rfl untested).trans (congrArg ends taken)) free
      (stopU.trans stop) (tbU.trans tb) (cfgU.trans cfg) (trmU.trans trm) flag others
      ⟨followed_stays, fun p push here => follow push here, otU.trans ot, ramU, ?_, fun p push place stage => ?_, fun stays => ?_⟩
    · rw [machine, machinesU]
      simp [started, updMachine]
    · rw [push] at kept
      obtain same | disarmed := kept
      · exact pushed same ⟨place, stage⟩
      · rw [pushed disarmed ⟨(disarmRec_oven p).trans place, disarmRec_stage stage⟩, disarmRec_pushed, disarmRec_unconfirmed]
    · have same : started.ilk.push = s.ilk.push := by
        cases push : s.ilk.push with
        | none => exact (push ▸ kept).eq_none_iff.mpr rfl
        | some p => exact PushKept.unarmed (push ▸ kept) (stays p push).1
      have unfollowed : u = started := followed_stays fun p push here =>
        (stays p (same.symm.trans push)).2.elim (· here.1) fun h => here.2.elim h.1 h.2
      rw [unfollowed, same]
  · subst machine
    let begun := h.breachBegins n
    let u := begun.chargeFact n
    have without : h.covers .cc .charge n = false := covers_eq_false bare
    have taken : frameEffect (.chargeStart .cc n) h = u.breachEnds n .cc .chargeStart (s.permit .cc) := by
      simp only [frameEffect, inTable, and_self, if_true, takeChargeStart, without]
      rfl
    have run' : begun.inRun = s.inRun := by simp [begun, h, inRun]
    have empty' : begun.ovenIs n .empty = s.ovenIs n .empty :=
      congrArg (· == some OvenState.empty) (breachBegins_keeps (s := h) (fun _ => rfl) n)
    have elsewhere : begun.chargingElsewhere n (begun.secOf n) = s.chargingElsewhere n (s.secOf n) := by
      rw [breachBegins_secOf, breachBegins_chargingElsewhere]
      rfl
    have here : begun.oven n = (s.oven n).map flagged := breachBegins_oven (s := h)
    have there {k : Nat} (other : k ≠ n) : begun.oven k = s.oven k := breachBegins_oven_ne (s := h) other
    have idle (still : s.inRun = false ∨ s.ovenIs n .empty = false) : u = begun := by
      refine if_neg ?_
      rw [run', empty']
      rcases still with config | full
      · simp [config]
      · simp [full]
    have charged (run : s.inRun = true) (empty : s.ovenIs n .empty = true) :
        u.oven n = (s.oven n).map (fun o => { o with state := .charging, chargeEnd := none, breach := true })
          ∧ (∀ k, k ≠ n → u.oven k = if s.chargingElsewhere n (s.secOf n) = some k
              then (s.oven k).map (fun o => { o with state := .coking, chargeEnd := some s.now, overdue := false })
              else s.oven k)
          ∧ u.ofu.charges = (s.ofu.charges.filter fun c => s.chargingElsewhere n (s.secOf n) ≠ some c.oven)
              ++ [⟨n, s.now, some (min tMax (s.now + s.cfg.timing.tCharge)), false⟩] := by
      have time : begun.now = s.now := by simp [begun, h, now]
      have cfg : begun.cfg = s.cfg := by simp [begun, h]
      have charges : begun.ofu.charges = s.ofu.charges := by simp [begun, h]
      refine ⟨?_, fun k other => ?_, ?_⟩
      · rw [chargeFact_oven (run'.trans run) (empty'.trans empty), here, Option.map_map]
        rfl
      · rw [chargeFact_oven_ne (run'.trans run) (empty'.trans empty) other, elsewhere, there other, time]
        rfl
      · rw [chargeFact_charges (run'.trans run) (empty'.trans empty), elsewhere, time, cfg, charges]
    have flags : (u.oven n).map OvenRec.breach = some true
        ∧ ∀ j, j ≠ n → (u.oven j).map OvenRec.breach = (s.oven j).map OvenRec.breach := by
      by_cases still : s.inRun = false ∨ s.ovenIs n .empty = false
      · rw [idle still]
        exact flags_of_ot present (breachBegins_ot (s := h))
      · obtain ⟨run, empty⟩ : s.inRun = true ∧ s.ovenIs n .empty = true := by simpa using still
        obtain ⟨mine, other, -⟩ := charged run empty
        refine ⟨?_, fun j away => ?_⟩
        · obtain ⟨o, found⟩ := Option.isSome_iff_exists.mp present
          rw [mine, found]
          rfl
        · rw [other j away]
          split
          · rw [Option.map_map]
            rfl
          · rfl
    obtain ⟨flag, others⟩ := flags
    refine breach_comesTo ((exec_machineFrame (c := .chargeStart .cc n) rfl untested).trans (congrArg ends taken))
      (fun x other => permit_of_within (chargeFact_within (Within.refl _) n) (breachBegins_permit (s := h) other))
      (by simp [u, begun, h]) (by simp [u, begun, h]) (by simp [u, begun, h]) (by simp [u, begun, h]) flag others
      ⟨fun still => ?_, fun run empty => ⟨rfl, charged run empty⟩⟩
    rw [idle still]
    exact breachBegins_ot

end Sys2Proof.Machine
end

section
/-! CHAPTER 4. O39: reports that a permit covers. -/

namespace Sys2Proof.Machine

open Sys2Proof State

namespace State

/-! ## The planner's part (R25, R29, R34) -/

section
variable {s : State} {n i : Nat} {sl : Slot}

theorem cursorSlot_of (cursor : s.pln.cursor = some i) (slot : s.slot i = some sl) : s.cursorSlot = some sl := by
  rw [cursorSlot, cursor]
  exact slot

/-- A change of the slot at the cursor, its record known. -/
theorem updCursor_const (cursor : s.pln.cursor = some i) (slot : s.slot i = some sl) (f : Slot → Slot) : s.updCursor f =
    { s with pln.round := s.pln.round.map fun r => { r with slots := upd1 (fun _ => f sl) (i + 1) r.slots } } := by
  rw [updCursor_some cursor]
  cases round : s.pln.round with
  | none => rfl
  | some r =>
    have here : r.slots[i]? = some sl := by simpa [State.slot, round] using slot
    have same : upd1 f (i + 1) r.slots = upd1 (fun _ => f sl) (i + 1) r.slots :=
      upd1_congr fun a found => congrArg f (Option.some.inj (found.symm.trans here))
    exact congrArg (fun l => ({ s with pln.round := some { r with slots := l } } : State)) same

theorem planPushBegins_due (serving : s.pln.serving = some .slot) (cursor : s.pln.cursor = some i)
    (slot : s.slot i = some sl) (here : sl.oven = n) (due : sl.status = .due) : s.planPushBegins n =
      planReport { s with pln.round := s.pln.round.map fun r =>
        { r with slots := upd1 (fun _ => { sl with status := .inPush }) (i + 1) r.slots } } := by
  have there := cursorSlot_of cursor slot
  refine (if_pos ⟨serving, by simp [cursorAt, there, here], by simp [cursorStatus, there, due]⟩).trans ?_
  rw [updCursor_const cursor slot]

theorem planRamStart_slot (serving : s.pln.serving = some .slot) (cursor : s.pln.cursor = some i)
    (slot : s.slot i = some sl) (here : sl.oven = n) : s.planRamStart n = planReport { s with
      pln.round := s.pln.round.map fun r =>
        { r with slots := upd1 (fun _ => { sl with pushStart := some (sl.pushStart.getD s.now) }) (i + 1) r.slots }
      pln.lag := min 86400 (max s.pln.lag (s.now - sl.planned)) } := by
  have there := cursorSlot_of cursor slot
  unfold planRamStart
  rw [if_pos serving, there]
  refine (if_pos here).trans ?_
  rw [updCursor_const cursor slot]
  rfl

theorem plan_notServing (h : ¬ (s.pln.serving = some .slot ∧ s.cursorSlot.map Slot.oven = some n)) :
    s.planPushBegins n = s ∧ s.planRamStart n = s := by
  refine ⟨if_neg fun ⟨serving, at0, _⟩ => h ⟨serving, by simpa [cursorAt] using at0⟩, ?_⟩
  unfold planRamStart
  split
  · next serving =>
    cases there : s.cursorSlot with
    | none => rfl
    | some sl => exact if_neg fun here => h ⟨serving, by simp [there, here]⟩
  · rfl

end

theorem makeupCheck_round (s : State) : s.makeupCheck.pln.round = s.pln.round := by
  unfold makeupCheck
  (repeat' split) <;> simp [updPlan]

/-! ## The end of a covered report: the re-test, the dispatch check, the lines -/

section
variable {v : State} {d : Side}

theorem reported_keeps : ((v.retest).dispatchDoor d).kick.ot = v.ot ∧ ((v.retest).dispatchDoor d).kick.pln = v.pln
    ∧ ((v.retest).dispatchDoor d).kick.dru.doors = v.dru.doors
    ∧ ((v.retest).dispatchDoor d).kick.ilk.machines = v.ilk.machines
    ∧ ((v.retest).dispatchDoor d).kick.ilk.lastRam = v.ilk.lastRam ∧ ((v.retest).dispatchDoor d).kick.qnu = v.qnu := by
  simp

theorem reported_permit {x : MachineId} (free : v.permit x = none) : ((v.retest).dispatchDoor d).kick.permit x = none := by
  have ilk : ((v.retest).dispatchDoor d).kick.ilk = v.retest.ilk := by simp
  rw [permit, ilk]
  exact permit_of_within (s := v.retest) (retest_within (Within.refl _)) free

theorem reported_push {o : Option PushRec} (kept : PushKept o v.ilk.push) :
    PushKept o ((v.retest).dispatchDoor d).kick.ilk.push := by
  have ilk : ((v.retest).dispatchDoor d).kick.ilk = v.retest.ilk := by simp
  rw [ilk]
  exact retest_push kept

theorem reported_settles {c : Instr} {s : State} (took : exec c s = ends ((v.retest).dispatchDoor d)) (early : s.now < tMax)
    (time : v.tb = s.tb) : exec c s = .next ((v.retest).dispatchDoor d).kick := by
  refine took.trans (congrArg Host.Outcome.next (settle_eq_kick ?_))
  simpa [now, time] using early

end

end State

/-! ## What the two reports do -/

/-- The push record and the oven as a push begins at a READY oven (R14, R71). -/
def State.pushOpened (s : State) (m : MachineId) (n : Nat) : State :=
  (((s.heardFrom m).setPermit m none).updOven n fun o => { o with state := .pushing }).setPush
    (some ⟨n, .opening, none, false, 1, s.now, none, none, none, false, false, .absent, false, false, []⟩)

/-- The state a covered DOOR_OFF reaches before the re-test. -/
def State.doorOpened (s : State) (m : MachineId) (n : Nat) (d : Side) : State :=
  if s.ovenState n = some .ready then (((s.pushOpened m n).doorGoesOff n d).planPushBegins n).ovenChanged n
  else ((s.heardFrom m).setPermit m none).doorGoesOff n d

theorem exec_doorOff_covered {s : State} {m : MachineId} {n : Nat} {d : Side} {p : Permit} (machine : Side.machine d = m)
    (untested : s.untested m) (held : s.permit m = some p) (kind : p.kind = doorKind d) (place : p.oven = n)
    (inTable : (s.oven n).isSome = true) :
    exec (.doorOff m n (some d)) s = ends ((s.doorOpened m n d).retest.dispatchDoor d) := by
  subst machine
  let h := s.heardFrom (Side.machine d)
  have covered : h.covers (Side.machine d) (doorKind d) n = true := covers_of_permit (s := h) held kind place
  have side : h.doorReportSide (Side.machine d) n (some d) = some d := doorReportSide_some (s := h) inTable d
  have taken : frameEffect (.doorOff (Side.machine d) n (some d)) h
      = (s.doorOpened (Side.machine d) n d).retest.dispatchDoor d := by
    simp only [frameEffect, side, takeDoorOff, if_pos covered]
    refine congrArg (fun v : State => (v.retest).dispatchDoor d) (if_congr ?_ rfl rfl)
    exact beq_iff_eq
  exact (exec_machineFrame (c := .doorOff (Side.machine d) n (some d)) rfl untested).trans (congrArg ends taken)

/-- The push record written, before the quench unit and the planner act. -/
def State.ramPushed (s : State) (n : Nat) (q : PushRec) : State :=
  ({ ((s.heardFrom .pm).setPermit .pm none).updMachine .pm fun r => { r with status := some (.ram .forward) } with
    ilk.lastRam := some (s.now, s.secOf n) } : State).setPush (some { q with
    stage := .ramForward, armedFrom := none, ramStart := some s.now, ramEnd := none, ramHome := none,
    derivedEnd := false, derivedHome := false, retry := false, late := false
    timer := if s.ilk.stop = true ∨ q.unconfirmed = true then .held s.cfg.timing.tRam
      else .running (min tMax (s.now + s.cfg.timing.tRam)) })

/-- The state a covered RAM_START reaches before the re-test. -/
def State.ramStarted (s : State) (n : Nat) (q : PushRec) : State :=
  ((s.ramPushed n q).ramStartCar n).planRamStart n

theorem exec_ramStart_covered {s : State} {n : Nat} {p : Permit} {q : PushRec} (untested : s.untested .pm)
    (held : s.permit .pm = some p) (kind : p.kind = .push) (place : p.oven = n) (inTable : (s.oven n).isSome = true)
    (push : s.ilk.push = some q) :
    exec (.ramStart .pm n) s = ends ((s.ramStarted n q).retest.dispatchDoor .ps) := by
  let h := s.heardFrom .pm
  have covered : h.covers .pm .push n = true := covers_of_permit (s := h) held kind place
  have ok : h.ovenOk n = true := (h.ovenOk_eq n).trans inTable
  have followed :=
    followRam_eq (s := (h.usePermit .pm).ramStartFact n) push
      (now := s.now) (dur := s.cfg.timing.tRam) (stop := s.ilk.stop) rfl rfl rfl n
  have taken : frameEffect (.ramStart .pm n) h = (s.ramStarted n q).retest.dispatchDoor .ps := by
    simp only [frameEffect, ok, and_self, if_true, takeRamStart, if_pos covered, ramStartCovered]
    rw [followed]
    rfl
  exact (exec_machineFrame (c := .ramStart .pm n) rfl untested).trans (congrArg ends taken)

namespace State

/-! ## The planner after a covered report -/

theorem slot_congr {s t : State} (h : t.pln.round = s.pln.round) (i : Nat) : t.slot i = s.slot i :=
  congrArg (fun r => Option.bind r fun x : RoundRec => x.slots[i]?) h

theorem slot_put {s t : State} {i : Nat} {sl x : Slot} (slot : s.slot i = some sl)
    (put : t.pln.round = s.pln.round.map fun r => { r with slots := upd1 (fun _ => x) (i + 1) r.slots }) :
    t.slot i = some x := by
  have written : t.slot i = (s.pln.round.map fun r => { r with slots := upd1 (fun _ => x) (i + 1) r.slots }).bind
      fun r => r.slots[i]? := congrArg (fun r => Option.bind r fun x : RoundRec => x.slots[i]?) put
  rw [written]
  cases round : s.pln.round with
  | none => simp [State.slot, round] at slot
  | some r =>
    rw [State.slot, round] at slot
    have here : nth1 r.slots (i + 1) = some sl := slot
    have after : nth1 (upd1 (fun _ => x) (i + 1) r.slots) (i + 1) = some x := by simp [here]
    exact after

/-- A PUSHING oven whose slot is past WAITING tells the planner nothing of the round. -/
theorem planOvenChanged_round {s : State} {n : Nat} (pushing : s.ovenIs n .pushing = true) (past : s.cursorWaiting = false) :
    (s.planOvenChanged n).pln.round = s.pln.round := by
  unfold planOvenChanged
  rw [if_neg (by simp [pushing]), if_neg (by simp [past])]
  split
  · obtain ⟨r, same⟩ := s.makeupCheck.planReport_pln
    rw [same]
    exact makeupCheck_round s
  · rfl

theorem planReport_loading {s : State} {n : Nat} (loading : s.qnu.car.state = .loading n) :
    s.planReport.qnu.car.state = .loading n := by
  have stays {u : State} (still : u.qnu = s.qnu) (b : Nat) : (u.reconsiderCar b).qnu.car.state = .loading n := by
    rw [← still] at loading
    simp only [reconsiderCar, loading]
  by_cases same : s.retest.nextOven = s.retest.pln.reported
  · rw [planReport_same same]
    simpa using loading
  · rw [planReport_new same]
    dsimp only
    (repeat' split) <;> simp [stays, loading]

theorem planRamStart_loading {s : State} {n k : Nat} (loading : s.qnu.car.state = .loading n) :
    (s.planRamStart k).qnu.car.state = .loading n := by
  by_cases here : s.pln.serving = some .slot ∧ s.cursorSlot.map Slot.oven = some k
  · obtain ⟨serving, at0⟩ := here
    obtain ⟨sl, there, same⟩ := Option.map_eq_some_iff.mp at0
    obtain ⟨i, cursor⟩ := cursor_of_slot there
    rw [cursorSlot, cursor] at there
    rw [planRamStart_slot serving cursor there same]
    exact planReport_loading loading
  · rw [(plan_notServing here).2]
    exact loading

/-! ## A covered DOOR_OFF -/

section
variable {s : State} {m : MachineId} {n : Nat} {d : Side}

theorem doorOpened_ready (ready : s.ovenState n = some .ready) :
    s.doorOpened m n d = (((s.pushOpened m n).doorGoesOff n d).planPushBegins n).ovenChanged n := if_pos ready

theorem doorOpened_other (other : s.ovenState n ≠ some .ready) :
    s.doorOpened m n d = ((s.heardFrom m).setPermit m none).doorGoesOff n d := if_neg other

theorem doorOpened_tb : (s.doorOpened m n d).tb = s.tb := by
  by_cases ready : s.ovenState n = some .ready
  · simp [doorOpened_ready ready, pushOpened]
  · simp [doorOpened_other ready]

theorem doorOpened_permit : (s.doorOpened m n d).permit m = none := by
  have used : ((s.heardFrom m).setPermit m none).ilk.permits.get m = none := by simp
  by_cases ready : s.ovenState n = some .ready
  · rw [doorOpened_ready ready]
    exact permit_of_within (ovenChanged_within (planPushBegins_within (doorGoesOff_within (Within.refl _) _ _) _) _) used
  · rw [doorOpened_other ready]
    exact permit_of_within (doorGoesOff_within (Within.refl _) _ _) used

theorem doorOpened_doorState {x : DoorRec} (present : s.door n d = some x) : (s.doorOpened m n d).doorState n d = some .off := by
  have stood : s.doorState n d = some x.state := by simp [doorState, present]
  have goes {u : State} (doors : u.dru.doors = s.dru.doors) : (u.doorGoesOff n d).doorState n d = some .off := by
    rw [doorGoesOff_doorState, doorState_congr (congrArg _ (door_congr doors n d)), stood]
    rfl
  by_cases ready : s.ovenState n = some .ready
  · rw [doorOpened_ready ready]
    refine (doorState_congr (congrArg _ (door_congr ?_ n d))).trans (goes (u := s.pushOpened m n) rfl)
    rw [(ovenChanged_frame _ _).2.2.2.2.2.2.1, (planPushBegins_frame _ _).2.2.2.2.2.2.1]
  · rw [doorOpened_other ready]
    exact goes (by simp)

section
variable (ready : s.ovenState n = some .ready)
include ready

theorem doorOpened_ot : (s.doorOpened m n d).ot = upd1 (fun o => { o with state := .pushing }) n s.ot := by
  simp [doorOpened_ready ready, pushOpened]

theorem doorOpened_push : PushKept (some ⟨n, .opening, none, false, 1, s.now, none, none, none, false, false, .absent, false,
    false, []⟩) (s.doorOpened m n d).ilk.push := by
  rw [doorOpened_ready ready]
  exact ovenChanged_push (planPushBegins_push (doorGoesOff_push (.refl _) _ _) _) _

theorem doorOpened_slot {i : Nat} {sl : Slot} (serving : s.pln.serving = some .slot) (cursor : s.pln.cursor = some i)
    (slot : s.slot i = some sl) (here : sl.oven = n) (due : sl.status = .due) :
    (s.doorOpened m n d).slot i = some { sl with status := .inPush } := by
  let w := (s.pushOpened m n).doorGoesOff n d
  have plan : w.pln = s.pln := by simp [w, pushOpened]
  have slotW : w.slot i = some sl := (slot_congr (congrArg Planner.round plan) i).trans slot
  let v := w.planPushBegins n
  have begun : v = _ := planPushBegins_due ((congrArg Planner.serving plan).trans serving)
    ((congrArg Planner.cursor plan).trans cursor) slotW here due
  have planV : ∃ r, v.pln = { w.pln with
      round := w.pln.round.map fun r => { r with slots := upd1 (fun _ => { sl with status := .inPush }) (i + 1) r.slots }
      reported := r } := by
    rw [begun]
    exact planReport_pln _
  obtain ⟨r, planV⟩ := planV
  have slotV : v.slot i = some { sl with status := .inPush } := slot_put slotW (congrArg Planner.round planV)
  have cursorV : v.pln.cursor = some i := (congrArg Planner.cursor planV).trans ((congrArg Planner.cursor plan).trans cursor)
  have past : v.cursorWaiting = false := by
    rw [cursorWaiting, cursorStatus_of_slot (cursorSlot_of cursorV slotV)]
    rfl
  have pushing : v.ovenIs n .pushing = true := by
    obtain ⟨o, found, -⟩ := Option.map_eq_some_iff.mp ready
    have here : nth1 s.ot n = some o := found
    have there : v.oven n = some { o with state := .pushing } := by
      simp [oven, v, w, pushOpened, here]
    rw [ovenIs_eq there]
    rfl
  rw [doorOpened_ready ready]
  refine (slot_congr ?_ i).trans slotV
  rw [ovenChanged, (retest_frame _).2.2.1]
  exact planOvenChanged_round pushing past

end

theorem doorOpened_keeps (other : s.ovenState n ≠ some .ready) :
    (s.doorOpened m n d).ot = s.ot ∧ PushKept s.ilk.push (s.doorOpened m n d).ilk.push := by
  rw [doorOpened_other other]
  exact ⟨by simp, doorGoesOff_push (.refl _) _ _⟩

end

/-! ## A covered RAM_START -/

section
variable {s : State} {n : Nat} {q : PushRec}

theorem ramStarted_eq : s.ramStarted n q = ((s.ramPushed n q).ramStartCar n).planRamStart n := rfl

theorem ramStarted_keeps : (s.ramStarted n q).tb = s.tb ∧ (s.ramStarted n q).ot = s.ot
    ∧ (s.ramStarted n q).ilk.lastRam = some (s.now, s.secOf n)
    ∧ ((s.ramStarted n q).machine .pm).status = some (.ram .forward) := by
  rw [ramStarted_eq]
  refine ⟨by simp [ramPushed, updMachine], by simp [ramPushed, updMachine], by simp [ramPushed], ?_⟩
  rw [machine, (planRamStart_frame _ n).2.2.1, (ramStartCar_frame _ n).2.2.2.1]
  simp [ramPushed, updMachine]

theorem ramStarted_permit : (s.ramStarted n q).permit .pm = none :=
  permit_of_within (planRamStart_within (ramStartCar_within (Within.refl (s.ramPushed n q).ilk.permits) n) n) rfl

theorem ramStarted_push : PushKept (some { q with
    stage := .ramForward, armedFrom := none, ramStart := some s.now, ramEnd := none, ramHome := none,
    derivedEnd := false, derivedHome := false, retry := false, late := false
    timer := if s.ilk.stop = true ∨ q.unconfirmed = true then .held s.cfg.timing.tRam
      else .running (min tMax (s.now + s.cfg.timing.tRam)) }) (s.ramStarted n q).ilk.push :=
  planRamStart_push (ramStartCar_push (.refl _) n) n

theorem ramStarted_loading (spotted : s.qnu.car.state = .spotted n) : (s.ramStarted n q).qnu.car.state = .loading n := by
  rw [ramStarted_eq]
  refine planRamStart_loading ?_
  rw [ramStartCar_spotted (s := s.ramPushed n q) spotted, (retest_frame _).2.2.2.2.2.2.2.2.2.2.2.2.2.2.2.1]
  exact setCar_state _ _

theorem ramPushed_plan : ((s.ramPushed n q).ramStartCar n).pln = s.pln := by simp [ramPushed, updMachine]

theorem ramStarted_slot {i : Nat} {sl : Slot} (serving : s.pln.serving = some .slot) (cursor : s.pln.cursor = some i)
    (slot : s.slot i = some sl) (here : sl.oven = n) :
    (s.ramStarted n q).slot i = some { sl with pushStart := some (sl.pushStart.getD s.now) }
      ∧ (s.ramStarted n q).pln.lag = min 86400 (max s.pln.lag (s.now - sl.planned)) := by
  let w := (s.ramPushed n q).ramStartCar n
  have plan : w.pln = s.pln := ramPushed_plan
  have time : w.now = s.now := by simp [w, ramPushed, updMachine, now]
  have slotW : w.slot i = some sl := (slot_congr (congrArg Planner.round plan) i).trans slot
  have started : s.ramStarted n q = _ := planRamStart_slot (s := w) ((congrArg Planner.serving plan).trans serving)
    ((congrArg Planner.cursor plan).trans cursor) slotW here
  obtain ⟨r, planned⟩ := planReport_pln { w with
    pln.round := w.pln.round.map fun r =>
      { r with slots := upd1 (fun _ => { sl with pushStart := some (sl.pushStart.getD w.now) }) (i + 1) r.slots }
    pln.lag := min 86400 (max w.pln.lag (w.now - sl.planned)) }
  rw [← started] at planned
  refine ⟨?_, ?_⟩
  · rw [slot_put slotW (congrArg Planner.round planned), time]
  · rw [planned, plan, time]

theorem ramStarted_other (h : ¬ (s.pln.serving = some .slot ∧ s.cursorSlot.map Slot.oven = some n)) :
    (s.ramStarted n q).pln = s.pln := by
  have plan := ramPushed_plan (s := s) (n := n) (q := q)
  have slots : ((s.ramPushed n q).ramStartCar n).cursorSlot = s.cursorSlot := by
    rw [cursorSlot, plan, cursorSlot]
    exact congrArg (Option.bind s.pln.cursor) (funext (slot_congr (congrArg Planner.round plan)))
  rw [ramStarted_eq, (plan_notServing (s := (s.ramPushed n q).ramStartCar n) (by rw [plan, slots]; exact h)).2, plan]

end

end State

/-- Settles O39. -/
theorem coveredReportsOpenAndPush : Obligations.CoveredReportsOpenAndPush := by
  unfold Obligations.CoveredReportsOpenAndPush
  refine ⟨fun s n i sl serving cursor slot here => ⟨planPushBegins_due serving cursor slot here,
    planRamStart_slot serving cursor slot here⟩, fun s n => plan_notServing, fun s n => ⟨ramStartCar_spotted, ramStartCar_without⟩,
    fun s n d x present => ?_, fun s n => ⟨fun d p => ?_, fun p q untested held kind place inTable push => ?_⟩,
    fun s n early => ⟨fun d p x => ?_, fun p q untested held kind place inTable push here stage => ?_⟩⟩
  · intro m waits kept off withdrawn freed released offered
    refine ⟨doorGoesOff_off present, fun stood => ?_⟩
    have machine : Side.machine d = m := by cases d <;> rfl
    have dropped : (s.updDoor n d fun r => { r with state := .off, confirm := none, resealPending := false }).dropSealWork d n
        = off := dropSealWork_queue _ d n
    have left : off.queue d = kept := (queue_setQueue _ d d kept).trans (if_pos rfl)
    have withdraws : off.withdrawAt n d = freed := withdrawAt_eq left (visit := (s.round d).visit) rfl machine n
    have goes := (doorGoesOff_stood present stood).1
    rw [dropped, withdraws] at goes
    exact goes
  · intro m untested held kind place inTable u opened
    have machine : Side.machine d = m := by cases d <;> rfl
    have kind' : p.kind = doorKind d := by cases d <;> exact kind
    exact exec_doorOff_covered machine untested held kind' place inTable
  · exact exec_ramStart_covered untested held kind place inTable push
  · intro m untested held kind place inTable present
    have machine : Side.machine d = m := by cases d <;> rfl
    have kind' : p.kind = doorKind d := by cases d <;> exact kind
    let v := s.doorOpened m n d
    have took : exec (.doorOff m n (some d)) s = ends (v.retest.dispatchDoor d) :=
      exec_doorOff_covered machine untested held kind' place inTable
    obtain ⟨ovens, plan, doors, -⟩ := reported_keeps (v := v) (d := d)
    refine ⟨(v.retest.dispatchDoor d).kick, reported_settles took early doorOpened_tb, reported_permit doorOpened_permit,
      (doorState_congr (congrArg _ (door_congr doors n d))).trans (doorOpened_doorState present), fun ready => ⟨?_, ?_, ?_⟩,
      fun other => ?_⟩
    · exact ovens.trans (doorOpened_ot ready)
    · exact (reported_push (doorOpened_push ready)).unarmed rfl
    · intro i sl serving cursor slot here due
      exact (slot_congr (congrArg Planner.round plan) i).trans (doorOpened_slot ready serving cursor slot here due)
    · obtain ⟨same, kept⟩ := doorOpened_keeps (m := m) (d := d) other
      exact ⟨ovens.trans same, (reported_push kept).eq_none_iff.symm⟩
  · let v := s.ramStarted n q
    have took : exec (.ramStart .pm n) s = ends (v.retest.dispatchDoor .ps) :=
      exec_ramStart_covered untested held kind place inTable push
    obtain ⟨tb, ot, lastRam, status⟩ := ramStarted_keeps (s := s) (n := n) (q := q)
    obtain ⟨ovens, plan, -, machines, last, car⟩ := reported_keeps (v := v) (d := .ps)
    refine ⟨(v.retest.dispatchDoor .ps).kick, reported_settles took early tb, reported_permit ramStarted_permit,
      (reported_push ramStarted_push).unarmed rfl, last.trans lastRam, ?_, fun spotted => ?_, ovens.trans ot,
      fun i sl serving cursor slot here => ?_, fun other => ?_⟩
    · rw [machine, machines]
      exact status
    · rw [car]
      exact ramStarted_loading spotted
    · obtain ⟨slotV, lag⟩ := ramStarted_slot (q := q) serving cursor slot here
      exact ⟨(slot_congr (congrArg Planner.round plan) i).trans slotV, (congrArg Planner.lag plan).trans lag⟩
    · have same := plan.trans (ramStarted_other (q := q) other)
      exact ⟨congrArg Planner.round same, congrArg Planner.lag same⟩

end Sys2Proof.Machine
end
